-- ==== Sys2Proof/Word.lean ====
section
/-!
DEFINITION. Word.lean: the word types of the Karxia KX-8112 (R9, R14, R63, R118) and the number types of its
named parts (R15, R18, R115, R277).
-/

namespace Sys2Proof

/-- A memory byte. -/
abbrev Byte := BitVec 8
/-- A half-word. -/
abbrev Half := BitVec 16
/-- A register, an instruction word, a field of a queue entry: 32 bits (R9, R118). -/
abbrev Word := BitVec 32
/-- A 64-bit quantity: a cursor, a counter, a page table entry. -/
abbrev Dword := BitVec 64
/-- A granule: the 128 data bits of a capability or of a decimal128 value (R63, R161). -/
abbrev Quad := BitVec 128

/-- A bench of the device (R20). -/
abbrev BenchNo := Fin 8
/-- A core of a bench: 0 to 15 are QUAD * 4 + CORE (R18), 16 is the bench supervisor core. -/
abbrev CoreNo := Fin 17
/-- A register bank of a core (R277). -/
abbrev BankNo := Fin 8
/-- A 5-bit register field (R119). -/
abbrev Reg := Fin 32

/-- The bench supervisor core's number in this model (the spec numbers only quad cores). -/
abbrev bsc : CoreNo := 16

end Sys2Proof
end

