-- ==== Sys2Proof/Machine/Types.lean ====
section
/-!
DEFINITION. Machine/Types.lean: the small data types that the state, the commands and the operations share:
capabilities (R63), trap causes (R225), access kinds (R335, R378) and master identities (R371).
-/

namespace Sys2Proof.Machine

/-- A capability: 128 bits and the out-of-band tag (R63, R64). -/
structure Cap where
  tag : Bool
  bits : Quad
  deriving DecidableEq, Repr

/-- Trap causes (R225). -/
inductive Cause where
  | capTag | capBounds | capPerm | capSeal | capAlign
  | pageNotPresent | pageRights | walkTarget | walkError | pageCaps
  | nxFetch | shadowMismatch | shadowOverflow | shadowUnderflow
  | reservedOp | coprocAbsent | illegal | misaligned | event | decimal | memoryError
  deriving DecidableEq, Repr

/-- A fault of an instruction before it is taken: its cause and what ECAUSE and ETVAL take (R221, R224). -/
structure Trap where
  cause : Cause
  etval : Dword
  /-- ECAUSE.PART: the upper part of a split access. -/
  part : Bool := false
  /-- ECAUSE.LAST: an access to the Last. -/
  onLast : Bool := false
  /-- ECAUSE.LEVEL: the walk level of WALK_TARGET and WALK_ERROR. -/
  level : Nat := 0
  deriving DecidableEq, Repr

/-- The kinds of access that the page checks tell apart (R335). -/
inductive Access where
  | fetch | load | store | atomic
  /-- A capability load (R336). -/
  | capLoad
  /-- A capability store of a tagged value (R93, R335). -/
  | capStore
  /-- A capability atomic whose stored value is tagged. -/
  | capAtomic
  deriving DecidableEq, Repr

/-- The type of a physical address (R324). -/
inductive PaType where
  | normal | register | host | unpopulated
  deriving DecidableEq, Repr

/-- The guard field (R121): p[k], or not p[k + 1]. The encoding "not p0" is the prefix space and is no guard. -/
inductive Guard where
  | ifp (k : Fin 8)
  | ifnot (k : Fin 7)
  deriving DecidableEq, Repr

/-- Where a command executes: bench, core and the word's guard. -/
structure Exec where
  bench : BenchNo
  core : CoreNo
  guard : Guard
  deriving DecidableEq, Repr

/-- The post-increment loads (R185). -/
inductive LoadPi where
  | lb | lbu | lh | lhu | lw | clc | dld
  deriving DecidableEq, Repr

/-- The post-increment stores (R185). -/
inductive StorePi where
  | sb | sh | sw | csc | dst
  deriving DecidableEq, Repr

/-- The fills (R187). -/
inductive FillSize where
  | b | h | w | g
  deriving DecidableEq, Repr

/-- The byte compares (R197). -/
inductive ByteCmp where
  | eq | ne | ltu | geu
  deriving DecidableEq, Repr

/-- The instructions that a prefix may repeat (R131). -/
inductive RepForm where
  | mac (rd rs1 rs2 : Reg)
  | macbPi (rd cs1 rs2 : Reg)
  | crcb (poly : Fin 3) (rd rs1 : Reg)
  | crcw (poly : Fin 3) (rd rs1 : Reg)
  | crcbPi (poly : Fin 3) (rd cs1 : Reg)
  | load (k : LoadPi) (down : Bool) (rd cs1 : Reg)
  | store (k : StorePi) (down : Bool) (rs2 cs1 : Reg)
  | fill (k : FillSize) (down : Bool) (cs1 rs2 : Reg)
  | cmpb (k : ByteCmp) (down : Bool) (pd cs1 rs2 : Reg)
  | ckpush (cs1 rs2 : Reg)
  | jpush (cs1 : Reg)
  deriving DecidableEq, Repr

/-- What the scrubber's check finds in a line (R407, R408, R411, R412). -/
inductive LineState where
  | intact | correctable | uncorrectable | tagCorrectable | tagLost
  deriving DecidableEq, Repr

/-- Who makes a register access or an access of its own (R371). -/
inductive Writer where
  | core (k : CoreNo)
  | host
  | dmc
  deriving DecidableEq, Repr

/-- Whose register a REGISTER_WRITE names: one of a bench over its own interconnect, one of the host view of a bench (R665), or one of
PF0 BAR0 (R667, R718). -/
inductive RegTarget where
  | bench (b : BenchNo) (w : Writer)
  | host (b : BenchNo)
  | pf0
  deriving DecidableEq, Repr

/-- An access of the host through BAR2 (R654). -/
inductive HostAccess where
  | read (n : BitVec 13)
  | write (bytes : List Byte)
  deriving DecidableEq, Repr

end Sys2Proof.Machine
end

