-- ==== Sys2Proof/Syntax.lean ====
section
/-!
DEFINITION. Syntax.lean: the commands of the KX-8112 model, one constructor for each row of spec/opcode_table.json, in the
table's order. An instruction row names the core that executes the instruction (Exec: bench, core, guard) and its
operand fields as the catalogue gives them; every other row names its bench and what the occurrence carries.
-/

namespace Sys2Proof

open Sys2Proof.Machine

/-- The commands. -/
inductive Instr where

  | add (x : Exec) (rd rs1 rs2 : Reg)
  | sub (x : Exec) (rd rs1 rs2 : Reg)
  | and (x : Exec) (rd rs1 rs2 : Reg)
  | or (x : Exec) (rd rs1 rs2 : Reg)
  | xor (x : Exec) (rd rs1 rs2 : Reg)
  | andn (x : Exec) (rd rs1 rs2 : Reg)
  | orn (x : Exec) (rd rs1 rs2 : Reg)
  | xnor (x : Exec) (rd rs1 rs2 : Reg)
  | sll (x : Exec) (rd rs1 rs2 : Reg)
  | srl (x : Exec) (rd rs1 rs2 : Reg)
  | sra (x : Exec) (rd rs1 rs2 : Reg)
  | rol (x : Exec) (rd rs1 rs2 : Reg)
  | ror (x : Exec) (rd rs1 rs2 : Reg)
  | min (x : Exec) (rd rs1 rs2 : Reg)
  | max (x : Exec) (rd rs1 rs2 : Reg)
  | minu (x : Exec) (rd rs1 rs2 : Reg)
  | maxu (x : Exec) (rd rs1 rs2 : Reg)
  | clz (x : Exec) (rd rs1 : Reg)
  | ctz (x : Exec) (rd rs1 : Reg)
  | popc (x : Exec) (rd rs1 : Reg)
  | sextb (x : Exec) (rd rs1 : Reg)
  | sexth (x : Exec) (rd rs1 : Reg)
  | zexth (x : Exec) (rd rs1 : Reg)
  | bswap (x : Exec) (rd rs1 : Reg)
  | mul (x : Exec) (rd rs1 rs2 : Reg)
  | mulh (x : Exec) (rd rs1 rs2 : Reg)
  | mulhu (x : Exec) (rd rs1 rs2 : Reg)
  | mulhsu (x : Exec) (rd rs1 rs2 : Reg)
  | div (x : Exec) (rd rs1 rs2 : Reg)
  | divu (x : Exec) (rd rs1 rs2 : Reg)
  | rem (x : Exec) (rd rs1 rs2 : Reg)
  | remu (x : Exec) (rd rs1 rs2 : Reg)
  | addi (x : Exec) (rd rs1 : Reg) (imm : BitVec 11)
  | andi (x : Exec) (rd rs1 : Reg) (imm : BitVec 11)
  | ori (x : Exec) (rd rs1 : Reg) (imm : BitVec 11)
  | xori (x : Exec) (rd rs1 : Reg) (imm : BitVec 11)
  | slli (x : Exec) (rd rs1 : Reg) (sh : BitVec 5)
  | srli (x : Exec) (rd rs1 : Reg) (sh : BitVec 5)
  | srai (x : Exec) (rd rs1 : Reg) (sh : BitVec 5)
  | rori (x : Exec) (rd rs1 : Reg) (sh : BitVec 5)
  | lui (x : Exec) (rd : Reg) (imm : BitVec 16)
  | lil (x : Exec) (rd : Reg) (imm : BitVec 16)
  | mac (x : Exec) (rd rs1 rs2 : Reg)
  | macbPi (x : Exec) (rd cs1 rs2 : Reg)
  | crcb (x : Exec) (poly : Fin 3) (rd rs1 : Reg)
  | crcw (x : Exec) (poly : Fin 3) (rd rs1 : Reg)
  | crcbPi (x : Exec) (poly : Fin 3) (rd cs1 : Reg)
  | lb (x : Exec) (rd cs1 : Reg) (imm : BitVec 11)
  | lbu (x : Exec) (rd cs1 : Reg) (imm : BitVec 11)
  | lh (x : Exec) (rd cs1 : Reg) (imm : BitVec 11)
  | lhu (x : Exec) (rd cs1 : Reg) (imm : BitVec 11)
  | lw (x : Exec) (rd cs1 : Reg) (imm : BitVec 11)
  | sb (x : Exec) (rs2 cs1 : Reg) (imm : BitVec 11)
  | sh (x : Exec) (rs2 cs1 : Reg) (imm : BitVec 11)
  | sw (x : Exec) (rs2 cs1 : Reg) (imm : BitVec 11)
  | clc (x : Exec) (cd cs1 : Reg) (imm : BitVec 11)
  | csc (x : Exec) (cs2 cs1 : Reg) (imm : BitVec 11)
  | dld (x : Exec) (dd cs1 : Reg) (imm : BitVec 11)
  | dst (x : Exec) (ds2 cs1 : Reg) (imm : BitVec 11)
  | lbPi (x : Exec) (down : Bool) (rd cs1 : Reg)
  | lbuPi (x : Exec) (down : Bool) (rd cs1 : Reg)
  | lhPi (x : Exec) (down : Bool) (rd cs1 : Reg)
  | lhuPi (x : Exec) (down : Bool) (rd cs1 : Reg)
  | lwPi (x : Exec) (down : Bool) (rd cs1 : Reg)
  | clcPi (x : Exec) (down : Bool) (cd cs1 : Reg)
  | dldPi (x : Exec) (down : Bool) (dd cs1 : Reg)
  | sbPi (x : Exec) (down : Bool) (rs2 cs1 : Reg)
  | shPi (x : Exec) (down : Bool) (rs2 cs1 : Reg)
  | swPi (x : Exec) (down : Bool) (rs2 cs1 : Reg)
  | cscPi (x : Exec) (down : Bool) (cs2 cs1 : Reg)
  | dstPi (x : Exec) (down : Bool) (ds2 cs1 : Reg)
  | fillB (x : Exec) (down : Bool) (cs1 rs2 : Reg)
  | fillH (x : Exec) (down : Bool) (cs1 rs2 : Reg)
  | fillW (x : Exec) (down : Bool) (cs1 rs2 : Reg)
  | fillG (x : Exec) (down : Bool) (cs1 rs2 : Reg)
  | amoswapW (x : Exec) (aq rl : Bool) (rd rs2 cs1 : Reg)
  | amocasW (x : Exec) (aq rl : Bool) (rd rs2 cs1 : Reg)
  | amoaddW (x : Exec) (aq rl : Bool) (rd rs2 cs1 : Reg)
  | amoorW (x : Exec) (aq rl : Bool) (rd rs2 cs1 : Reg)
  | amoandW (x : Exec) (aq rl : Bool) (rd rs2 cs1 : Reg)
  | amocasC (x : Exec) (aq rl : Bool) (cd cs2 cs1 : Reg)
  | cmov (x : Exec) (cd cs1 : Reg)
  | cclrtag (x : Exec) (cd cs1 : Reg)
  | csetcl (x : Exec) (cd cs1 rs2 : Reg)
  | cinc (x : Exec) (cd cs1 rs2 : Reg)
  | cinch (x : Exec) (cd cs1 rs2 : Reg)
  | csetb (x : Exec) (cd cs1 rs2 : Reg)
  | csetb4k (x : Exec) (cd cs1 rs2 : Reg)
  | csetbx (x : Exec) (cd cs1 rs2 : Reg)
  | candp (x : Exec) (cd cs1 rs2 : Reg)
  | cseal (x : Exec) (cd cs1 cs2 : Reg)
  | cunseal (x : Exec) (cd cs1 cs2 : Reg)
  | cgate (x : Exec) (cd cs1 : Reg)
  | cgetpcc (x : Exec) (cd : Reg)
  | cgbasel (x : Exec) (rd cs1 : Reg)
  | cgbaseh (x : Exec) (rd cs1 : Reg)
  | cgtopl (x : Exec) (rd cs1 : Reg)
  | cgtoph (x : Exec) (rd cs1 : Reg)
  | cgtopx (x : Exec) (rd cs1 : Reg)
  | cglenl (x : Exec) (rd cs1 : Reg)
  | cglenh (x : Exec) (rd cs1 : Reg)
  | cgcurl (x : Exec) (rd cs1 : Reg)
  | cgcurh (x : Exec) (rd cs1 : Reg)
  | cgperm (x : Exec) (rd cs1 : Reg)
  | cgtype (x : Exec) (rd cs1 : Reg)
  | cgtag (x : Exec) (rd cs1 : Reg)
  | cgexp (x : Exec) (rd cs1 : Reg)
  | crrl (x : Exec) (rd rs1 : Reg)
  | cram (x : Exec) (rd rs1 : Reg)
  | cinci (x : Exec) (cd cs1 : Reg) (imm : BitVec 11)
  | csetbi (x : Exec) (cd cs1 : Reg) (imm : BitVec 11)
  | j (x : Exec) (off : BitVec 21)
  | jal (x : Exec) (off : BitVec 21)
  | jr (x : Exec) (cs1 : Reg)
  | jalr (x : Exec) (cs1 : Reg)
  | ret (x : Exec) (cs1 : Reg)
  | rete (x : Exec)
  | enter (x : Exec) (n : Fin 8)
  | cmpEq (x : Exec) (pd rs1 rs2 : Reg)
  | cmpNe (x : Exec) (pd rs1 rs2 : Reg)
  | cmpLt (x : Exec) (pd rs1 rs2 : Reg)
  | cmpLtu (x : Exec) (pd rs1 rs2 : Reg)
  | cmpGe (x : Exec) (pd rs1 rs2 : Reg)
  | cmpGeu (x : Exec) (pd rs1 rs2 : Reg)
  | cmpTst (x : Exec) (pd rs1 rs2 : Reg)
  | cmpTstz (x : Exec) (pd rs1 rs2 : Reg)
  | cmpeqi (x : Exec) (pd rs1 : Reg) (imm : BitVec 11)
  | cmplti (x : Exec) (pd rs1 : Reg) (imm : BitVec 11)
  | cmpltui (x : Exec) (pd rs1 : Reg) (imm : BitVec 11)
  | predicateAnd (x : Exec) (neg : Bool) (pd ps1 ps2 : Reg)
  | predicateOr (x : Exec) (neg : Bool) (pd ps1 ps2 : Reg)
  | predicateXor (x : Exec) (neg : Bool) (pd ps1 ps2 : Reg)
  | predicateAndNot (x : Exec) (neg : Bool) (pd ps1 ps2 : Reg)
  | pset (x : Exec) (pd : Reg)
  | pclr (x : Exec) (pd : Reg)
  | prd (x : Exec) (rd : Reg)
  | pwr (x : Exec) (rs1 : Reg)
  | cmpbEqPi (x : Exec) (down : Bool) (pd cs1 rs2 : Reg)
  | cmpbNePi (x : Exec) (down : Bool) (pd cs1 rs2 : Reg)
  | cmpbLtuPi (x : Exec) (down : Bool) (pd cs1 rs2 : Reg)
  | cmpbGeuPi (x : Exec) (down : Bool) (pd cs1 rs2 : Reg)
  | ceqx (x : Exec) (pd cs1 cs2 : Reg)
  | ctsub (x : Exec) (pd cs1 cs2 : Reg)
  | sysrd (x : Exec) (rd : Reg) (n : BitVec 11)
  | syswr (x : Exec) (rd : Reg) (n : BitVec 11)
  | csysrd (x : Exec) (cd : Reg) (n : BitVec 11)
  | csyswr (x : Exec) (cd : Reg) (n : BitVec 11)
  | escLockWrite (x : Exec) (rd : Reg)
  | fence (x : Exec) (pred succ : BitVec 3)
  | fenceI (x : Exec)
  | fenceT (x : Exec)
  | tlbiAll (x : Exec) (bcast : Bool)
  | tlbiAsid (x : Exec) (bcast : Bool) (rs1 : Reg)
  | tlbiVa (x : Exec) (bcast : Bool) (rs1 rs2 : Reg)
  | tlbiVaAsid (x : Exec) (bcast : Bool) (rs1 rs2 : Reg)
  | tlbiBCompletion (b : BenchNo)
  | hold (x : Exec) (n : BitVec 12)
  | release (x : Exec)
  | holdExpiry (b : BenchNo) (k : CoreNo)
  | brx (x : Exec) (rd rs1 : Reg)
  | bwx (x : Exec) (rd rs1 : Reg)
  | brc (x : Exec) (cd cs1 : Reg)
  | bwc (x : Exec) (cd cs1 : Reg)
  | brd (x : Exec) (dd ds1 : Reg)
  | bwd (x : Exec) (dd ds1 : Reg)
  | brs (x : Exec) (rd sel : Reg)
  | bws (x : Exec) (sel rs1 : Reg)
  | brpcc (x : Exec) (cd : Reg)
  | bwpcc (x : Exec) (cs1 : Reg)
  | savel (x : Exec)
  | saveu (x : Exec)
  | loadl (x : Exec)
  | loadu (x : Exec)
  | sev (x : Exec) (n : BitVec 6)
  | wait (x : Exec)
  | yield (x : Exec)
  | eret (x : Exec)
  | rep (b : BenchNo) (k : CoreNo) (count : BitVec 6) (w : Word)
  | repi (b : BenchNo) (k : CoreNo) (rs1 : Reg) (w : Word)
  | dadd (x : Exec) (rm : BitVec 3) (dd ds1 ds2 : Reg)
  | dsub (x : Exec) (rm : BitVec 3) (dd ds1 ds2 : Reg)
  | dmul (x : Exec) (rm : BitVec 3) (dd ds1 ds2 : Reg)
  | ddiv (x : Exec) (rm : BitVec 3) (dd ds1 ds2 : Reg)
  | dqua (x : Exec) (rm : BitVec 3) (dd ds1 ds2 : Reg)
  | dtfx (x : Exec) (rm : BitVec 3) (rk ds1 : Reg) (sc : BitVec 5)
  | dtbcd (x : Exec) (rm : BitVec 3) (rk ds1 : Reg) (sc : BitVec 5)
  | dceq (x : Exec) (pd ds1 ds2 : Reg)
  | dclt (x : Exec) (pd ds1 ds2 : Reg)
  | dcle (x : Exec) (pd ds1 ds2 : Reg)
  | dcun (x : Exec) (pd ds1 ds2 : Reg)
  | dffx (x : Exec) (dd rk : Reg) (sc : BitVec 5)
  | dtfxe (x : Exec) (rk ds1 : Reg) (sc : BitVec 5)
  | dfbcd (x : Exec) (dd rk : Reg) (sc : BitVec 5)
  | dmov (x : Exec) (dd ds1 : Reg)
  | dneg (x : Exec) (dd ds1 : Reg)
  | dabs (x : Exec) (dd ds1 : Reg)
  | dcsrr (x : Exec) (rd : Reg)
  | dcsrw (x : Exec) (rs1 : Reg)
  | dmfx (x : Exec) (rd ds1 : Reg) (i : Fin 4)
  | dmtx (x : Exec) (dd rs1 : Reg) (i : Fin 4)
  | esub (x : Exec) (rd cs1 rs2 : Reg)
  | epoll (x : Exec) (rd cs1 rs2 : Reg)
  | ckpush (x : Exec) (cs1 rs2 : Reg)
  | ckpop (x : Exec) (rd cs1 rs2 : Reg)
  | clpush (x : Exec) (cs1 rs2 : Reg)
  | clpop (x : Exec) (rd cs1 rs2 : Reg)
  | jpush (x : Exec) (cs1 : Reg)
  | japp (x : Exec) (rd cs1 rs2 : Reg)
  | trd (x : Exec) (rd : Reg)
  | trdc (x : Exec) (cs1 : Reg)
  | strandSwitch (b : BenchNo) (k : CoreNo)
  | eventOccurrence (b : BenchNo) (src : Fin 1024) (lvl : Bool)
  | eventTrapDelivery (b : BenchNo) (k : CoreNo)
  | bscTrapDelivery (b : BenchNo)
  | stormWindowRollover (b : BenchNo)
  | evstatMaskedClear (b : BenchNo) (w : Writer) (src : Fin 1024) (count : Half)
  | taskStart (b : BenchNo) (w : Writer) (t : Fin 4096)
  | taskStop (b : BenchNo) (w : Writer) (t : Fin 4096)
  | taskWake (b : BenchNo) (w : Writer) (t : Fin 4096)
  | taskFree (b : BenchNo) (w : Writer) (t : Fin 4096)
  | taskPlacement (b : BenchNo)
  | taskLoad (b : BenchNo) (k : CoreNo)
  | shootdownDoorbell (b : BenchNo) (w : Writer) (cores : Half)
  | shootdownAck (b : BenchNo) (w : Writer) (cores : Half)
  | etuInvalidate (b : BenchNo) (w : Writer) (scope : BitVec 2)
  | etuInvalidateDone (b : BenchNo)
  | mafSwap (b : BenchNo) (w : Writer)
  | mafSwapCheckEnd (b : BenchNo) (outstanding : Bool)
  | mafDrainEnd (b : BenchNo)
  | rakeSweep (b : BenchNo) (w : Writer)
  | rakeAbort (b : BenchNo) (w : Writer)
  | rakeTagclear (b : BenchNo) (w : Writer)
  | rakeTagcount (b : BenchNo) (w : Writer)
  | rakeCommandEnd (b : BenchNo) (reached : BitVec 34)
  | scrubRead (b : BenchNo) (found : LineState)
  | scrubPassEnd (b : BenchNo)
  | vaultInfo (b : BenchNo) (w : Writer)
  | vaultDelete (b : BenchNo) (w : Writer)
  | vaultRevoke (b : BenchNo) (w : Writer)
  | vaultPin (b : BenchNo) (w : Writer)
  | vaultUnpin (b : BenchNo) (w : Writer)
  | vaultPurge (b : BenchNo) (w : Writer)
  | vaultAbort (b : BenchNo) (w : Writer)
  | vaultForgetPrevious (b : BenchNo) (w : Writer)
  | vaultCommandEnd (b : BenchNo)
  | cerOpen
  | cerShare
  | cerAbort
  | ceremonyTimeout (b : BenchNo)
  | epochAdvanceOpen
  | epochAdvanceSign
  | epochAdvanceCancel
  | epochAdvanceTimeout
  | pkeSign (b : BenchNo) (n : Fin 4)
  | pkeVerify (b : BenchNo) (n : Fin 4)
  | rsaCrtSign (b : BenchNo) (n : Fin 4)
  | rsaVerify (b : BenchNo) (n : Fin 4)
  | keyAgreement (b : BenchNo) (n : Fin 4)
  | ephemeralKeyAgreement (b : BenchNo) (n : Fin 4)
  | pkePublicKeyDerivation (b : BenchNo) (n : Fin 4)
  | mlDsaSign (b : BenchNo) (n : Fin 2)
  | mlDsaVerify (b : BenchNo) (n : Fin 2)
  | mlKemEncapsulate (b : BenchNo) (n : Fin 2)
  | mlKemDecapsulate (b : BenchNo) (n : Fin 2)
  | lkePublicKeyDerivation (b : BenchNo) (n : Fin 2)
  | encrypt (b : BenchNo) (n : Fin 4)
  | decrypt (b : BenchNo) (n : Fin 4)
  | macGenerate (b : BenchNo) (n : Fin 4)
  | macVerify (b : BenchNo) (n : Fin 4)
  | pinTranslate (b : BenchNo) (n : Fin 4)
  | pinReformat (b : BenchNo) (n : Fin 4)
  | pinCompare (b : BenchNo) (n : Fin 4)
  | arqcVerify (b : BenchNo) (n : Fin 4)
  | keyLoad (b : BenchNo) (n : Fin 4)
  | keyGenerate (b : BenchNo) (n : Fin 4)
  | keyTrust (b : BenchNo) (n : Fin 4)
  | keyRewrap (b : BenchNo) (n : Fin 4)
  | deriveEmv (b : BenchNo) (n : Fin 4)
  | deriveDukpt (b : BenchNo) (n : Fin 4)
  | deriveKdf (b : BenchNo) (n : Fin 4)
  | keyImport (b : BenchNo) (n : Fin 4)
  | keyExport (b : BenchNo) (n : Fin 4)
  | hash (b : BenchNo) (n : Fin 2)
  | drbgGenerate (b : BenchNo)
  | drbgReseed (b : BenchNo)
  | drbgReseedDue (b : BenchNo)
  | entropySourceFailure (b : BenchNo) (second : Bool)
  | cut (b : BenchNo) (n : Fin 2)
  | cutStream (b : BenchNo) (n : Fin 2)
  | assemble (b : BenchNo) (n : Fin 2)
  | assembleStream (b : BenchNo) (n : Fin 2)
  | streamStall (b : BenchNo) (n : Fin 4)
  | jobCompletion (b : BenchNo) (n : Fin 17)
  | ringEnable (b : BenchNo) (w : Writer) (n : Fin 17) (ring : Fin 4) (depth prio : BitVec 2)
  | ringDisable (b : BenchNo) (w : Writer) (n : Fin 17) (ring : Fin 4)
  | tokenExpiry (b : BenchNo) (n : Fin 17) (i : Fin 32)
  | patLoad (b : BenchNo) (w : Writer)
  | patLoadEnd (b : BenchNo)
  | patSwap (b : BenchNo) (w : Writer)
  | patSwapCheckEnd (b : BenchNo)
  | patDrainEnd (b : BenchNo)
  | ustateWriteRequested (b : BenchNo) (w : Writer) (u : Fin 544) (v : BitVec 4)
  | ustateForce (b : BenchNo) (w : Writer) (u : Fin 544)
  | forcedResetCompletion (b : BenchNo) (u : Fin 544) (katFails : Bool)
  | unitQuiescentPoint (b : BenchNo) (u : Fin 544)
  | divergenceTimeout (b : BenchNo) (u : Fin 544)
  | journalRecoveryEnd (b : BenchNo)
  | receivedRecord (b : BenchNo)
  | itemTimeout (b : BenchNo) (i : BitVec 19)
  | checkpointRecord (b : BenchNo)
  | signatureEntryWrite (b : BenchNo)
  | dedupSweep (b : BenchNo)
  | hostMirrorWrite (b : BenchNo)
  | hackWrite (b : BenchNo) (w : Writer) (hi : Bool) (v : Word)
  | swrelWrite (b : BenchNo) (w : Writer) (hi : Bool) (v : Word)
  | journalLoRead (b : BenchNo) (w : Writer) (r : Fin 8)
  | partnerSend (b : BenchNo)
  | partnerRetransmitTimeout (b : BenchNo)
  | servoMeasurement (b : BenchNo) (p : Bool) (off : BitVec 64) (announce : Option (Half × BitVec 48))
  | ptpMessageTransmit (b : BenchNo) (p : Bool) (kind : BitVec 4)
  | holdoverEntry (b : BenchNo) (other : Option (BitVec 64))
  | timeSetWrite (b : BenchNo) (w : Writer) (v : Word)
  | timeNow0Read (b : BenchNo) (w : Writer)
  | ppsInputEdge (b : BenchNo) (sub : BitVec 18)
  | secondBoundary (b : BenchNo)
  | ppsOutputFall (b : BenchNo)
  | latencyCalibration (b : BenchNo) (p : Bool)
  | benchTimerExpiry (b : BenchNo) (i : Fin 64)
  | timerWrite (b : BenchNo) (w : Writer) (i : Fin 64) (v : Word)
  | linkChange (b : BenchNo) (p : Bool) (up : Bool) (rate : BitVec 3) (anDone : Bool)
  | frameReceive (b : BenchNo) (p : Bool) (frame : List Byte) (fcsOk : Bool)
  | tlsRecordDecryptEnd (b : BenchNo) (n : Fin 4)
  | rxQueueDelivery (b : BenchNo) (q : Fin 128)
  | tcpRetransmitTimeout (b : BenchNo) (conn : Fin 16384)
  | tcpKeepaliveExpiry (b : BenchNo) (conn : Fin 16384)
  | delayedAckExpiry (b : BenchNo) (conn : Fin 16384)
  | timeWaitExpiry (b : BenchNo) (conn : Fin 16384)
  | txqTailWrite (b : BenchNo) (w : Writer) (q : Fin 128) (v : Word)
  | txSend (b : BenchNo) (q : Fin 128)
  | txRaw (b : BenchNo) (q : Fin 128)
  | txTlsRaw (b : BenchNo) (q : Fin 128)
  | txUdp (b : BenchNo) (q : Fin 128)
  | txFrame (b : BenchNo) (q : Fin 128)
  | txConnect (b : BenchNo) (q : Fin 128)
  | txClose (b : BenchNo) (q : Fin 128)
  | txAbort (b : BenchNo) (q : Fin 128)
  | txSetkey (b : BenchNo) (q : Fin 128)
  | txContinue (b : BenchNo) (q : Fin 128)
  | sqDoorbell (b : BenchNo) (n : Fin 256) (v : Word)
  | cstailWrite (b : BenchNo) (w : Writer) (n : Fin 256) (v : Word)
  | completionDescriptor (b : BenchNo) (n : Fin 256)
  | functionLevelReset (f : Fin 9)
  | hostPerst (low : Bool)
  | hostLinkChange (up : Bool) (rate : Fin 6) (lanes : Fin 17)
  | hostWindowTimeout (b : BenchNo)
  | spdmGetVersion (msg : List Byte)
  | spdmGetCapabilities (msg : List Byte)
  | spdmNegotiateAlgorithms (msg : List Byte)
  | spdmGetDigests (msg : List Byte)
  | spdmGetCertificate (msg : List Byte)
  | spdmChallenge (msg : List Byte)
  | spdmGetMeasurements (msg : List Byte)
  | spdmKeyExchange (msg : List Byte)
  | spdmFinish (msg : List Byte)
  | spdmKeyUpdate (msg : List Byte)
  | spdmHeartbeat (msg : List Byte)
  | spdmEndSession (msg : List Byte)
  | getInfo
  | benchReset
  | benchHold
  | benchRelease
  | deviceReset
  | deviceSoftReset
  | stageBegin
  | stageWrite
  | stageFinish (reads writes : Bool)
  | fuseReport
  | attestPq
  | lifecycleNonce
  | lifecycleAdvance
  | lifecycleConfirm
  | lifecycleDebugcred
  | tamperClear
  | rmaReport
  | pwrokRise
  | aonDomainValid
  | powerOnReset
  | brownOut
  | resetNPulse
  | resetNRise
  | deviceWatchdogExpiry
  | hostClockLoss (armed : Bool)
  | aonClockLoss
  | aonClockRecovery
  | dmcLockup
  | benchClockLoss (b : BenchNo) (lost : List (BitVec 34))
  | benchClockRecovery (b : BenchNo)
  | fllLockLoss (b : BenchNo) (i : Fin 40)
  | fllRelock (b : BenchNo) (i : Fin 40)
  | fllRelockTimeout (b : BenchNo)
  | benchWatchdogExpiry (b : BenchNo)
  | wdkickWrite (b : BenchNo) (w : Writer) (v : Word)
  | rstreqWrite (b : BenchNo) (w : Writer) (v : Word)
  | benchResetEntry (b : BenchNo)
  | fuseSense
  | dmcRelease
  | bootcfgSampling (rs : Vector Byte 16)
  | optionLoading (ok : BitVec 3)
  | imageCommit
  | hostPhyRelease
  | pcieControllerRelease
  | benchResetRelease (b : BenchNo)
  | tagClearComplete (b : BenchNo) (fails : BitVec 14)
  | supervisorFirstFetch (b : BenchNo)
  | bypass
  | idcode
  | samplePreload
  | extest
  | clamp
  | highz
  | dbgChal
  | dbgResp (resp : List Byte)
  | dbgClose
  | testLogicReset
  | debugValidityExpiry
  | regRd (target : Byte) (addr : BitVec 48)
  | regWr (target : Byte) (addr : BitVec 48) (v : Word)
  | memRd (target : Byte) (addr : BitVec 48)
  | memWr (target : Byte) (addr : BitVec 48) (v : Word)
  | coreHalt (target : Byte) (addr : BitVec 48)
  | coreRun (target : Byte) (addr : BitVec 48)
  | coreStep (target : Byte) (addr : BitVec 48)
  | stateRd (target : Byte) (addr : BitVec 48)
  | stateWr (target : Byte) (addr : BitVec 48) (v : Word)
  | pwrStateWrite (b : BenchNo) (w : Writer) (v : Word)
  | idleEntry (b : BenchNo)
  | idleExit (b : BenchNo)
  | napEntry (b : BenchNo)
  | offEntry (b : BenchNo)
  | napWake (b : BenchNo)
  | frequencySelection (b : BenchNo) (lat : List (Fin 384 × Half))
  | policyRelease (b : BenchNo)
  | avsAdjustment (mv : BitVec 12) (limits : Vector (BitVec 7) 8)
  | avsbusTimeout (limits : Vector (BitVec 7) 8)
  | thermalThrottleStep (b : BenchNo) (tj : Byte)
  | thermtrip
  | currentLimitStep (amps : Half)
  | powerCapStep (watts : BitVec 10)
  | parkWrite (b : BenchNo) (w : Writer) (v : Half)
  | corePowerGating (b : BenchNo) (k : CoreNo)
  | meshTrip (pair : Fin 4)
  | sensorTrip (src : Fin 4)
  | vbatChangeover (toVbat : Bool)
  | vbatLoss
  | registerWrite (t : RegTarget) (off : BitVec 37) (v : Word)
  | hostInboundAccess (b : BenchNo) (addr : BitVec 37) (acc : HostAccess)
  | undefinedEncoding (b : BenchNo) (k : CoreNo) (word : Word)
  | tamperSourceRestore (src : Fin 8)
  deriving DecidableEq, Repr

end Sys2Proof
end

