-- ==== Sys2Proof/Decode.lean ====
section
/-!
DEFINITION. Decode.lean: the command that a word of spec/opcode_table.json spells. No row of the table lists a field, so that no row
gives any bits and no word spells a command. (The instruction words of chapter 04 are built by Machine/Exec.lean's encoders and decoded for
the instruction that follows a repeat prefix by Machine/Repeat.lean.)
-/

namespace Sys2Proof

def decodeTableWord (nbits w : Nat) : Option Instr :=
  match nbits, w with
  | _, _ => none

end Sys2Proof
end

