-- ==== Sys2Proof/Config.lean ====
section
/-!
DEFINITION. Config.lean: the values that the spec leaves open. Each is an opaque constant: nothing can evaluate it, so
a statement holds whatever it is. A draw is indexed by a counter of the bench (Bench.freeCtr) that every draw advances,
so that two draws are unrelated.
-/

namespace Sys2Proof.Config

/-- A byte that the spec leaves open: host memory read through the host window, a random draw, a measured value. -/
opaque freeByte : Nat → Byte

/-- A 32-bit value that the spec leaves open: a core cycle count, a measurement. -/
opaque freeWord : Nat → Word

/-- Of two NaN operands, whose payload an operation returns: IEEE 754-2008 names neither (R162). -/
opaque nanFirst : Quad → Quad → Bool

/-- The sign and payload of the quiet NaN that an invalid operation delivers: IEEE 754-2008 gives none (R162). -/
opaque nanNew : Quad → Quad → Bool × Nat

/-- What an x-register pair receives from a masked invalid conversion to packed BCD: R167 states no value. -/
opaque bcdInvalid : Quad → Dword

/-! What Serhafa fuses at manufacture (R722, R728, R715) and the keys that the DMC holds (R670, R671). -/

/-- The device serial number; its first 16 bytes. -/
opaque serial : List Byte
/-- The root digest and the debug credential digest of Serhafa; the first 48 bytes of each. -/
opaque serhafaRoot : List Byte
opaque serhafaCredential : List Byte
/-- The private scalar of the ECDSA P-384 device attestation key. -/
opaque attestKey : Nat
/-- The seed of the ML-DSA-87 post-quantum attestation key. -/
opaque attestSeed : List Byte
/-- The certificate chain of the device attestation key. -/
opaque certificates : List Byte
/-- What an SPDM responder announces and R671 leaves open: CTExponent with DataTransferSize and MaxSPDMmsgSize (the first 9 bytes),
HeartbeatPeriod, the opaque data of KEY_EXCHANGE's answer (at most 1024 bytes), and the measurements of the trusted computing base. -/
opaque spdmLimits : List Byte
opaque spdmHeartbeat : Byte
opaque spdmOpaque : List Byte
opaque spdmTcb : Nat → Bool
/-- The Serhafa signature in the body of a DMC_FW record verifies against the root digest given (R710, check 10): the spec lays out
neither. -/
opaque dmcFwOk : List Byte → List Byte → Bool
/-- Measurement index 3 of the fuses' contents, and of an image that is absent (R671): the spec states neither. -/
opaque fuseMeasure : List Byte → List Byte
opaque absentMeasure : Nat → List Byte

end Sys2Proof.Config
end

