-- ==== Sys2Proof/Machine/Cap.lean ====
section
/-!
DEFINITION. Machine/Cap.lean: the capability word, its bounds, its permissions and the operations that derive one
capability from another (chapter 02 of the spec, R63 to R105).
-/

namespace Sys2Proof.Machine

/-- `bits hi lo v`: the slice v[hi:lo] of a natural number. -/
def slice (v hi lo : Nat) : Nat := (v >>> lo) % 2 ^ (hi + 1 - lo)

/-- The sign extension of an immediate of `w` bits to a 64-bit offset. -/
def sext64 {w : Nat} (v : BitVec w) : Dword := v.signExtend 64

/-- The untagged zero capability (R65, R117). -/
def Cap.null : Cap := { tag := false, bits := 0 }

def Cap.perm (c : Cap) : Half := c.bits.extractLsb' 112 16
def Cap.otype (c : Cap) : Half := c.bits.extractLsb' 96 16
def Cap.exp (c : Cap) : Nat := (c.bits.extractLsb' 91 5).toNat
def Cap.baseM (c : Cap) : Nat := (c.bits.extractLsb' 77 14).toNat
def Cap.topM (c : Cap) : Nat := (c.bits.extractLsb' 64 13).toNat
def Cap.cursor (c : Cap) : Dword := c.bits.extractLsb' 0 64

/-- A capability word from its fields (R63). -/
def Cap.make (tag : Bool) (perm otype : Half) (e bm tm : Nat) (cursor : Dword) : Cap :=
  { tag := tag
    bits := perm ++ otype ++ BitVec.ofNat 5 e ++ BitVec.ofNat 14 bm ++ BitVec.ofNat 13 tm ++ cursor }

def Cap.clearTag (c : Cap) : Cap := { c with tag := false }
def Cap.withTag (c : Cap) (t : Bool) : Cap := { c with tag := t }
def Cap.withPerm (c : Cap) (p : Half) : Cap := { c with bits := p ++ c.bits.extractLsb' 0 112 }
def Cap.withOtype (c : Cap) (o : Half) : Cap :=
  { c with bits := c.bits.extractLsb' 112 16 ++ o ++ c.bits.extractLsb' 0 96 }
/-- The cursor replaced and nothing else; the tag stays. -/
def Cap.withCursor (c : Cap) (a : Dword) : Cap := { c with bits := c.bits.extractLsb' 64 64 ++ a }
/-- The capability with OTYPE 0x0000. -/
def Cap.unsealed (c : Cap) : Cap := c.withOtype 0
def Cap.sealed? (c : Cap) : Bool := c.otype != 0

/-- Base and top of R69, with R66 for EXP above 27. -/
def Cap.bounds (c : Cap) : Nat × Nat :=
  let e := c.exp
  if e > 27 then (0, 0) else
  let b := c.baseM
  let t := c.topM
  let cur := c.cursor.toNat
  let a := slice cur (e + 13) e
  let r := (b + 16384 - 4096) % 16384
  let aHi := if a < r then 1 else 0
  let bHi := if b < r then 1 else 0
  let m := 2 ^ (50 - e)
  let upper := (slice cur 63 (e + 14) + bHi + m - aHi) % m
  let base := upper * 2 ^ (e + 14) + b * 2 ^ e
  let top := base >>> (e + 13) <<< (e + 13) + t * 2 ^ e
  let top := if t < slice base (e + 12) e then top + 2 ^ (e + 13) else top
  (base, top)

def Cap.base (c : Cap) : Nat := c.bounds.1
def Cap.top (c : Cap) : Nat := c.bounds.2
/-- top - base of R191, in 65 bits. -/
def Cap.length (c : Cap) : Nat := (c.top + 2 ^ 65 - c.base) % 2 ^ 65

/-- The cursor value `a` lies in the representable window of `c` (R70). -/
def Cap.inWindow (c : Cap) (a : Dword) : Bool :=
  let e := c.exp
  let lo := (c.base + 2 ^ 64 - 2 ^ (e + 12)) % 2 ^ 64
  (a.toNat + 2 ^ 64 - lo) % 2 ^ 64 < 2 ^ (e + 12) + 2 ^ (e + 13)

/-- Moving the cursor: the tag is cleared outside the representable window (R71). -/
def Cap.moveCursor (c : Cap) (a : Dword) : Cap :=
  let c' := c.withCursor a
  if c.tag && !c.inWindow a then c'.clearTag else c'

/-- `bump(c, n)` of R178. -/
def Cap.bump (c : Cap) (n : Dword) : Cap := c.moveCursor (c.cursor + n)

/-! Permission bits (R74). -/
def permLD : Nat := 0
def permST : Nat := 1
def permEX : Nat := 2
def permLDC : Nat := 3
def permSTC : Nat := 4
def permGL : Nat := 5
def permSEAL : Nat := 6
def permUNSEAL : Nat := 7
def permSYS : Nat := 8
def permBANK : Nat := 9
def permKEY : Nat := 10
def permJRN : Nat := 11
def permMUT : Nat := 12
def permENG : Nat := 13

/-- The capability has permission bit `n`. -/
def Cap.has (c : Cap) (n : Nat) : Bool := c.perm.getLsbD n
/-- The capability has every permission bit of the list. -/
def Cap.hasAll (c : Cap) (ns : List Nat) : Bool := ns.all c.has

/-! Object types (R77). -/
def otGate : Half := 0x0001
def otReturn : Half := 0x0002
def otLast : Half := 0x0010
def otSave : Half := 0x0020
def otTcb : Half := 0x0021

/-- The otypes a seal or unseal authority may name (R79, R80). -/
def otypeSealable (o : Nat) : Bool := o == 0x10 || o == 0x20 || o == 0x21 || (0x100 ≤ o && o ≤ 0xEFFF)

/-- The smallest e with `len <= 2^(e+12)`, and 0 up to 4,096 (R73). -/
def setBoundsExp (len : Nat) : Nat :=
  if len ≤ 4096 then 0 else Nat.log2 (len - 1) + 1 - 12

def roundDown (v e : Nat) : Nat := v >>> e <<< e
def roundUp (v e : Nat) : Nat := roundDown (v + (2 ^ e - 1)) e

/-- The exponent and the rounded base and top that the procedure of R73 reaches before its fault tests. -/
def setBoundsRound (nb nt len : Nat) : Nat × Nat × Nat :=
  let e := setBoundsExp len
  let rb := roundDown nb e
  let rt := roundUp nt e
  if rt - rb > 2 ^ (e + 12) then (e + 1, roundDown nb (e + 1), roundUp nt (e + 1)) else (e, rb, rt)

/-- The set-bounds procedure of R73; none is CAP_BOUNDS. -/
def Cap.setBounds (cs : Cap) (len : Nat) (exact : Bool) : Option Cap :=
  let nb := cs.cursor.toNat
  let nt := nb + len
  let (e, rb, rt) := setBoundsRound nb nt len
  if e > 27 then none
  else if exact && (rb != nb || rt != nt) then none
  else if rb < cs.base || rt > cs.top then none
  else some (Cap.make cs.tag cs.perm cs.otype e (slice rb (e + 13) e) (slice rt (e + 12) e) cs.cursor)

/-- The representable length of CRRL: rt - rb of R73 for base 0 (R84, R190). -/
def reprLength (len : Nat) : Nat :=
  let (_, rb, rt) := setBoundsRound 0 len len
  rt - rb

/-- The exponent R73 selects for a length at base 0 (CRAM, R190). -/
def reprExp (len : Nat) : Nat := (setBoundsRound 0 len len).1

/-- The cursor of `ct` lies within its bounds (R79, R80). -/
def Cap.cursorInBounds (ct : Cap) : Bool := ct.base ≤ ct.cursor.toNat && ct.cursor.toNat < ct.top

/-- The seal operation (R79). -/
def Cap.sealWith (cs ct : Cap) : Except Cause Cap :=
  if !cs.tag || !ct.tag then .error .capTag
  else if cs.sealed? || ct.sealed? then .error .capSeal
  else if !ct.has permSEAL then .error .capPerm
  else if !ct.cursorInBounds then .error .capBounds
  else if !otypeSealable ct.cursor.toNat then .error .capSeal
  else .ok (cs.withOtype (ct.cursor.truncate 16))

/-- The unseal operation (R80). -/
def Cap.unsealWith (cs ct : Cap) : Except Cause Cap :=
  if !cs.tag || !ct.tag then .error .capTag
  else if !cs.sealed? || ct.sealed? then .error .capSeal
  else if !ct.has permUNSEAL then .error .capPerm
  else if !ct.cursorInBounds then .error .capBounds
  else if ct.cursor != cs.otype.zeroExtend 64 || !otypeSealable cs.otype.toNat then .error .capSeal
  else
    let p := if cs.has permGL && ct.has permGL then cs.perm else cs.perm &&& ~~~(0x0020#16)
    .ok (cs.unsealed.withPerm p)

/-- The gate-sealing operation (R81). -/
def Cap.gate (cs : Cap) : Except Cause Cap :=
  if !cs.tag then .error .capTag
  else if cs.sealed? then .error .capSeal
  else if !cs.has permEX then .error .capPerm
  else if cs.cursor.toNat % 4 != 0 then .error .misaligned
  else if cs.cursor.toNat < cs.base || cs.cursor.toNat + 4 > cs.top then .error .capBounds
  else .ok (cs.withOtype otGate)

/-- The subset test of R84: both tagged and the second within the first in bounds and permissions. -/
def Cap.subset (outer inner : Cap) : Bool :=
  outer.tag && inner.tag && outer.base ≤ inner.base && inner.top ≤ outer.top
    && (inner.perm &&& ~~~outer.perm) == 0

/-- The cursor operations of R84: a tagged sealed source faults CAP_SEAL. -/
def Cap.setCursor (cs : Cap) (a : Dword) : Except Cause Cap :=
  if cs.tag && cs.sealed? then .error .capSeal else .ok (cs.moveCursor a)

/-- Source requirement "tagged, unsealed" of R84 and R85. -/
def Cap.requireOpen (cs : Cap) : Except Cause Unit :=
  if !cs.tag then .error .capTag else if cs.sealed? then .error .capSeal else .ok ()

/-- Set bounds with the source requirements of R84. -/
def Cap.setBoundsOp (cs : Cap) (len : Nat) (exact : Bool) : Except Cause Cap :=
  match cs.requireOpen with
  | .error c => .error c
  | .ok () =>
    match cs.setBounds len exact with
    | none => .error .capBounds
    | some c => .ok c

/-- And-permissions of R84. -/
def Cap.andPerm (cs : Cap) (mask : Half) : Except Cause Cap :=
  match cs.requireOpen with
  | .error c => .error c
  | .ok () => .ok (cs.withPerm (cs.perm &&& mask))

/-- The checks of R87 and R88 on the authorising capability; `align` is the alignment of step 4 with its cause, and
`also` a further condition of step 3 (R93). -/
def Cap.checkAccess (c : Cap) (ea : Dword) (n : Nat) (perms : List Nat) (align : Nat) (alignCause : Cause)
    (also : Bool := true) : Except Cause Unit :=
  if !c.tag then .error .capTag
  else if c.sealed? then .error .capSeal
  else if !c.hasAll perms || !also then .error .capPerm
  else if ea.toNat % align != 0 then .error alignCause
  else if ea.toNat < c.base || ea.toNat + n > c.top then .error .capBounds
  else .ok ()

/-- What a capability load keeps of the value read (R91, R92): `caps` is false where the page is not CAPS or the
address has no tag storage. -/
def Cap.loaded (auth v : Cap) (caps : Bool) : Cap :=
  let v := if !auth.has permLDC || !caps then v.clearTag else v
  if v.tag && !v.sealed? && !auth.has permMUT then v.withPerm (v.perm &&& ~~~(0x1012#16)) else v

/-- The permission checks of R93 on a stored value under an authorising capability. -/
def Cap.storeAllowed (auth v : Cap) : Bool :=
  !v.tag || (auth.has permSTC && (v.has permGL || !auth.has permGL))

/-- The checks on a jump target (R96); `ok` names the accepted otypes. -/
def Cap.jumpTarget (t : Cap) (ok : Half → Bool) : Except Cause Cap :=
  if !t.tag then .error .capTag
  else if !ok t.otype then .error .capSeal
  else if t.cursor.toNat % 4 != 0 then .error .misaligned
  else .ok t.unsealed

def jumpOtypes (o : Half) : Bool := o == 0 || o == otGate
def returnOtypes (o : Half) : Bool := o == otReturn

/-- The sealed copy that JAL, JALR and ENTER make (R82). -/
def Cap.returnGate (pcc : Cap) (a : Dword) : Cap := (pcc.withCursor a).withOtype otReturn

/-- A capability is revoked by the region [rb, rt) (R107). -/
def Cap.revokedBy (c : Cap) (rb rt : Nat) : Bool :=
  c.tag && c.otype.toNat < 0xF000 &&
    (let top := if c.top ≤ c.base then c.base + 1 else c.top
     c.base < rt && rb < top)

/-- A key handle (R83). -/
def Cap.keyHandle (cls : Nat) (slot gen : Nat) : Cap :=
  Cap.make true (0x0420#16) (0xF000#16 ||| BitVec.ofNat 16 (cls % 256)) 0 0 0
    (BitVec.ofNat 64 (slot % 2 ^ 14 + (gen % 2 ^ 16) * 2 ^ 14))

/-! Roots (R105). -/

/-- A capability over [base, top), both multiples of 2^e, with its cursor at `cur`. -/
def Cap.root (perm : Half) (e base top : Nat) (cur : Dword) : Cap :=
  Cap.make true perm 0 e (slice base (e + 13) e) (slice top (e + 12) e) cur

/-- The supervisor core's PCC root: LD, EX, LDC, GL, SYS, BANK over working SRAM. -/
def Cap.rootPcc (entry : Dword) : Cap := Cap.root 0x032D 12 0x1000000000 0x1001000000 entry
/-- The data root of c3: LD, ST, LDC, STC, GL, SYS, BANK, JRN, MUT, ENG, U0, U1 over 512 GiB. -/
def Cap.rootData : Cap := Cap.root 0xFB3B 27 0 0x8000000000 0
/-- The sealing root of c4: SEAL, UNSEAL, GL, U0, U1 over 0 to 0xF000. -/
def Cap.rootSeal : Cap := Cap.root 0xC0E0 4 0 0xF000 0

end Sys2Proof.Machine
end

