-- ==== Sys2Proof/Machine/StateCore.lean ====
section
/-!
DEFINITION. Machine/StateCore.lean: the state of a bench's cores, scheduler, translation, memory, access filter and Rake
(chapters 01 and 03 to 08 of the spec). Plain data: numbered arrays of a few things are vectors, large sparse arrays
are canonical lists of (index, value) pairs (`Table`).
-/

namespace Sys2Proof.Machine

/-- A sparse array: pairs in strictly rising order of index, none of them the default value. -/
abbrev Table (α : Type) := List (Nat × α)

/-- A TLB entry (R346): a leaf with the page table entry it was filled with, or a pointer. -/
inductive TlbEntry where
  /-- `vpn` is the virtual address shifted right by 12 + 9 * level, within the mode's width. -/
  | leaf (asid mode level vpn : Nat) (pte : Dword)
  /-- `level` is the level of the table that `ppn` names, `pfx` the virtual address bits above that table's reach. -/
  | ptr (asid mode level pfx ppn : Nat)
  deriving DecidableEq, Repr

/-- The scopes of an invalidation (R204, R349). -/
inductive InvScope where
  | all | asid (a : Nat) | va (page : Nat) | vaAsid (page a : Nat)
  deriving DecidableEq, Repr

/-- One register bank of a core: the strand state of R115 and the bank's system registers of R200. -/
structure Bank where
  x : Vector Word 32
  c : Vector Cap 32
  pcc : Cap
  p : Vector Bool 8
  rc : Word
  rcv : Bool
  d : Vector Quad 16
  dcsr : Word
  /-- The journal staging buffer (R215): at most four granules. -/
  staging : List Quad
  /-- JPUSH pushes since the buffer was emptied, which may exceed four. -/
  pushes : Nat
  ecause : Word
  etval : Dword
  estat : Word
  atp : Word
  atpRoot : Word
  trapEntry : Cap
  epcc : Cap
  sachain : Cap
  last : Cap
  entry : Vector Cap 8
  entryCsp : Vector Cap 8
  instret : Dword
  /-- The task the bank holds (R277). -/
  task : Option Nat
  deriving DecidableEq, Repr

/-- A placement in progress on a core (R300, R304): the task and the bank chosen, now free. -/
structure Placement where
  task : Nat
  bank : BankNo
  deriving DecidableEq, Repr

/-- A REP-prefixed push that waits for room (R137, R214): the bank whose instruction it is, and the repeated word. RC of the bank
holds the iterations to come. -/
structure RepRun where
  bank : BankNo
  word : Word
  deriving DecidableEq, Repr

/-- A core (R200, R255, R266, R277). -/
structure Core where
  banks : Vector Bank 8
  /-- The bank whose strand executes. -/
  cur : Option BankNo
  /-- The previous winner among the banks (R59, R298). -/
  lastBank : Nat
  /-- The previous bank chosen for a placement (R59, R300). -/
  lastPlace : Nat
  /-- Supervisor core only: it executed WAIT and no event has trapped it since. -/
  waiting : Bool
  halted : Bool
  /-- Halted by the debugger (R731). -/
  dbgHalted : Bool
  /-- One instruction granted by CORE_STEP (R731). -/
  stepOne : Bool
  /-- CYCLE as it was last read (R200, log 9). -/
  cycle : Dword
  escCause : Word
  escLock : Bool
  /-- The single write of ESC_LOCK has counted (R9, R261). -/
  escLockWritten : Bool
  escPcc : Cap
  escCsp : Cap
  bankwin : BankNo
  safree : Cap
  saemerg : Cap
  saemergWritten : Bool
  /-- Saves since bench reset (R289 SEQ). -/
  saves : Dword
  /-- SCHED.EMERG.BUSY of the core (R293). -/
  emergBusy : Bool
  /-- The count of the hold in force (R249). -/
  hold : Option Nat
  /-- The core's bit in BENCH.HOLDEXP. -/
  holdExpired : Bool
  /-- The instruction TLB, the data TLB and the second-level TLB (R345), the entry filled last in front. -/
  itlb : List TlbEntry
  dtlb : List TlbEntry
  tlb : List TlbEntry
  /-- The TLBs are emptied before the next instruction (R353). -/
  tlbFlushDue : Bool
  placing : Option Placement
  /-- The REP-prefixed instruction in progress. -/
  repBusy : Option RepRun
  /-- The island clock is stopped (R29). -/
  clockStopped : Bool
  /-- Power-gated (R756). -/
  gated : Bool
  /-- PWR.PARK of the core (R756). -/
  parked : Bool
  deriving DecidableEq, Repr

/-- A manageable unit's state register (R41) and its timers (R48, R52). -/
structure UState where
  requested : BitVec 4
  effective : BitVec 4
  diverged : Bool
  changes : Byte
  /-- A forced reset is in progress (R52). -/
  forcing : Bool
  /-- Elapsed microseconds at which the divergence timer (re)started (R48); meaningful while REQUESTED differs. -/
  since : Nat
  /-- The timer has passed its limit since it (re)started. -/
  passed : Bool
  deriving DecidableEq, Repr

/-- Bench control (R40, R273) and the bench-wide values of R200. -/
structure Ctl where
  id : BenchNo
  /-- BENCH.PLACE. -/
  place : Word
  divto : BitVec 10
  divUnit : BitVec 10
  divCount : Half
  ustate : Table UState
  holdExpCount : BitVec 12
  lockinfo : Word
  holdLimit : BitVec 12
  nxEnforce : Bool
  lastEnforce : Bool
  /-- The ceremony epoch as the DMC gives it to the bench (R446). -/
  epoch : BitVec 7
  /-- The quorum of the ceremony profile, 0 where the image carries none (R439). -/
  quorum : BitVec 5
  /-- EVENT_PINS (R711): two bits for each pin, [0] level, [1] active low. -/
  eventPins : BitVec 8
  deriving DecidableEq, Repr

/-- An event source's state (R318) and its deliveries in the current window (R313). -/
structure EvStat where
  count : Half
  pending : Bool
  masked : Bool
  level : Bool
  window : Nat
  deriving DecidableEq, Repr

/-- Task states (R295). -/
inductive TaskState where
  | empty | waiting | ready | running | stopped | faulted
  deriving DecidableEq, Repr

/-- What the scheduler holds of a task (R295, R296, R319). -/
structure Task where
  state : TaskState
  /-- The core and bank that hold it. -/
  at? : Option (CoreNo × BankNo)
  wake : Bool
  prio : Fin 8
  upper : Bool
  pin : Bool
  fault : Byte
  /-- STOP was written while the task was RUNNING (R296). -/
  stopDue : Bool
  /-- AFFINITY and the TCB's base as last read (R284, R285). -/
  cores : Half
  banks : BitVec 7
  tcb : Nat
  deriving DecidableEq, Repr

/-- Scheduler and events block (R316). -/
structure Sched where
  tcbLo : Half
  tcbHi : Byte
  lock : Bool
  /-- The single write of SCHED.CTRL has counted (R9). -/
  lockWritten : Bool
  badcmd : BitVec 11
  /-- The millisecond of bench time in which the present window of R313 began. -/
  stormMs : Nat
  stormSource : BitVec 10
  stormCount : Half
  faultTask : BitVec 12
  faultCode : Byte
  bind : Table Word
  evstat : Table EvStat
  tasks : Table Task
  /-- Previous winners (R59): trap sources, supervisor sources, cores, tasks. -/
  lastTrap : Nat
  lastBsc : Nat
  lastCore : Nat
  lastTask : Nat
  deriving DecidableEq, Repr

/-- A TLBI.B broadcast accepted and not yet complete (R351). -/
structure Broadcast where
  core : CoreNo
  bank : BankNo
  scope : InvScope
  deriving DecidableEq, Repr

/-- Translation and ETU block (R370). -/
structure Trans where
  shootdb : Half
  etuLo : Word
  etuHi : Word
  etuBusy : Bool
  etuScope : BitVec 2
  bcast : Half
  pending : List Broadcast
  etuTlb : List TlbEntry
  deriving DecidableEq, Repr

/-- A poisoned line's bytes written by one core since it fetched the line (R409). -/
structure Cover where
  line : Nat
  core : Nat
  mask : Dword
  deriving DecidableEq, Repr

/-- Bench memory: bytes, tags and the state of its lines (R395, R407 to R411). -/
structure Mem where
  /-- Address and byte, rising, no zero byte listed. -/
  bytes : List Host.Cell
  /-- Granule numbers (address / 16) whose tag is set, rising. -/
  tags : List Nat
  /-- Lines (address / 64) that are poisoned, rising. -/
  poison : List Nat
  /-- Lines that hold an uncorrectable error not yet detected. -/
  latent : List Nat
  /-- Lines that hold a correctable error. -/
  weak : List Nat
  /-- Tag lines (address / 8192) that hold an uncorrectable error not yet detected (R411). -/
  tagLatent : List Nat
  /-- Tag lines that hold a correctable error (R407). -/
  tagWeak : List Nat
  covers : List Cover
  /-- Pages (address / 4096) whose summary bit is set (R396), rising. -/
  summary : List Nat
  deriving DecidableEq, Repr

/-- Memory error registers (R413). -/
structure MemErr where
  ceCount : Half
  ceThresh : Half
  ueCount : Half
  ueSrc : BitVec 4
  ueMid : Byte
  /-- Line number of MEM.UEADDR. -/
  ueLine : Nat
  scrubPeriod : Byte
  /-- Page of MEM.SCRUBPOS, and the line within it. -/
  scrubPage : Nat
  scrubLine : Nat
  deriving DecidableEq, Repr

/-- A filter rule: its three meaningful words (R374). -/
structure MafRule where
  w0 : Word
  w1 : Word
  w2 : Word
  deriving DecidableEq, Repr

/-- The master access filter (R394). -/
structure Maf where
  rules0 : Table MafRule
  rules1 : Table MafRule
  bank : Bool
  drained : Bool
  checking : Bool
  refused : Bool
  reason : BitVec 2
  gen : Byte
  ruleA : BitVec 7
  ruleB : BitVec 7
  vring : Word
  vlock : Bool
  /-- The single write of MAF.CTRL has counted (R9). -/
  vlockWritten : Bool
  head : BitVec 15
  tail : BitVec 15
  vlost : Word
  deriving DecidableEq, Repr

/-- Commands of the Rake (R402). -/
inductive RakeOp where
  | sweep | tagclear | tagcount
  deriving DecidableEq, Repr

/-- The tag controller and Rake (R406). -/
structure Rake where
  state : BitVec 3
  seq : Byte
  share : BitVec 2
  setOff : BitVec 20
  setCnt : BitVec 9
  rangePpn : BitVec 28
  rangeLen : BitVec 24
  prog : BitVec 28
  result : Word
  lastR : Word
  lastProg : BitVec 28
  /-- The command in progress. -/
  op : Option RakeOp
  /-- The copy of the revocation set of the sweep in progress. -/
  set : List (Nat × Nat)
  /-- The range of the TAGCLEAR or TAGCOUNT in progress: first page and pages. -/
  runPpn : Nat
  runLen : Nat
  /-- ABORT was written (R403). -/
  abort : Bool
  /-- Jobs taken from a ring before the sweep began and not yet complete (R108 step 5), by unit. -/
  waitFor : List Nat
  deriving DecidableEq, Repr

end Sys2Proof.Machine
end

