-- ==== Sys2Proof/Machine/StateTime.lean ====
section
/-!
DEFINITION. Machine/StateTime.lean: the state of a bench's time unit (R569, R570, R603 to R612, R792) and journal unit (R573,
R578 to R602, R611).
-/

namespace Sys2Proof.Machine

/-- A bench timer (R610): `due` is the elapsed time at which it reaches zero, meaningful while it runs. -/
structure Timer where
  period : BitVec 24
  periodic : Bool
  run : Bool
  due : Nat
  deriving DecidableEq, Repr

/-- The time unit. -/
structure TimeState where
  /-- Whole microseconds of bench time elapsed since power-on, and the units of 1/256 ns beyond them: what the timers count. Steps
  change neither (R610). -/
  elapsed : Nat
  part : Nat
  /-- Units of 1/256 ns by which snapshots have moved bench time ahead of the reference clock (R571). -/
  ahead : Nat
  sec : BitVec 48
  ns : Nat
  frac : Byte
  /-- The part of 1/256 ns not yet shown, in units of 2^-48 of it. -/
  sub : Nat
  source : BitVec 2
  holdover : Bool
  quality : BitVec 3
  /-- The frequency estimate in units of 2^-48 of the nominal rate, signed (R603). -/
  freq : BitVec 64
  locked : Bool
  /-- Consecutive measurements within 20 ns, and outside 100 ns (R603). -/
  inBand : Nat
  outBand : Nat
  ppsOk : Bool
  todValid : Bool
  port : Bool
  steps : Byte
  ppsRej : Byte
  /-- Latches of TIME.NOW1 and TIME.NOW2 (R612). -/
  now1 : Word
  now2 : Word
  set0 : Word
  set1 : Word
  /-- Values of TIME.SET whose step waits for its TIME_STEP record (R593). -/
  setDue : List (BitVec 96)
  latcal : Vector Word 2
  utcoff : Word
  offset : Word
  timers : Vector Timer 64
  /-- A second boundary has passed whose effects are still to be made (R608). -/
  secondDue : Bool
  ppsOut : Bool
  ppsOutSince : Nat
  /-- The second to which the last PPS edge belonged (R608). -/
  ppsSecond : Option Nat
  /-- The error bound at entry to holdover in ps, and the elapsed time of entry (R606). -/
  holdBound : Nat
  holdSince : Nat
  deriving DecidableEq, Repr

/-- States of an open-item entry (R578). -/
inductive ItemState where
  | free | opened | done
  deriving DecidableEq, Repr

/-- An entry of the open-item index (R578). `since` is the elapsed time of its opening or its completion. -/
structure Item where
  state : ItemState
  reqid : BitVec 48
  queue : BitVec 10
  path : BitVec 2
  tenant : Word
  /-- The SEQ of the RECEIVED record, none until it is written. -/
  seq : Option Nat
  /-- Completion time in units of 4 ms of bench time. -/
  stamp : BitVec 14
  result : Word
  since : Nat
  deriving DecidableEq, Repr

/-- A record that waits for its place: a system record held under R593, or one due before genesis. -/
structure HeldRecord where
  type : Byte
  status : Byte
  origin : Word
  tenant : Word
  tin : BitVec 96
  data : List Byte
  deriving DecidableEq, Repr

/-- What the admitting unit hands over with a request (R579): the bytes' place in bench memory, and the descriptor that
delivers it. -/
structure Request where
  reqid : BitVec 48
  tenant : Word
  tin : BitVec 96
  path : BitVec 2
  /-- BENCH.USTATE index of the admitting queue. -/
  queue : Nat
  addr : Nat
  len : Nat
  /-- The message's number in its queue, by which the admitting unit finds it again. -/
  token : Nat
  deriving DecidableEq, Repr

/-- An admission whose records are not yet written (R580, R583): a new item, or a retransmission of an entry; and the end of its
digest job, with the digest where that ended OK. -/
structure Admission where
  req : Request
  item : Nat
  dup : Option Item
  digest : Option (Option (List Byte))
  deriving DecidableEq, Repr

/-- What the journal unit answers for an admitted request (R580, R583): serve it, a retransmission of a DONE item with its
RESULT, a retransmission of an OPEN item, or an item that closed before RECEIVED. -/
inductive Answer where
  | serve
  | done (result : Word)
  | still
  | closed
  deriving DecidableEq, Repr

/-- A request with its records written, to be delivered by the admitting unit (R580, R583). -/
structure Delivery where
  req : Request
  item : Nat
  answer : Answer
  seq : Nat
  deriving DecidableEq, Repr

/-- What a checkpoint signature job left (R589). -/
structure SigResult where
  status : Byte
  detail : Byte
  sig : List Byte
  keyid : List Byte
  deriving DecidableEq, Repr

/-- A checkpoint whose signature entry is not yet written (R588). -/
structure Checkpoint where
  k : Nat
  seq : Nat
  record : List Byte
  ecdsa : Option SigResult
  mldsa : Option SigResult
  deriving DecidableEq, Repr

/-- The journal unit. -/
structure Journal where
  /-- The chain exists (R585). -/
  genesis : Bool
  /-- A reset kept the index and the unit has not recovered since (R601). -/
  recoverDue : Bool
  recovering : Bool
  chain : BitVec 384
  jid : Dword
  nextSeq : Nat
  /-- NEXTSEQ when the last reset that kept the journal began. -/
  resetSeq : Nat
  items : Table Item
  waiting : List Admission
  deliveries : List Delivery
  held : List HeldRecord
  admitStop : Bool
  /-- Records since the previous CHECKPOINT, its SEQ and time, and the checkpoints made since genesis (R587, R589). -/
  sinceCk : Nat
  lastCk : Option Nat
  ckTime : Nat
  ckNum : Nat
  cks : List Checkpoint
  /-- SEQ of the CHECKPOINT whose signatures each signature entry holds, by entry index (R590). -/
  sigSeq : List (Nat × Nat)
  sigDelayed : Bool
  swrel : Nat
  hack : Nat
  pack : Nat
  /-- Values written to _LO registers, by offset, waiting for the write of their _HI partners (R594). -/
  loDue : List (Nat × Word)
  /-- Latches of the _HI registers, by the offset of the _LO register (R594). -/
  latch : Table Word
  ckCount : Word
  lostRefused : Half
  lostNote : Half
  /-- Host mirror: the next SEQ to write, and signature entries still to write (R595). -/
  mirrorSeq : Nat
  mirrorSigs : List Nat
  /-- Elapsed time of the last MSI-X message for a mirrored record (R665). -/
  msixTime : Option Nat
  /-- Partner mirror (R596, R598): MSTAT state, datagrams dropped, next SEQ to send, timeouts without progress, elapsed
  time of the last progress or retransmission, and signature entries to send. -/
  partner : BitVec 2
  /-- A change of that state, with the STATUS of its MIRROR record, that waits for the record's place (R593). -/
  partnerDue : Option (BitVec 2 × Byte)
  dropped : Half
  sendSeq : Nat
  timeouts : Nat
  ackTime : Nat
  sendSigs : List Nat
  /-- Receiving side (R597). -/
  prxSeq : Nat
  prxJid : Option Dword
  prxChain : Option (BitVec 384)
  /-- TAMPER.STAT while TAMPERED is 1, and the bench's bit of TAMPER.REC (R748). -/
  tamper : Option Word
  tamperRec : Bool
  deriving DecidableEq, Repr

end Sys2Proof.Machine
end

