-- ==== Sys2Proof/Machine/StateHq.lean ====
section
/-!
DEFINITION. Machine/StateHq.lean: the host queue pairs of a bench and the host's view of it (R652 to R666).
-/

namespace Sys2Proof.Machine

/-- What a submission entry received: ITEM, ADM, REASON and SEQ of the entry, and the STATUS of the completion entry that the
engine writes for ADM 1. -/
structure SqAnswer where
  item : Word
  adm : Byte
  reason : Byte
  seq : Nat
  status : Byte
  deriving DecidableEq, Repr

/-- A submission entry that has been read: its slot, COOKIE, the number under which the journal knows it, and its answer. -/
structure SqEntry where
  slot : Nat
  cookie : Word
  token : Nat
  answer : Option SqAnswer
  deriving DecidableEq, Repr

/-- A completion that the engine itself writes (R660). -/
structure DevCpl where
  slot : Nat
  cookie : Word
  status : Byte
  reason : Byte
  deriving DecidableEq, Repr

/-- A completion descriptor that has been read, with the value of NEXTSEQ captured then. -/
structure CsDesc where
  desc : List Byte
  gate : Nat
  deriving DecidableEq, Repr

/-- A host queue pair (R659 to R666). -/
structure Hqp where
  sqtail : Nat
  cqlo : Word
  cqhi : Word
  cqhead : Nat
  sqadm : Nat
  cshead : Nat
  /-- One past the last completion entry written, and the PHASE it will carry. -/
  cqtail : Nat
  phase : Bool
  badcpl : Byte
  refused : Byte
  /-- The entries of the doorbell being served. -/
  batch : List SqEntry
  /-- Slots that await software, with their COOKIE. -/
  out : List (Nat × Word)
  devq : List DevCpl
  desc : Option CsDesc
  deriving DecidableEq, Repr

structure HostQ where
  pairs : Table Hqp
  /-- Vectors 256 to 259 that wait for the link (HOST.MSIX). -/
  msix : List Nat
  deriving DecidableEq, Repr

end Sys2Proof.Machine
end

