-- ==== Sys2Proof/Machine/StateEng.lean ====
section
/-!
DEFINITION. Machine/StateEng.lean: the state of the units that take job descriptors (R462 to R482, R505 to R509): the thirteen
engines, the Clickers and the Closers, BENCH.USTATE indices 1 to 17.
-/

namespace Sys2Proof.Machine

/-- A descriptor in a submission ring (R465): its 64 bytes and four tags, and what the submission captured (R364). -/
structure Sub where
  desc : List Byte
  tags : BitVec 4
  seq : Half
  origin : Word
  mode : Nat
  asid : Nat
  root : Nat
  sys : Bool
  /-- The strand that submitted it: core, bank and task; streams belong to it (R214). -/
  core : CoreNo
  bank : BankNo
  task : Option Nat
  deriving DecidableEq, Repr

/-- A submission ring with its completion ring's indices (R465 to R471). -/
structure Ring where
  base : BitVec 40
  depth : BitVec 2
  prio : BitVec 2
  en : Bool
  subs : List Sub
  outstanding : Nat
  head : Nat
  phase : Bool
  tail : Nat
  seq : Half
  deriving DecidableEq, Repr

/-- Work that the journal unit and the ports' TLS record layer place in a unit queue (R464). -/
inductive UnitJob where
  /-- The signature of a CHECKPOINT record (R588): ML-DSA or ECDSA, its SEQ, the handle read from JRN.CKKEYS. -/
  | checkpoint (mldsa : Bool) (seq : Nat) (handle : Cap) (record : List Byte)
  /-- The digest of an admitted request (R580): the place of its bytes. -/
  | digest (token addr len : Nat)
  /-- A TLS record to protect or unprotect (R633, R635): its number, the traffic key's suite, nonce and bytes, the additional
  data and the plaintext or ciphertext with its tag. -/
  | tls (ident : Nat) (enc : Bool) (suite : Nat) (nonce key aad data : List Byte)
  deriving DecidableEq, Repr

/-- A key that a job places in the vault when it completes (R431 step 9, R432). -/
structure KeyPlan where
  /-- The form is LOAD: step 7 of R431 applies. -/
  load : Bool
  cls : Nat
  header : List Byte
  value : List Byte
  aux : Nat
  /-- The handle destination's virtual address. -/
  dest : Nat
  /-- The journal record's TYPE, if the form makes one (R455). -/
  journal : Option Nat
  deriving DecidableEq, Repr

/-- Where a job's output goes: a virtual address that a whole-job operation translates again (R367), or a physical
address that a streaming operation has translated (R366). -/
inductive OutAt where
  | va (a : Nat)
  | pa (a : Nat)
  deriving DecidableEq, Repr

/-- What a job that has begun will do at its completion. -/
structure Finish where
  status : Nat
  detail : Nat
  /-- Operand concerned: 0 A, 1 B, 2 C, 3 none. -/
  opnd : Nat
  prev : Bool
  progress : Nat
  result : Nat
  writes : List (OutAt × List Byte)
  plan : Option KeyPlan
  /-- A journal record of its own (KEY_EXPORTED): TYPE, TENANT and DATA. -/
  record : Option (Nat × Word × List Byte)
  /-- Input consumed so far, where a resume token is to be stored (R479). -/
  suspend : Option (List Byte)
  /-- The parameter block that a suspended cipher or MAC job has read: its nonce, IV or counter block. -/
  param : List Byte
  /-- Events that the completion raises beside the ring's. -/
  events : List Nat
  /-- A signature for the journal unit (R589). -/
  sig : List Byte
  keyid : List Byte
  /-- A stream job whose end is not known yet. -/
  wait : Bool
  deriving DecidableEq, Repr

/-- The job in flight: from a ring, or from the unit queue. -/
structure Job where
  ring : Option (Fin 4)
  sub : Sub
  unit : Option UnitJob
  /-- First slots of the keys the job uses (R433). -/
  uses : List Nat
  /-- The progress at which a resumed job continues (R480): 0 for one that was not resumed. -/
  base : Nat
  /-- The pattern set in force at its begin (R565). -/
  set : Nat
  fin : Finish
  deriving DecidableEq, Repr

/-- A resume token's entry (R479); `since` is the elapsed time of its issue. -/
structure Token where
  desc : List Byte
  sub : Sub
  seen : List Byte
  param : List Byte
  progress : Nat
  since : Nat
  /-- The pattern set in force at the job's begin (R565). -/
  set : Nat
  deriving DecidableEq, Repr

/-- An engine, Clicker or Closer. -/
structure Eng where
  rings : Vector Ring 4
  unitQ : List UnitJob
  job : Option Job
  tokens : List (Nat × Token)
  tokttl : BitVec 10
  done : Word
  notOk : Half
  tokDrop : Half
  katOk : Bool
  katFail : Bool
  /-- The ring that won last (R59). -/
  lastRing : Nat
  /-- SKE.PINPOL (R497). -/
  pinpol : BitVec 2
  deriving DecidableEq, Repr

/-- The DRBG (R505 to R509): Key and V of CTR_DRBG, the sources in service and what is counted. -/
structure Drbg where
  key : List Byte
  v : List Byte
  src0 : Bool
  src1 : Bool
  error : Bool
  inst : Bool
  fails : Byte
  reseeds : Half
  /-- Generate requests since the last reseed, and the elapsed time of that reseed. -/
  requests : Nat
  since : Nat
  reseedDue : Bool
  deriving DecidableEq, Repr

end Sys2Proof.Machine
end

