-- ==== Sys2Proof/Machine/StateMsg.lean ====
section
/-!
DEFINITION. Machine/StateMsg.lean: the pattern store (R530, R562 to R566) and the open streams of the message units (R556 to
R561).
-/

namespace Sys2Proof.Machine

/-- A bank of the pattern store: the image, the SRCLEN of its LOAD, whether that LOAD was without error, and which LOAD
it was (0 the boot set). -/
structure PatSet where
  image : List Byte
  srclen : Nat
  usable : Bool
  ident : Nat
  deriving DecidableEq, Repr

/-- The command that makes PAT.STAT.BUSY 1. -/
inductive PatCmd where
  | load (src len : Nat)
  | swap
  deriving DecidableEq, Repr

structure Pat where
  bank0 : PatSet
  bank1 : PatSet
  /-- PAT.STAT.BANK: bank 1 is ACTIVE. -/
  bank : Bool
  drained : Bool
  refused : Bool
  reason : Nat
  index : Nat
  gen : Byte
  src : Word
  srclen : Word
  busy : Option PatCmd
  loads : Nat
  /-- Units whose job in flight began under the set before the last exchange. -/
  old : List Nat
  deriving DecidableEq, Repr

inductive StreamPhase where
  | waiting | begun | done | failed | closed
  deriving DecidableEq, Repr

/-- An open stream: its job is the descriptor at position `pos` of ring `ring` of `unit`. -/
structure MsgStream where
  unit : Nat
  ring : Nat
  pos : Half
  core : CoreNo
  bank : BankNo
  /-- The task resident in the submitting bank. -/
  task : Option Nat
  phase : StreamPhase
  /-- The descriptor's VAR. -/
  var : Nat
  /-- Bytes the job awaits: LEN, or 16 * COUNT. -/
  want : Nat
  /-- Bytes pushed (at most `want`), and how many the unit has taken from its input buffer. -/
  data : List Byte
  taken : Nat
  /-- The output, so far as it is known, and how many bytes of it have been popped. -/
  out : List Byte
  popped : Nat
  /-- Elapsed time of the begin, of the last push awaited, or of the last emptying of the output buffer (R561). -/
  since : Nat
  /-- The pattern set in force at the job's begin. -/
  image : List Byte
  deriving DecidableEq, Repr

end Sys2Proof.Machine
end

