-- ==== Sys2Proof/Machine/StateNet.lean ====
section
/-!
DEFINITION. Machine/StateNet.lean: the ports, the TCP engine with its connections, and the network receive and transmit queues
(R614 to R651, R793).
-/

namespace Sys2Proof.Machine

/-- A port (R615, R617, R651). -/
structure Port where
  /-- The MAC address from the configuration image. -/
  mac : List Byte
  up : Bool
  rate : BitVec 3
  anDone : Bool
  changes : Half
  rxfrm : Word
  txfrm : Word
  drop : Word
  fecunc : Word
  /-- The second in which echo requests are being counted, and their count (R620). -/
  echoSecond : Nat
  echoCount : Nat
  deriving DecidableEq, Repr

/-- States of a connection (RFC 793). -/
inductive TcpState where
  | synSent | synRcvd | established | finWait1 | finWait2 | closing | timeWait | closeWait | lastAck
  deriving DecidableEq, Repr

/-- A traffic key with its record sequence number (R632). -/
structure TlsKey where
  suite : Nat
  iv : List Byte
  key : List Byte
  seq : Nat
  deriving DecidableEq, Repr

/-- A message being placed in a receive buffer. -/
structure Partial where
  addr : Nat
  need : Nat
  got : List Byte
  deriving DecidableEq, Repr

/-- A transmission on a TLS connection: its records, none while its encryption is in an SKE's unit queue, and the queue
whose descriptor waits for it. -/
structure TxRecs where
  queue : Option Nat
  parts : List (Nat × Option (List Byte))
  deriving DecidableEq, Repr

/-- A connection (R623 to R636). Times are elapsed times. -/
structure Conn where
  prof : Nat
  port : Bool
  v6 : Bool
  laddr : List Byte
  raddr : List Byte
  lport : Nat
  rport : Nat
  rmac : List Byte
  state : TcpState
  /-- Send side: initial, oldest unacknowledged and next sequence numbers; the retransmit buffer from `una` on; a FIN
  asked for, and sent. -/
  iss : Word
  una : Word
  nxt : Word
  sndBuf : List Byte
  fin : Bool
  finSent : Bool
  /-- The peer's window, both window scale shifts, the peer's MSS, and the options in use. -/
  wnd : Nat
  sscale : Nat
  rscale : Nat
  mss : Nat
  sackOk : Bool
  tsOk : Bool
  tsRecent : Word
  /-- NewReno. -/
  cwnd : Nat
  ssthresh : Nat
  dupAcks : Nat
  recover : Option Word
  /-- RFC 6298: smoothed round trip and variation, the timeout, the segment being timed, the timer's start and the
  retransmissions of the oldest segment. -/
  rtt : Option (Nat × Nat)
  rto : Nat
  timing : Option (Word × Nat)
  timer : Option Nat
  retries : Nat
  /-- Receive side: next sequence number, bytes in order, segments out of order, and the bytes received so far with the
  times at which they arrived. -/
  rcvNxt : Word
  rcvBuf : List Byte
  ooo : List (Word × List Byte)
  rcvd : Nat
  arrivals : List (Nat × BitVec 96)
  finRcvd : Bool
  ackDue : Option Nat
  lastRx : Nat
  probes : Nat
  waitSince : Nat
  /-- Framing: the message being placed. -/
  part : Option Partial
  /-- TLS: keys, delivery stopped after a TLS_REC (R633), decrypted bytes with their arrival time, the decryption in
  flight, KL due (R635), and transmissions being encrypted. -/
  rkey : Option TlsKey
  wkey : Option TlsKey
  hold : Bool
  plain : List Byte
  plainTin : BitVec 96
  rxJob : Option Nat
  kl : Bool
  recs : List TxRecs
  /-- The transmit queue whose CONNECT waits for this connection. -/
  txq : Option Nat
  /-- CLOSED has been delivered for the peer's FIN. -/
  told : Bool
  deriving DecidableEq, Repr

/-- A descriptor that a receive queue will write (R640): its message's number, and whether the journal has answered. -/
structure RxEntry where
  token : Nat
  port : Bool
  kind : Nat
  status : Nat
  conn : Nat
  /-- The buffer taken, or the bytes that need one. -/
  addr : Option Nat
  bytes : List Byte
  len : Nat
  item : Word
  flags : Nat
  reason : Nat
  id : Nat
  ready : Bool
  deriving DecidableEq, Repr

structure Rxq where
  dhead : Nat
  phase : Bool
  bhead : Nat
  nobuf : Half
  fifo : List RxEntry
  /-- Buffers taken for messages that were discarded: the next messages take them. -/
  spare : List Nat
  deriving DecidableEq, Repr

/-- The transmit descriptor in progress: its bytes, the value of NEXTSEQ captured for JGATE, its connection was open, and its
operation has begun. -/
structure TxCur where
  desc : List Byte
  bad : Bool
  gate : Nat
  open' : Bool
  started : Bool
  deriving DecidableEq, Repr

structure Txq where
  head : Nat
  cur : Option TxCur
  deriving DecidableEq, Repr

/-- What a record-layer job in an SKE's unit queue left (R634, R793). -/
structure TlsDone where
  ident : Nat
  status : Nat
  bytes : List Byte
  deriving DecidableEq, Repr

structure Net where
  port0 : Port
  port1 : Port
  conns : List (Nat × Conn)
  rxq : Table Rxq
  txq : Table Txq
  synref : Half
  /-- The next number of a message or of a record-layer job. -/
  next : Nat
  lastSke : Nat
  tlsDone : List TlsDone
  deriving DecidableEq, Repr

end Sys2Proof.Machine
end

