-- ==== Sys2Proof/Machine/StatePwr.lean ====
section
/-!
DEFINITION. Machine/StatePwr.lean: a bench's reset state (R675 to R695, R719), its clocks (R29, R681), and its power and adaptation
block (R736 to R742, R750 to R759).
-/

namespace Sys2Proof.Machine

/-- A bench-level reset source that has asserted, with its code and SOFTSRC (R675, R677). -/
structure RstCause where
  cause : Byte
  softsrc : BitVec 2
  deriving DecidableEq, Repr

structure Rst where
  /-- The bench's blocks have been released (R693). -/
  released : Bool
  tagClearDone : Bool
  /-- The supervisor core has made its first fetch (R695). -/
  firstFetch : Bool
  /-- BENCH.BRSTCAUSE (R677), and CAUSE of DMC.RSTCAUSE as it stood at the last reset (R577). -/
  cause : Byte
  softsrc : BitVec 2
  count : Half
  devCause : Byte
  /-- A source has asserted and the bench has not yet entered reset (R686). -/
  due : Option RstCause
  /-- The bench left OFF: its START record carries 0 for its cause (R740). -/
  fromOff : Bool
  dramKept : Bool
  wblost : Bool
  /-- Where the supervisor core starts: the SUPERVISOR record's ENTRY as an address (R695). -/
  entry : Nat
  /-- BENCH.WDOG (R719) and the microseconds that it has counted (R682). -/
  wdogTimeout : Half
  wdogLock : Bool
  wdogLockWritten : Bool
  wdogCount : Nat
  /-- The bench reference clock is within its limits (R681). -/
  clockOk : Bool
  /-- Islands whose FLL has lost lock, with the elapsed time of the loss (R29). -/
  fllLost : List (Nat × Nat)
  deriving DecidableEq, Repr

structure Pwr where
  requested : BitVec 4
  effective : BitVec 4
  diverged : Bool
  changes : Byte
  /-- Elapsed time at which the divergence timer (re)started (R48), and that it has passed its limit since. -/
  since : Nat
  passed : Bool
  wake : BitVec 6
  /-- PWR.FREQ, in 25 MHz. -/
  floor : BitVec 7
  ceil : BitVec 7
  /-- The selected frequency in 25 MHz, and the ceilings that temperature, current and the power cap leave (R751, R753 to
  R755). -/
  freq : Nat
  thermalCeil : Nat
  currentCeil : Nat
  capCeil : Nat
  /-- The frequency at which 0.85 V keeps its margin (R757, R768). -/
  marginCeil : Nat
  clamped : Bool
  clThermal : Bool
  clCurrent : Bool
  clMargin : Bool
  /-- Elapsed time since which no cause of clamping has been present (R757). -/
  calmSince : Nat
  /-- Temperature lowers the ceiling (R753, EV_THROTTLE). -/
  throttling : Bool
  tj : Byte
  tjmax : Byte
  /-- HALT is in force for the bench (R734). -/
  halt : Bool
  deriving DecidableEq, Repr

end Sys2Proof.Machine
end

