-- ==== Sys2Proof/Machine/StateVault.lean ====
section
/-!
DEFINITION. Machine/StateVault.lean: the state of a bench's key vault, its ceremony and its BBRAM partition (R415 to R417,
R437 to R445, R457).
-/

namespace Sys2Proof.Machine

/-- A vault slot (R415): its state word and its 128 bytes of storage; an erased slot holds no bytes. -/
structure Slot where
  gen : Half
  occ : Bool
  ext : Bool
  pin : Bool
  retired : Bool
  run : BitVec 4
  cls : Byte
  data : List Byte
  /-- When the slot was last validated or returned, in the vault's own count of uses (R433). -/
  used : Nat
  deriving DecidableEq, Repr

/-- An open ceremony (R439 to R442). -/
structure Ceremony where
  nonce : List Byte
  check : Option (List Byte)
  xPriv : List Byte
  kemSeed : List Byte
  /-- Bench time in microseconds elapsed at CER_OPEN. -/
  since : Nat
  /-- Accepted shares: custodian index, share index, share. -/
  shares : List (Nat × Nat × List Byte)
  deriving DecidableEq, Repr

/-- A VAULT.CMD command in progress (R458): its OP, ARG and ORIGIN. -/
structure VaultCmd where
  op : BitVec 4
  arg : Word
  origin : Word
  deriving DecidableEq, Repr

/-- The key vault. -/
structure Vault where
  slots : Table Slot
  uses : Nat
  ctrl : BitVec 2
  lock : Bool
  /-- The single write of VAULT.LOCK has counted (R9). -/
  lockWritten : Bool
  cmd : Option VaultCmd
  arg : Word
  result : Byte
  seq : Byte
  evictions : Word
  info : Vector Word 9
  zeroised : Bool
  /-- BBRAM partition (R437): CURRENT, PREVIOUS and the epoch copy. -/
  current : Option (List Byte)
  previous : Option (List Byte)
  bbEpoch : BitVec 7
  ceremony : Option Ceremony
  deriving DecidableEq, Repr

/-- A custodian of the ceremony profile: SHA-384 digests of the two public keys (R439). -/
structure Custodian where
  ecdsa : List Byte
  mldsa : List Byte
  deriving DecidableEq, Repr

/-- The ceremony profile of the configuration image: quorum, timeout in seconds, custodians. -/
structure Profile where
  quorum : Nat
  timeout : Nat
  custodians : List Custodian
  deriving DecidableEq, Repr

end Sys2Proof.Machine
end

