-- ==== Sys2Proof/Machine/StateBench.lean ====
section
/-!
DEFINITION. Machine/StateBench.lean: a bench (R20): everything the spec gives it, each unit's part as a structure of its own.
-/

namespace Sys2Proof.Machine

inductive Output where
  | hostWrite (addr : Nat) (bytes : List Byte)
  /-- An MSI-X message of the function PF1 + b (R665). -/
  | msix (vector : Nat)
  /-- What a register read returned to its reader. -/
  | read (w : Writer) (off : Nat) (v : Word)
  /-- A frame that a port sends, without its FCS. -/
  | frame (port : Bool) (bytes : List Byte)
  /-- A PTP message: port, messageType, transport, domain, and the timestamp it carries (R604, R605). -/
  | ptp (port : Bool) (kind : BitVec 4) (transport domain : Nat) (stamp : Option (BitVec 96))
  deriving DecidableEq, Repr

structure Bench where
  ctl : Ctl
  cores : Vector Core 17
  sched : Sched
  trans : Trans
  mem : Mem
  memErr : MemErr
  maf : Maf
  rake : Rake
  vault : Vault
  /-- Units 1 to 17 (index 0 is not used). -/
  engs : Vector Eng 18
  drbg : Drbg
  pat : Pat
  streams : List MsgStream
  jrn : Journal
  net : Net
  hq : HostQ
  time : TimeState
  /-- The registers that software writes and reads and that have no state of their own, by offset; 0 where not listed. -/
  regs : Table Word
  rst : Rst
  pwr : Pwr
  hostUp : Bool
  hwin : Table Dword
  freeCtr : Nat
  out : List Output
  deriving DecidableEq, Repr

end Sys2Proof.Machine
end

