-- ==== Sys2Proof/Machine/Ops.lean ====
section
/-!
DEFINITION. Machine/Ops.lean: the shared operations over the state of a bench: tables, registers, ORIGIN, bench time,
physical address types, the tie rule, events and their delivery, memory bytes and tags, the access filter and its
violation records.
-/

namespace Sys2Proof.Machine

/-! ## Tables and sorted sets -/

/-- The entry at index `i`, `d` where none is listed. -/
def Table.get {α : Type} (d : α) : Table α → Nat → α
  | [], _ => d
  | (j, v) :: t, i => if i = j then v else if i < j then d else Table.get d t i

/-- Drop the entry at index `i`. -/
def Table.erase {α : Type} : Table α → Nat → Table α
  | [], _ => []
  | (j, v) :: t, i => if i = j then t else if i < j then (j, v) :: t else (j, v) :: Table.erase t i

/-- List `v` at index `i` in the place its index gives it. -/
def Table.insert {α : Type} : Table α → Nat → α → Table α
  | [], i, v => [(i, v)]
  | (j, w) :: t, i, v =>
    if i = j then (i, v) :: t else if i < j then (i, v) :: (j, w) :: t else (j, w) :: Table.insert t i v

/-- The table with entry `i` set to `v`, in canonical form: an entry equal to the default is not listed. -/
def Table.set {α : Type} [DecidableEq α] (d : α) (t : Table α) (i : Nat) (v : α) : Table α :=
  if v = d then Table.erase t i else Table.insert t i v

/-- The canonical form of a table: indices strictly rising, no entry the default. -/
def Table.wf {α : Type} [DecidableEq α] (d : α) : Table α → Bool
  | [] => true
  | [(_, v)] => decide (v ≠ d)
  | (i, v) :: (j, w) :: t => decide (v ≠ d) && decide (i < j) && Table.wf d ((j, w) :: t)

/-- Insert a number into a rising list. -/
def setInsert : List Nat → Nat → List Nat
  | [], i => [i]
  | j :: t, i => if i = j then j :: t else if i < j then i :: j :: t else j :: setInsert t i

/-- A list of numbers rises strictly. -/
def setWf : List Nat → Bool
  | [] => true
  | [_] => true
  | i :: j :: t => decide (i < j) && setWf (j :: t)

/-! ## The tie rule -/

/-- The candidate that follows `last` most closely modulo `n` (R59); none without a candidate. -/
def tie (n last : Nat) : List Nat → Option Nat
  | [] => none
  | k :: ks =>
    match tie n last ks with
    | none => some k
    | some j => if (k + n - (last + 1) % n) % n < (j + n - (last + 1) % n) % n then some k else some j

/-! ## Reading a bench -/

def Bench.core (B : Bench) (k : CoreNo) : Core := B.cores[k]
def Bench.setCore (B : Bench) (k : CoreNo) (c : Core) : Bench := { B with cores := B.cores.set k c }
def Bench.modCore (B : Bench) (k : CoreNo) (f : Core → Core) : Bench := B.setCore k (f (B.core k))
def Core.bank (c : Core) (b : BankNo) : Bank := c.banks[b]
def Core.setBank (c : Core) (b : BankNo) (v : Bank) : Core := { c with banks := c.banks.set b v }
def Bench.bank (B : Bench) (k : CoreNo) (b : BankNo) : Bank := (B.core k).bank b
def Bench.setBank (B : Bench) (k : CoreNo) (b : BankNo) (v : Bank) : Bench := B.modCore k (·.setBank b v)
def Bench.modBank (B : Bench) (k : CoreNo) (b : BankNo) (f : Bank → Bank) : Bench :=
  B.setBank k b (f (B.bank k b))

/-- x-register read: x0 is zero (R115). -/
def Bank.getX (s : Bank) (r : Reg) : Word := if r = 0 then 0 else s.x[r]
/-- x-register write: x0 ignores it (R176). -/
def Bank.setX (s : Bank) (r : Reg) (v : Word) : Bank := if r = 0 then s else { s with x := s.x.set r v }
/-- c-register read: c0 is untagged zero (R65). -/
def Bank.getC (s : Bank) (r : Reg) : Cap := if r = 0 then Cap.null else s.c[r]
/-- c-register write: c0 ignores it (R65). -/
def Bank.setC (s : Bank) (r : Reg) (v : Cap) : Bank := if r = 0 then s else { s with c := s.c.set r v }
/-- Predicate read: p0 is 1 (R115). -/
def Bank.getP (s : Bank) (r : Fin 8) : Bool := if r = 0 then true else s.p[r]
/-- Predicate write: p0 ignores it (R176). -/
def Bank.setP (s : Bank) (r : Fin 8) (v : Bool) : Bank := if r = 0 then s else { s with p := s.p.set r v }
def Bank.getD (s : Bank) (r : Fin 16) : Quad := s.d[r]
def Bank.setD (s : Bank) (r : Fin 16) (v : Quad) : Bank := { s with d := s.d.set r v }

/-- ESTAT.INTRAP (R222). -/
def Bank.inTrap (s : Bank) : Bool := s.estat.getLsbD 0
/-- PCC has the permission. -/
def Bank.pccHas (s : Bank) (n : Nat) : Bool := s.pcc.has n
/-- ESC_CAUSE.ACTIVE (R256). -/
def Core.escActive (c : Core) : Bool := c.escCause.getLsbD 13

/-- The ORIGIN word of a strand (R15, R16). -/
def Bench.origin (B : Bench) (k : CoreNo) (b : BankNo) : Word :=
  let low : Nat := if k = bsc then 0xFF else k.val * 16 + b.val * 2
  (B.ctl.place &&& 0xFFFFF800#32) ||| BitVec.ofNat 32 (B.ctl.id.val * 256 + low)

/-- The executing strand's ORIGIN on a core, bank 0's where none executes. -/
def Bench.coreOrigin (B : Bench) (k : CoreNo) : Word := B.origin k ((B.core k).cur.getD 0)

/-- The STATUS field (R570). -/
def TimeState.status (t : TimeState) : BitVec 10 :=
  BitVec.ofNat 10 (t.source.toNat + (if t.holdover then 4 else 0) + t.quality.toNat * 8)

/-- Bench time as a 96-bit value (R569). -/
def TimeState.value (t : TimeState) : BitVec 96 :=
  t.sec ++ BitVec.ofNat 30 t.ns ++ t.frac ++ t.status

/-- The type of a physical address (R324, R399). -/
def paType (pa : Nat) : PaType :=
  if pa < 0x3D8000000 then .normal
  else if 0x1000000000 ≤ pa && pa < 0x1001000000 then .normal
  else if 0x2000000000 ≤ pa && pa < 0x3000000000 then .register
  else if 0x3000000000 ≤ pa && pa < 0x4000000000 then .host
  else .unpopulated

/-- The little-endian bytes of a natural number. -/
def leBytes : Nat → Nat → List Byte
  | 0, _ => []
  | n + 1, v => BitVec.ofNat 8 v :: leBytes n (v / 256)

/-- The number that little-endian bytes spell. -/
def leNat : List Byte → Nat
  | [] => 0
  | b :: t => b.toNat + 256 * leNat t

/-- The big-endian bytes of a natural number. -/
def beBytes (n v : Nat) : List Byte := (leBytes n v).reverse
/-- The number that big-endian bytes spell. -/
def beNat (l : List Byte) : Nat := leNat l.reverse

/-! ## Free values -/

/-- A bench computation that cannot fault. -/
abbrev S := StateM Bench

/-- The index of the next draw: the draws of different benches, and of the device (Device.draw), have different indices. -/
def Bench.drawIndex (B : Bench) : Nat := B.freeCtr * 16 + B.ctl.id.val
def drawByte : S Byte := fun B => (Config.freeByte B.drawIndex, { B with freeCtr := B.freeCtr + 1 })
def drawWord : S Word := fun B => (Config.freeWord B.drawIndex, { B with freeCtr := B.freeCtr + 1 })
def drawBytes : Nat → S (List Byte)
  | 0 => pure []
  | n + 1 => do
    let b ← drawByte
    let t ← drawBytes n
    pure (b :: t)

/-- Append to the bench's output log. -/
def Bench.emit (B : Bench) (o : Output) : Bench := { B with out := B.out ++ [o] }

/-! ## Events (R306 to R313) -/

def EvStat.zero : EvStat := { count := 0, pending := false, masked := false, level := false, window := 0 }
def UState.zero : UState :=
  { requested := 0, effective := 0, diverged := false, changes := 0, forcing := false, since := 0, passed := false }
def Task.zero : Task :=
  { state := .empty, at? := none, wake := false, prio := 0, upper := false, pin := false, fault := 0, stopDue := false
    cores := 0, banks := 0, tcb := 0 }

def Bench.ev (B : Bench) (n : Nat) : EvStat := B.sched.evstat.get EvStat.zero n
def Bench.setEv (B : Bench) (n : Nat) (e : EvStat) : Bench :=
  { B with sched := { B.sched with evstat := B.sched.evstat.set EvStat.zero n e } }
def Bench.task (B : Bench) (n : Nat) : Task := B.sched.tasks.get Task.zero n
def Bench.setTask (B : Bench) (n : Nat) (t : Task) : Bench :=
  { B with sched := { B.sched with tasks := B.sched.tasks.set Task.zero n t } }
def Bench.ustate (B : Bench) (u : Nat) : UState := B.ctl.ustate.get UState.zero u
def Bench.setUState (B : Bench) (u : Nat) (v : UState) : Bench :=
  { B with ctl := { B.ctl with ustate := B.ctl.ustate.set UState.zero u v } }

/-- Binding modes (R317). -/
inductive BindMode where
  | none | wake | trap | bsc
  deriving DecidableEq, Repr

/-- The sources bound to the supervisor core only (R306, R317). -/
def bscOnly (n : Nat) : Bool := (576 ≤ n && n < 640) || 1008 ≤ n

/-- SCHED.BIND[n] as it reads (R317). -/
def Bench.bindWord (B : Bench) (n : Nat) : Word :=
  if 964 ≤ n && n < 1008 then 0
  else
    let w := B.sched.bind.get 0 n
    if bscOnly n then w ||| 3#32 else w

def Bench.bindMode (B : Bench) (n : Nat) : BindMode :=
  match (B.bindWord n).toNat % 4 with
  | 0 => .none
  | 1 => .wake
  | 2 => .trap
  | _ => .bsc
def Bench.bindTask (B : Bench) (n : Nat) : Nat := slice (B.bindWord n).toNat 13 2
def Bench.bindLimit (B : Bench) (n : Nat) : Nat := slice (B.bindWord n).toNat 27 16

/-- A 16-bit count that saturates. -/
def sat16 (h : Half) : Half := if h = 0xFFFF then h else h + 1

/-- An occurrence: PENDING and COUNT (R307, R308). -/
def Bench.pend (B : Bench) (n : Nat) : Bench :=
  let e := B.ev n
  B.setEv n { e with count := sat16 e.count, pending := true }

/-- A delivery of source `n` counts against its LIMIT (R313); sources from 1,008 are never limited. -/
def Bench.countDelivery (B : Bench) (n : Nat) : Bench :=
  let lim := B.bindLimit n
  if n ≥ 1008 || lim = 0 then B
  else
    let e := B.ev n
    let w := e.window + 1
    if w ≥ lim then
      let B := B.setEv n { e with window := w, masked := true }
      let B := { B with sched := { B.sched with stormSource := BitVec.ofNat 10 n, stormCount := sat16 B.sched.stormCount } }
      B.pend 1013
    else B.setEv n { e with window := w }

def TaskState.live (t : TaskState) : Bool := t = .waiting || t = .ready || t = .running

/-- A wake-up occurrence for a task (R307 WAKE). -/
def Bench.wake (B : Bench) (t : Nat) : Bench :=
  let k := B.task t
  match k.state with
  | .waiting => B.setTask t { k with state := .ready }
  | .ready => B.setTask t { k with wake := true }
  | .running => B.setTask t { k with wake := true }
  | _ => B

def Bench.clearPending (B : Bench) (n : Nat) : Bench := B.setEv n { B.ev n with pending := false }

/-- What the binding in force does with a pending occurrence at once (R307, R313). TRAP and BSC occurrences stay
pending until their trap is taken. -/
def Bench.deliver (B : Bench) (n : Nat) : Bench :=
  let e := B.ev n
  if !e.pending || e.masked then B
  else
    match B.bindMode n with
    | .none => B.clearPending n
    | .wake =>
      let t := B.bindTask n
      if (B.task t).state.live then ((B.wake t).clearPending n).countDelivery n else B.clearPending n
    | .trap =>
      let t := B.bindTask n
      let k := B.task t
      if !k.state.live then B.clearPending n
      else if k.state = .waiting then B.setTask t { k with state := .ready }
      else B
    | .bsc => B

/-- The bench is in NAP or OFF (R736). -/
def Bench.asleep (B : Bench) : Bool := 2 ≤ B.pwr.effective.toNat

/-- The bench's blocks work: it is released and in RUN, and no reset has begun (R686, R693, R737, R739). -/
def Bench.running (B : Bench) : Bool := B.rst.released && B.rst.due.isNone && B.pwr.effective = 0

/-- Island `i` (Bench.islands) has a clock: its FLL is locked (R29). -/
def Bench.islandOk (B : Bench) (i : Nat) : Bool := !B.rst.fllLost.any fun e => e.1 = i
/-- The journal unit's clock runs: what reaches the unit is not stalled (R29). -/
def Bench.jrnRuns (B : Bench) : Bool := B.islandOk 35

/-- PWR.WAKE enables the group of source `n` (R759). -/
def Bench.wakeOn (B : Bench) (n : Nat) : Bool :=
  let w := B.pwr.wake
  if n < 256 then w.getLsbD 0 else if 448 ≤ n && n < 512 then w.getLsbD 2 else if 640 ≤ n && n < 704 then w.getLsbD 3
  else if 768 ≤ n && n < 832 then w.getLsbD 4 else if 832 ≤ n && n < 896 then w.getLsbD 5 else false

/-- The wake detector sets REQUESTED to RUN (R741). -/
def Bench.wakeUp (B : Bench) : Bench :=
  if B.asleep && B.pwr.requested ≠ 0 then { B with pwr := { B.pwr with requested := 0, since := B.time.elapsed, passed := false } } else B

/-- An event source occurs (R307). In NAP and OFF it stays pending until the wake, and in OFF only the sources of enabled
groups do (R740, R741). -/
def Bench.raise (B : Bench) (n : Nat) : Bench :=
  if !B.asleep then (B.pend n).deliver n
  else if B.wakeOn n then (B.pend n).wakeUp
  else if B.pwr.effective = 3 then B else B.pend n

def Bench.raiseAll (B : Bench) (ns : List Nat) : Bench := ns.foldl Bench.raise B

/-! ## Memory bytes and tags -/

/-- One byte of bench memory; a byte that nothing has written reads zero (DESIGN CHOICE, log 3). -/
def Mem.byte (m : Mem) (a : Nat) : Byte := Table.get (0 : Byte) m.bytes a
def Mem.setByte (m : Mem) (a : Nat) (v : Byte) : Mem := { m with bytes := Table.set (0 : Byte) m.bytes a v }
def Mem.read (m : Mem) (a : Nat) : Nat → List Byte
  | 0 => []
  | n + 1 => m.byte a :: m.read (a + 1) n
def Mem.write (m : Mem) (a : Nat) : List Byte → Mem
  | [] => m
  | v :: t => (m.setByte a v).write (a + 1) t

def Mem.tag (m : Mem) (g : Nat) : Bool := m.tags.contains g
def Mem.setTag (m : Mem) (g : Nat) : Mem :=
  { m with tags := setInsert m.tags g, summary := setInsert m.summary (g / 256) }
def Mem.clearTag (m : Mem) (g : Nat) : Mem := { m with tags := m.tags.filter (· ≠ g) }
/-- Clear the tag of every granule that [a, a + n) touches (R100). -/
def Mem.clearTags (m : Mem) (a n : Nat) : Mem :=
  if n = 0 then m else { m with tags := m.tags.filter fun g => g < a / 16 || (a + n - 1) / 16 < g }

/-- The memory's canonical form: listed bytes rise and are not zero; tags, poison and summary rise. -/
def Mem.wf (m : Mem) : Bool :=
  Table.wf (0 : Byte) m.bytes && setWf m.tags && setWf m.poison && setWf m.summary

/-! ## The master access filter -/

def MafRule.zero : MafRule := { w0 := 0, w1 := 0, w2 := 0 }
def MafRule.en (r : MafRule) : Bool := r.w2.getLsbD 31
def MafRule.base (r : MafRule) : Nat := r.w0.toNat % 2 ^ 28
def MafRule.limit (r : MafRule) : Nat := r.w1.toNat % 2 ^ 28
def MafRule.midv (r : MafRule) : Nat := r.w2.toNat % 256
def MafRule.midm (r : MafRule) : Nat := slice r.w2.toNat 15 8
def MafRule.r (r : MafRule) : Bool := r.w2.getLsbD 16
def MafRule.w (r : MafRule) : Bool := r.w2.getLsbD 17
def MafRule.x (r : MafRule) : Bool := r.w2.getLsbD 18
def MafRule.tagw (r : MafRule) : Bool := r.w2.getLsbD 19

/-- A rule matches an access (R375). -/
def MafRule.hits (r : MafRule) (mid pa : Nat) : Bool :=
  r.en && r.base ≤ pa / 4096 && pa / 4096 ≤ r.limit && (mid &&& r.midm) == (r.midv &&& r.midm)

def Maf.active (m : Maf) : Table MafRule := if m.bank then m.rules1 else m.rules0
def Maf.staged (m : Maf) : Table MafRule := if m.bank then m.rules0 else m.rules1
def Maf.setStaged (m : Maf) (t : Table MafRule) : Maf := if m.bank then { m with rules0 := t } else { m with rules1 := t }

/-- Master identities (R371). -/
def midCore (k : CoreNo) : Nat := k.val
def midBsc : Nat := 0x10
def midJournal : Nat := 0x30
def midPort (p : Nat) : Nat := 0x31 + p
def midDrbg : Nat := 0x33
def midHost : Nat := 0x40
def midDmc : Nat := 0x41
def midRake : Nat := 0x50
def midEtu : Nat := 0x51

/-- Rights an access needs (R378). -/
inductive Right where
  | r | w | x | rw
  deriving DecidableEq, Repr

def MafRule.grants (r : MafRule) : Right → Bool
  | .r => r.r
  | .w => r.w
  | .x => r.x
  | .rw => r.r && r.w

/-- The supervisor core's own block (R380). -/
def inMafBlock (pa : Nat) : Bool := 0x2000020000 ≤ pa && pa < 0x2000030000

/-- The rule of ACTIVE that matches, the lowest-numbered first (in a valid set at most one, R376). -/
def Maf.match? (m : Maf) (mid pa : Nat) : Option MafRule := (m.active.find? fun e => e.2.hits mid pa).map (·.2)

/-- The filter's verdict on one part (R373, R377 to R380). -/
def Bench.mafAllows (B : Bench) (mid pa : Nat) (need : Right) : Bool :=
  if paType pa = .unpopulated then false
  else if mid = midRake then true
  else if !B.rst.firstFetch then mid == midDmc
  else if inMafBlock pa && mid = midBsc && need ≠ .x then true
  else if inMafBlock pa && mid ≠ midBsc && (need = .w || need = .rw) then false
  else
    match B.maf.match? mid pa with
    | some r => r.grants need
    | none => false

/-- The rule that matches also grants TAGW to this master (R378, R379). -/
def Bench.mafTagw (B : Bench) (mid pa : Nat) : Bool :=
  (mid ≤ 0x10 || (0x26 ≤ mid && mid ≤ 0x29)) &&
    match B.maf.match? mid pa with
    | some r => r.tagw
    | none => false

/-- Records the ring holds (R394). -/
def Maf.ringSize (m : Maf) : Nat := 2 ^ (slice m.vring.toNat 27 24 + 7)
def Maf.ringBase (m : Maf) : Nat := 0x1000000000 + slice m.vring.toNat 23 12 * 4096

/-- The 32 bytes of a violation record (R392). -/
def violationRecord (time : BitVec 96) (origin : Word) (line mid kind : Nat) (unpop : Bool) (gen : Nat)
    (mask : Dword) : List Byte :=
  let addr := line * 64
  leBytes 12 time.toNat ++ leBytes 4 origin.toNat ++ leBytes 4 (addr % 2 ^ 32)
    ++ leBytes 4 (addr / 2 ^ 32 % 256 + mid % 256 * 2 ^ 8 + kind * 2 ^ 16 + (if unpop then 2 ^ 20 else 0) + gen % 16 * 2 ^ 21)
    ++ leBytes 8 mask.toNat

/-- The ring is full (R390). -/
def Maf.full (m : Maf) : Bool := (m.head.toNat + 1) % m.ringSize = m.tail.toNat % m.ringSize

/-- The address that the next record takes; none where it is lost (R390, R391). -/
def Maf.slot (m : Maf) : Option Nat :=
  if m.vlock && !m.full then some (m.ringBase + m.head.toNat % m.ringSize * 32) else none

/-- The record's bytes enter the ring, or it counts as lost (R390, R391). -/
def Bench.putRecord (B : Bench) (l : List Byte) : Bench :=
  let m := B.maf
  match m.slot with
  | none => { B with maf := { m with vlost := if m.vlost = 0xFFFFFFFF then m.vlost else m.vlost + 1 } }
  | some a =>
    let m := { m with head := BitVec.ofNat 15 ((m.head.toNat + 1) % m.ringSize) }
    let B := ({ B with maf := m, mem := (B.mem.write a l).clearTags a 32 }).raise 576
    if m.full then B.raise 577 else B

/-! ## Errors in memory (R407 to R411) -/

/-- MEM.UE.SRC of a master (R413). -/
def ueSource (mid : Nat) (walk : Bool) : Nat :=
  if walk then 3 else if mid ≤ 0x10 then 0 else if mid = midHost then 2 else if mid = midDmc then 6
  else if mid = 0xFF then 4 else 1

/-- Record an uncorrectable error in MEM.UE and MEM.UEADDR. -/
def MemErr.note (e : MemErr) (src mid line : Nat) : MemErr :=
  { e with ueCount := sat16 e.ueCount, ueSrc := BitVec.ofNat 4 src, ueMid := BitVec.ofNat 8 mid, ueLine := line }

/-- Steps 1 to 3 of R408: the line is poisoned, its tags clear, and the error is recorded. -/
def Bench.poisonLine (B : Bench) (mid : Nat) (walk : Bool) (line : Nat) : Bench :=
  let m := { B.mem with poison := setInsert B.mem.poison line, latent := B.mem.latent.filter (· ≠ line) }
  { B with mem := m.clearTags (line * 64) 64, memErr := B.memErr.note (ueSource mid walk) mid line }

/-- A damaged line of the tag store reads as clear, and is recorded (R411); `t` is address / 8192. -/
def Bench.tagDamage (B : Bench) (t : Nat) : Bench :=
  let m := { B.mem with tagLatent := B.mem.tagLatent.filter (· ≠ t) }
  { B with mem := m.clearTags (t * 8192) 8192, memErr := B.memErr.note 5 midRake (t * 128) }

/-- A corrected error counts, and reaching THRESH raises EV_MEM_CORRECTED (R407). -/
def Bench.countCorrected (B : Bench) : Bench :=
  let c := sat16 B.memErr.ceCount
  let was := B.memErr.ceCount
  let B := { B with memErr := { B.memErr with ceCount := c } }
  if c ≠ was && c = B.memErr.ceThresh then B.raise 897 else B

/-- A corrected error of a data line, and of a tag line (R407). -/
def Bench.correct (B : Bench) (line : Nat) : Bench :=
  ({ B with mem := { B.mem with weak := B.mem.weak.filter (· ≠ line) } }).countCorrected
def Bench.correctTag (B : Bench) (t : Nat) : Bench :=
  ({ B with mem := { B.mem with tagWeak := B.mem.tagWeak.filter (· ≠ t) } }).countCorrected

/-- A record of 32 bytes is written into half a line: the write reads the line, so its errors come to light with records of their own
(R408, R411), at most `fuel` of them. The writer is the master that the record names (DESIGN CHOICE, log 79). -/
def Bench.recordAt (mid : Nat) (org : Word) : Nat → Bench → List Byte → Bench
  | 0, B, l => B.putRecord l
  | n + 1, B, l =>
    match B.maf.slot with
    | none => B.putRecord l
    | some a =>
      let B := B.putRecord l
      let B := if B.mem.tagWeak.contains (a / 8192) then B.correctTag (a / 8192) else B
      let B := if B.mem.weak.contains (a / 64) then B.correct (a / 64) else B
      let B := if B.mem.tagLatent.contains (a / 8192) then
          (recordAt midRake 0 n (B.tagDamage (a / 8192)) (violationRecord B.time.value 0 (a / 8192 * 128) midRake 0x9 false 0 0)).raise 581
        else B
      if B.mem.latent.contains (a / 64) then
        (recordAt mid org n (B.poisonLine mid false (a / 64)) (violationRecord B.time.value org (a / 64) mid 0x8 false 0 0)).raise 896
      else B

/-- Write a violation record to the ring, or count it lost (R390 to R392). -/
def Bench.violation (B : Bench) (origin : Word) (line mid kind : Nat) (unpop : Bool) (gen : Nat) (mask : Dword) : Bench :=
  Bench.recordAt mid origin (B.mem.latent.length + B.mem.tagLatent.length + 1) B
    (violationRecord B.time.value origin line mid kind unpop gen mask)

/-- BYTEMASK of the bytes [a, a + n) within their 64-byte part. -/
def byteMask (a n : Nat) : Dword := BitVec.ofNat 64 ((2 ^ n - 1) * 2 ^ (a % 64))

/-- A denied part: the record of R382 under the set that judged it. -/
def Bench.denied (B : Bench) (mid : Nat) (origin : Word) (pa n kind : Nat) : Bench :=
  B.violation origin (pa / 64) mid kind (paType pa = .unpopulated) B.maf.gen.toNat (byteMask pa n)

end Sys2Proof.Machine
end

