-- ==== Sys2Proof/Machine/Sha2.lean ====
section
/-!
DEFINITION. Machine/Sha2.lean: the SHA-2 hash functions of FIPS 180-4 and HMAC of FIPS 198-1, which the spec names for digests,
the journal chain and key derivation (R6).
-/

namespace Sys2Proof.Machine

/-- The 80 round constants of SHA-512; those of SHA-256 are the upper halves of the first 64. -/
def sha512K1 : List Dword :=
  [0x428A2F98D728AE22, 0x7137449123EF65CD, 0xB5C0FBCFEC4D3B2F, 0xE9B5DBA58189DBBC,
   0x3956C25BF348B538, 0x59F111F1B605D019, 0x923F82A4AF194F9B, 0xAB1C5ED5DA6D8118,
   0xD807AA98A3030242, 0x12835B0145706FBE, 0x243185BE4EE4B28C, 0x550C7DC3D5FFB4E2,
   0x72BE5D74F27B896F, 0x80DEB1FE3B1696B1, 0x9BDC06A725C71235, 0xC19BF174CF692694,
   0xE49B69C19EF14AD2, 0xEFBE4786384F25E3, 0x0FC19DC68B8CD5B5, 0x240CA1CC77AC9C65,
   0x2DE92C6F592B0275, 0x4A7484AA6EA6E483, 0x5CB0A9DCBD41FBD4, 0x76F988DA831153B5,
   0x983E5152EE66DFAB, 0xA831C66D2DB43210, 0xB00327C898FB213F, 0xBF597FC7BEEF0EE4,
   0xC6E00BF33DA88FC2, 0xD5A79147930AA725, 0x06CA6351E003826F, 0x142929670A0E6E70,
   0x27B70A8546D22FFC, 0x2E1B21385C26C926, 0x4D2C6DFC5AC42AED, 0x53380D139D95B3DF,
   0x650A73548BAF63DE, 0x766A0ABB3C77B2A8, 0x81C2C92E47EDAEE6, 0x92722C851482353B]
def sha512K2 : List Dword :=
  [0xA2BFE8A14CF10364, 0xA81A664BBC423001, 0xC24B8B70D0F89791, 0xC76C51A30654BE30,
   0xD192E819D6EF5218, 0xD69906245565A910, 0xF40E35855771202A, 0x106AA07032BBD1B8,
   0x19A4C116B8D2D0C8, 0x1E376C085141AB53, 0x2748774CDF8EEB99, 0x34B0BCB5E19B48A8,
   0x391C0CB3C5C95A63, 0x4ED8AA4AE3418ACB, 0x5B9CCA4F7763E373, 0x682E6FF3D6B2B8A3,
   0x748F82EE5DEFB2FC, 0x78A5636F43172F60, 0x84C87814A1F0AB72, 0x8CC702081A6439EC,
   0x90BEFFFA23631E28, 0xA4506CEBDE82BDE9, 0xBEF9A3F7B2C67915, 0xC67178F2E372532B,
   0xCA273ECEEA26619C, 0xD186B8C721C0C207, 0xEADA7DD6CDE0EB1E, 0xF57D4F7FEE6ED178,
   0x06F067AA72176FBA, 0x0A637DC5A2C898A6, 0x113F9804BEF90DAE, 0x1B710B35131C471B,
   0x28DB77F523047D84, 0x32CAAB7B40C72493, 0x3C9EBE0A15C9BEBC, 0x431D67C49C100D4C,
   0x4CC5D4BECB3E42B6, 0x597F299CFC657E2A, 0x5FCB6FAB3AD6FAEC, 0x6C44198C4A475817]
def sha512K : List Dword := sha512K1 ++ sha512K2
def sha256K : List Word := (sha512K.take 64).map fun (k : Dword) => k.extractLsb' 32 32

def sha512IV : List Dword :=
  [0x6A09E667F3BCC908, 0xBB67AE8584CAA73B, 0x3C6EF372FE94F82B, 0xA54FF53A5F1D36F1,
   0x510E527FADE682D1, 0x9B05688C2B3E6C1F, 0x1F83D9ABFB41BD6B, 0x5BE0CD19137E2179]
def sha384IV : List Dword :=
  [0xCBBB9D5DC1059ED8, 0x629A292A367CD507, 0x9159015A3070DD17, 0x152FECD8F70E5939,
   0x67332667FFC00B31, 0x8EB44A8768581511, 0xDB0C2E0D64F98FA7, 0x47B5481DBEFA4FA4]
def sha256IV : List Word := sha512IV.map fun (k : Dword) => k.extractLsb' 32 32
def sha224IV : List Word := sha384IV.map fun (k : Dword) => k.extractLsb' 0 32

/-- The rotation amounts of one width: the two capital sigmas, then the two small ones, whose third amount is a shift. -/
structure ShaRot where
  a : Nat × Nat × Nat
  b : Nat × Nat × Nat
  c : Nat × Nat × Nat
  d : Nat × Nat × Nat

def sha256Rot : ShaRot := { a := (2, 13, 22), b := (6, 11, 25), c := (7, 18, 3), d := (17, 19, 10) }
def sha512Rot : ShaRot := { a := (28, 34, 39), b := (14, 18, 41), c := (1, 8, 7), d := (19, 61, 6) }

def shaBig {n : Nat} (r : Nat × Nat × Nat) (x : BitVec n) : BitVec n :=
  x.rotateRight r.1 ^^^ x.rotateRight r.2.1 ^^^ x.rotateRight r.2.2
def shaSmall {n : Nat} (r : Nat × Nat × Nat) (x : BitVec n) : BitVec n :=
  x.rotateRight r.1 ^^^ x.rotateRight r.2.1 ^^^ (x >>> r.2.2)

/-- One round on the eight working words and the window of sixteen schedule words. -/
def shaRound {n : Nat} (p : ShaRot) (s : List (BitVec n) × List (BitVec n)) (k : BitVec n) :
    List (BitVec n) × List (BitVec n) :=
  match s.1 with
  | [a, b, c, d, e, f, g, h] =>
    let w := s.2
    let t1 := h + shaBig p.b e + ((e &&& f) ^^^ (~~~e &&& g)) + k + w.headD 0
    let t2 := shaBig p.a a + ((a &&& b) ^^^ (a &&& c) ^^^ (b &&& c))
    let new := shaSmall p.d (w.getD 14 0) + w.getD 9 0 + shaSmall p.c (w.getD 1 0) + w.headD 0
    ([t1 + t2, a, b, c, d + t1, e, f, g], w.tail ++ [new])
  | _ => s

/-- Big-endian words of `m` bytes. -/
def beWords (n m : Nat) : Nat → List Byte → List (BitVec n)
  | 0, _ => []
  | k + 1, l => BitVec.ofNat n (beNat (l.take m)) :: beWords n m k (l.drop m)

/-- Compress the blocks of a padded message. -/
def shaBlocks {n : Nat} (p : ShaRot) (ks : List (BitVec n)) (m : Nat) : Nat → List (BitVec n) → List Byte → List (BitVec n)
  | 0, h, _ => h
  | k + 1, h, l =>
    let r := ks.foldl (shaRound p) (h, beWords n m 16 l)
    shaBlocks p ks m k (List.zipWith (· + ·) h r.1) (l.drop (16 * m))

/-- Padding to a multiple of `16 m` bytes with the length in bits in the last `2 m` bytes. -/
def shaPad (m : Nat) (l : List Byte) : List Byte :=
  let z := (16 * m - (l.length + 1 + 2 * m) % (16 * m)) % (16 * m)
  l ++ [0x80] ++ List.replicate z 0 ++ beBytes (2 * m) (8 * l.length)

def sha512With (iv : List Dword) (l : List Byte) : List Byte :=
  let p := shaPad 8 l
  (shaBlocks sha512Rot sha512K 8 (p.length / 128) iv p).flatMap fun w => beBytes 8 w.toNat
def sha256With (iv : List Word) (l : List Byte) : List Byte :=
  let p := shaPad 4 l
  (shaBlocks sha256Rot sha256K 4 (p.length / 64) iv p).flatMap fun w => beBytes 4 w.toNat

def sha224 (l : List Byte) : List Byte := (sha256With sha224IV l).take 28
def sha256 (l : List Byte) : List Byte := sha256With sha256IV l
def sha384 (l : List Byte) : List Byte := (sha512With sha384IV l).take 48
def sha512 (l : List Byte) : List Byte := sha512With sha512IV l

def xorBytes (a b : List Byte) : List Byte := List.zipWith (· ^^^ ·) a b
def padTo (n : Nat) (l : List Byte) : List Byte := l ++ List.replicate (n - l.length) 0

/-- HMAC over a hash with blocks of `m` bytes. -/
def hmac (h : List Byte → List Byte) (m : Nat) (key msg : List Byte) : List Byte :=
  let k := padTo m (if key.length > m then h key else key)
  h (k.map (· ^^^ 0x5C) ++ h (k.map (· ^^^ 0x36) ++ msg))

/-- The bytes of an ASCII string. -/
def ascii (s : String) : List Byte := s.toList.map fun c => BitVec.ofNat 8 c.toNat

end Sys2Proof.Machine
end

