-- ==== Sys2Proof/Machine/Aes.lean ====
section
/-!
DEFINITION. Machine/Aes.lean: AES of FIPS 197, and the constructions over a block cipher that the spec names: CBC, CTR, CMAC,
GCM, key wrap with padding (SP 800-38A, B, D, F) and the SP 800-108 counter KDF.
-/

namespace Sys2Proof.Machine

/-! ## The field GF(2^8) with x^8 + x^4 + x^3 + x + 1 -/

def xtime (b : Byte) : Byte := (b <<< 1) ^^^ (if b.getLsbD 7 then 0x1B else 0)

/-- Multiplication in GF(2^8). -/
def gmul (a b : Byte) : Byte :=
  ((List.range 8).foldl (fun (p : Byte × Byte) i => (xtime p.1, if b.getLsbD i then p.2 ^^^ p.1 else p.2)) (a, 0)).2

/-- The multiplicative inverse, 0 for 0: the power 254. -/
def ginv (a : Byte) : Byte :=
  let a2 := gmul a a
  let a3 := gmul a2 a
  let a12 := gmul (gmul a3 a3) (gmul a3 a3)
  let a14 := gmul a12 a2
  let a15 := gmul a12 a3
  let a240 := (List.range 4).foldl (fun x _ => gmul x x) a15
  gmul a240 a14

/-! ## AES -/

def aesSub (a : Byte) : Byte :=
  let x := ginv a
  x ^^^ x.rotateLeft 1 ^^^ x.rotateLeft 2 ^^^ x.rotateLeft 3 ^^^ x.rotateLeft 4 ^^^ 0x63

def aesInvSub (a : Byte) : Byte :=
  ginv (a.rotateLeft 1 ^^^ a.rotateLeft 3 ^^^ a.rotateLeft 6 ^^^ 0x05)

def sboxTable : Array Byte := ((List.range 256).map fun i => aesSub (BitVec.ofNat 8 i)).toArray
def invSboxTable : Array Byte := ((List.range 256).map fun i => aesInvSub (BitVec.ofNat 8 i)).toArray
def sbox (a : Byte) : Byte := sboxTable.getD a.toNat 0
def invSbox (a : Byte) : Byte := invSboxTable.getD a.toNat 0

/-- Expand the key words, the last first. -/
def aesExpand (nk : Nat) : Nat → Nat → Byte → List (List Byte) → List (List Byte)
  | 0, _, _, w => w
  | k + 1, i, rc, w =>
    let t := w.headD []
    let (t, rc) := if i % nk = 0 then
        (xorBytes ((t.drop 1 ++ t.take 1).map sbox) [rc, 0, 0, 0], xtime rc)
      else if nk > 6 && i % nk = 4 then (t.map sbox, rc)
      else (t, rc)
    aesExpand nk k (i + 1) rc (xorBytes (w.getD (nk - 1) []) t :: w)

def chunks (n : Nat) : Nat → List Byte → List (List Byte)
  | 0, _ => []
  | k + 1, l => l.take n :: chunks n k (l.drop n)

/-- The list cut into pieces of `n`, the last possibly shorter. -/
def blocksOf (n : Nat) (l : List Byte) : List (List Byte) := chunks n ((l.length + n - 1) / n) l

/-- The round keys, the first first. -/
def aesKeys (key : List Byte) : List (List Byte) :=
  let nk := key.length / 4
  let w := (blocksOf 4 key).reverse
  blocksOf 16 (aesExpand nk (4 * (nk + 7) - nk) nk 1 w).reverse.flatten

def shiftRows (s : List Byte) : List Byte := (List.range 16).map fun i => s.getD ((i % 4) + 4 * ((i / 4 + i % 4) % 4)) 0
def invShiftRows (s : List Byte) : List Byte := (List.range 16).map fun i => s.getD ((i % 4) + 4 * ((i / 4 + 4 - i % 4) % 4)) 0
/-- Multiply each column by the circulant matrix with first row `m`. -/
def mixWith (m : List Byte) (s : List Byte) : List Byte :=
  (List.range 16).map fun i =>
    (List.range 4).foldl (fun a j => a ^^^ gmul (m.getD ((j + 4 - i % 4) % 4) 0) (s.getD (i / 4 * 4 + j) 0)) 0
def mixColumns : List Byte → List Byte := mixWith [2, 3, 1, 1]
def invMixColumns : List Byte → List Byte := mixWith [14, 11, 13, 9]

def aesRounds : List (List Byte) → List Byte → List Byte
  | [], s => s
  | [k], s => xorBytes (shiftRows (s.map sbox)) k
  | k :: t, s => aesRounds t (xorBytes (mixColumns (shiftRows (s.map sbox))) k)

def aesInvRounds : List (List Byte) → List Byte → List Byte
  | [], s => s
  | [k], s => xorBytes ((invShiftRows s).map invSbox) k
  | k :: t, s => aesInvRounds t (invMixColumns (xorBytes ((invShiftRows s).map invSbox) k))

def aesEnc (key blk : List Byte) : List Byte :=
  match aesKeys key with
  | [] => blk
  | k :: t => aesRounds t (xorBytes (padTo 16 blk) k)
def aesDec (key blk : List Byte) : List Byte :=
  match (aesKeys key).reverse with
  | [] => blk
  | k :: t => aesInvRounds t (xorBytes (padTo 16 blk) k)

/-! ## Modes over a block function -/

def cbcEnc (e : List Byte → List Byte) : List Byte → List (List Byte) → List Byte
  | _, [] => []
  | iv, b :: t => let c := e (xorBytes b iv); c ++ cbcEnc e c t
def cbcDec (d : List Byte → List Byte) : List Byte → List (List Byte) → List Byte
  | _, [] => []
  | iv, c :: t => xorBytes (d c) iv ++ cbcDec d c t
/-- Add to a big-endian counter block. -/
def incBlock (n : Nat) (b : List Byte) : List Byte := beBytes n (beNat b + 1)
def ctrMode (e : List Byte → List Byte) (n : Nat) : List Byte → List (List Byte) → List Byte
  | _, [] => []
  | c, b :: t => xorBytes b (e c) ++ ctrMode e n (incBlock n c) t

/-- Doubling in CMAC's field. -/
def cmacDbl (n : Nat) (l : List Byte) : List Byte :=
  let v := beNat l * 2
  let r := if n = 16 then 0x87 else 0x1B
  beBytes n ((v % 2 ^ (8 * n)) ^^^ (if v ≥ 2 ^ (8 * n) then r else 0))

/-- CMAC with a block function of `n` bytes. -/
def cmac (e : List Byte → List Byte) (n : Nat) (msg : List Byte) : List Byte :=
  let k1 := cmacDbl n (e (List.replicate n 0))
  let k2 := cmacDbl n k1
  let bs := blocksOf n msg
  let init := bs.dropLast
  let last := bs.getLastD []
  let last := if last.length = n then xorBytes last k1 else xorBytes (padTo n (last ++ [0x80])) k2
  (init ++ [last]).foldl (fun x b => e (xorBytes x b)) (List.replicate n 0)

/-- Multiplication in GF(2^128) as GCM orders the bits, on big-endian numbers. -/
def ghashMul (x y : Nat) : Nat :=
  ((List.range 128).foldl (fun (p : Nat × Nat) i =>
    (if p.1 % 2 = 1 then p.1 / 2 ^^^ 0xE1000000000000000000000000000000 else p.1 / 2,
     if y.testBit (127 - i) then p.2 ^^^ p.1 else p.2)) (x, 0)).2
def ghash (h : Nat) (bs : List (List Byte)) : Nat :=
  bs.foldl (fun y b => ghashMul (y ^^^ beNat (padTo 16 b)) h) 0

/-- The GCM tag over additional data and ciphertext, 12-byte nonce. -/
def gcmTag (e : List Byte → List Byte) (nonce aad ct : List Byte) : List Byte :=
  let h := beNat (e (List.replicate 16 0))
  let s := ghash h (blocksOf 16 aad ++ blocksOf 16 ct ++ [beBytes 8 (8 * aad.length) ++ beBytes 8 (8 * ct.length)])
  xorBytes (beBytes 16 s) (e (nonce ++ [0, 0, 0, 1]))
/-- GCM's counter mode, whose counter is the last 32 bits. -/
def gcmCtr (e : List Byte → List Byte) (nonce : List Byte) : Nat → List (List Byte) → List Byte
  | _, [] => []
  | c, b :: t => xorBytes b (e (nonce ++ beBytes 4 c)) ++ gcmCtr e nonce (c + 1) t

/-! ## Key wrap with padding (SP 800-38F) -/

def kwStep (e : List Byte → List Byte) (t : Nat) (a r : List Byte) : List Byte × List Byte :=
  let b := e (a ++ r)
  (xorBytes (b.take 8) (beBytes 8 t), b.drop 8)
def kwPass (e : List Byte → List Byte) : Nat → List Byte → List (List Byte) → List Byte × List (List Byte)
  | _, a, [] => (a, [])
  | t, a, r :: rs =>
    let (a, r) := kwStep e t a r
    let (a, rs) := kwPass e (t + 1) a rs
    (a, r :: rs)
def kwWrap (e : List Byte → List Byte) (a : List Byte) (rs : List (List Byte)) : List Byte :=
  let r := (List.range 6).foldl (fun (p : List Byte × List (List Byte)) j => kwPass e (j * rs.length + 1) p.1 p.2) (a, rs)
  r.1 ++ r.2.flatten
def kwUnpass (d : List Byte → List Byte) : Nat → List Byte → List (List Byte) → List Byte × List (List Byte)
  | _, a, [] => (a, [])
  | t, a, r :: rs =>
    let b := d (xorBytes a (beBytes 8 t) ++ r)
    let (a, rs) := kwUnpass d (t - 1) (b.take 8) rs
    (a, b.drop 8 :: rs)
def kwUnwrap (d : List Byte → List Byte) (c : List Byte) : List Byte × List Byte :=
  let bs := blocksOf 8 c
  let rs := bs.tail
  let n := rs.length
  let r := (List.range 6).reverse.foldl (fun (p : List Byte × List (List Byte)) j =>
    let q := kwUnpass d ((j + 1) * n) p.1 p.2.reverse
    (q.1, q.2.reverse)) (bs.headD [], rs)
  (r.1, r.2.flatten)

/-- AES key wrap with padding. -/
def kwpWrap (key p : List Byte) : List Byte :=
  let aiv : List Byte := [0xA6, 0x59, 0x59, 0xA6] ++ beBytes 4 p.length
  let q := padTo ((p.length + 7) / 8 * 8) p
  if q.length ≤ 8 then aesEnc key (aiv ++ q) else kwWrap (aesEnc key) aiv (blocksOf 8 q)

/-- The plaintext of a wrapped value, none where its integrity check fails. -/
def kwpUnwrap (key c : List Byte) : Option (List Byte) :=
  let (a, q) := if c.length = 16 then let b := aesDec key c; (b.take 8, b.drop 8) else kwUnwrap (aesDec key) c
  let n := beNat (a.drop 4)
  if a.take 4 = [0xA6, 0x59, 0x59, 0xA6] && q.length < n + 8 && n ≤ q.length && (q.drop n).all (· = 0) then some (q.take n)
  else none

/-! ## SP 800-108 in counter mode -/

/-- The KDF's fixed input: label, a zero byte, context and the output length in bits. -/
def kdfInput (label context : List Byte) (bits : Nat) : List Byte := label ++ [0] ++ context ++ beBytes 4 bits

/-- `n` bytes from the PRF over a 32-bit counter and the fixed input. -/
def kdfCounter (prf : List Byte → List Byte) (input : List Byte) (n : Nat) : List Byte :=
  (((List.range (n + 1)).flatMap fun i => if i * (prf []).length < n then prf (beBytes 4 (i + 1) ++ input) else [])).take n

end Sys2Proof.Machine
end

