-- ==== Sys2Proof/Machine/Drbg.lean ====
section
/-!
DEFINITION. Machine/Drbg.lean: the DRBG of a bench: CTR_DRBG of SP 800-90A with AES-256 and the derivation function, its entropy
sources with their health tests, and the draws it serves (R505, R507 to R509).
-/

namespace Sys2Proof.Machine

/-! ## CTR_DRBG (SP 800-90A, 10.2.1 and 10.3) -/

/-- `n` blocks of the counter mode that follow V, with the value V then has. -/
def drbgBlocks (key : List Byte) : Nat → List Byte → List Byte × List Byte
  | 0, v => ([], v)
  | n + 1, v =>
    let v := incBlock 16 v
    let (l, w) := drbgBlocks key n v
    (aesEnc key v ++ l, w)

/-- CTR_DRBG_Update: Key and V from 48 bytes of provided data. -/
def drbgUpdate (data key v : List Byte) : List Byte × List Byte :=
  let t := xorBytes (drbgBlocks key 3 v).1 data
  (t.take 32, t.drop 32)

/-- BCC: a CBC-MAC from a zero chaining value. -/
def drbgBcc (key l : List Byte) : List Byte :=
  (blocksOf 16 l).foldl (fun c b => aesEnc key (xorBytes c b)) (List.replicate 16 0)

/-- `n` blocks of the derivation function's output. -/
def drbgDfOut (key : List Byte) : Nat → List Byte → List Byte
  | 0, _ => []
  | n + 1, x => let x := aesEnc key x; x ++ drbgDfOut key n x

/-- Block_Cipher_df: 48 bytes from an input string. -/
def drbgDf (input : List Byte) : List Byte :=
  let s := beBytes 4 input.length ++ beBytes 4 48 ++ input ++ [0x80]
  let s := padTo ((s.length + 15) / 16 * 16) s
  let k := (List.range 32).map fun i => BitVec.ofNat 8 i
  let t := [0, 1, 2].flatMap fun i => drbgBcc k (padTo 16 (beBytes 4 i) ++ s)
  drbgDfOut (t.take 32) 3 ((t.drop 32).take 16)

/-- Key and V given a new seed. -/
def Drbg.seed (d : Drbg) (key v material : List Byte) : Drbg :=
  let (k, v) := drbgUpdate (drbgDf material) key v
  { d with key := k, v := v }

/-- `n` bytes of output, and the state that the request leaves. -/
def Drbg.output (d : Drbg) (n : Nat) : List Byte × Drbg :=
  let (l, v) := drbgBlocks d.key ((n + 15) / 16) d.v
  let (k, v) := drbgUpdate (List.replicate 48 0) d.key v
  (l.take n, { d with key := k, v := v })

/-! ## The entropy sources (R508, R509) -/

/-- The repetition count test: no run of samples as long as the cutoff, 41. -/
def repetitionOk : Nat → Option Bool → List Bool → Bool
  | _, _, [] => true
  | run, last, s :: t =>
    let run := if last = some s then run + 1 else 1
    run < 41 && repetitionOk run (some s) t

/-- The adaptive proportion test on a window: its first sample occurs fewer times than the cutoff, 795. -/
def proportionOk (w : List Bool) : Bool := (w.filter fun s => some s = w.head?).length < 795

/-- A source passes both tests on the samples. -/
def samplesOk (l : List Bool) : Bool := repetitionOk 0 none l && proportionOk l

/-- 1,024 samples of a noise source: free values. -/
def drawSamples (B : Bench) : List Bool × Bench :=
  let (l, B) := drawBytes 128 B
  (l.flatMap fun b => (List.range 8).map fun i => b.getLsbD i, B)

/-- An entropy source fails a health test (R509). -/
def Bench.sourceFails (B : Bench) (second : Bool) : Bench :=
  let d := B.drbg
  if !(if second then d.src1 else d.src0) then B
  else
    let d := if second then { d with src1 := false } else { d with src0 := false }
    let d := { d with fails := if d.fails = 0xFF then d.fails else d.fails + 1 }
    if d.src0 || d.src1 then ({ B with drbg := d }).raise 816
    else (({ B with drbg := { d with error := true } }).raise 816).raise 817

/-- A source must pass both tests before it serves (R508). -/
def Bench.startSource (B : Bench) (second : Bool) : Bench :=
  let (l, B) := drawSamples B
  if samplesOk l then B else B.sourceFails second

/-! ## Seeding and draws -/

/-- The personalisation string: the device serial number and the bench number (R505). -/
def Bench.drbgPerson (B : Bench) : List Byte := Config.serial.take 16 ++ leBytes 1 B.ctl.id.val

/-- A reseed, with 384 bits of entropy input: what the sources give, conditioned, is free. -/
def Bench.drbgReseed (B : Bench) : Bench :=
  let (e, B) := drawBytes 48 B
  let d := B.drbg
  { B with drbg := { d.seed d.key d.v e with
    reseeds := d.reseeds + 1, requests := 0, since := B.time.elapsed, reseedDue := false } }

/-- Instantiation at bench release and after a forced reset of the unit (R505, R508): the sources pass their tests, and 384 bits of
entropy input and a nonce of 128 bits seed Key and V. -/
def Bench.drbgInstantiate (B : Bench) : Bench :=
  let B : Bench := { B with drbg := { B.drbg with
    src0 := true, src1 := true, error := false, inst := false, requests := 0, since := B.time.elapsed, reseedDue := false } }
  let B := (B.startSource false).startSource true
  if B.drbg.error then B
  else
    let (e, B) := drawBytes 64 B
    { B with drbg := { B.drbg.seed (List.replicate 32 0) (List.replicate 16 0) (e ++ B.drbgPerson) with inst := true } }

/-- The DRBG generates: it is instantiated and a source is in service. -/
def Drbg.live (d : Drbg) : Bool := d.inst && !d.error

/-- The reseed limit is reached (R505). -/
def Bench.drbgLimit (B : Bench) : Bool := 65536 ≤ B.drbg.requests || 1000000 ≤ B.time.elapsed - B.drbg.since

/-- A generate request of `n` bytes: none where the DRBG is not in service. A reseed that is due comes first (R505, R509). -/
def Bench.drbgDraw (B : Bench) (n : Nat) : Option (List Byte) × Bench :=
  if !B.drbg.live then (none, B)
  else
    let B := if B.drbg.reseedDue || B.drbgLimit then B.drbgReseed else B
    let (l, d) := B.drbg.output n
    (some l, { B with drbg := { d with requests := d.requests + 1 } })

/-- The reseed falls due (R505). -/
def Bench.drbgDue (B : Bench) : Bench :=
  if B.drbg.inst && B.drbgLimit then { B with drbg := { B.drbg with reseedDue := true } } else B

end Sys2Proof.Machine
end

