-- ==== Sys2Proof/Machine/Mem.lean ====
section
/-!
DEFINITION. Machine/Mem.lean: accesses to bench memory below translation: memory errors and poison (R407 to R411),
the access filter's judgement of each 64-byte part (R381 to R383), tags (R100 to R102) and the host window (R657,
R658).
-/

namespace Sys2Proof.Machine

/-- What the read of one part returns: bytes, the granule's tag, and whether the data is uncorrectable or poisoned. -/
structure Rd where
  bytes : List Byte
  tag : Bool
  bad : Bool
  deriving DecidableEq, Repr

def zeros (n : Nat) : List Byte := List.replicate n 0

/-! ## Errors -/

/-- Detection of an uncorrectable error in a line (R408). -/
def Bench.detect (B : Bench) (mid : Nat) (origin : Word) (walk : Bool) (line : Nat) : Bench :=
  ((B.poisonLine mid walk line).violation origin line mid 0x8 false 0 0).raise 896

/-- An uncorrectable error in a line of the tag store (R411); `t` is address / 8192. -/
def Bench.tagError (B : Bench) (t : Nat) : Bench :=
  ((B.tagDamage t).violation 0 (t * 128) midRake 0x9 false 0 0).raise 581

/-- The line at `pa` is checked as a read checks it: errors are corrected or detected; true where its data cannot be
used (R407, R408, R411). -/
def Bench.checkLine (B : Bench) (mid : Nat) (origin : Word) (walk : Bool) (pa : Nat) : Bool × Bench :=
  let line := pa / 64
  let B := if B.mem.tagWeak.contains (pa / 8192) then B.correctTag (pa / 8192) else B
  let B := if B.mem.tagLatent.contains (pa / 8192) then B.tagError (pa / 8192) else B
  let B := if B.mem.weak.contains line then B.correct line else B
  let B := if B.mem.latent.contains line then B.detect mid origin walk line else B
  (B.mem.poison.contains line, B)

/-- The bytes that a core has written in a poisoned line since it fetched it; poison clears when they are all 64 (R409). -/
def Mem.cover (m : Mem) (mid pa n : Nat) : Mem :=
  let line := pa / 64
  if !m.poison.contains line then m
  else if mid > 0x10 then { m with covers := m.covers.filter (·.line ≠ line) }
  else
    let old := ((m.covers.find? fun c => c.line = line && c.core = mid).map (·.mask)).getD 0
    let mask := old ||| byteMask pa n
    let rest := m.covers.filter (·.line ≠ line)
    if mask = 0xFFFFFFFFFFFFFFFF then { m with poison := m.poison.filter (· ≠ line), covers := rest }
    else { m with covers := { line := line, core := mid, mask := mask } :: rest }

/-- Write bytes of one line of Normal memory (R100, R408, R409). -/
def Bench.writeNormal (B : Bench) (mid : Nat) (origin : Word) (pa : Nat) (bytes : List Byte) : Bench :=
  let n := bytes.length
  let line := pa / 64
  if n = 64 && pa % 64 = 0 && mid > 0x10 then
    let m := { B.mem with
      poison := B.mem.poison.filter (· ≠ line), latent := B.mem.latent.filter (· ≠ line)
      weak := B.mem.weak.filter (· ≠ line), covers := B.mem.covers.filter (·.line ≠ line) }
    { B with mem := (m.write pa bytes).clearTags pa 64 }
  else
    let B := (B.checkLine mid origin false pa).2
    { B with mem := ((B.mem.write pa bytes).clearTags pa n).cover mid pa n }

/-! ## The host window -/

/-- Slice of the host window that an address lies in. -/
def hwinSlice (pa : Nat) : Nat := (pa - 0x3000000000) / 2 ^ 30
def Bench.hwinEn (B : Bench) (pa : Nat) : Bool := (B.hwin.get 0 (hwinSlice pa)).getLsbD 0
def Bench.hwinWr (B : Bench) (pa : Nat) : Bool := (B.hwin.get 0 (hwinSlice pa)).getLsbD 1
/-- The host address that a host-window address maps to (R658). -/
def Bench.hostAddr (B : Bench) (pa : Nat) : Nat :=
  ((B.hwin.get 0 (hwinSlice pa)).toNat >>> 30 <<< 30) + pa % 2 ^ 30

/-- A refused slice: as a denial of the filter with UNPOP set, and EV_HOSTWIN_ERR (R658). -/
def Bench.hwinRefused (B : Bench) (mid : Nat) (origin : Word) (pa n kind : Nat) : Bench :=
  (B.violation origin (pa / 64) mid kind true B.maf.gen.toNat (byteMask pa n)).raise 678

/-- Read through the host window: what host memory holds is open (R657, R658). -/
def Bench.hostRead (B : Bench) (mid : Nat) (origin : Word) (pa n kind : Nat) : List Byte × Bench :=
  if !B.hwinEn pa then (zeros n, B.hwinRefused mid origin pa n kind)
  else if !B.hostUp then (zeros n, B.raise 678)
  else drawBytes n B

/-- Write through the host window. -/
def Bench.hostWrite (B : Bench) (mid : Nat) (origin : Word) (pa : Nat) (bytes : List Byte) : Bench :=
  if !(B.hwinEn pa && B.hwinWr pa) then B.hwinRefused mid origin pa bytes.length 1
  else if !B.hostUp then B.raise 678
  else B.emit (.hostWrite (B.hostAddr pa) bytes)

/-! ## Parts -/

/-- Violation kinds (R393). -/
def kindRead : Nat := 0
def kindWrite : Nat := 1
def kindFetch : Nat := 2
def kindAtomic : Nat := 3
def kindWalk : Nat := 4
def kindCas : Nat := 5

/-- Read one part of at most 64 bytes (R381, R382). A register part read by anything but a naturally aligned 32-bit
load reads zero (R13); such loads go through the register map instead. -/
def Bench.readPart (B : Bench) (mid : Nat) (origin : Word) (pa n kind : Nat) (need : Right) : Rd × Bench :=
  if !B.mafAllows mid pa need then ({ bytes := zeros n, tag := false, bad := false }, B.denied mid origin pa n kind)
  else
    match paType pa with
    | .normal =>
      let (bad, B) := B.checkLine mid origin (kind = kindWalk) pa
      if bad then ({ bytes := zeros n, tag := false, bad := true }, B)
      else ({ bytes := B.mem.read pa n, tag := B.mem.tag (pa / 16), bad := false }, B)
    | .host =>
      let (v, B) := B.hostRead mid origin pa n kind
      ({ bytes := v, tag := false, bad := false }, B)
    | _ => ({ bytes := zeros n, tag := false, bad := false }, B)

/-- Write one part as data: the tags it touches are cleared (R100). -/
def Bench.writePart (B : Bench) (mid : Nat) (origin : Word) (pa : Nat) (bytes : List Byte) : Bench :=
  if !B.mafAllows mid pa .w then B.denied mid origin pa bytes.length kindWrite
  else
    match paType pa with
    | .normal => B.writeNormal mid origin pa bytes
    | .host => B.hostWrite mid origin pa bytes
    | _ => B

/-- Write a granule with its tag (R101, R102, R409). -/
def Bench.writeGranule (B : Bench) (mid : Nat) (origin : Word) (pa : Nat) (c : Cap) : Bench :=
  let bytes := leBytes 16 c.bits.toNat
  if !c.tag then B.writePart mid origin pa bytes
  else if !B.mafAllows mid pa .w then B.denied mid origin pa 16 kindWrite
  else if mid != midRake && !B.mafTagw mid pa then
    (B.writePart mid origin pa bytes).violation origin (pa / 64) mid 0x6 false B.maf.gen.toNat (byteMask pa 16)
  else
    match paType pa with
    | .normal =>
      let bad := (B.checkLine mid origin false pa).1
      let B := B.writeNormal mid origin pa bytes
      if bad then B else { B with mem := B.mem.setTag (pa / 16) }
    | _ => B.writePart mid origin pa bytes

/-- The capability that 16 bytes and a tag spell (R63). -/
def capOf (bytes : List Byte) (tag : Bool) : Cap := { tag := tag, bits := BitVec.ofNat 128 (leNat bytes) }

/-- The parts of [a, a + n), split at multiples of `unit`; `fuel` bounds their number. -/
def splitAt (unit : Nat) : Nat → Nat → Nat → List (Nat × Nat)
  | 0, _, _ => []
  | fuel + 1, a, n =>
    if n = 0 then []
    else
      let m := min n (unit - a % unit)
      (a, m) :: splitAt unit fuel (a + m) (n - m)

def splitLines (a n : Nat) : List (Nat × Nat) := splitAt 64 (n / 64 + 2) a n

/-- A unit's or DMA master's read: all bytes, and the offset of the first part whose data cannot be used (R410). -/
def Bench.unitRead (B : Bench) (mid : Nat) (origin : Word) (pa n : Nat) : (List Byte × Option Nat) × Bench :=
  (splitLines pa n).foldl (fun (acc : (List Byte × Option Nat) × Bench) p =>
    let (r, B) := acc.2.readPart mid origin p.1 p.2 kindRead .r
    let bad := if acc.1.2.isNone && r.bad then some acc.1.1.length else acc.1.2
    ((acc.1.1 ++ r.bytes, bad), B)) (([], none), B)

/-- A unit's or DMA master's write of data. -/
def Bench.unitWrite (B : Bench) (mid : Nat) (origin : Word) (pa : Nat) (bytes : List Byte) : Bench :=
  ((splitLines pa bytes.length).foldl (fun (acc : List Byte × Bench) p =>
    (acc.1.drop p.2, acc.2.writePart mid origin p.1 (acc.1.take p.2))) (bytes, B)).2

/-- The load filter of a sweep in progress (R109): a revoked value is returned untagged. -/
def Bench.filtered (B : Bench) (v : Cap) : Cap :=
  if B.rake.op = some .sweep && !B.rake.abort && B.rake.set.any (fun r => v.revokedBy r.1 r.2) then v.clearTag else v

end Sys2Proof.Machine
end

