-- ==== Sys2Proof/Machine/RegDef.lean ====
section
/-!
DEFINITION. Machine/RegDef.lean: the registers that only hold what software writes to them (R9 to R12, R43): their offsets in
the bench register space, their fields, the values each field accepts, and their reset values.
-/

namespace Sys2Proof.Machine

/-- A field: its lowest bit, its width and the values that are not reserved (R12). -/
structure RField where
  lo : Nat
  width : Nat
  min : Nat
  max : Nat

def fld (lo width : Nat) : RField := { lo := lo, width := width, min := 0, max := 2 ^ width - 1 }
def fldIn (lo width min max : Nat) : RField := { lo := lo, width := width, min := min, max := max }

/-- A register, or `count` of them `stride` bytes apart. -/
structure PlainReg where
  base : Nat
  stride : Nat := 4
  count : Nat := 1
  reset : Word := 0
  /-- Only POR and BOR reset it. -/
  por : Bool := false
  /-- The unit whose configuration register it is (R43), for the first of them, and the step to the next one's unit. -/
  unit : Option Nat := none
  ustep : Nat := 0
  fields : List RField

/-- A field's bits of a written value, or of the old one where the written value is reserved (R12). -/
def RField.merge (f : RField) (old v : Nat) : Nat :=
  let x := v / 2 ^ f.lo % 2 ^ f.width
  let x := if f.min ≤ x && x ≤ f.max then x else old / 2 ^ f.lo % 2 ^ f.width
  x * 2 ^ f.lo

/-- The value a register takes from a write. -/
def mergeFields (fs : List RField) (old v : Word) : Word :=
  BitVec.ofNat 32 ((fs.map fun f => f.merge old.toNat v.toNat).foldl (· + ·) 0)

/-- The registers of R611. -/
def jrnRegs : List PlainReg :=
  let j (base : Nat) (reset : Word) (fields : List RField) : PlainReg :=
    { base := base, reset := reset, por := true, unit := some 18, fields := fields }
  [j 0x300004 0 [fld 0 1, fld 1 3, fldIn 4 2 0 2, fldIn 6 2 0 2, fld 8 1, fld 9 1],
   j 0x300008 0 [fld 21 11],
   j 0x30000C 0 [fld 0 8, fldIn 8 4 0 12],
   j 0x300010 0 [fld 16 16],
   j 0x300014 0 [fld 0 8, fldIn 8 4 0 8],
   j 0x30001C 0x3E8 [fldIn 0 16 0 60000],
   j 0x300020 0x7D0 [fldIn 0 16 1 60000],
   j 0x300024 0x100 [fldIn 0 16 64 65535],
   j 0x300028 0 [fld 4 20],
   j 0x30002C 0 [fld 21 11],
   j 0x300030 0 [fld 0 4],
   j 0x300034 0 [fld 16 16],
   j 0x300038 0 [fld 0 4],
   j 0x30003C 0 [fld 0 1, fld 1 1, fld 2 8, fldIn 10 16 10 65535],
   j 0x300040 0 [fld 21 11],
   j 0x300044 0 [fld 0 8, fldIn 8 4 0 12],
   j 0x300048 0 [fld 0 8]]

/-- The registers of R612. -/
def timeRegs : List PlainReg :=
  let t (base : Nat) (reset : Word) (fields : List RField) : PlainReg :=
    { base := base, reset := reset, por := true, unit := some 19, fields := fields }
  [t 0x310010 0x10000 [fldIn 0 2 0 2, fldIn 2 2 0 2, fldIn 4 2 0 2, fld 6 2, fld 8 8, fld 16 1, fld 17 1, fldIn 18 2 0 2, fld 20 1],
   t 0x310014 0x80F88080 [fld 0 32],
   t 0x310018 0x3E8 [fld 0 32],
   t 0x31001C 0x3E8 [fld 0 16],
   t 0x310020 0 [fld 0 32],
   t 0x310024 0 [fld 0 32],
   t 0x310030 0 [fld 0 24, fld 24 1],
   t 0x310034 0x186A0 [fldIn 0 20 1 500000]]

/-- MSG.STALL of R520. -/
def msgRegs : List PlainReg :=
  [{ base := 0x200020, stride := 0x4000, count := 4, reset := 0x64, unit := some 14, ustep := 1, fields := [fldIn 0 16 1 65535] }]

/-- The registers of R651 that hold what software writes, and the peer table of R622. -/
def netRegs : List PlainReg :=
  let port (p : Nat) : List PlainReg :=
    let at' (o count : Nat) (reset : Word) (fields : List RField) : PlainReg :=
      { base := 0x400000 + 0x400 * p + o, count := count, reset := reset, unit := some (20 + p), fields := fields }
    [at' 0x00 1 0 [fld 0 3, fld 3 1, fldIn 4 2 0 2, fld 6 12, fld 18 1, fld 19 3], at' 0x04 1 0x5DC [fldIn 0 14 576 9000],
      at' 0x14 1 0 [fld 0 7, fld 7 1], at' 0x18 1 0 [fld 0 4, fld 4 4], at' 0x20 4 0 [fld 0 32], at' 0x40 16 0 [fld 0 32]]
  let peer (p w : Nat) (fields : List RField) : PlainReg :=
    { base := 0x404000 + 0x2000 * p + 4 * w, stride := 0x20, count := 256, unit := some (20 + p), fields := fields }
  let peers (p : Nat) : List PlainReg :=
    [peer p 0 [fld 0 32], peer p 1 [fld 0 16, fld 16 1, fld 17 2, fld 19 1, fld 20 1, fld 21 7], peer p 2 [fld 0 32], peer p 3 [fld 0 32],
      peer p 4 [fld 0 32], peer p 5 [fld 0 32], peer p 6 [fld 0 16, fld 16 16]]
  let queue (base o : Nat) (unit : Option Nat) (fields : List RField) : PlainReg :=
    { base := base + o, stride := 0x20, count := 128, unit := unit, ustep := 1, fields := fields }
  port 0 ++ port 1 ++ peers 0 ++ peers 1 ++
    [queue 0x401000 0x00 (some 288) [fld 5 27], queue 0x401000 0x04 (some 288) [fld 0 8, fldIn 8 4 0 9],
      queue 0x401000 0x08 (some 288) [fld 3 29], queue 0x401000 0x0C (some 288) [fld 0 8, fldIn 8 4 0 9, fldIn 12 4 0 6],
      queue 0x401000 0x14 none [fld 0 15], queue 0x401000 0x18 none [fld 0 15],
      queue 0x402000 0x00 (some 416) [fld 5 27], queue 0x402000 0x04 (some 416) [fld 0 8, fldIn 8 4 0 9],
      queue 0x402000 0x08 none [fld 0 15], queue 0x402000 0x10 (some 416) [fld 0 5]]

/-- TCP.TIMERS (R651), written only while both ports are DISABLED. -/
def tcpTimers : Nat := 0x403808

/-- The queue-pair registers of R666 that hold what software writes. -/
def hqRegs : List PlainReg :=
  let q (o : Nat) (unit : Option Nat) (fields : List RField) : PlainReg :=
    { base := 0x408000 + o, stride := 0x40, count := 256, unit := unit, ustep := 1, fields := fields }
  [q 0x00 (some 32) [fld 6 26], q 0x04 (some 32) [fld 0 8, fldIn 8 4 0 8], q 0x08 (some 32) [fld 0 32], q 0x0C (some 32) [fld 5 27],
    q 0x10 (some 32) [fld 0 8, fldIn 8 4 0 8], q 0x18 none [fld 0 12]]

def plainRegs : List PlainReg := jrnRegs ++ timeRegs ++ msgRegs ++ netRegs ++ hqRegs

/-- The register at an offset, with its place in its array. -/
def plainFind (off : Nat) : Option (PlainReg × Nat) :=
  plainRegs.findSome? fun r =>
    if r.base ≤ off && off < r.base + r.stride * r.count && (off - r.base) % r.stride = 0 then
      some (r, (off - r.base) / r.stride)
    else none

def Bench.reg (B : Bench) (off : Nat) : Word := B.regs.get 0 off
def Bench.setReg (B : Bench) (off : Nat) (v : Word) : Bench := { B with regs := B.regs.set 0 off v }

/-- The MID of who reads or writes a register (R371). -/
def Writer.mid : Writer → Nat
  | .core k => midCore k
  | .host => midHost
  | .dmc => midDmc

/-- State codes of BENCH.USTATE (R42). -/
def stDisabled : BitVec 4 := 0
def stQuiesced : BitVec 4 := 1
def stServing : BitVec 4 := 2
def stIsolated : BitVec 4 := 3

/-- EFFECTIVE of a unit is DISABLED (R43). -/
def Bench.configurable (B : Bench) (unit : Nat) : Bool := (B.ustate unit).effective = stDisabled
/-- REQUESTED and EFFECTIVE of a unit are both SERVING, and no force is resetting it. -/
def Bench.serving (B : Bench) (unit : Nat) : Bool :=
  let u := B.ustate unit
  u.requested = stServing && u.effective = stServing && !u.forcing

/-- EFFECTIVE of a unit is SERVING, so that it completes work in progress (R37, R46), and no force is resetting it. -/
def Bench.drains (B : Bench) (unit : Nat) : Bool := (B.ustate unit).effective = stServing && !(B.ustate unit).forcing

/-- An MSI-X message of the bench's function; one of vectors 256 to 259 waits while the link is down (R665). -/
def Bench.msix (B : Bench) (v : Nat) : Bench :=
  if B.hostUp then B.emit (.msix v)
  else if 256 ≤ v then { B with hq := { B.hq with msix := setInsert B.hq.msix v } } else B

/-- EFFECTIVE takes REQUESTED (R38, R49, R50): one change, EV_STATE_CHANGE, and DIVERGED clears. The host learns of a change
of the bench or of a queue pair (R665). -/
def Bench.changeState (B : Bench) (unit : Nat) : Bench :=
  let u := B.ustate unit
  let B := (B.setUState unit { u with effective := u.requested, changes := u.changes + 1, diverged := false, passed := false }).raise 830
  if unit = 0 then B.msix 258 else if 32 ≤ unit && unit < 288 then B.msix 256 else B

/-- A write of a plain register: configuration registers only while their unit is DISABLED (R43). -/
def Bench.plainWrite (B : Bench) (off : Nat) (v : Word) : Bench :=
  match plainFind off with
  | none => B
  | some (r, i) =>
    let ok := match r.unit with
      | none => true
      | some u => B.configurable (u + i * r.ustep)
    if ok then B.setReg off (mergeFields r.fields (B.reg off) v) else B

/-- The registers whose reset value is not zero, at that value; `all` with those that only POR and BOR reset. -/
def regResets (all : Bool) : Table Word :=
  ((plainRegs.filter fun r => r.reset ≠ 0 && (all || !r.por)).foldl (fun t r =>
    (List.range r.count).foldl (fun t i => Table.set 0 t (r.base + i * r.stride) r.reset) t) ([] : Table Word)).set 0 tcpTimers 0x853C00C8

/-- A register of the blocks that only POR and BOR reset: the journal's and the time unit's. -/
def porReg (off : Nat) : Bool := decide (0x300000 ≤ off) && decide (off < 0x320000)

/-- The plain registers after a reset; `all` for POR and BOR, which reset every one. -/
def plainReset (all : Bool) (old : Table Word) : Table Word :=
  if all then regResets true
  else (old.filter fun e => porReg e.1).foldl (fun t e => Table.set 0 t e.1 e.2) (regResets false)

/-- A field of a register's value. -/
def bitsOf (v : Word) (hi lo : Nat) : Nat := slice v.toNat hi lo

end Sys2Proof.Machine
end

