-- ==== Sys2Proof/Machine/Journal.lean ====
section
/-!
DEFINITION. Machine/Journal.lean: the journal unit: records and their chain, open items, admissions, software's appends,
checkpoints, release points and the host mirror (R573 to R602, R611).
-/

namespace Sys2Proof.Machine

/-- Bench time elapsed since power-on, in units of 1/256 ns. -/
def TimeState.count (t : TimeState) : Nat := t.elapsed * 256000 + t.part

/-! ## Rings, space and release points -/

def Bench.jrnSlots (B : Bench) : Nat := 16384 * 2 ^ bitsOf (B.reg 0x30000C) 11 8
def Bench.jrnBase (B : Bench) : Nat := (B.reg 0x300008).toNat + bitsOf (B.reg 0x30000C) 7 0 * 2 ^ 32
def Bench.sigEntries (B : Bench) : Nat := 2 ^ (bitsOf (B.reg 0x300014) 11 8 + 4)
def Bench.sigBase (B : Bench) : Nat := (B.reg 0x300010).toNat + bitsOf (B.reg 0x300014) 7 0 * 2 ^ 32
def Bench.hmode (B : Bench) : Nat := bitsOf (B.reg 0x300004) 5 4
def Bench.pmode (B : Bench) : Nat := bitsOf (B.reg 0x300004) 7 6
def Bench.swrelEn (B : Bench) : Bool := (B.reg 0x300004).getLsbD 8
def Bench.prxEn (B : Bench) : Bool := (B.reg 0x300004).getLsbD 9
def Bench.jrnRsv (B : Bench) : Nat := bitsOf (B.reg 0x300024) 15 0
/-- JRN.DEDUP.WINDOW in microseconds. -/
def Bench.dedupUs (B : Bench) : Nat := bitsOf (B.reg 0x30001C) 15 0 * 1000

def Item.zero : Item :=
  { state := .free, reqid := 0, queue := 0, path := 0, tenant := 0, seq := none, stamp := 0, result := 0, since := 0 }
def Bench.item (B : Bench) (i : Nat) : Item := B.jrn.items.get Item.zero i
def Bench.setItem (B : Bench) (i : Nat) (e : Item) : Bench :=
  { B with jrn := { B.jrn with items := B.jrn.items.set Item.zero i e } }
def Bench.openItems (B : Bench) : List (Nat × Item) := B.jrn.items.filter fun e => e.2.state = .opened
def Bench.openCount (B : Bench) : Nat := B.openItems.length

/-- JRN.RELSEQ (R592). -/
def Bench.relSeq (B : Bench) : Nat :=
  let j := B.jrn
  let m := j.nextSeq
  let m := if B.hmode ≠ 0 then min m j.hack else m
  let m := if B.pmode ≠ 0 then min m j.pack else m
  let m := if B.swrelEn then min m j.swrel else m
  B.openItems.foldl (fun m e => match e.2.seq with | some s => min m s | none => m) m

/-- JRN.DURSEQ (R599). -/
def Bench.durSeq (B : Bench) : Nat :=
  let j := B.jrn
  let m := j.nextSeq
  let m := if B.hmode = 2 then min m j.hack else m
  if B.pmode = 2 then min m j.pack else m

/-- Free ring space (R592). -/
def Bench.jrnFree (B : Bench) : Nat := B.jrnSlots - (B.jrn.nextSeq - B.relSeq)

/-! ## Writing records -/

def Journal.chainBytes (j : Journal) : List Byte := beBytes 48 j.chain.toNat

/-- The record body (R573). -/
def recordBody (seq : Nat) (reqid : BitVec 48) (type status : Byte) (origin tenant : Word) (tin tout : BitVec 96)
    (data : List Byte) : List Byte :=
  leBytes 8 seq ++ leBytes 6 reqid.toNat ++ [type, status] ++ leBytes 4 origin.toNat ++ leBytes 4 tenant.toNat
    ++ leBytes 12 tin.toNat ++ leBytes 12 tout.toNat ++ (padTo 32 data).take 32

/-- Accept and write one record (R582, R585, R591). -/
def Bench.jrnAppend (B : Bench) (reqid : BitVec 48) (type status : Byte) (origin tenant : Word) (tin : BitVec 96)
    (data : List Byte) : Bench :=
  let j := B.jrn
  let body := recordBody j.nextSeq reqid type status origin tenant tin B.time.value data
  let c := sha384 (j.chainBytes ++ body)
  let pa := B.jrnBase + j.nextSeq % B.jrnSlots * 128
  let B := { B with jrn := { j with
    chain := BitVec.ofNat 384 (beNat c), nextSeq := j.nextSeq + 1
    sinceCk := if type = 0x10 then j.sinceCk else j.sinceCk + 1 } }
  B.unitWrite midJournal 0 pa (body ++ c)

/-- The first held record is written if there is space (R593). -/
def Bench.jrnUnhold (B : Bench) : Bench :=
  match B.jrn.held with
  | [] => B
  | r :: t =>
    if B.jrn.genesis && B.openCount < B.jrnFree then
      ({ B with jrn := { B.jrn with held := t } }).jrnAppend 0 r.type r.status r.origin r.tenant r.tin r.data
    else B

/-- Held records are written while there is space (R593). -/
def Bench.jrnDrain (B : Bench) : Bench := B.jrn.held.foldl (fun B _ => B.jrnUnhold) B

/-- There is room for `n` system records: the unit's clock runs, and they find space in the ring or among the 16 that the unit holds
(R29, R593 item 2). -/
def Bench.jrnRoom (B : Bench) (n : Nat) : Bool :=
  n = 0 || (B.jrnRuns &&
    (if B.jrn.genesis && B.jrn.held.isEmpty then decide (B.openCount + n ≤ B.jrnFree + 16) else decide (B.jrn.held.length + n ≤ 16)))

/-- A system record is accepted: it is written, or held where there is no space (R593). -/
def Bench.jrnPut (B : Bench) (r : HeldRecord) : Bench :=
  ({ B with jrn := { B.jrn with held := B.jrn.held ++ [r] } }).jrnDrain

/-- A step of bench time to `new` (R607): TIME_STEP, STEPS and EV_TIME_STEP. -/
def Bench.timeStep (B : Bench) (new : TimeState) : Bench :=
  let before := B.time.value
  let B := { B with time := { new with steps := if new.steps = 0xFF then new.steps else new.steps + 1 } }
  (B.jrnPut { type := 0x12, status := 0, origin := 0, tenant := 0, tin := B.time.value, data := leBytes 12 before.toNat }).raise 690

/-- TIME.CFG.SRC. -/
def Bench.timeSrc (B : Bench) : Nat := bitsOf (B.reg 0x310010) 1 0

/-- The step of a write of TIME.SET (R607): under SRC 2 it sets SEC alone. -/
def Bench.timeSetStep (B : Bench) (x : BitVec 96) : Bench :=
  let t := { B.time with sec := x.extractLsb' 48 48, todValid := true }
  B.timeStep (if B.timeSrc = 2 then t else { t with ns := (x.extractLsb' 18 30).toNat, frac := x.extractLsb' 10 8, sub := 0 })

/-- The partner state becomes `s`: a MIRROR record and EV_JRN_MIRROR (R577, R598). -/
def Bench.partnerChange (B : Bench) (s : BitVec 2) (status : Byte) : Bench :=
  let B : Bench := { B with jrn := { B.jrn with partner := s, partnerDue := none } }
  let (tin, B) := drawBytes 12 B
  (B.jrnPut { type := 0x14, status := status, origin := 0, tenant := 0, tin := BitVec.ofNat 96 (leNat tin)
              data := leBytes 8 B.jrn.pack ++ zeros 24 }).raise 516

/-- The steps of TIME.SET and the change of the partner state that waited for a record's place are made (R593). -/
def Bench.jrnWaiters (B : Bench) : Bench :=
  let B := B.time.setDue.foldl (fun (B : Bench) _ =>
    match B.time.setDue with
    | [] => B
    | x :: t => if B.jrnRoom 1 then ({ B with time := { B.time with setDue := t } }).timeSetStep x else B) B
  match B.jrn.partnerDue with
  | some (s, status) => if B.jrnRoom 1 then B.partnerChange s status else B
  | none => B

/-- What follows a change of space: held records are written, what waited for a record goes on, and ADMIT_STOP follows the space
(R593, R613). -/
def Bench.jrnSettle (B : Bench) : Bench :=
  let B := B.jrnDrain.jrnWaiters
  let stop := decide (B.jrnFree ≤ B.openCount + B.jrnRsv)
  let was := B.jrn.admitStop
  let B := { B with jrn := { B.jrn with admitStop := stop } }
  if stop && !was then B.raise 514 else B

/-- A system record with a TIN that the spec does not state, a free value (R577, R593). -/
def Bench.jrnSystem (B : Bench) (type status : Byte) (origin tenant : Word) (data : List Byte) : Bench :=
  let (tin, B) := drawBytes 12 B
  (B.jrnPut { type := type, status := status, origin := origin, tenant := tenant, tin := BitVec.ofNat 96 (leNat tin), data := data }).jrnSettle

/-- DATA of a ceremony record (R577). -/
def ceremonyData (custodian share epoch check : Nat) (cv : List Byte) (mask : Nat) : List Byte :=
  [BitVec.ofNat 8 custodian, BitVec.ofNat 8 share, BitVec.ofNat 8 epoch, BitVec.ofNat 8 check] ++ (padTo 6 cv).take 6
    ++ leBytes 2 mask

/-- The ORIGIN of the bench supervisor core (R16). -/
def Bench.bscOrigin (B : Bench) : Word := B.origin bsc 7

/-! ## Genesis, and recovery after a reset -/

/-- START (R577). -/
def Bench.startRecord (B : Bench) (status : Byte) (failed : Nat) (last : Nat) (tin : List Byte) : HeldRecord :=
  { type := 0x11, status := status, origin := 0, tenant := 0, tin := BitVec.ofNat 96 (leNat tin)
    data := leBytes 1 (if B.rst.fromOff then 0 else B.rst.cause.toNat) ++ leBytes 1 B.rst.devCause.toNat ++ [0, 0] ++ leBytes 4 failed
      ++ leBytes 8 B.jrn.jid.toNat ++ leBytes 8 last }

/-- The status word of a TAMPER record that is due (R748). -/
def Bench.tamperDue (B : Bench) : Option Word := if B.jrn.tamperRec then none else B.jrn.tamper

/-- START, and TAMPER next after it where it is due (R602, R748), ahead of the records that are held. -/
def Bench.jrnStart (B : Bench) (status : Byte) (failed : Nat) (last : Nat) : Bench :=
  let (tin, B) := drawBytes 12 B
  let start := B.startRecord status failed last tin
  match B.tamperDue with
  | none => { B with jrn := { B.jrn with held := start :: B.jrn.held } }
  | some w =>
    let (tin, B) := drawBytes 12 B
    let r : HeldRecord := { type := 0x13, status := 0, origin := 0, tenant := 0, tin := BitVec.ofNat 96 (leNat tin), data := leBytes 4 w.toNat }
    { B with jrn := { B.jrn with held := start :: r :: B.jrn.held, tamperRec := true } }

/-- Genesis (R585), which draws the JOURNAL_ID from the DRBG (R505). -/
def Bench.jrnGenesis (B : Bench) : Bench :=
  if B.jrn.genesis then B
  else
    match B.drbgDraw 8 with
    | (none, B) => B
    | (some id, B) =>
      let c := sha384 (ascii "KX8112 JRN" ++ id ++ leBytes 4 B.ctl.place.toNat ++ leBytes 1 B.ctl.id.val)
      let B := { B with jrn := { B.jrn with
        genesis := true, recoverDue := false, jid := BitVec.ofNat 64 (leNat id), chain := BitVec.ofNat 384 (beNat c)
        nextSeq := 0, ckTime := B.time.count } }
      (B.jrnStart 0 0 (2 ^ 64 - 1)).jrnSettle

/-! ## Open items -/

/-- What a closing record reads from the item's RECEIVED record: TIN, DREQ, and whether the read failed (R581). -/
def Bench.jrnReceived (B : Bench) (e : Item) : (BitVec 96 × List Byte × Bool) × Bench :=
  match e.seq with
  | none =>
    let (l, B) := drawBytes 28 B
    ((BitVec.ofNat 96 (leNat (l.take 12)), l.drop 12, false), B)
  | some s =>
    let ((r, bad), B) := B.unitRead midJournal 0 (B.jrnBase + s % B.jrnSlots * 128) 128
    ((BitVec.ofNat 96 (leNat ((r.drop 24).take 12)), (r.drop 48).take 16, bad.isSome), B)

/-- Completion time in units of 4 ms of bench time (R578). -/
def TimeState.stamp (t : TimeState) : BitVec 14 := BitVec.ofNat 14 ((t.sec.toNat * 1000 + t.ns / 1000000) / 4)

/-- The entry of a closed item (R581). -/
def Bench.jrnDone (B : Bench) (i : Nat) (e : Item) (result : Word) : Bench :=
  if e.reqid = 0 || B.dedupUs = 0 then B.setItem i Item.zero
  else B.setItem i { e with state := .done, seq := none, stamp := B.time.stamp, result := result, since := B.time.elapsed }

/-- Software's or the unit's closing record for open item `i` (R575, R576, R581): COMPLETED or FAILED. -/
def Bench.jrnClose (B : Bench) (i : Nat) (completed : Bool) (status : Byte) (origin : Word) (drsp : List Byte) (result : Word)
    (byUnit : Bool) : Bench :=
  let e := B.item i
  let ((tin, dreq, bad), B) := B.jrnReceived e
  let status := if byUnit && bad then 0x03 else status
  let (tin, dreq, B) : BitVec 96 × List Byte × Bench :=
    if !bad then (tin, dreq, B)
    else if completed then (0, zeros 16, B)
    else
      let (l, B) := drawBytes 12 B
      (BitVec.ofNat 96 (leNat l), dreq, B)
  let data := (if completed then dreq else zeros 16) ++ drsp
  let B := B.jrnAppend e.reqid (if completed then 0x02 else 0x03) status origin e.tenant tin data
  (B.jrnDone i e result).jrnSettle

/-- FAILED(RESET) for every open item that `f` picks, in ascending order (R53, R601). -/
def Bench.jrnFailItems (B : Bench) (f : Item → Bool) : Bench :=
  (B.openItems.filter fun e => f e.2).foldl (fun B e => B.jrnClose e.1 false 0x01 0 (zeros 16) 0 true) B

/-- FAILED(RESET) for the open items of a forced unit (R53): a port by PATH, a queue by QUEUE. -/
def Bench.jrnFailUnit (B : Bench) (u : Nat) : Bench :=
  if u = 20 || u = 21 then B.jrnFailItems fun e => e.path.toNat = u - 19
  else if 32 ≤ u && u < 416 then B.jrnFailItems fun e => e.queue.toNat = u
  else B

/-- A DONE entry lies within the dedup window (R583). -/
def Bench.inWindow (B : Bench) (e : Item) : Bool := B.time.elapsed - e.since < B.dedupUs

/-- The entries whose window has passed are freed (R584). -/
def Bench.jrnSweep (B : Bench) : Bench :=
  { B with jrn := { B.jrn with items := B.jrn.items.filter fun e => e.2.state = .opened || B.inWindow e.2 } }

/-- The lowest number that a rising list does not hold. -/
def firstGap : Nat → List Nat → Nat
  | n, [] => n
  | n, k :: t => if n = k then firstGap (n + 1) t else n

/-- The outcome of an admission (R579, R583). -/
inductive AdmitResult where
  /-- Refused, with the REASON of R641: 1 not SERVING, 2 no free entry, 3 ring space, 4 time quality. -/
  | refused (reason : Nat)
  | waiting
  deriving DecidableEq, Repr

/-- An admission is granted, and waits for its digest. -/
def Bench.jrnWait (B : Bench) (a : Admission) : Bench := { B with jrn := { B.jrn with waiting := B.jrn.waiting ++ [a] } }

/-- Put a job in the unit queue of unit `u` (R464). -/
def Bench.unitSubmit (B : Bench) (u : Nat) (j : UnitJob) : Bench :=
  let i : Fin 18 := Fin.ofNat 18 u
  let e := B.engs[i]
  { B with engs := B.engs.set i { e with unitQ := e.unitQ ++ [j] } }

/-- The lowest-numbered unit of a family that serves, or its first (log 32). -/
def Bench.servingUnit (B : Bench) (us : List Nat) : Nat := (us.find? fun u => B.serving u).getD (us.headD 0)

/-- The digest of an admission is asked of an HSE through its unit queue (R580). -/
def Bench.jrnDigest (B : Bench) (r : Request) : Bench := B.unitSubmit (B.servingUnit [11, 12]) (.digest r.token r.addr r.len)

/-- A request asks for an entry (R579, R583): a retransmission needs none. -/
def Bench.jrnAdmit (B : Bench) (r : Request) : AdmitResult × Bench :=
  let refuse (reason : Nat) (B : Bench) : AdmitResult × Bench :=
    (.refused reason, { B with jrn := { B.jrn with lostRefused := sat16 B.jrn.lostRefused } })
  if !B.serving 18 || B.jrn.recovering || !B.jrn.genesis then refuse 1 B
  else
    let B := B.jrnSweep
    match B.jrn.items.find? fun e => r.reqid ≠ 0 && e.2.reqid = r.reqid && e.2.tenant = r.tenant with
    | some (i, e) => (.waiting, (B.jrnWait { req := r, item := i, dup := some e, digest := none }).jrnDigest r)
    | none =>
      let i := firstGap 0 (B.jrn.items.map (·.1))
      let ctrl := B.reg 0x300004
      if 262144 ≤ i then refuse 2 B
      else if B.jrnFree ≤ B.openCount + B.jrnRsv then refuse 3 B
      else if ctrl.getLsbD 0 && bitsOf ctrl 3 1 < B.time.quality.toNat then refuse 4 B
      else
        let e : Item := { state := .opened, reqid := r.reqid, queue := BitVec.ofNat 10 r.queue, path := r.path, tenant := r.tenant,
                          seq := none, stamp := 0, result := 0, since := B.time.elapsed }
        let B := (B.setItem i e).jrnWait { req := r, item := i, dup := none, digest := none }
        (.waiting, (B.jrnDigest r).jrnSettle)

/-- The digest job of an admission has ended: its digest, none where the job did not end OK (R580). -/
def Bench.jrnDigested (B : Bench) (token : Nat) (d : Option (List Byte)) : Bench :=
  { B with jrn := { B.jrn with waiting := B.jrn.waiting.map fun a =>
      if a.req.token = token && a.digest.isNone then { a with digest := some d } else a } }

/-- A request is handed to its admitting unit. -/
def Bench.jrnDeliver (B : Bench) (d : Delivery) : Bench := { B with jrn := { B.jrn with deliveries := B.jrn.deliveries ++ [d] } }

/-- The first admission whose digest is complete: RECEIVED or DUPLICATE is written, once the ring has space for it beside the closing
records of the open items (R592, R593), and the request is delivered (R580, R583). -/
def Bench.jrnReceive (B : Bench) : Bench :=
  match B.jrn.waiting.find? fun a => a.digest.isSome with
  | none => B
  | some a =>
    let r := a.req
    let drop (B : Bench) : Bench := { B with jrn := { B.jrn with waiting := B.jrn.waiting.filter fun w => w.req.token ≠ r.token } }
    let d := a.digest.getD none
    let dreq := d.getD (zeros 16)
    let s := B.jrn.nextSeq
    match a.dup with
    | none =>
      let e := B.item a.item
      if e.state ≠ .opened then (drop B).jrnDeliver ⟨r, a.item, .closed, 0⟩
      else if B.jrnFree ≤ B.openCount then B
      else
        let B := (drop B).jrnAppend r.reqid 0x01 (BitVec.ofNat 8 (r.path.toNat + (if d.isNone then 128 else 0))) 0 r.tenant r.tin (dreq ++ zeros 16)
        ((B.setItem a.item { e with seq := some s }).jrnDeliver ⟨r, a.item, .serve, s⟩).jrnSettle
    | some e =>
      if B.jrnFree ≤ B.openCount then B
      else
        let done := decide (e.state = .done)
        let drsp := if done then leBytes 4 e.result.toNat ++ leBytes 2 e.stamp.toNat ++ zeros 10 else zeros 16
        let B := (drop B).jrnAppend r.reqid 0x07 (if done then 0 else 1) 0 r.tenant r.tin (dreq ++ drsp)
        (B.jrnDeliver ⟨r, a.item, if done then .done e.result else .still, s⟩).jrnSettle

/-- An item has been open for JRN.ITEMTO (R581). -/
def Bench.jrnTimeout (B : Bench) (i : Nat) : Bench :=
  let e := B.item i
  if e.state = .opened && bitsOf (B.reg 0x300020) 15 0 * 1000 ≤ B.time.elapsed - e.since then
    (B.jrnClose i false 0x02 0 (zeros 16) 0 true).raise 518
  else B

/-- The work of recovery (R601, R602). It waits while START, or a TAMPER that follows it, would find no place (R593). -/
def Bench.jrnRecover (B : Bench) : Bench :=
  if !B.jrn.recovering || !B.jrnRoom (if B.tamperDue.isSome then 2 else 1) then B
  else
    let opened := B.openItems
    let B : Bench := B.jrnFailItems fun _ => true
    -- an item that failed with RESET runs anew (R602), so its entry is free
    let B : Bench := opened.foldl (fun B e => B.setItem e.1 Item.zero) B
    let B : Bench := { B with jrn := { B.jrn with
      items := B.jrn.items.map fun e => (e.1, { e.2 with stamp := B.time.stamp, since := B.time.elapsed }) } }
    let B := B.jrnStart 1 opened.length (if B.jrn.resetSeq = 0 then 2 ^ 64 - 1 else B.jrn.resetSeq - 1)
    let B := { B with jrn := { B.jrn with recovering := false, recoverDue := false } }
    let u := B.ustate 18
    (if u.requested ≠ u.effective then (B.raise 517).changeState 18 else B.raise 517).jrnSettle

/-! ## Software's appends (R215, R575, R593) -/

/-- The granules that a software type takes (R574). -/
def jrnGranules (type : Nat) : Option Nat :=
  if type = 0x02 || type = 0x05 || type = 0x06 then some 2 else if type = 0x03 then some 1 else none

/-- JAPP: its status, and what it does (R215). -/
def Bench.jrnSoft (B : Bench) (staged : List (List Byte)) (pushes item type : Nat) (origin : Word) : Nat × Bench :=
  if (B.ustate 18).effective = stDisabled then (4, B)
  else
    match jrnGranules type with
    | none => (2, B)
    | some n =>
      if pushes ≠ n then (3, B)
      else
        let e := B.item item
        let g0 := staged.headD (zeros 16)
        let g1 := staged.getD 1 (zeros 16)
        if e.state ≠ .opened then (1, B)
        else if type = 0x02 then
          (0, B.jrnClose item true (g1.headD 0) origin g0 (BitVec.ofNat 32 (leNat ((g1.drop 4).take 4))) false)
        else if type = 0x03 then
          let st := (g0.headD 0).toNat
          (0, B.jrnClose item false (BitVec.ofNat 8 (max st 0x10)) origin (zeros 16) 0 false)
        else if B.jrnFree - 1 ≤ B.openCount + B.jrnRsv then
          (0, ({ B with jrn := { B.jrn with lostNote := sat16 B.jrn.lostNote } }).raise 515)
        else
          let ((tin, _, bad), B) := B.jrnReceived e
          let (l, B) := if bad then drawBytes 12 B else (leBytes 12 tin.toNat, B)
          (0, (B.jrnAppend e.reqid (BitVec.ofNat 8 type) 0 origin e.tenant (BitVec.ofNat 96 (leNat l)) (g0 ++ g1)).jrnSettle)

/-! ## Checkpoints -/

/-- A CHECKPOINT is due (R587). -/
def Bench.ckDue (B : Bench) : Bool :=
  let j := B.jrn
  j.genesis && !j.recoverDue && !j.recovering && j.sinceCk > 0 && (4096 ≤ j.sinceCk || 2560000000 ≤ B.time.count - j.ckTime)

/-- The handles at JRN.CKKEYS (R588). -/
def Bench.ckHandle (B : Bench) (i : Nat) : Cap × Bench :=
  let pa := 0x1000000000 + bitsOf (B.reg 0x300028) 23 4 * 16 + 16 * i
  let (r, B) := B.readPart midJournal 0 pa 16 kindRead .r
  (if r.bad then Cap.null else capOf r.bytes r.tag, B)

/-- CHECKPOINT (R587 to R590, R593): the record, and its two signature jobs. -/
def Bench.jrnCheckpoint (B : Bench) : Bench :=
  if !B.ckDue || B.jrnFree ≤ B.openCount then B
  else
    let k := B.jrn.ckNum % B.sigEntries
    let busy := B.jrn.cks.any (fun c => c.k = k) || B.jrn.sigSeq.any fun e => e.1 = k && B.relSeq ≤ e.2
    if busy then
      if B.jrn.sigDelayed then B else ({ B with jrn := { B.jrn with sigDelayed := true } }).raise 519
    else
      let j := B.jrn
      let s := j.nextSeq
      let data := leBytes 8 (j.lastCk.getD (2 ^ 64 - 1)) ++ leBytes 4 k ++ leBytes 4 j.sinceCk ++ leBytes 8 j.jid.toNat
      let (tin, B) := drawBytes 12 B
      let body := recordBody s 0 0x10 0 0 0 (BitVec.ofNat 96 (leNat tin)) B.time.value data
      let B := B.jrnAppend 0 0x10 0 0 0 (BitVec.ofNat 96 (leNat tin)) data
      let rec' := body ++ B.jrn.chainBytes
      let B := { B with jrn := { B.jrn with
        sinceCk := 0, lastCk := some s, ckTime := B.time.count, ckNum := B.jrn.ckNum + 1, sigDelayed := false
        ckCount := if B.jrn.ckCount = 0xFFFFFFFF then B.jrn.ckCount else B.jrn.ckCount + 1
        cks := B.jrn.cks ++ [(⟨k, s, rec', none, none⟩ : Checkpoint)] } }
      let (h0, B) := B.ckHandle 0
      let (h1, B) := B.ckHandle 1
      ((B.unitSubmit (B.servingUnit [1, 2, 3, 4]) (.checkpoint false s h0 rec')).unitSubmit (B.servingUnit [5, 6]) (.checkpoint true s h1 rec')).jrnSettle

/-- A signature job's completion comes back (R589). -/
def Bench.ckSigned (B : Bench) (mldsa : Bool) (seq : Nat) (r : SigResult) : Bench :=
  { B with jrn := { B.jrn with cks := B.jrn.cks.map fun c =>
      if c.seq ≠ seq then c else if mldsa then { c with mldsa := some r } else { c with ecdsa := some r } } }

/-- A signature entry (R589). -/
def sigEntry (c : Checkpoint) (e m : SigResult) : List Byte :=
  let ok (r : SigResult) : Bool := r.status = 0
  let sig (r : SigResult) (n : Nat) : List Byte := if ok r then (padTo n r.sig).take n else zeros n
  let b := leBytes 2 1 ++ [(if ok e then 1 else 0) + (if ok m then 2 else 0), 0] ++ leBytes 4 c.k
    ++ [e.status, e.detail, m.status, m.detail] ++ zeros 4 ++ c.record ++ sig e 96 ++ sig m 3309
  padTo 4096 (padTo 3552 b ++ (padTo 8 e.keyid).take 8 ++ (padTo 8 m.keyid).take 8)

/-- The first checkpoint with both signature jobs complete has its entry written (R589). -/
def Bench.jrnSigEntry (B : Bench) : Bench :=
  match B.jrn.cks.find? fun c => c.ecdsa.isSome && c.mldsa.isSome with
  | none => B
  | some c =>
    match c.ecdsa, c.mldsa with
    | some e, some m =>
      let B := B.unitWrite midJournal 0 (B.sigBase + c.k * 4096) (sigEntry c e m)
      let B := { B with jrn := { B.jrn with
        cks := B.jrn.cks.filter fun d => d.seq ≠ c.seq
        sigSeq := (c.k, c.seq) :: B.jrn.sigSeq.filter fun p => p.1 ≠ c.k
        mirrorSigs := if B.hmode ≠ 0 then B.jrn.mirrorSigs ++ [c.k] else B.jrn.mirrorSigs
        sendSigs := if B.pmode ≠ 0 && (B.reg 0x30003C).getLsbD 1 then B.jrn.sendSigs ++ [c.k] else B.jrn.sendSigs } }
      let B := B.raise 512
      if e.status = 0 && m.status = 0 then B else B.raise 513
    | _, _ => B

/-! ## The host mirror (R595) -/

def Bench.hrecBase (B : Bench) : Nat := 0x3000000000 + (B.reg 0x30002C).toNat + bitsOf (B.reg 0x300030) 3 0 * 2 ^ 32
def Bench.hsigBase (B : Bench) : Nat := 0x3000000000 + (B.reg 0x300034).toNat + bitsOf (B.reg 0x300038) 3 0 * 2 ^ 32

/-- The next record, or else the next signature entry, is copied into host memory. True where one was. -/
def Bench.jrnMirror (B : Bench) : Bool × Bench :=
  if B.hmode = 0 || !B.hostUp then (false, B)
  else if B.jrn.mirrorSeq < B.jrn.nextSeq then
    let o := B.jrn.mirrorSeq % B.jrnSlots * 128
    let ((l, _), B) := B.unitRead midJournal 0 (B.jrnBase + o) 128
    let B := B.unitWrite midJournal 0 (B.hrecBase + o) l
    (true, { B with jrn := { B.jrn with mirrorSeq := B.jrn.mirrorSeq + 1 } })
  else
    match B.jrn.mirrorSigs with
    | [] => (false, B)
    | k :: t =>
      let ((l, _), B) := B.unitRead midJournal 0 (B.sigBase + k * 4096) 4096
      let B := B.unitWrite midJournal 0 (B.hsigBase + k * 4096) l
      (true, { B with jrn := { B.jrn with mirrorSigs := t } })

/-! ## Registers (R594, R611) -/

/-- The value of the 64-bit register pair whose _LO half is at `off`. -/
def Bench.jrnPair (B : Bench) (off : Nat) : Nat :=
  if off = 0x300050 then B.jrn.nextSeq
  else if off = 0x300058 then B.relSeq
  else if off = 0x300060 then B.durSeq
  else if off = 0x300068 then B.jrn.swrel
  else if off = 0x300070 then B.jrn.hack
  else if off = 0x300078 then B.jrn.pack
  else if off = 0x300080 then B.jrn.prxSeq
  else if off = 0x300088 then B.jrn.jid.toNat
  else 0

def Bench.jrnStat (B : Bench) : Word :=
  BitVec.ofNat 32 (B.openCount + (if B.jrn.recovering then 2 ^ 19 else 0) + (if B.jrn.held.isEmpty then 0 else 2 ^ 20)
    + (if B.jrn.admitStop then 2 ^ 21 else 0))

def Bench.jrnRead (B : Bench) (off : Nat) : Word × Bench :=
  if off = 0x300000 then (B.jrnStat, B)
  else if 0x300050 ≤ off && off < 0x300090 then
    if off % 8 = 0 then
      let v := B.jrnPair off
      (BitVec.ofNat 32 v, { B with jrn := { B.jrn with latch := B.jrn.latch.set 0 off (BitVec.ofNat 32 (v / 2 ^ 32)) } })
    else (B.jrn.latch.get 0 (off - 4), B)
  else if off = 0x300090 then (B.jrn.ckCount, B)
  else if off = 0x300094 then (B.jrn.lostNote ++ B.jrn.lostRefused, B)
  else if off = 0x300098 then (B.jrn.dropped ++ B.jrn.partner.zeroExtend 16, B)
  else if 0x300100 ≤ off && off < 0x300130 then
    (BitVec.ofNat 32 (leNat ((B.jrn.chainBytes.drop (off - 0x300100)).take 4)), B)
  else (B.reg off, B)

/-- The _LO registers whose writes take effect with the next write of their _HI partners (R594). -/
def jrnLo : List Nat := [0x300008, 0x300010, 0x30002C, 0x300034, 0x300040, 0x300068, 0x300070]

/-- A write of a release point, the host's or the firmware's (R594). -/
def Bench.jrnRelease (B : Bench) (host : Bool) (v : Nat) : Bench :=
  let old := if host then B.jrn.hack else B.jrn.swrel
  if v < old || B.jrn.nextSeq < v then B
  else (if host then { B with jrn := { B.jrn with hack := v } } else { B with jrn := { B.jrn with swrel := v } }).jrnSettle

/-- A write of JRN.CTRL: the partner state follows PMODE, and PRX_EN starts a new adoption (R597, R598). -/
def Bench.jrnCtrl (B : Bench) (v : Word) : Bench :=
  let was := B.prxEn
  let B := B.plainWrite 0x300004 v
  let B : Bench := { B with jrn := { B.jrn with
    partner := if B.pmode = 0 then 0 else if B.jrn.partner = 0 then 1 else B.jrn.partner
    partnerDue := if B.pmode = 0 then none else B.jrn.partnerDue } }
  (if !was && B.prxEn then { B with jrn := { B.jrn with prxJid := none, prxChain := none } } else B).jrnSettle

/-- The write of a register whose effect is at once: a _HI half brings the _LO half that waits for it, or else keeps the one in
force. -/
def Bench.jrnWriteHi (B : Bench) (off : Nat) (v : Word) : Bench :=
  let lo := B.jrn.loDue.lookup (off - 4)
  let B : Bench := { B with jrn := { B.jrn with loDue := B.jrn.loDue.filter fun e => e.1 ≠ off - 4 } }
  if off = 0x30006C || off = 0x300074 then
    let host := decide (off = 0x300074)
    let old := (if host then B.jrn.hack else B.jrn.swrel) % 2 ^ 32
    B.jrnRelease host ((lo.map (·.toNat)).getD old + v.toNat * 2 ^ 32)
  else
    (match lo with | some w => B.plainWrite (off - 4) w | none => B).plainWrite off v

def Bench.jrnWrite (B : Bench) (off : Nat) (v : Word) : Bench :=
  if jrnLo.contains off then
    if off < 0x300050 && !B.configurable 18 then B
    else { B with jrn := { B.jrn with loDue := (off, v) :: B.jrn.loDue.filter fun e => e.1 ≠ off } }
  else if jrnLo.contains (off - 4) then B.jrnWriteHi off v
  else if off = 0x300094 then
    { B with jrn := { B.jrn with lostRefused := v.extractLsb' 0 16, lostNote := v.extractLsb' 16 16 } }
  else if off = 0x300004 then B.jrnCtrl v
  else
    let B := B.plainWrite off v
    if off = 0x300024 then B.jrnSettle else B

end Sys2Proof.Machine
end

