-- ==== Sys2Proof/Machine/Net.lean ====
section
/-!
DEFINITION. Machine/Net.lean: frames and packets (R617 to R622): checksums, Ethernet, ARP, IPv4, IPv6, ICMP and UDP, and
what a port sends.
-/

namespace Sys2Proof.Machine

/-! ## Ports and their registers -/

def portBase (p : Bool) : Nat := if p then 0x400400 else 0x400000
def portUnit (p : Bool) : Nat := if p then 21 else 20
def portNo (p : Bool) : Nat := if p then 1 else 0
def Bench.port (B : Bench) (p : Bool) : Port := if p then B.net.port1 else B.net.port0
def Bench.setPort (B : Bench) (p : Bool) (v : Port) : Bench :=
  { B with net := if p then { B.net with port1 := v } else { B.net with port0 := v } }
def Bench.modPort (B : Bench) (p : Bool) (f : Port → Port) : Bench := B.setPort p (f (B.port p))
def sat32 (w : Word) : Word := if w = 0xFFFFFFFF then w else w + 1

/-- A frame is discarded and counted (R619, R620). -/
def Bench.portDrop (B : Bench) (p : Bool) : Bench := B.modPort p fun v => { v with drop := sat32 v.drop }
def Bench.mtu (B : Bench) (p : Bool) : Nat := bitsOf (B.reg (portBase p + 4)) 13 0
/-- Local IPv4 address `k`, and IPv6 address `k`, of a port, where enabled (R620). -/
def Bench.ip4 (B : Bench) (p : Bool) (k : Nat) : List Byte := leBytes 4 (B.reg (portBase p + 0x20 + 4 * k)).toNat
def Bench.ip6 (B : Bench) (p : Bool) (k : Nat) : List Byte :=
  (List.range 4).flatMap fun w => leBytes 4 (B.reg (portBase p + 0x40 + 16 * k + 4 * w)).toNat
def Bench.ipEnabled (B : Bench) (p v6 : Bool) (k : Nat) : Bool := (B.reg (portBase p + 0x18)).getLsbD (if v6 then 4 + k else k)
def Bench.ipAddr (B : Bench) (p v6 : Bool) (k : Nat) : List Byte := if v6 then B.ip6 p k else B.ip4 p k
/-- The index of an own, enabled address. -/
def Bench.ownAddr (B : Bench) (p v6 : Bool) (a : List Byte) : Option Nat :=
  (List.range 4).find? fun k => B.ipEnabled p v6 k && B.ipAddr p v6 k == a

/-- A port takes part in traffic: its link is up, the unit serves (R46) and its clock runs (R29). -/
def Bench.portRuns (B : Bench) (p : Bool) : Bool := (B.port p).up && B.serving (portUnit p) && B.islandOk (37 + portNo p)

/-! ## Checksums and packets -/

def sum16 : List Byte → Nat
  | [] => 0
  | [a] => a.toNat * 256
  | a :: b :: t => a.toNat * 256 + b.toNat + sum16 t
def fold16 (n : Nat) : Nat := let m := n % 65536 + n / 65536; let m := m % 65536 + m / 65536; m % 65536 + m / 65536
/-- The Internet checksum. -/
def inetSum (l : List Byte) : Nat := 65535 - fold16 (sum16 l)
/-- The pseudo-header of TCP, UDP and ICMPv6. -/
def pseudo (v6 : Bool) (src dst : List Byte) (proto len : Nat) : List Byte :=
  if v6 then src ++ dst ++ beBytes 4 len ++ beBytes 4 proto else src ++ dst ++ [0] ++ beBytes 1 proto ++ beBytes 2 len

/-- A packet with DF set and TTL 64, or hop limit 64 (R620). -/
def ipPacket (v6 : Bool) (src dst : List Byte) (proto : Nat) (payload : List Byte) : List Byte :=
  if v6 then [0x60, 0, 0, 0] ++ beBytes 2 payload.length ++ beBytes 1 proto ++ [64] ++ src ++ dst ++ payload
  else
    let a := [0x45, 0] ++ beBytes 2 (20 + payload.length) ++ [0, 0, 0x40, 0, 64] ++ beBytes 1 proto
    let b := src ++ dst
    a ++ beBytes 2 (inetSum (a ++ [0, 0] ++ b)) ++ b ++ payload

/-- Put a checksum at `off` of a transport segment whose checksum field is zero. -/
def withSum (v6 : Bool) (src dst : List Byte) (proto off : Nat) (seg : List Byte) : List Byte :=
  let c := inetSum (pseudo v6 src dst proto seg.length ++ seg)
  let c := if proto = 17 && c = 0 then 65535 else c
  seg.take off ++ beBytes 2 c ++ seg.drop (off + 2)
def sumOk (v6 : Bool) (src dst : List Byte) (proto : Nat) (seg : List Byte) : Bool :=
  fold16 (sum16 (pseudo v6 src dst proto seg.length ++ seg)) == 65535

/-- A frame as given goes out, if the port runs (R647). -/
def Bench.sendRaw (B : Bench) (p : Bool) (f : List Byte) : Bench :=
  if !B.portRuns p then B
  else (B.modPort p fun v => { v with txfrm := sat32 v.txfrm }).emit (.frame p f)

/-- A frame with the port's address and tag, padded to the least length (R618). -/
def Bench.sendFrame (B : Bench) (p : Bool) (dst : List Byte) (type : Nat) (payload : List Byte) : Bench :=
  let cfg := B.reg (portBase p)
  let tag := if cfg.getLsbD 18 then beBytes 2 0x8100 ++ beBytes 2 (bitsOf cfg 21 19 * 8192 + bitsOf cfg 17 6) else []
  B.sendRaw p (padTo 60 (dst ++ (B.port p).mac ++ tag ++ beBytes 2 type ++ payload))

def Bench.sendIp (B : Bench) (p v6 : Bool) (mac src dst : List Byte) (proto : Nat) (payload : List Byte) : Bench :=
  B.sendFrame p mac (if v6 then 0x86DD else 0x0800) (ipPacket v6 src dst proto payload)

/-! ## The peer table (R622) -/

structure Peer where
  mac : List Byte
  v6 : Bool
  addr : Nat
  en : Bool
  jrn : Bool
  rxq : Nat
  raddr : List Byte
  rport : Nat
  lport : Nat

def Bench.peer (B : Bench) (p : Bool) (i : Nat) : Peer :=
  let w (k : Nat) : Nat := (B.reg (0x404000 + (if p then 0x2000 else 0) + 0x20 * i + 4 * k)).toNat
  let v6 := (w 1).testBit 16
  { mac := leBytes 4 (w 0) ++ leBytes 2 (w 1), v6 := v6, addr := slice (w 1) 18 17, en := (w 1).testBit 19, jrn := (w 1).testBit 20
    rxq := slice (w 1) 27 21, raddr := if v6 then leBytes 4 (w 2) ++ leBytes 4 (w 3) ++ leBytes 4 (w 4) ++ leBytes 4 (w 5) else leBytes 4 (w 2)
    rport := slice (w 6) 15 0, lport := slice (w 6) 31 16 }

/-- A datagram to a peer (R645). -/
def Bench.sendUdp (B : Bench) (p : Bool) (e : Peer) (data : List Byte) : Bench :=
  let src := B.ipAddr p e.v6 e.addr
  let seg := beBytes 2 e.lport ++ beBytes 2 e.rport ++ beBytes 2 (8 + data.length) ++ [0, 0] ++ data
  B.sendIp p e.v6 e.mac src e.raddr 17 (withSum e.v6 src e.raddr 17 6 seg)

/-- The longest datagram that the MTU allows. -/
def Bench.udpRoom (B : Bench) (p v6 : Bool) : Nat := B.mtu p - (if v6 then 48 else 28)

/-! ## What a port answers by itself (R620) -/

def broadcast : List Byte := [0xFF, 0xFF, 0xFF, 0xFF, 0xFF, 0xFF]

/-- An ARP request for an own address is answered: true where it was one. -/
def Bench.arpAnswer (B : Bench) (p : Bool) (l : List Byte) : Option Bench :=
  let sha := (l.drop 8).take 6
  let spa := (l.drop 14).take 4
  let tpa := (l.drop 24).take 4
  if l.take 8 == [0, 1, 8, 0, 6, 4, 0, 1] && 28 ≤ l.length && (B.ownAddr p false tpa).isSome then
    some (B.sendFrame p sha 0x0806 ([0, 1, 8, 0, 6, 4, 0, 2] ++ (B.port p).mac ++ tpa ++ sha ++ spa))
  else none

/-- At most 1,000 echo replies a second. -/
def Bench.echoAllowed (B : Bench) (p : Bool) : Bool × Bench :=
  let v := B.port p
  let s := B.time.elapsed / 1000000
  let n := if v.echoSecond = s then v.echoCount else 0
  if n < 1000 then (true, B.setPort p { v with echoSecond := s, echoCount := n + 1 }) else (false, B)

/-- An echo request to an own address (`type` 8 or 128) is answered with `reply`. -/
def Bench.echoAnswer (B : Bench) (p v6 : Bool) (mac src dst seg : List Byte) : Bench :=
  match B.echoAllowed p with
  | (false, B) => B
  | (true, B) =>
    let r := [if v6 then 129 else 0, 0, 0, 0] ++ seg.drop 4
    if v6 then B.sendIp p true mac dst src 58 (withSum true dst src 58 2 r)
    else B.sendIp p false mac dst src 1 (r.take 2 ++ beBytes 2 (inetSum r) ++ r.drop 4)

/-- A neighbour solicitation for an own address is answered with an advertisement. -/
def Bench.neighbourAnswer (B : Bench) (p : Bool) (mac src seg : List Byte) : Option Bench :=
  let target := (seg.drop 8).take 16
  if (B.ownAddr p true target).isNone || seg.length < 24 then none
  else
    let unspec := src == zeros 16
    let dst := if unspec then [0xFF, 0x02, 0, 0, 0, 0, 0, 0, 0, 0, 0, 0, 0, 0, 0, 1] else src
    let dmac := if unspec then [0x33, 0x33, 0, 0, 0, 1] else mac
    let r := [136, 0, 0, 0, if unspec then 0x20 else 0x60, 0, 0, 0] ++ target ++ [2, 1] ++ (B.port p).mac
    some (B.sendIp p true dmac target dst 58 (withSum true target dst 58 2 r))

/-! ## Reading a frame -/

/-- A frame without its tag: addresses, EtherType and payload. -/
structure Eth where
  dst : List Byte
  src : List Byte
  type : Nat
  payload : List Byte

/-- The frame as a port reads it: none where its tag is not the one of R618. -/
def Bench.readEth (B : Bench) (p : Bool) (f : List Byte) : Option Eth :=
  let cfg := B.reg (portBase p)
  let type := beNat ((f.drop 12).take 2)
  if f.length < 14 then none
  else if type = 0x8100 then
    if cfg.getLsbD 18 && 18 ≤ f.length && beNat ((f.drop 14).take 2) % 4096 = bitsOf cfg 17 6 then
      some { dst := f.take 6, src := (f.drop 6).take 6, type := beNat ((f.drop 16).take 2), payload := f.drop 18 }
    else none
  else if cfg.getLsbD 18 then none
  else some { dst := f.take 6, src := (f.drop 6).take 6, type := type, payload := f.drop 14 }

/-- The multicast addresses of PTP, over Ethernet, IPv4 and IPv6 (R604, R617). -/
def ptpMacs : List (List Byte) :=
  [[0x01, 0x1B, 0x19, 0, 0, 0], [0x01, 0x80, 0xC2, 0, 0, 0x0E], [0x01, 0x00, 0x5E, 0, 0x01, 0x81], [0x01, 0x00, 0x5E, 0, 0, 0x6B],
    [0x33, 0x33, 0, 0, 0x01, 0x81], [0x33, 0x33, 0, 0, 0, 0x6B]]
/-- A solicited-node multicast address of an own IPv6 address. -/
def Bench.solicited (B : Bench) (p : Bool) (mac : List Byte) : Bool :=
  (List.range 4).any fun k => B.ipEnabled p true k && mac == [0x33, 0x33, 0xFF] ++ (B.ip6 p k).drop 13

/-- The frames that R617 accepts; PAUSE and PFC frames are not among them (R616). -/
def Bench.accepts (B : Bench) (p : Bool) (e : Eth) : Bool :=
  e.type ≠ 0x8808 && (e.dst == (B.port p).mac || (e.dst == broadcast && e.type = 0x0806) || ptpMacs.contains e.dst || B.solicited p e.dst)

/-- An IP packet: addresses, protocol and payload. -/
structure Ip where
  v6 : Bool
  src : List Byte
  dst : List Byte
  proto : Nat
  payload : List Byte

/-- A packet that is well formed and that the port does not discard (R619, R620). -/
def Bench.readIp (B : Bench) (p v6 : Bool) (l : List Byte) : Option Ip :=
  if v6 then
    let n := beNat ((l.drop 4).take 2)
    let next := (l.getD 6 0).toNat
    if l.length < 40 + n || (l.getD 0 0).toNat / 16 ≠ 6 || B.mtu p < 40 + n || [0, 43, 44, 50, 51, 60, 135, 139, 140, 253, 254].contains next then none
    else some { v6 := true, src := (l.drop 8).take 16, dst := (l.drop 24).take 16, proto := next, payload := (l.drop 40).take n }
  else
    let n := beNat ((l.drop 2).take 2)
    if l.getD 0 0 ≠ 0x45 || l.length < n || n < 20 || B.mtu p < n || fold16 (sum16 (l.take 20)) ≠ 65535
        || beNat ((l.drop 6).take 2) % 0x4000 ≠ 0 then none
    else some { v6 := false, src := (l.drop 12).take 4, dst := (l.drop 16).take 4, proto := (l.getD 9 0).toNat, payload := (l.drop 20).take (n - 20) }

end Sys2Proof.Machine
end

