-- ==== Sys2Proof/Machine/RxQueue.lean ====
section
/-!
DEFINITION. Machine/RxQueue.lean: the network receive queues (R639 to R643).
-/

namespace Sys2Proof.Machine

def Rxq.zero : Rxq := { dhead := 0, phase := false, bhead := 0, nobuf := 0, fifo := [], spare := [] }
def Bench.rxq (B : Bench) (q : Nat) : Rxq := B.net.rxq.get Rxq.zero q
def Bench.setRxq (B : Bench) (q : Nat) (v : Rxq) : Bench := { B with net := { B.net with rxq := B.net.rxq.set Rxq.zero q v } }

def rxqReg (q o : Nat) : Nat := 0x401000 + 0x20 * q + o
/-- Physical address of a ring whose low and high words are given. -/
def ringBase (lo hi : Word) : Nat := bitsOf hi 7 0 * 2 ^ 32 + lo.toNat
def Bench.rxDesc (B : Bench) (q : Nat) : Nat := ringBase (B.reg (rxqReg q 0)) (B.reg (rxqReg q 4))
def Bench.rxDescN (B : Bench) (q : Nat) : Nat := 2 ^ (bitsOf (B.reg (rxqReg q 4)) 11 8 + 6)
def Bench.rxBuf (B : Bench) (q : Nat) : Nat := ringBase (B.reg (rxqReg q 8)) (B.reg (rxqReg q 0xC))
def Bench.rxBufN (B : Bench) (q : Nat) : Nat := 2 ^ (bitsOf (B.reg (rxqReg q 0xC)) 11 8 + 6)
/-- Bytes of one buffer. -/
def Bench.rxBufSize (B : Bench) (q : Nat) : Nat := 2 ^ (bitsOf (B.reg (rxqReg q 0xC)) 15 12 + 10)

/-- The descriptor ring has no room: one entry stays unused, so that a full ring and an empty one differ. -/
def Bench.rxFull (B : Bench) (q : Nat) : Bool :=
  let n := B.rxDescN q
  ((B.rxq q).dhead + 1) % n == bitsOf (B.reg (rxqReg q 0x14)) 14 0 % n
/-- No buffer is posted. -/
def Bench.rxEmpty (B : Bench) (q : Nat) : Bool :=
  let v := B.rxq q
  v.spare.isEmpty && v.bhead == bitsOf (B.reg (rxqReg q 0x18)) 14 0 % B.rxBufN q

/-- The queue can take a new message now. -/
def Bench.rxOpen (B : Bench) (q : Nat) : Bool := B.serving (288 + q) && !B.rxFull q && !B.rxEmpty q

/-- The next free buffer; EV_RX_NOBUF where it was the last. -/
def Bench.takeBuffer (B : Bench) (q : Nat) (p : Bool) : Nat × Bench :=
  let v := B.rxq q
  match v.spare with
  | a :: t => (a, B.setRxq q { v with spare := t })
  | [] =>
    let ((l, _), B) := B.unitRead (midPort (portNo p)) 0 (B.rxBuf q + 8 * v.bhead) 8
    let B := B.setRxq q { v with bhead := (v.bhead + 1) % B.rxBufN q }
    (leNat l % 2 ^ 40, if B.rxEmpty q then B.raise 677 else B)

/-- The 32 bytes of a descriptor (R640). -/
def RxEntry.bytes32 (e : RxEntry) (addr : Nat) (phase : Bool) : List Byte :=
  leBytes 8 addr ++ leBytes 4 e.len ++ leBytes 2 e.conn ++ leBytes 1 e.kind ++ leBytes 1 e.status ++ leBytes 4 e.item.toNat
    ++ leBytes 2 (e.flags + (if phase then 1 else 0) + (if e.port then 8 else 0)) ++ leBytes 1 e.reason ++ [0] ++ leBytes 8 e.id

/-- One descriptor is written (R642). -/
def Bench.rxWrite (B : Bench) (q : Nat) (e : RxEntry) (addr : Nat) : Bench :=
  let mid := midPort (portNo e.port)
  let B := if e.bytes.isEmpty then B else B.unitWrite mid 0 addr e.bytes
  let v := B.rxq q
  let B := B.unitWrite mid 0 (B.rxDesc q + 32 * v.dhead) (e.bytes32 addr v.phase)
  let h := (v.dhead + 1) % B.rxDescN q
  (B.setRxq q { v with dhead := h, phase := if h = 0 then !v.phase else v.phase }).raise (256 + q)

/-- The head of the queue is delivered if it is ready and has its space; true where it was. -/
def Bench.rxHead (B : Bench) (q : Nat) : Bool × Bench :=
  match (B.rxq q).fifo with
  | [] => (false, B)
  | e :: t =>
    if !e.ready || !B.drains (288 + q) || B.rxFull q then (false, B)
    else
      match e.addr with
      | some a => (true, (B.setRxq q { B.rxq q with fifo := t }).rxWrite q e a)
      | none =>
        if e.bytes.isEmpty then (true, (B.setRxq q { B.rxq q with fifo := t }).rxWrite q e 0)
        else if B.rxEmpty q then (false, B)
        else
          let (a, B) := B.takeBuffer q e.port
          (true, (B.setRxq q { B.rxq q with fifo := t }).rxWrite q e a)

/-- Deliver what can be delivered, in order. -/
def Bench.rxSettleN (q : Nat) : Nat → Bench → Bench
  | 0, B => B
  | n + 1, B =>
    match B.rxHead q with
    | (true, B) => Bench.rxSettleN q n B
    | (false, B) => B
def Bench.rxSettle (B : Bench) (q : Nat) : Bench := Bench.rxSettleN q ((B.rxq q).fifo.length + 1) B

def Bench.rxPush (B : Bench) (q : Nat) (e : RxEntry) : Bench :=
  (B.setRxq q { B.rxq q with fifo := (B.rxq q).fifo ++ [e] }).rxSettle q

/-- A descriptor with `bytes` in a buffer of its own, or none. -/
def rxEntry (p : Bool) (kind status conn : Nat) (bytes : List Byte) : RxEntry :=
  { token := 0, port := p, kind := kind, status := status, conn := conn, addr := none, bytes := bytes, len := bytes.length
    item := 0xFFFFFFFF, flags := 0, reason := 0, id := 0, ready := true }

/-- A datagram or a CONTROL frame: delivered at once, or discarded and counted (R643). -/
def Bench.rxDatagram (B : Bench) (q : Nat) (e : RxEntry) : Bench :=
  if B.rxOpen q && (B.rxq q).fifo.isEmpty && e.bytes.length ≤ B.rxBufSize q then B.rxPush q e
  else B.setRxq q { B.rxq q with nobuf := sat16 (B.rxq q).nobuf }

/-- CONTROL (R621). -/
def Bench.control (B : Bench) (p : Bool) (frame : List Byte) : Bench :=
  let c := B.reg (portBase p + 0x14)
  if c.getLsbD 7 then B.rxDatagram (bitsOf c 6 0) (rxEntry p 7 0 0xFFFF frame) else B.portDrop p

/-- What the journal has answered for messages of the receive queues (R580, R583, R638). -/
def Bench.rxAnswer (B : Bench) (d : Delivery) : Bench :=
  let q := d.req.queue - 288
  let v := B.rxq q
  let set (f : RxEntry → RxEntry) : Bench :=
    (B.setRxq q { v with fifo := v.fifo.map fun e => if e.token = d.req.token && !e.ready then f e else e }).rxSettle q
  match d.answer with
  | .serve => set fun e => { e with ready := true, item := BitVec.ofNat 32 d.item }
  | .done r => set fun e => { e with ready := true, status := 2, item := r, id := d.seq }
  | _ =>
    let gone := v.fifo.filter fun e => e.token = d.req.token && !e.ready
    (B.setRxq q { v with fifo := v.fifo.filter fun e => !(e.token = d.req.token && !e.ready), spare := v.spare ++ gone.filterMap (·.addr) }).rxSettle q

end Sys2Proof.Machine
end

