-- ==== Sys2Proof/Machine/Hq.lean ====
section
/-!
DEFINITION. Machine/Hq.lean: the host queue engine of a bench (R655 to R666).
-/

namespace Sys2Proof.Machine

def Hqp.zero : Hqp :=
  { sqtail := 0, cqlo := 0, cqhi := 0, cqhead := 0, sqadm := 0, cshead := 0, cqtail := 0, phase := true, badcpl := 0, refused := 0
    batch := [], out := [], devq := [], desc := none }
def Bench.hqp (B : Bench) (n : Nat) : Hqp := B.hq.pairs.get Hqp.zero n
def Bench.setHqp (B : Bench) (n : Nat) (v : Hqp) : Bench := { B with hq := { B.hq with pairs := B.hq.pairs.set Hqp.zero n v } }

def hqReg (n o : Nat) : Nat := 0x408000 + 0x40 * n + o
def Bench.sqBase (B : Bench) (n : Nat) : Nat := ringBase (B.reg (hqReg n 0)) (B.reg (hqReg n 4))
def Bench.sqSize (B : Bench) (n : Nat) : Nat := 2 ^ (bitsOf (B.reg (hqReg n 4)) 11 8 + 4)
def Bench.csBase (B : Bench) (n : Nat) : Nat := ringBase (B.reg (hqReg n 0xC)) (B.reg (hqReg n 0x10))
def Bench.csSize (B : Bench) (n : Nat) : Nat := 2 ^ (bitsOf (B.reg (hqReg n 0x10)) 11 8 + 4)
def Bench.csTail (B : Bench) (n : Nat) : Nat := bitsOf (B.reg (hqReg n 0x18)) 11 0
def Hqp.cqSize (v : Hqp) : Nat := 2 ^ (bitsOf v.cqlo 3 0 + 4)
/-- Bench physical address of the completion queue, in the host window. -/
def Hqp.cqBase (v : Hqp) : Nat := 0x3000000000 + bitsOf v.cqhi 3 0 * 2 ^ 32 + bitsOf v.cqlo 31 8 * 256
/-- The completion queue has room: one entry stays unused. -/
def Hqp.cqRoom (v : Hqp) : Bool := (v.cqtail + 1) % v.cqSize ≠ v.cqhead % v.cqSize
def sat8 (b : Byte) : Byte := if b = 0xFF then b else b + 1

/-! ## Completion entries (R662) -/

/-- SQHEAD: one past the oldest slot still outstanding; SQADM where none is. -/
def Bench.sqHead (B : Bench) (n : Nat) : Nat :=
  let v := B.hqp n
  let size := B.sqSize n
  let age (s : Nat) : Nat := (v.sqadm + size - s % size - 1) % size
  let slots := v.out.map (·.1) ++ v.devq.map (·.slot)
  match slots with
  | [] => v.sqadm
  | s :: t => (t.foldl (fun o s => if age o < age s then s else o) s + 1) % size

/-- A completion entry is written and its vector sent. -/
def Bench.cqWrite (B : Bench) (n : Nat) (cookie : Word) (len : Nat) (status reason : Byte) : Bench :=
  let v := B.hqp n
  let e := leBytes 4 cookie.toNat ++ leBytes 4 len ++ [status, reason] ++ leBytes 2 (B.sqHead n) ++ leBytes 4 (if v.phase then 1 else 0)
  let B := B.unitWrite midHost 0 (v.cqBase + 16 * (v.cqtail % v.cqSize)) e
  let t := (v.cqtail + 1) % v.cqSize
  (B.setHqp n { B.hqp n with cqtail := t, phase := if t = 0 then !v.phase else v.phase }).msix n

/-- The completions that the engine writes itself, while the queue has room. -/
def Bench.devGo (n : Nat) : Nat → Bench → Bench
  | 0, B => B
  | fuel + 1, B =>
    let v := B.hqp n
    match v.devq with
    | [] => B
    | d :: t =>
      if !v.cqRoom || !B.hostUp then B
      else Bench.devGo n fuel ((B.setHqp n { v with devq := t }).cqWrite n d.cookie 0 d.status d.reason)

def Bench.devDrain (B : Bench) (n : Nat) : Bench := Bench.devGo n ((B.hqp n).devq.length + 1) B

/-! ## Doorbells (R660) -/

/-- The fields of a submission entry are as R659 gives them. -/
def sqFormed (e : List Byte) : Bool :=
  let n (i k : Nat) : Nat := leNat ((e.drop i).take k)
  n 22 2 = 1 && 1 ≤ n 4 4 && n 4 4 ≤ 65536 && n 13 3 = 0 && n 28 4 < 16 * 2 ^ 32 && n 24 8 < 2 ^ 36 && n 36 12 = 0

/-- The engine's own answer: ITEM all ones. -/
def ownAnswer (status reason : Byte) : SqAnswer := { item := 0xFFFFFFFF, adm := 1, reason := reason, seq := 0, status := status }

/-- Every entry of the batch has its answer: bytes 48 to 63 are written, SQADM advances, and the doorbell's event is raised. -/
def Bench.batchEnd (B : Bench) (n : Nat) : Bench :=
  let v := B.hqp n
  if v.batch.isEmpty || !(v.batch.all fun e => e.answer.isSome) then B
  else
    let B := v.batch.foldl (fun (B : Bench) e =>
      match e.answer with
      | none => B
      | some a =>
        let B := B.unitWrite midHost 0 (B.sqBase n + 64 * e.slot + 48)
          (leBytes 4 a.item.toNat ++ [a.adm, a.reason, 0, 0] ++ leBytes 8 a.seq)
        let v := B.hqp n
        let v := { v with sqadm := (e.slot + 1) % B.sqSize n }
        B.setHqp n (if a.adm = 1 then { v with
            devq := v.devq ++ [{ slot := e.slot, cookie := e.cookie, status := a.status, reason := a.reason }]
            refused := if a.status = 1 then sat8 v.refused else v.refused }
          else { v with out := v.out ++ [(e.slot, e.cookie)] })) B
    ((B.setHqp n { B.hqp n with batch := [] }).raise n).devDrain n

/-- One submission entry is read and admitted. -/
def Bench.sqEntry (B : Bench) (n slot : Nat) : Bench :=
  let ((l, bad), B) := B.unitRead midHost 0 (B.sqBase n + 64 * slot) 64
  let cookie := if bad.isSome then 0 else BitVec.ofNat 32 (leNat (l.take 4))
  let put (B : Bench) (token : Nat) (a : Option SqAnswer) : Bench :=
    B.setHqp n { B.hqp n with batch := (B.hqp n).batch ++ [{ slot := slot, cookie := cookie, token := token, answer := a }] }
  if bad.isSome || !sqFormed l then put B 0 (some (ownAnswer 3 0))
  else if (B.ustate 0).effective = stIsolated then put B 0 (some (ownAnswer 1 5))
  else
    let token := B.net.next
    let B : Bench := { B with net := { B.net with next := token + 1 } }
    let r : Request :=
      { reqid := BitVec.ofNat 48 (leNat ((l.drop 16).take 6)), tenant := B.reg (hqReg n 8), tin := B.time.value, path := 0, queue := 32 + n
        addr := leNat ((l.drop 8).take 5), len := leNat ((l.drop 4).take 4), token := token }
    match B.jrnAdmit r with
    | (.refused reason, B) => put B token (some (ownAnswer 1 (BitVec.ofNat 8 reason)))
    | (.waiting, B) => put B token none

/-- The doorbell is read: every new entry is read and admitted in order, one doorbell at a time. -/
def Bench.doorbell (B : Bench) (n : Nat) : Bench :=
  let v := B.hqp n
  let size := B.sqSize n
  let count := (v.sqtail + size - v.sqadm) % size
  let iso := (B.ustate 0).effective = stIsolated
  if count = 0 || !v.batch.isEmpty || !B.serving (32 + n) || !B.hostUp || !B.jrnRuns || !(iso || B.serving 0) then B
  else ((List.range count).foldl (fun B i => B.sqEntry n ((v.sqadm + i) % size)) B).batchEnd n

/-- What the journal has answered for an entry (R580, R583, R659). -/
def Bench.hqAnswer (B : Bench) (d : Delivery) : Bench :=
  let n := d.req.queue - 32
  let v := B.hqp n
  let a : SqAnswer := match d.answer with
    | .serve => { item := BitVec.ofNat 32 d.item, adm := 0, reason := 0, seq := 0, status := 0 }
    | .done r => { item := r, adm := 2, reason := 0, seq := d.seq, status := 0 }
    | .still => ownAnswer 2 0
    | .closed => ownAnswer 1 1
  let B := B.setHqp n { v with batch := v.batch.map fun e => if e.token = d.req.token && e.answer.isNone then { e with answer := some a } else e }
  (B.batchEnd n).doorbell n

/-! ## Completions (R661) -/

/-- The next completion descriptor is read, and NEXTSEQ captured for JGATE. -/
def Bench.csFetch (B : Bench) (n : Nat) : Bench :=
  let v := B.hqp n
  if v.desc.isSome || v.cshead = B.csTail n % B.csSize n || !B.serving (32 + n) || !B.hostUp then B
  else
    let ((l, bad), B) := B.unitRead midHost 0 (B.csBase n + 32 * v.cshead) 32
    B.setHqp n { v with desc := some { desc := if bad.isSome then zeros 32 else l, gate := B.jrn.nextSeq } }

/-- The descriptor at the head is carried out, unless it waits: for its gate, or for room in the completion queue. -/
def Bench.csRun (B : Bench) (n : Nat) : Bench :=
  let B := (B.devDrain n).csFetch n
  let v := B.hqp n
  match v.desc with
  | none => B
  | some d =>
    let l := d.desc
    let num (i k : Nat) : Nat := leNat ((l.drop i).take k)
    if !B.drains (32 + n) || !B.hostUp || ((num 15 1).testBit 0 && B.durSeq < d.gate) || !v.devq.isEmpty || !v.cqRoom then B
    else
      let v := { v with desc := none, cshead := (v.cshead + 1) % B.csSize n }
      let slot := num 12 2
      let B := match v.out.lookup slot with
        | none => ((B.setHqp n { v with badcpl := sat8 v.badcpl }).raise 680).msix 256
        | some cookie =>
          let B := B.setHqp n { v with out := v.out.filter fun e => e.1 ≠ slot }
          let len := min (num 8 4) 65536
          let st := l.getD 14 0
          let ((data, bad), B) := B.unitRead midHost 0 (num 0 8) len
          if bad.isSome then B.cqWrite n cookie 0 4 0
          else
            let B := B.unitWrite midHost 0 (0x3000000000 + num 16 8 % 2 ^ 36) data
            B.cqWrite n cookie len (if st = 0 || st.getLsbD 7 then st else 0x80) 0
      B.csFetch n

/-! ## Resets (R656, R663) -/

/-- A pair's work and pointers are cleared; its configuration stays. -/
def Hqp.cleared (v : Hqp) (host : Bool) : Hqp :=
  { Hqp.zero with cqlo := if host then 0 else v.cqlo, cqhi := if host then 0 else v.cqhi }

/-- A forced reset that no FLR makes: RESET for every outstanding slot, oldest first. -/
def Bench.resetHqp (B : Bench) (n : Nat) : Bench :=
  let v := B.hqp n
  let slots := v.out ++ v.devq.map (fun d => (d.slot, d.cookie)) ++ v.batch.map fun e => (e.slot, e.cookie)
  let size := B.sqSize n
  let age (s : Nat) : Nat := (v.sqadm + 2 * size - s % size - 1) % size
  let slots := slots.mergeSort fun a b => age b.1 ≤ age a.1
  let B := B.setHqp n { v with devq := [], batch := [], out := slots }
  let B := slots.foldl (fun B e =>
    (B.setHqp n { B.hqp n with out := (B.hqp n).out.filter fun o => o.1 ≠ e.1 }).cqWrite n e.2 0 5 0) B
  (B.setHqp n ((B.hqp n).cleared false)).setReg (hqReg n 0x18) 0

/-- FLR of PF1 + b: every pair is reset without completions, and what the host writes in R665 is cleared. -/
def Bench.flr (B : Bench) : Bench :=
  let B := (List.range 256).foldl (fun (B : Bench) n =>
    let B := (B.setHqp n Hqp.zero).setReg (hqReg n 0x18) 0
    let B := B.jrnFailUnit (32 + n)
    let u := B.ustate (32 + n)
    if u.requested ≠ u.effective then B.changeState (32 + n) else B) B
  { B with hwin := [], hq := { B.hq with msix := [] } }

/-- The host link goes down or comes up (R657). -/
def Bench.hostLink (B : Bench) (up : Bool) : Bench :=
  if B.hostUp = up then B
  else
    let B := ({ B with hostUp := up }).raise 679
    if !up then B
    else
      let B := B.hq.msix.foldl (fun B v => B.msix v) { B with hq := { B.hq with msix := [] } }
      (B.hq.pairs.map (·.1)).foldl (fun B n => ((B.devDrain n).doorbell n).csFetch n) B

/-- What waited for a change of state of the bench or a pair goes on. -/
def Bench.hqGo (B : Bench) : Bench :=
  (B.hq.pairs.map (·.1)).foldl (fun B n => ((B.devDrain n).doorbell n).csFetch n) B

/-! ## Registers (R665, R666) -/

def Bench.hqRead (B : Bench) (off : Nat) : Word :=
  if 0x40C000 ≤ off then
    let w := B.hwin.get 0 ((off - 0x40C000) / 8)
    if off % 8 = 0 then w.extractLsb' 0 32 else w.extractLsb' 32 32
  else
    let v := B.hqp ((off - 0x408000) / 0x40)
    match off % 0x40 with
    | 0x14 => BitVec.ofNat 32 v.sqadm
    | 0x1C => BitVec.ofNat 32 v.cshead
    | 0x20 => BitVec.ofNat 32 (v.out.length + v.devq.length + v.badcpl.toNat * 2 ^ 16 + v.refused.toNat * 2 ^ 24)
    | _ => B.reg off

def Bench.hqWrite (B : Bench) (off : Nat) (v : Word) : Bench :=
  let B := B.plainWrite off v
  if 0x408000 ≤ off && off < 0x40C000 && off % 0x40 = 0x18 then B.csFetch ((off - 0x408000) / 0x40) else B

/-- HACK and the other journal registers of the host view: NEXTSEQ, RELSEQ, DURSEQ, HACK and JID. -/
def hostJrn (o : Nat) : Nat := (([0x50, 0x58, 0x60, 0x70, 0x88] : List Nat).getD ((o - 0x100) / 8) 0) + 0x300000 + o % 8

/-- Pending vectors. -/
def Bench.msixWord (B : Bench) : Word :=
  BitVec.ofNat 32 ((B.hq.msix.map fun v => 2 ^ (v - 256)).foldl (· + ·) 0)

/-- The queue-pair and window part of BAR0: none where the offset belongs to an alias. -/
def Bench.hostRead4 (B : Bench) (o : Nat) : Option Word :=
  if 0x1000 ≤ o && o < 0x2000 then
    let v := B.hqp ((o - 0x1000) / 16)
    some (match o % 16 with
      | 0 => BitVec.ofNat 32 v.sqtail
      | 4 => v.cqlo
      | 8 => v.cqhi
      | _ => BitVec.ofNat 32 v.cqhead)
  else if 0x2000 ≤ o && o < 0x2200 then
    let w := B.hwin.get 0 ((o - 0x2000) / 8)
    some (if o % 8 = 0 then w.extractLsb' 0 32 else w.extractLsb' 32 32)
  else if o = 0x2200 then some B.msixWord
  else none

/-- A write of 4 aligned bytes to them. R665 lets CQBASE_LO be written only in DISABLED and says nothing of CQBASE_HI: both are held to
it, DESIGN CHOICE (log 85). -/
def Bench.hostWrite4 (B : Bench) (o : Nat) (v : Word) : Bench :=
  if 0x1000 ≤ o && o < 0x2000 then
    let n := (o - 0x1000) / 16
    let q := B.hqp n
    match o % 16 with
    | 0 => (B.setHqp n { q with sqtail := bitsOf v 11 0 }).doorbell n
    | 0xC => ((B.setHqp n { q with cqhead := bitsOf v 11 0 }).devDrain n).csFetch n
    | 4 => if B.configurable (32 + n) then B.setHqp n { q with cqlo := mergeFields [fldIn 0 4 0 8, fld 8 24] q.cqlo v } else B
    | _ => if B.configurable (32 + n) then B.setHqp n { q with cqhi := mergeFields [fld 0 4] q.cqhi v } else B
  else if 0x2000 ≤ o && o < 0x2200 then
    let i := (o - 0x2000) / 8
    let w := B.hwin.get 0 i
    let w : Dword := if o % 8 = 0 then w.extractLsb' 32 32 ++ (v &&& 0xC0000003) else v ++ w.extractLsb' 0 32
    { B with hwin := B.hwin.set 0 i w }
  else B

end Sys2Proof.Machine
end

