-- ==== Sys2Proof/Machine/Trap.lean ====
section
/-!
DEFINITION. Machine/Trap.lean: taking a trap, escalation and lock-up, the delivery of event traps, strand switches and
the returns from them (chapter 05; R298, R299, R309 of chapter 06).
-/

namespace Sys2Proof.Machine

/-- The cause codes of R225. -/
def Cause.code : Cause → Nat
  | .capTag => 0x01 | .capBounds => 0x02 | .capPerm => 0x03 | .capSeal => 0x04 | .capAlign => 0x05
  | .pageNotPresent => 0x08 | .pageRights => 0x09 | .walkTarget => 0x0A | .walkError => 0x0B | .pageCaps => 0x0C
  | .nxFetch => 0x10 | .shadowMismatch => 0x11 | .shadowOverflow => 0x12 | .shadowUnderflow => 0x13
  | .reservedOp => 0x18 | .coprocAbsent => 0x19 | .illegal => 0x1A | .misaligned => 0x20 | .event => 0x30
  | .decimal => 0x3E | .memoryError => 0x3F

/-- ECAUSE for a fault (R221). -/
def Trap.ecause (t : Trap) : Word :=
  BitVec.ofNat 32 (t.cause.code + (if t.part then 0x100 else 0) + (if t.onLast then 0x200 else 0) + t.level % 8 * 0x400)

/-- ECAUSE for an event trap (R221). -/
def eventEcause (n : Nat) : Word := BitVec.ofNat 32 (0x30 + n % 1024 * 0x4000)

/-- Steps 3 to 7 of trap entry (R226) in one bank. -/
def Bank.enterTrap (s : Bank) (ecause : Word) (etval : Dword) (held : Bool) : Bank :=
  { s with
    epcc := s.pcc
    ecause := ecause
    etval := etval
    estat := 1#32 ||| (if s.rcv then 2#32 else 0#32) ||| (if held then 4#32 else 0#32)
    rcv := false
    pcc := s.trapEntry.unsealed }

/-- TRAP_ENTRY can be entered (R226 step 2). -/
def Bank.trapUsable (s : Bank) : Bool := s.trapEntry.tag && jumpOtypes s.trapEntry.otype

/-- The word of BENCH.LOCKINFO that a lock-up leaves (R273); CORE reads 0 with BSC set for the supervisor core. -/
def lockinfoWord (k : CoreNo) (bank cause escCause : Nat) : Word :=
  BitVec.ofNat 32 ((if k = bsc then 0 else k.val) + 2 ^ 4 + (if k = bsc then 2 ^ 5 else 0) + bank % 8 * 2 ^ 6
    + cause % 256 * 2 ^ 16 + escCause % 256 * 2 ^ 24)

/-- A bench-level reset source asserts; of several, the first in the order of R676 is recorded. -/
def Bench.requestReset (B : Bench) (cause : Byte) (softsrc : BitVec 2) : Bench :=
  let rank (c : Byte) : Nat := ([0x14, 0x15, 0x11, 0x13, 0x12] : List Byte).idxOf c
  match B.rst.due with
  | some d => if rank d.cause ≤ rank cause then B else { B with rst := { B.rst with due := some { cause := cause, softsrc := softsrc } } }
  | none => { B with rst := { B.rst with due := some { cause := cause, softsrc := softsrc } } }

/-- A core locks up (R265 to R268). -/
def Bench.lockUp (B : Bench) (k : CoreNo) (bank cause : Nat) : Bench :=
  let c := B.core k
  if !c.escLock && k ≠ bsc then
    (B.setCore k { c with halted := true }).raise 1011
  else
    let esc := if c.escActive then c.escCause.toNat % 256 else 0
    let bank := if c.escActive then slice c.escCause.toNat 12 10 else bank
    ({ B with ctl := { B.ctl with lockinfo := lockinfoWord k bank cause esc } }).requestReset 0x15 0

/-- ESC_CAUSE after an escalation entry (R256). -/
def escCauseWord (cause source bank count : Nat) : Word :=
  BitVec.ofNat 32 (cause % 256 + source % 4 * 2 ^ 8 + bank % 8 * 2 ^ 10 + 2 ^ 13 + count % 2 ^ 16 * 2 ^ 16)

/-- Escalation entry in bank 0 (R262 step 4). -/
def Bank.enterEscalation (s : Bank) (pcc csp : Cap) : Bank :=
  { s with
    pcc := pcc
    c := s.c.set 2 csp
    atp := s.atp &&& 0xFFFCFFFF#32
    estat := 1#32
    rc := 0
    rcv := false }

/-- The task that core `k` executes is put back among the ready ones when the core stops executing it. -/
def Bench.unrun (B : Bench) (k : CoreNo) (b : BankNo) : Bench :=
  match (B.bank k b).task with
  | none => B
  | some t =>
    let e := B.task t
    if e.state = .running then B.setTask t { e with state := .ready } else B

/-- An escalation suspends a REP-prefixed instruction in progress as though its next iteration had faulted (R137, R262): RC holds
the iterations to come and RCV is 1. -/
def Core.suspendRep (c : Core) : Core :=
  match c.repBusy with
  | none => c
  | some r => { c.setBank r.bank { c.bank r.bank with rcv := true } with repBusy := none }

/-- Escalation of core `k` for bank `b` (R254, R262, R265): SOURCE 0 a fault with INTRAP set, 1 an unusable TRAP_ENTRY,
2 a spill failure. -/
def Bench.escalate (B : Bench) (k : CoreNo) (b : BankNo) (cause source : Nat) : Bench :=
  let c := B.core k
  if c.escActive || !c.escLock then B.lockUp k b.val cause
  else
    let count := min (slice c.escCause.toNat 31 16 + 1) 0xFFFF
    let B : Bench := match c.cur with
      | some e => if e = 0 then B else B.unrun k e
      | none => B
    let c := (B.core k).suspendRep
    let c := c.setBank 0 ((c.bank 0).enterEscalation c.escPcc c.escCsp)
    let c := { c with escCause := escCauseWord cause source b.val count, hold := none, cur := some 0, waiting := false }
    (B.setCore k c).raise 1009

/-- A fault of the strand in bank `b` of core `k` is taken (R226), escalates (R254) or locks the core up (R265). -/
def Bench.takeTrap (B : Bench) (k : CoreNo) (b : BankNo) (t : Trap) : Bench :=
  let c := B.core k
  let s := c.bank b
  if c.escActive then B.lockUp k b.val t.cause.code
  else if s.inTrap then B.escalate k b t.cause.code 0
  else if !s.trapUsable then B.escalate k b t.cause.code 1
  else B.setCore k { c.setBank b (s.enterTrap t.ecause t.etval c.hold.isSome) with hold := none }

/-! ## Event traps -/

/-- The sources that are pending, not masked and satisfy `f`. -/
def Bench.pendingSources (B : Bench) (f : Nat → Bool) : List Nat :=
  (B.sched.evstat.filter fun e => e.2.pending && !e.2.masked && f e.1).map (·.1)

/-- A task is no longer live: the occurrences bound as traps to it are dropped without delivery (R307). -/
def Bench.dropTraps (B : Bench) (t : Nat) : Bench :=
  (B.pendingSources fun n => decide (B.bindMode n = .trap) && B.bindTask n == t).foldl Bench.clearPending B

/-- The source whose trap the strand in bank `b` of quad core `k` takes next (R229, R309). The TRAP-bound sources of a bench share one
pointer of R59 (DESIGN CHOICE, log 74: R309 does not say whether each task or core has its own). -/
def Bench.trapSource (B : Bench) (k : CoreNo) (b : BankNo) : Option Nat :=
  let c := B.core k
  let s := c.bank b
  if s.inTrap || c.hold.isSome || c.escActive || c.repBusy.isSome then none
  else
    match s.task with
    | none => none
    | some t =>
      tie 1024 B.sched.lastTrap
        (B.pendingSources fun n => decide (B.bindMode n = .trap) && B.bindTask n == t)

/-- The source that traps the supervisor core next: 1,008 and above first, and not masked by a hold (R249, R309). -/
def Bench.bscSource (B : Bench) : Option Nat :=
  let c := B.core bsc
  if (c.bank 7).inTrap || c.escActive || c.repBusy.isSome then none
  else
    let l := B.pendingSources fun n => decide (B.bindMode n = .bsc)
    match tie 1024 B.sched.lastBsc (l.filter (1008 ≤ ·)) with
    | some n => some n
    | none => if c.hold.isSome then none else tie 1024 B.sched.lastBsc (l.filter (· < 1008))

/-- The event trap due at the next boundary of the strand that core `k` executes. -/
def Bench.eventDue (B : Bench) (k : CoreNo) : Option (BankNo × Nat) :=
  if k = bsc then (B.bscSource).map fun n => (7, n)
  else
    match (B.core k).cur with
    | none => none
    | some b => (B.trapSource k b).map fun n => (b, n)

/-- Take the trap of event `n` in bank `b` (R226, R307, R309): PENDING clears, and the delivery counts (R313). -/
def Bench.eventTrap (B : Bench) (k : CoreNo) (b : BankNo) (n : Nat) : Bench :=
  let B := (B.clearPending n).countDelivery n
  let B := if k = bsc then { B with sched := { B.sched with lastBsc := n } }
    else { B with sched := { B.sched with lastTrap := n } }
  let c := B.core k
  let s := c.bank b
  if !s.trapUsable then (B.setCore k { c with waiting := false }).escalate k b 0x30 1
  else
    B.setCore k { c.setBank b (s.enterTrap (eventEcause n) 0 c.hold.isSome) with hold := none, waiting := false, cur := some b }

/-! ## Strand switches -/

/-- Resident banks of a core whose task is READY and not due to stop, with their priorities (R298). -/
def Bench.readyBanks (B : Bench) (k : CoreNo) : List (BankNo × Nat) :=
  (List.finRange 8).filterMap fun b =>
    match (B.bank k b).task with
    | none => none
    | some t =>
      let e := B.task t
      if e.state = TaskState.ready && e.at? = some (k, b) then some (b, e.prio.val) else none

/-- A strand switch is allowed on the core (R299). -/
def Core.switchAllowed (c : Core) : Bool :=
  c.hold.isNone && !c.escActive && !c.halted && !c.dbgHalted && c.repBusy.isNone

/-- Banks 1 to 7 run only once the core's LOCK is 1 (R271), and quad cores only after the supervisor core's (R269). -/
def Bench.mayRun (B : Bench) (k : CoreNo) (b : BankNo) : Bool :=
  (B.core bsc).escLock && (b = 0 || (B.core k).escLock)

/-- The bank the scheduler gives quad core `k` at its next boundary: none where the running strand stays (R298). -/
def Bench.switchTarget (B : Bench) (k : CoreNo) : Option BankNo :=
  let c := B.core k
  if k = bsc || !c.switchAllowed then none
  else
    let cands := (B.readyBanks k).filter fun e => B.mayRun k e.1
    let runPrio : Option Nat := match c.cur with
      | none => none
      | some b => match (c.bank b).task with
        | none => none
        | some t =>
          let e := B.task t
          if e.state = TaskState.running && !e.stopDue then some e.prio.val else none
    let cands := match runPrio with
      | none => cands
      | some p => cands.filter fun e => decide (p < e.2)
    let best := cands.foldl (fun m e => max m e.2) 0
    match tie 8 c.lastBank ((cands.filter fun e => e.2 = best).map fun e => e.1.val) with
    | none => none
    | some n => some (Fin.ofNat 8 n)

/-- The running strand of core `k` leaves it: its task is STOPPED where STOP is due (R296), READY otherwise. -/
def Bench.leave (B : Bench) (k : CoreNo) : Bench :=
  let c := B.core k
  match c.cur with
  | none => B
  | some b =>
    let B : Bench := match (c.bank b).task with
      | none => B
      | some t =>
        let e := B.task t
        if e.stopDue then (B.setTask t { e with state := .stopped, stopDue := false }).dropTraps t
        else if e.state = .running then B.setTask t { e with state := .ready }
        else B
    B.modCore k fun c => { c with cur := none }

/-- The running strand's task has a stop due. -/
def Bench.stopDue (B : Bench) (k : CoreNo) : Bool :=
  match (B.core k).cur with
  | none => false
  | some b => match (B.bank k b).task with
    | none => false
    | some t => (B.task t).stopDue

/-- A switch, or a stop of the running strand, is due at core `k`'s next boundary. -/
def Bench.switchDue (B : Bench) (k : CoreNo) : Bool :=
  k ≠ bsc && ((B.switchTarget k).isSome || (B.stopDue k && (B.core k).switchAllowed))

/-- The strand switch of R299: the running strand leaves, and the chosen one, if any, runs. -/
def Bench.switchStrand (B : Bench) (k : CoreNo) : Bench :=
  if !B.switchDue k then B
  else
    let tgt := B.switchTarget k
    let B := B.leave k
    match tgt with
    | none => B
    | some b =>
      let B : Bench := match (B.bank k b).task with
        | none => B
        | some t => B.setTask t { B.task t with state := .running }
      B.modCore k fun c => { c with cur := some b, lastBank := b.val }

/-! ## Return from escalation -/

/-- Bank `b`, not 0, is made ready again, whatever the SOURCE (R264 item 3). -/
def Bench.readyAgain (B : Bench) (k : CoreNo) (b : BankNo) : Bench :=
  match (B.bank k b).task with
  | none => B
  | some t => if b = 0 then B else B.setTask t { B.task t with state := .ready, stopDue := false }

/-- The end of an escalation by ERET (R264); bank 0's PCC then advances past the ERET as the instruction retires. -/
def Bench.endEscalation (B : Bench) (k : CoreNo) : Bench :=
  let c := B.core k
  let src := slice c.escCause.toNat 9 8
  let b : BankNo := Fin.ofNat 8 (slice c.escCause.toNat 12 10)
  let c := { c with escCause := c.escCause &&& 0xFFFFDFFF#32 }
  let c := if src ≤ 1 && b ≠ 0 then c.setBank b { c.bank b with estat := 0, rcv := false } else c
  let c := c.setBank 0 { c.bank 0 with estat := 0 }
  let c := { c with cur := if k = bsc then some 7 else none }
  let B := (B.setCore k c).readyAgain k b
  match (c.bank 0).task with
  | none => B
  | some t =>
    let e := B.task t
    if e.state.live && k ≠ bsc then B.setTask t { e with state := .waiting } else B

end Sys2Proof.Machine
end

