-- ==== Sys2Proof/Machine/Xlate.lean ====
section
/-!
DEFINITION. Machine/Xlate.lean: address translation (chapter 07): page table entries, the walk, the checks at the leaf,
accessed and dirty bits, TLB entries and their invalidation.
-/

namespace Sys2Proof.Machine

/-! ## Page table entries (R328) -/

def pteV (p : Dword) : Bool := p.getLsbD 0
def pteR (p : Dword) : Bool := p.getLsbD 1
def pteW (p : Dword) : Bool := p.getLsbD 2
def pteX (p : Dword) : Bool := p.getLsbD 3
def pteU (p : Dword) : Bool := p.getLsbD 4
def pteG (p : Dword) : Bool := p.getLsbD 5
def pteA (p : Dword) : Bool := p.getLsbD 6
def pteD (p : Dword) : Bool := p.getLsbD 7
def pteSE (p : Dword) : Bool := p.getLsbD 8
def pteC (p : Dword) : Bool := p.getLsbD 9
def pteCaps (p : Dword) : Bool := p.getLsbD 10
def ptePpn (p : Dword) : Nat := slice p.toNat 39 12
def ptePointer (p : Dword) : Bool := !pteR p && !pteW p && !pteX p
/-- Bits [11], [51:40] and [63:60]. -/
def pteReserved (p : Dword) : Bool := (p &&& 0xF00FFF0000000800#64) != 0

/-- A PTE read at level `i` faults PAGE_NOT_PRESENT (R330). -/
def pteBad (i : Nat) (p : Dword) : Bool :=
  !pteV p || pteReserved p
    || (if ptePointer p then i == 0 || slice p.toNat 10 4 != 0
        else (pteW p && !pteR p) || i == 4 || ptePpn p % 2 ^ (9 * i) != 0)

/-- Whose translation an access uses: a core's bank (R344) or a job's captured one (R364). -/
structure Xctx where
  mid : Nat
  origin : Word
  /-- The core whose TLBs serve it; none for the ETU. -/
  core : Option CoreNo
  mode : Nat
  asid : Nat
  root : Nat
  sys : Bool
  deriving DecidableEq, Repr

/-- Virtual width and root level of a mode (R321). -/
def modeWidth (m : Nat) : Nat := if m = 1 then 39 else if m = 2 then 48 else 57
def modeTop (m : Nat) : Nat := if m = 1 then 2 else if m = 2 then 3 else 4

/-- An address is canonical (R98). -/
def canonical (mode va : Nat) : Bool :=
  if mode = 0 then va < 2 ^ 40
  else
    let h := va >>> (modeWidth mode - 1)
    h == 0 || h == 2 ^ (65 - modeWidth mode) - 1

/-- The master identity of the walks: the core's, or 0x51 for the ETU's (R332). -/
def Xctx.walker (x : Xctx) : Nat := if x.core.isSome then x.mid else midEtu

structure Xfault where
  cause : Cause
  level : Nat
  deriving DecidableEq, Repr

/-- A leaf with its level and, when a walk found it, the address of its PTE and the pointer entries passed. -/
structure Leaf where
  pte : Dword
  level : Nat
  ea : Option Nat
  ptrs : List TlbEntry
  deriving DecidableEq, Repr

/-- The walk from the table at physical address `t` of level `i` (R332, R333). -/
def Bench.walk (B : Bench) (x : Xctx) (va : Nat) : Nat → Nat → List TlbEntry → Except Xfault Leaf × Bench
  | i, t, ptrs =>
    if paType t ≠ .normal then (.error ⟨.walkTarget, i⟩, B)
    else
      let ea := t + slice va (12 + 9 * i + 8) (12 + 9 * i) * 8
      let (r, B) := B.readPart x.walker x.origin ea 8 kindWalk .r
      if r.bad then (.error ⟨.walkError, i⟩, B)
      else
        let pte : Dword := BitVec.ofNat 64 (leNat r.bytes)
        if pteBad i pte then (.error ⟨.pageNotPresent, 0⟩, B)
        else if ptePointer pte then
          match i with
          | 0 => (.error ⟨.pageNotPresent, 0⟩, B)
          | j + 1 =>
            let p := TlbEntry.ptr x.asid x.mode j (va % 2 ^ modeWidth x.mode / 2 ^ (12 + 9 * (j + 1))) (ptePpn pte)
            B.walk x va j (ptePpn pte * 4096) (p :: ptrs)
        else (.ok ⟨pte, i, some ea, ptrs⟩, B)

/-! ## TLBs -/

/-- The TLBs that serve an access of a core, the first level in front, or the ETU's (R345). -/
def Bench.tlb (B : Bench) (fetch : Bool) : Option CoreNo → List TlbEntry
  | some k => (if fetch then (B.core k).itlb else (B.core k).dtlb) ++ (B.core k).tlb
  | none => B.trans.etuTlb

/-- Two entries stand for the same page, or are the same pointer. -/
def TlbEntry.same : TlbEntry → TlbEntry → Bool
  | .leaf a m l v _, .leaf a' m' l' v' _ => a == a' && m == m' && l == l' && v == v'
  | .ptr a m l p q, .ptr a' m' l' p' q' => a == a' && m == m' && l == l' && p == p' && q == q'
  | _, _ => false

/-- Entries filled into a TLB of `n` entries: they take the places of those for the same pages, and the oldest go (R345, R346; which
entry goes is a DESIGN CHOICE, log 10). -/
def tlbFill (n : Nat) (new old : List TlbEntry) : List TlbEntry :=
  (new ++ old.filter fun e => !new.any fun f => f.same e).take n

def TlbEntry.isLeaf : TlbEntry → Bool
  | .leaf .. => true
  | .ptr .. => false

/-- The instruction TLB holds 32 entries, the data TLB 64, leaf entries all; the second-level TLB 2,048; the ETU 1,024 (R345, R346). -/
def Bench.fillTlb (B : Bench) (fetch : Bool) (k : Option CoreNo) (l : List TlbEntry) : Bench :=
  match k with
  | some k => B.modCore k fun c =>
    let c := { c with tlb := tlbFill 2048 l c.tlb }
    let l := l.filter TlbEntry.isLeaf
    if fetch then { c with itlb := tlbFill 32 l c.itlb } else { c with dtlb := tlbFill 64 l c.dtlb }
  | none => { B with trans := { B.trans with etuTlb := tlbFill 1024 l B.trans.etuTlb } }

/-- A leaf entry serves the address (R345, R348). -/
def TlbEntry.leafHit (e : TlbEntry) (asid va : Nat) : Option (Dword × Nat) :=
  match e with
  | .leaf a m l vpn pte =>
    if (a == asid || pteG pte) && va % 2 ^ modeWidth m / 2 ^ (12 + 9 * l) == vpn then some (pte, l) else none
  | .ptr .. => none

/-- The lowest pointer entry that leads to the address: its level and table. -/
def ptrHit (x : Xctx) (va : Nat) : List TlbEntry → Option (Nat × Nat)
  | [] => none
  | .leaf .. :: t => ptrHit x va t
  | .ptr a m l pfx ppn :: t =>
    let rest := ptrHit x va t
    if a == x.asid && m == x.mode && va % 2 ^ modeWidth m / 2 ^ (12 + 9 * (l + 1)) == pfx then
      match rest with
      | some (l', q) => if l' < l then some (l', q) else some (l, ppn * 4096)
      | none => some (l, ppn * 4096)
    else rest

/-- The entry leaves a TLB under an invalidation of the scope (R349). -/
def TlbEntry.invalidated (s : InvScope) : TlbEntry → Bool
  | .leaf a m l vpn pte =>
    let has (page : Nat) := page * 4096 % 2 ^ modeWidth m / 2 ^ (12 + 9 * l) == vpn
    match s with
    | .all => true
    | .asid b => a == b && !pteG pte
    | .va p => has p
    | .vaAsid p b => a == b && !pteG pte && has p
  | .ptr a m l pfx _ =>
    let leads (page : Nat) := page * 4096 % 2 ^ modeWidth m / 2 ^ (12 + 9 * (l + 1)) == pfx
    match s with
    | .all => true
    | .asid b => a == b
    | .va p => leads p
    | .vaAsid p b => a == b && leads p

def invalidate (s : InvScope) (t : List TlbEntry) : List TlbEntry := t.filter fun e => !e.invalidated s
/-- An invalidation in every TLB of a core. -/
def Core.invalidate (s : InvScope) (c : Core) : Core :=
  { c with itlb := Machine.invalidate s c.itlb, dtlb := Machine.invalidate s c.dtlb, tlb := Machine.invalidate s c.tlb }
/-- Every entry of a core's TLBs goes (R353). -/
def Core.flushTlbs (c : Core) : Core := { c with itlb := [], dtlb := [], tlb := [] }

/-! ## One part of an access -/

def Access.reads : Access → Bool
  | .load | .atomic | .capLoad | .capAtomic => true
  | _ => false
def Access.writes : Access → Bool
  | .store | .atomic | .capStore | .capAtomic => true
  | _ => false
def Access.isAtomic : Access → Bool
  | .atomic | .capAtomic => true
  | _ => false
def Access.storesTag : Access → Bool
  | .capStore | .capAtomic => true
  | _ => false

/-- The checks at the leaf (R335). -/
def leafCheck (k : Access) (sys nx : Bool) (pte : Dword) (pa : Nat) : Option Cause :=
  let normal := decide (paType pa = .normal)
  if !pteU pte && !sys then some .pageRights
  else if k = .fetch && nx && !pteX pte then some .nxFetch
  else if k = .fetch && !normal then some .nxFetch
  else if k.reads && !pteR pte then some .pageRights
  else if k.writes && !pteW pte then some .pageRights
  else if k.isAtomic && (pteSE pte || !normal || !pteC pte) then some .pageRights
  else if k.storesTag && (!pteCaps pte || !normal) then some .pageCaps
  else none

/-- The checks with translation off (R98, R326, R327). A tagged capability store to an address that is not Normal faults PAGE_CAPS, and
an atomic PAGE_RIGHTS, at an Unpopulated one too (DESIGN CHOICE, log 80: R94 and R327 name the register space and the host window). -/
def offCheck (k : Access) (pa : Nat) : Option Cause :=
  if paType pa = .normal then none
  else if k = .fetch then some .nxFetch
  else if k.isAtomic then some .pageRights
  else if k.storesTag then some .pageCaps
  else none

/-- A part that passed its page checks: where it goes, whether tags may pass, the A or D update still to make and the
TLB entries to fill. -/
structure PageOk where
  pa : Nat
  caps : Bool
  fetch : Bool
  update : Option (Nat × Dword)
  fill : List TlbEntry
  deriving DecidableEq, Repr

def setAD (pte : Dword) (w : Bool) : Dword := pte ||| (if w then 0xC0#64 else 0x40#64)

/-- The page checks of one part at virtual address `va` (R332 to R337, R347). -/
def Bench.pageCheck (B : Bench) (x : Xctx) (va : Nat) (k : Access) : Except Xfault PageOk × Bench :=
  let fetch := decide (k = .fetch)
  if !canonical x.mode va then (.error ⟨.pageNotPresent, 0⟩, B)
  else if x.mode = 0 then
    match offCheck k va with
    | some c => (.error ⟨c, 0⟩, B)
    | none => (.ok ⟨va, decide (paType va = .normal), fetch, none, []⟩, B)
  else
    let nx := B.ctl.nxEnforce
    let t := B.tlb fetch x.core
    let hit := match t.findSome? fun e => (e.leafHit x.asid va).map fun h => (e, h) with
      | some (e, pte, l) => if k.writes && !pteD pte then none else some (e, pte, l)
      | none => none
    match hit with
    | some (e, pte, l) =>
      let pa := ptePpn pte * 4096 + va % 2 ^ (12 + 9 * l)
      match leafCheck k x.sys nx pte pa with
      | some c => (.error ⟨c, 0⟩, B)
      | none => (.ok ⟨pa, pteCaps pte && decide (paType pa = .normal), fetch, none, [e]⟩, B)
    | none =>
      let (l0, t0) := (ptrHit x va t).getD (modeTop x.mode, x.root * 4096)
      let (r, B) := B.walk x va l0 t0 []
      match r with
      | .error f => (.error f, B)
      | .ok lf =>
        let pa := ptePpn lf.pte * 4096 + va % 2 ^ (12 + 9 * lf.level)
        match leafCheck k x.sys nx lf.pte pa with
        | some c => (.error ⟨c, 0⟩, B)
        | none =>
          let new := setAD lf.pte k.writes
          let entry := TlbEntry.leaf x.asid x.mode lf.level
            (va % 2 ^ modeWidth x.mode / 2 ^ (12 + 9 * lf.level)) new
          let upd := if new = lf.pte then none else lf.ea.map fun ea => (ea, new)
          (.ok ⟨pa, pteCaps lf.pte && decide (paType pa = .normal), fetch, upd, entry :: lf.ptrs⟩, B)

/-- The A or D update of a part that passed, and the TLB fill (R337, R339, R346): false where the filter denies the
compare-and-swap. -/
def Bench.pageCommit (B : Bench) (x : Xctx) (p : PageOk) : Bool × Bench :=
  let fillIn (B : Bench) : Bench := if p.fill.isEmpty then B else B.fillTlb p.fetch x.core p.fill
  match p.update with
  | none => (true, fillIn B)
  | some (ea, new) =>
    if !B.mafAllows x.walker ea .rw then (false, B.denied x.walker x.origin ea 8 kindCas)
    else (true, fillIn (B.writeNormal x.walker x.origin ea (leBytes 8 new.toNat)))

end Sys2Proof.Machine
end

