-- ==== Sys2Proof/Machine/Monad.lean ====
section
/-!
DEFINITION. Machine/Monad.lean: the computations of an instruction: they read and change the bench and may fault, and the
instruction words of R118.
-/

namespace Sys2Proof.Machine

/-- Bits [31:28] of the word. -/
def Guard.bits : Guard → BitVec 4
  | .ifp k => BitVec.ofNat 4 k.val
  | .ifnot k => BitVec.ofNat 4 (k.val + 9)

/-- The guard holds in a bank (R121). -/
def Guard.holds (g : Guard) (s : Bank) : Bool :=
  match g with
  | .ifp k => s.getP k
  | .ifnot k => !s.getP (Fin.ofNat 8 (k.val + 1))

/-- The strand that executes an instruction, and the instruction's word. -/
structure Strand where
  core : CoreNo
  bank : BankNo
  word : Word
  deriving DecidableEq, Repr

/-- A computation of an instruction: it may fault. -/
abbrev M := EStateM Trap Bench

/-! ## Instruction words (R118) -/

def encR (g : Guard) (major rd rs1 rs2 fn : Nat) : Word :=
  g.bits ++ BitVec.ofNat 7 major ++ BitVec.ofNat 5 rd ++ BitVec.ofNat 5 rs1 ++ BitVec.ofNat 5 rs2 ++ BitVec.ofNat 6 fn
def encI (g : Guard) (major rd rs1 : Nat) (imm : BitVec 11) : Word :=
  g.bits ++ BitVec.ofNat 7 major ++ BitVec.ofNat 5 rd ++ BitVec.ofNat 5 rs1 ++ imm
def encU (g : Guard) (major rd : Nat) (imm : BitVec 16) : Word :=
  g.bits ++ BitVec.ofNat 7 major ++ BitVec.ofNat 5 rd ++ imm
def encJ (g : Guard) (major : Nat) (off : BitVec 21) : Word := g.bits ++ BitVec.ofNat 7 major ++ off

/-! ## The strand's state -/

def M.fault {α : Type} (c : Cause) (etval : Dword) : M α := fun B => .error { cause := c, etval := etval } B
/-- A fault whose ETVAL holds the instruction word. -/
def M.faultWord {α : Type} (σ : Strand) (c : Cause) : M α := M.fault c (σ.word.zeroExtend 64)
def M.illegal {α : Type} (σ : Strand) : M α := M.faultWord σ .illegal

def M.bank (σ : Strand) : M Bank := fun B => .ok (B.bank σ.core σ.bank) B
def M.setBank (σ : Strand) (s : Bank) : M Unit := fun B => .ok () (B.setBank σ.core σ.bank s)
def M.bench : M Bench := fun B => .ok B B
def M.put (B : Bench) : M Unit := fun _ => .ok () B
def M.core (σ : Strand) : M Core := fun B => .ok (B.core σ.core) B
def M.modCore (σ : Strand) (f : Core → Core) : M Unit := fun B => .ok () (B.modCore σ.core f)
/-- A bench computation that cannot fault, inside an instruction. -/
def M.act {α : Type} (f : S α) : M α := fun B => .ok (f B).1 (f B).2
def M.mod (f : Bench → Bench) : M Unit := fun B => .ok () (f B)

def M.getX (σ : Strand) (r : Reg) : M Word := fun B => .ok ((B.bank σ.core σ.bank).getX r) B
def M.setX (σ : Strand) (r : Reg) (v : Word) : M Unit := M.mod fun B => B.modBank σ.core σ.bank (·.setX r v)
def M.getC (σ : Strand) (r : Reg) : M Cap := fun B => .ok ((B.bank σ.core σ.bank).getC r) B
def M.setC (σ : Strand) (r : Reg) (v : Cap) : M Unit := M.mod fun B => B.modBank σ.core σ.bank (·.setC r v)

/-- A predicate field: bits [4:3] must be zero (R119). -/
def M.predField (σ : Strand) (r : Reg) : M (Fin 8) :=
  if r.val < 8 then pure (Fin.ofNat 8 r.val) else M.illegal σ
/-- A d-register field: the top bit must be zero (R119). -/
def M.dField (σ : Strand) (r : Reg) : M (Fin 16) :=
  if r.val < 16 then pure (Fin.ofNat 16 r.val) else M.illegal σ

/-- A result of Except as an instruction's, its fault with the given ETVAL. -/
def M.ofExcept {α : Type} (etval : Dword) : Except Cause α → M α
  | .ok v => pure v
  | .error c => M.fault c etval
def M.ofExceptWord {α : Type} (σ : Strand) (e : Except Cause α) : M α := M.ofExcept (σ.word.zeroExtend 64) e

/-- The SY set: PCC has SYS (R177). -/
def M.needSys (σ : Strand) : M Unit := do
  let s ← M.bank σ
  if s.pccHas permSYS then pure () else M.faultWord σ .capPerm
/-- The SB set: PCC has SYS and BANK (R177). -/
def M.needBank (σ : Strand) : M Unit := do
  let s ← M.bank σ
  if s.pccHas permSYS && s.pccHas permBANK then pure () else M.faultWord σ .capPerm

end Sys2Proof.Machine
end

