-- ==== Sys2Proof/Machine/Operands.lean ====
section
/-!
DEFINITION. Machine/Operands.lean: the operand forms of the instruction formats (R118 to R120, R166, R184, R204, R212).
-/

namespace Sys2Proof.Machine

/-- An I-format or S-format immediate, sign-extended to 32 bits (R120). -/
def immWord (imm : BitVec 11) : Word := imm.signExtend 32
/-- The byte offset of a load or store (R184). -/
def offBytes (imm : BitVec 11) : Dword := imm.signExtend 64
/-- The offset of a 16-byte access: the immediate times 16 (R184). -/
def offGranules (imm : BitVec 11) : Dword := imm.signExtend 64 <<< 4
/-- A J-format offset in bytes: words times 4 (R120). -/
def offJump (off : BitVec 21) : Dword := off.signExtend 64 <<< 2
/-- A post-increment step of `n` bytes, down when fn[5] is 1 (R185). -/
def cursorStep (down : Bool) (n : Nat) : Dword := if down then 0 - BitVec.ofNat 64 n else BitVec.ofNat 64 n

/-- The VA page of a TLBI operand pair: VA[43:12] and VA[56:44] (R204). -/
def tlbiPage (lo hi : Word) : Nat := lo.toNat + hi.toNat % 2 ^ 13 * 2 ^ 32
/-- The ASID of a TLBI.VA.ASID (R204). -/
def tlbiAsidOf (hi : Word) : Nat := hi.toNat / 2 ^ 16

/-- The signed 64-bit integer of an even-odd pair (R166). -/
def Bank.pair (s : Bank) (r : Reg) : Dword := s.getX (r + 1) ++ s.getX r
def Bank.setPair (s : Bank) (r : Reg) (v : Dword) : Bank :=
  (s.setX r (v.truncate 32)).setX (r + 1) ((v >>> 32).truncate 32)
/-- A pair number is even and from 2 to 30 (R166). -/
def pairOk (r : Reg) : Bool := r.val % 2 == 0 && 2 ≤ r.val && r.val ≤ 30

/-- The unit of a unit-and-ring word (R212). -/
def unitOf (u : Word) : Nat := u.toNat % 1024
def ringOf (u : Word) : Nat := slice u.toNat 17 16
/-- The word names an engine, Clicker or Closer, and every other bit is 0 (R212). -/
def unitWordOk (u : Word) : Bool :=
  1 ≤ unitOf u && unitOf u ≤ 17 && (u &&& 0xFFFCFC00#32) == 0

end Sys2Proof.Machine
end

