-- ==== Sys2Proof/Machine/MafCtl.lean ====
section
/-!
DEFINITION. Machine/MafCtl.lean: the rule sets of the master access filter and their exchange (R374 to R376, R384 to R389), its
registers (R394), and the translation and ETU block (R360, R361, R363, R370).
-/

namespace Sys2Proof.Machine

/-! ## Rule sets -/

/-- An enabled rule is invalid (R375). -/
def MafRule.invalid (r : MafRule) : Bool := r.en && decide (r.limit < r.base)

/-- Two enabled rules overlap (R376). -/
def MafRule.overlaps (r s : MafRule) : Bool :=
  r.en && s.en && decide (r.base ≤ s.limit) && decide (s.base ≤ r.limit)
    && ((r.midv ^^^ s.midv) &&& r.midm &&& s.midm) == 0

/-- The overlapping pair with the lowest first index and then the lowest second. -/
def firstOverlap : Table MafRule → Option (Nat × Nat)
  | [] => none
  | (i, r) :: t =>
    match t.find? fun e => r.overlaps e.2 with
    | some (j, _) => some (i, j)
    | none => firstOverlap t

/-- The check of R385 step 3: REASON, RULE_A and RULE_B. -/
def mafCheck (t : Table MafRule) : Option (Nat × Nat × Nat) :=
  match t.find? fun e => e.2.invalid with
  | some (i, _) => some (1, i, i)
  | none => (firstOverlap t).map fun p => (2, p.1, p.2)

/-- A word of a rule as written: reserved bits read zero (R374). -/
def MafRule.setWord (r : MafRule) (i : Nat) (v : Word) : MafRule :=
  if i = 0 then { r with w0 := v &&& 0x0FFFFFFF#32 }
  else if i = 1 then { r with w1 := v &&& 0x0FFFFFFF#32 }
  else if i = 2 then { r with w2 := v &&& 0x800FFFFF#32 }
  else r
def MafRule.word (r : MafRule) (i : Nat) : Word := if i = 0 then r.w0 else if i = 1 then r.w1 else if i = 2 then r.w2 else 0

/-- A rule of an image: its reserved bits read zero (R374). -/
def MafRule.clean (r : MafRule) : MafRule := ((r.setWord 0 r.w0).setWord 1 r.w1).setWord 2 r.w2

/-! ## The exchange (R385) -/

/-- A swap is refused. -/
def Bench.mafRefuse (B : Bench) (reason a b : Nat) : Bench :=
  ({ B with maf := { B.maf with refused := true, reason := BitVec.ofNat 2 reason, ruleA := BitVec.ofNat 7 a
                                ruleB := BitVec.ofNat 7 b, checking := false } }).raise 578

/-- A write of MAF.CMD. -/
def Bench.mafSwap (B : Bench) (w : Writer) : Bench :=
  if w.mid ≠ midBsc || B.maf.checking then B
  else if !B.maf.drained then B.mafRefuse 3 0 0
  else { B with maf := { B.maf with checking := true } }

/-- The check ends; `outstanding` where a part accepted under the old set has not retired. -/
def Bench.mafCheckEnd (B : Bench) (outstanding : Bool) : Bench :=
  let m := B.maf
  if !m.checking then B
  else
    match mafCheck m.staged with
    | some (reason, a, b) => B.mafRefuse reason a b
    | none =>
      let B := { B with maf := { m with
        bank := !m.bank, gen := m.gen + 1, refused := false, checking := false, reason := 0, ruleA := 0, ruleB := 0
        drained := !outstanding } }
      if outstanding then B.raise 578 else (B.raise 578).raise 579

/-- The last part accepted under the old set retires. -/
def Bench.mafDrainEnd (B : Bench) : Bench :=
  if B.maf.drained then B else ({ B with maf := { B.maf with drained := true } }).raise 579

/-! ## The boot set (R389) -/

/-- The default set: the supervisor core alone has every right everywhere. -/
def mafDefault : Table MafRule := [(0, { w0 := 0, w1 := 0x0FFFFFFF, w2 := 0x800FFF10 })]

def Maf.zero : Maf :=
  { rules0 := [], rules1 := [], bank := false, drained := true, checking := false, refused := false, reason := 0, gen := 0, ruleA := 0
    ruleB := 0, vring := 0, vlock := false, vlockWritten := false, head := 0, tail := 0, vlost := 0 }

/-- The filter as a bench reset leaves it, with the boot set of the image. -/
def mafBoot (boot : Option (List MafRule)) : Maf :=
  match boot with
  | none => { Maf.zero with rules0 := mafDefault, rules1 := mafDefault }
  | some l =>
    let t : Table MafRule := ((l.map MafRule.clean).zipIdx.filter fun e => e.1 ≠ MafRule.zero).map fun e => (e.2, e.1)
    match mafCheck t with
    | none => { Maf.zero with rules0 := t, rules1 := t }
    | some (reason, a, b) =>
      { Maf.zero with rules0 := mafDefault, rules1 := mafDefault, refused := true, reason := BitVec.ofNat 2 reason
                      ruleA := BitVec.ofNat 7 a, ruleB := BitVec.ofNat 7 b }

/-! ## Registers of the filter -/

def Maf.stat (m : Maf) : Word :=
  BitVec.ofNat 32 ((if m.drained then 1 else 0) + (if m.checking then 2 else 0) + (if m.refused then 4 else 0) + m.reason.toNat * 8
    + (if m.bank then 32 else 0) + m.gen.toNat * 2 ^ 8 + m.ruleA.toNat * 2 ^ 16 + m.ruleB.toNat * 2 ^ 23)

def Bench.mafRead (B : Bench) (off : Nat) : Word :=
  let m := B.maf
  let rule (t : Table MafRule) (o : Nat) : Word := (t.get MafRule.zero (o / 16)).word (o % 16 / 4)
  if off = 0x20004 then m.stat
  else if off = 0x20008 then m.vring
  else if off = 0x2000C then (if m.vlock then 1 else 0)
  else if off = 0x20010 then BitVec.ofNat 32 (m.head.toNat % m.ringSize)
  else if off = 0x20014 then BitVec.ofNat 32 (m.tail.toNat % m.ringSize)
  else if off = 0x20018 then m.vlost
  else if 0x21000 ≤ off && off < 0x21800 then rule m.active (off - 0x21000)
  else if 0x22000 ≤ off && off < 0x22800 then rule m.staged (off - 0x22000)
  else 0

/-- A write of MAF.VRING_TAIL; one that fills the ring raises EV_MAF_RING_FULL (R391). -/
def Bench.vringTail (B : Bench) (v : Nat) : Bench :=
  let m := { B.maf with tail := BitVec.ofNat 15 (v % B.maf.ringSize) }
  let was := B.maf.full
  let B := { B with maf := m }
  if m.full && !was then B.raise 577 else B

def Bench.mafWrite (B : Bench) (w : Writer) (off : Nat) (v : Word) : Bench :=
  let m := B.maf
  if off = 0x20000 then if v.getLsbD 0 then B.mafSwap w else B
  else if off = 0x20008 then
    if m.vlock then B else { B with maf := { m with vring := mergeFields [fld 12 12, fldIn 24 4 0 8] m.vring v } }
  else if off = 0x2000C then if m.vlockWritten then B else { B with maf := { m with vlock := v.getLsbD 0, vlockWritten := true } }
  else if off = 0x20014 then B.vringTail (v.toNat % 2 ^ 15)
  else if off = 0x20018 then { B with maf := { m with vlost := v } }
  else if 0x22000 ≤ off && off < 0x22800 && !m.checking then
    let i := (off - 0x22000) / 16
    let r := (m.staged.get MafRule.zero i).setWord ((off - 0x22000) % 16 / 4) v
    { B with maf := m.setStaged (m.staged.set MafRule.zero i r) }
  else B

/-! ## The translation and ETU block -/

/-- The scope that the ETU invalidation registers name (R204, R370). -/
def Bench.etuScopeOf (B : Bench) (scope : BitVec 2) : InvScope :=
  let page := tlbiPage B.trans.etuLo B.trans.etuHi
  let asid := tlbiAsidOf B.trans.etuHi
  match scope.toNat with
  | 0 => .all
  | 1 => .asid asid
  | 2 => .va page
  | _ => .vaAsid page asid

/-- A write of TRANS.ETUINV_CMD with GO (R363): the entries go, and BUSY stays until the accesses through them are done. -/
def Bench.etuCommand (B : Bench) (scope : BitVec 2) : Bench :=
  if B.trans.etuBusy then B
  else { B with trans := { B.trans with
    etuBusy := true, etuScope := scope, etuTlb := invalidate (B.etuScopeOf scope) B.trans.etuTlb } }

/-- A job in flight holds the physical place of an output that the ETU has translated and that is not yet written (R352, R363). -/
def Bench.etuInFlight (B : Bench) : Bool :=
  B.engs.toList.any fun e => match e.job with
    | none => false
    | some j => !j.fin.wait && j.fin.writes.any fun w => match w.1 with | .pa _ => true | .va _ => false

/-- BUSY clears when every access through a removed entry has been performed (R363). -/
def Bench.etuDone (B : Bench) : Bench :=
  if B.etuInFlight then B else { B with trans := { B.trans with etuBusy := false } }

/-- A write of TRANS.SHOOTDB (R360). -/
def Bench.shootdown (B : Bench) (cores : Half) : Bench :=
  let B := { B with trans := { B.trans with shootdb := B.trans.shootdb ||| cores } }
  ((List.range 16).filter fun k => cores.getLsbD k).foldl (fun B k => B.raise (800 + k)) B

def Bench.transRead (B : Bench) (off : Nat) : Word :=
  let t := B.trans
  if off = 0x40000 || off = 0x40004 then t.shootdb.zeroExtend 32
  else if off = 0x40010 then t.etuLo
  else if off = 0x40014 then t.etuHi
  else if off = 0x40018 then (if t.etuBusy then 0x80000000 else 0)
  else if off = 0x40020 then t.bcast.zeroExtend 32
  else 0

def Bench.transWrite (B : Bench) (off : Nat) (v : Word) : Bench :=
  let t := B.trans
  if off = 0x40000 then B.shootdown (v.truncate 16)
  else if off = 0x40004 then { B with trans := { t with shootdb := t.shootdb &&& ~~~(v.truncate 16) } }
  else if off = 0x40010 then { B with trans := { t with etuLo := v } }
  else if off = 0x40014 then { B with trans := { t with etuHi := v &&& 0xFFFF1FFF#32 } }
  else if off = 0x40018 then if v.getLsbD 2 then B.etuCommand (v.truncate 2) else B
  else B

end Sys2Proof.Machine
end

