-- ==== Sys2Proof/Machine/Time.lean ====
section
/-!
DEFINITION. Machine/Time.lean: the time unit: the advance of bench time, steps, the servo, holdover, PPS, bench timers and the
unit's registers (R569 to R572, R603 to R612, R792).
-/

namespace Sys2Proof.Machine

/-! ## Bench time as a count of 1/256 ns -/

def TimeState.units (t : TimeState) : Nat := (t.sec.toNat * 1000000000 + t.ns) * 256 + t.frac.toNat
def TimeState.withUnits (t : TimeState) (n : Nat) : TimeState :=
  { t with frac := BitVec.ofNat 8 n, ns := n / 256 % 1000000000, sec := BitVec.ofNat 48 (n / 256000000000) }

/-- Bench time moves on by `n` units (R571, R610). -/
def TimeState.advance (t : TimeState) (n : Nat) : TimeState :=
  let t' := t.withUnits (t.units + n)
  { t' with elapsed := t.elapsed + (t.part + n) / 256000, part := (t.part + n) % 256000, secondDue := t.secondDue || t'.sec ≠ t.sec }

/-- One microsecond elapses on the bench reference clock, less what snapshots have moved bench time ahead (R571, R603). -/
def TimeState.tick (t : TimeState) : TimeState :=
  let total := (256000 * (2 ^ 48 + t.freq.toInt)).toNat + t.sub
  let n := max 1 (total / 2 ^ 48 - t.ahead)
  { t.advance n with sub := total % 2 ^ 48, ahead := t.ahead + n - total / 2 ^ 48 }

/-- Bench time after a microsecond: free-running (SRC 0) it goes at the reference clock's own rate (R603). -/
def Bench.nextTime (B : Bench) : TimeState :=
  if B.timeSrc = 0 then { ({ B.time with freq := 0 }).tick with freq := B.time.freq } else B.time.tick

/-- Bench time becomes `t`: the watchdog counts the microseconds that have passed (R682). -/
def Bench.setTime (B : Bench) (t : TimeState) : Bench :=
  let B' : Bench := { B with time := t }
  if B.rst.firstFetch && !B.asleep && !B.pwr.halt && !(B.core bsc).dbgHalted then
    { B' with rst := { B.rst with wdogCount := B.rst.wdogCount + (t.elapsed - B.time.elapsed) } }
  else B'

/-- A snapshot of bench time (R217, R571, R612): bench time goes on by a free positive amount, so that the next one differs (log 71). -/
def snapshot (B : Bench) : BitVec 96 × Bench :=
  let v := B.time.value
  let (d, B) := drawByte B
  let n := d.toNat + 1
  (v, B.setTime { B.time.advance n with ahead := B.time.ahead + n })

/-- A bench clock failure (R570, R572, R792): bench time keeps its value and loses its source, its quality and its calibration. -/
def TimeState.clockFailed (t : TimeState) : TimeState :=
  { t with source := 0, holdover := false, quality := 7, freq := 0, locked := false, inBand := 0, outBand := 0, todValid := false
           latcal := Vector.replicate 2 0 }

def Bench.ptpPort (B : Bench) (p : Bool) : Bool := (B.reg 0x310010).getLsbD (if p then 7 else 6)

/-! ## Quality -/

/-- The error bounds of QUALITY 0 to 6, in ps (R570). -/
def qualityBounds : List Nat := [2000, 10000, 100000, 1000000, 10000000, 100000000, 1000000000]
/-- The QUALITY of an error bound. -/
def qualityOf (ps : Nat) : BitVec 3 := BitVec.ofNat 3 (qualityBounds.filter fun b => b < ps).length
/-- The bound that a QUALITY states; for 7, unknown, one beyond them all. -/
def qualityBound (q : BitVec 3) : Nat := qualityBounds.getD q.toNat (1000000000 + 1)

/-- Enter holdover (R606). -/
def Bench.holdover (B : Bench) : Bench :=
  if B.time.holdover || B.time.source = 0 then B
  else
    ({ B with time := { B.time with
      holdover := true, holdBound := qualityBound B.time.quality, holdSince := B.time.elapsed } }).raise 689

/-- Leave holdover. -/
def Bench.endHoldover (B : Bench) : Bench :=
  if B.time.holdover then ({ B with time := { B.time with holdover := false } }).raise 689 else B

/-! ## The servo -/

/-- LOCKED after 16 measurements within 20 ns; cleared after 4 outside 100 ns (R603). `d` is the offset's size in 1/256 ns. -/
def Bench.servoLock (B : Bench) (d : Nat) : Bench :=
  let t := B.time
  let inB := if d ≤ 20 * 256 then t.inBand + 1 else 0
  let outB := if 100 * 256 < d then t.outBand + 1 else 0
  let locked := if 16 ≤ inB then true else if 4 ≤ outB then false else t.locked
  let B := { B with time := { t with inBand := min inB 16, outBand := min outB 4, locked := locked } }
  if locked ≠ t.locked then B.raise 688 else B

/-- A signed 32-bit saturation. -/
def satInt32 (x : Int) : Word := BitVec.ofInt 32 (max (-2147483648) (min 2147483647 x))

/-- A free frequency estimate: the loop's constants are not given. With STEPTH 0 it slews by no more than 500 ppm (R607). -/
def Bench.drawFreq (B : Bench) : Bench :=
  let (lo, B) := drawWord B
  let (hi, B) := drawWord B
  let f : BitVec 64 := hi ++ lo
  let lim : Int := 2 ^ 48 / 2000
  let f := if B.reg 0x310018 = 0 then BitVec.ofInt 64 (max (-lim) (min lim f.toInt)) else f
  { B with time := { B.time with freq := f } }

/-- A measured offset of bench time from its source, in 1/256 ns: a step, or the servo's correction (R603, R607). QUALITY's
estimate is a free value. A step whose TIME_STEP finds no place is left to the next measurement (R593). -/
def Bench.servo (B : Bench) (source : BitVec 2) (off : Int) : Bench :=
  let th := (B.reg 0x310018).toNat * 256
  let (q, B) := drawByte B
  let B := { B with time := { B.time with offset := satInt32 off, source := source, quality := q.truncate 3
                                          todValid := B.time.todValid || source = 1 || source = 2 } }
  let B := B.endHoldover.servoLock off.natAbs
  if th = 0 || off.natAbs ≤ th then B.drawFreq
  else if B.jrnRoom 1 then (B.timeStep (B.time.withUnits (B.time.units - off).toNat)).jrnSettle
  else B

/-- An offset measurement over a port (R603, R606), with what an announce message of that port said of currentUtcOffset and
of the seconds. -/
def Bench.measurement (B : Bench) (p : Bool) (off : BitVec 64) (announce : Option (Half × BitVec 48)) : Bench :=
  if !B.serving 19 || !B.ptpPort p || B.timeSrc = 0 then B
  else
    let B := match announce with
      | some (u, _) => { B with time := { B.time with utcoff := u.zeroExtend 32 ||| 0x10000#32 } }
      | none => B
    if B.timeSrc = 1 then
      let was := B.time.source
      let change := (was = 1 || was = 2) && B.time.port ≠ p
      let B := { B with time := { B.time with port := p } }
      let B := if change then B.raise 692 else B
      B.servo (if p then 2 else 1) off.toInt
    else
      match announce with
      | some (_, s) =>
        let B := { B with time := { B.time with todValid := true } }
        if s = B.time.sec || !B.jrnRoom 1 then B else (B.timeStep { B.time with sec := s }).jrnSettle
      | none => B

/-- The selected source is lost (R606); another enabled port's source within 100 ns is taken over. -/
def Bench.sourceLost (B : Bench) (other : Option (BitVec 64)) : Bench :=
  if B.timeSrc = 0 || B.time.holdover || B.time.source = 0 then B
  else
    match other with
    | some o =>
      if B.timeSrc = 1 && B.ptpPort (!B.time.port) && o.toInt.natAbs ≤ 100 * 256 then
        let p := !B.time.port
        ({ B with time := { B.time with port := p, source := if p then 2 else 1 } }).raise 692
      else B.holdover
    | none => B.holdover

/-! ## PPS and second boundaries (R606, R608) -/

/-- A rejected PPS edge. -/
def Bench.ppsReject (B : Bench) : Bench :=
  let t := B.time
  let B := ({ B with time := { t with ppsOk := false, ppsRej := if t.ppsRej = 0xFF then t.ppsRej else t.ppsRej + 1 } }).raise 691
  if B.timeSrc = 2 then B.holdover else B

/-- A rising edge of BCHn_PPS_IN, `sub` units of 1/256 ns into the present microsecond. -/
def Bench.ppsEdge (B : Bench) (sub : BitVec 18) : Bench :=
  let cfg := B.reg 0x310030
  if !cfg.getLsbD 24 then B
  else
    let at' : Int := (B.time.units + sub.toNat % 256000 : Nat) - (bitsOf cfg 23 0 * 256 / 1000 : Nat)
    let sec : Int := 256000000000
    let s := (at' + sec / 2) / sec
    let off := at' - s * sec
    if 256000000 < off.natAbs || B.time.ppsSecond = some s.toNat then B.ppsReject
    else
      let B := { B with time := { B.time with ppsOk := true, ppsSecond := some s.toNat } }
      if B.timeSrc = 2 && B.serving 19 then B.servo 3 off else B

/-- What happens as bench time passes a second. -/
def Bench.secondBoundary (B : Bench) : Bench :=
  if !B.time.secondDue then B
  else
    let t := { B.time with secondDue := false }
    let t := if t.holdover && t.quality ≠ 7 then
        { t with quality := qualityOf (t.holdBound + bitsOf (B.reg 0x31001C) 15 0 * ((t.elapsed - t.holdSince) / 1000000)) }
      else t
    let t := if (B.reg 0x310010).getLsbD 20 then { t with ppsOut := true, ppsOutSince := t.elapsed } else t
    ({ B with time := t }).raise 693

def Bench.ppsFall (B : Bench) : Bench :=
  if B.time.ppsOut && bitsOf (B.reg 0x310034) 19 0 ≤ B.time.elapsed - B.time.ppsOutSince then
    { B with time := { B.time with ppsOut := false } }
  else B

/-! ## PTP messages and calibration (R604, R605) -/

/-- The messages the instance sends in its profile and mode: Sync 0, Delay_Req 1, Pdelay_Req 2, Pdelay_Resp 3, Delay_Resp 9,
Announce 11. -/
def Bench.ptpSends (B : Bench) (kind : BitVec 4) : Bool :=
  let cfg := B.reg 0x310010
  let peer := bitsOf cfg 3 2 = 1
  if kind = 0 || kind = 11 then !cfg.getLsbD 17
  else if kind = 1 then !peer
  else if kind = 9 then !peer && !cfg.getLsbD 17
  else (kind = 2 || kind = 3) && peer

/-- A PTP message leaves: an event message carries its timestamp when ONESTEP is 1, and a follow-up carries it otherwise. -/
def Bench.ptpSend (B : Bench) (p : Bool) (kind : BitVec 4) : Bench :=
  let cfg := B.reg 0x310010
  if !B.serving 19 || !B.serving (if p then 21 else 20) || !B.ptpPort p || !B.ptpSends kind then B
  else
    let lat := ((B.time.latcal[if p then (1 : Fin 2) else 0]).toNat % 65536) * 256 / 1000
    let stamp := (B.time.withUnits (B.time.units + lat)).value
    let msg (k : BitVec 4) (s : Option (BitVec 96)) : Output := .ptp p k (bitsOf cfg 5 4) (bitsOf cfg 15 8) s
    if kind = 0 || kind = 3 then
      if cfg.getLsbD 16 then B.emit (msg kind (some stamp))
      else (B.emit (msg kind none)).emit (msg (if kind = 0 then 8 else 10) (some stamp))
    else B.emit (msg kind none)

/-- The latency of port `p` is measured. -/
def Bench.latencyCal (B : Bench) (p : Bool) : Bench :=
  let (v, B) := drawWord B
  let i : Fin 2 := if p then 1 else 0
  { B with time := { B.time with latcal := B.time.latcal.set i v } }

/-! ## Bench timers (R610) -/

def Bench.timerWrite (B : Bench) (k : Fin 64) (v : Word) : Bench :=
  let t := B.time.timers[k]
  let period := if v.extractLsb' 0 24 = 0 then t.period else v.extractLsb' 0 24
  let run := v.getLsbD 25 && period ≠ 0
  let t' : Timer := { period := period, periodic := v.getLsbD 24, run := run, due := if run then B.time.elapsed + period.toNat else 0 }
  { B with time := { B.time with timers := B.time.timers.set k t' } }

def Bench.timerExpiry (B : Bench) (k : Fin 64) : Bench :=
  let t := B.time.timers[k]
  if !t.run || B.time.elapsed < t.due then B
  else
    let t' := if t.periodic then { t with due := t.due + t.period.toNat } else { t with run := false, due := 0 }
    ({ B with time := { B.time with timers := B.time.timers.set k t' } }).raise (448 + k.val)

/-! ## Registers (R607, R612) -/

/-- A write of TIME.SET2 (R607): the step waits while its TIME_STEP finds no place (R593). -/
def Bench.timeSet (B : Bench) (v : Word) : Bench :=
  let x : BitVec 96 := v ++ B.time.set1 ++ B.time.set0
  if 999999999 < (x.extractLsb' 18 30).toNat || B.timeSrc = 1 then B
  else if B.time.setDue.isEmpty && B.jrnRoom 1 then (B.timeSetStep x).jrnSettle
  else { B with time := { B.time with setDue := B.time.setDue ++ [x] } }

def TimeState.stat (t : TimeState) : Word :=
  BitVec.ofNat 32 (t.status.toNat + (if t.locked then 2 ^ 10 else 0) + (if t.ppsOk then 2 ^ 11 else 0)
    + (if t.todValid then 2 ^ 12 else 0) + (if t.port then 2 ^ 13 else 0) + t.steps.toNat * 2 ^ 16 + t.ppsRej.toNat * 2 ^ 24)

def Timer.word (t : Timer) : Word :=
  BitVec.ofNat 32 (t.period.toNat + (if t.periodic then 2 ^ 24 else 0) + (if t.run then 2 ^ 25 else 0))

def Bench.timeRead (B : Bench) (off : Nat) : Word × Bench :=
  if off = 0x310000 then
    let (v, B) := snapshot B
    (v.extractLsb' 0 32, { B with time := { B.time with now1 := v.extractLsb' 32 32, now2 := v.extractLsb' 64 32 } })
  else if off = 0x310004 then (B.time.now1, B)
  else if off = 0x310008 then (B.time.now2, B)
  else if off = 0x31000C then (B.time.stat, B)
  else if off = 0x310028 then (B.time.latcal[(0 : Fin 2)], B)
  else if off = 0x31002C then (B.time.latcal[(1 : Fin 2)], B)
  else if off = 0x310044 then (B.time.utcoff, B)
  else if off = 0x310048 then (B.time.offset, B)
  else if 0x310100 ≤ off && off < 0x310200 then ((B.time.timers[Fin.ofNat 64 ((off - 0x310100) / 4)]).word, B)
  else (B.reg off, B)

def Bench.timeWrite (B : Bench) (off : Nat) (v : Word) : Bench :=
  if off = 0x310038 then { B with time := { B.time with set0 := v } }
  else if off = 0x31003C then { B with time := { B.time with set1 := v } }
  else if off = 0x310040 then B.timeSet v
  else if 0x310100 ≤ off && off < 0x310200 then B.timerWrite (Fin.ofNat 64 ((off - 0x310100) / 4)) v
  else B.plainWrite off v

end Sys2Proof.Machine
end

