-- ==== Sys2Proof/Machine/Vault.lean ====
section
/-!
DEFINITION. Machine/Vault.lean: the key vault: slots and runs, handles and their validation, generations, placement and
eviction, key records, VAULT.CMD and the block's registers, zeroisation (R415 to R437, R449 to R461).
-/

namespace Sys2Proof.Machine

/-! ## Slots and runs -/

def Slot.zero : Slot :=
  { gen := 0, occ := false, ext := false, pin := false, retired := false, run := 0, cls := 0, data := [], used := 0 }
def Bench.slot (B : Bench) (s : Nat) : Slot := B.vault.slots.get Slot.zero s
def Bench.setSlot (B : Bench) (s : Nat) (v : Slot) : Bench :=
  { B with vault := { B.vault with slots := B.vault.slots.set Slot.zero s v } }
/-- A slot holds a key's first part. -/
def Slot.first (s : Slot) : Bool := s.occ && !s.ext
/-- A slot may take a key (R427). -/
def Slot.free (s : Slot) : Bool := !s.occ && !s.retired
/-- The state word (R415). -/
def Slot.word (s : Slot) : Word :=
  BitVec.ofNat 32 (s.gen.toNat + (if s.occ then 2 ^ 16 else 0) + (if s.ext then 2 ^ 17 else 0) + (if s.pin then 2 ^ 18 else 0)
    + (if s.retired then 2 ^ 19 else 0) + s.run.toNat * 2 ^ 20 + s.cls.toNat * 2 ^ 24)

/-- The slots of the run that starts at `f`. -/
def Bench.runSlots (B : Bench) (f : Nat) : List Nat := (List.range ((B.slot f).run.toNat + 1)).map (f + ·)
/-- The slots a value of `n` bytes needs (R416). -/
def runLength (n : Nat) : Nat := if n ≤ 96 then 1 else 1 + (n - 96 + 127) / 128

/-! ## Key headers (R417) -/

def hdrWord (h : List Byte) (i : Nat) : Nat := leNat ((h.drop (4 * i)).take 4)
def hdrUsage (h : List Byte) : List Byte := h.take 2
def hdrAlg (h : List Byte) : Nat := (h.getD 2 0).toNat
def hdrMode (h : List Byte) : Nat := (h.getD 3 0).toNat
def hdrVersion (h : List Byte) : List Byte := (h.drop 4).take 2
def hdrExport (h : List Byte) : Nat := (h.getD 6 0).toNat
def hdrDetail (h : List Byte) : Nat := (h.getD 7 0).toNat
def hdrLength (h : List Byte) : Nat := hdrWord h 2 % 4096
def hdrSysOnly (h : List Byte) : Bool := (hdrWord h 2).testBit 16
def hdrPinOnLoad (h : List Byte) : Bool := (hdrWord h 2).testBit 17
def hdrTenant (h : List Byte) : Word := BitVec.ofNat 32 (hdrWord h 3)
def hdrKeyid (h : List Byte) : List Byte := (h.drop 16).take 8

/-- The header of the key in first slot `f`. -/
def Bench.keyHeader (B : Bench) (f : Nat) : List Byte := (B.slot f).data.take 32
/-- The key value of the run at `f` (R416). -/
def Bench.keyValue (B : Bench) (f : Nat) : List Byte :=
  (((B.runSlots f).flatMap fun s => (B.slot s).data).drop 32).take (hdrLength (B.keyHeader f))

/-! ## Generations (R426, R427) -/

/-- One slot of a run is erased and advances, or is retired at GEN 0xFFFF. -/
def Bench.releaseSlot (B : Bench) (s : Nat) : Bench :=
  let g := (B.slot s).gen
  if g = 0xFFFF then (B.setSlot s { Slot.zero with gen := g, retired := true }).raise 584
  else B.setSlot s { Slot.zero with gen := g + 1 }

/-- A run is erased and its generation advances. -/
def Bench.releaseRun (B : Bench) (f : Nat) : Bench := (B.runSlots f).foldl Bench.releaseSlot B

/-- REVOKE: the generation of a run advances and the key stays, unless a slot stands at 0xFFFF. -/
def Bench.revokeRun (B : Bench) (f : Nat) : Bench :=
  let l := B.runSlots f
  if l.any fun s => (B.slot s).gen = 0xFFFF then B.releaseRun f
  else l.foldl (fun B s => B.setSlot s { B.slot s with gen := (B.slot s).gen + 1 }) B

/-- Every slot erased and advanced (R449). -/
def zeroiseSlots : Nat → Nat → Table Slot → Table Slot
  | 0, _, _ => []
  | k + 1, i, t =>
    let (g, t) : Half × Table Slot := match t with
      | (j, s) :: r => if i = j then (s.gen, r) else (0, t)
      | [] => (0, [])
    (i, if g = 0xFFFF then { Slot.zero with gen := g, retired := true } else { Slot.zero with gen := g + 1 })
      :: zeroiseSlots k (i + 1) t

/-- Retired slots take GEN 0 and become free (R427, at every reset that clears every tag). -/
def Vault.freeRetired (v : Vault) : Vault := { v with slots := v.slots.filter fun e => !e.2.retired }

/-! ## Handles -/

/-- A key handle (R83). -/
def keyHandle (cls slot : Nat) (gen : Half) : Cap :=
  Cap.make true 0x0420 (BitVec.ofNat 16 (0xF000 + cls)) 0 0 0 (BitVec.ofNat 64 (slot + gen.toNat * 2 ^ 14))

/-- The classes of R419. -/
def classDefined (c : Nat) : Bool :=
  (1 ≤ c && c ≤ 9) || (0x10 ≤ c && c ≤ 0x16) || c == 0x1C || c == 0x1D

/-- The checks of R420 on the handle itself and its slot, in order: the slot, or the reason. -/
def Bench.handleSlot (B : Bench) (h : Cap) : Except Nat Nat :=
  if !h.tag then .error 0x01
  else if h.otype.toNat < 0xF000 || 0xF0FF < h.otype.toNat then .error 0x02
  else if !h.has permKEY then .error 0x03
  else if 2 ^ 30 ≤ h.cursor.toNat || h.exp ≠ 0 || h.baseM ≠ 0 || h.topM ≠ 0 then .error 0x04
  else
    let nn := h.otype.toNat % 256
    if !classDefined nn then .error 0x05
    else
      let s := h.cursor.toNat % 16384
      let v := B.slot s
      if !v.first then .error 0x06
      else if v.gen.toNat ≠ h.cursor.toNat / 16384 then .error 0x07
      else if v.cls.toNat ≠ nn then .error 0x08
      else .ok s

/-- What a role of an operation accepts (R423, R424): class, usage and mode; then algorithm and detail. -/
structure KeyRole where
  classes : List Nat
  modes : List Char
  fits : List Byte → Bool := fun _ => true

/-- A handle validated for a role (R420, R425): the key's first slot, or the R456 reason. `unit` where the journal unit's
checkpoint job presents it; `special` for public-key derivation and REWRAP, outside which R425 refuses a checkpoint key of a
strand with 0x0B, whatever the role. -/
def Bench.validate (B : Bench) (h : Cap) (r : KeyRole) (sys unit special : Bool) : Except Nat Nat :=
  match B.handleSlot h with
  | .error e => .error e
  | .ok s =>
    let hd := B.keyHeader s
    let cls := (B.slot s).cls.toNat
    if (cls = 0x1C || cls = 0x1D) && !unit && !special then .error 0x0B
    else if !r.classes.contains cls || !(r.modes.isEmpty || r.modes.any fun c => c.toNat = hdrMode hd) then .error 0x09
    else if !r.fits hd then .error 0x0A
    else if hdrSysOnly hd && !sys then .error 0x0B
    else if (cls = 0x1C || cls = 0x1D) && !(unit || (special && sys)) then .error 0x0B
    else .ok s

/-- The slot counts as used now (R433). -/
def Bench.touch (B : Bench) (s : Nat) : Bench :=
  let n := B.vault.uses + 1
  ({ B with vault := { B.vault with uses := n } }).setSlot s { B.slot s with used := n }

/-! ## Placement (R431 steps 7 to 9, R433) -/

/-- The lowest start of `n` consecutive numbers below `top` that a rising list of taken numbers leaves free. -/
def findGap (n top : Nat) : Nat → List Nat → Option Nat
  | s, [] => if s + n ≤ top then some s else none
  | s, k :: t => if s + n ≤ k then some s else findGap n top (k + 1) t

def Bench.takenSlots (B : Bench) : List Nat := (B.vault.slots.filter fun e => !e.2.free).map (·.1)

/-- First slots whose key serves a job in flight. -/
def Bench.keysInUse (B : Bench) : List Nat :=
  B.engs.toList.flatMap fun e => match e.job with
    | some j => j.uses
    | none => []

/-- The run to evict next: the unpinned first slot least recently used among those that serve no job (R433). -/
def Bench.evictChoice (B : Bench) : Option Nat :=
  let busy := B.keysInUse
  (B.vault.slots.filter fun e => e.2.first && !e.2.pin && !busy.contains e.1).foldl (fun best e =>
    match best with
    | none => some e.1
    | some b => if e.2.used < (B.slot b).used then some e.1 else best) none

def Bench.evict (B : Bench) (f : Nat) : Bench :=
  let B := B.releaseRun f
  { B with vault := { B.vault with
    evictions := if B.vault.evictions = 0xFFFFFFFF then B.vault.evictions else B.vault.evictions + 1 } }

/-- A free run of `n` slots anywhere, evicting where AUTOEVICT allows. -/
def Bench.placeAny (n : Nat) : Nat → Bench → Option (Nat × Bench)
  | 0, B => (findGap n 16384 0 B.takenSlots).map fun s => (s, B)
  | k + 1, B =>
    match findGap n 16384 0 B.takenSlots with
    | some s => some (s, B)
    | none =>
      if !B.vault.ctrl.getLsbD 0 then none
      else
        match B.evictChoice with
        | none => none
        | some f => placeAny n k (B.evict f)

def Bench.runFree (B : Bench) (s n : Nat) : Bool :=
  s + n ≤ 16384 && (List.range n).all fun i => (B.slot (s + i)).free

/-- Step 8 of R431 for a run of `n` slots under slot request `aux`: the start, or the reason. -/
def Bench.placeRun (B : Bench) (n aux : Nat) : Except Nat (Nat × Bench) :=
  let s := aux % 16384
  if !aux.testBit 14 then
    match B.placeAny n 16384 with
    | some r => .ok r
    | none => .error 0x15
  else if aux.testBit 15 && (B.slot s).occ then
    if (B.slot s).ext then .error 0x16
    else
      let B' := B.releaseRun s
      if B'.runFree s n then .ok (s, B') else .error 0x16
  else if B.runFree s n then .ok (s, B)
  else .error 0x16

/-- Write a key into the run that starts at `f` (R431 step 9). -/
def Bench.writeKey (B : Bench) (f : Nat) (p : KeyPlan) : Bench :=
  let n := runLength p.value.length
  let all := padTo (128 * n) (p.header ++ p.value)
  let pin := hdrPinOnLoad p.header
  (List.range n).foldl (fun B i =>
    let v := B.slot (f + i)
    B.setSlot (f + i) { v with
      occ := true, ext := decide (i ≠ 0), pin := pin
      run := if i = 0 then BitVec.ofNat 4 (n - 1) else 0
      cls := if i = 0 then BitVec.ofNat 8 p.cls else 0
      data := (all.drop (128 * i)).take 128, used := 0 }) B

/-- A key record of the journal (R455, R577). -/
def keyData (h : List Byte) (cls slot : Nat) (gen : Half) : List Byte :=
  hdrKeyid h ++ [BitVec.ofNat 8 cls] ++ hdrVersion h ++ [0] ++ leBytes 2 slot ++ leBytes 2 gen.toNat

/-- The commit of a key (R431 steps 7 to 9): the first slot, or the reason it fails with and nothing changed. -/
def Bench.vaultCommit (B : Bench) (p : KeyPlan) (origin : Word) : Except Nat Nat × Bench :=
  let replaceAt : Option Nat := if p.aux.testBit 14 && p.aux.testBit 15 then some (p.aux % 16384) else none
  let resident := if !p.load then none
    else (B.vault.slots.find? fun e => e.2.first && hdrKeyid (e.2.data.take 32) = hdrKeyid p.header
      && hdrVersion (e.2.data.take 32) = hdrVersion p.header && (replaceAt.isNone || replaceAt = some e.1)).map (·.1)
  match resident with
  | some f => (.ok f, B.touch f)
  | none =>
    match B.placeRun (runLength p.value.length) p.aux with
    | .error r => (.error r, if r = 0x15 then B.raise 583 else B)
    | .ok (f, B) =>
      let B := (B.writeKey f p).touch f
      let B := match p.journal with
        | none => B
        | some t => B.jrnSystem (BitVec.ofNat 8 t) 0 origin (hdrTenant p.header) (keyData p.header p.cls f (B.slot f).gen)
      (.ok f, B)

/-! ## Key records (R429, R430) -/

/-- The check value of a bench master key (R437). -/
def checkValue (bmk : List Byte) : List Byte := (cmac (aesEnc bmk) 16 (zeros 16)).take 5
/-- The record key (R430). -/
def recordKey (bmk : List Byte) (epoch : Nat) : List Byte :=
  kdfCounter (cmac (aesEnc bmk) 16) (kdfInput (ascii "KX8112 KRK") [BitVec.ofNat 8 epoch] 256) 32

/-- The bytes 0 to 47 of a record of `len` bytes. -/
def recordHead (len epoch cls : Nat) (bmk header : List Byte) : List Byte :=
  leBytes 2 1 ++ leBytes 2 len ++ [BitVec.ofNat 8 epoch, BitVec.ofNat 8 cls, 0, 0] ++ (checkValue bmk).take 4 ++ zeros 4 ++ header
/-- LENGTH of a record for a value of `n` bytes, and W. -/
def recordW (n : Nat) : Nat := (48 + n + 7) / 8 * 8 + 8
def recordLen (n : Nat) : Nat := max 144 ((48 + recordW n + 15) / 16 * 16)

/-- A fresh record under a bench master key. -/
def makeRecord (bmk : List Byte) (epoch cls : Nat) (header value : List Byte) : List Byte :=
  let len := recordLen value.length
  let h := recordHead len epoch cls bmk header
  padTo len (h ++ kwpWrap (recordKey bmk epoch) (h ++ value))

/-- Steps 1 to 5 of R431 on a record: class, header, value, and whether PREVIOUS unwrapped it. -/
def Bench.openRecord (B : Bench) (r : List Byte) : Except Nat (Nat × List Byte × List Byte × Bool) :=
  match B.vault.current with
  | none => .error 0x10
  | some cur =>
    let len := leNat ((r.drop 2).take 2)
    let cls := (r.getD 5 0).toNat
    let header := (r.drop 16).take 32
    let n := hdrLength header
    if leNat (r.take 2) ≠ 1 || len < 144 || 2128 < len || len % 16 ≠ 0 || r.length < len || !classDefined cls
        || n < 1 || 2016 < n || len < recordLen n then .error 0x11
    else if (r.getD 4 0).toNat ≠ B.ctl.epoch.toNat then .error 0x12
    else
      let cv := (r.drop 8).take 4
      let key := if (checkValue cur).take 4 = cv then some (cur, false)
        else match B.vault.previous with
          | some p => if (checkValue p).take 4 = cv then some (p, true) else none
          | none => none
      match key with
      | none => .error 0x13
      | some (k, prev) =>
        match kwpUnwrap (recordKey k B.ctl.epoch.toNat) ((r.drop 48).take (recordW n)) with
        | none => .error 0x14
        | some p => if p.take 48 = r.take 48 && p.length = 48 + n then .ok (cls, header, p.drop 48, prev) else .error 0x14

/-! ## Ceremony end and zeroisation (R445, R449) -/

/-- A ceremony ends without effect; `journal` where CEREMONY_ABORTED stands for it. -/
def Bench.cerEnd (B : Bench) (journal : Bool) : Bench :=
  match B.vault.ceremony with
  | none => B
  | some c =>
    let mask := c.shares.foldl (fun m s => m + 2 ^ s.1) 0
    let B := { B with vault := { B.vault with ceremony := none } }
    if journal then (B.jrnSystem 0x25 0 B.bscOrigin 0 (ceremonyData 0xFF 0 B.ctl.epoch.toNat 0 [] mask)).raise 585
    else B.raise 585

/-- A job in flight loses its keys (R449, R514): KEY_REFUSED with reason 0x1C; what a streaming job has written stands. -/
def Finish.zeroised (f : Finish) : Finish :=
  let ws := f.writes.filter fun w => match w.1 with | .pa _ => true | .va _ => false
  { f with status := 3, detail := 0x1C, opnd := 3, prev := false, progress := if ws.isEmpty then 0 else f.progress, result := 0
           writes := ws, plan := none, record := none, suspend := none, sig := [], keyid := [] }

/-- Zeroisation of the vault (R449); `event` where no reset follows it. -/
def Bench.zeroise (B : Bench) (event : Bool) : Bench :=
  let retire := (B.vault.slots.filter fun e => e.2.gen = 0xFFFF && !e.2.retired).length
  let B := { B with vault := { B.vault with slots := zeroiseSlots 16384 0 B.vault.slots, zeroised := true } }
  let B := (List.range retire).foldl (fun B _ => B.raise 584) B
  let B := B.cerEnd false
  let B := { B with engs := Vector.ofFn fun i => let e := B.engs[i]
                                        if i.val ≤ 13 then { e with job := e.job.map fun j => { j with fin := j.fin.zeroised } } else e }
  if event then B.raise 586 else B

/-! ## VAULT.CMD (R458, R461) -/

/-- A class whose DELETE is refused while the journal unit serves. -/
def Bench.ckLocked (B : Bench) (f : Nat) : Bool :=
  let c := (B.slot f).cls.toNat
  (c = 0x1C || c = 0x1D) && (B.ustate 18).effective = stServing

def Bench.keyRecord (B : Bench) (type : Byte) (origin : Word) (h : List Byte) (cls f : Nat) : Bench :=
  B.jrnSystem type 0 origin (hdrTenant h) (keyData h cls f (B.slot f).gen)

def Bench.deleteRun (B : Bench) (type : Byte) (origin : Word) (f : Nat) : Bench :=
  let h := B.keyHeader f
  let c := (B.slot f).cls.toNat
  (B.releaseRun f).keyRecord type origin h c f

/-- The first slots that PURGE deletes. -/
def Bench.purgeList (B : Bench) (tenant : Word) : List Nat :=
  (B.vault.slots.filter fun e => e.2.first && hdrTenant (e.2.data.take 32) = tenant && !B.ckLocked e.1).map (·.1)

def Bench.vaultInfo (B : Bench) (s : Nat) : Bench :=
  let v := B.slot s
  let info : Vector Word 9 := Vector.ofFn fun i =>
    if i.val = 0 then v.word else if v.first then BitVec.ofNat 32 (hdrWord v.data (i.val - 1)) else 0
  { B with vault := { B.vault with info := info } }

/-- The action of a command: its RESULT. -/
def Bench.vaultAct (B : Bench) (c : VaultCmd) : Nat × Bench :=
  let s := c.arg.toNat % 16384
  let pin (p : Bool) : Bench := (B.runSlots s).foldl (fun B i => B.setSlot i { B.slot i with pin := p }) B
  match c.op.toNat with
  | 1 => (if (B.slot s).first then 0 else 0x06, B.vaultInfo s)
  | 6 => (0, (B.purgeList c.arg).foldl (fun B f => B.deleteRun 0x2D c.origin f) B)
  | 7 => (0, B.cerEnd true)
  | 8 =>
    let B := { B with vault := { B.vault with previous := none } }
    (0, B.jrnSystem 0x26 0 B.bscOrigin 0 (ceremonyData 0xFF 0 B.ctl.epoch.toNat 0 [] 0))
  | op =>
    if !(B.slot s).first then (0x06, B)
    else
      match op with
      | 2 => if B.ckLocked s then (0x0B, B) else (0, B.deleteRun 0x2B c.origin s)
      | 3 =>
        let h := B.keyHeader s
        let k := (B.slot s).cls.toNat
        (0, (B.revokeRun s).keyRecord 0x2C c.origin h k s)
      | 4 => (0, pin true)
      | _ => (0, pin false)

/-- The journal records that a command writes (R593 item 2). -/
def Bench.vaultRecords (B : Bench) (c : VaultCmd) : Nat :=
  match c.op.toNat with
  | 2 | 3 | 8 => 1
  | 6 => (B.purgeList c.arg).length
  | 7 => if B.vault.ceremony.isSome then 1 else 0
  | _ => 0

/-- A command ends (R458), once its records have room. -/
def Bench.vaultEnd (B : Bench) : Bench :=
  match B.vault.cmd with
  | none => B
  | some c =>
    if !B.jrnRoom (B.vaultRecords c) then B
    else
      let (r, B) := B.vaultAct c
      ({ B with vault := { B.vault with cmd := none, result := BitVec.ofNat 8 r } }).raise 582

/-! ## Registers (R457) -/

def Bench.vaultStat (B : Bench) : Word :=
  let v := B.vault
  BitVec.ofNat 32 ((v.slots.filter fun e => e.2.occ).length + (if v.current.isSome then 2 ^ 15 else 0)
    + (if v.previous.isSome then 2 ^ 16 else 0) + B.ctl.epoch.toNat * 2 ^ 17 + (if v.ceremony.isSome then 2 ^ 24 else 0)
    + (if v.zeroised then 2 ^ 25 else 0))

def bmkWord : Option (List Byte) → Word
  | none => 0
  | some k => BitVec.ofNat 32 (leNat ((checkValue k).take 4))

def Bench.vaultCer (B : Bench) : Word :=
  match B.vault.ceremony with
  | none => 0
  | some c => BitVec.ofNat 32 (B.ctl.quorum.toNat + c.shares.length * 2 ^ 5 + (c.shares.foldl (fun m s => m + 2 ^ s.1) 0) * 2 ^ 16)

def Bench.vaultRead (B : Bench) (off : Nat) : Word :=
  let v := B.vault
  if off = 0x100000 then B.vaultStat
  else if off = 0x100004 then v.ctrl.zeroExtend 32
  else if off = 0x100008 then (if v.lock then 1 else 0)
  else if off = 0x100010 then v.arg
  else if off = 0x100014 then BitVec.ofNat 32 ((if v.cmd.isSome then 1 else 0) + v.result.toNat * 2 ^ 8 + v.seq.toNat * 2 ^ 16)
  else if off = 0x100018 then v.evictions
  else if off = 0x10001C then BitVec.ofNat 32 (v.slots.filter fun e => e.2.retired).length
  else if off = 0x100020 then B.vaultCer
  else if off = 0x100024 then bmkWord v.current
  else if off = 0x100028 then bmkWord v.previous
  else if 0x100040 ≤ off && off < 0x100064 then v.info[Fin.ofNat 9 ((off - 0x100040) / 4)]
  else 0

/-- The ORIGIN of a command that `w` writes (R577). -/
def Bench.writerOrigin (B : Bench) : Writer → Word
  | .core k => B.coreOrigin k
  | _ => 0

def Bench.vaultWrite (B : Bench) (w : Writer) (off : Nat) (v : Word) : Bench :=
  if off = 0x100004 then
    if B.vault.lock then B else { B with vault := { B.vault with ctrl := v.extractLsb' 0 2 } }
  else if off = 0x100008 then
    if B.vault.lockWritten then B else { B with vault := { B.vault with lock := v.getLsbD 0, lockWritten := true } }
  else if off = 0x10000C then
    let op := v.extractLsb' 0 4
    if B.vault.cmd.isSome || op = 0 || 8 < op.toNat then B
    else { B with vault := { B.vault with
      cmd := some { op := op, arg := B.vault.arg, origin := B.writerOrigin w }, seq := B.vault.seq + 1 } }
  else if off = 0x100010 then { B with vault := { B.vault with arg := v } }
  else B

end Sys2Proof.Machine
end

