-- ==== Sys2Proof/Machine/Engine.lean ====
section
/-!
DEFINITION. Machine/Engine.lean: what every unit with job rings does (R364 to R367, R462 to R483, R505 to R509, R512 to R515):
submission, arbitration, the checks at a job's begin, translation of operands, random draws, completion, rings and
tokens.
-/

namespace Sys2Proof.Machine

/-! ## Units and rings -/

abbrev UnitNo := Fin 18

def Bench.eng (B : Bench) (u : UnitNo) : Eng := B.engs[u]
def Bench.setEng (B : Bench) (u : UnitNo) (e : Eng) : Bench := { B with engs := B.engs.set u e }
def Bench.modEng (B : Bench) (u : UnitNo) (f : Eng → Eng) : Bench := B.setEng u (f (B.eng u))
def Bench.ring (B : Bench) (u : UnitNo) (r : Fin 4) : Ring := (B.eng u).rings[r]
def Bench.setRing (B : Bench) (u : UnitNo) (r : Fin 4) (v : Ring) : Bench :=
  B.modEng u fun e => { e with rings := e.rings.set r v }

/-- MID of a unit (R371, R462, R518): the engines from 0x20, the DRBG 0x33, the Clickers and Closers 0x2C to 0x2F. -/
def unitMid (u : Nat) : Nat := if u = 13 then midDrbg else if u < 13 then 0x1F + u else 0x1E + u
/-- The first of a unit's four completion events (R462). -/
def unitEvents (u : Nat) : Nat := if u = 13 then 960 else if u ≤ 12 then 380 + 4 * u else 376 + 4 * u

def Ring.entries (r : Ring) : Nat := 8 * 2 ^ r.depth.toNat
/-- Descriptors of a ring in flight. -/
def Eng.inFlight (e : Eng) (r : Fin 4) : Nat :=
  match e.job with
  | some j => if j.ring = some r then 1 else 0
  | none => 0
/-- Completion entries that software has not consumed (R466). -/
def Eng.unread (e : Eng) (r : Fin 4) : Nat := e.rings[r].outstanding - e.rings[r].subs.length - e.inFlight r

/-! ## Completion entries (R467, R469, R476) -/

/-- What a completion entry carries besides COOKIE and PHASE. -/
structure Entry where
  status : Nat
  detail : Nat
  opnd : Nat
  token : Option Nat
  prev : Bool
  progress : Nat
  result : Nat

def entryBytes (e : Entry) (cookie : List Byte) (phase : Bool) : List Byte :=
  let w := e.token.getD 0 + e.opnd % 4 * 2 ^ 8 + (if e.token.isSome then 2 ^ 10 else 0) + (if e.prev then 2 ^ 11 else 0)
    + (if phase then 2 ^ 12 else 0)
  (padTo 4 cookie).take 4 ++ [BitVec.ofNat 8 e.status, BitVec.ofNat 8 e.detail] ++ leBytes 2 w ++ leBytes 4 e.progress
    ++ leBytes 4 e.result

/-- A job's completion counts in ENG.DONE, and in NOTOK where its status is not OK (R470). -/
def Bench.countDone (B : Bench) (u : UnitNo) (status : Nat) : Bench :=
  B.modEng u fun e => { e with
    done := if e.done = 0xFFFFFFFF then e.done else e.done + 1
    notOk := if status = 0 then e.notOk else sat16 e.notOk }

/-- Write a completion entry to a ring, for the strand with the ORIGIN that submitted the job (R17), and raise its event. -/
def Bench.postEntry (B : Bench) (u : UnitNo) (r : Fin 4) (org : Word) (cookie : List Byte) (e : Entry) : Bench :=
  let g := B.ring u r
  let B := B.unitWrite (unitMid u.val) org (g.base.toNat + 16 * g.head) (entryBytes e cookie g.phase)
  let h := (g.head + 1) % g.entries
  let B := B.setRing u r { g with head := h, phase := if h = 0 then !g.phase else g.phase }
  (B.countDone u e.status).raise (unitEvents u.val + r.val)

def cookieOf (desc : List Byte) : List Byte := (desc.drop 12).take 4

/-! ## What a message unit's job leaves when it ends (R559, R560, R563, R568) -/

/-- The pattern set ACTIVE now. -/
def Pat.active (p : Pat) : PatSet := if p.bank then p.bank1 else p.bank0

/-- A stream belongs to the task that submitted its job, or to the bank where it holds none (R556). One owner has at most one on
each unit. -/
def MsgStream.owner (t : MsgStream) (core : CoreNo) (bank : BankNo) (task : Option Nat) : Bool :=
  t.task == task && (task.isSome || (t.core == core && t.bank == bank))

/-- The stream is the one that a submission opened. -/
def MsgStream.of (t : MsgStream) (u r : Nat) (s : Sub) : Bool :=
  t.unit == u && t.ring == r && t.pos == s.seq && t.owner s.core s.bank s.task

/-- The stream of a job that completed: open until everything is popped, or failed. -/
def Bench.streamEnd (B : Bench) (u : UnitNo) (r : Fin 4) (s : Sub) (ok : Bool) : Bench :=
  { B with streams := B.streams.map fun t =>
      if t.of u.val r.val s && (t.phase == .waiting || t.phase == .begun) then
        { t with phase := if ok then .done else .failed }
      else t }

/-- Every open stream of the unit ends (R568). -/
def Bench.streamsEnd (B : Bench) (u : UnitNo) : Bench :=
  { B with streams := B.streams.map fun t => if t.unit = u.val && t.phase != .closed then { t with phase := .failed } else t }

/-- The unit's job in flight ended: one job fewer of those begun under the set before the last exchange, and of those that a
sweep awaits (R108 step 5). -/
def Bench.jobEnded (B : Bench) (u : UnitNo) : Bench :=
  { B with
    pat := { B.pat with old := B.pat.old.filter fun n => n ≠ u.val }
    rake := { B.rake with waitFor := B.rake.waitFor.filter fun n => n ≠ u.val } }

/-- A descriptor that never begins completes RESET (R471, R512). -/
def Bench.resetSub (B : Bench) (u : UnitNo) (r : Fin 4) (detail : Nat) (s : Sub) : Bench :=
  (B.streamEnd u r s false).postEntry u r s.origin (cookieOf s.desc)
    { status := 8, detail := detail, opnd := 3, token := none, prev := false, progress := 0, result := 0 }

/-- Every descriptor waiting in a ring completes RESET, in ring order. -/
def Bench.resetRing (B : Bench) (u : UnitNo) (detail : Nat) (r : Fin 4) : Bench :=
  let subs := (B.ring u r).subs
  let B := B.setRing u r { B.ring u r with subs := [] }
  subs.foldl (fun B s => B.resetSub u r detail s) B

/-- The completion of a unit-queue job that does not end OK (R512). -/
def Bench.unitReturn (B : Bench) (j : UnitJob) (status detail : Nat) (sig keyid : List Byte) : Bench :=
  match j with
  | .checkpoint m seq _ _ =>
    B.ckSigned m seq { status := BitVec.ofNat 8 status, detail := BitVec.ofNat 8 detail, sig := sig, keyid := keyid }
  | .digest token _ _ => B.jrnDigested token (if status = 0 then some sig else none)
  | .tls ident _ _ _ _ _ _ =>
    { B with net := { B.net with tlsDone := B.net.tlsDone ++ [(⟨ident, status, sig⟩ : TlsDone)] } }

/-- A forced reset of the unit (R512), or a bench or device reset (R513): `detail` 1 or 2. The output of the job in flight is
made at its completion, or here where the reset is forced: a resumed job that adds none reports the progress at which it
was resumed (R478, R522). R512 does not name the ring arbiter of R59: a forced reset leaves `lastRing` as it was, DESIGN
CHOICE (log 74). -/
def Bench.resetUnit (B : Bench) (u : UnitNo) (detail : Nat) : Bench :=
  let e := B.eng u
  let B := B.setEng u { e with job := none, tokens := [], unitQ := [] }
  let B := match e.job with
    | none => B
    | some j =>
      match j.ring, j.unit with
      | some r, _ =>
        let ws := j.fin.writes.filter fun w => match w.1 with | .pa _ => true | .va _ => false
        let B := if detail = 1 then ws.foldl (fun B w => match w.1 with
            | .pa a => B.unitWrite (unitMid u.val) j.sub.origin a w.2
            | .va _ => B) B else B
        ((B.streamEnd u r j.sub false).jobEnded u).postEntry u r j.sub.origin (cookieOf j.sub.desc)
          { status := 8, detail := detail, opnd := 3, token := none, prev := false
            progress := if detail = 1 && !ws.isEmpty then j.fin.progress else j.base, result := 0 }
      | none, some q => if detail = 1 then (B.countDone u 8).unitReturn q 8 1 [] [] else B
      | none, none => B
  let B : Bench := (List.finRange 4).foldl (fun (B : Bench) r => B.resetRing u detail r) B
  let B := B.streamsEnd u
  if detail = 1 then e.unitQ.foldl (fun B q => (B.countDone u 8).unitReturn q 8 1 [] []) B else B

/-! ## Submission: ESUB and EPOLL (R212, R213, R466, R467) -/

/-- A descriptor is accepted, or the status that ESUB returns; the position in bits [31:16]. -/
def Bench.submit (B : Bench) (u : UnitNo) (r : Fin 4) (s : Sub) : Word × Bench :=
  let g := B.ring u r
  if !g.en then (3, B)
  else if !B.serving u.val then (2, B)
  else
    if g.outstanding ≥ g.entries then (1, B)
    else
      let pos := g.seq
      (pos ++ (0 : Half), B.setRing u r { g with
        subs := g.subs ++ [{ s with seq := pos }], outstanding := g.outstanding + 1, seq := pos + 1 })

/-- The next completion entry of a ring, read by a core with its MID and ORIGIN (R372), and consumed (R212). -/
def Bench.poll (B : Bench) (mid : Nat) (org : Word) (u : UnitNo) (r : Fin 4) : Option (List Byte) × Bench :=
  let e := B.eng u
  let g := B.ring u r
  if e.unread r = 0 then (none, B)
  else
    let ((l, _), B) := B.unitRead mid org (g.base.toNat + 16 * g.tail) 16
    (some l, B.setRing u r { g with tail := (g.tail + 1) % g.entries, outstanding := g.outstanding - 1 })

/-! ## Jobs: checks and operands (R472 to R474) -/

/-- A job that runs: its unit and what its descriptor says. -/
structure JC where
  u : UnitNo
  sub : Sub
  /-- The job comes from the unit queue. -/
  unit : Bool

def JC.byte (j : JC) (i : Nat) : Nat := (j.sub.desc.getD i 0).toNat
def JC.op (j : JC) : Nat := j.byte 0
def JC.var (j : JC) : Nat := j.byte 1
def JC.resume (j : JC) : Bool := (j.byte 2).testBit 0
def JC.clearKey (j : JC) : Bool := (j.byte 2).testBit 1
def JC.preHash (j : JC) : Bool := (j.byte 2).testBit 2
def JC.token (j : JC) : Nat := j.byte 3
def JC.len (j : JC) : Nat := leNat ((j.sub.desc.drop 4).take 4)
def JC.aux (j : JC) : Nat := leNat ((j.sub.desc.drop 8).take 4)
/-- Operand 0 A, 1 B, 2 C. -/
def JC.opnd (j : JC) (i : Nat) : Cap := capOf ((j.sub.desc.drop (16 * (i + 1))).take 16) (j.sub.tags.getLsbD (i + 1))
def JC.mid (j : JC) : Nat := unitMid j.u.val
def JC.xctx (j : JC) : Xctx :=
  { mid := j.mid, origin := j.sub.origin, core := none, mode := j.sub.mode, asid := j.sub.asid, root := j.sub.root, sys := j.sub.sys }

def Finish.ok (progress result : Nat) (writes : List (OutAt × List Byte)) : Finish :=
  { status := 0, detail := 0, opnd := 3, prev := false, progress := progress, result := result, writes := writes, plan := none
    record := none, suspend := none, param := [], events := [], sig := [], keyid := [], wait := false }
/-- A job that ends with a status other than OK and no output. -/
def Finish.fail (status detail opnd result : Nat) : Finish :=
  { Finish.ok 0 result [] with status := status, detail := detail, opnd := opnd }

/-- The computation of a job: it ends early with a completion. -/
abbrev J := EStateM Finish Bench

def J.fail {α : Type} (status detail opnd : Nat) : J α := fun B => .error (Finish.fail status detail opnd 0) B
def J.bad {α : Type} (detail : Nat) : J α := J.fail 5 detail 3
def J.badInput {α : Type} (detail : Nat) : J α := J.fail 6 detail 3
def J.refuse {α : Type} (reason opnd : Nat) : J α := J.fail (if reason = 7 then 4 else 3) reason opnd
def J.bench : J Bench := fun B => .ok B B
def J.mod (f : Bench → Bench) : J Unit := fun B => .ok () (f B)
def J.guardBad (ok : Bool) (detail : Nat) : J Unit := if ok then pure () else J.bad detail

/-- Random input, drawn at check 6: a job that needs none draws nothing. -/
def J.random (n : Nat) : J (List Byte) := fun B =>
  if n = 0 then .ok [] B
  else
    match B.drbgDraw n with
    | (some l, B) => .ok l B
    | (none, B) => .error (Finish.fail 9 0 3 0) B

/-- What an operation asks of an operand (R473). `n` is how many bytes. -/
inductive OpRole where
  | zero
  | handle (r : KeyRole) (special : Bool)
  | handleOpt (r : KeyRole)
  | rd (n : Nat)
  | wr (n : Nat)
  | rw (n : Nat)
  | hd (n : Nat)
  /-- Judged later by the operation itself. -/
  | later

/-- A handle that passed: its key's first slot, header and value (R422). -/
structure KeyCopy where
  slot : Nat
  cls : Nat
  header : List Byte
  value : List Byte

/-- Check 2 for one operand. -/
def J.checkHandle (j : JC) (i : Nat) (r : OpRole) : J (Option KeyCopy) := do
  let h := j.opnd i
  let go (role : KeyRole) (special : Bool) : J (Option KeyCopy) := do
    let B ← J.bench
    match B.validate h role j.sub.sys j.unit special with
    | .error e => J.refuse e i
    | .ok s =>
      J.mod (·.touch s)
      pure (some { slot := s, cls := (B.slot s).cls.toNat, header := B.keyHeader s, value := B.keyValue s })
  match r with
  | .handle role special => go role special
  | .handleOpt role => if !h.tag && h.bits = 0 then pure none else go role false
  | _ => pure none

/-- A capability that reads or writes `n` bytes at its cursor. -/
def J.checkCap (c : Cap) (i n : Nat) (perms : List Nat) : J Unit :=
  if !c.tag || c.sealed? then J.fail 5 0x04 i
  else if !c.hasAll perms then J.fail 5 0x05 i
  else if c.cursor.toNat < c.base || c.top < c.cursor.toNat + n then J.fail 5 0x06 i
  else pure ()

/-- What R473 asks of a handle destination of `n` bytes, and step 6 of R431 with it. -/
def hdFit (c : Cap) (n : Nat) : Bool :=
  c.tag && !c.sealed? && c.hasAll [permLD, permST, permSTC] && c.cursor.toNat % 16 = 0
    && decide (c.base ≤ c.cursor.toNat) && decide (c.cursor.toNat + max 16 n ≤ c.top)

/-- Check 3 for one operand. -/
def J.checkOperand (j : JC) (i : Nat) (r : OpRole) : J Unit :=
  let c := j.opnd i
  match r with
  | .zero => if !c.tag && c.bits = 0 then pure () else J.fail 5 0x02 i
  | .rd n => J.checkCap c i n [permLD]
  | .wr n => J.checkCap c i n [permST]
  | .rw n => J.checkCap c i n [permLD, permST]
  | .hd n => if hdFit c n then pure () else J.refuse 0x17 i
  | _ => pure ()

/-- The translation of [va, va + n) page by page: the physical pieces, or the cause and offset of the first fault. -/
def Bench.etuPages (B : Bench) (x : Xctx) (k : Access) : Nat → List (Nat × Nat) → (List (Nat × Nat) × Option (Cause × Nat)) × Bench
  | _, [] => (([], none), B)
  | off, (va, n) :: t =>
    match B.pageCheck x va k with
    | (.error f, B) => (([], some (f.cause, off)), B)
    | (.ok p, B) =>
      match B.pageCommit x p with
      | (false, B) => (([], some (.pageNotPresent, off)), B)
      | (true, B) =>
        let ((l, f), B) := B.etuPages x k (off + n) t
        (((p.pa, n) :: l, f), B)
def Bench.etu (B : Bench) (x : Xctx) (k : Access) (va n : Nat) : (List (Nat × Nat) × Option (Cause × Nat)) × Bench :=
  B.etuPages x k 0 (splitAt 4096 (n / 4096 + 2) va n)

/-- Translate a whole operand (R367): a fault ends the job PAGE_FAULT. -/
def J.translate (j : JC) (i : Nat) (k : Access) (va n : Nat) : J (List (Nat × Nat)) := fun B =>
  match B.etu j.xctx k va n with
  | ((l, none), B) => .ok l B
  | ((_, some (c, off)), B) => .error (Finish.fail 2 c.code i off) B

/-- Read translated pieces: the bytes and the offset of the first that cannot be used. -/
def Bench.etuRead (B : Bench) (mid : Nat) (origin : Word) : List (Nat × Nat) → (List Byte × Option Nat) × Bench
  | [] => (([], none), B)
  | (pa, n) :: t =>
    let ((l, bad), B) := B.unitRead mid origin pa n
    let ((m, bad'), B) := B.etuRead mid origin t
    ((l ++ m, match bad with | some o => some o | none => bad'.map (· + n)), B)

def J.readPieces (j : JC) (i : Nat) (ps : List (Nat × Nat)) : J (List Byte) := fun B =>
  match B.etuRead j.mid j.sub.origin ps with
  | ((l, none), B) => .ok l B
  | ((_, some o), B) => .error (Finish.fail 7 0x3F i o) B

/-- Translation and reading of one whole-job operand at check 5 (R367). -/
def J.fetchOperand (j : JC) (i : Nat) (r : OpRole) : J (List (Nat × Nat)) := do
  let va := (j.opnd i).cursor.toNat
  match r with
  | .rd n => J.translate j i .load va n
  | .wr n =>
    let _ ← J.translate j i .store va n
    pure []
  | .rw n =>
    let _ ← J.translate j i .store va n
    J.translate j i .load va n
  | .hd n =>
    let _ ← J.translate j i .capStore va 16
    J.translate j i .load va n
  | _ => pure []

/-- What a whole-job operation works on. -/
structure JIn where
  ka : Option KeyCopy
  kb : Option KeyCopy
  kc : Option KeyCopy
  a : List Byte
  b : List Byte
  c : List Byte
  /-- The random bytes drawn at check 6. -/
  r : List Byte

/-- Check 4 of R474 (R480): the token's entry, freed from step 2 onward. -/
def J.takeToken (j : JC) : J Token := fun B =>
  let inst := (if j.u.val ≤ 4 then j.u.val - 1 else if j.u.val ≤ 6 then j.u.val - 5 else if j.u.val ≤ 10 then j.u.val - 7
    else if j.u.val ≤ 12 then j.u.val - 11 else if j.u.val = 13 then 0 else (j.u.val - 14) % 2)
  if 128 ≤ j.token || j.token / 32 ≠ inst then .error (Finish.fail 10 3 3 0) B
  else
    let e := j.token % 32
    match (B.eng j.u).tokens.find? fun t => t.1 = e with
    | none => .error (Finish.fail 10 1 3 0) B
    | some (_, t) =>
      let B := B.modEng j.u fun g => { g with tokens := g.tokens.filter fun t => t.1 ≠ e }
      let same (d : List Byte) : List Byte := d.take 2 ++ (d.drop 4).take 8 ++ d.drop 16
      if same t.desc ≠ same j.sub.desc || (14 ≤ j.u.val && t.set ≠ B.pat.active.ident) then .error (Finish.fail 10 2 3 0) B else .ok t B

/-- The checks 2 to 6 of a whole-job operation, which needs `draw` random bytes, and the reading of its input. -/
def J.whole (j : JC) (ra rb rc : OpRole) (draw : Nat := 0) : J JIn := do
  let ka ← J.checkHandle j 0 ra
  let kb ← J.checkHandle j 1 rb
  let kc ← J.checkHandle j 2 rc
  J.checkOperand j 0 ra
  J.checkOperand j 1 rb
  J.checkOperand j 2 rc
  if j.resume then
    let _ ← J.takeToken j
    J.fail 10 2 3
  let pa ← J.fetchOperand j 0 ra
  let pb ← J.fetchOperand j 1 rb
  let pc ← J.fetchOperand j 2 rc
  let r ← J.random draw
  let a ← J.readPieces j 0 pa
  let b ← J.readPieces j 1 pb
  let c ← J.readPieces j 2 pc
  pure { ka := ka, kb := kb, kc := kc, a := a, b := b, c := c, r := r }

/-- An output of a whole-job operation to operand `i`. -/
def JC.out (j : JC) (i : Nat) (off : Nat) (l : List Byte) : List (OutAt × List Byte) :=
  if l.isEmpty then [] else [(.va ((j.opnd i).cursor.toNat + off), l)]

/-! ## Streaming operands (R366, R478, R483) -/

/-- Where a stream of bytes stopped: a page's fault or an unusable line, with its offset. -/
inductive Stop where
  | page (c : Cause) (off : Nat)
  | memory (off : Nat)

/-- Input bytes from `from'` up to `n` of operand `i`'s data at `va`, as far as they can be read. -/
def J.streamIn (j : JC) (va from' n : Nat) : J (List Byte × Option Stop) := fun B =>
  let ((ps, f), B) := B.etu j.xctx .load (va + from') (n - from')
  let ((l, bad), B) := B.etuRead j.mid j.sub.origin ps
  match bad with
  | some o => .ok (l.take o, some (.memory (from' + o))) B
  | none => .ok (l, f.map fun p => .page p.1 (from' + p.2)) B

/-- The physical places of output bytes [from', n) at `va`, as far as their pages can be written. -/
def J.streamOut (j : JC) (va from' n : Nat) : J (List (Nat × Nat) × Option Stop) := fun B =>
  let ((ps, f), B) := B.etu j.xctx .store (va + from') (n - from')
  .ok (ps, f.map fun p => .page p.1 (from' + p.2)) B

/-- Lay output bytes on translated pieces. -/
def layOut : List (Nat × Nat) → List Byte → List (OutAt × List Byte)
  | [], _ => []
  | (pa, n) :: t, l => if l.isEmpty then [] else (.pa pa, l.take n) :: layOut t (l.drop n)

/-- The completion of a streaming job that stopped (R366, R478, R479, R483). -/
def stopFinish (s : Stop) (opnd base progress : Nat) (seen param : List Byte) (writes : List (OutAt × List Byte)) : Finish :=
  match s with
  | .page c off =>
    { Finish.fail 2 c.code opnd (base + off) with progress := progress, writes := writes, suspend := some seen, param := param }
  | .memory off => { Finish.fail 7 0x3F opnd (base + off) with progress := progress, writes := writes }

/-! ## Arbitration and begin (R464, R467, R468) -/

/-- The next work of a unit: the unit queue, or a ring of the highest priority. -/
inductive Next where
  | unit (q : UnitJob)
  | ring (r : Fin 4) (s : Sub)

def Eng.next (e : Eng) : Option Next :=
  match e.unitQ with
  | q :: _ => some (.unit q)
  | [] =>
    let waiting := (List.finRange 4).filter fun r => !e.rings[r].subs.isEmpty
    let best := waiting.foldl (fun m r => max m e.rings[r].prio.toNat) 0
    match tie 4 e.lastRing ((waiting.filter fun r => e.rings[r].prio.toNat = best).map (·.val)) with
    | none => none
    | some n =>
      let r : Fin 4 := Fin.ofNat 4 n
      match e.rings[r].subs with
      | s :: _ => some (.ring r s)
      | [] => none

/-- The descriptor that a unit-queue job stands for (R464, R588). -/
def UnitJob.sub (q : UnitJob) : Sub :=
  let mk (desc : List Byte) (tags : BitVec 4) : Sub :=
    { desc := desc, tags := tags, seq := 0, origin := 0, mode := 0, asid := 0, root := 0, sys := true, core := 0, bank := 0, task := none }
  match q with
  | .checkpoint m _ h _ =>
    mk ([1, 2, 0, 0] ++ leBytes 4 128 ++ leBytes 4 (if m then 10 else 0) ++ zeros 4 ++ leBytes 16 h.bits.toNat ++ zeros 32)
      (if h.tag then 2 else 0)
  | .digest _ _ n => mk ([1, 2, 0, 0] ++ leBytes 4 n ++ zeros 56) 0
  | .tls _ s suite _ _ _ data => mk ([if s then 1 else 2, if suite = 3 then 5 else 4, 2, 0] ++ leBytes 4 data.length ++ zeros 56) 0

/-- The translation of a submission is that of another, whose token it resumes (R368, R480). -/
def Sub.under (s t : Sub) : Sub := { s with mode := t.mode, asid := t.asid, root := t.root, sys := t.sys }

/-- The live token entry that a resuming job names. -/
def Bench.tokenNamed (B : Bench) (j : JC) : Option (Nat × Token) :=
  if j.resume then (B.eng j.u).tokens.find? fun t => t.1 = j.token % 32 else none

/-- A job that has taken a token at check 4 keeps the translation of its original submission for its whole life (R364), and
its progress counts from the original start (R480). -/
def Job.resumed (j : Job) (t : Option (Nat × Token)) (e : Eng) : Job :=
  match t with
  | some (i, t) =>
    if j.fin.status = 10 || e.tokens.any fun t => t.1 = i then j
    else { j with sub := j.sub.under t.sub, base := t.progress, fin := { j.fin with progress := max j.fin.progress t.progress } }
  | none => j

/-- A unit takes its next job if `sel` picks its operation; `run` computes its completion. -/
def Bench.engBegin (B : Bench) (u : UnitNo) (sel : Nat → Nat → Bool) (run : JC → Option UnitJob → J Finish)
    (uses : JC → Finish → Bench → List Nat) : Bench :=
  let e := B.eng u
  if e.job.isSome || !B.serving u.val then B
  else
    match e.next with
    | none => B
    | some n =>
      let (sub, unit, ring) : Sub × Option UnitJob × Option (Fin 4) := match n with
        | .unit q => (q.sub, some q, none)
        | .ring r s => (s, none, some r)
      let j : JC := { u := u, sub := sub, unit := unit.isSome }
      if !sel j.op j.var then B
      else
        let B := match n with
          | .unit _ => B.modEng u fun e => { e with unitQ := e.unitQ.tail }
          | .ring r _ =>
            let B := B.setRing u r { B.ring u r with subs := (B.ring u r).subs.tail }
            B.modEng u fun e => { e with lastRing := r.val }
        let tok := B.tokenNamed j
        let (fin, B) : Finish × Bench := match run j unit B with
          | .ok f B => (f, B)
          | .error f B => (f, B)
        let job : Job := { ring := ring, sub := sub, unit := unit, uses := uses j fin B, base := 0, set := B.pat.active.ident, fin := fin }
        B.setEng u { B.eng u with job := some (job.resumed tok (B.eng u)) }

/-- The first slots that a job's handles name. -/
def jobUses (j : JC) (_ : Finish) (B : Bench) : List Nat :=
  [0, 1, 2].filterMap fun i => match B.handleSlot (j.opnd i) with
    | .ok s => some s
    | .error _ => none

/-! ## Completion (R432, R469, R478, R479) -/

/-- The second translation of outputs (R367): the physical writes, or the fault with its address. -/
def Bench.placeOutputs (B : Bench) (x : Xctx) : List (OutAt × List Byte) → Except (Cause × Nat) (List (Nat × List Byte)) × Bench
  | [] => (.ok [], B)
  | (.pa a, l) :: t =>
    match B.placeOutputs x t with
    | (.ok r, B) => (.ok ((a, l) :: r), B)
    | (.error e, B) => (.error e, B)
  | (.va a, l) :: t =>
    match B.etu x .store a l.length with
    | ((_, some f), B) => (.error (f.1, a + f.2), B)
    | ((ps, none), B) =>
      let pieces := ps.foldl (fun (acc : List (Nat × List Byte) × List Byte) p =>
        (acc.1 ++ [(p.1, acc.2.take p.2)], acc.2.drop p.2)) ([], l)
      match B.placeOutputs x t with
      | (.ok r, B) => (.ok (pieces.1 ++ r), B)
      | (.error e, B) => (.error e, B)

/-- Place a job's key and write its handle (R431 step 9, R432). -/
def Bench.placeKey (B : Bench) (x : Xctx) (p : KeyPlan) (origin : Word) : Except Finish Unit × Bench :=
  match B.etu x .capStore p.dest 16 with
  | ((_, some f), B) => (.error (Finish.fail 2 f.1.code 1 0), B)
  | ((ps, none), B) =>
    match B.vaultCommit p origin with
    | (.error r, B) => (.error (Finish.fail 3 r 3 0), B)
    | (.ok s, B) =>
      match ps with
      | (pa, _) :: _ => (.ok (), B.writeGranule x.mid origin pa (keyHandle (B.slot s).cls.toNat s (B.slot s).gen))
      | [] => (.ok (), B)

/-- The outputs of a job are made, or its completion becomes one without output. -/
def Bench.jobOutputs (B : Bench) (j : Job) (mid : Nat) : Finish × Bench :=
  let f := j.fin
  let x : Xctx := { mid := mid, origin := j.sub.origin, core := none, mode := j.sub.mode, asid := j.sub.asid, root := j.sub.root, sys := j.sub.sys }
  match B.placeOutputs x f.writes with
  | (.error (c, a), B) => (Finish.fail 2 c.code 2 (a - (capOf (j.sub.desc.drop 48) true).cursor.toNat), B)
  | (.ok ws, B) =>
    match f.plan with
    | none =>
      let B := ws.foldl (fun B w => B.unitWrite mid j.sub.origin w.1 w.2) B
      let B := match f.record with
        | some (t, tenant, d) => B.jrnSystem (BitVec.ofNat 8 t) 0 j.sub.origin tenant d
        | none => B
      (f, B)
    | some p =>
      match B.placeKey x p j.sub.origin with
      | (.error g, B) => (g, B)
      | (.ok _, B) => (f, ws.foldl (fun B w => B.unitWrite mid j.sub.origin w.1 w.2) B)

/-- The lowest token entry that is free (R479). -/
def Eng.freeToken (e : Eng) : Option Nat := (List.range 32).find? fun i => !e.tokens.any fun t => t.1 = i

/-- A job completes (R469). -/
def Bench.jobComplete (B : Bench) (u : UnitNo) (inst : Nat) : Bench :=
  match (B.eng u).job with
  | none => B
  | some j =>
    let records := (if (j.fin.plan.bind (·.journal)).isSome then 1 else 0) + (if j.fin.record.isSome then 1 else 0)
    if j.fin.wait || !B.jrnRoom records then B
    else
      let (f, B) := B.jobOutputs j (unitMid u.val)
      let B := B.modEng u fun e => { e with job := none }
      let B := B.raiseAll f.events
      match j.ring with
      | none => match j.unit with
        | some q => (B.countDone u f.status).unitReturn q f.status f.detail f.sig f.keyid
        | none => B
      | some r =>
        let (tok, B) : Option Nat × Bench := match f.suspend, (B.eng u).freeToken with
          | some seen, some i =>
            let t : Token := { desc := j.sub.desc, sub := j.sub, seen := seen, param := f.param, progress := f.progress, since := B.time.elapsed, set := j.set }
            (some (i + 32 * inst), B.modEng u fun e => { e with tokens := (i, t) :: e.tokens })
          | _, _ => (none, B)
        ((B.streamEnd u r j.sub (f.status = 0)).jobEnded u).postEntry u r j.sub.origin (cookieOf j.sub.desc)
          { status := f.status, detail := f.detail, opnd := f.opnd, token := tok, prev := f.prev, progress := f.progress
            result := f.result }

/-- A token's lifetime is over (R481). -/
def Bench.tokenExpiry (B : Bench) (u : UnitNo) (i : Nat) : Bench :=
  let e := B.eng u
  match e.tokens.find? fun t => t.1 = i with
  | none => B
  | some (_, t) =>
    if B.time.elapsed - t.since < e.tokttl.toNat * 1000 then B
    else (B.setEng u { e with tokens := e.tokens.filter fun t => t.1 ≠ i, tokDrop := sat16 e.tokDrop }).raise 819

/-! ## Registers (R470, R471) -/

/-- Instance number within the family. -/
def unitInstance (u : Nat) : Nat :=
  if u ≤ 4 then u - 1 else if u ≤ 6 then u - 5 else if u ≤ 10 then u - 7 else if u ≤ 12 then u - 11 else if u = 13 then 0 else (u - 14) % 2
def unitFamily (u : Nat) : Nat := if u ≤ 4 then 1 else if u ≤ 6 then 2 else if u ≤ 10 then 3 else if u ≤ 12 then 4 else if u = 13 then 5 else if u ≤ 15 then 6 else 7

/-- ENG.STAT. -/
def Eng.stat (e : Eng) : Word :=
  let (busy, ring, unitq) : Nat × Nat × Nat := match e.job with
    | none => (0, 0, 0)
    | some j => (1, match j.ring with | some r => r.val | none => 0, if j.unit.isSome then 1 else 0)
  BitVec.ofNat 32 (busy + ring * 2 + unitq * 8 + (if e.katOk then 16 else 0) + (if e.katFail then 32 else 0) + e.tokens.length * 2 ^ 8)

/-- A ring register, at its offset from the ring's first. -/
def Bench.ringRead (B : Bench) (u : UnitNo) (r : Fin 4) (o : Nat) : Word :=
  let g := B.ring u r
  if o = 0x00 then BitVec.ofNat 32 g.base.toNat
  else if o = 0x04 then BitVec.ofNat 32 (g.base.toNat / 2 ^ 32)
  else if o = 0x08 then BitVec.ofNat 32 (g.depth.toNat + g.prio.toNat * 2 ^ 4 + (if g.en then 2 ^ 8 else 0))
  else if o = 0x0C then BitVec.ofNat 32 (g.subs.length + g.outstanding * 2 ^ 8)
  else if o = 0x10 then BitVec.ofNat 32 (g.head + (if g.phase then 2 ^ 16 else 0))
  else if o = 0x14 then BitVec.ofNat 32 g.tail
  else if o = 0x18 then g.seq.zeroExtend 32
  else 0

/-- A write of RING.CFG (R471). -/
def Bench.ringCfg (B : Bench) (u : UnitNo) (r : Fin 4) (v : Word) : Bench :=
  let en := v.getLsbD 8
  let was := (B.ring u r).en
  let B := if was && !en then B.resetRing u 3 r else B
  let g := B.ring u r
  let g := { g with depth := v.extractLsb' 0 2, prio := v.extractLsb' 4 2, en := en }
  let g := if en && !was then { g with head := 0, tail := 0, seq := 0, outstanding := 0, phase := true } else g
  B.setRing u r g

/-- A write of RING.CQTAIL (R466, R471). -/
def Bench.ringTail (B : Bench) (u : UnitNo) (r : Fin 4) (v : Word) : Bench :=
  let g := B.ring u r
  let i := v.toNat % 64
  let moved := (i + g.entries - g.tail % g.entries) % g.entries
  if g.entries ≤ i || (B.eng u).unread r < moved then B
  else B.setRing u r { g with tail := i, outstanding := g.outstanding - moved }

def Bench.ringWrite (B : Bench) (u : UnitNo) (r : Fin 4) (o : Nat) (v : Word) : Bench :=
  let g := B.ring u r
  let cfg := B.configurable u.val
  if o = 0x00 then
    if cfg then B.setRing u r { g with base := BitVec.ofNat 40 (g.base.toNat / 2 ^ 32 * 2 ^ 32 + v.toNat / 16 * 16) } else B
  else if o = 0x04 then
    if cfg then B.setRing u r { g with base := BitVec.ofNat 40 (g.base.toNat % 2 ^ 32 + v.toNat % 256 * 2 ^ 32) } else B
  else if o = 0x08 then if cfg then B.ringCfg u r v else B
  else if o = 0x14 then B.ringTail u r v
  else B

/-- A register of an engine's block, at its offset from the block's base. -/
def Bench.engRead (B : Bench) (u : UnitNo) (o : Nat) : Word :=
  let e := B.eng u
  if o = 0x000 then
    BitVec.ofNat 32 (unitFamily u.val + unitInstance u.val * 2 ^ 4 + unitMid u.val * 2 ^ 8 + u.val * 2 ^ 16)
  else if o = 0x004 then e.stat
  else if o = 0x008 then e.tokttl.zeroExtend 32
  else if o = 0x00C then e.done
  else if o = 0x010 then e.tokDrop ++ e.notOk
  else if o = 0x020 && 7 ≤ u.val && u.val ≤ 10 then e.pinpol.zeroExtend 32
  else if o = 0x020 && u.val = 13 then
    let d := B.drbg
    BitVec.ofNat 32 ((if d.src0 then 1 else 0) + (if d.src1 then 2 else 0) + (if d.error then 4 else 0) + (if d.inst then 8 else 0)
      + d.fails.toNat * 2 ^ 8 + d.reseeds.toNat * 2 ^ 16)
  else if 0x100 ≤ o && o < 0x180 then B.ringRead u (Fin.ofNat 4 ((o - 0x100) / 0x20)) ((o - 0x100) % 0x20)
  else 0

def Bench.engWrite (B : Bench) (u : UnitNo) (o : Nat) (v : Word) : Bench :=
  let cfg := B.configurable u.val
  if o = 0x008 then
    let t := v.toNat % 1024
    if cfg && 1 ≤ t && t ≤ 1000 then B.modEng u fun e => { e with tokttl := BitVec.ofNat 10 t } else B
  else if o = 0x020 && 7 ≤ u.val && u.val ≤ 10 then
    if cfg then B.modEng u fun e => { e with pinpol := v.extractLsb' 0 2 } else B
  else if 0x100 ≤ o && o < 0x180 then B.ringWrite u (Fin.ofNat 4 ((o - 0x100) / 0x20)) ((o - 0x100) % 0x20) v
  else B

/-- The engine whose register block holds an offset (R462), with the offset in the block. -/
def engBlock (off : Nat) : Option (UnitNo × Nat) :=
  let at' (base n : Nat) (first : UnitNo) : Option (UnitNo × Nat) :=
    if base ≤ off && off < base + 0x4000 * n then some (first + Fin.ofNat 18 ((off - base) / 0x4000), (off - base) % 0x4000) else none
  [at' 0x110000 4 1, at' 0x120000 2 5, at' 0x130000 4 7, at' 0x140000 2 11, at' 0x148000 1 13, at' 0x200000 4 14].findSome? id

/-- The reset of a unit's state by a bench reset, after its completions: rings are kept (R470, R513). -/
def Eng.benchReset (e : Eng) : Eng :=
  { e with job := none, unitQ := [], tokens := [], tokttl := 100, done := 0, notOk := 0, tokDrop := 0, lastRing := 3, pinpol := 2
           rings := e.rings.map fun r => { r with subs := [] } }

end Sys2Proof.Machine
end

