-- ==== Sys2Proof/Machine/Pattern.lean ====
section
/-!
DEFINITION. Machine/Pattern.lean: the pattern set (R530 to R533, R544, R545): reading its image, the check of R564, and the
store with its commands and registers (R562 to R567).
-/

namespace Sys2Proof.Machine

/-! ## Reading an image -/

def bytesAt (l : List Byte) (off n : Nat) : List Byte := (l.drop off).take n
def natAt (l : List Byte) (off n : Nat) : Nat := leNat (bytesAt l off n)
def allZero (l : List Byte) : Bool := l.all (· == 0)

def setNpat (i : List Byte) : Nat := natAt i 8 2
def setNprof (i : List Byte) : Nat := natAt i 10 2
def setNrule (i : List Byte) : Nat := natAt i 12 2
def setNname (i : List Byte) : Nat := natAt i 14 2
def setConst (i : List Byte) : Nat := natAt i 16 4
def setId (i : List Byte) : Word := BitVec.ofNat 32 (natAt i 4 4)

def setRules (i : List Byte) : Nat := 64 + 16 * setNpat i
def setProfs (i : List Byte) : Nat := setRules i + 16 * setNrule i
def setNames (i : List Byte) : Nat := setProfs i + 4096 * setNprof i
def setPool (i : List Byte) : Nat := setNames i + 32 * setNname i

def patternOf (i : List Byte) (n : Nat) : List Byte := bytesAt i (64 + 16 * n) 16
def ruleOf (i : List Byte) (n : Nat) : List Byte := bytesAt i (setRules i + 16 * n) 16
def profileOf (i : List Byte) (n : Nat) : List Byte := bytesAt i (setProfs i + 4096 * n) 4096
def nameOf (i : List Byte) (n : Nat) : List Byte := bytesAt i (setNames i + 32 * n) 32
def poolOf (i : List Byte) (off n : Nat) : List Byte := bytesAt i (setPool i + off) n

/-! A pattern (R544). -/
def patFirst (p : List Byte) : Nat := natAt p 0 2
def patNrules (p : List Byte) : Nat := natAt p 2 2
def patSrc (p : List Byte) : Nat := natAt p 4 1
def patDst (p : List Byte) : Nat := natAt p 5 1

/-! A rule (R545). -/
def rOpc (r : List Byte) : Nat := natAt r 0 1
def rConv (r : List Byte) : Nat := natAt r 1 1
def rFlags (r : List Byte) : Nat := natAt r 2 1
def rMode (r : List Byte) : Nat := natAt r 3 1
def rSrc (r : List Byte) : Nat := natAt r 4 4
def rDst (r : List Byte) : Nat := natAt r 8 4
def rArg (r : List Byte) : Nat := natAt r 12 4
def rOpt (r : List Byte) : Bool := (rFlags r).testBit 0
def rEach (r : List Byte) : Bool := (rFlags r).testBit 1

/-! A profile (R531 to R533). -/
def profMode (p : List Byte) : Nat := natAt p 0 1
def profEdition (p : List Byte) : Nat := natAt p 1 1
def profMti (p : List Byte) : Nat := natAt p 2 1
def profBm (p : List Byte) : Nat := natAt p 3 1
def profRoot (p : List Byte) : Nat := natAt p 4 2
def profUnknownOk (p : List Byte) : Bool := (natAt p 6 1).testBit 0
/-- The word of element `e`. -/
def profElem (p : List Byte) (e : Nat) : Nat := natAt p (64 + 4 * (e - 1)) 4
def profNs (p : List Byte) (n : Nat) : List Byte := bytesAt p (1088 + 128 * n) 128
def nsPlen (n : List Byte) : Nat := natAt n 0 1
def nsUlen (n : List Byte) : Nat := natAt n 1 1
def nsPrefix (n : List Byte) : List Byte := bytesAt n 2 (nsPlen n)
def nsUri (n : List Byte) : List Byte := bytesAt n 17 (nsUlen n)
def nsUsed (n : List Byte) : Bool := nsUlen n != 0
/-- The ASCII code of an EBCDIC code; none where it has no mapping. -/
def profAscii (p : List Byte) (b : Byte) : Option Nat :=
  let a := natAt p (832 + b.toNat) 1
  if a = 0xFF then none else some a
/-- The EBCDIC code of an ASCII code. -/
def profEbcdic (p : List Byte) (c : Nat) : Option Byte :=
  ((List.range 256).find? fun e => profAscii p (BitVec.ofNat 8 e) = some c).map (BitVec.ofNat 8 ·)
def nameNs (n : List Byte) : Nat := natAt n 0 1
def nameLocal (n : List Byte) : List Byte := bytesAt n 2 (natAt n 1 1)

/-! An element word (R532). -/
def elForm (w : Nat) : Nat := slice w 1 0
def elPrefix (w : Nat) : Nat := slice w 4 2
def elEnc (w : Nat) : Nat := slice w 8 5
def elUnit (w : Nat) : Bool := w.testBit 9
def elTlv (w : Nat) : Bool := w.testBit 10
def elNum (w : Nat) : Bool := w.testBit 11
def elSign (w : Nat) : Bool := w.testBit 12
def elLen (w : Nat) : Nat := slice w 25 16
def isBcd (enc : Nat) : Bool := enc == 3 || enc == 4
def isChars (enc : Nat) : Bool := enc == 1 || enc == 2 || enc == 5

/-! ## The check of a set (R564) -/

def padded16 (n : Nat) : Nat := (n + 15) / 16 * 16
def setLength (i : List Byte) : Nat := setPool i + padded16 (setConst i)

def headerOk (i : List Byte) (srclen : Nat) : Bool :=
  natAt i 0 2 == 1 && allZero (bytesAt i 2 2) && allZero (bytesAt i 24 40) && setNpat i ≤ 256 && setNprof i ≤ 32
    && setNrule i ≤ 4096 && setNname i ≤ 4096 && setConst i ≤ 65536 && natAt i 20 4 == setLength i && natAt i 20 4 == srclen
    && i.length == srclen

def patternOk (i : List Byte) (n : Nat) : Bool :=
  let p := patternOf i n
  let k := patNrules p
  1 ≤ k && k ≤ 4096 && patFirst p + k ≤ setNrule i && patSrc p < setNprof i && patDst p < setNprof i
    && allZero (bytesAt p 6 2) && allZero (bytesAt p 12 4)
    && (List.range k).all fun m => (rOpc (ruleOf i (patFirst p + m)) == 0) == (m + 1 == k)

/-- The target encoding of a rule: the element's ENC or the MTI's, UTF-8, or binary (R548). -/
def targetEnc (dp : List Byte) (r : List Byte) : Nat :=
  match profMode dp with
  | 1 => if rDst r = 0 then profMti dp + 1 else elEnc (profElem dp (rDst r))
  | 3 => 5
  | _ => 0

/-- The encoding in which a Clicker gives a source under its profile (R534, R535, R537, R540); none where the source profile
does not fix it: a supplied value, or an element the profile does not define (log 89). -/
def sourceEnc (sp : List Byte) (src : Nat) : Option Nat :=
  match src / 2 ^ 28 with
  | 0 =>
    let w := profElem sp (src % 256)
    if src % 256 = 0 || elForm w = 0 then none else some (elEnc w)
  | 1 => some 0
  | 2 | 3 => some 5
  | 5 => if src % 4 = 0 then some (profMti sp + 1) else some (if profBm sp = 0 then 0 else 5 + profBm sp)
  | _ => none

/-- A combination of conversion, target encoding and source encoding (where it is known) that R548 describes. `ber` holds for a
BER-TLV target, which takes digits as packed BCD and characters as UTF-8. -/
def convDescribed (ber : Bool) (enc conv arg : Nat) (src : Option Nat) : Bool :=
  let hexChars (e : Nat) : Bool := isChars e || e == 6 || e == 7
  match conv with
  | 1 => (isChars enc || ber) && src.all isChars
  | 2 => if isBcd enc || ber then src.all isChars else isChars enc && src.all isBcd
  | 3 => isChars enc || ber || (isBcd enc && !arg.testBit 10)
  | 4 => isChars enc || ber || (isBcd enc && slice arg 15 8 ≤ 7)
  | 5 => if enc = 0 then src.all hexChars else hexChars enc && src.all (· == 0)
  | 6 => if enc = 0 then src.all isChars else isChars enc && src.all (· == 0)
  | _ => true

def layoutKnown (n : Nat) : Bool := (1 ≤ n && n ≤ 7) || (0x11 ≤ n && n ≤ 0x13)
/-- ARG as the conversion defines it (R548 to R550), its pool references within CONSTLEN. -/
def convArgOk (i : List Byte) (conv arg : Nat) : Bool :=
  match conv with
  | 3 => arg < 2 ^ 13
  | 4 => arg < 2 ^ 16 && layoutKnown (slice arg 7 0) && layoutKnown (slice arg 15 8)
  | 7 => slice arg 15 0 + 16 * slice arg 31 16 ≤ setConst i
  | 8 => slice arg 15 0 + slice arg 31 16 ≤ setConst i
  | 9 => arg < 2 ^ 16
  | _ => arg == 0

def srcKindSuits (kind mode : Nat) : Bool :=
  match kind with
  | 0 | 5 => mode == 1
  | 1 => mode == 1 || mode == 2
  | 2 | 3 => mode == 3
  | 4 => true
  | _ => false

/-- A rule that converts a source: FIELD, ATTR, TEXT. -/
def rWrites (opc : Nat) : Bool := opc == 1 || opc == 4 || opc == 5
/-- A rule without a source. -/
def rSourceless (r : List Byte) : Bool := !rWrites (rOpc r) || rConv r == 8 || rConv r == 9

/-- A rule by itself. -/
def ruleOk (i : List Byte) (r : List Byte) : Bool :=
  let opc := rOpc r
  opc ≤ 5 && rFlags r ≤ 3 && rMode r ≤ 4 && (rMode r == 0 || (rWrites opc && rConv r == 3))
    && (if rWrites opc then rConv r ≤ 9 && convArgOk i (rConv r) (rArg r) else rConv r == 0 && rFlags r == 0)
    && (!rSourceless r || rSrc r == 0)
    && (match opc with
      | 0 => rDst r == 0 && rArg r == 0
      | 2 => rArg r ≤ 1
      | 3 => rDst r == 0 && rArg r == 0
      | 5 => rDst r == 0
      | _ => true)

/-- A rule in a pattern. -/
def ruleFits (i : List Byte) (p r : List Byte) : Bool :=
  let dp := profileOf i (patDst p)
  let mode := profMode dp
  let opc := rOpc r
  let sets := (opc == 1 || opc == 2 || opc == 4)
  (match mode with
    | 1 => opc ≤ 1 && !rEach r && (opc == 0 || rDst r ≤ 192)
    | 2 => opc ≤ 3 && (!sets || (1 ≤ rDst r && rDst r < 2 ^ 24)) && (opc != 2 || rArg r == 0)
    | 3 => !sets || rDst r < setNname i
    | _ => false)
    && (!rWrites opc || convDescribed (mode == 2) (targetEnc dp r) (rConv r) (rArg r)
      (if rSourceless r then none else sourceEnc (profileOf i (patSrc p)) (rSrc r)))
    && (rSourceless r || srcKindSuits (rSrc r / 2 ^ 28) (profMode (profileOf i (patSrc p))))

def ruleGood (i : List Byte) (n : Nat) : Bool :=
  let r := ruleOf i n
  ruleOk i r && (List.range (setNpat i)).all fun k =>
    let p := patternOf i k
    !(patFirst p ≤ n && n < patFirst p + patNrules p) || ruleFits i p r

def elementOk (e w : Nat) : Bool :=
  if elForm w = 0 || e = 1 || e = 65 then w == 0
  else elPrefix w ≤ 3 && elEnc w ≤ 7 && slice w 15 13 == 0 && 1 ≤ elLen w && elLen w ≤ 999 && w < 2 ^ 26

def profileGood (i : List Byte) (n : Nat) : Bool :=
  let p := profileOf i n
  let mode := profMode p
  let ed := profEdition p
  1 ≤ mode && mode ≤ 3 && (if mode = 1 then ed ≤ 2 || ed == 0xFF else ed == 0) && profMti p ≤ 2 && profBm p ≤ 2
    && natAt p 6 1 ≤ 1 && allZero (bytesAt p 7 57) && allZero (bytesAt p 2112 1984)
    && ((List.range 192).all fun k => elementOk (k + 1) (profElem p (k + 1)))
    && ((List.range 8).all fun k => nsPlen (profNs p k) ≤ 15 && nsUlen (profNs p k) ≤ 111)
    && (mode != 3 || profRoot p == 0xFFFF || profRoot p < setNname i)

def nameGood (i : List Byte) (n : Nat) : Bool :=
  let e := nameOf i n
  1 ≤ natAt e 1 1 && natAt e 1 1 ≤ 30
    && (nameNs e == 0xFF || (nameNs e < 8 && (List.range (setNprof i)).any fun k =>
      let p := profileOf i k
      profMode p == 3 && nsUsed (profNs p (nameNs e))))

/-- The first failure: REASON and INDEX. -/
def setCheck (s : PatSet) : Option (Nat × Nat) :=
  let i := s.image
  let first (reason n : Nat) (ok : Nat → Bool) : Option (Nat × Nat) :=
    ((List.range n).find? fun k => !ok k).map fun k => (reason, k)
  if !s.usable || !headerOk i s.srclen then some (1, 0)
  else [first 2 (setNpat i) (patternOk i), first 3 (setNrule i) (ruleGood i), first 4 (setNprof i) (profileGood i),
    first 5 (setNname i) (nameGood i)].findSome? id

/-! ## The store -/

def Pat.staged (p : Pat) : PatSet := if p.bank then p.bank0 else p.bank1
def Pat.setStaged (p : Pat) (s : PatSet) : Pat := if p.bank then { p with bank0 := s } else { p with bank1 := s }

/-- The empty set (R562). -/
def PatSet.empty : PatSet :=
  { image := [0x01, 0] ++ zeros 18 ++ leBytes 4 64 ++ zeros 40, srclen := 64, usable := true, ident := 0 }

/-- The store at bench release (R562): the image's set in both banks, or the empty set. -/
def Pat.boot (image : Option (List Byte)) : Pat :=
  let base : Pat :=
    { bank0 := .empty, bank1 := .empty, bank := false, drained := true, refused := false, reason := 0, index := 0, gen := 0, src := 0
      srclen := 0, busy := none, loads := 0, old := [] }
  match image with
  | none => base
  | some l =>
    let s : PatSet := { image := l, srclen := l.length, usable := true, ident := 0 }
    match setCheck s with
    | none => { base with bank0 := s, bank1 := s }
    | some (r, i) => { base with refused := true, reason := r, index := i }

def Bench.patRefuse (B : Bench) (reason index : Nat) (event : Bool) : Bench :=
  let B := { B with pat := { B.pat with refused := true, reason := reason, index := index } }
  if event then B.raise 820 else B

/-- A write of PAT.CMD by the supervisor core (R563). -/
def Bench.patCmd (B : Bench) (op : Nat) : Bench :=
  if B.pat.busy.isSome then B
  else if op = 1 then
    { B with pat := { B.pat with busy := some (.load (B.pat.src.toNat) (B.pat.srclen.toNat)) } }
  else if op = 2 then
    if !B.pat.drained then B.patRefuse 6 0 true else { B with pat := { B.pat with busy := some .swap } }
  else B

/-- The copy of LOAD ends: it is made for the supervisor core, with its MID and ORIGIN (R16, R563). -/
def Bench.patLoadEnd (B : Bench) : Bench :=
  match B.pat.busy with
  | some (.load src len) =>
    let ((l, bad), B) := B.unitRead 0x10 B.bscOrigin (0x1000000000 + src) len
    let n := B.pat.loads + 1
    let s : PatSet := { image := l, srclen := len, usable := bad.isNone, ident := n }
    let B := { B with pat := { B.pat.setStaged s with busy := none, loads := n } }
    if bad.isSome then B.patRefuse 7 0 false else B
  | _ => B

/-- Units whose message job is in flight. -/
def Bench.msgInFlight (B : Bench) : List Nat := [14, 15, 16, 17].filter fun n => (B.eng (Fin.ofNat 18 n)).job.isSome

/-- The check of SWAP ends: the banks exchange, or the swap is refused (R563, R564). -/
def Bench.patSwapEnd (B : Bench) : Bench :=
  match B.pat.busy with
  | some .swap =>
    let B := { B with pat := { B.pat with busy := none } }
    match setCheck B.pat.staged with
    | some (r, i) => B.patRefuse r i true
    | none =>
      let old := B.msgInFlight
      let B := { B with pat := { B.pat with
        bank := !B.pat.bank, gen := B.pat.gen + 1, refused := false, reason := 0, index := 0, drained := old.isEmpty, old := old } }
      let B := B.raise 820
      if old.isEmpty then B.raise 821 else B
  | _ => B

/-- The last job begun under the old set has completed (R563). -/
def Bench.patDrainEnd (B : Bench) : Bench :=
  if B.pat.drained || !B.pat.old.isEmpty then B
  else ({ B with pat := { B.pat with drained := true } } : Bench).raise 821

/-- Registers of R566. -/
def Bench.patRead (B : Bench) (off : Nat) : Word :=
  let p := B.pat
  let i := p.active.image
  if off = 0x210004 then
    BitVec.ofNat 32 ((if p.drained then 1 else 0) + (if p.busy.isSome then 2 else 0) + (if p.refused then 4 else 0) + p.reason * 8
      + (if p.bank then 2 ^ 6 else 0) + p.gen.toNat * 2 ^ 8 + p.index % 2 ^ 13 * 2 ^ 16)
  else if off = 0x210008 then p.src
  else if off = 0x21000C then p.srclen
  else if off = 0x210010 then setId i
  else if off = 0x210014 then setId p.staged.image
  else if off = 0x210018 then BitVec.ofNat 32 (setNpat i + setNprof i * 2 ^ 9 + setNrule i * 2 ^ 16)
  else 0

def Bench.patWrite (B : Bench) (w : Writer) (off : Nat) (v : Word) : Bench :=
  if off = 0x210000 then
    if w.mid = midBsc then B.patCmd (v.toNat % 4) else B
  else if off = 0x210008 then { B with pat := { B.pat with src := v &&& 0x00FFFFF0 } }
  else if off = 0x21000C then
    let n := v.toNat % 2 ^ 20
    if 64 ≤ n && n ≤ 524288 then { B with pat := { B.pat with srclen := BitVec.ofNat 32 n } } else B
  else B

end Sys2Proof.Machine
end

