-- ==== Sys2Proof/Machine/Flags.lean ====
section
/-!
DEFINITION. Machine/Flags.lean: the comparisons and predicate results (R124, R197, R198). The machine has no condition
flags: compares write predicate registers.
-/

namespace Sys2Proof.Machine

/-- The eight register comparisons (R197). -/
def cmpEq (a b : Word) : Bool := a == b
def cmpNe (a b : Word) : Bool := a != b
def cmpLt (a b : Word) : Bool := a.slt b
def cmpLtu (a b : Word) : Bool := a.ult b
def cmpGe (a b : Word) : Bool := !a.slt b
def cmpGeu (a b : Word) : Bool := !a.ult b
def cmpTst (a b : Word) : Bool := (a &&& b) != 0
def cmpTstz (a b : Word) : Bool := (a &&& b) == 0

/-- The byte comparisons, unsigned (R197). -/
def ByteCmp.holds (k : ByteCmp) (a b : Byte) : Bool :=
  match k with
  | .eq => a == b
  | .ne => a != b
  | .ltu => a.ult b
  | .geu => !a.ult b

/-- A logic result, negated on request (R198). -/
def negIf (neg v : Bool) : Bool := if neg then !v else v

/-- PRD's byte: p0 to p7 (R198). -/
def Bank.predByte (s : Bank) : Word :=
  (List.finRange 8).foldl (fun w k => if s.getP k then w ||| (1#32 <<< k.val) else w) 0

/-- PWR: p1 to p7 from bits [7:1] (R198). -/
def Bank.setPreds (s : Bank) (w : Word) : Bank :=
  (List.finRange 8).foldl (fun s k => s.setP k (w.getLsbD k.val)) s

/-- A value written to DCSR (R163): reserved bits read zero, and a reserved RM keeps the old one (R12, R164). -/
def dcsrWrite (old v : Word) : Word :=
  let v := v &&& 0x1F1F1F07#32
  if v.toNat % 8 ≥ 5 then (v &&& 0xFFFFFFF8#32) ||| (old &&& 7#32) else v

end Sys2Proof.Machine
end

