-- ==== Sys2Proof/Machine/SaveArea.lean ====
section
/-!
DEFINITION. Machine/SaveArea.lean: save areas (R208, R287 to R294): the halves of a bank's context in memory, saved by
SAVEL, SAVEU and spills and restored by LOADL, LOADU and loads.
-/

namespace Sys2Proof.Machine

/-- One granule of a save area or a TCB, read with translation off for core `k` (R281, R344). -/
def readGranule (mid : Nat) (org : Word) (pa : Nat) : M Cap := fun B =>
  let (r, B) := B.readPart mid org pa 16 kindRead .r
  if r.bad then .error { cause := .memoryError, etval := BitVec.ofNat 64 pa } B else .ok (capOf r.bytes r.tag) B

/-- A granule that enters a register file, a chain or a list: the load filter of a sweep applies (R109, R208). -/
def readCap (mid : Nat) (org : Word) (pa : Nat) : M Cap := do
  let c ← readGranule mid org pa
  let B ← M.bench
  pure (B.filtered c)

/-- The base of a save area that the capability names, under the checks of R287 and R288. -/
def areaBase (a : Cap) : M Nat :=
  let e : Dword := BitVec.ofNat 64 a.base
  if !a.tag then M.fault .capTag 0
  else if a.otype ≠ otSave then M.fault .capSeal e
  else if a.length ≠ 640 || a.cursor.toNat ≠ a.base || a.base % 16 ≠ 0 then M.fault .capBounds e
  else if !a.hasAll [permLD, permST, permLDC, permSTC] then M.fault .capPerm e
  else if paType a.base ≠ .normal then M.fault .pageCaps e
  else pure a.base

/-- A granule of four words, word 0 at the lowest bytes (R290). -/
def wordGranule (w : List Word) : Cap :=
  { tag := false, bits := BitVec.ofNat 128 (leNat (w.flatMap fun v => leBytes 4 v.toNat)) }

/-- Word `i` of a granule. -/
def Cap.word (c : Cap) (i : Nat) : Word := c.bits.extractLsb' (32 * i) 32

/-- The registers `lo` to `lo + n - 1` of the c file, and of the x file. -/
def Bank.cRange (s : Bank) (lo n : Nat) : List Cap := (List.range n).map fun i => s.getC (Fin.ofNat 32 (lo + i))
def Bank.xRange (s : Bank) (lo n : Nat) : List Word := (List.range n).map fun i => s.getX (Fin.ofNat 32 (lo + i))

/-- Granules 2 to 39 of the lower half (R290). -/
def Bank.lowerHalf (s : Bank) : List Cap :=
  let w := s.xRange 1 15 ++ [s.rc]
  s.cRange 1 15 ++ [s.pcc]
    ++ [wordGranule (w.take 4), wordGranule ((w.drop 4).take 4), wordGranule ((w.drop 8).take 4), wordGranule (w.drop 12)]
    ++ [wordGranule [(s.predByte &&& 0xFE#32) ||| (if s.rcv then 0x100#32 else 0#32), 0, 0, 0]]
    ++ List.replicate 17 Cap.null

/-- Granules 2 to 39 of the upper half (R290). -/
def Bank.upperHalf (s : Bank) : List Cap :=
  let w := s.xRange 16 16
  s.cRange 16 16 ++ s.d.toList.map (fun d => { tag := false, bits := d })
    ++ [wordGranule (w.take 4), wordGranule ((w.drop 4).take 4), wordGranule ((w.drop 8).take 4), wordGranule (w.drop 12)]
    ++ [wordGranule [s.dcsr, 0, 0, 0], Cap.null]

/-- Write granules one after another from `pa`. -/
def Bench.writeGranules (B : Bench) (mid : Nat) (org : Word) (pa : Nat) : List Cap → Bench
  | [] => B
  | c :: t => (B.writeGranule mid org pa c).writeGranules mid org (pa + 16) t

/-- The header of a save area (R289). -/
def saveHeader (upper : Bool) (task : Option Nat) (origin : Word) (seq : Dword) : Cap :=
  let w0 := (if upper then 1 else 0) + (match task with | some t => t % 4096 * 2 ^ 16 + 2 ^ 31 | none => 0)
  wordGranule [BitVec.ofNat 32 w0, origin, seq.truncate 32, (seq >>> 32).truncate 32]

/-- The area a save takes: the head of SAFREE, or the emergency area (R293). The flag says which. -/
def saveSource (k : CoreNo) : M (Cap × Bool) := fun B =>
  let c := B.core k
  if c.safree.tag then .ok (c.safree, false) B
  else if c.emergBusy then .error { cause := .capTag, etval := 0 } B
  else .ok (c.saemerg, true) B

/-- SAVEL or SAVEU of bank `b` of core `k` (R208, R293); `org` is the ORIGIN its accesses carry. SAFREE takes granule 0 of the area
used, the emergency area included, as R208's pseudocode has it (DEDUCED, log 77). -/
def saveHalf (k : CoreNo) (b : BankNo) (upper : Bool) (org : Word) : M Unit := do
  let (a, emerg) ← saveSource k
  let base ← areaBase a
  let next ← readCap (midCore k) org base
  let B ← M.bench
  let s := B.bank k b
  let seq := (B.core k).saves + 1
  let half := if upper then s.upperHalf else s.lowerHalf
  let B := B.writeGranules (midCore k) org (base + 16) (saveHeader upper s.task (B.origin k b) seq :: half)
  let B := B.writeGranule (midCore k) org base s.sachain
  let B := B.modBank k b fun s => { s with sachain := a }
  let B := B.modCore k fun c =>
    { c with saves := seq, safree := next, emergBusy := c.emergBusy || emerg }
  M.put (if emerg then B.raise 1012 else B)

/-- Granules read one after another from `pa`. -/
def readGranules (mid : Nat) (org : Word) : Nat → Nat → M (List Cap)
  | _, 0 => pure []
  | pa, n + 1 => do
    let c ← readCap mid org pa
    let t ← readGranules mid org (pa + 16) n
    pure (c :: t)

/-- Restore the lower half from granules 2 to 22 (R290). -/
def Bank.restoreLower (s : Bank) (g : List Cap) : Bank :=
  let s := (List.range 15).foldl (fun s i => s.setC (Fin.ofNat 32 (i + 1)) (g.getD i Cap.null)) s
  let w (i : Nat) : Word := (g.getD (16 + i / 4) Cap.null).word (i % 4)
  let s := (List.range 15).foldl (fun s i => s.setX (Fin.ofNat 32 (i + 1)) (w i)) s
  let p := (g.getD 20 Cap.null).word 0
  { s.setPreds p with pcc := g.getD 15 Cap.null, rc := w 15, rcv := p.getLsbD 8 }

/-- Restore the upper half from granules 2 to 38 (R290). -/
def Bank.restoreUpper (s : Bank) (g : List Cap) : Bank :=
  let s := (List.range 16).foldl (fun s i => s.setC (Fin.ofNat 32 (i + 16)) (g.getD i Cap.null)) s
  let s := (List.range 16).foldl (fun s i => s.setD (Fin.ofNat 16 i) (g.getD (16 + i) Cap.null).bits) s
  let w (i : Nat) : Word := (g.getD (32 + i / 4) Cap.null).word (i % 4)
  let s := (List.range 16).foldl (fun s i => s.setX (Fin.ofNat 32 (i + 16)) (w i)) s
  { s with dcsr := dcsrWrite s.dcsr ((g.getD 36 Cap.null).word 0) }

/-- LOADL or LOADU of bank `b` of core `k` (R208, R294). -/
def loadHalf (k : CoreNo) (b : BankNo) (upper : Bool) (org : Word) : M Unit := do
  let B ← M.bench
  let a := (B.bank k b).sachain
  let base ← areaBase a
  let h ← readGranule (midCore k) org (base + 16)
  if (h.word 0).getLsbD 0 != upper then M.fault .capSeal (BitVec.ofNat 64 base)
  let g ← readGranules (midCore k) org (base + 32) (if upper then 37 else 21)
  let g0 ← readCap (midCore k) org base
  let B ← M.bench
  let B := B.modBank k b fun s => { (if upper then s.restoreUpper g else s.restoreLower g) with sachain := g0 }
  let c := B.core k
  if c.saemerg.tag && c.saemerg.base = base then
    M.put (B.setCore k { c with emergBusy := false })
  else
    let B := B.writeGranule (midCore k) org base c.safree
    M.put (B.modCore k fun c => { c with safree := a })

/-- A bank cleared to the values of R117; its system registers stay (R220, R279). -/
def Bank.clearContext (s : Bank) : Bank :=
  { s with
    x := Vector.replicate 32 0, c := Vector.replicate 32 Cap.null, pcc := Cap.null, p := Vector.replicate 8 false
    rc := 0, rcv := false, d := Vector.replicate 16 0, dcsr := 0, staging := [], pushes := 0
    task := none }

/-- x16 to x31, c16 to c31, d0 to d15 zero and DCSR at reset (R304). -/
def Bank.clearUpper (s : Bank) : Bank := s.restoreUpper []

end Sys2Proof.Machine
end

