-- ==== Sys2Proof/Machine/Sched.lean ====
section
/-!
DEFINITION. Machine/Sched.lean: the hardware scheduler (chapter 06): task control blocks, the commands of SCHED.TCMD,
placement, spill and load, and the scheduler's registers.
-/

namespace Sys2Proof.Machine

/-! ## Task control blocks -/

/-- What the scheduler takes from a TCB (R283, R284). -/
structure Tcb where
  prio : Fin 8
  upper : Bool
  pin : Bool
  cores : Half
  banks : BitVec 7
  atp : Word
  atpRoot : Word
  chain : Cap
  base : Nat
  deriving DecidableEq, Repr

def Sched.tcbTable (s : Sched) : Nat := s.tcbLo.toNat * 2 ^ 16 + s.tcbHi.toNat * 2 ^ 32

/-- A granule as a capability, with translation off; none where it is poisoned (R109, R410). -/
def Bench.granule (B : Bench) (mid : Nat) (org : Word) (pa : Nat) : Option Cap × Bench :=
  let (r, B) := B.readPart mid org pa 16 kindRead .r
  (if r.bad then none else some (B.filtered (capOf r.bytes r.tag)), B)

/-- The checks of R282 on the TCB words of task `t`: the code, or what was read. -/
def tcbOf (t : Nat) (base : Nat) (g0 g1 g2 : Cap) : Except Nat Tcb :=
  let ctl := g0.word 0
  let aff := g0.word 1
  let home := t < 16
  if ctl.toNat / 2 ^ 5 ≠ 0 then .error 0x02
  else if !home && aff.toNat / 2 ^ 23 ≠ 0 then .error 0x02
  else if (g0.word 2).toNat ≠ t then .error 0x03
  else if !home && (slice aff.toNat 15 0 = 0 || slice aff.toNat 22 16 = 0) then .error 0x04
  else .ok
    { prio := Fin.ofNat 8 ctl.toNat, upper := ctl.getLsbD 3, pin := ctl.getLsbD 4
      cores := aff.truncate 16, banks := aff.extractLsb' 16 7
      atp := g1.word 0 &&& 0x3FFFF#32, atpRoot := g1.word 1 &&& 0xFFFFFFF#32, chain := g2, base := base }

/-- The checks of R282 on a table entry. -/
def tcbEntryCheck (e : Cap) : Option Nat :=
  if !e.tag || e.otype ≠ otTcb then some 0x01
  else if !e.hasAll [permLD, permST, permLDC, permSTC] || e.base % 16 ≠ 0 || e.length < 64 then some 0x02
  else none

/-- Read task `t`'s TCB with the given master identity and ORIGIN (R281, R282); a poisoned granule gives code 0x1F (R410). -/
def Bench.readTcb (B : Bench) (mid : Nat) (org : Word) (t : Nat) : Except Nat Tcb × Bench :=
  match B.granule mid org (B.sched.tcbTable + 16 * t) with
  | (none, B) => (.error 0x1F, B)
  | (some e, B) =>
    match tcbEntryCheck e with
    | some c => (.error c, B)
    | none =>
      match B.granule mid org e.base with
      | (none, B) => (.error 0x1F, B)
      | (some g0, B) =>
        match B.granule mid org (e.base + 16) with
        | (none, B) => (.error 0x1F, B)
        | (some g1, B) =>
          match B.granule mid org (e.base + 32) with
          | (none, B) => (.error 0x1F, B)
          | (some g2, B) => (tcbOf t e.base g0 g1 g2, B)

/-- A task becomes FAULTED (R282). -/
def Bench.failTask (B : Bench) (t code : Nat) : Bench :=
  let B := (B.setTask t { B.task t with state := TaskState.faulted, fault := BitVec.ofNat 8 code, stopDue := false }).dropTraps t
  ({ B with sched := { B.sched with faultTask := BitVec.ofNat 12 t, faultCode := BitVec.ofNat 8 code } }).raise 1014

/-- What a TCB read leaves in the scheduler's task state. -/
def Task.withTcb (k : Task) (c : Tcb) : Task :=
  { k with prio := c.prio, upper := c.upper, pin := c.pin, cores := c.cores, banks := c.banks, tcb := c.base }

/-! ## Commands (R296) -/

/-- A command that does not apply (R296). -/
def Bench.badCmd (B : Bench) : Bench :=
  let n := B.sched.badcmd
  { B with sched := { B.sched with badcmd := if n = 0x7FF then n else n + 1 } }

/-- Read the TCB and make the task READY, or FAULTED (R296 START). -/
def Bench.startTask (B : Bench) (t : Nat) : Bench :=
  match B.readTcb midBsc (B.origin bsc 7) t with
  | (.error c, B) => B.failTask t c
  | (.ok c, B) =>
    B.setTask t { (B.task t).withTcb c with state := TaskState.ready, fault := 0 }

def Bench.cmdStart (B : Bench) (t : Nat) : Bench :=
  match (B.task t).state with
  | .empty | .stopped | .faulted => B.startTask t
  | _ => B.badCmd

def Bench.cmdStop (B : Bench) (t : Nat) : Bench :=
  let k := B.task t
  match k.state with
  | .waiting | .ready => (B.setTask t { k with state := TaskState.stopped }).dropTraps t
  | .running => B.setTask t { k with stopDue := true }
  | _ => B.badCmd

def Bench.cmdWake (B : Bench) (t : Nat) : Bench :=
  if (B.task t).state.live then B.wake t else B.badCmd

def Bench.cmdFree (B : Bench) (t : Nat) : Bench :=
  let k := B.task t
  match k.state with
  | .stopped | .faulted =>
    let B := match k.at? with
      | none => B
      | some (c, b) => B.modBank c b Bank.clearContext
    (B.setTask t Task.zero).dropTraps t
  | _ => B.badCmd

/-- SCHED.TCMD (R296, R316). -/
def Bench.taskCommand (B : Bench) (v : Word) : Bench :=
  let t := v.toNat % 4096
  match slice v.toNat 18 16 with
  | 1 => B.cmdStart t
  | 2 => B.cmdStop t
  | 3 => B.cmdWake t
  | 4 => B.cmdFree t
  | _ => B

/-- The home tasks start when the supervisor core's LOCK becomes 1 (R297). -/
def Bench.startHomeTasks (B : Bench) : Bench :=
  (List.range 16).foldl (fun B t => B.cmdStart t) B

/-! ## Placement (R300 to R302) -/

/-- A bank is pinned (R301); a window instruction of this model names a bank only while it executes. -/
def Bench.pinned (B : Bench) (k : CoreNo) (b : BankNo) : Bool :=
  let c := B.core k
  let s := c.bank b
  b = 0 || c.escActive || s.inTrap
    || (B.ctl.lastEnforce && s.last.tag && decide (s.last.cursor.toNat < s.last.top))
    || (match s.task with
        | none => false
        | some t => (B.task t).pin && (B.task t).state ≠ TaskState.stopped)

/-- The allowed banks of core `k` for a task, in the first class of R300 that holds any. -/
def Bench.banksFor (B : Bench) (k : CoreNo) (e : Task) : List BankNo :=
  let allowed := (List.finRange 8).filter fun b => b ≠ 0 && e.banks.getLsbD (b.val - 1)
  let free := allowed.filter fun b => (B.bank k b).task.isNone && !B.pinned k b
  if !free.isEmpty then free
  else
    let held := allowed.filterMap fun b =>
      match (B.bank k b).task with
      | none => none
      | some t => if B.pinned k b then none else some (b, B.task t)
    let lowest (l : List (BankNo × Task)) : List BankNo :=
      let m := l.foldl (fun m p => min m p.2.prio.val) 8
      (l.filter fun p => p.2.prio.val = m).map (·.1)
    let idle := held.filter fun p => p.2.state = TaskState.waiting || p.2.state = TaskState.stopped
    if !idle.isEmpty then lowest idle
    else lowest (held.filter fun p => p.2.state = TaskState.ready && p.2.prio.val < e.prio.val)

/-- The scheduler considers the core for tasks of banks 1 to 7 (R271, R756). -/
def Bench.canPlace (B : Bench) (k : CoreNo) : Bool :=
  let c := B.core k
  c.escLock && !c.halted && !c.gated && !c.parked

/-- The core can begin a placement now (R302, R305): no hold, escalation or placement stands, and its clock runs (R29). A core that
the debugger has halted begins none (DESIGN CHOICE, log 78). -/
def Core.placesNow (c : Core) : Bool :=
  c.hold.isNone && !c.escActive && c.placing.isNone && !c.dbgHalted && !c.clockStopped

/-- The highest priority among a core's running and ready resident tasks plus 1, and its ready resident tasks (R300). -/
def Bench.coreLoad (B : Bench) (k : CoreNo) : Nat × Nat :=
  (List.finRange 8).foldl (fun a b =>
    match (B.bank k b).task with
    | none => a
    | some t =>
      let e := B.task t
      if e.state = TaskState.ready then (max a.1 (e.prio.val + 1), a.2 + 1)
      else if e.state = TaskState.running then (max a.1 (e.prio.val + 1), a.2) else a) (0, 0)

/-- The core and bank that R300 chooses for a task, if any qualifies; home tasks go to bank 0 of their core (R278). The three steps of
R300 share one bank pointer of R59 in each core, which strand switches do not use (DESIGN CHOICE, log 74). -/
def Bench.placeFor (B : Bench) (t : Nat) : Option (CoreNo × BankNo) :=
  let e := B.task t
  if t < 16 then
    let k : CoreNo := Fin.ofNat 17 t
    let c := B.core k
    if (B.core bsc).escLock && !c.halted && !c.gated && !c.escActive && (c.bank 0).task.isNone then some (k, 0) else none
  else
    let ks := (List.finRange 17).filter fun k =>
      k.val < 16 && e.cores.getLsbD k.val && B.canPlace k && !(B.banksFor k e).isEmpty
    let key (k : CoreNo) : Nat := (B.coreLoad k).1 * 16 + (B.coreLoad k).2
    let best := ks.foldl (fun m k => min m (key k)) 1000
    match tie 16 B.sched.lastCore ((ks.filter fun k => key k = best).map (·.val)) with
    | none => none
    | some n =>
      let k : CoreNo := Fin.ofNat 17 n
      match tie 8 (B.core k).lastPlace ((B.banksFor k e).map (·.val)) with
      | none => none
      | some j => some (k, Fin.ofNat 8 j)

/-- Ready tasks without a bank and without a placement in progress. -/
def Bench.unplaced (B : Bench) : List Nat :=
  let placing := (List.finRange 17).filterMap fun k => (B.core k).placing.map (·.task)
  (B.sched.tasks.filter fun e => e.2.state = TaskState.ready && e.2.at?.isNone && !placing.contains e.1).map (·.1)

/-- The task placed next: highest priority first, ties by R59, among those for which R300 chooses a core that can begin (R300, R302). -/
def Bench.placeNext (B : Bench) : Option (Nat × CoreNo × BankNo) :=
  let l := (B.unplaced.filterMap fun t => (B.placeFor t).map fun p => (t, p)).filter fun e => (B.core e.2.1).placesNow
  let best := l.foldl (fun m p => max m (B.task p.1).prio.val) 0
  let l := l.filter fun p => (B.task p.1).prio.val = best
  match tie 4096 B.sched.lastTask (l.map (·.1)) with
  | none => none
  | some t => (l.find? fun p => p.1 = t)

/-- A save area named by SAFREE whose granule 0 is tagged counts as a second one (R303). -/
def spillAvail (k : CoreNo) (b : BankNo) : M Nat := do
  let B ← M.bench
  let a := (B.core k).safree
  if !a.tag then pure 0
  else
    let g ← readCap (midCore k) (B.origin k b) a.base
    pure (if g.tag then 2 else 1)

/-- The spill of R303 up to the chain head's write into the TCB; CAUSE 0 is "no save area". -/
def spillSaves (k : CoreNo) (b : BankNo) (t : Nat) : M Bool := do
  let B ← M.bench
  let e := B.task t
  let need := if e.upper then 2 else 1
  let avail ← spillAvail k b
  if avail < need && (avail + 1 < need || (B.core k).emergBusy) then pure false
  else
    saveHalf k b false (B.origin k b)
    if e.upper then saveHalf k b true (B.origin k b)
    let B ← M.bench
    let s := B.bank k b
    if s.sachain.tag && paType e.tcb ≠ .normal then M.fault .pageCaps (BitVec.ofNat 64 (e.tcb + 32))
    M.put (B.writeGranule (midCore k) (B.origin k b) (e.tcb + 32) s.sachain)
    pure true

/-- A spill (R303): true where the bank is free afterwards; otherwise the core has escalated. -/
def Bench.spill (B : Bench) (k : CoreNo) (b : BankNo) : Bool × Bench :=
  match (B.bank k b).task with
  | none => (true, B)
  | some t =>
    match spillSaves k b t B with
    | .error f B => (false, B.escalate k b f.cause.code 2)
    | .ok false B => (false, B.escalate k b 0 2)
    | .ok true B =>
      let B := B.modBank k b fun s => { s with sachain := Cap.null, task := none, staging := [], pushes := 0 }
      (true, B.setTask t { B.task t with at? := none })

/-- The scheduler makes one placement (R300): it chooses, spills the bank where a task holds it, and reserves it for the
load that follows. -/
def Bench.placement (B : Bench) : Bench :=
  match B.placeNext with
  | none => B
  | some (t, k, b) =>
    let B := { B with sched := { B.sched with lastTask := t, lastCore := if t < 16 then B.sched.lastCore else k.val } }
    let B := if t < 16 then B else B.modCore k fun c => { c with lastPlace := b.val }
    match B.spill k b with
    | (false, B) => B
    | (true, B) => B.modCore k fun c => { c with placing := some { task := t, bank := b } }

/-- The restoring part of a load (R304). -/
def loadHalves (k : CoreNo) (b : BankNo) (c : Tcb) : M Unit := do
  let B ← M.bench
  let org := B.origin k b
  if c.upper then loadHalf k b true org
  else M.mod fun B => B.modBank k b Bank.clearUpper
  loadHalf k b false org

/-- A load of task `t` into free bank `b` (R304). -/
def Bench.load (B : Bench) (k : CoreNo) (b : BankNo) (t : Nat) : Bench :=
  match B.readTcb (midCore k) (B.origin k b) t with
  | (.error c, B) => B.failTask t c
  | (.ok c, B) =>
    let B := B.setTask t ((B.task t).withTcb c)
    let B := B.modBank k b fun s => { s with sachain := c.chain, staging := [], pushes := 0 }
    match loadHalves k b c B with
    | .error f B =>
      let B := B.writeGranule (midCore k) (B.origin k b) (c.base + 32) (B.bank k b).sachain
      let B := B.modBank k b Bank.clearContext
      B.failTask t (0x10 + f.cause.code % 16)
    | .ok () B =>
      let B := B.modBank k b fun s => { s with atp := c.atp, atpRoot := c.atpRoot, instret := 0, task := some t }
      B.setTask t { B.task t with at? := some (k, b) }

/-- The load of core `k`'s placement in progress; a task no longer READY is not loaded (log 12). None begins under a hold or
in escalation (R302). -/
def Bench.taskLoad (B : Bench) (k : CoreNo) : Bench :=
  match (B.core k).placing with
  | none => B
  | some p =>
    if (B.core k).hold.isSome || (B.core k).escActive then B else
    let B := B.modCore k fun c => { c with placing := none }
    if (B.task p.task).state = TaskState.ready && (B.bank k p.bank).task.isNone then B.load k p.bank p.task else B

/-! ## Events -/

/-- The millisecond of bench time (R569). -/
def TimeState.ms (t : TimeState) : Nat := t.sec.toNat * 1000 + t.ns / 1000000

/-- The 1 ms window of the storm limiter ends where bench time has left its millisecond (R313). -/
def Bench.stormRollover (B : Bench) : Bench :=
  if B.sched.stormMs = B.time.ms then B
  else
  let B := { B with sched := { B.sched with stormMs := B.time.ms } }
  (B.sched.evstat.map (·.1)).foldl (fun B n => B.setEv n { B.ev n with window := 0 }) B

/-- Writing 1 to MASKED: the source is unmasked and its pending occurrence delivered (R313). -/
def Bench.unmask (B : Bench) (n : Nat) : Bench := (B.setEv n { B.ev n with masked := false }).deliver n

/-- The settings of event pin `i` (R711): level, active low. -/
def Bench.pinLevel (B : Bench) (i : Nat) : Bool := B.ctl.eventPins.getLsbD (2 * i)
def Bench.pinActive (B : Bench) (i : Nat) (lvl : Bool) : Bool := if B.ctl.eventPins.getLsbD (2 * i + 1) then !lvl else lvl

/-- A sample of an event pin (R315, R785). -/
def Bench.pinSample (B : Bench) (i : Nat) (lvl : Bool) : Bench :=
  let n := 768 + i
  let e := B.ev n
  let B := B.setEv n { e with level := lvl }
  let occurs := if B.pinLevel i then B.pinActive i lvl && !e.pending
    else B.pinActive i lvl && !B.pinActive i e.level
  if occurs then B.raise n else B

/-- An event source occurs; a source that is an event pin is sampled at level `lvl`. -/
def Bench.occurrence (B : Bench) (n : Nat) (lvl : Bool) : Bench :=
  if 768 ≤ n && n < 772 then B.pinSample (n - 768) lvl
  else if 964 ≤ n && n < 1008 then B
  else B.raise n

/-! ## Registers (R316 to R319) -/

/-- SCHED.TASK[n] (R319). -/
def Bench.taskWord (B : Bench) (n : Nat) : Word :=
  let e := B.task n
  let st : Nat := match e.state with
    | .empty => 0 | .waiting => 1 | .ready => 2 | .running => 3 | .stopped => 4 | .faulted => 5
  let loc : Nat := match e.at? with
    | none => 0
    | some (k, b) => 8 + k.val % 16 * 16 + b.val * 256 + (if B.pinned k b then 2 ^ 15 else 0)
  BitVec.ofNat 32 (st + loc + (if e.wake then 2 ^ 11 else 0) + e.prio.val * 2 ^ 12 + e.fault.toNat * 2 ^ 16)

/-- SCHED.STAT (R316). -/
def Bench.schedStat (B : Bench) : Word :=
  let res := (B.sched.tasks.filter fun e => e.2.at?.isSome).length
  let rnr := (B.sched.tasks.filter fun e => e.2.state = TaskState.ready && e.2.at?.isNone).length
  BitVec.ofNat 32 (res % 256 + rnr % 8192 * 2 ^ 8 + B.sched.badcmd.toNat * 2 ^ 21)

/-- Bits of 16 cores. -/
def Bench.coreBits (B : Bench) (f : Core → Bool) : Nat :=
  (List.finRange 16).foldl (fun n i => if f (B.core (Fin.castLE (by decide) i)) then n + 2 ^ i.val else n) 0

def Bench.evstatWord (B : Bench) (n : Nat) : Word :=
  let e := B.ev n
  BitVec.ofNat 32 (e.count.toNat + (if e.pending then 2 ^ 16 else 0) + (if e.masked then 2 ^ 17 else 0)
    + (if e.level then 2 ^ 18 else 0))

def Bench.schedRead (B : Bench) (off : Nat) : Word :=
  if off = 0x10000 then B.sched.tcbLo.zeroExtend 32 <<< 16
  else if off = 0x10004 then B.sched.tcbHi.zeroExtend 32
  else if off = 0x10008 then (if B.sched.lock then 1 else 0)
  else if off = 0x10010 then B.schedStat
  else if off = 0x10014 then BitVec.ofNat 32 (B.coreBits (·.emergBusy))
  else if off = 0x10018 then B.sched.stormSource.zeroExtend 32 ||| (B.sched.stormCount.zeroExtend 32 <<< 16)
  else if off = 0x1001C then B.sched.faultTask.zeroExtend 32 ||| (B.sched.faultCode.zeroExtend 32 <<< 16)
  else if 0x11000 ≤ off && off < 0x12000 then B.bindWord ((off - 0x11000) / 4)
  else if 0x12000 ≤ off && off < 0x13000 then B.evstatWord ((off - 0x12000) / 4)
  else if 0x18000 ≤ off && off < 0x1C000 then B.taskWord ((off - 0x18000) / 4)
  else 0

/-- A write of SCHED.BIND[n] (R310, R314, R317): MODE is RO for the supervisor's sources, everything is RO for 964 to
1,007, and LIMIT 0 is reserved for 768 to 831. -/
def Bench.bindWrite (B : Bench) (n : Nat) (v : Word) : Bench :=
  if 964 ≤ n && n < 1008 then B
  else
    let old := B.sched.bind.get 0 n
    let v := v &&& 0x0FFF3FFF#32
    let v := if bscOnly n then (v &&& 0xFFFFFFFC#32) ||| (old &&& 3#32) else v
    let v := if 768 ≤ n && n < 832 && (v &&& 0x0FFF0000#32) = 0 then v ||| (old &&& 0x0FFF0000#32) else v
    ({ B with sched := { B.sched with bind := B.sched.bind.set 0 n v } }).deliver n

def Bench.schedWrite (B : Bench) (off : Nat) (v : Word) : Bench :=
  if off = 0x10000 then
    if B.sched.lock then B else { B with sched := { B.sched with tcbLo := (v >>> 16).truncate 16 } }
  else if off = 0x10004 then
    if B.sched.lock then B else { B with sched := { B.sched with tcbHi := v.truncate 8 } }
  else if off = 0x10008 then
    if B.sched.lockWritten then B
    else { B with sched := { B.sched with lock := v.getLsbD 0, lockWritten := true } }
  else if off = 0x1000C then B.taskCommand v
  else if 0x11000 ≤ off && off < 0x12000 then B.bindWrite ((off - 0x11000) / 4) v
  else if 0x12000 ≤ off && off < 0x13000 then
    let n := (off - 0x12000) / 4
    let B := B.setEv n { B.ev n with count := v.truncate 16 }
    if v.getLsbD 17 then B.unmask n else B
  else B

end Sys2Proof.Machine
end

