-- ==== Sys2Proof/Machine/Des.lean ====
section
/-!
DEFINITION. Machine/Des.lean: TDES of SP 800-67, the MAC algorithm 3 of ISO/IEC 9797-1, and the TDES method of DUKPT
(ANSI X9.24). Bit tables count from 1 at the most significant bit, as the standard prints them.
-/

namespace Sys2Proof.Machine

/-- Select bits of an `n`-bit number by a table. -/
def permBits (n : Nat) (t : List Nat) (x : Nat) : Nat :=
  t.foldl (fun r i => r * 2 + (if x.testBit (n - i) then 1 else 0)) 0

def desIP : List Nat :=
  (List.range 64).map fun i => let r := i / 8; let c := i % 8; (if r < 4 then 2 * r + 2 else 2 * (r - 4) + 1) + 8 * (7 - c)
/-- The inverse of the initial permutation. -/
def desFP : List Nat := (List.range 64).map fun i => desIP.idxOf (i + 1) + 1
def desE : List Nat := (List.range 48).map fun i => (i / 6 * 4 + i % 6 + 31) % 32 + 1
def desP : List Nat :=
  [16, 7, 20, 21, 29, 12, 28, 17, 1, 15, 23, 26, 5, 18, 31, 10, 2, 8, 24, 14, 32, 27, 3, 9, 19, 13, 30, 6, 22, 11, 4, 25]
def desPC1 : List Nat :=
  [57, 49, 41, 33, 25, 17, 9, 1, 58, 50, 42, 34, 26, 18, 10, 2, 59, 51, 43, 35, 27, 19, 11, 3, 60, 52, 44, 36,
   63, 55, 47, 39, 31, 23, 15, 7, 62, 54, 46, 38, 30, 22, 14, 6, 61, 53, 45, 37, 29, 21, 13, 5, 28, 20, 12, 4]
def desPC2 : List Nat :=
  [14, 17, 11, 24, 1, 5, 3, 28, 15, 6, 21, 10, 23, 19, 12, 4, 26, 8, 16, 7, 27, 20, 13, 2,
   41, 52, 31, 37, 47, 55, 30, 40, 51, 45, 33, 48, 44, 49, 39, 56, 34, 53, 46, 42, 50, 36, 29, 32]
def desShifts : List Nat := [1, 1, 2, 2, 2, 2, 2, 2, 1, 2, 2, 2, 2, 2, 2, 1]

/-- The substitution boxes: the 64 entries of each, row by row, as the hexadecimal digits of one number. -/
def desBoxes : List Nat :=
  [0xE4D12FB83A6C59070F74E2D1A6CB953841E8D62BFC973A50FC8249175B3EA06D,
   0xF18E6B34972DC05A3D47F28EC01A69B50E7BA4D158C6932FD8A13F42B67C05E9,
   0xA09E63F51DC7B428D709346A285ECBF1D6498F30B12C5AE71AD069874FE3B52C,
   0x7DE3069A1285BC4FD8B56F03472C1AE9A690CB7DF13E52843F06A1D8945BC72E,
   0x2C417AB6853FD0E9EB2C47D150FA3986421BAD78F9C5630EB8C71E2D6F09A453,
   0xC1AF92680D34E75BAF427C9561DE0B389EF528C3704A1DB6432C95FABE17608D,
   0x4B2EF08D3C975A61D0B7491AE35C2F8614BDC37EAF6805926BD814A7950FE23C,
   0xD2846FB1A93E50C71FD8A374C56B0E927B419CE206ADF35821E74A8DFC90356B]

/-- The boxes on 48 bits. -/
def desSubst (x : Nat) : Nat :=
  (List.range 8).foldl (fun r i =>
    let b := x / 2 ^ (42 - 6 * i) % 64
    let row := b / 32 * 2 + b % 2
    let col := b / 2 % 16
    r * 16 + (desBoxes.getD i 0) / 16 ^ (63 - (row * 16 + col)) % 16) 0

/-- The sixteen round keys. -/
def desKeys (key : Nat) : List Nat :=
  let k := permBits 64 desPC1 key
  let rot (v n : Nat) : Nat := (v * 2 ^ n) % 2 ^ 28 + v / 2 ^ (28 - n)
  (desShifts.foldl (fun (p : List Nat × Nat × Nat) n =>
    let c := rot p.2.1 n
    let d := rot p.2.2 n
    (p.1 ++ [permBits 56 desPC2 (c * 2 ^ 28 + d)], c, d)) ([], k / 2 ^ 28, k % 2 ^ 28)).1

def desBlock (keys : List Nat) (x : Nat) : Nat :=
  let x := permBits 64 desIP x
  let r := keys.foldl (fun (p : Nat × Nat) k => (p.2, p.1 ^^^ permBits 32 desP (desSubst (permBits 32 desE p.2 ^^^ k))))
    (x / 2 ^ 32, x % 2 ^ 32)
  permBits 64 desFP (r.2 * 2 ^ 32 + r.1)

def desEnc (key blk : List Byte) : List Byte := beBytes 8 (desBlock (desKeys (beNat key)) (beNat (padTo 8 blk)))
def desDec (key blk : List Byte) : List Byte := beBytes 8 (desBlock (desKeys (beNat key)).reverse (beNat (padTo 8 blk)))

/-- The three keys of a two-key or three-key bundle. -/
def tdesKeys (key : List Byte) : List Byte × List Byte × List Byte :=
  let k1 := key.take 8
  let k2 := (key.drop 8).take 8
  (k1, k2, if key.length ≤ 16 then k1 else (key.drop 16).take 8)
def tdesEnc (key blk : List Byte) : List Byte :=
  let (k1, k2, k3) := tdesKeys key
  desEnc k3 (desDec k2 (desEnc k1 blk))
def tdesDec (key blk : List Byte) : List Byte :=
  let (k1, k2, k3) := tdesKeys key
  desDec k1 (desEnc k2 (desDec k3 blk))

/-- Padding method 2 of ISO/IEC 9797-1: a bit 1, then zeros to whole blocks. -/
def isoPad2 (n : Nat) (m : List Byte) : List Byte := padTo ((m.length + n) / n * n) (m ++ [0x80])

/-- MAC algorithm 3 with padding method 2: a DES chain under the first key, then the other two on its end. -/
def retailMac (key m : List Byte) : List Byte :=
  let (k1, k2, k3) := tdesKeys key
  let h := (blocksOf 8 (isoPad2 8 m)).foldl (fun x b => desEnc k1 (xorBytes x b)) (List.replicate 8 0)
  desEnc k3 (desDec k2 h)

/-! ## DUKPT, TDES method -/

/-- The key mask of the TDES method. -/
def dukptMask : List Byte := [0xC0, 0xC0, 0xC0, 0xC0, 0, 0, 0, 0, 0xC0, 0xC0, 0xC0, 0xC0, 0, 0, 0, 0]

/-- The initial key of a KSN (10 bytes). -/
def dukptTdesInitial (bdk ksn : List Byte) : List Byte :=
  let b := beBytes 8 (beNat (ksn.take 8) / 32 * 32)
  tdesEnc bdk b ++ tdesEnc (xorBytes bdk dukptMask) b

/-- One step of the non-reversible key generation. -/
def dukptTdesStep (key reg : List Byte) : List Byte :=
  let half (k : List Byte) : List Byte :=
    xorBytes (desEnc (k.take 8) (xorBytes reg (k.drop 8))) (k.drop 8)
  half (xorBytes key dukptMask) ++ half key

/-- The transaction key: one step for each bit set in the 21-bit counter, the highest first. -/
def dukptTdesKey (initial ksn : List Byte) : List Byte :=
  let n := beNat (ksn.drop 2)
  let ctr := n % 2 ^ 21
  ((List.range 21).foldl (fun (p : List Byte × Nat) i =>
    let bit := 2 ^ (20 - i)
    if ctr / bit % 2 = 1 then (dukptTdesStep p.1 (beBytes 8 (n - ctr + p.2 + bit)), p.2 + bit) else p) (initial, 0)).1

end Sys2Proof.Machine
end

