-- ==== Sys2Proof/Machine/Sha3.lean ====
section
/-!
DEFINITION. Machine/Sha3.lean: SHA-3 and SHAKE of FIPS 202, and ChaCha20-Poly1305 of RFC 8439.
-/

namespace Sys2Proof.Machine

/-! ## Keccak -/

/-- The round constants, from the standard's linear feedback shift register. -/
def keccakLfsr : Nat → Byte → List Bool
  | 0, _ => []
  | n + 1, r => r.getLsbD 0 :: keccakLfsr n ((r <<< 1) ^^^ (if r.getLsbD 7 then 0x71 else 0))
def keccakRC : List Dword :=
  let b := keccakLfsr 168 1
  (List.range 24).map fun i =>
    (List.range 7).foldl (fun c j => if b.getD (7 * i + j) false then c ||| (1#64 <<< (2 ^ j - 1)) else c) 0

/-- Rotation amounts of rho in the order pi visits the lanes. -/
def keccakRho : List (Nat × Nat) :=
  ((List.range 24).foldl (fun (p : List (Nat × Nat) × Nat × Nat) t =>
    (p.1 ++ [(p.2.1 + 5 * p.2.2, (t + 1) * (t + 2) / 2 % 64)], p.2.2, (2 * p.2.1 + 3 * p.2.2) % 5)) ([], 1, 0)).1

/-- One round on 25 lanes, lane x + 5 y. -/
def keccakRound (a : List Dword) (rc : Dword) : List Dword :=
  let g (l : List Dword) (i : Nat) : Dword := l.getD i 0
  let c := (List.range 5).map fun x => g a x ^^^ g a (x + 5) ^^^ g a (x + 10) ^^^ g a (x + 15) ^^^ g a (x + 20)
  let a := (List.range 25).map fun i => g a i ^^^ g c ((i + 4) % 5) ^^^ (g c ((i % 5 + 1) % 5)).rotateLeft 1
  let rho (i : Nat) : Nat := ((keccakRho.find? fun p => p.1 = i).map (·.2)).getD 0
  let b := (List.range 25).map fun i =>
    let x := i % 5
    let y := i / 5
    let sx := (x + 3 * y) % 5
    let s := sx + 5 * x
    (g a s).rotateLeft (rho s)
  let a := (List.range 25).map fun i =>
    let y := i / 5 * 5
    g b i ^^^ (~~~(g b (y + (i + 1) % 5)) &&& g b (y + (i % 5 + 2) % 5))
  match a with
  | h :: t => (h ^^^ rc) :: t
  | [] => []

def keccakF (a : List Dword) : List Dword := keccakRC.foldl keccakRound a

def keccakAbsorb (rate : Nat) (a : List Dword) (b : List Byte) : List Dword :=
  let w := (blocksOf 8 b).map fun l => (BitVec.ofNat 64 (leNat l) : Dword)
  keccakF ((List.range 25).map fun i => a.getD i 0 ^^^ (if i < rate / 8 then w.getD i 0 else 0))

def keccakSqueeze (rate : Nat) : Nat → List Dword → List Byte
  | 0, _ => []
  | k + 1, a => (a.flatMap fun w => leBytes 8 w.toNat).take rate ++ keccakSqueeze rate k (keccakF a)

/-- The sponge: rate in bytes, domain byte, output length. -/
def keccak (rate : Nat) (dom : Byte) (n : Nat) (m : List Byte) : List Byte :=
  let p := padTo ((m.length + rate) / rate * rate) (m ++ [dom])
  let p := p.dropLast ++ [p.getLastD 0 ||| 0x80]
  let a := (blocksOf rate p).foldl (keccakAbsorb rate) (List.replicate 25 0)
  (keccakSqueeze rate ((n + rate - 1) / rate) a).take n

def sha3 (n : Nat) (m : List Byte) : List Byte := keccak (200 - 2 * n) 0x06 n m
def shake128 (n : Nat) (m : List Byte) : List Byte := keccak 168 0x1F n m
def shake256 (n : Nat) (m : List Byte) : List Byte := keccak 136 0x1F n m

/-! ## ChaCha20-Poly1305 -/

def chachaQuarter (s : List Word) (q : Nat × Nat × Nat × Nat) : List Word :=
  let (i, j, k, l) := q
  let (a, b, c, d) := (s.getD i 0, s.getD j 0, s.getD k 0, s.getD l 0)
  let a := a + b
  let d := (d ^^^ a).rotateLeft 16
  let c := c + d
  let b := (b ^^^ c).rotateLeft 12
  let a := a + b
  let d := (d ^^^ a).rotateLeft 8
  let c := c + d
  let b := (b ^^^ c).rotateLeft 7
  (((s.set i a).set j b).set k c).set l d

def chachaBlock (key nonce : List Byte) (ctr : Nat) : List Byte :=
  let words (l : List Byte) : List Word := (blocksOf 4 l).map fun b => BitVec.ofNat 32 (leNat b)
  let s : List Word := words (ascii "expand 32-byte k") ++ words key ++ [BitVec.ofNat 32 ctr] ++ words nonce
  let qs := (List.range 4).map (fun i => (i, i + 4, i + 8, i + 12))
    ++ (List.range 4).map (fun i => (i, 4 + (i + 1) % 4, 8 + (i + 2) % 4, 12 + (i + 3) % 4))
  let t := (List.range 10).foldl (fun s _ => qs.foldl chachaQuarter s) s
  (List.zipWith (· + ·) t s).flatMap fun w => leBytes 4 w.toNat

def chachaXor (key nonce : List Byte) : Nat → List (List Byte) → List Byte
  | _, [] => []
  | c, b :: t => xorBytes b (chachaBlock key nonce c) ++ chachaXor key nonce (c + 1) t

def poly1305 (key m : List Byte) : List Byte :=
  let p := 2 ^ 130 - 5
  let r := leNat (key.take 16) &&& 0x0FFFFFFC0FFFFFFC0FFFFFFC0FFFFFFF
  let s := leNat ((key.drop 16).take 16)
  leBytes 16 ((blocksOf 16 m).foldl (fun a b => (a + leNat (b ++ [1])) * r % p) 0 + s)

def chachaTag (key nonce aad ct : List Byte) : List Byte :=
  let pad (l : List Byte) : List Byte := padTo ((l.length + 15) / 16 * 16) l
  poly1305 ((chachaBlock key nonce 0).take 32) (pad aad ++ pad ct ++ leBytes 8 aad.length ++ leBytes 8 ct.length)

end Sys2Proof.Machine
end

