-- ==== Sys2Proof/Machine/Ske.lean ====
section
/-!
DEFINITION. Machine/Ske.lean: the streaming jobs: the SKE's cipher and MAC operations (R489 to R491), the HSE's hashes (R504) and
the DRBG's jobs (R505, R506).
-/

namespace Sys2Proof.Machine

/-! ## Keys of the cipher and MAC operations -/

/-- A key in use: its algorithm (A AES, T TDES, H HMAC, C ChaCha20) and its bytes. -/
structure CipherKey where
  alg : Char
  key : List Byte

def CipherKey.block (k : CipherKey) : Nat := if k.alg = 'T' then 8 else 16
def CipherKey.enc (k : CipherKey) : List Byte → List Byte := if k.alg = 'T' then tdesEnc k.key else aesEnc k.key
def CipherKey.dec (k : CipherKey) : List Byte → List Byte := if k.alg = 'T' then tdesDec k.key else aesDec k.key

def algOf (h : List Byte) : Char := Char.ofNat (hdrAlg h)
def usageIs (h : List Byte) (s : String) : Bool := hdrUsage h == ascii s

/-- What R424 asks of a MAC key and of a GCM key. -/
def skeFits (j : JC) (h : List Byte) : Bool :=
  if j.op ≤ 2 then j.var ≠ 4 || algOf h = 'A'
  else if j.var = 1 then usageIs h "M3" && algOf h = 'T'
  else if j.var = 2 then usageIs h "M6" && (algOf h = 'A' || algOf h = 'T')
  else usageIs h "M7" && algOf h = 'H'

def skeRole (j : JC) : KeyRole :=
  match j.op with
  | 1 => { classes := [0x08], modes := ['B', 'E'], fits := skeFits j }
  | 2 => { classes := [0x08], modes := ['B', 'D'], fits := skeFits j }
  | 3 => { classes := [0x05], modes := ['C', 'G'], fits := skeFits j }
  | _ => { classes := [0x05], modes := ['C', 'V'], fits := skeFits j }

/-- The algorithm of a clear key: the descriptor does not name one for ECB, CBC, CTR and CMAC, and this model takes AES. -/
def clearAlg (j : JC) : Char :=
  if j.op ≤ 2 then (if j.var = 5 then 'C' else 'A') else if j.var = 1 then 'T' else if j.var = 2 then 'A' else 'H'
def clearLenOk (j : JC) (n : Nat) : Bool :=
  match clearAlg j with
  | 'C' => n == 32
  | 'T' => n == 16 || n == 24
  | 'H' => 1 ≤ n && n ≤ 128
  | _ => n == 16 || n == 24 || n == 32

def JC.clearLen (j : JC) : Nat := j.aux / 2 ^ 16 % 256
def JC.aadLen (j : JC) : Nat := j.aux % 2 ^ 16
def JC.macLen (j : JC) : Nat := j.aux / 2 ^ 24
/-- Full length of a MAC. -/
def macFull (var : Nat) (block : Nat) : Nat :=
  match var with
  | 1 => 8
  | 2 => block
  | 3 => 32
  | 4 => 48
  | _ => 64

/-- The header (check 1 of R474) of OP 0x01 to 0x04. The block of a key in the vault is known only at check 2: that LEN is a
whole number of its blocks is tested then (R490). -/
def skeHeader (j : JC) : J Unit := do
  J.guardBad (1 ≤ j.var && j.var ≤ 5) 1
  J.guardBad (!(j.preHash || 8 ≤ j.byte 2)) 2
  J.guardBad (j.resume || j.token = 0) 2
  let aead := decide (j.op ≤ 2) && decide (4 ≤ j.var)
  J.guardBad (!(j.op ≤ 2 && j.var = 5) || j.clearKey) 1
  J.guardBad (if j.clearKey then clearLenOk j j.clearLen else j.clearLen == 0) 3
  J.guardBad (if j.op ≤ 2 then j.macLen == 0 && (if aead then decide (j.aadLen ≤ j.len) else j.aadLen == 0)
    else j.aadLen == 0 && decide (4 ≤ j.macLen) && decide (j.macLen ≤ macFull j.var 16)) 3
  J.guardBad (!(j.op ≤ 2 && j.var ≤ 2) || j.len % (if j.clearKey then 16 else 8) == 0) 3

/-- The key of a cipher or MAC job: from the vault (check 2), or in memory, where `J.clearBytes` reads it. -/
def J.cipherKey (j : JC) : J CipherKey := do
  if j.clearKey then pure { alg := clearAlg j, key := [] }
  else
    match ← J.checkHandle j 0 (.handle (skeRole j) false) with
    | none => J.refuse 0x01 0
    | some k => pure { alg := algOf k.header, key := k.value }

/-! ## What the operations compute on the data read so far -/

/-- Encrypt or decrypt a prefix of the data: the output bytes for the whole blocks of it. -/
def cipherOut (j : JC) (k : CipherKey) (param data : List Byte) : List Byte :=
  let bs := blocksOf k.block data
  let iv := param.take k.block
  match j.var with
  | 1 => bs.flatMap (if j.op = 1 then k.enc else k.dec)
  | 2 => if j.op = 1 then cbcEnc k.enc iv bs else cbcDec k.dec iv bs
  | 3 => ctrMode k.enc k.block iv bs
  | 4 => gcmCtr k.enc (param.take 12) 2 bs
  | _ => chachaXor k.key (param.take 12) 1 (blocksOf 64 data)

def aeadTag (j : JC) (k : CipherKey) (param aad ct : List Byte) : List Byte :=
  if j.var = 4 then gcmTag k.enc (param.take 12) aad ct else chachaTag k.key (param.take 12) aad ct

def macOf (j : JC) (k : CipherKey) (data : List Byte) : List Byte :=
  match j.var with
  | 1 => retailMac k.key data
  | 2 => cmac k.enc k.block data
  | 3 => hmac sha256 64 k.key data
  | 4 => hmac sha384 128 k.key data
  | _ => hmac sha512 128 k.key data

/-- The whole blocks of a prefix of the data, `aad` bytes of which are additional data. -/
def wholeBlocks (block aad n : Nat) : Nat := if n < aad then n / 16 * 16 else aad + (n - aad) / block * block

/-- Input and output of a streaming operation: the data that is done and how many bytes it is, where the output goes that no
earlier run has made, and what stopped it. -/
structure Stream where
  data : List Byte
  done : Nat
  outs : List (Nat × Nat)
  stop : Option (Stop × Nat × Nat)

/-- Read data at B.cursor + `base` and place output at C, from the bytes already seen (R366, R480): no page is used whose bytes
an earlier run of the job has done. `outLen n` is the output that `n` bytes of data make, which `tail` bytes follow at the
end; `unit n` the bytes of `n` that can be done before the end: whole blocks of a cipher (log 34), and all others singly. -/
def J.stream (j : JC) (base n : Nat) (seen : List Byte) (unit outLen : Nat → Nat) (tail : Nat) : J Stream := do
  let (l, sin) ← J.streamIn j ((j.opnd 1).cursor.toNat + base) seen.length n
  let data := seen ++ l
  let read := if sin.isNone then n else unit data.length
  let start := outLen seen.length
  let (ps, sout) ← J.streamOut j (j.opnd 2).cursor.toNat start (outLen read + if sin.isNone then tail else 0)
  match sout with
  | some s =>
    let room := start + (ps.map (·.2)).foldl (· + ·) 0
    -- the first data byte whose output has no place
    let limit := ((List.range (read + 1)).filter fun m => outLen m ≤ room).foldl max 0
    let done := if limit = n then n else unit limit
    pure { data := data.take done, done := done, outs := ps, stop := some (s, 2, 0) }
  | none => pure { data := data.take read, done := read, outs := ps, stop := sin.map fun s => (s, 1, base) }

/-- The first `n` bytes of operand `i` of a streaming job, read before its data: a page that faults suspends it, with what is
done already (R343, R366, R480). -/
def J.prelude (j : JC) (i n : Nat) (seen param : List Byte) : J (List Byte) := do
  let (l, st) ← J.streamIn j (j.opnd i).cursor.toNat 0 n
  match st with
  | none => pure l
  | some s => fun B => .error (stopFinish s i 0 seen.length seen param []) B

/-- The bytes of a clear key (R491). They are no part of the running state (R479): a resumed job reads them again. -/
def J.clearBytes (j : JC) (k : CipherKey) (seen param : List Byte) : J CipherKey := do
  if j.clearKey then
    let l ← J.prelude j 0 j.clearLen seen param
    pure { k with key := l }
  else pure k

/-- The parameter block (R489): a resumed job has it in its running state. -/
def J.param (j : JC) (seen param : List Byte) : J (List Byte) :=
  if param.isEmpty then J.prelude j 1 64 seen [] else pure param

/-- Check 4 of a streaming job: its token, if it resumes. -/
def J.resumeSeen (j : JC) : J (List Byte × Option Token) := do
  if j.resume then
    let t ← J.takeToken j
    pure (t.seen, some t)
  else pure ([], none)

/-- The job under the translation that its first submission captured (R480). -/
def JC.under (j : JC) (t : Option Token) : JC :=
  match t with
  | none => j
  | some t => { j with sub := j.sub.under t.sub }

/-- Bytes of additional data, and of the tag that an encryption adds. -/
def JC.aad (j : JC) : Nat := if 4 ≤ j.var then j.aadLen else 0
def JC.tagLen (j : JC) : Nat := if j.op = 1 && 4 ≤ j.var then 16 else 0

/-- What each operand of a cipher or MAC job is asked for (R473): the key in memory, if it is clear, the parameter block with the data,
and the output. -/
def JC.keyRole (j : JC) : OpRole := if j.clearKey then .rd j.clearLen else .later
def JC.outRole (j : JC) : OpRole :=
  if j.op ≤ 2 then .wr (j.len - j.aad + j.tagLen) else if j.op = 3 then .wr j.macLen else .zero

/-- The completion of a cipher job, from the stream that it read and placed; `seen` bytes were done by earlier runs. -/
def cipherFinish (j : JC) (k : CipherKey) (param : List Byte) (seen : Nat) (s : Stream) : Finish :=
  let enc := decide (j.op = 1)
  let body := s.data.drop j.aad
  let out := cipherOut j k param body
  let ct := if enc then out else body
  let tag := if s.stop.isNone && 4 ≤ j.var then aeadTag j k param (s.data.take j.aad) ct else []
  let writes := layOut s.outs ((if enc then out ++ tag else out).drop (seen - j.aad))
  match s.stop with
  | some (st, o, b) => stopFinish st o b s.done s.data param writes
  | none =>
    let f := Finish.ok j.len (j.len - j.aad + j.tagLen) writes
    if !enc && 4 ≤ j.var && tag ≠ (param.drop 16).take 16 then { f with status := 1, result := 0 } else f

/-- OP 0x01 and 0x02. -/
def skeCipher (j : JC) : J Finish := do
  skeHeader j
  let k ← J.cipherKey j
  J.guardBad (decide (2 < j.var) || j.len % k.block == 0) 3
  J.checkOperand j 0 j.keyRole
  J.checkOperand j 1 (.rd (64 + j.len))
  J.checkOperand j 2 j.outRole
  let (seen, tok) ← J.resumeSeen j
  let j := j.under tok
  let old := (tok.map (·.param)).getD []
  let k ← J.clearBytes j k seen old
  let param ← J.param j seen old
  let blk := if j.var = 5 then 64 else k.block
  let s ← J.stream j 64 j.len seen (wholeBlocks blk j.aad) (fun m => m - j.aad) j.tagLen
  pure (cipherFinish j k param seen.length s)

/-- The completion of a MAC job. -/
def macFinish (j : JC) (k : CipherKey) (param : List Byte) (s : Stream) : Finish :=
  match s.stop with
  | some (st, o, b) => stopFinish st o b s.done s.data param []
  | none =>
    let mac := (macOf j k s.data).take j.macLen
    if j.op = 3 then Finish.ok j.len mac.length (layOut s.outs mac)
    else
      let m := min 16 j.macLen
      let f := Finish.ok j.len 0 []
      if mac.take m = (param.drop 16).take m then f else { f with status := 1 }

/-- OP 0x03 and 0x04. -/
def skeMac (j : JC) : J Finish := do
  skeHeader j
  let k ← J.cipherKey j
  J.guardBad (decide (j.macLen ≤ macFull j.var k.block)) 3
  J.checkOperand j 0 j.keyRole
  J.checkOperand j 1 (.rd (64 + j.len))
  J.checkOperand j 2 j.outRole
  let (seen, tok) ← J.resumeSeen j
  let j := j.under tok
  let old := (tok.map (·.param)).getD []
  let k ← J.clearBytes j k seen old
  let param ← J.param j seen old
  let s ← J.stream j 64 j.len seen id (fun _ => 0) (if j.op = 3 then j.macLen else 0)
  pure (macFinish j k param s)

/-! ## TLS records (R631, R634) -/

/-- AES-256-GCM or ChaCha20-Poly1305 on a record: the ciphertext with its tag, or the plaintext if the tag fits. -/
def tlsCrypt (enc : Bool) (suite : Nat) (nonce key aad data : List Byte) : Option (List Byte) :=
  let xor (l : List Byte) : List Byte :=
    if suite = 3 then chachaXor key nonce 1 (blocksOf 64 l) else gcmCtr (aesEnc key) nonce 2 (blocksOf 16 l)
  let tag (ct : List Byte) : List Byte := if suite = 3 then chachaTag key nonce aad ct else gcmTag (aesEnc key) nonce aad ct
  if enc then
    let ct := xor data
    some (ct ++ tag ct)
  else
    let ct := data.take (data.length - 16)
    if data.length < 16 || tag ct ≠ data.drop (data.length - 16) then none else some (xor ct)

def tlsRun (enc : Bool) (suite : Nat) (nonce key aad data : List Byte) : Finish :=
  match tlsCrypt enc suite nonce key aad data with
  | some l => { Finish.ok data.length 0 [] with sig := l }
  | none => Finish.fail 1 0 3 0

/-! ## The HSE (R504) -/

def hseDefined (var : Nat) : Bool :=
  (1 ≤ var && var ≤ 3) || (0x11 ≤ var && var ≤ 0x13) || var == 0x21 || var == 0x22
def hseLen (j : JC) : Nat :=
  match j.var % 16 with
  | 1 => if j.var = 0x21 then j.aux else 32
  | 2 => if j.var = 0x22 then j.aux else 48
  | _ => 64
def hseHash (j : JC) (m : List Byte) : List Byte :=
  match j.var with
  | 0x01 => sha256 m
  | 0x02 => sha384 m
  | 0x03 => sha512 m
  | 0x11 => sha3 32 m
  | 0x12 => sha3 48 m
  | 0x13 => sha3 64 m
  | 0x21 => shake128 j.aux m
  | _ => shake256 j.aux m

/-- The digest job of an admitted request (R464, R580): its bytes are read at their physical address. -/
def hseDigest (j : JC) (addr len : Nat) : J Finish := do
  let m ← J.readPieces j 1 [(addr, len)]
  pure { Finish.ok len 0 [] with sig := (sha384 m).take 16 }

def hseRun (j : JC) (q : Option UnitJob) : J Finish := do
  if let some (.digest _ addr len) := q then
    return ← hseDigest j addr len
  J.guardBad (j.op = 1 && hseDefined j.var) 1
  J.guardBad (!(j.clearKey || j.preHash || 8 ≤ j.byte 2)) 2
  J.guardBad (j.resume || j.token = 0) 2
  J.guardBad (if 0x21 ≤ j.var then 1 ≤ j.aux && j.aux ≤ 4096 else j.aux == 0) 3
  J.checkOperand j 0 .zero
  J.checkOperand j 1 (.rd j.len)
  J.checkOperand j 2 (.wr (hseLen j))
  let (seen, tok) ← J.resumeSeen j
  let j := j.under tok
  let s ← J.stream j 0 j.len seen id (fun _ => 0) (hseLen j)
  match s.stop with
  | some (st, o, b) => pure (stopFinish st o b s.done s.data [] [])
  | none =>
    let d := hseHash j s.data
    pure (Finish.ok j.len 0 (layOut s.outs d))

/-- HSE `n` takes its next job. -/
def Bench.hseBegin (B : Bench) (n : Fin 2) : Bench :=
  B.engBegin (Fin.ofNat 18 (11 + n.val)) (fun _ _ => true) hseRun fun _ _ _ => []

/-! ## The DRBG (R505, R506, R509): whole-job operations, as R506 says, where R366 lists DRBG output as streaming (log 88) -/

def drbgRun (j : JC) (_ : Option UnitJob) : J Finish := do
  J.guardBad ((j.op = 1 || j.op = 2) && j.var == 0) 1
  J.guardBad (!(j.clearKey || j.preHash || 8 ≤ j.byte 2)) 2
  J.guardBad (j.resume || j.token = 0) 2
  J.guardBad (if j.op = 1 then 1 ≤ j.len && j.len ≤ 65536 && j.aux ≤ 1 else j.len == 0 && j.aux == 0) 3
  if j.op = 1 then
    let _ ← J.whole j .zero .zero (.wr j.len)
    let B ← J.bench
    if j.aux = 1 && B.drbg.live then J.mod Bench.drbgReseed
    let l ← J.random j.len
    pure (Finish.ok j.len 0 (j.out 2 0 l))
  else
    let _ ← J.whole j .zero .zero .zero
    let B ← J.bench
    if B.drbg.live then
      J.mod Bench.drbgReseed
      pure (Finish.ok 0 0 [])
    else J.fail 9 0 3

def Bench.drbgBegin (B : Bench) (op : Nat) : Bench :=
  B.engBegin 13 (fun o _ => o == op || !(o == 1 || o == 2)) drbgRun fun _ _ _ => []

end Sys2Proof.Machine
end

