-- ==== Sys2Proof/Machine/Partner.lean ====
section
/-!
DEFINITION. Machine/Partner.lean: the partner mirror (R596 to R598).
-/

namespace Sys2Proof.Machine

/-- The port, the peer entry and the timeout in JRN.PCFG. -/
def Bench.pPort (B : Bench) : Bool := (B.reg 0x30003C).getLsbD 0
def Bench.pPeer (B : Bench) : Nat := bitsOf (B.reg 0x30003C) 9 2
def Bench.pTimeout (B : Bench) : Nat := bitsOf (B.reg 0x30003C) 25 10

/-- The 32-byte header (R596). -/
def Bench.partnerHeader (B : Bench) (kind count : Nat) (jid : Dword) (seq : Nat) : List Byte :=
  leBytes 2 1 ++ leBytes 1 kind ++ leBytes 1 count ++ leBytes 4 (B.ctl.place.toNat / 8 * 8 + B.ctl.id.val) ++ leBytes 8 jid.toNat
    ++ leBytes 8 seq ++ zeros 8

/-- The partner state is to be `s` (R598): the change waits while its MIRROR record finds no place (R593). -/
def Bench.partnerState (B : Bench) (s : BitVec 2) (status : Byte) : Bench :=
  if B.jrn.partner = s then { B with jrn := { B.jrn with partnerDue := none } }
  else if B.jrnRoom 1 then (B.partnerChange s status).jrnSettle
  else { B with jrn := { B.jrn with partnerDue := some (s, status) } }

/-- Records from the next one to send, or a signature entry, go out as a datagram (R596). -/
def Bench.partnerSend (B : Bench) : Bench :=
  let e := B.peer B.pPort B.pPeer
  let room := B.udpRoom B.pPort e.v6
  if B.pmode = 0 || !e.en || !B.portRuns B.pPort || !B.jrn.genesis then B
  else
    let s := B.jrn.sendSeq
    let n := min 8 (min (B.jrn.nextSeq - s) ((room - 32) / 128))
    if n ≠ 0 then
      let (l, B) := (List.range n).foldl (fun (acc : List Byte × Bench) k =>
        let ((r, _), B) := acc.2.unitRead midJournal 0 (acc.2.jrnBase + (s + k) % acc.2.jrnSlots * 128) 128
        (acc.1 ++ r, B)) ([], B)
      let B := { B with jrn := { B.jrn with
        sendSeq := s + n, ackTime := if B.jrn.pack = s then B.time.elapsed else B.jrn.ackTime } }
      B.sendUdp B.pPort e (B.partnerHeader 1 n B.jrn.jid s ++ l)
    else
      match B.jrn.sendSigs with
      | k :: t =>
        if B.mtu B.pPort < 4200 then B
        else
          let ((l, _), B) := B.unitRead midJournal 0 (B.sigBase + k * 4096) 4096
          let seq := ((B.jrn.sigSeq.find? fun p => p.1 = k).map (·.2)).getD 0
          ({ B with jrn := { B.jrn with sendSigs := t } }).sendUdp B.pPort e (B.partnerHeader 2 1 B.jrn.jid seq ++ l)
      | [] => B

/-- No acknowledgement has advanced PACK for PCFG.TO (R598). -/
def Bench.partnerTimeout (B : Bench) : Bench :=
  if B.pmode = 0 || B.jrn.sendSeq ≤ B.jrn.pack || B.time.elapsed - B.jrn.ackTime < B.pTimeout then B
  else
    let n := B.jrn.timeouts + 1
    let B := { B with jrn := { B.jrn with sendSeq := B.jrn.pack, timeouts := n, ackTime := B.time.elapsed } }
    if 16 ≤ n then B.partnerState 3 0 else B

/-- An acknowledgement or a resynchronisation from the partner (R598). -/
def Bench.partnerAck (B : Bench) (kind seq : Nat) : Bench :=
  if kind = 3 then
    if B.jrn.pack < seq && seq ≤ B.jrn.nextSeq then
      let B := { B with jrn := { B.jrn with
        pack := seq, timeouts := 0, ackTime := B.time.elapsed, sendSeq := max B.jrn.sendSeq seq } }
      (B.partnerState 1 1).jrnSettle
    else B
  else if seq ≤ B.jrn.nextSeq then
    let B : Bench := { B with jrn := { B.jrn with sendSeq := seq } }
    if seq < B.jrn.pack then B.partnerState 3 0 else B.partnerState 2 2
  else B

def Bench.prxBase (B : Bench) : Nat := bitsOf (B.reg 0x300044) 7 0 * 2 ^ 32 + (B.reg 0x300040).toNat
def Bench.prxSlots (B : Bench) : Nat := 2 ^ (bitsOf (B.reg 0x300044) 11 8 + 14)

/-- The records of a datagram, one after another: true where every one passed (R597). -/
def Bench.partnerTake (B : Bench) : List (List Byte) → Bool × Bench
  | [] => (true, B)
  | r :: t =>
    let body := r.take 80
    let chain := r.drop 80
    let ok := leNat (r.take 8) == B.jrn.prxSeq && match B.jrn.prxChain with
      | some c => sha384 (beBytes 48 c.toNat ++ body) == chain
      | none => true
    if !ok then (false, B)
    else
      let B := B.unitWrite midJournal 0 (B.prxBase + B.jrn.prxSeq % B.prxSlots * 128) r
      ({ B with jrn := { B.jrn with
        prxSeq := B.jrn.prxSeq + 1, prxChain := some (BitVec.ofNat 384 (beNat chain)) } } : Bench).partnerTake t

/-- A datagram for the journal unit's partner receiver (R597, R598). -/
def Bench.partnerReceive (B : Bench) (p : Bool) (i : Nat) (l : List Byte) : Bench :=
  let kind := natAtB l 2 1
  let count := natAtB l 3 1
  let jid : Dword := BitVec.ofNat 64 (natAtB l 8 8)
  let seq := natAtB l 16 8
  let dropped : Bench := { B with jrn := { B.jrn with dropped := sat16 B.jrn.dropped } }
  if l.length < 32 || natAtB l 0 2 ≠ 1 then dropped
  else if kind = 3 || kind = 4 then
    if B.pmode ≠ 0 && p = B.pPort && i = B.pPeer && jid = B.jrn.jid then B.partnerAck kind seq else dropped
  else if !(B.prxEn && i = bitsOf (B.reg 0x300048) 7 0) || (B.jrn.prxJid.isSome && B.jrn.prxJid ≠ some jid) then dropped
  else if kind = 2 then { B with jrn := { B.jrn with prxJid := some jid } }
  else if kind ≠ 1 || count = 0 || 8 < count || l.length ≠ 32 + 128 * count then dropped
  else
    let B := { B with jrn := { B.jrn with prxJid := some jid } }
    let (ok, B) := B.partnerTake ((List.range count).map fun k => (l.drop (32 + 128 * k)).take 128)
    B.sendUdp p (B.peer p i) (B.partnerHeader (if ok then 3 else 4) 0 jid B.jrn.prxSeq)
where
  natAtB (l : List Byte) (o n : Nat) : Nat := leNat ((l.drop o).take n)

end Sys2Proof.Machine
end

