-- ==== Sys2Proof/Machine/Tcp.lean ====
section
/-!
DEFINITION. Machine/Tcp.lean: the TCP engine (R623 to R630): profiles, connections, segments, retransmission and timers. What
the spec takes from RFC 793, 1122, 2018, 5681, 6298, 6582 and 7323 follows those documents.
-/

namespace Sys2Proof.Machine

/-! ## Profiles (R630) -/

def profWord (j w : Nat) : Nat := 0x403000 + 0x20 * j + 4 * w
def Bench.prof (B : Bench) (j w : Nat) : Nat := (B.reg (profWord j w)).toNat
def Bench.pfPorts (B : Bench) (j : Nat) (p : Bool) : Bool := (B.prof j 0).testBit (portNo p)
def Bench.pfAddr (B : Bench) (j : Nat) : Nat := slice (B.prof j 0) 3 2
def Bench.pfV6 (B : Bench) (j : Nat) : Bool := (B.prof j 0).testBit 4
def Bench.pfListen (B : Bench) (j : Nat) : Bool := (B.prof j 0).testBit 5
def Bench.pfTls (B : Bench) (j : Nat) : Bool := (B.prof j 0).testBit 6
def Bench.pfAdmit (B : Bench) (j : Nat) : Bool := (B.prof j 0).testBit 7
def Bench.pfFraming (B : Bench) (j : Nat) : Nat := slice (B.prof j 0) 9 8
def Bench.pfEn (B : Bench) (j : Nat) : Bool := (B.prof j 0).testBit 10
def Bench.pfLport (B : Bench) (j : Nat) : Nat := slice (B.prof j 0) 31 16
def Bench.pfRxq (B : Bench) (j : Nat) : Nat := slice (B.prof j 1) 6 0
def Bench.pfMaxmsg (B : Bench) (j : Nat) : Nat := slice (B.prof j 1) 31 15
def Bench.pfTenant (B : Bench) (j : Nat) : Word := BitVec.ofNat 32 (B.prof j 2)
def Bench.pfKeepalive (B : Bench) (j : Nat) : Nat := slice (B.prof j 4) 31 16

/-! ## The connection table -/

def Bench.conn (B : Bench) (n : Nat) : Option Conn := B.net.conns.lookup n
/-- The list with connection `n` set, in number order. -/
def connInsert (n : Nat) (c : Conn) : List (Nat × Conn) → List (Nat × Conn)
  | [] => [(n, c)]
  | (m, d) :: t => if n = m then (n, c) :: t else if n < m then (n, c) :: (m, d) :: t else (m, d) :: connInsert n c t
def Bench.setConn (B : Bench) (n : Nat) (c : Conn) : Bench := { B with net := { B.net with conns := connInsert n c B.net.conns } }
def Bench.dropConn (B : Bench) (n : Nat) : Bench := { B with net := { B.net with conns := B.net.conns.filter fun e => e.1 ≠ n } }
def Bench.modConn (B : Bench) (n : Nat) (f : Conn → Conn) : Bench :=
  match B.conn n with
  | some c => B.setConn n (f c)
  | none => B

def connLimit : Nat := 16384
/-- The lowest number that is free. -/
def Bench.freeConn (B : Bench) : Option Nat := (List.range connLimit).find? fun n => (B.conn n).isNone

/-- Bytes of a receive or retransmit buffer (R627, R651). -/
def Bench.tcpBuf (B : Bench) : Nat := 16384 * 2 ^ bitsOf (B.reg 0x403804) 9 8
def Bench.rtoMin (B : Bench) : Nat := bitsOf (B.reg tcpTimers) 9 0 * 1000
def Bench.timeWaitUs (B : Bench) : Nat := bitsOf (B.reg tcpTimers) 23 16 * 1000000
def Bench.synRetry (B : Bench) : Nat := bitsOf (B.reg tcpTimers) 27 24
def Bench.dataRetry (B : Bench) : Nat := bitsOf (B.reg tcpTimers) 31 28

/-- The connection's window scale shift: the least that lets the buffer's size be told. -/
def Bench.ownScale (B : Bench) : Nat := if B.tcpBuf < 65536 then 0 else 1
/-- Free space of the receive buffer; none for new data while the bench leaves SERVING (R46, R627). -/
def Bench.rcvSpace (B : Bench) (c : Conn) : Nat :=
  if (B.ustate 0).requested = stServing then B.tcpBuf - c.rcvBuf.length else 0

/-! ## Sequence numbers -/

def seqLt (a b : Word) : Bool := (a - b).getLsbD 31
def seqLe (a b : Word) : Bool := a = b || seqLt a b
def seqDiff (a b : Word) : Nat := (a - b).toNat
def seqAdd (a : Word) (n : Nat) : Word := a + BitVec.ofNat 32 n

/-! ## Segments -/

structure Seg where
  sport : Nat
  dport : Nat
  seq : Word
  ack : Word
  hasAck : Bool
  syn : Bool
  fin : Bool
  rst : Bool
  wnd : Nat
  data : List Byte
  mss : Option Nat
  scale : Option Nat
  sackOk : Bool
  ts : Option (Word × Word)

/-- The options of a segment (R624). -/
def readOptions : Nat → List Byte → Seg → Seg
  | 0, _, s => s
  | fuel + 1, l, s =>
    match l with
    | [] => s
    | k :: t =>
      if k = 0 then s
      else if k = 1 then readOptions fuel t s
      else
        let n := (t.headD 0).toNat
        if n < 2 then s
        else
          let d := (t.drop 1).take (n - 2)
          let s := match k.toNat, n with
            | 2, 4 => { s with mss := some (beNat d) }
            | 3, 3 => { s with scale := some (min 14 (beNat d)) }
            | 4, 2 => { s with sackOk := true }
            | 8, 10 => { s with ts := some (BitVec.ofNat 32 (beNat (d.take 4)), BitVec.ofNat 32 (beNat (d.drop 4))) }
            | _, _ => s
          readOptions fuel (t.drop (n - 1)) s

def readSeg (l : List Byte) : Option Seg :=
  let off := (l.getD 12 0).toNat / 16 * 4
  let fl := (l.getD 13 0).toNat
  if l.length < 20 || off < 20 || l.length < off then none
  else
    some (readOptions 40 ((l.drop 20).take (off - 20))
      { sport := beNat (l.take 2), dport := beNat ((l.drop 2).take 2), seq := BitVec.ofNat 32 (beNat ((l.drop 4).take 4))
        ack := BitVec.ofNat 32 (beNat ((l.drop 8).take 4)), hasAck := fl.testBit 4, syn := fl.testBit 1, fin := fl.testBit 0, rst := fl.testBit 2
        wnd := beNat ((l.drop 14).take 2), data := l.drop off, mss := none, scale := none, sackOk := false, ts := none })

/-- The timestamp clock: milliseconds of elapsed time. -/
def Bench.tsNow (B : Bench) : Word := BitVec.ofNat 32 (B.time.elapsed / 1000)

/-- The ranges held out of order, for a SACK option: at most `n`. -/
def sackBlocks (n : Nat) (ooo : List (Word × List Byte)) : List Byte :=
  let bs := (ooo.take n).flatMap fun e => beBytes 4 e.1.toNat ++ beBytes 4 (seqAdd e.1 e.2.length).toNat
  if bs.isEmpty then [] else [1, 1, 5, BitVec.ofNat 8 (2 + bs.length)] ++ bs

/-- A segment of a connection goes out. -/
def Bench.sendSeg (B : Bench) (c : Conn) (seq ack : Word) (flags : Nat) (data : List Byte) : Bench :=
  let syn := flags.testBit 1
  let ts (on : Bool) : List Byte := if on then [1, 1, 8, 10] ++ beBytes 4 B.tsNow.toNat ++ beBytes 4 c.tsRecent.toNat else []
  let own := B.mtu c.port - (if c.v6 then 60 else 40)
  let opts : List Byte :=
    if syn then
      let first := c.state = .synSent
      [2, 4] ++ beBytes 2 own ++ (if first || c.sackOk then [1, 1, 4, 2] else []) ++ ts (first || c.tsOk)
        ++ (if first || c.rscale ≠ 0 || c.sscale ≠ 0 then [1, 3, 3, BitVec.ofNat 8 B.ownScale] else [])
    else ts c.tsOk ++ (if c.sackOk then sackBlocks 3 c.ooo else [])
  let opts := padTo ((opts.length + 3) / 4 * 4) opts
  let w := B.rcvSpace c
  let w := if syn then min 65535 w else min 65535 (w / 2 ^ c.rscale)
  let seg := beBytes 2 c.lport ++ beBytes 2 c.rport ++ beBytes 4 seq.toNat ++ beBytes 4 ack.toNat
    ++ [BitVec.ofNat 8 ((20 + opts.length) / 4 * 16), BitVec.ofNat 8 flags] ++ beBytes 2 w ++ [0, 0, 0, 0] ++ opts ++ data
  B.sendIp c.port c.v6 c.rmac c.laddr c.raddr 6 (withSum c.v6 c.laddr c.raddr 6 16 seg)

def flACK : Nat := 0x10
def flRST : Nat := 0x04
def flFIN : Nat := 0x01
def flSYN : Nat := 0x02
def flPSH : Nat := 0x08

/-- An acknowledgement of everything received in order. -/
def Bench.sendAck (B : Bench) (n : Nat) : Bench :=
  match B.conn n with
  | none => B
  | some c => (B.setConn n { c with ackDue := none }).sendSeg { c with ackDue := none } c.nxt c.rcvNxt flACK []

/-- Payload bytes of one segment. -/
def Conn.segMax (c : Conn) (mtu : Nat) : Nat :=
  let own := mtu - (if c.v6 then 60 else 40)
  min c.mss own - (if c.tsOk then 12 else 0)

/-- Bytes of data sent and not acknowledged. -/
def Conn.flight (c : Conn) : Nat := seqDiff c.nxt c.una - (if c.finSent then 1 else 0)

/-- Data and the FIN that the windows let through go out, a segment at a time. -/
def Bench.tcpOutput (n : Nat) : Nat → Bench → Bench
  | 0, B => B
  | fuel + 1, B =>
    match B.conn n with
    | none => B
    | some c =>
      if c.state = .synSent || c.state = .synRcvd || c.state = .timeWait || c.finSent || !B.portRuns c.port then B
      else
        let sent := c.flight
        let room := min c.wnd c.cwnd - sent
        let k := min (c.segMax (B.mtu c.port)) (min room (c.sndBuf.length - sent))
        let last := decide (sent + k = c.sndBuf.length)
        let finNow := c.fin && last
        if k = 0 && !finNow then
          -- data that waits for a window keeps the timer running, for the probe
          if sent = 0 && !c.sndBuf.isEmpty && c.timer.isNone then B.setConn n { c with timer := some B.time.elapsed } else B
        else
          let c' := { c with
            nxt := seqAdd c.nxt (k + if finNow then 1 else 0), finSent := finNow
            state := if finNow then (if c.state = .closeWait then .lastAck else .finWait1) else c.state
            timer := if c.timer.isNone then some B.time.elapsed else c.timer
            timing := if c.timing.isNone && 0 < k then some (seqAdd c.nxt k, B.time.elapsed) else c.timing
            ackDue := none }
          let B := (B.setConn n c').sendSeg c' c.nxt c.rcvNxt (flACK + (if finNow then flFIN else 0) + (if last && 0 < k then flPSH else 0))
            ((c.sndBuf.drop sent).take k)
          Bench.tcpOutput n fuel B

def Bench.tcpGo (B : Bench) (n : Nat) : Bench :=
  Bench.tcpOutput n ((B.conn n).map (fun c => c.sndBuf.length + 2) |>.getD 0) B

/-- The first unacknowledged segment goes out again. -/
def Bench.resend (B : Bench) (n : Nat) : Bench :=
  match B.conn n with
  | none => B
  | some c =>
    match c.state with
    | .synSent => B.sendSeg c c.iss 0 flSYN []
    | .synRcvd => B.sendSeg c c.iss c.rcvNxt (flSYN + flACK) []
    | _ =>
      let k := min (c.segMax (B.mtu c.port)) c.flight
      let fin := c.finSent && k = c.flight
      if k = 0 && !fin then B else B.sendSeg c c.una c.rcvNxt (flACK + if fin then flFIN else 0) (c.sndBuf.take k)

/-! ## Ending a connection -/

/-- A transmit queue's descriptor ends: DONE, STATUS and RCONN are written, HEAD advances, and EVT raises its event (R647). -/
def Txq.zero : Txq := { head := 0, cur := none }
def Bench.txq (B : Bench) (q : Nat) : Txq := B.net.txq.get Txq.zero q
def Bench.setTxq (B : Bench) (q : Nat) (v : Txq) : Bench := { B with net := { B.net with txq := B.net.txq.set Txq.zero q v } }
def txqReg (q o : Nat) : Nat := 0x402000 + 0x20 * q + o
def Bench.txBase (B : Bench) (q : Nat) : Nat := ringBase (B.reg (txqReg q 0)) (B.reg (txqReg q 4))
def Bench.txN (B : Bench) (q : Nat) : Nat := 2 ^ (bitsOf (B.reg (txqReg q 4)) 11 8 + 6)
/-- The next descriptor is read, with port 0's MID, and NEXTSEQ is captured for JGATE (R644, R648). -/
def Bench.txFetch (B : Bench) (q : Nat) : Bench :=
  let v := B.txq q
  let tail := bitsOf (B.reg (txqReg q 8)) 14 0 % B.txN q
  if v.cur.isSome || v.head = tail || !B.serving (416 + q) then B
  else
    let ((l, bad), B) := B.unitRead (midPort 0) 0 (B.txBase q + 32 * v.head) 32
    let isOpen := match B.conn (leNat ((l.drop 12).take 2)) with
      | some c => decide (c.state ≠ .synSent && c.state ≠ .synRcvd)
      | none => false
    B.setTxq q { v with cur := some { desc := l, bad := bad.isSome, gate := B.jrn.nextSeq, open' := isOpen, started := false } }

def Bench.txDone (B : Bench) (q : Nat) (p : Bool) (status rconn : Nat) : Bench :=
  let v := B.txq q
  match v.cur with
  | none => B
  | some d =>
    let B := B.unitWrite (midPort (portNo p)) 0 (B.txBase q + 32 * v.head + 28) ([1] ++ leBytes 1 status ++ leBytes 2 rconn)
    let B := B.setTxq q { head := (v.head + 1) % B.txN q, cur := none }
    let B := if (d.desc.getD 15 0).getLsbD 1 then B.raise (640 + bitsOf (B.reg (txqReg q 0x10)) 4 0) else B
    B.txFetch q

/-- The connection's number is freed: what waits for it in transmit queues ends with CLOSED, or CONN_FAILED for its CONNECT. -/
def Bench.freeConnection (B : Bench) (n : Nat) : Bench :=
  match B.conn n with
  | none => B
  | some c =>
    let B := B.dropConn n
    let B := match c.txq with | some q => B.txDone q c.port 0x08 0 | none => B
    (c.recs.filterMap (·.queue)).foldl (fun B q => B.txDone q c.port 0x02 0) B

/-- CLOSED is delivered for a connection (R641). -/
def Bench.closed (B : Bench) (n : Nat) (status : Nat) : Bench :=
  match B.conn n with
  | none => B
  | some c =>
    if c.told then B
    else (B.setConn n { c with told := true }).rxPush (B.pfRxq c.prof) { rxEntry c.port 5 status n [] with flags := if c.kl then 4 else 0 }

/-- The connection ends without more: CLOSED where it had been announced, and its number is freed. -/
def Bench.endConn (B : Bench) (n : Nat) (status : Nat) (tell : Bool) : Bench :=
  match B.conn n with
  | none => B
  | some c =>
    let B := if tell && c.state ≠ .synSent && c.state ≠ .synRcvd then B.closed n status else B
    B.freeConnection n

/-- The connection is reset with RST. -/
def Bench.resetConn (B : Bench) (n : Nat) (status : Nat) (tell : Bool) : Bench :=
  match B.conn n with
  | none => B
  | some c => (B.sendSeg c c.nxt c.rcvNxt (flRST + flACK) []).endConn n status tell

/-! ## Opening -/

/-- A new connection, closed on both sides yet. -/
def Bench.newConn (B : Bench) (prof : Nat) (p v6 : Bool) (laddr raddr : List Byte) (lport rport : Nat) (rmac : List Byte) (st : TcpState) :
    Conn × Bench :=
  let (iss, B) := drawWord B
  ({ prof := prof, port := p, v6 := v6, laddr := laddr, raddr := raddr, lport := lport, rport := rport, rmac := rmac, state := st
     iss := iss, una := iss, nxt := iss + 1, sndBuf := [], fin := false, finSent := false, wnd := 0, sscale := 0, rscale := 0
     mss := if v6 then 1220 else 536, sackOk := false, tsOk := false, tsRecent := 0, cwnd := 0, ssthresh := 2 ^ 30, dupAcks := 0
     recover := none, rtt := none, rto := max 1000000 B.rtoMin, timing := none, timer := some B.time.elapsed, retries := 0
     rcvNxt := 0, rcvBuf := [], ooo := [], rcvd := 0, arrivals := [], finRcvd := false, ackDue := none, lastRx := B.time.elapsed
     probes := 0, waitSince := 0, part := none, rkey := none, wkey := none, hold := false, plain := [], plainTin := 0, rxJob := none
     kl := false, recs := [], txq := none, told := false }, B)

/-- What the peer's SYN settles. -/
def Conn.meet (c : Conn) (s : Seg) (own mtu : Nat) : Conn :=
  let c := { c with
    mss := max 64 (s.mss.getD c.mss), sackOk := s.sackOk, tsOk := s.ts.isSome, tsRecent := match s.ts with | some t => t.1 | none => 0
    sscale := s.scale.getD 0, rscale := if s.scale.isSome then own else 0, rcvNxt := s.seq + 1, wnd := s.wnd }
  { c with cwnd := 10 * c.segMax mtu }

/-- The connection that a segment belongs to. -/
def Bench.findConn (B : Bench) (p : Bool) (ip : Ip) (s : Seg) : Option Nat :=
  (B.net.conns.find? fun e =>
    e.2.port == p && e.2.v6 == ip.v6 && e.2.laddr == ip.dst && e.2.raddr == ip.src && e.2.lport == s.dport && e.2.rport == s.sport).map (·.1)

/-- A segment that belongs to no connection is answered with RST. -/
def Bench.refuseSeg (B : Bench) (p : Bool) (mac : List Byte) (ip : Ip) (s : Seg) : Bench :=
  if s.rst then B
  else
    let len := s.data.length + (if s.syn then 1 else 0) + (if s.fin then 1 else 0)
    let (seq, ack, fl) : Word × Word × Nat := if s.hasAck then (s.ack, 0, flRST) else (0, seqAdd s.seq len, flRST + flACK)
    let seg := beBytes 2 s.dport ++ beBytes 2 s.sport ++ beBytes 4 seq.toNat ++ beBytes 4 ack.toNat ++ [0x50, BitVec.ofNat 8 fl] ++ zeros 6
    B.sendIp p ip.v6 mac ip.dst ip.src 6 (withSum ip.v6 ip.dst ip.src 6 16 seg)

/-- A SYN to a listening profile opens a connection (R626). -/
def Bench.passiveOpen (B : Bench) (p : Bool) (mac : List Byte) (ip : Ip) (s : Seg) : Bench :=
  let prof := (List.range 64).find? fun j =>
    B.pfEn j && B.pfListen j && B.pfPorts j p && B.pfV6 j == ip.v6 && B.pfLport j == s.dport && B.ipEnabled p ip.v6 (B.pfAddr j)
      && B.ipAddr p ip.v6 (B.pfAddr j) == ip.dst
  match prof with
  | none => B.refuseSeg p mac ip s
  | some j =>
    if (B.ustate 0).requested ≠ stServing || (B.ustate 0).effective ≠ stServing then B
    else
      match B.freeConn with
      | none =>
        let B := B.refuseSeg p mac ip s
        ({ B with net := { B.net with synref := sat16 B.net.synref } }).raise 676
      | some n =>
        let (c, B) := B.newConn j p ip.v6 ip.dst ip.src s.dport s.sport mac .synRcvd
        let c := c.meet s B.ownScale (B.mtu p)
        (B.setConn n c).sendSeg c c.iss c.rcvNxt (flSYN + flACK) []

/-- NEW_CONN (R626, R640). -/
def Bench.announce (B : Bench) (n : Nat) : Bench :=
  match B.conn n with
  | none => B
  | some c =>
    let l := padTo 16 c.raddr ++ leBytes 2 c.rport ++ leBytes 2 c.lport ++ leBytes 1 c.prof ++ leBytes 1 (portNo c.port) ++ zeros 10
    B.rxPush (B.pfRxq c.prof) (rxEntry c.port 4 0 n l)

/-! ## Acknowledgements (RFC 5681, 6298, 6582) -/

/-- A round-trip sample. -/
def Conn.sample (c : Conn) (r rtoMin : Nat) : Conn :=
  let (s, v) : Nat × Nat := match c.rtt with
    | none => (r, r / 2)
    | some (s, v) => ((7 * s + r) / 8, (3 * v + (if r < s then s - r else r - s)) / 4)
  { c with rtt := some (s, v), rto := min 60000000 (max rtoMin (s + max 1 (4 * v))) }

/-- New data is acknowledged. -/
def Conn.acked (c : Conn) (ack : Word) (now rtoMin mtu : Nat) : Conn :=
  let total := seqDiff ack c.una
  let data := min total c.sndBuf.length
  let c := match c.timing with
    | some (q, t) => if seqLe q ack then { c with timing := none }.sample (now - t) rtoMin else c
    | none => c
  let mss := c.segMax mtu
  let c : Conn := match c.recover with
    | some r =>
      if seqLt ack r then { c with cwnd := (c.cwnd - data) + mss }
      else { c with cwnd := c.ssthresh, recover := none, dupAcks := 0 }
    | none => { c with
        cwnd := if c.cwnd < c.ssthresh then c.cwnd + min data mss else c.cwnd + max 1 (mss * mss / max 1 c.cwnd), dupAcks := 0 }
  { c with una := ack, sndBuf := c.sndBuf.drop data, retries := 0, timer := if ack = c.nxt then none else some now }

/-- A third duplicate acknowledgement starts fast retransmission. -/
def Bench.dupAck (B : Bench) (n : Nat) (c : Conn) : Bench :=
  let mss := c.segMax (B.mtu c.port)
  let d := c.dupAcks + 1
  if c.recover.isSome then B.setConn n { c with cwnd := c.cwnd + mss }
  else if d = 3 then
    let h := max (c.flight / 2) (2 * mss)
    (B.setConn n { c with dupAcks := d, ssthresh := h, cwnd := h + 3 * mss, recover := some c.nxt, timing := none }).resend n
  else B.setConn n { c with dupAcks := d }

/-! ## Arriving data -/

/-- Segments held out of order that have become next in order. -/
def Conn.pull : Nat → Conn → Conn
  | 0, c => c
  | fuel + 1, c =>
    match c.ooo.find? fun e => seqLe e.1 c.rcvNxt with
    | none => c
    | some e =>
      let skip := seqDiff c.rcvNxt e.1
      let new := e.2.drop skip
      Conn.pull fuel { c with
        ooo := c.ooo.filter fun d => d.1 ≠ e.1
        rcvBuf := c.rcvBuf ++ new, rcvd := c.rcvd + new.length, rcvNxt := seqAdd c.rcvNxt new.length }

/-- Data of a segment enters the receive buffer, within its space; true where it came in order. -/
def Conn.take (c : Conn) (seq : Word) (data : List Byte) (space : Nat) (now : BitVec 96) : Bool × Conn :=
  let skip := if seqLt seq c.rcvNxt then seqDiff c.rcvNxt seq else 0
  let start := seqAdd seq skip
  let ahead := seqDiff start c.rcvNxt
  let d := (data.drop skip).take (space - ahead)
  if d.isEmpty then (start = c.rcvNxt, c)
  else if start = c.rcvNxt then
    let c := { c with rcvBuf := c.rcvBuf ++ d, rcvd := c.rcvd + d.length, rcvNxt := seqAdd c.rcvNxt d.length }
    let gap := !c.ooo.isEmpty
    let c := Conn.pull (c.ooo.length + 1) c
    (!gap, { c with arrivals := c.arrivals ++ [(c.rcvd, now)] })
  else
    let same := c.ooo.filter fun e => e.1 = start
    if same.any fun e => d.length ≤ e.2.length then (false, c)
    else (false, { c with ooo := (start, d) :: c.ooo.filter fun e => e.1 ≠ start })

/-- The time at which the byte before position `pos` of the stream arrived. -/
def Conn.arrival (c : Conn) (pos : Nat) : BitVec 96 := ((c.arrivals.find? fun a => pos ≤ a.1).map (·.2)).getD 0

/-- A FIN in order. -/
def Bench.peerFin (B : Bench) (n : Nat) (c : Conn) : Bench :=
  let c := { c with finRcvd := true, rcvNxt := c.rcvNxt + 1 }
  let c := match c.state with
    | .established | .synRcvd => { c with state := .closeWait }
    | .finWait1 => { c with state := .closing }
    | .finWait2 => { c with state := .timeWait, waitSince := B.time.elapsed, timer := none }
    | .timeWait => { c with waitSince := B.time.elapsed }
    | _ => c
  (B.setConn n c).sendAck n

/-- The acknowledgement field of a segment on a synchronised connection: false where the segment ends there. -/
def Bench.tcpAck (B : Bench) (n : Nat) (c : Conn) (s : Seg) : Bool × Bench :=
  let wnd := s.wnd * 2 ^ c.sscale
  if seqLt c.nxt s.ack then (false, B.sendAck n)
  else
    let B := if seqLt c.una s.ack then
        let c' := { c.acked s.ack B.time.elapsed B.rtoMin (B.mtu c.port) with wnd := wnd }
        let B := B.setConn n c'
        if c'.recover.isSome then B.resend n else B
      else if s.ack = c.una && s.data.isEmpty && !s.fin && wnd = c.wnd && 0 < c.flight then B.dupAck n c
      else if s.ack = c.una then B.setConn n { c with wnd := wnd }
      else B
    match B.conn n with
    | none => (false, B)
    | some c =>
      let finAcked := c.finSent && c.una = c.nxt
      match c.state with
      | .finWait1 => (true, if finAcked then B.setConn n { c with state := .finWait2 } else B)
      | .closing =>
        (true, if finAcked then B.setConn n { c with state := .timeWait, waitSince := B.time.elapsed, timer := none } else B)
      | .lastAck => if finAcked then (false, B.freeConnection n) else (true, B)
      | _ => (true, B)

/-- Data and FIN of an acceptable segment; acknowledgement follows at the second segment, or within 200 µs. -/
def Bench.tcpData (B : Bench) (n : Nat) (s : Seg) (now : BitVec 96) : Bench :=
  match B.conn n with
  | none => B
  | some c =>
    if c.finRcvd then (if s.data.isEmpty && !s.fin then B else B.sendAck n)
    else
      let (order, c') := if s.data.isEmpty then (true, c) else c.take s.seq s.data (B.rcvSpace c) now
      let segEnd := seqAdd s.seq s.data.length
      let B := B.setConn n c'
      if s.fin && c'.rcvNxt = segEnd then B.peerFin n c'
      else if s.data.isEmpty && !s.fin then B
      else if order && c'.ackDue.isNone then B.setConn n { c' with ackDue := some B.time.elapsed }
      else B.sendAck n

/-- A segment on a connection that has its peer's SYN. -/
def Bench.tcpSynced (B : Bench) (n : Nat) (c : Conn) (s : Seg) (now : BitVec 96) : Bench :=
  let len := s.data.length + (if s.fin then 1 else 0)
  let space := B.rcvSpace c
  let ahead := seqDiff s.seq c.rcvNxt
  let endAhead := seqDiff (seqAdd s.seq len) c.rcvNxt
  let old := seqLt s.seq c.rcvNxt
  let acceptable := if old then len ≠ 0 && endAhead ≤ space && endAhead ≠ 0 && !seqLt (seqAdd s.seq len) c.rcvNxt
    else decide (ahead < space) || (ahead = 0 && (space ≠ 0 || s.data.isEmpty))
  let paws := c.tsOk && !s.rst && (s.ts.map fun t => seqLt t.1 c.tsRecent).getD false
  if s.rst then
    if !(acceptable || s.seq = c.rcvNxt) then B else B.endConn n 0x07 true
  else if paws || !acceptable then B.sendAck n
  else if s.syn then B.sendAck n
  else if !s.hasAck then B
  else
    let c := { c with
      tsRecent := (match s.ts with | some t => if seqLe s.seq c.rcvNxt then t.1 else c.tsRecent | none => c.tsRecent)
      lastRx := B.time.elapsed, probes := 0 }
    if c.state = .synRcvd then
      if s.ack ≠ c.nxt then B.refuseSeg c.port c.rmac { v6 := c.v6, src := c.raddr, dst := c.laddr, proto := 6, payload := [] } s
      else
        let c := { c with state := .established, una := s.ack, timer := none, retries := 0, wnd := s.wnd * 2 ^ c.sscale }
        ((B.setConn n c).announce n).tcpData n s now
    else
      match (B.setConn n c).tcpAck n c s with
      | (false, B) => B
      | (true, B) => B.tcpData n s now

/-- A segment on a connection whose SYN is out. -/
def Bench.tcpSynSent (B : Bench) (n : Nat) (c : Conn) (s : Seg) : Bench :=
  let ip : Ip := { v6 := c.v6, src := c.raddr, dst := c.laddr, proto := 6, payload := [] }
  if s.hasAck && s.ack ≠ c.nxt then B.refuseSeg c.port c.rmac ip s
  else if s.rst then (if s.hasAck then B.endConn n 0x07 false else B)
  else if !s.syn then B
  else
    let c := { c.meet s B.ownScale (B.mtu c.port) with lastRx := B.time.elapsed }
    if s.hasAck then
      let q := c.txq
      let c := { c with state := .established, una := s.ack, timer := none, retries := 0, txq := none }
      let B := (B.setConn n c).sendAck n
      match q with
      | some q => B.txDone q c.port 0 n
      | none => B
    else
      let c := { c with state := .synRcvd }
      (B.setConn n c).sendSeg c c.iss c.rcvNxt (flSYN + flACK) []

/-- A segment to an own address (R623, R626); the connection it touched. -/
def Bench.tcpSegment (B : Bench) (p : Bool) (mac : List Byte) (ip : Ip) (s : Seg) : Option Nat × Bench :=
  match B.findConn p ip s with
  | none =>
    if s.syn && !s.hasAck && !s.rst then (none, B.passiveOpen p mac ip s) else (none, B.refuseSeg p mac ip s)
  | some n =>
    match B.conn n with
    | none => (none, B)
    | some c =>
      if c.state = .synSent then (some n, B.tcpSynSent n c s) else (some n, B.tcpSynced n c s B.time.value)

/-! ## Timers (R624, R625) -/

/-- The RTO expires. -/
def Bench.tcpTimeout (B : Bench) (n : Nat) : Bench :=
  match B.conn n with
  | none => B
  | some c =>
    match c.timer with
    | none => B
    | some t =>
      if B.time.elapsed - t < c.rto then B
      else
        let opening := c.state = .synSent || c.state = .synRcvd
        let c := { c with timer := some B.time.elapsed, rto := min 60000000 (2 * c.rto), timing := none }
        if opening then
          if B.synRetry ≤ c.retries then (if c.state = .synSent then B.endConn n 0x08 false else B.resetConn n 0x08 false)
          else (B.setConn n { c with retries := c.retries + 1 }).resend n
        else if c.flight = 0 && !c.finSent then
          -- a window of zero is probed with one byte
          if c.sndBuf.isEmpty then B.setConn n { c with timer := none }
          else (B.setConn n c).sendSeg c c.nxt c.rcvNxt flACK (c.sndBuf.take 1)
        else if B.dataRetry ≤ c.retries then B.resetConn n 0x08 true
        else
          let mss := c.segMax (B.mtu c.port)
          let c := { c with
            retries := c.retries + 1, ssthresh := max (c.flight / 2) (2 * mss), cwnd := mss, recover := none, dupAcks := 0 }
          (B.setConn n c).resend n

/-- The idle time of the profile has passed (R624, R630). -/
def Bench.tcpKeepalive (B : Bench) (n : Nat) : Bench :=
  match B.conn n with
  | none => B
  | some c =>
    let k := B.pfKeepalive c.prof * 1000000
    if k = 0 || !(c.state = .established || c.state = .closeWait) || B.time.elapsed - c.lastRx < k * (c.probes + 1) then B
    else if B.dataRetry ≤ c.probes then B.resetConn n 0x08 true
    else
      let c := { c with probes := c.probes + 1 }
      (B.setConn n c).sendSeg c (c.nxt - 1) c.rcvNxt flACK []

/-- The delayed acknowledgement falls due. -/
def Bench.tcpDelayedAck (B : Bench) (n : Nat) : Bench :=
  match B.conn n with
  | none => B
  | some c =>
    match c.ackDue with
    | none => B
    | some t => if B.time.elapsed - t < 200 then B else B.sendAck n

/-- TIME_WAIT ends. -/
def Bench.tcpTimeWait (B : Bench) (n : Nat) : Bench :=
  match B.conn n with
  | none => B
  | some c => if c.state ≠ .timeWait || B.time.elapsed - c.waitSince < B.timeWaitUs then B else B.freeConnection n

end Sys2Proof.Machine
end

