-- ==== Sys2Proof/Machine/NetIn.lean ====
section
/-!
DEFINITION. Machine/NetIn.lean: what arrives on a port: the TLS record layer's input (R633, R634, R793), framing and admission
(R628, R629, R636 to R638), and frames (R617 to R622).
-/

namespace Sys2Proof.Machine

/-! ## Record-layer jobs (R633, R635) -/

/-- The SKE for a record-layer job: the least occupied of those that serve, ties by R59. One pointer serves both ports, which the spec
does not say: DESIGN CHOICE (log 74). -/
def Bench.chooseSke (B : Bench) : Nat × Bench :=
  let load (k : Nat) : Nat :=
    let e := B.eng (Fin.ofNat 18 (7 + k))
    e.unitQ.length + (List.finRange 4).foldl (fun n r => n + e.rings[r].subs.length) 0
  let up := (List.range 4).filter fun k => B.serving (7 + k)
  let ks := if up.isEmpty then List.range 4 else up
  let least := ks.foldl (fun m k => min m (load k)) (load (ks.headD 0))
  let k := (tie 4 B.net.lastSke (ks.filter fun k => load k = least)).getD 0
  (k, { B with net := { B.net with lastSke := k } })

def tlsNonce (k : TlsKey) : List Byte := xorBytes k.iv (zeros 4 ++ beBytes 8 k.seq)
def tlsHeader (type len : Nat) : List Byte := beBytes 1 type ++ [3, 3] ++ beBytes 2 len

/-- A record goes to an SKE; its number. -/
def Bench.tlsSubmit (B : Bench) (enc : Bool) (k : TlsKey) (aad data : List Byte) : Nat × Bench :=
  let id := B.net.next
  let B := { B with net := { B.net with next := id + 1 } }
  let (s, B) := B.chooseSke
  (id, B.unitSubmit (7 + s) (.tls id enc k.suite (tlsNonce k) k.key aad data))

/-- Sequence numbers at which a KeyUpdate is due (R635). -/
def TlsKey.next (k : TlsKey) : TlsKey := { k with seq := k.seq + 1 }
def klLimit : Nat := 2 ^ 24

/-- The KL flag of the next descriptor of a connection. -/
def Bench.takeKl (B : Bench) (n : Nat) : Nat × Bench :=
  match B.conn n with
  | some c => if c.kl then (4, B.setConn n { c with kl := false }) else (0, B)
  | none => (0, B)

/-- A fatal alert goes out and the connection is reset (R634). -/
def Bench.tlsFatal (B : Bench) (n code status : Nat) : Bench :=
  match B.conn n with
  | none => B
  | some c =>
    let (rec', c) : List Byte × Conn := match c.wkey with
      | none => (tlsHeader 21 2 ++ [2, BitVec.ofNat 8 code], c)
      | some k =>
        let h := tlsHeader 23 19
        (h ++ (tlsCrypt true k.suite (tlsNonce k) k.key h [2, BitVec.ofNat 8 code, 21]).getD [], { c with wkey := some k.next })
    ((B.setConn n { c with sndBuf := c.sndBuf ++ rec' }).tcpGo n).resetConn n status true

/-! ## Framing and admission -/

/-- The bytes that wait for framing: decrypted ones, or the receive buffer. -/
def Bench.connBytes (B : Bench) (c : Conn) : List Byte := if B.pfTls c.prof then c.plain else c.rcvBuf
def Bench.useBytes (B : Bench) (n : Nat) (c : Conn) (k : Nat) : Conn × Bench :=
  let c := if B.pfTls c.prof then { c with plain := c.plain.drop k }
    else
      let c := { c with rcvBuf := c.rcvBuf.drop k }
      { c with arrivals := c.arrivals.filter fun a => c.rcvd - c.rcvBuf.length ≤ a.1 }
  (c, B.setConn n c)

/-- The message length that a prefix states; none where it is malformed. -/
def framePrefix (framing : Nat) (l : List Byte) : Option Nat :=
  match framing with
  | 1 => some (beNat (l.take 2))
  | 2 => some (beNat (l.take 4))
  | _ =>
    let ds := (l.take 4).map (·.toNat)
    if ds.all fun d => 0x30 ≤ d && d ≤ 0x39 then some (ds.foldl (fun a d => a * 10 + (d - 0x30)) 0) else none
def prefixLen (framing : Nat) : Nat := if framing = 1 then 2 else 4

/-- The request identifier of a message, or NOKEY (R636). -/
def Bench.reqId (B : Bench) (j : Nat) (m : List Byte) : Option Nat :=
  let w3 := B.prof j 3
  let aOff := slice w3 15 0
  let aLen := slice w3 19 16
  let bLen := slice w3 23 20
  let enc := slice w3 25 24
  let bOff := slice (B.prof j 4) 15 0
  let l := (m.drop aOff).take aLen ++ (m.drop bOff).take bLen
  let inside := aOff + aLen ≤ m.length && bOff + bLen ≤ m.length
  let digit (b : Byte) : Option Nat :=
    let z := if enc = 1 then 0x30 else 0xF0
    if z ≤ b.toNat && b.toNat ≤ z + 9 then some (b.toNat - z) else none
  if enc = 0 then some 0
  else if !inside || (if enc = 3 then 6 < aLen + bLen else 12 < aLen + bLen) then none
  else if enc = 3 then some (beNat l)
  else if l.all fun b => (digit b).isSome then some (l.foldl (fun a b => a * 16 + (digit b).getD 0) 0)
  else none

/-- A whole message stands in its buffer: it is admitted or delivered (R636 to R638). -/
def Bench.messageDone (B : Bench) (n : Nat) (c : Conn) (addr : Nat) (m : List Byte) (tin : BitVec 96) : Bench :=
  let q := B.pfRxq c.prof
  let B := B.unitWrite (midPort (portNo c.port)) 0 addr m
  let (kl, B) := B.takeKl n
  let base : RxEntry := { rxEntry c.port 1 0 n [] with addr := some addr, len := m.length, flags := kl }
  if !B.pfAdmit c.prof then B.rxPush q base
  else
    let id := B.reqId c.prof m
    let token := B.net.next
    let B := { B with net := { B.net with next := token + 1 } }
    let e := { base with token := token, id := id.getD 0, flags := kl + if id.isNone then 2 else 0 }
    let r : Request := { reqid := BitVec.ofNat 48 (id.getD 0), tenant := B.pfTenant c.prof, tin := tin, path := if c.port then 2 else 1
                         queue := 288 + q, addr := addr, len := m.length, token := token }
    match B.jrnAdmit r with
    | (.refused reason, B) => B.rxPush q { e with status := 1, reason := reason }
    | (.waiting, B) => B.rxPush q { e with ready := false }

/-- A message of the profile can be admitted now: the bench serves (R44), and the journal unit's clock runs (R29). -/
def Bench.admits (B : Bench) (j : Nat) : Bool := !B.pfAdmit j || (B.serving 0 && B.jrnRuns)

/-- One step of framing: true where bytes were used. A message that could not be admitted stays in the connection. -/
def Bench.frameStep (B : Bench) (n : Nat) : Bool × Bench :=
  match B.conn n with
  | none => (false, B)
  | some c =>
    let l := B.connBytes c
    let q := B.pfRxq c.prof
    let f := B.pfFraming c.prof
    if l.isEmpty then (false, B)
    else if f = 0 then
      if !B.rxOpen q || !(B.rxq q).fifo.isEmpty then (false, B)
      else
        let k := min l.length (B.rxBufSize q)
        let (_, B) := B.useBytes n c k
        let (kl, B) := B.takeKl n
        (true, B.rxPush q { rxEntry c.port 2 0 n (l.take k) with flags := kl })
    else
      match c.part with
      | none =>
        let p := prefixLen f
        if l.length < p then (false, B)
        else
          let len := framePrefix f l
          if len.isNone || len == some 0 || B.pfMaxmsg c.prof < len.getD 0 then (false, B.resetConn n 0x03 true)
          else if !B.rxOpen q || !B.admits c.prof then (false, B)
          else
            let (a, B) := B.takeBuffer q c.port
            let (c, B) := B.useBytes n c p
            (true, B.setConn n { c with part := some { addr := a, need := len.getD 0, got := [] } })
      | some pt =>
        let k := min (pt.need - pt.got.length) l.length
        if pt.got.length + k = pt.need && !B.admits c.prof then (false, B)
        else
        let (c, B) := B.useBytes n c k
        let got := pt.got ++ l.take k
        if got.length < pt.need then (true, B.setConn n { c with part := some { pt with got := got } })
        else
          let tin := if B.pfTls c.prof then c.plainTin else c.arrival (c.rcvd - c.rcvBuf.length)
          (true, (B.setConn n { c with part := none }).messageDone n { c with part := none } pt.addr got tin)

/-! ## TLS input (R633, R634) -/

/-- The next received record: true where one was taken. -/
def Bench.recordStep (B : Bench) (n : Nat) : Bool × Bench :=
  match B.conn n with
  | none => (false, B)
  | some c =>
    let l := c.rcvBuf
    let type := (l.headD 0).toNat
    let len := beNat ((l.drop 3).take 2)
    if c.hold || c.rxJob.isSome || l.length < 5 then (false, B)
    else if 2 ^ 14 + 256 < len then (false, B.tlsFatal n 22 0x05)
    else if c.rkey.isNone && type = 23 then (false, B.tlsFatal n 22 0x05)
    else if l.length < 5 + len then (false, B)
    else
      let use (c : Conn) : Conn := { c with rcvBuf := l.drop (5 + len) }
      let tin := c.arrival (c.rcvd - l.length + 5 + len)
      match c.rkey with
      | none =>
        let q := B.pfRxq c.prof
        if !B.rxOpen q || !(B.rxq q).fifo.isEmpty then (false, B)
        else
          let B := B.setConn n { use c with hold := true }
          let (kl, B) := B.takeKl n
          (false, B.rxPush q { rxEntry c.port 3 0 n (l.take (5 + len)) with flags := kl })
      | some k =>
        let (id, B) := B.tlsSubmit false k (l.take 5) ((l.drop 5).take len)
        (false, B.setConn n { use c with
          rxJob := some id, rkey := some k.next, plainTin := tin, kl := c.kl || k.seq + 1 = klLimit })

/-- Everything that can be framed, delivered or decrypted is. -/
def Bench.inputN (n : Nat) : Nat → Bench → Bench
  | 0, B => B
  | fuel + 1, B =>
    match B.frameStep n with
    | (true, B) => Bench.inputN n fuel B
    | (false, B) =>
      match B.conn n with
      | none => B
      | some c => if B.pfTls c.prof && c.plain.length < 4 then (B.recordStep n).2 else B

/-- Nothing before the peer's FIN waits any more. -/
def Bench.drained (B : Bench) (c : Conn) : Bool :=
  let short (l : List Byte) : Bool := l.isEmpty || (c.part.isNone && B.pfFraming c.prof ≠ 0 && l.length < prefixLen (B.pfFraming c.prof))
  if B.pfTls c.prof then
    short c.plain && c.rxJob.isNone && (c.rcvBuf.length < 5 || c.rcvBuf.length < 5 + beNat ((c.rcvBuf.drop 3).take 2))
  else short c.rcvBuf

/-- A connection goes on: input, the peer's FIN, a window that opens again, output. -/
def Bench.connWork (B : Bench) (n : Nat) : Bench :=
  match B.conn n with
  | none => B
  | some c =>
    let closed := B.rcvSpace c < c.segMax (B.mtu c.port)
    let B := Bench.inputN n (c.rcvBuf.length + c.plain.length + 2) B
    match B.conn n with
    | none => B
    | some c =>
      let B := if closed && c.segMax (B.mtu c.port) ≤ B.rcvSpace c && c.state ≠ .synSent && c.state ≠ .synRcvd then B.sendAck n else B
      let B := if c.finRcvd && B.drained c then B.closed n 0x06 else B
      B.tcpGo n

/-- A decrypted record: its content feeds the framing, or is delivered as TLS_REC. -/
def Bench.recordIn (B : Bench) (n : Nat) (c : Conn) (l : List Byte) : Bench :=
  let type := (l.getLast?.map (·.toNat)).getD 0
  let content := l.dropLast
  let c := { c with rxJob := none }
  if type = 23 then (B.setConn n { c with plain := c.plain ++ content }).connWork n
  else
    let B := B.setConn n { c with hold := true }
    let (kl, B) := B.takeKl n
    (B.rxPush (B.pfRxq c.prof) { rxEntry c.port 3 0 n (BitVec.ofNat 8 type :: content) with flags := kl }).connWork n

/-- Records whose encryption is complete enter the stream, in order (R635, R647). -/
def Bench.flushRecs (n : Nat) : Nat → Bench → Bench
  | 0, B => B
  | fuel + 1, B =>
    match B.conn n with
    | none => B
    | some c =>
      match c.recs with
      | [] => B.tcpGo n
      | r :: t =>
        if r.parts.all fun p => p.2.isSome then
          let B := B.setConn n { c with recs := t, sndBuf := c.sndBuf ++ r.parts.flatMap fun p => p.2.getD [] }
          let B := match r.queue with | some q => B.txDone q c.port 0 0 | none => B
          Bench.flushRecs n fuel B
        else B.tcpGo n

/-- What a record-layer job left is acted on (R634, R793). -/
def Bench.tlsTake (B : Bench) (d : TlsDone) : Bench :=
  match B.net.conns.find? fun e => e.2.rxJob = some d.ident with
  | some (n, c) =>
    if d.status = 0 then B.recordIn n c d.bytes
    else if d.status = 1 then (B.setConn n { c with rxJob := none }).tlsFatal n 20 0x04
    else (B.setConn n { c with rxJob := none }).resetConn n 0x0A true
  | none =>
    match B.net.conns.find? fun e => e.2.recs.any fun r => r.parts.any fun p => p.1 = d.ident with
    | none => B
    | some (n, c) =>
      if d.status ≠ 0 then B.resetConn n 0x0A true
      else
        let mark (p : Nat × Option (List Byte)) : Nat × Option (List Byte) :=
          if p.1 = d.ident then (p.1, some (tlsHeader 23 d.bytes.length ++ d.bytes)) else p
        Bench.flushRecs n (c.recs.length + 1) (B.setConn n { c with recs := c.recs.map fun r => { r with parts := r.parts.map mark } })

def Bench.tlsSettle (B : Bench) : Bench :=
  let l := B.net.tlsDone
  l.foldl (fun B d => B.tlsTake d) { B with net := { B.net with tlsDone := [] } }

/-! ## Frames (R617 to R622) -/

/-- A datagram (R622). -/
def Bench.udpIn (B : Bench) (p : Bool) (frame : List Byte) (ip : Ip) : Bench :=
  let l := ip.payload
  let len := beNat ((l.drop 4).take 2)
  let noSum := !ip.v6 && beNat ((l.drop 6).take 2) = 0
  if l.length < 8 || len < 8 || l.length < len || !(noSum || sumOk ip.v6 ip.src ip.dst 17 (l.take len)) then B.portDrop p
  else
    let hit := (List.range 256).find? fun i =>
      let e := B.peer p i
      e.en && e.v6 == ip.v6 && e.raddr == ip.src && e.rport == beNat (l.take 2) && e.lport == beNat ((l.drop 2).take 2)
        && B.ipAddr p ip.v6 e.addr == ip.dst
    match hit with
    | none => B.control p frame
    | some i =>
      let e := B.peer p i
      let data := (l.take len).drop 8
      if e.jrn then B.partnerReceive p i data else B.rxDatagram e.rxq (rxEntry p 6 0 i data)

/-- A packet to an own address, or none of the port's business (R620, R621). -/
def Bench.ipIn (B : Bench) (p : Bool) (frame mac : List Byte) (ip : Ip) : Bench :=
  let l := ip.payload
  let own := (B.ownAddr p ip.v6 ip.dst).isSome
  let type := (l.headD 0).toNat
  if ip.proto = 58 && ip.v6 then
    if !sumOk true ip.src ip.dst 58 l then B.portDrop p
    else if type = 135 then (B.neighbourAnswer p mac ip.src l).getD (B.control p frame)
    else if type = 128 && own then B.echoAnswer p true mac ip.src ip.dst l
    else B.control p frame
  else if !own then B.control p frame
  else if ip.proto = 1 && !ip.v6 then
    if fold16 (sum16 l) ≠ 65535 then B.portDrop p
    else if type = 8 then B.echoAnswer p false mac ip.src ip.dst l else B.control p frame
  else if ip.proto = 17 then B.udpIn p frame ip
  else if ip.proto = 6 then
    match readSeg l with
    | none => B.portDrop p
    | some s =>
      if !sumOk ip.v6 ip.src ip.dst 6 l then B.portDrop p
      else
        match B.tcpSegment p mac ip s with
        | (none, B) => B
        | (some n, B) => B.connWork n
  else B.control p frame

/-- A whole frame arrives at a port (R616 to R621). -/
def Bench.frameIn (B : Bench) (p : Bool) (frame : List Byte) (fcsOk : Bool) : Bench :=
  if !B.portRuns p then B
  else if !fcsOk then B.portDrop p
  else
    match B.readEth p frame with
    | none => B.portDrop p
    | some e =>
      if !B.accepts p e || max 46 (B.mtu p) < e.payload.length then B.portDrop p
      else
        let B := B.modPort p fun v => { v with rxfrm := sat32 v.rxfrm }
        if ptpMacs.contains e.dst then B
        else if e.type = 0x0806 then (B.arpAnswer p e.payload).getD (B.control p frame)
        else if e.type = 0x0800 || e.type = 0x86DD then
          match B.readIp p (e.type = 0x86DD) e.payload with
          | none => B.portDrop p
          | some ip => B.ipIn p frame e.src ip
        else B.control p frame

/-- A link comes up or goes down (R615, R651). -/
def Bench.linkChange (B : Bench) (p up : Bool) (rate : BitVec 3) (anDone : Bool) : Bench :=
  let v := B.port p
  if v.up = up then B
  else
    let cfg := B.reg (portBase p)
    let own : BitVec 3 := cfg.extractLsb' 0 3
    let negotiates := cfg.getLsbD 3 && own ≠ 2
    (B.setPort p { v with
      up := up, rate := if up then (if negotiates then rate else own) else v.rate, anDone := up && negotiates && anDone
      changes := sat16 v.changes }).raise (672 + portNo p)

/-- What waited in the connections for the bench to serve again goes on. -/
def Bench.connsGo (B : Bench) : Bench := B.net.conns.foldl (fun B e => B.connWork e.1) B

/-! ## Receive queues after space appears, and what the journal answered -/

/-- Space has appeared in a receive queue (R643): what waits is delivered. -/
def Bench.rxResume (B : Bench) (q : Nat) : Bench :=
  let B := B.rxSettle q
  (B.net.conns.filter fun e => B.pfRxq e.2.prof = q).foldl (fun B e => B.connWork e.1) B

end Sys2Proof.Machine
end

