-- ==== Sys2Proof/Machine/NetTx.lean ====
section
/-!
DEFINITION. Machine/NetTx.lean: the transmit queues' operations (R632, R633, R635, R644 to R650).
-/

namespace Sys2Proof.Machine

/-! ## Descriptors -/

def TxCur.byte (d : TxCur) (i : Nat) : Nat := (d.desc.getD i 0).toNat
def TxCur.num (d : TxCur) (i n : Nat) : Nat := leNat ((d.desc.drop i).take n)
def TxCur.addr (d : TxCur) : Nat := d.num 0 5
def TxCur.len (d : TxCur) : Nat := d.num 8 4
def TxCur.conn (d : TxCur) : Nat := d.num 12 2
def TxCur.op (d : TxCur) : Nat := d.byte 14
def TxCur.arg (d : TxCur) : Nat := d.byte 16
def TxCur.jgate (d : TxCur) : Bool := (d.byte 15).testBit 0
def TxCur.port (d : TxCur) : Bool := (d.byte 15).testBit 2
def TxCur.opOk (d : TxCur) : Bool := 1 ≤ d.op && d.op ≤ 10
/-- The fields that must be zero are (R644). -/
def TxCur.formed (d : TxCur) : Bool :=
  d.opOk && d.num 5 3 = 0 && d.byte 15 < 8 && (d.arg = 0 || d.op = 3 || d.op = 6) && d.num 17 11 = 0

/-- The connection of a descriptor that needs an open one; the status where there is none. -/
def Bench.txConn (B : Bench) (d : TxCur) : Except Nat Conn :=
  match B.conn d.conn with
  | none => .error (if d.open' then 0x02 else 0x01)
  | some c => if c.state = .synSent || c.state = .synRcvd then .error 0x01 else .ok c

/-! ## Operations: each ends its descriptor with txDone, or leaves it waiting -/

/-- The data of a descriptor, read whole before any of it is used (R647); a status where it cannot be. -/
def Bench.txData (B : Bench) (p : Bool) (d : TxCur) : Option (List Byte) × Bench :=
  let ((l, bad), B) := B.unitRead (midPort (portNo p)) 0 d.addr d.len
  (if bad.isSome then none else some l, B)

/-- `n` more bytes have room in the retransmit buffer, or it is empty. -/
def Bench.txRoom (B : Bench) (c : Conn) (n : Nat) : Bool :=
  (c.sndBuf.isEmpty && c.recs.isEmpty) || decide (c.sndBuf.length + n ≤ B.tcpBuf)

def framePre (framing n : Nat) : List Byte :=
  match framing with
  | 1 => beBytes 2 n
  | 2 => beBytes 4 n
  | 3 => [n / 1000, n / 100 % 10, n / 10 % 10, n % 10].map fun d => BitVec.ofNat 8 (0x30 + d)
  | _ => []
def frameMax (framing : Nat) : Nat := if framing = 1 then 65535 else if framing = 3 then 9999 else 65536

/-- A record of an inner type is handed to an SKE (R635). -/
def Bench.txRecord (B : Bench) (n type : Nat) (l : List Byte) : (Nat × Option (List Byte)) × Bench :=
  match B.conn n with
  | none => ((0, none), B)
  | some c =>
    match c.wkey with
    | none => 
      let id := B.net.next
      ((id, some (tlsHeader type l.length ++ l)), { B with net := { B.net with next := id + 1 } })
    | some k =>
      let (id, B) := B.tlsSubmit true k (tlsHeader 23 (l.length + 17)) (l ++ [BitVec.ofNat 8 type])
      ((id, none), B.modConn n fun c => { c with wkey := some k.next, kl := c.kl || k.seq + 1 = klLimit })

/-- Pieces of at most 16,384 bytes. -/
def recordCuts : Nat → List Byte → List (List Byte)
  | 0, _ => []
  | fuel + 1, l => if l.length ≤ 16384 then [l] else l.take 16384 :: recordCuts fuel (l.drop 16384)

/-- Records of a transmission enter the connection's order; the descriptor ends when they have been encrypted. -/
def Bench.txRecords (B : Bench) (q n type : Nat) (cuts : List (List Byte)) : Bench :=
  let (parts, B) := cuts.foldl (fun (acc : List (Nat × Option (List Byte)) × Bench) l =>
    let (p, B) := acc.2.txRecord n type l
    (acc.1 ++ [p], B)) ([], B)
  let B := B.setTxq q { B.txq q with cur := (B.txq q).cur.map fun d => { d with started := true } }
  let B := B.modConn n fun c => { c with recs := c.recs ++ [{ queue := some q, parts := parts }] }
  Bench.flushRecs n (((B.conn n).map (·.recs.length)).getD 0 + 1) B

/-- Bytes enter the stream. -/
def Bench.txStream (B : Bench) (q n : Nat) (p : Bool) (l : List Byte) : Bench :=
  ((B.modConn n fun c => { c with sndBuf := c.sndBuf ++ l }).txDone q p 0 0).tcpGo n

def Bench.txSend (B : Bench) (q : Nat) (d : TxCur) : Bench :=
  match B.txConn d with
  | .error s => B.txDone q d.port s 0
  | .ok c =>
    let f := B.pfFraming c.prof
    let tls := B.pfTls c.prof
    let total := prefixLen f + d.len
    if d.len = 0 || (tls && c.wkey.isNone) then B.txDone q c.port 0x03 0
    else if B.pfMaxmsg c.prof < d.len || frameMax f < d.len then B.txDone q c.port 0x05 0
    else if c.fin then B.txDone q c.port 0x02 0
    else if !B.txRoom c (total + if tls then (total / 16384 + 1) * 22 else 0) then B
    else
      match B.txData c.port d with
      | (none, B) => B.txDone q c.port 0x04 0
      | (some l, B) =>
        let l := framePre f l.length ++ l
        if tls then B.txRecords q d.conn 23 (recordCuts (l.length + 1) l) else B.txStream q d.conn c.port l

def Bench.txRaw (B : Bench) (q : Nat) (d : TxCur) : Bench :=
  match B.txConn d with
  | .error s => B.txDone q d.port s 0
  | .ok c =>
    if B.pfTls c.prof || d.len = 0 then B.txDone q c.port 0x03 0
    else if B.pfMaxmsg c.prof < d.len then B.txDone q c.port 0x05 0
    else if c.fin then B.txDone q c.port 0x02 0
    else if !B.txRoom c d.len then B
    else
      match B.txData c.port d with
      | (none, B) => B.txDone q c.port 0x04 0
      | (some l, B) => B.txStream q d.conn c.port l

def Bench.txTlsRaw (B : Bench) (q : Nat) (d : TxCur) : Bench :=
  match B.txConn d with
  | .error s => B.txDone q d.port s 0
  | .ok c =>
    if !B.pfTls c.prof || d.len = 0 then B.txDone q c.port 0x03 0
    else if 16384 < d.len then B.txDone q c.port 0x05 0
    else if c.fin then B.txDone q c.port 0x02 0
    else if !B.txRoom c (d.len + 22) then B
    else
      match B.txData c.port d with
      | (none, B) => B.txDone q c.port 0x04 0
      | (some l, B) => B.txRecords q d.conn d.arg [l]

def Bench.txUdp (B : Bench) (q : Nat) (d : TxCur) : Bench :=
  let e := B.peer d.port d.conn
  if 256 ≤ d.conn || !e.en then B.txDone q d.port 0x06 0
  else if B.udpRoom d.port e.v6 < d.len then B.txDone q d.port 0x05 0
  else
    match B.txData d.port d with
    | (none, B) => B.txDone q d.port 0x04 0
    | (some l, B) => (B.sendUdp d.port e l).txDone q d.port 0 0

def Bench.txFrame (B : Bench) (q : Nat) (d : TxCur) : Bench :=
  if d.len < 14 then B.txDone q d.port 0x03 0
  else if B.mtu d.port + 18 < d.len then B.txDone q d.port 0x05 0
  else
    match B.txData d.port d with
    | (none, B) => B.txDone q d.port 0x04 0
    | (some l, B) =>
      let head := if beNat ((l.drop 12).take 2) = 0x8100 then 18 else 14
      if B.mtu d.port + head < l.length then B.txDone q d.port 0x05 0
      else (B.sendRaw d.port l).txDone q d.port 0 0

/-- A local port for a connection, from 49,152 to 65,535, which no other connection with the same peer has: which one is
open. -/
def Bench.localPort (B : Bench) (p : Bool) (laddr raddr : List Byte) (rport : Nat) : Option Nat × Bench :=
  let (w, B) := drawWord B
  let used (n : Nat) : Bool := B.net.conns.any fun e =>
    e.2.port == p && e.2.laddr == laddr && e.2.raddr == raddr && e.2.rport == rport && e.2.lport == n
  (((List.range 16384).map fun i => 49152 + (w.toNat + i) % 16384).find? fun n => !used n, B)

def Bench.txConnect (B : Bench) (q : Nat) (d : TxCur) : Bench :=
  let p := d.port
  let e := B.peer p d.conn
  let j := d.arg
  if 64 ≤ j || !B.pfEn j || !B.pfPorts j p then B.txDone q p 0x03 0
  else if 256 ≤ d.conn || !e.en then B.txDone q p 0x06 0
  else if e.v6 != B.pfV6 j || !B.ipEnabled p e.v6 (B.pfAddr j) then B.txDone q p 0x03 0
  else
    let laddr := B.ipAddr p e.v6 (B.pfAddr j)
    match B.freeConn, B.localPort p laddr e.raddr e.rport with
    | some n, (some lport, B) =>
      let (c, B) := B.newConn j p e.v6 laddr e.raddr lport e.rport e.mac .synSent
      let c := { c with txq := some q }
      let B := B.setTxq q { B.txq q with cur := some { d with started := true } }
      (B.setConn n c).sendSeg c c.iss 0 flSYN []
    | _, (_, B) => B.txDone q p 0x07 0

def Bench.txClose (B : Bench) (q : Nat) (d : TxCur) : Bench :=
  match B.txConn d with
  | .error s => B.txDone q d.port s 0
  | .ok c => ((B.modConn d.conn fun c => { c with fin := true }).txDone q c.port 0 0).tcpGo d.conn

def Bench.txAbort (B : Bench) (q : Nat) (d : TxCur) : Bench :=
  match B.txConn d with
  | .error s => B.txDone q d.port s 0
  | .ok c => (B.resetConn d.conn 0 false).txDone q c.port 0 0

def Bench.txSetKey (B : Bench) (q : Nat) (d : TxCur) : Bench :=
  match B.txConn d with
  | .error s => B.txDone q d.port s 0
  | .ok c =>
    if !B.pfTls c.prof then B.txDone q c.port 0x03 0
    else
      let mid := midPort (portNo c.port)
      let ((l, bad), B) := B.unitRead mid 0 d.addr 64
      let B := B.unitWrite mid 0 d.addr (zeros 64)
      let dir := (l.getD 0 0).toNat
      let suite := (l.getD 1 0).toNat
      if bad.isSome then B.txDone q c.port 0x04 0
      else if 1 < dir || !(suite = 2 || suite = 3) || leNat ((l.drop 2).take 2) ≠ 0 || leNat ((l.drop 48).take 16) ≠ 0 then B.txDone q c.port 0x03 0
      else
        let k : TlsKey := { suite := suite, iv := (l.drop 4).take 12, key := (l.drop 16).take 32, seq := 0 }
        let B := if dir = 0 then B.modConn d.conn fun c => { c with rkey := some k, hold := false }
          else B.modConn d.conn fun c => { c with wkey := some k }
        (B.txDone q c.port 0 0).connWork d.conn

def Bench.txContinue (B : Bench) (q : Nat) (d : TxCur) : Bench :=
  match B.txConn d with
  | .error s => B.txDone q d.port s 0
  | .ok c =>
    if !B.pfTls c.prof then B.txDone q c.port 0x03 0
    else ((B.modConn d.conn fun c => { c with hold := false }).txDone q c.port 0 0).connWork d.conn

/-- Transmit queue q takes its next descriptor, if it holds operation `op`; any operation's row may take one that is
undefined or that could not be read. A descriptor that waits, or whose operation is in progress, is left as it is. -/
def Bench.txRun (B : Bench) (q op : Nat) (f : Bench → Nat → TxCur → Bench) : Bench :=
  let B := B.txFetch q
  match (B.txq q).cur with
  | none => B
  | some d =>
    if !B.drains (416 + q) || !B.islandOk (37 + portNo d.port) || d.started || (d.opOk && d.op ≠ op) || (d.jgate && B.durSeq < d.gate) then B
    else if d.bad then B.txDone q d.port 0x04 0
    else if !d.formed then B.txDone q d.port 0x03 0
    else f B q d

/-! ## Forced resets (R650) -/

/-- Every descriptor up to TAIL ends with RESET. -/
def Bench.txFlush (q : Nat) : Nat → Bench → Bench
  | 0, B => B
  | fuel + 1, B =>
    let v := B.txq q
    if v.head = bitsOf (B.reg (txqReg q 8)) 14 0 % B.txN q then B.setTxq q { v with cur := none }
    else
      let ((l, _), B) := B.unitRead (midPort 0) 0 (B.txBase q + 32 * v.head) 32
      let B := B.setTxq q { v with cur := some { desc := l, bad := false, gate := 0, open' := false, started := false } }
      let B := B.unitWrite (midPort 0) 0 (B.txBase q + 32 * v.head + 28) [1, 9, 0, 0]
      let B := if (l.getD 15 0).getLsbD 1 then B.raise (640 + bitsOf (B.reg (txqReg q 0x10)) 4 0) else B
      Bench.txFlush q fuel (B.setTxq q { head := (v.head + 1) % B.txN q, cur := none })

/-- What a transmit queue had begun no longer answers to it. -/
def Bench.txForget (B : Bench) (q : Nat) : Bench :=
  { B with net := { B.net with conns := B.net.conns.map fun e => (e.1, { e.2 with
      txq := if e.2.txq = some q then none else e.2.txq
      recs := e.2.recs.map fun r => if r.queue = some q then { r with queue := none } else r }) } }

def Bench.resetTxq (B : Bench) (q : Nat) : Bench :=
  let B := B.txForget q
  Bench.txFlush q (B.txN q + 1) B

/-- Every connection that `f` selects is reset, and CLOSED with STATUS RESET delivered for it. -/
def Bench.resetConns (B : Bench) (status : Nat) (f : Conn → Bool) : Bench :=
  (B.net.conns.filter fun e => f e.2).foldl (fun B e => B.resetConn e.1 status true) B

def Bench.resetPort (B : Bench) (p : Bool) : Bench := B.resetConns 0x0A fun c => c.port == p

/-- A receive queue delivers nothing further. -/
def Bench.resetRxq (B : Bench) (q : Nat) : Bench :=
  let B := B.setRxq q { B.rxq q with fifo := [], spare := [] }
  let B := (B.net.conns.filter fun e => B.pfRxq e.2.prof = q).foldl (fun B e => B.resetConn e.1 0x0A false) B
  B.setRxq q { B.rxq q with fifo := [] }

/-! ## Registers (R651) -/

def Port.link (v : Port) : Word :=
  BitVec.ofNat 32 ((if v.up then 1 else 0) + v.rate.toNat * 2 + (if v.anDone then 16 else 0) + v.changes.toNat * 65536)

def Bench.netRead (B : Bench) (off : Nat) : Word :=
  if 0x400000 ≤ off && off < 0x400800 then
    let p := decide (0x400400 ≤ off)
    let v := B.port p
    match off % 0x400 with
    | 0x08 => BitVec.ofNat 32 (leNat (v.mac.take 4))
    | 0x0C => BitVec.ofNat 32 (leNat (v.mac.drop 4))
    | 0x10 => v.link
    | 0x80 => v.rxfrm
    | 0x84 => v.txfrm
    | 0x88 => v.drop
    | 0x8C => v.fecunc
    | _ => B.reg off
  else if 0x401000 ≤ off && off < 0x402000 then
    let v := B.rxq ((off - 0x401000) / 0x20)
    match off % 0x20 with
    | 0x10 => BitVec.ofNat 32 (v.dhead + if v.phase then 0x8000 else 0)
    | 0x1C => BitVec.ofNat 32 (v.bhead + v.nobuf.toNat * 65536)
    | _ => B.reg off
  else if 0x402000 ≤ off && off < 0x403000 && off % 0x20 = 0x0C then BitVec.ofNat 32 (B.txq ((off - 0x402000) / 0x20)).head
  else if off = 0x40380C then BitVec.ofNat 32 (B.net.conns.length + B.net.synref.toNat * 65536)
  else B.reg off

/-- The fields of the words of a profile (R630). -/
def profFields (w : Nat) : List RField :=
  match w with
  | 0 => [fld 0 2, fld 2 2, fld 4 1, fld 5 1, fld 6 1, fld 7 1, fld 8 2, fld 10 1, fld 16 16]
  | 1 => [fld 0 7, fldIn 15 17 1 65536]
  | 2 => [fld 0 32]
  | 3 => [fld 0 16, fld 16 4, fld 20 4, fld 24 2]
  | 4 => [fld 0 16, fld 16 16]
  | _ => []

/-- EN can be set: MAXMSG fits the receive queue's buffers (R629), and an admitting profile frames its messages (R630). -/
def Bench.profOk (B : Bench) (j : Nat) : Bool :=
  decide (B.pfMaxmsg j ≤ B.rxBufSize (B.pfRxq j)) && !(B.pfAdmit j && B.pfFraming j = 0)

def Bench.netWrite (B : Bench) (off : Nat) (v : Word) : Bench :=
  if 0x403000 ≤ off && off < 0x403800 then
    let j := (off - 0x403000) / 0x20
    let w := (off - 0x403000) % 0x20 / 4
    if B.pfEn j || B.net.conns.any fun e => e.2.prof = j then B
    else
      let B := B.setReg off (mergeFields (profFields w) (B.reg off) v)
      if B.pfEn j && !B.profOk j then B.setReg (profWord j 0) (B.reg (profWord j 0) &&& ~~~0x400) else B
  else if 0x403800 ≤ off && off < 0x40380C then
    if !(B.configurable 20 && B.configurable 21) then B
    else
      let fs : List RField := match off with
        | 0x403800 => [fld 21 11]
        | 0x403804 => [fld 0 8, fldIn 8 2 0 2]
        | _ => [fldIn 0 10 1 1000, fldIn 16 8 1 240, fld 24 4, fld 28 4]
      B.setReg off (mergeFields fs (B.reg off) v)
  else
    let B := B.plainWrite off v
    if 0x401000 ≤ off && off < 0x402000 && (off % 0x20 = 0x14 || off % 0x20 = 0x18) then B.rxResume ((off - 0x401000) / 0x20)
    else if 0x402000 ≤ off && off < 0x403000 && off % 0x20 = 8 then B.txFetch ((off - 0x402000) / 0x20)
    else B

end Sys2Proof.Machine
end

