-- ==== Sys2Proof/Machine/Ustate.lean ====
section
/-!
DEFINITION. Machine/Ustate.lean: the state registers of the manageable units (R37 to R58), with what each unit does when its state
changes or a force resets it (R512, R515, R585, R601, R606, R650, R663).
-/

namespace Sys2Proof.Machine

/-- BENCH.USTATE has a unit at the index (R39). -/
def unitExists (u : Nat) : Bool := u ≤ 21 || (32 ≤ u && u < 544)

/-- REQUESTED accepts the code (R12, R42). -/
def stateOk (u : Nat) (v : BitVec 4) : Bool := v.toNat ≤ 2 || (v = stIsolated && u = 0)

/-! ## Quiescent points (R45, R46) -/

/-- A message is being placed in a buffer of the receive queue. -/
def Bench.rxPartial (B : Bench) (q : Nat) : Bool := B.net.conns.any fun e => e.2.part.isSome && B.pfRxq e.2.prof = q

/-- The unit at an index other than 0 is at its quiescent point. Bench time and a port at a frame boundary have none of their work
in the middle of a step of this model. A message whose end cannot arrive, since the bench's windows are closed, is no work in progress
(log 72). -/
def Bench.unitQuiet (B : Bench) (u : Nat) : Bool :=
  if u = 0 then true
  else if u < 18 then (B.eng (Fin.ofNat 18 u)).job.isNone
  else if u = 18 then
    B.jrn.held.isEmpty && (B.hmode = 0 || (B.jrn.nextSeq ≤ B.jrn.mirrorSeq && B.jrn.mirrorSigs.isEmpty))
      && (B.pmode = 0 || B.jrn.nextSeq ≤ B.jrn.pack)
  else if u < 32 then true
  else if u < 288 then (B.hqp (u - 32)).batch.isEmpty && (B.hqp (u - 32)).desc.isNone
  else if u < 416 then (B.rxq (u - 288)).fifo.isEmpty && !(B.serving 0 && B.rxPartial (u - 288))
  else (B.txq (u - 416)).cur.isNone

/-- The bench's quiescent point: no open item, and every other unit at its own. -/
def Bench.benchQuiet (B : Bench) : Bool := B.openCount = 0 && (List.range 544).all fun u => !unitExists u || B.unitQuiet u

/-- The unit's own chapter lets EFFECTIVE take the state: an engine serves once its known-answer tests pass, and stays DISABLED where
they failed (R515); the journal unit serves after genesis or recovery (R585, R601). -/
def Bench.stateFit (B : Bench) (u : Nat) (v : BitVec 4) : Bool :=
  if 1 ≤ u && u ≤ 13 then
    let e := B.eng (Fin.ofNat 18 u)
    v = stDisabled || (!e.katFail && (v ≠ stServing || e.katOk))
  else if u = 18 then v ≠ stServing || (B.jrn.genesis && !B.jrn.recovering && !B.jrn.recoverDue)
  else true

/-- Genesis, where the journal unit's REQUESTED is SERVING and no chain exists (R585); the start of recovery, where one does
and a reset came between (R601). A unit whose clock has stopped does neither (R29). -/
def Bench.jrnRequest (B : Bench) : Bench :=
  if (B.ustate 18).requested ≠ stServing || !B.jrnRuns then B
  else if B.jrn.recoverDue then { B with jrn := { B.jrn with recovering := true } }
  else B.jrnGenesis

/-! ## Changes -/

/-- What follows a change of a unit's EFFECTIVE. -/
def Bench.unitChanged (B : Bench) (u : Nat) (was : BitVec 4) : Bench :=
  if u = 0 then
    let B := if (B.ustate 0).effective = stIsolated then B.resetConns 0x09 fun _ => true else B
    B.hqGo.connsGo
  else if u = 19 && was = stServing then B.holdover
  else if 32 ≤ u && u < 288 then B.hqGo
  else if 288 ≤ u && u < 416 then B.rxResume (u - 288)
  else if 416 ≤ u then B.txFetch (u - 416)
  else B

/-- Unit `u` reaches its quiescent point, and its EFFECTIVE takes REQUESTED (R38, R44, R45). -/
def Bench.quiescentPoint (B : Bench) (u : Nat) : Bench :=
  let s := B.ustate u
  if !unitExists u || s.requested = s.effective || s.forcing then B
  else
    let B := if u = 18 && !B.jrn.recovering then B.jrnRequest else B
    let quiet := (s.requested = stServing && (s.effective = stDisabled || s.effective = stQuiesced))
      || (if u = 0 then B.benchQuiet else B.unitQuiet u)
    if quiet && B.stateFit u s.requested then (B.changeState u).unitChanged u s.effective else B

/-- A write of REQUESTED (R38, R48): the divergence timer restarts on each change of value, and DIVERGED clears where the two
fields are equal again (R49). -/
def Bench.requestState (B : Bench) (u : Nat) (v : BitVec 4) : Bench :=
  let s := B.ustate u
  if !unitExists u || !stateOk u v || v = s.requested then B
  else
    let B := B.setUState u { s with
      requested := v, since := B.time.elapsed, passed := false, diverged := s.diverged && (s.forcing || v ≠ s.effective) }
    let B := if u = 18 then B.jrnRequest else B
    if v = s.effective then B.unitChanged u v else B

/-! ## Force (R51 to R56) -/

/-- The reset of a unit that a force makes. -/
def Bench.unitReset (B : Bench) (u : Nat) : Bench :=
  if u < 18 then (B.resetUnit (Fin.ofNat 18 u) 1).tlsSettle
  else if u = 20 || u = 21 then (B.resetPort (u = 21)).jrnFailUnit u
  else if 32 ≤ u && u < 288 then (B.resetHqp (u - 32)).jrnFailUnit u
  else if 288 ≤ u && u < 416 then (B.resetRxq (u - 288)).jrnFailUnit u
  else if 416 ≤ u then B.resetTxq (u - 416)
  else B

/-- A write with FORCE = 1: a bench's is a software reset (R56), a unit's resets it. -/
def Bench.forceState (B : Bench) (u : Nat) : Bench :=
  let s := B.ustate u
  if !unitExists u || !s.diverged || s.forcing || u = 18 || u = 19 then B
  else if u = 0 then B.requestReset 0x12 1
  else (B.setUState u { s with forcing := true }).unitReset u

/-- An engine's known-answer tests (R515). -/
def Bench.engKat (B : Bench) (u : UnitNo) (fails : Bool) : Bench :=
  let B := B.modEng u fun e => { e with katOk := !fails, katFail := fails }
  if fails then B.raise 818 else B

/-- The reset that a force began completes (R52); `katFails` where an engine then fails its known-answer tests. The completion counts
as a change even where REQUESTED has come back to the value of EFFECTIVE: the spec does not say (DESIGN CHOICE, log 73). -/
def Bench.forcedDone (B : Bench) (u : Nat) (katFails : Bool) : Bench :=
  let s := B.ustate u
  if !s.forcing then B
  else
    let B := B.setUState u { s with forcing := false }
    let B := if 1 ≤ u && u ≤ 13 then B.engKat (Fin.ofNat 18 u) katFails else B
    let B := if u = 13 then B.drbgInstantiate else B
    if !B.stateFit u s.requested then
      -- an engine that failed its tests becomes DISABLED, and its request stays diverged (R49, R515)
      if s.effective = stDisabled then B
      else
        let v := B.ustate u
        (B.setUState u { v with effective := stDisabled, changes := v.changes + 1 }).raise 830
    else (B.changeState u).unitChanged u s.effective

/-! ## Divergence (R48) -/

/-- DIVLAST and EV_STATE_DIVERGE. -/
def Bench.divergeNote (B : Bench) (u : Nat) : Bench :=
  ({ B with ctl := { B.ctl with divUnit := BitVec.ofNat 10 u, divCount := sat16 B.ctl.divCount } }).raise 831

/-- The divergence timer of index `u` passes its limit, once for each time it (re)starts; index 22 is PWR.STATE (R736). -/
def Bench.divergence (B : Bench) (u : Nat) : Bench :=
  let past (since : Nat) : Bool := B.ctl.divto.toNat * 1000 ≤ B.time.elapsed - since
  if u = 22 then
    let p := B.pwr
    if p.requested = p.effective || (p.requested = 0 && p.effective = 1) || p.passed || !past p.since then B
    else ({ B with pwr := { p with diverged := true, passed := true } }).divergeNote 22
  else
    let s := B.ustate u
    if !unitExists u || s.requested = s.effective || s.passed || !past s.since then B
    else (B.setUState u { s with diverged := true, passed := true }).divergeNote u

/-! ## The register -/

def UState.word (s : UState) : Word :=
  BitVec.ofNat 32 (s.requested.toNat + s.effective.toNat * 2 ^ 8 + (if s.diverged then 2 ^ 16 else 0) + s.changes.toNat * 2 ^ 24)

def Bench.ustateWrite (B : Bench) (u : Nat) (v : Word) : Bench :=
  if v.getLsbD 17 then B.forceState u else B.requestState u (v.truncate 4)

end Sys2Proof.Machine
end

