-- ==== Sys2Proof/Machine/Power.lean ====
section
/-!
DEFINITION. Machine/Power.lean: a bench's power states (R736 to R742), its frequency and the ceilings that bound it (R750 to R757),
parked cores (R756), islands whose FLL loses lock (R29), the bench watchdog (R682) and the registers of R759.
-/

namespace Sys2Proof.Machine

/-! ## Power states -/

/-- A write of REQUESTED in PWR.STATE; a HALT in force refuses NAP and OFF (R734). -/
def Bench.pwrRequest (B : Bench) (v : BitVec 4) : Bench :=
  let p := B.pwr
  if v = 1 || 3 < v.toNat || v = p.requested || (p.halt && v ≠ 0) then B
  else
    let same := v = p.effective || (v = 0 && p.effective = 1)
    { B with pwr := { p with requested := v, since := B.time.elapsed, diverged := p.diverged && !same, passed := false } }

/-- No strand is READY or RUNNING, and the supervisor core waits (R737, R738). -/
def Bench.strandsIdle (B : Bench) : Bool :=
  (B.sched.tasks.all fun e => e.2.state ≠ TaskState.ready && e.2.state ≠ TaskState.running) && (B.core bsc).waiting

/-- No engine, Clicker or Closer has a job in flight. -/
def Bench.noJobs (B : Bench) : Bool := (List.finRange 18).all fun u => (B.eng u).job.isNone

/-- No port or host DMA is active: no host queue or network queue has an entry in progress. -/
def Bench.dmaIdle (B : Bench) : Bool := (List.range 512).all fun u => B.unitQuiet (32 + u)

/-- Entry to IDLE (R737). -/
def Bench.idleEntry (B : Bench) : Bench :=
  if B.pwr.effective = 0 && B.strandsIdle && B.noJobs && B.dmaIdle && !B.pwr.halt then { B with pwr := { B.pwr with effective := 1 } } else B

/-- Return from IDLE. -/
def Bench.idleExit (B : Bench) : Bench := if B.pwr.effective = 1 then { B with pwr := { B.pwr with effective := 0 } } else B

/-- The quiescent point of a request for NAP or OFF (R738). -/
def Bench.napReady (B : Bench) (v : BitVec 4) : Bool :=
  let e := (B.ustate 0).effective
  B.pwr.requested = v && B.pwr.effective ≠ v && (e = stQuiesced || e = stDisabled) && B.strandsIdle && B.rake.op.isNone && !B.pwr.halt

/-- Entry to NAP or OFF. A ceremony ends (R445), and in OFF only the pending events of the groups that PWR.WAKE enables stay. The
occurrence of EV_PWR_STATE for the entry itself wakes nothing. -/
def Bench.sleep (B : Bench) (v : BitVec 4) : Bench :=
  if !B.napReady v then B
  else
    let B := (B.cerEnd true).pend 835
    let B := { B with pwr := { B.pwr with effective := v, changes := B.pwr.changes + 1, diverged := false, passed := false } }
    if v ≠ 3 then B
    else { B with sched := { B.sched with
      evstat := (B.sched.evstat.map fun e => (e.1, { e.2 with pending := e.2.pending && B.wakeOn e.1 })).filter (·.2 ≠ EvStat.zero) } }

/-- The events that stayed pending are delivered (R741). -/
def Bench.deliverAll (B : Bench) : Bench := (B.pendingSources fun _ => true).foldl (fun B n => B.deliver n) B

/-- The bench leaves NAP (R739). -/
def Bench.napWake (B : Bench) : Bench :=
  if B.pwr.effective ≠ 2 || B.pwr.requested ≠ 0 then B
  else
    let B := { B with pwr := { B.pwr with effective := 0, changes := B.pwr.changes + 1, diverged := false, passed := false } }
    (B.raise 835).deliverAll

/-! ## Frequency -/

/-- The ceiling in force (R751, R753 to R755). -/
def Pwr.ceiling (p : Pwr) : Nat := min p.ceil.toNat (min p.thermalCeil (min p.currentCeil (min p.capCeil p.marginCeil)))
/-- The frequency selected, in 25 MHz. -/
def Pwr.selected (p : Pwr) : Nat := min p.freq p.ceiling

/-- PWR.QTGT[i]. -/
def Bench.qtgt (B : Bench) (i : Nat) : Nat := bitsOf (B.reg (0x500100 + 4 * i)) 15 0
def Bench.targets (B : Bench) : List (Nat × Nat) := ((List.range 384).map fun i => (i, B.qtgt i)).filter fun t => t.2 ≠ 0

/-- The choice of frequency (R751), with the queues' mean latencies over the last millisecond. -/
def Bench.selectFreq (B : Bench) (lat : List (Fin 384 × Half)) : Bench :=
  let of (i : Nat) : Nat := ((lat.find? fun e => e.1.val = i).map (·.2.toNat)).getD 0
  let ts := B.targets
  let p := B.pwr
  let now := p.selected
  let f := if ts.isEmpty then p.ceiling
    else if ts.any fun t => t.2 < of t.1 then p.ceiling
    else if ts.all fun t => of t.1 * 2 < t.2 then max (now - 1) p.floor.toNat
    else now
  { B with pwr := { p with freq := min f p.ceiling } }

/-- CLAMPED and its causes (R757): safety holds the frequency below FLOOR. -/
def Bench.clampUpdate (B : Bench) (marginBinds : Bool) : Bench :=
  let p := B.pwr
  let t := p.thermalCeil < p.floor.toNat
  let c := p.currentCeil < p.floor.toNat
  let m := marginBinds && p.marginCeil < p.floor.toNat
  if t || c || m then
    let B := { B with pwr := { p with
      clamped := true, clThermal := p.clThermal || t, clCurrent := p.clCurrent || c, clMargin := p.clMargin || m
      calmSince := B.time.elapsed + 1 } }
    if p.clamped then B else B.raise 832
  else if p.clamped && B.time.elapsed < p.calmSince then { B with pwr := { p with calmSince := B.time.elapsed } }
  else B

/-- A cause of clamping is present. -/
def Pwr.pressed (p : Pwr) : Bool :=
  decide (p.thermalCeil < p.floor.toNat) || decide (p.currentCeil < p.floor.toNat) || (p.clMargin && decide (p.marginCeil < p.floor.toNat))

/-- Every cause has been absent for 1 ms (R757). -/
def Bench.policyRelease (B : Bench) : Bench :=
  let p := B.pwr
  if !p.clamped || p.pressed || B.time.elapsed < p.calmSince + 1000 then B
  else ({ B with pwr := { p with clamped := false, clThermal := false, clCurrent := false, clMargin := false } }).raise 833

/-- A step of the thermal loop at junction temperature `tj` (R753). A ceiling never falls below one step of 25 MHz. -/
def Bench.thermalStep (B : Bench) (tj : Byte) : Bench :=
  let p := B.pwr
  let p := { p with tj := tj, tjmax := if p.tjmax.toInt < tj.toInt then tj else p.tjmax }
  let c := min p.thermalCeil p.ceil.toNat
  let B : Bench :=
    if 100 ≤ tj.toInt then
      let B := { B with pwr := { p with thermalCeil := max 1 (c - 4), throttling := true } }
      if p.throttling then B else B.raise 834
    else if tj.toInt ≤ 97 && p.throttling then
      if p.ceil.toNat ≤ c + 1 then ({ B with pwr := { p with thermalCeil := 80, throttling := false } }).raise 834
      else { B with pwr := { p with thermalCeil := c + 1 } }
    else { B with pwr := p }
  B.clampUpdate false

/-- A step of the current loop (R754): the ceiling falls, or is restored. -/
def Bench.currentStep (B : Bench) (fall restore : Bool) : Bench :=
  let p := B.pwr
  let c := min p.currentCeil p.ceil.toNat
  let c := if fall then max 1 (c - 4) else if restore then 80 else p.currentCeil
  ({ B with pwr := { p with currentCeil := c } }).clampUpdate false

/-- A step of the power cap (R755): down to FLOOR, or up again. -/
def Bench.capStep (B : Bench) (fall rise : Bool) : Bench :=
  let p := B.pwr
  let c := min p.capCeil p.ceil.toNat
  let c := if fall then max p.floor.toNat (c - 1) else if rise then (if p.ceil.toNat ≤ c + 1 then 80 else c + 1) else p.capCeil
  { B with pwr := { p with capCeil := c } }

/-- The frequency at which the bench's FLLs keep their margin (R29, R751); `top` where VDD_CORE is 0.85 V. -/
def Bench.marginLimit (B : Bench) (f : BitVec 7) (top : Bool) : Bench :=
  ({ B with pwr := { B.pwr with marginCeil := f.toNat } }).clampUpdate top

/-! ## Parked cores (R756) -/

def Bench.parkWrite (B : Bench) (v : Half) : Bench :=
  if v = 0xFFFF then B
  else { B with cores := Vector.ofFn fun k =>
    let c := B.cores[k]
    if k.val < 16 then { c with parked := v.getLsbD k.val, gated := c.gated && v.getLsbD k.val } else c }

/-- The banks 1 to 7 of a core hold nothing that stands in the way of gating. -/
def Bench.gateable (B : Bench) (k : CoreNo) : Bool :=
  (List.finRange 8).all fun b => b = 0 || match (B.bank k b).task with
    | none => true
    | some t =>
      let s := (B.task t).state
      (s = TaskState.waiting || s = TaskState.stopped) && !B.pinned k b

/-- The scheduler spills a parked core's tasks, and the core is power-gated. -/
def Bench.gateCore (B : Bench) (k : CoreNo) : Bench :=
  let c := B.core k
  if !c.parked || c.gated || k = bsc || c.cur.isSome || c.escActive || c.halted || !(B.readyBanks k).isEmpty || !B.gateable k then B
  else
    let (ok, B) : Bool × Bench := (List.finRange 8).foldl (fun (a : Bool × Bench) b =>
      if !a.1 || b = 0 then a else a.2.spill k b) (true, B)
    if ok then B.modCore k fun c => { c with gated := true } else B

/-- An event for the home task ungates a gated core. -/
def Bench.ungate (B : Bench) (k : CoreNo) : Bench :=
  if (B.core k).gated && !(B.readyBanks k).isEmpty then B.modCore k fun c => { c with gated := false } else B

/-! ## Islands (R29) -/

/-- The islands by number: cores 0 to 15, the supervisor core 16, the quads' L2s 17 to 20, engine u at 20 + u, the message
units 34, the journal unit 35, the time unit 36, the ports 37 and 38, the memory controller 39. -/
abbrev Island := Fin 40

/-- A core's clock runs only while its own island and its quad's L2 do. -/
def Bench.coreClocks (B : Bench) : Bench :=
  { B with cores := Vector.ofFn fun k =>
      let stop := !B.islandOk k.val || (k.val < 16 && !B.islandOk (17 + k.val / 4))
      { B.cores[k] with clockStopped := stop } }

def Bench.fllLoss (B : Bench) (i : Island) : Bench :=
  if !B.islandOk i.val then B
  else ({ B with rst := { B.rst with fllLost := B.rst.fllLost ++ [(i.val, B.time.elapsed)] } }).coreClocks

def Bench.fllRelock (B : Bench) (i : Island) : Bench :=
  ({ B with rst := { B.rst with fllLost := B.rst.fllLost.filter fun e => e.1 ≠ i.val } }).coreClocks

/-- An FLL has not relocked within 1 ms: a bench clock failure (R29, R572). -/
def Bench.fllTimeout (B : Bench) : Bench :=
  if B.rst.fllLost.any fun e => 1000 ≤ B.time.elapsed - e.2 then ({ B with time := B.time.clockFailed }).requestReset 0x14 0 else B

/-- The island of a unit (BENCH.USTATE index). -/
def unitIsland (u : Nat) : Nat :=
  if 1 ≤ u && u ≤ 13 then 20 + u else if u < 18 then 34 else if u = 18 then 35 else if u = 19 then 36 else if u = 20 then 37
  else if u = 21 then 38 else 16

/-- The bench performs work of unit `u`: it is released and in RUN, no reset has begun, and the clocks of the unit and of the memory
controller run (R29, R686, R737, R739). -/
def Bench.unitRuns (B : Bench) (u : Nat) : Bool :=
  B.running && B.islandOk (unitIsland u) && B.islandOk 39

/-! ## The watchdog (R682) -/

def Bench.wdogExpiry (B : Bench) : Bench :=
  let t := B.rst.wdogTimeout.toNat
  if B.rst.firstFetch && t ≠ 0 && t * 1000 ≤ B.rst.wdogCount then B.requestReset 0x11 0 else B

/-! ## Registers (R759) -/

def Bench.pwrRead (B : Bench) (off : Nat) : Word :=
  let p := B.pwr
  if off = 0x500000 then
    BitVec.ofNat 32 (p.requested.toNat + (if B.rst.released then p.effective.toNat else 3) * 2 ^ 8 + (if p.diverged then 2 ^ 16 else 0)
      + p.changes.toNat * 2 ^ 24)
  else if off = 0x500004 then p.wake.zeroExtend 32
  else if off = 0x500008 then BitVec.ofNat 32 (p.floor.toNat + p.ceil.toNat * 2 ^ 8)
  else if off = 0x50000C then BitVec.ofNat 32 (B.coreBits (·.parked))
  else if off = 0x500010 then
    if !B.rst.released then 0 else BitVec.ofNat 32 ((if p.clamped then 1 else 0) + (if p.clThermal then 2 else 0) + (if p.clCurrent then 4 else 0)
      + (if p.clMargin then 8 else 0) + p.selected % 128 * 2 ^ 8 + p.ceiling % 128 * 2 ^ 16)
  else if off = 0x500014 then BitVec.ofNat 32 (p.tj.toNat + p.tjmax.toNat * 2 ^ 8)
  else if 0x500100 ≤ off && off < 0x500700 then B.reg off
  else 0

def Bench.pwrWrite (B : Bench) (off : Nat) (v : Word) : Bench :=
  let p := B.pwr
  if off = 0x500000 then B.pwrRequest (v.truncate 4)
  else if off = 0x500004 then { B with pwr := { p with wake := v.truncate 6 &&& 0x3D#6 } }
  else if off = 0x500008 then
    let old := p.floor.toNat + p.ceil.toNat * 2 ^ 8
    let n := mergeFields [fldIn 0 7 0 80, fldIn 8 7 1 80] (BitVec.ofNat 32 old) v
    if bitsOf n 14 8 < bitsOf n 6 0 then B
    else { B with pwr := { p with floor := n.extractLsb' 0 7, ceil := n.extractLsb' 8 7 } }
  else if off = 0x50000C then B.parkWrite (v.truncate 16)
  else if 0x500100 ≤ off && off < 0x500700 then B.setReg off (v &&& 0xFFFF#32)
  else B

end Sys2Proof.Machine
end

