-- ==== Sys2Proof/Machine/Rake.lean ====
section
/-!
DEFINITION. Machine/Rake.lean: the Rake's commands (R107 to R112, R400 to R406), the scrubber (R412) and the memory error
registers (R413).
-/

namespace Sys2Proof.Machine

/-! ## Places of the passes -/

/-- A line's place in a sweep: working SRAM first, then usable DRAM (R402). -/
def sweepRank (line : Nat) : Nat := if 0x40000000 ≤ line then line - 0x40000000 else line + 0x40000

/-- The line is in usable DRAM or in working SRAM. -/
def lineExists (line : Nat) : Bool := line < 0xF600000 || (0x40000000 ≤ line && line < 0x40040000)

/-- The pages of a TAGCLEAR or TAGCOUNT lie wholly in usable DRAM or in working SRAM (R402). -/
def rangeOk (ppn len : Nat) : Bool :=
  len ≠ 0 && (ppn + len ≤ 0x3D8000 || (0x1000000 ≤ ppn && ppn + len ≤ 0x1001000))

/-! ## Ends (R404) -/

/-- A command ends in a state. -/
def Rake.ended (r : Rake) (op : Nat) (state : BitVec 3) : Rake :=
  { r with state := state, op := none, abort := false, set := [], waitFor := [], lastProg := r.prog
           lastR := BitVec.ofNat 32 (state.toNat + r.seq.toNat * 2 ^ 8 + op * 2 ^ 16) }

def RakeOp.code : RakeOp → Nat
  | .sweep => 1
  | .tagclear => 3
  | .tagcount => 4

def Bench.rakeEnd (B : Bench) (op : Nat) (state : BitVec 3) : Bench :=
  ({ B with rake := B.rake.ended op state }).raise 580

/-! ## The register pass (R108 step 3, R475) -/

def Cap.revokedIn (c : Cap) (set : List (Nat × Nat)) : Bool := set.any fun r => c.revokedBy r.1 r.2
def Cap.swept (c : Cap) (set : List (Nat × Nat)) : Cap := if c.revokedIn set then c.clearTag else c

def Bank.swept (s : Bank) (set : List (Nat × Nat)) : Bank :=
  { s with c := s.c.map (·.swept set), epcc := s.epcc.swept set, entry := s.entry.map (·.swept set)
           entryCsp := s.entryCsp.map (·.swept set) }

/-- A descriptor waiting in a ring: the tags of its revoked operands clear. -/
def Sub.swept (q : Sub) (set : List (Nat × Nat)) : Sub :=
  let keep (i : Nat) : Bool := !(capOf ((q.desc.drop (16 * i)).take 16) (q.tags.getLsbD i)).revokedIn set
  { q with tags := BitVec.ofNat 4 (((List.range 4).filter fun i => q.tags.getLsbD i && keep i).foldl (fun n i => n + 2 ^ i) 0) }

def Eng.swept (e : Eng) (set : List (Nat × Nat)) : Eng :=
  { e with rings := e.rings.map fun r => { r with subs := r.subs.map (·.swept set) } }

def Bench.registerPass (B : Bench) (set : List (Nat × Nat)) : Bench :=
  { B with
    cores := B.cores.map fun c => { c with banks := c.banks.map (·.swept set) }
    engs := B.engs.map (·.swept set) }

/-! ## Starts (R400, R402) -/

def readSet : Nat → Nat → S (List (Nat × Nat))
  | 0, _ => pure []
  | n + 1, a => fun B =>
    let (r, B) := B.readPart midRake 0 a 16 kindRead .r
    let (t, B) := readSet n (a + 16) B
    ((leNat (r.bytes.take 8), leNat (r.bytes.drop 8)) :: t, B)

def setValid : List (Nat × Nat) → Bool
  | [] => true
  | (b, t) :: rest => b < t && (match rest with | [] => true | (b', _) :: _ => t ≤ b') && setValid rest

def Bench.rakeBusy (B : Bench) : Bool := B.rake.op.isSome

/-- SWEEP (R108 steps 1 to 3). -/
def Bench.rakeSweep (B : Bench) : Bench :=
  if B.rakeBusy then B
  else
    let B := { B with rake := { B.rake with seq := B.rake.seq + 1 } }
    let (set, B) := readSet B.rake.setCnt.toNat (0x1000000000 + B.rake.setOff.toNat * 16) B
    if !setValid set then B.rakeEnd 1 6
    else
      let waitFor := (List.finRange 18).filterMap fun u => match (B.eng u).job with
        | some j => if j.ring.isSome then some u.val else none
        | none => none
      let B := B.registerPass set
      { B with rake := { B.rake with
        state := 2, op := some .sweep, set := set, abort := false, waitFor := waitFor, prog := 0x1000000, result := 0 } }

/-- TAGCLEAR or TAGCOUNT. -/
def Bench.rakeRange (B : Bench) (op : RakeOp) : Bench :=
  if B.rakeBusy then B
  else
    let r := { B.rake with seq := B.rake.seq + 1 }
    let B := { B with rake := r }
    if !rangeOk r.rangePpn.toNat r.rangeLen.toNat then B.rakeEnd op.code 6
    else { B with rake := { r with
      state := 2, op := some op, abort := false, waitFor := [], runPpn := r.rangePpn.toNat, runLen := r.rangeLen.toNat, prog := r.rangePpn, result := if op = .tagcount then 0 else r.result } }

/-- ABORT: the load filter goes at once, and the command ends at its next line. -/
def Bench.rakeAbort (B : Bench) : Bench :=
  if B.rakeBusy then { B with rake := { B.rake with abort := true } } else B

/-- RAKE.CMD. -/
def Bench.rakeCommand (B : Bench) (op : Nat) : Bench :=
  if op = 1 then B.rakeSweep
  else if op = 2 then B.rakeAbort
  else if op = 3 then B.rakeRange .tagclear
  else if op = 4 then B.rakeRange .tagcount
  else B

/-! ## The memory pass (R108 step 4) -/

/-- The Rake reads the lines of `ls`, which hold tags: their errors come to light. -/
def Bench.rakeRead (B : Bench) (ls : List Nat) : Bench := ls.foldl (fun B l => (B.checkLine midRake 0 false (l * 64)).2) B

/-- Errors of the tag lines that cover any of `f`'s lines come to light (R407, R411). -/
def Bench.rakeTagRead (B : Bench) (f : Nat → Bool) : Bench :=
  let covers (t : Nat) : Bool := (List.range 128).any fun i => f (t * 128 + i)
  let B := (B.mem.tagWeak.filter covers).foldl Bench.correctTag B
  (B.mem.tagLatent.filter covers).foldl Bench.tagError B

def satCount (n : Nat) : Word := if 0xFFFFFFFF ≤ n then 0xFFFFFFFF else BitVec.ofNat 32 n

/-- The sweep over the lines that `f` picks; `page` picks the pages wholly swept. -/
def Bench.sweepMemory (B : Bench) (f page : Nat → Bool) : Bench :=
  let B := B.rakeTagRead fun l => f l && B.mem.summary.contains (l / 64)
  let B := B.rakeRead (((B.mem.tags.map (· / 4)).filter f).eraseDups)
  let m := B.mem
  let gone := m.tags.filter fun g => f (g / 4) && (capOf (m.read (g * 16) 16) true).revokedIn B.rake.set
  let tags := m.tags.filter fun g => !gone.contains g
  { B with
    mem := { m with tags := tags, summary := m.summary.filter fun p => !page p || tags.any fun g => g / 256 = p }
    rake := { B.rake with result := satCount gone.length } }

def Bench.tagClear (B : Bench) (f page : Nat → Bool) : Bench :=
  let m := B.mem
  { B with mem := { m with tags := m.tags.filter fun g => !f (g / 4), summary := m.summary.filter fun p => !page p } }

def Bench.tagCount (B : Bench) (f : Nat → Bool) : Bench :=
  let B := B.rakeTagRead f
  { B with rake := { B.rake with result := satCount (B.mem.tags.filter fun g => f (g / 4)).length } }

/-- The command in progress does its memory pass: to its end, or to `reached` where an ABORT ends it there. -/
def Bench.rakePass (B : Bench) (op : RakeOp) (reached : Option Nat) : Bench :=
  let r := B.rake
  let lo := r.runPpn * 64
  let hi := lo + r.runLen * 64
  let before (l : Nat) : Bool := match reached with
    | none => true
    | some x => if op = .sweep then sweepRank l < sweepRank x else l < x
  let f (l : Nat) : Bool := before l && (op = .sweep || (lo ≤ l && l < hi))
  let page (p : Nat) : Bool := f (p * 64) && f (p * 64 + 63)
  let B : Bench := match op with
    | .sweep => B.sweepMemory f page
    | .tagclear => B.tagClear f page
    | .tagcount => B.tagCount f
  let prog : Nat := match reached with
    | some x => x / 64
    | none => if op = .sweep then 0x3D8000 else hi / 64
  { B with rake := { B.rake with prog := BitVec.ofNat 28 prog } }

/-- The lines that a pass reaches. -/
def Bench.rakeReaches (B : Bench) (op : RakeOp) (line : Nat) : Bool :=
  lineExists line && (op = .sweep || (B.rake.runPpn ≤ line / 64 && line / 64 < B.rake.runPpn + B.rake.runLen))

/-- The Rake's command ends, or a sweep has passed over memory and waits (R108 step 5). `reached` is the line at which an ABORT
ends it. -/
def Bench.rakeCommandEnd (B : Bench) (reached : Nat) : Bench :=
  match B.rake.op with
  | none => B
  | some op =>
    if B.rake.abort then
      let B := if B.rake.state = 2 then B.rakePass op (if B.rakeReaches op reached then some reached else none) else B
      B.rakeEnd op.code 5
    else
      let B := if B.rake.state = 2 then B.rakePass op none else B
      if B.rake.waitFor.isEmpty then B.rakeEnd op.code 4 else { B with rake := { B.rake with state := 3 } }

/-- A bench reset ends a command in progress (R112, R404). -/
def Rake.benchReset (r : Rake) : Rake :=
  let r := match r.op with
    | some op => r.ended op.code 7
    | none => r
  { r with state := 0, seq := 0, share := 2, setOff := 0, setCnt := 1, rangePpn := 0, rangeLen := 0, prog := 0, result := 0
           runPpn := 0, runLen := 0 }

def Rake.zero : Rake :=
  { state := 0, seq := 0, share := 2, setOff := 0, setCnt := 1, rangePpn := 0, rangeLen := 0, prog := 0, result := 0, lastR := 0
    lastProg := 0, op := none, set := [], runPpn := 0, runLen := 0, abort := false, waitFor := [] }

/-! ## The scrubber (R412) -/

/-- The marker of a pass's end in scrubPage. -/
def scrubEnd : Nat := 0x1001000

def MemErr.scrubNext (e : MemErr) : MemErr :=
  if e.scrubLine < 63 then { e with scrubLine := e.scrubLine + 1 }
  else
    let p := e.scrubPage + 1
    { e with scrubLine := 0, scrubPage := if p = 0x3D8000 then 0x1000000 else p }

/-- The scrubber reads its next line; `found` is what the check finds beside what the state already holds. -/
def Bench.scrubRead (B : Bench) (found : LineState) : Bench :=
  if B.memErr.scrubPeriod = 0 || B.memErr.scrubPage = scrubEnd then B
  else
    let line := B.memErr.scrubPage * 64 + B.memErr.scrubLine
    let m := B.mem
    let m := match found with
      | .intact => m
      | .correctable => { m with weak := setInsert m.weak line }
      | .uncorrectable => if m.poison.contains line then m else { m with latent := setInsert m.latent line }
      | .tagCorrectable => { m with tagWeak := setInsert m.tagWeak (line / 128) }
      | .tagLost => { m with tagLatent := setInsert m.tagLatent (line / 128) }
    let B := (({ B with mem := m }).checkLine 0xFF 0 false (line * 64)).2
    { B with memErr := B.memErr.scrubNext }

def Bench.scrubPassEnd (B : Bench) : Bench :=
  if B.memErr.scrubPage ≠ scrubEnd then B
  else ({ B with memErr := { B.memErr with scrubPage := 0, scrubLine := 0 } }).raise 898

/-! ## Registers (R406, R413) -/

def MemErr.zero : MemErr :=
  { ceCount := 0, ceThresh := 0x0100, ueCount := 0, ueSrc := 0, ueMid := 0, ueLine := 0, scrubPeriod := 0x18, scrubPage := 0, scrubLine := 0 }

def Bench.rakeReg (B : Bench) (off : Nat) : Word :=
  let r := B.rake
  let e := B.memErr
  if off = 0x30004 then BitVec.ofNat 32 (r.state.toNat + (if B.rakeBusy then 8 else 0) + r.seq.toNat * 2 ^ 8)
  else if off = 0x30008 then r.share.zeroExtend 32
  else if off = 0x3000C then r.setOff.zeroExtend 32 <<< 4
  else if off = 0x30010 then r.setCnt.zeroExtend 32
  else if off = 0x30014 then r.rangePpn.zeroExtend 32
  else if off = 0x30018 then r.rangeLen.zeroExtend 32
  else if off = 0x3001C then r.prog.zeroExtend 32
  else if off = 0x30020 then r.result
  else if off = 0x30024 then r.lastR
  else if off = 0x30028 then r.lastProg.zeroExtend 32
  else if off = 0x30100 then e.ceThresh ++ e.ceCount
  else if off = 0x30104 then BitVec.ofNat 32 (e.ueCount.toNat + e.ueSrc.toNat * 2 ^ 16 + e.ueMid.toNat * 2 ^ 24)
  else if off = 0x30108 then BitVec.ofNat 32 (e.ueLine * 64)
  else if off = 0x3010C then BitVec.ofNat 32 (e.ueLine / 2 ^ 26 % 256)
  else if off = 0x30110 then e.scrubPeriod.zeroExtend 32
  else if off = 0x30114 then BitVec.ofNat 32 (if e.scrubPage = scrubEnd then 0 else e.scrubPage)
  else 0

def Bench.rakeWrite (B : Bench) (off : Nat) (v : Word) : Bench :=
  let r := B.rake
  let e := B.memErr
  if off = 0x30000 then B.rakeCommand (v.toNat % 8)
  else if off = 0x30008 then { B with rake := { r with share := v.truncate 2 } }
  else if off = 0x3000C then { B with rake := { r with setOff := v.extractLsb' 4 20 } }
  else if off = 0x30010 then
    let n := v.toNat % 512
    if 1 ≤ n && n ≤ 256 then { B with rake := { r with setCnt := BitVec.ofNat 9 n } } else B
  else if off = 0x30014 then { B with rake := { r with rangePpn := v.truncate 28 } }
  else if off = 0x30018 then { B with rake := { r with rangeLen := v.truncate 24 } }
  else if off = 0x30100 then { B with memErr := { e with ceCount := v.truncate 16, ceThresh := v.extractLsb' 16 16 } }
  else if off = 0x30110 then { B with memErr := { e with scrubPeriod := v.truncate 8 } }
  else B

end Sys2Proof.Machine
end

