-- ==== Sys2Proof/Machine/Reg.lean ====
section
/-!
DEFINITION. Machine/Reg.lean: the register space of a bench: what a 32-bit read and a 32-bit write of each offset do (R9 to R13,
R40, R57, R273, R719 and the register tables of the units' chapters).
-/

namespace Sys2Proof.Machine

/-! ## The bench control and state block -/

/-- A quad is released to service (R271). -/
def Bench.quadReleased (B : Bench) (q : Nat) : Bool := (List.range 4).all fun i => (B.core (Fin.ofNat 17 (4 * q + i))).escLock

def Bench.coreStat (B : Bench) : Word :=
  BitVec.ofNat 32 (B.coreBits (·.escLock) + (if (B.core bsc).escLock then 2 ^ 16 else 0)
    + ((List.range 4).filter B.quadReleased).foldl (fun n q => n + 2 ^ (17 + q)) 0)

def Bench.ctlRead (B : Bench) (off : Nat) : Word :=
  if off = 0x00 then BitVec.ofNat 32 B.ctl.id.val
  else if off = 0x04 then B.ctl.place
  else if off = 0x10 then BitVec.ofNat 32 (B.rst.cause.toNat + B.rst.softsrc.toNat * 2 ^ 8 + B.rst.count.toNat * 2 ^ 16)
  else if off = 0x14 then
    BitVec.ofNat 32 ((if B.rst.dramKept then 1 else 0) + (if B.rst.wblost then 2 else 0) + (if B.rst.tagClearDone then 4 else 0))
  else if off = 0x20 then B.ctl.divto.zeroExtend 32
  else if off = 0x24 then BitVec.ofNat 32 (B.ctl.divUnit.toNat + B.ctl.divCount.toNat * 2 ^ 16)
  else if off = 0x30 then B.coreStat
  else if off = 0x34 then BitVec.ofNat 32 (B.coreBits (·.escActive) + B.coreBits (·.halted) * 2 ^ 16)
  else if off = 0x38 then
    BitVec.ofNat 32 (B.coreBits (·.holdExpired) + (if (B.core bsc).holdExpired then 2 ^ 16 else 0) + B.ctl.holdExpCount.toNat * 2 ^ 20)
  else if off = 0x3C then B.ctl.lockinfo
  else if off = 0x40 then BitVec.ofNat 32 (B.rst.wdogTimeout.toNat + if B.rst.wdogLock then 2 ^ 16 else 0)
  else if 0x1000 ≤ off && off < 0x1880 then (B.ustate ((off - 0x1000) / 4)).word
  else 0

/-- A write of BENCH.WDOG: TIMEOUT until LOCK is set, LOCK by its first write (R719). -/
def Bench.wdogWrite (B : Bench) (v : Word) : Bench :=
  let r := B.rst
  let r := if r.wdogLock then r else { r with wdogTimeout := v.truncate 16 }
  let r := if r.wdogLockWritten then r else { r with wdogLock := v.getLsbD 16, wdogLockWritten := true }
  { B with rst := r }

/-- A write of BENCH.WDKICK (R682). -/
def Bench.wdogKick (B : Bench) (w : Writer) (v : Word) : Bench :=
  if v = 0xA5 && w.mid = midBsc then { B with rst := { B.rst with wdogCount := 0 } } else B

def Bench.ctlWrite (B : Bench) (w : Writer) (off : Nat) (v : Word) : Bench :=
  if off = 0x18 then if v.extractLsb' 0 8 = 0xA5 then B.requestReset 0x12 0 else B
  else if off = 0x38 then
    { B with cores := Vector.ofFn fun k =>
      let c := B.cores[k]
      { c with holdExpired := c.holdExpired && !v.getLsbD k.val } }
  else if off = 0x40 then B.wdogWrite v
  else if off = 0x44 then B.wdogKick w v
  else if 0x1000 ≤ off && off < 0x1880 then B.ustateWrite ((off - 0x1000) / 4) v
  else B

/-! ## The register space -/

/-- A 32-bit read at a register offset, with what the read itself changes: the latches of R594 and R612. -/
def Bench.regRead (B : Bench) (_ : Writer) (off : Nat) : Word × Bench :=
  if off < 0x10000 then (B.ctlRead off, B)
  else if off < 0x20000 then (B.schedRead off, B)
  else if off < 0x30000 then (B.mafRead off, B)
  else if off < 0x40000 then (B.rakeReg off, B)
  else if off < 0x50000 then (B.transRead off, B)
  else if 0x100000 ≤ off && off < 0x110000 then (B.vaultRead off, B)
  else if 0x210000 ≤ off && off < 0x220000 then (B.patRead off, B)
  else if 0x300000 ≤ off && off < 0x310000 then B.jrnRead off
  else if 0x310000 ≤ off && off < 0x320000 then B.timeRead off
  else if 0x400000 ≤ off && off < 0x408000 then (B.netRead off, B)
  else if 0x408000 ≤ off && off < 0x40C200 then (B.hqRead off, B)
  else if 0x500000 ≤ off && off < 0x510000 then (B.pwrRead off, B)
  else match engBlock off with
    | some (u, o) => (if o = 0x020 && 14 ≤ u.val then B.reg off else B.engRead u o, B)
    | none => (0, B)

/-- A 32-bit write at a register offset by `w`. -/
def Bench.regWrite (B : Bench) (w : Writer) (off : Nat) (v : Word) : Bench :=
  if off < 0x10000 then B.ctlWrite w off v
  else if off < 0x20000 then B.schedWrite off v
  else if off < 0x30000 then B.mafWrite w off v
  else if off < 0x40000 then B.rakeWrite off v
  else if off < 0x50000 then B.transWrite off v
  else if 0x100000 ≤ off && off < 0x110000 then B.vaultWrite w off v
  else if 0x210000 ≤ off && off < 0x220000 then B.patWrite w off v
  else if 0x300000 ≤ off && off < 0x310000 then B.jrnWrite off v
  else if 0x310000 ≤ off && off < 0x320000 then B.timeWrite off v
  else if 0x400000 ≤ off && off < 0x408000 then B.netWrite off v
  else if 0x408000 ≤ off && off < 0x40C000 then B.hqWrite off v
  else if 0x500000 ≤ off && off < 0x510000 then B.pwrWrite off v
  else match engBlock off with
    | some (u, o) => if o = 0x020 && 14 ≤ u.val then B.plainWrite off v else B.engWrite u o v
    | none => B

/-- A register write over the bench's own interconnect: the filter judges it, and a denied one is discarded (R377, R382). -/
def Bench.busWrite (B : Bench) (w : Writer) (off : Nat) (v : Word) : Bench :=
  let pa := 0x2000000000 + off
  let origin := match w with
    | .core k => B.coreOrigin k
    | _ => 0
  if B.mafAllows w.mid pa .w then B.regWrite w off v else B.denied w.mid origin pa 4 1

/-- A register read over the bench's own interconnect. -/
def Bench.busRead (B : Bench) (w : Writer) (off : Nat) : Word × Bench :=
  let pa := 0x2000000000 + off
  let origin := match w with
    | .core k => B.coreOrigin k
    | _ => 0
  if B.mafAllows w.mid pa .r then B.regRead w off else (0, B.denied w.mid origin pa 4 0)

end Sys2Proof.Machine
end

