-- ==== Sys2Proof/Machine/Exec.lean ====
section
/-!
DEFINITION. Machine/Exec.lean: how a core executes one instruction: boundary, fetch, guard, body, retirement and traps
(R121 to R123, R135, R230), and the memory accesses of a strand (R87, R156, R157, R178).
-/

namespace Sys2Proof.Machine

/-! ## Memory accesses of a strand -/

/-- The translation of the strand's bank (R344). -/
def Bench.xctx (B : Bench) (k : CoreNo) (b : BankNo) (sys : Bool) : Xctx :=
  let s := B.bank k b
  { mid := midCore k, origin := B.origin k b, core := some k
    mode := slice s.atp.toNat 17 16, asid := slice s.atp.toNat 15 0, root := slice s.atpRoot.toNat 27 0, sys := sys }

/-- A part of an access that passed its page checks. -/
structure Part where
  va : Nat
  pa : Nat
  len : Nat
  caps : Bool
  upper : Bool
  deriving DecidableEq, Repr

/-- The page checks of every part, the lower first (R157). -/
def pageChecks (x : Xctx) (k : Access) (onLast : Bool) : Bool → List (Nat × Nat) → M (List (Nat × Nat × PageOk))
  | _, [] => pure []
  | up, (va, n) :: t => fun B =>
    match B.pageCheck x va k with
    | (.error f, B) => .error { cause := f.cause, etval := BitVec.ofNat 64 va, part := up, onLast := onLast, level := f.level } B
    | (.ok p, B) =>
      match pageChecks x k onLast true t B with
      | .error e B => .error e B
      | .ok l B => .ok ((va, n, p) :: l) B

/-- The A and D updates of every part (R337, R339, R340). -/
def pageCommits (x : Xctx) (onLast : Bool) : Bool → List (Nat × Nat × PageOk) → M (List Part)
  | _, [] => pure []
  | up, (va, n, p) :: t => fun B =>
    match B.pageCommit x p with
    | (false, B) => .error { cause := .pageNotPresent, etval := BitVec.ofNat 64 va, part := up, onLast := onLast } B
    | (true, B) =>
      match pageCommits x onLast true t B with
      | .error e B => .error e B
      | .ok l B => .ok ({ va := va, pa := p.pa, len := n, caps := p.caps, upper := up } :: l) B

/-- `xlate` of R178 for [ea, ea + n), in parts that end at multiples of `unit`. -/
def M.xlate (σ : Strand) (ea n : Nat) (k : Access) (unit : Nat := 16) (asSys : Bool := false) (onLast : Bool := false) :
    M (List Part) := do
  let B ← M.bench
  let sys := asSys || (B.bank σ.core σ.bank).pccHas permSYS
  let x := B.xctx σ.core σ.bank sys
  let l ← pageChecks x k onLast false (splitAt unit (n / unit + 2) ea n)
  pageCommits x onLast false l

/-- One part read: a register by a naturally aligned 32-bit load goes to its register (R13). -/
def M.readPart (σ : Strand) (p : Part) (kind : Nat) (need : Right) (word onLast : Bool) : M (List Byte × Bool) := fun B =>
  let org := B.origin σ.core σ.bank
  if paType p.pa = .register && word && B.mafAllows (midCore σ.core) p.pa need then
    let (v, B) := B.regRead (.core σ.core) (p.pa - 0x2000000000)
    .ok (leBytes 4 v.toNat, false) B
  else
    let (r, B) := B.readPart (midCore σ.core) org p.pa p.len kind need
    if r.bad then
      .error { cause := .memoryError, etval := BitVec.ofNat 64 p.va, part := p.upper, onLast := onLast } B
    else .ok (r.bytes, r.tag) B

def M.readParts (σ : Strand) (kind : Nat) (need : Right) (word onLast : Bool) : List Part → M (List Byte × Bool)
  | [] => pure ([], false)
  | p :: t => do
    let (v, tag) ← M.readPart σ p kind need word onLast
    let (w, _) ← M.readParts σ kind need word onLast t
    pure (v ++ w, tag)

def M.writePart (σ : Strand) (p : Part) (bytes : List Byte) (word : Bool) : M Unit := M.mod fun B =>
  let org := B.origin σ.core σ.bank
  if paType p.pa = .register && word && B.mafAllows (midCore σ.core) p.pa .w then
    B.regWrite (.core σ.core) (p.pa - 0x2000000000) (BitVec.ofNat 32 (leNat bytes))
  else B.writePart (midCore σ.core) org p.pa bytes

def M.writeParts (σ : Strand) (word : Bool) : List Part → List Byte → M Unit
  | [], _ => pure ()
  | p :: t, bytes => do
    M.writePart σ p (bytes.take p.len) word
    M.writeParts σ word t (bytes.drop p.len)

/-- A naturally aligned 32-bit access. -/
def isWordAccess (ea n : Nat) : Bool := n == 4 && ea % 4 == 0

/-- `check`, `xlate` and `rd_mem` of a data load (R178, R184). -/
def M.load (σ : Strand) (auth : Cap) (ea : Dword) (n : Nat) : M (List Byte) := do
  M.ofExcept ea (auth.checkAccess ea n [permLD] 1 .misaligned)
  let ps ← M.xlate σ ea.toNat n .load
  let (v, _) ← M.readParts σ kindRead .r (isWordAccess ea.toNat n) false ps
  pure v

/-- `check`, `xlate` and `wr_mem` of a data store. -/
def M.store (σ : Strand) (auth : Cap) (ea : Dword) (bytes : List Byte) : M Unit := do
  M.ofExcept ea (auth.checkAccess ea bytes.length [permST] 1 .misaligned)
  let ps ← M.xlate σ ea.toNat bytes.length .store
  M.writeParts σ (isWordAccess ea.toNat bytes.length) ps bytes

/-- A capability load (R90 to R92, R184). -/
def M.loadCap (σ : Strand) (auth : Cap) (ea : Dword) : M Cap := do
  M.ofExcept ea (auth.checkAccess ea 16 [permLD] 16 .capAlign)
  let ps ← M.xlate σ ea.toNat 16 .capLoad
  let (v, tag) ← M.readParts σ kindRead .r false false ps
  let B ← M.bench
  pure (auth.loaded (B.filtered (capOf v tag)) (ps.all (·.caps)))

/-- A capability store (R93, R94, R184). -/
def M.storeCap (σ : Strand) (auth : Cap) (ea : Dword) (v : Cap) : M Unit := do
  M.ofExcept ea (auth.checkAccess ea 16 [permST] 16 .capAlign (auth.storeAllowed v))
  let ps ← M.xlate σ ea.toNat 16 (if v.tag then .capStore else .store)
  match ps with
  | p :: _ => M.mod fun B => B.writeGranule (midCore σ.core) (B.origin σ.core σ.bank) p.pa v
  | [] => pure ()

/-! ## Executing an instruction -/

/-- The bench runs its cores: released, the supervisor core has fetched, no reset has begun, and the bench is in RUN (R104,
R269, R686, R737, R739). -/
def Bench.coresRun (B : Bench) : Bool := B.running && B.rst.firstFetch

/-- The bank whose strand core `k` can give a cycle to now. -/
def Bench.strandOf (B : Bench) (k : CoreNo) : Option BankNo :=
  let c := B.core k
  if !B.coresRun || c.halted || c.waiting || c.clockStopped || c.gated || (c.dbgHalted && !c.stepOne) then none
  else c.cur

/-- The bank whose strand core `k` can begin an instruction of now: none while a REP-prefixed one is in progress (R137). -/
def Bench.executing (B : Bench) (k : CoreNo) : Option BankNo :=
  if (B.core k).repBusy.isSome then none else B.strandOf k

/-- An instruction completes (R121, R122): PCC advances or takes the value given, and INSTRET counts it. -/
def Bench.retire (B : Bench) (k : CoreNo) (b : BankNo) (pc : Option Cap) : Bench :=
  B.modBank k b fun s =>
    { s with pcc := pc.getD (s.pcc.withCursor (s.pcc.cursor + 4)), instret := s.instret + 1 }

/-- The filter's verdict on a fetch (R382: false, and the word 0 is fetched) and MEMORY_ERROR (R410). -/
def fetchVerdict (σ : Strand) (a : Dword) (pa : Nat) : M Bool := fun B =>
  let mid := midCore σ.core
  let org := B.origin σ.core σ.bank
  if B.mafAllows mid pa .x then
    match B.checkLine mid org false pa with
    | (true, B) => .error { cause := .memoryError, etval := a } B
    | (false, B) => .ok true B
  else .ok false (B.denied mid org pa 4 kindFetch)

/-- The fetch of the instruction at PCC's cursor (R95, R230 items 2 to 4): true where the filter lets it through. A sealed value that
BWPCC or LOADL has put in PCC authorises no fetch (R78): CAP_SEAL, after the tag and before the permission as in R87 (DESIGN CHOICE,
log 75). A cursor that is no multiple of 4 is fetched where it stands (DESIGN CHOICE, log 75: R95 has no alignment check). -/
def fetchAt (σ : Strand) (a : Dword) : M Bool := do
  let s ← M.bank σ
  let pcc := s.pcc
  if !pcc.tag then M.fault .capTag a
  else if pcc.sealed? then M.fault .capSeal a
  else if !pcc.has permEX then M.fault .nxFetch a
  else if a.toNat < pcc.base || a.toNat + 4 > pcc.top then M.fault .capBounds a
  else
    let B ← M.bench
    let x := B.xctx σ.core σ.bank (s.pccHas permSYS)
    let l ← pageChecks x .fetch false false [(a.toNat, 4)]
    let ps ← pageCommits x false false l
    match ps with
    | [] => pure true
    | p :: _ => fetchVerdict σ a p.pa

/-- What a core does before it executes again: TLB entries due for removal go (R353), and a granted step is used up. -/
def Bench.prepare (B : Bench) (k : CoreNo) : Bench :=
  B.modCore k fun c => { (if c.tlbFlushDue then c.flushTlbs else c) with tlbFlushDue := false, stepOne := false }

/-- Run the body of a fetched word and retire it or take its fault. -/
def Bench.finish (B : Bench) (k : CoreNo) (b : BankNo) (m : M (Option Cap)) : Bench :=
  match m B with
  | .ok pc B => B.retire k b pc
  | .error t B => B.takeTrap k b t

/-- An instruction that is not a prefix: RCV clears (R135), a false guard skips it (R122). -/
def guarded (g : Guard) (body : Strand → M (Option Cap)) (σ : Strand) : M (Option Cap) := do
  M.mod fun B => B.modBank σ.core σ.bank fun s => { s with rcv := false }
  let s ← M.bank σ
  if g.holds s then body σ else pure none

/-- The word 0 is executed: ADD x0, x0, x0 (R382). -/
def Bench.noOp (B : Bench) (k : CoreNo) (b : BankNo) : Bench :=
  B.finish k b (guarded (.ifp 0) (fun _ => pure none) { core := k, bank := b, word := 0 })

/-- Core `k` executes the word at its PCC (R230): an event trap or a strand switch due at the boundary comes first;
a fetch that the filter denies executes the word 0 (R382). `body` decodes and executes the word. -/
def Bench.runWord (B : Bench) (k : CoreNo) (word : Word) (body : Strand → M (Option Cap)) : Bench :=
  match B.executing k with
  | none => B
  | some b =>
    match B.eventDue k with
    | some (eb, n) => B.eventTrap k eb n
    | none =>
      if B.switchDue k then B.switchStrand k
      else
        let σ : Strand := { core := k, bank := b, word := word }
        let B := B.prepare k
        match fetchAt σ (B.bank k b).pcc.cursor B with
        | .error t B => B.takeTrap k b t
        | .ok false B => B.noOp k b
        | .ok true B => B.finish k b (body σ)

/-- The meaning of an instruction on its bench. -/
def Bench.instr (B : Bench) (x : Exec) (word : Word) (body : Strand → M (Option Cap)) : Bench :=
  B.runWord x.core word (guarded x.guard body)

/-- A body that only computes, with no fault and PCC advancing. -/
def plain (f : Bank → Bank) (σ : Strand) : M (Option Cap) := do
  M.mod fun B => B.modBank σ.core σ.bank f
  pure none

end Sys2Proof.Machine
end

