-- ==== Sys2Proof/Machine/StateDev.lean ====
section
/-!
DEFINITION. Machine/StateDev.lean: the host port complex and the other parts outside the benches: the release sequence and its
registers, fuses, flash and the configuration store, the mailbox, SPDM, lifecycle, debug, tamper and the package's power
(R440 to R447, R652 to R672, R674 to R718, R720 to R735, R743 to R761).
-/

namespace Sys2Proof.Machine

/-- Where a device-level reset's release stands (R692): what is awaited. -/
inductive Phase where
  /-- PWROK is low (R772). -/
  | por
  /-- PWROK is high and the AON domain is not yet valid (R771). -/
  | aonWait
  /-- RESET_N is low (R679). -/
  | pinHold
  /-- The always-on oscillator has failed (R681). -/
  | aonLost
  | fuse | dmc | bootcfg
  /-- BOOTCFG code 14 holds the DMC before step 5 (R701). -/
  | dmcHold
  | loading
  /-- An image has been parsed into STAGING and awaits its commit (R703). -/
  | loaded
  | phy | pcie
  /-- The step of this bench comes next; 8 when every bench's step has passed. -/
  | benches (next : Fin 9)
  deriving DecidableEq, Repr

/-- The SUPERVISOR record (R711). -/
structure Supervisor where
  offset : Nat
  entry : Nat
  code : List Byte
  deriving DecidableEq, Repr

/-- What an image holds for one bench (R711). -/
structure BenchCfg where
  enforce : BitVec 2
  holdLimit : BitVec 12
  divto : BitVec 10
  wdog : Half
  sup : Option Supervisor
  /-- Words 0 to 2 of each rule of the MAF boot set. -/
  maf : Option (List MafRule)
  pat : Option (List Byte)
  macs : Option (List Byte × List Byte)
  pins : BitVec 8
  deriving DecidableEq, Repr

/-- The POWER_POLICY record (R758). -/
structure Policy where
  pcap : BitVec 10
  floor : BitVec 7
  ceil : BitVec 7
  park : Half
  wake : BitVec 6
  mesh : BitVec 4
  deriving DecidableEq, Repr

/-- The ceilings of the host link (R700, R711): rate in the order 2.5, 5, 8, 16, 32, 64 GT/s from 0, and lanes. -/
structure LinkCeiling where
  rate : Fin 6
  lanes : Fin 17
  deriving DecidableEq, Repr

/-- An image as parsed into a bank of the configuration store (R702, R703). -/
structure Image where
  slot : BitVec 2
  bootseq : Word
  version : Byte
  root : Byte
  rollfwd : Bool
  rootfwd : Bool
  place : Word
  enabled : Byte
  ids : Word
  link : Option LinkCeiling
  profile : Option Profile
  policy : Option Policy
  benches : Vector BenchCfg 8
  /-- SHA-384 of the DMC_FW record's body, and of the image (R671). -/
  fwDigest : List Byte
  digest : List Byte
  deriving DecidableEq, Repr

/-- An entry of the fuse log (R716). -/
structure FuseEntry where
  id : Byte
  value : Byte
  time : BitVec 48
  deriving DecidableEq, Repr

/-- The fuses: the counters of R715, the root and credential digests (an unprogrammed one is empty), and the log. -/
structure Fuses where
  lifecycle : Nat
  rootslot : Nat
  rollback : Nat
  epoch : Nat
  debugcred : Nat
  roots : Vector (List Byte) 4
  creds : Vector (List Byte) 5
  log : List FuseEntry
  deriving DecidableEq, Repr

/-- The DMC mailbox (R667). -/
structure Mailbox where
  req : Table Byte
  resp : List Byte
  op : Byte
  len : Half
  busy : Bool
  result : Byte
  deriving DecidableEq, Repr

/-- An open staging (R713): slot, image length and the header buffer. -/
structure Staging where
  slot : Nat
  len : Nat
  header : List Byte
  deriving DecidableEq, Repr

/-- An ADVANCE from SHIPPED that awaits its CONFIRM (R724): the digests it carried, its CODE, and when it came. -/
structure Confirm where
  digests : List (List Byte)
  code : List Byte
  since : Nat
  deriving DecidableEq, Repr

/-- An open epoch advance (R447). -/
structure EpochAdvance where
  nonce : List Byte
  signed : List Nat
  since : Nat
  deriving DecidableEq, Repr

/-- An SPDM session (R671): its identifier, whether FINISH has been answered, whether a key update awaits its confirmation, the
secrets of the DSP0274 key schedule and the transcript up to KEY_EXCHANGE's answer. -/
structure SpdmSession where
  id : Word
  established : Bool
  updating : Bool
  handshake : List Byte
  reqSecret : List Byte
  rspSecret : List Byte
  th : List Byte
  deriving DecidableEq, Repr

inductive SpdmPhase where
  | start | version | capabilities | algorithms
  deriving DecidableEq, Repr

/-- The SPDM responder: how far the requester has negotiated, whether the algorithms of a session were agreed, the messages of the
negotiation, those of certificates and of measurements that no signature has covered yet, and the session. -/
structure Spdm where
  phase : SpdmPhase
  keyed : Bool
  vca : List Byte
  chain : List Byte
  meas : List Byte
  session : Option SpdmSession
  deriving DecidableEq, Repr

/-- The debug session and the TAP (R726 to R735). -/
structure Debug where
  ir : Byte
  level : BitVec 2
  bench : BenchNo
  serhafa : Bool
  fails : BitVec 4
  lockout : Bool
  /-- Elapsed time at which VALIDITY runs out. -/
  validUntil : Nat
  nonce : Option (List Byte)
  /-- The result of the last DBG_ACCESS command. -/
  status : BitVec 2
  data : Word
  deriving DecidableEq, Repr

/-- The tamper circuits (R744 to R748, R760, R761). -/
structure Tamper where
  cause : Byte
  tampered : Bool
  onbatt : Bool
  live : Byte
  count : Byte
  mesh : BitVec 4
  /-- The circuits draw from VBAT (R775). -/
  onVbat : Bool
  deriving DecidableEq, Repr

/-- The package's power (R752 to R755, R760, R768). -/
structure PkgPower where
  pcap : BitVec 10
  watts : BitVec 10
  capUnmet : Bool
  ilimit : Bool
  /-- Elapsed time since which the current has stayed below 170 A. -/
  calmSince : Nat
  mv : BitVec 12
  adapting : Bool
  thermtrip : Bool
  deriving DecidableEq, Repr

inductive DevOutput where
  /-- An MSI-X message of PF0. -/
  | msix (vector : Nat)
  /-- The bytes of an SPDM response (R671). -/
  | spdm (r : List Byte)
  /-- What a TAP data register captured: its length in bits and its value. -/
  | tap (bits : Nat) (value : Nat)
  /-- The completion of a host read: its bytes and EP (R654, R657). -/
  | hostRead (bytes : List Byte) (poisoned : Bool)
  /-- A voltage written over AVSBus, in mV (R752, R768). -/
  | avs (mv : Nat)
  | thermtrip
  deriving DecidableEq, Repr

structure Device where
  devid : Word
  phase : Phase
  pwrok : Bool
  resetN : Bool
  /-- Microseconds of the always-on clock. -/
  elapsed : Nat
  /-- DMC.RSTCAUSE, and the fields of DMC.BOOTSTAT (R718). -/
  cause : Byte
  code : BitVec 4
  ambig : Bool
  slot : BitVec 2
  failA : BitVec 4
  failB : BitVec 4
  failR : BitVec 4
  restarts : BitVec 4
  hostrst : Half
  /-- HOST_PERST_N is low; the host-port PHY and the PCIe controller are released. -/
  perst : Bool
  phyUp : Bool
  pcieUp : Bool
  /-- The ceilings in force, and the rate and width that the link has trained to while it is up (R652, R701). -/
  ceiling : LinkCeiling
  link : Option LinkCeiling
  /-- The DMC's core is stopped: by code 14 or by a boundary-scan instruction (R701, R727). -/
  dmcStopped : Bool
  /-- Benches that BOOTCFG, BENCH_HOLD or a boundary-scan instruction holds (R694, R727). -/
  holdReq : Byte
  committed : Option Image
  staged : Option Image
  fuses : Fuses
  /-- Flash bytes; an unlisted one is erased, 0xFF. -/
  flash : Table Byte
  mbx : Mailbox
  staging : Option Staging
  /-- The nonce of LIFECYCLE_REQ (R722). -/
  nonce : Option (List Byte)
  confirm : Option Confirm
  /-- The elapsed time at which a device reset with cause SOFT was scheduled (R685, R725, R746). -/
  softDue : Option Nat
  /-- SHA-384 of the accepted ADVANCE to DECOMMISSIONED (R763). -/
  advanceDigest : List Byte
  epochAdv : Option EpochAdvance
  spdm : Spdm
  dbg : Debug
  tamper : Tamper
  pkg : PkgPower
  freeCtr : Nat
  out : List DevOutput
  deriving DecidableEq, Repr

end Sys2Proof.Machine
end

