-- ==== Sys2Proof/Machine/Reset.lean ====
section
/-!
DEFINITION. Machine/Reset.lean: what a reset of a bench clears and keeps (R686 to R691, R740), and the release of its blocks (R104,
R105, R692 to R695).
-/

namespace Sys2Proof.Machine

/-! ## The state of each part when it is reset -/

def Bank.zero : Bank :=
  { x := Vector.replicate 32 0, c := Vector.replicate 32 Cap.null, pcc := Cap.null, p := Vector.replicate 8 false, rc := 0, rcv := false
    d := Vector.replicate 16 0, dcsr := 0, staging := [], pushes := 0, ecause := 0, etval := 0, estat := 0, atp := 0, atpRoot := 0
    trapEntry := Cap.null, epcc := Cap.null, sachain := Cap.null, last := Cap.null, entry := Vector.replicate 8 Cap.null
    entryCsp := Vector.replicate 8 Cap.null, instret := 0, task := none }

def Core.zero : Core :=
  { banks := Vector.replicate 8 Bank.zero, cur := none, lastBank := 7, lastPlace := 7, waiting := false, halted := false, dbgHalted := false
    stepOne := false, cycle := 0, escCause := 0, escLock := false, escLockWritten := false, escPcc := Cap.null, escCsp := Cap.null, bankwin := 0
    safree := Cap.null, saemerg := Cap.null, saemergWritten := false, saves := 0, emergBusy := false, hold := none, holdExpired := false
    itlb := [], dtlb := [], tlb := [], tlbFlushDue := false, placing := none, repBusy := none, clockStopped := false, gated := false, parked := false }

/-- SCHED.BIND's reset values (R317). -/
def bindReset : Table Word := (List.range 64).map fun i => (768 + i, (0x00400000 : Word))

def Sched.zero : Sched :=
  { tcbLo := 0, tcbHi := 0, lock := false, lockWritten := false, badcmd := 0, stormMs := 0, stormSource := 0, stormCount := 0, faultTask := 0
    faultCode := 0, bind := bindReset, evstat := [], tasks := [], lastTrap := 1023, lastBsc := 1023, lastCore := 15, lastTask := 4095 }

def Trans.zero : Trans :=
  { shootdb := 0, etuLo := 0, etuHi := 0, etuBusy := false, etuScope := 0, bcast := 0, pending := [], etuTlb := [] }

def Mem.zero : Mem :=
  { bytes := [], tags := [], poison := [], latent := [], weak := [], tagLatent := [], tagWeak := [], covers := [], summary := [] }

def Vault.zero : Vault :=
  { slots := [], uses := 0, ctrl := 1, lock := false, lockWritten := false, cmd := none, arg := 0, result := 0, seq := 0, evictions := 0
    info := Vector.replicate 9 0, zeroised := false, current := none, previous := none, bbEpoch := 0, ceremony := none }

def Ring.zero : Ring :=
  { base := 0, depth := 0, prio := 0, en := false, subs := [], outstanding := 0, head := 0, phase := false, tail := 0, seq := 0 }

def Eng.zero : Eng :=
  { rings := Vector.replicate 4 Ring.zero, unitQ := [], job := none, tokens := [], tokttl := 100, done := 0, notOk := 0, tokDrop := 0
    katOk := false, katFail := false, lastRing := 3, pinpol := 2 }

def Drbg.zero : Drbg :=
  { key := [], v := [], src0 := false, src1 := false, error := false, inst := false, fails := 0, reseeds := 0, requests := 0, since := 0, reseedDue := false }

def Journal.zero : Journal :=
  { genesis := false, recoverDue := false, recovering := false, chain := 0, jid := 0, nextSeq := 0, resetSeq := 0, items := [], waiting := []
    deliveries := [], held := [], admitStop := false, sinceCk := 0, lastCk := none, ckTime := 0, ckNum := 0, cks := [], sigSeq := []
    sigDelayed := false, swrel := 0, hack := 0, pack := 0, loDue := [], latch := [], ckCount := 0, lostRefused := 0
    lostNote := 0, mirrorSeq := 0, mirrorSigs := [], msixTime := none, partner := 0, partnerDue := none, dropped := 0, sendSeq := 0, timeouts := 0, ackTime := 0
    sendSigs := [], prxSeq := 0, prxJid := none, prxChain := none, tamper := none, tamperRec := false }

def Port.zero : Port :=
  { mac := zeros 6, up := false, rate := 0, anDone := false, changes := 0, rxfrm := 0, txfrm := 0, drop := 0, fecunc := 0, echoSecond := 0
    echoCount := 0 }

def Net.zero : Net :=
  { port0 := Port.zero, port1 := Port.zero, conns := [], rxq := [], txq := [], synref := 0, next := 0, lastSke := 3, tlsDone := [] }

def HostQ.zero : HostQ := { pairs := [], msix := [] }

def Timer.zero : Timer := { period := 0, periodic := false, run := false, due := 0 }

/-- The time unit after POR (R572, R612). -/
def TimeState.zero : TimeState :=
  { elapsed := 0, part := 0, ahead := 0, sec := 0, ns := 0, frac := 0, sub := 0, source := 0, holdover := false, quality := 7, freq := 0, locked := false
    inBand := 0, outBand := 0, ppsOk := false, todValid := false, port := false, steps := 0, ppsRej := 0, now1 := 0, now2 := 0, set0 := 0
    set1 := 0, setDue := [], latcal := Vector.replicate 2 0, utcoff := 0, offset := 0, timers := Vector.replicate 64 Timer.zero, secondDue := false
    ppsOut := false, ppsOutSince := 0, ppsSecond := none, holdBound := 0, holdSince := 0 }

def Ctl.zero (id : BenchNo) : Ctl :=
  { id := id, place := 0, divto := 10, divUnit := 0, divCount := 0, ustate := [], holdExpCount := 0, lockinfo := 0, holdLimit := 0
    nxEnforce := true, lastEnforce := true, epoch := 0, quorum := 0, eventPins := 0 }

/-- The power block with the reset values of R758 and R759. -/
def Pwr.zero : Pwr :=
  { requested := 0, effective := 0, diverged := false, changes := 0, since := 0, passed := false, wake := 5, floor := 0x20, ceil := 0x50, freq := 0x50
    thermalCeil := 80, currentCeil := 80, capCeil := 80, marginCeil := 80, clamped := false, clThermal := false, clCurrent := false
    clMargin := false, calmSince := 0, throttling := false, tj := 0, tjmax := 0, halt := false }

def Rst.zero : Rst :=
  { released := false, tagClearDone := false, firstFetch := false, cause := 1, softsrc := 0, count := 0, devCause := 1, due := none
    fromOff := false, dramKept := false, wblost := false, entry := 0, wdogTimeout := 5000, wdogLock := false, wdogLockWritten := false
    wdogCount := 0, clockOk := true, fllLost := [] }

/-- A bench after POR, before its release. -/
def Bench.zero (id : BenchNo) : Bench :=
  { ctl := Ctl.zero id, cores := Vector.replicate 17 Core.zero, sched := Sched.zero, trans := Trans.zero, mem := Mem.zero
    memErr := MemErr.zero, maf := mafBoot none, rake := Rake.zero, vault := Vault.zero, engs := Vector.replicate 18 Eng.zero
    drbg := Drbg.zero, pat := Pat.boot none, streams := [], jrn := Journal.zero, net := Net.zero, hq := HostQ.zero, time := TimeState.zero
    regs := plainReset true [], rst := Rst.zero, pwr := Pwr.zero, hostUp := false, hwin := [], freeCtr := 0, out := [] }

/-! ## The device's parts when it is reset -/

def LinkCeiling.lowest : LinkCeiling := { rate := 0, lanes := 1 }
def Mailbox.zero : Mailbox := { req := [], resp := [], op := 0, len := 0, busy := false, result := 0 }
def Spdm.zero : Spdm := { phase := .start, keyed := false, vca := [], chain := [], meas := [], session := none }
def Debug.zero : Debug :=
  { ir := 0xFF, level := 0, bench := 0, serhafa := false, fails := 0, lockout := false, validUntil := 0, nonce := none, status := 0, data := 0 }
def Tamper.zero : Tamper :=
  { cause := 0, tampered := false, onbatt := false, live := 0, count := 0, mesh := 0, onVbat := false }
def PkgPower.zero : PkgPower :=
  { pcap := 0, watts := 0, capUnmet := false, ilimit := false, calmSince := 0, mv := 0, adapting := false, thermtrip := false }
def Fuses.zero : Fuses :=
  { lifecycle := 0, rootslot := 0, rollback := 0, epoch := 0, debugcred := 0, roots := Vector.replicate 4 [], creds := Vector.replicate 5 []
    log := [] }

/-- The device as it stands before power is applied for the first time. R4 gives DEVID of silicon revision B0 as 0x8112_1000 and of A0
as 0x8112_0000; the model is B0, DESIGN CHOICE (log 84). -/
def Device.zero : Device :=
  { devid := 0x81121000, phase := .por, pwrok := false, resetN := true, elapsed := 0, cause := 1, code := 0, ambig := false, slot := 3
    failA := 0, failB := 0, failR := 0, restarts := 0, hostrst := 0, perst := false, phyUp := false, pcieUp := false
    ceiling := LinkCeiling.lowest, link := none, dmcStopped := false, holdReq := 0, committed := none, staged := none, fuses := Fuses.zero
    flash := [], mbx := Mailbox.zero, staging := none, nonce := none, confirm := none, softDue := none, advanceDigest := [], epochAdv := none
    spdm := Spdm.zero, dbg := Debug.zero, tamper := Tamper.zero, pkg := PkgPower.zero, freeCtr := 0, out := [] }

/-! ## Resets (R689) -/

/-- The kinds of reset. -/
inductive ResetKind where
  /-- POR and BOR. -/
  | por
  /-- Any other device-level reset. -/
  | device
  | bench
  deriving DecidableEq, Repr

/-- Memory after a reset that keeps it: every tag is clear (R104). -/
def Mem.reset (m : Mem) : Mem := { m with tags := [], summary := [], tagLatent := [], tagWeak := [], covers := [] }
/-- Memory whose DRAM was not preserved: working SRAM alone is kept. -/
def Mem.dramLost (m : Mem) : Mem :=
  let keep (l : List Nat) : List Nat := l.filter (0x40000000 ≤ ·)
  { m with bytes := m.bytes.filter fun e => decide (0x1000000000 ≤ e.1), poison := keep m.poison, latent := keep m.latent, weak := keep m.weak }

/-- The vault over a reset that keeps it (R427, R450). -/
def Vault.reset (v : Vault) : Vault :=
  { Vault.zero with slots := v.freeRetired.slots, uses := v.uses, current := v.current, previous := v.previous, bbEpoch := v.bbEpoch }

/-- The journal over a reset that keeps it (R513, R600 to R602): its index and chain stay, and recovery is due. -/
def Journal.reset (j : Journal) (now : Nat) : Journal :=
  { j with recoverDue := j.genesis, recovering := false, waiting := [], deliveries := [], resetSeq := j.nextSeq, cks := [], sigDelayed := false
           loDue := [], latch := [], ckCount := 0, lostRefused := 0, lostNote := 0, mirrorSeq := j.hack, msixTime := none
           partner := if j.partner = 0 then 0 else 1, partnerDue := none, dropped := 0, sendSeq := j.pack, timeouts := 0, ackTime := now }

/-- The time unit over a reset that keeps bench time (R572). -/
def TimeState.reset (t : TimeState) : TimeState :=
  { t with now1 := 0, now2 := 0, set0 := 0, set1 := 0, setDue := [], utcoff := 0, offset := 0, timers := Vector.replicate 64 Timer.zero }

/-- The sources that stay pending over a wake from OFF (R740). -/
def Bench.eventsKept (B : Bench) (fromOff : Bool) : Table EvStat :=
  B.sched.evstat.foldl (fun t e => t.set EvStat.zero e.1 { EvStat.zero with pending := fromOff && B.wakeOn e.1 && e.2.pending }) []

/-- BENCH.BRSTCAUSE.COUNT, DRAM_KEPT and the rest of a bench's reset state after a reset with the cause given. -/
def Rst.after (r : Rst) (kind : ResetKind) (cause : Byte) (softsrc : BitVec 2) (kept wblost : Bool) : Rst :=
  { Rst.zero with cause := cause, softsrc := softsrc, count := if kind = .por then 0 else sat16 r.count
                  devCause := if kind = .por then 1 else r.devCause
                  dramKept := kept, wblost := wblost, clockOk := r.clockOk }

/-- The reset of a bench's logic (R686 step 6) with what R689 keeps. `kept` where its DRAM was preserved (R691). -/
def Bench.logicReset (B : Bench) (kind : ResetKind) (rst : Rst) (kept : Bool) (fromOff : Bool) : Bench :=
  let por := decide (kind = .por)
  let Z := Bench.zero B.ctl.id
  let vault := if por then { Vault.zero with current := B.vault.current, previous := B.vault.previous, bbEpoch := B.vault.bbEpoch } else B.vault.reset
  { Z with
    ctl := { Z.ctl with lockinfo := if kind = .bench then B.ctl.lockinfo else 0 }
    sched := { Z.sched with evstat := if por then [] else B.eventsKept fromOff }
    mem := if por then Mem.zero else if kept then B.mem.reset else B.mem.reset.dramLost
    rake := if kind = .bench then B.rake.benchReset else Rake.zero
    vault := vault
    engs := if por then Z.engs else B.engs.map Eng.benchReset
    jrn := if por || !kept then { Journal.zero with tamper := B.jrn.tamper, tamperRec := B.jrn.tamperRec } else B.jrn.reset B.time.elapsed
    net := { Z.net with next := B.net.next }
    time := if por then Z.time else B.time.reset
    regs := plainReset por B.regs
    rst := rst
    pwr := { Z.pwr with halt := B.pwr.halt, since := B.time.elapsed }
    hostUp := B.hostUp, freeCtr := B.freeCtr, out := B.out }

/-- What R686 does before step 6: RESET completions (R513), unless the bench reference clock has failed (R687), and the end of a
ceremony (R445). -/
def Bench.quench (B : Bench) : Bench :=
  let B := if B.rst.clockOk then (List.finRange 18).foldl (fun (B : Bench) u => if u = 0 then B else B.resetUnit u 2) B else B
  B.cerEnd false

/-- A bench-level reset that has asserted takes place (R686). -/
def Bench.resetEntry (B : Bench) (c : RstCause) : Bench :=
  let wblost := !B.rst.clockOk
  let B := if B.rst.released then B.quench else B
  B.logicReset .bench (B.rst.after .bench c.cause c.softsrc true wblost) true false

/-- A device-level reset takes place in a bench: BRSTCAUSE reads DEVICE. `lost` where the AON oscillator has failed. -/
def Bench.deviceReset (B : Bench) (cause : Byte) (aonLost : Bool) : Bench :=
  let kept := B.rst.clockOk || !aonLost
  let wblost := !B.rst.clockOk
  let B := if B.rst.released then B.quench else B
  let r := B.rst.after .device 0x02 0 kept wblost
  B.logicReset .device { r with devCause := cause } kept false

/-- POR and BOR. -/
def Bench.porReset (B : Bench) : Bench := B.logicReset .por (B.rst.after .por 1 0 false false) false false

/-- Leaving OFF (R740): as a bench reset, but BRSTCAUSE and its COUNT stay. -/
def Bench.leaveOff (B : Bench) : Bench :=
  let r := B.rst.after .bench B.rst.cause B.rst.softsrc true false
  B.logicReset .bench { r with count := B.rst.count, fromOff := true } true true

/-! ## Release (R693 to R695) -/

/-- The bench settings of the committed image, as they take effect when the bench's blocks are released (R703, R711). -/
def Bench.configure (B : Bench) (img : Image) (cfg : BenchCfg) (epoch : Nat) : Bench :=
  let pol := img.policy
  let port (P : Port) (mac : List Byte) : Port := { P with mac := mac }
  { B with
    ctl := { B.ctl with
      place := img.place, divto := cfg.divto, holdLimit := cfg.holdLimit, nxEnforce := cfg.enforce.getLsbD 0
      lastEnforce := cfg.enforce.getLsbD 1, epoch := BitVec.ofNat 7 epoch
      quorum := match img.profile with | some p => BitVec.ofNat 5 p.quorum | none => 0
      eventPins := cfg.pins }
    maf := mafBoot cfg.maf
    pat := Pat.boot cfg.pat
    net := match cfg.macs with
      | some m => { B.net with port0 := port B.net.port0 m.1, port1 := port B.net.port1 m.2 }
      | none => B.net
    rst := { B.rst with wdogTimeout := cfg.wdog }
    pwr := match pol with
      | none => B.pwr
      | some p => { B.pwr with wake := p.wake, floor := p.floor, ceil := p.ceil, freq := p.ceil.toNat }
    cores := match pol with
      | none => B.cores
      | some p => Vector.ofFn fun k => { B.cores[k] with parked := k.val < 16 && p.park.getLsbD k.val } }

/-- The DMC's comparison of the epoch copy (R448). -/
def Bench.epochCheck (B : Bench) (epoch : Nat) : Bench :=
  if B.vault.bbEpoch.toNat = epoch then B
  else { B with vault := { B.vault with current := none, previous := none, bbEpoch := BitVec.ofNat 7 epoch } }

/-- The copy of the SUPERVISOR record into working SRAM (R695). -/
def Bench.copySupervisor (B : Bench) (s : Supervisor) : Bench :=
  let pa := 0x1000000000 + s.offset
  let B := { B with rst := { B.rst with entry := pa + s.entry } }
  B.unitWrite midDmc 0 pa s.code

/-- The blocks of a bench are released. The known-answer tests run during the tag clear. -/
def Bench.release (B : Bench) (img : Image) (cfg : BenchCfg) (epoch : Nat) : Bench :=
  match cfg.sup with
  | none => B
  | some s =>
    let B := (B.configure img cfg epoch).copySupervisor s
    let B := { B with rst := { B.rst with released := true } }
    B.drbgInstantiate

/-- The tag clear ends (R398, R695), and with it the known-answer tests; `fails` names the engines that failed theirs. -/
def Bench.tagClearDone (B : Bench) (fails : BitVec 14) : Bench :=
  if !B.rst.released || B.rst.tagClearDone then B
  else
    let B := { B with rst := { B.rst with tagClearDone := true } }
    (List.range 13).foldl (fun B i => B.engKat (Fin.ofNat 18 (i + 1)) (fails.getLsbD (i + 1))) B

/-- The supervisor core's first fetch: it holds the roots, and the watchdog starts (R105, R682, R695). -/
def Bench.firstFetch (B : Bench) : Bench :=
  if !B.rst.tagClearDone || B.rst.firstFetch then B
  else
    let B := { B with rst := { B.rst with firstFetch := true, wdogCount := 0 } }
    B.modCore bsc fun c =>
      { c.setBank 7 (({ c.bank 7 with pcc := Cap.rootPcc (BitVec.ofNat 64 B.rst.entry) }.setC 3 Cap.rootData).setC 4 Cap.rootSeal) with cur := some 7 }

end Sys2Proof.Machine
end

