-- ==== Sys2Proof/Machine/State.lean ====
section
/-!
DEFINITION. Machine/State.lean: the state of the device with its queue of commands, the outcomes that stop a command, and the state
right after reset.
-/

namespace Sys2Proof.Machine

/-- The machine: the commands that wait, first in first out; the parts outside the benches; and the eight benches (R20). -/
structure State where
  pending : List Instr
  dev : Device
  benches : Vector Bench 8
  deriving DecidableEq, Repr

/-- Why a command stops the machine: no command of this model does, since every fault that the spec describes is taken as a next
state. -/
inductive Fault where
  /-- Raised by no command; named so that the type has a value. Safe. -/
  | none
  deriving DecidableEq, Repr

/-- Commands without a meaning. -/
inductive Refusal where
  /-- Raised by exec for a row of the opcode table that has no meaning yet, of which there is none. Safe. -/
  | notModelled (mnemonic : String)
  deriving DecidableEq, Repr

/-- The machine before power is applied for the first time: held in POR (R772), the fuses as they leave the wafer, the flash erased, no
command waiting. A register that the spec gives no reset value is zero (log 40). -/
def State.reset : State := { pending := [], dev := Device.zero, benches := Vector.ofFn Bench.zero }

end Sys2Proof.Machine
end

