-- ==== Sys2Proof/Machine/Lift.lean ====
section
/-!
DEFINITION. Machine/Lift.lean: a bench's computation as a command's outcome on the whole state.
-/

namespace Sys2Proof.Machine

/-- The outcome type of a command. -/
abbrev Out := Host.Outcome State Fault Refusal

def State.bench (s : State) (b : BenchNo) : Bench := s.benches[b]
def State.setBench (s : State) (b : BenchNo) (B : Bench) : State := { s with benches := s.benches.set b B }
/-- Every bench. -/
def State.allBenches (s : State) (f : Bench → Bench) : State := { s with benches := s.benches.map f }

/-- A command that acts on one bench. -/
def State.onBench (s : State) (b : BenchNo) (f : Bench → Bench) : Out := .next (s.setBench b (f (s.bench b)))

/-- An instruction's command: the core executes the word. -/
def State.instr (s : State) (x : Exec) (word : Word) (body : Strand → M (Option Cap)) : Out :=
  s.onBench x.bench fun B => B.instr x word body

/-- Work of unit `u` of a bench. -/
def State.onUnit (s : State) (b : BenchNo) (u : Nat) (f : Bench → Bench) : Out :=
  s.onBench b fun B => if B.unitRuns u then f B else B

/-- Work of the memory controller's island: the access filter, the tag controller with the Rake and the scrubber, the ETU, and what
the spec puts in no island of R29: the scheduler, the vault and the host queue engine (DESIGN CHOICE, log 81). -/
def Bench.memoryRuns (B : Bench) : Bool := B.running && B.islandOk 39
def State.onMemory (s : State) (b : BenchNo) (f : Bench → Bench) : Out :=
  s.onBench b fun B => if B.memoryRuns then f B else B

/-- The time unit counts in every power state (R569, R739). -/
def Bench.timeRuns (B : Bench) : Bool := B.rst.released && B.rst.due.isNone && B.islandOk (unitIsland 19)
def State.onTime (s : State) (b : BenchNo) (f : Bench → Bench) : Out :=
  s.onBench b fun B => if B.timeRuns then f B else B

/-- The bench is released and no reset has begun, whatever its power state. -/
def Bench.alive (B : Bench) : Bool := B.rst.released && B.rst.due.isNone
def State.onAlive (s : State) (b : BenchNo) (f : Bench → Bench) : Out :=
  s.onBench b fun B => if B.alive then f B else B

/-- A writer can reach the bench's register space: an access returns an idle bench to RUN (R737), one in NAP or OFF serves none (R739),
a core writes while its strand executes, and the host reaches none of it (R654). -/
def Bench.reaches (B : Bench) (w : Writer) : Bool :=
  B.alive && !B.asleep && match w with
    | .core k => ((B.idleExit).executing k).isSome
    | .host => false
    | .dmc => true

/-- The host can reach its own view of the bench (R654, R665). -/
def Bench.hostReaches (B : Bench) : Bool := B.alive && !B.asleep && B.hostUp

/-- A register write by a core, the host or the DMC. -/
def State.bus (s : State) (b : BenchNo) (w : Writer) (off : Nat) (v : Word) : Out :=
  s.onBench b fun B => if B.reaches w then B.idleExit.busWrite w off v else B

/-- A register read; the value read goes to the output log. -/
def State.busR (s : State) (b : BenchNo) (w : Writer) (off : Nat) : Out :=
  s.onBench b fun B =>
    if B.reaches w then
      let (v, B) := B.idleExit.busRead w off
      B.emit (.read w off v)
    else B

end Sys2Proof.Machine
end

