-- ==== Sys2Proof/Machine/Ecc.lean ====
section
/-!
DEFINITION. Machine/Ecc.lean: the public-key algorithms that R485 and R486 name: ECDSA and ECDH on P-256, P-384 and P-521 (FIPS
186-5), Ed25519 (RFC 8032), X25519 (RFC 7748) and RSA (RFC 8017).
-/

namespace Sys2Proof.Machine

/-- b^e mod m, for an exponent of at most `n` bits. -/
def powMod (n b e m : Nat) : Nat :=
  (List.range n).foldl (fun r i =>
    let r := r * r % m
    if e.testBit (n - 1 - i) then r * b % m else r) (1 % m)
/-- The inverse modulo a prime of at most `n` bits. -/
def invMod (n a p : Nat) : Nat := powMod n a (p - 2) p

/-! ## Short Weierstrass curves with a = -3 -/

structure Curve where
  bits : Nat
  p : Nat
  b : Nat
  n : Nat
  gx : Nat
  gy : Nat

def p256 : Curve :=
  { bits := 256
    p := 2 ^ 256 - 2 ^ 224 + 2 ^ 192 + 2 ^ 96 - 1
    b := 0x5AC635D8AA3A93E7B3EBBD55769886BC651D06B0CC53B0F63BCE3C3E27D2604B
    n := 0xFFFFFFFF00000000FFFFFFFFFFFFFFFFBCE6FAADA7179E84F3B9CAC2FC632551
    gx := 0x6B17D1F2E12C4247F8BCE6E563A440F277037D812DEB33A0F4A13945D898C296
    gy := 0x4FE342E2FE1A7F9B8EE7EB4A7C0F9E162BCE33576B315ECECBB6406837BF51F5 }
def p384 : Curve :=
  { bits := 384
    p := 2 ^ 384 - 2 ^ 128 - 2 ^ 96 + 2 ^ 32 - 1
    b := 0xB3312FA7E23EE7E4988E056BE3F82D19181D9C6EFE8141120314088F5013875AC656398D8A2ED19D2A85C8EDD3EC2AEF
    n := 0xFFFFFFFFFFFFFFFFFFFFFFFFFFFFFFFFFFFFFFFFFFFFFFFFC7634D81F4372DDF581A0DB248B0A77AECEC196ACCC52973
    gx := 0xAA87CA22BE8B05378EB1C71EF320AD746E1D3B628BA79B9859F741E082542A385502F25DBF55296C3A545E3872760AB7
    gy := 0x3617DE4A96262C6F5D9E98BF9292DC29F8F41DBD289A147CE9DA3113B5F0B8C00A60B1CE1D7E819D7A431D7C90EA0E5F }
def p521 : Curve :=
  { bits := 521
    p := 2 ^ 521 - 1
    b := 0x0051953EB9618E1C9A1F929A21A0B68540EEA2DA725B99B315F3B8B489918EF109E156193951EC7E937B1652C0BD3BB1BF073573DF883D2C34F1EF451FD46B503F00
    n := 0x01FFFFFFFFFFFFFFFFFFFFFFFFFFFFFFFFFFFFFFFFFFFFFFFFFFFFFFFFFFFFFFFFFA51868783BF2F966B7FCC0148F709A5D03BB5C9B8899C47AEBB6FB71E91386409
    gx := 0x00C6858E06B70404E9CD9E3ECB662395B4429C648139053FB521F828AF606B4D3DBAA14B5E77EFE75928FE1DC127A2FFA8DE3348B3C1856A429BF97E7E31C2E5BD66
    gy := 0x011839296A789A3BC0045C8A5FB42C7D1BD998F54449579B446817AFBD17273E662C97EE72995EF42640C550B9013FAD0761353C7086A272C24088BE94769FD16650 }

/-- Bytes of a field element, and of a scalar (both orders have the field's width). -/
def Curve.len (c : Curve) : Nat := (c.bits + 7) / 8

/-- A point; none is the point at infinity. -/
abbrev EcPoint := Option (Nat × Nat)

def Curve.onCurve (c : Curve) (x y : Nat) : Bool :=
  x < c.p && y < c.p && y * y % c.p == (x * x * x + (c.p - 3) * x + c.b) % c.p

def Curve.add (c : Curve) (u v : EcPoint) : EcPoint :=
  match u, v with
  | none, _ => v
  | _, none => u
  | some (x1, y1), some (x2, y2) =>
    if x1 = x2 && (y1 + y2) % c.p = 0 then none
    else
      let l := if x1 = x2 then (3 * x1 * x1 + c.p - 3) * invMod c.bits (2 * y1) c.p % c.p
        else (y2 + c.p - y1) * invMod c.bits ((x2 + c.p - x1) % c.p) c.p % c.p
      let x3 := (l * l + 2 * c.p - x1 - x2) % c.p
      some (x3, (l * (x1 + c.p - x3) + c.p - y1) % c.p)

def Curve.mul (c : Curve) (k : Nat) (u : EcPoint) : EcPoint :=
  (List.range c.bits).foldl (fun r i =>
    let r := c.add r r
    if k.testBit (c.bits - 1 - i) then c.add r u else r) none
def Curve.g (c : Curve) : EcPoint := some (c.gx, c.gy)

/-- The uncompressed form of a point (R484). -/
def Curve.encode (c : Curve) : EcPoint → List Byte
  | none => []
  | some (x, y) => [4] ++ beBytes c.len x ++ beBytes c.len y
/-- A point from its uncompressed form, none where it is not a point of the curve (R484). -/
def Curve.decode (c : Curve) (l : List Byte) : Option (Nat × Nat) :=
  let x := beNat ((l.drop 1).take c.len)
  let y := beNat ((l.drop (1 + c.len)).take c.len)
  if l.length = 1 + 2 * c.len && l.headD 0 = 4 && c.onCurve x y then some (x, y) else none

/-- The leftmost bits of a digest as an integer. -/
def Curve.hashInt (c : Curve) (h : List Byte) : Nat :=
  if 8 * h.length ≤ c.bits then beNat h else beNat h / 2 ^ (8 * h.length - c.bits)

/-- ECDSA with the nonce given; none where it gives r or s of 0. -/
def Curve.sign (c : Curve) (d k : Nat) (h : List Byte) : Option (List Byte) :=
  match c.mul k c.g with
  | none => none
  | some (x, _) =>
    let r := x % c.n
    let s := invMod c.bits (k % c.n) c.n * ((c.hashInt h + r * d) % c.n) % c.n
    if r = 0 || s = 0 then none else some (beBytes c.len r ++ beBytes c.len s)

def Curve.verify (c : Curve) (q : Nat × Nat) (h sig : List Byte) : Bool :=
  let r := beNat (sig.take c.len)
  let s := beNat ((sig.drop c.len).take c.len)
  if r = 0 || c.n ≤ r || s = 0 || c.n ≤ s then false
  else
    let w := invMod c.bits s c.n
    match c.add (c.mul (c.hashInt h * w % c.n) c.g) (c.mul (r * w % c.n) (some q)) with
    | none => false
    | some (x, _) => x % c.n == r

/-! ## Curve25519 -/

def p25519 : Nat := 2 ^ 255 - 19
def l25519 : Nat := 2 ^ 252 + 27742317777372353535851937790883648493
def inv25519 (a : Nat) : Nat := invMod 255 a p25519
def ed25519D : Nat := (p25519 - 121665) * inv25519 121666 % p25519
/-- A square root of -1. -/
def sqrtM1 : Nat := powMod 255 2 ((p25519 - 1) / 4) p25519

/-- Clamp a secret scalar. -/
def clamp25519 (l : List Byte) : Nat :=
  let v := leNat l
  (v % 2 ^ 254) / 8 * 8 + 2 ^ 254

/-- The Montgomery ladder (RFC 7748). -/
def x25519 (k u : List Byte) : List Byte :=
  let p := p25519
  let x1 := leNat u % 2 ^ 255 % p
  let e := clamp25519 k
  let step (s : (Nat × Nat) × (Nat × Nat)) (i : Nat) : (Nat × Nat) × (Nat × Nat) :=
    let bit := e.testBit (254 - i)
    let ((x2, z2), (x3, z3)) := if bit then (s.2, s.1) else s
    let a := (x2 + z2) % p
    let aa := a * a % p
    let b := (x2 + p - z2) % p
    let bb := b * b % p
    let e' := (aa + p - bb) % p
    let da := (x3 + p - z3) * a % p
    let cb := (x3 + z3) * b % p
    let x3' := (da + cb) * (da + cb) % p
    let y3 := (da + p - cb) % p
    let z3' := x1 * (y3 * y3 % p) % p
    let r := ((aa * bb % p, e' * ((aa + 121665 * e') % p) % p), (x3', z3'))
    if bit then (r.2, r.1) else r
  let s := (List.range 255).foldl step ((1, 0), (x1, 1))
  leBytes 32 (s.1.1 * inv25519 s.1.2 % p)
def x25519Base (k : List Byte) : List Byte := x25519 k (leBytes 32 9)

/-- Addition on edwards25519, affine. -/
def edAdd (u v : Nat × Nat) : Nat × Nat :=
  let p := p25519
  let t := ed25519D * (u.1 * v.1 % p) % p * (u.2 * v.2 % p) % p
  ((u.1 * v.2 + v.1 * u.2) % p * inv25519 ((1 + t) % p) % p, (u.2 * v.2 + u.1 * v.1) % p * inv25519 ((1 + p - t) % p) % p)
def edMul (k : Nat) (u : Nat × Nat) : Nat × Nat :=
  (List.range 256).foldl (fun r i =>
    let r := edAdd r r
    if k.testBit (255 - i) then edAdd r u else r) (0, 1)
def edEncode (u : Nat × Nat) : List Byte := leBytes 32 (u.2 + u.1 % 2 * 2 ^ 255)
def edDecode (l : List Byte) : Option (Nat × Nat) :=
  let p := p25519
  let v := leNat l
  let y := v % 2 ^ 255
  let u := (y * y + p - 1) % p
  let w := (ed25519D * (y * y % p) + 1) % p
  let x2 := u * inv25519 w % p
  let x := powMod 255 x2 ((p + 3) / 8) p
  let x := if x * x % p = x2 then x else x * sqrtM1 % p
  if l.length ≠ 32 || p ≤ y || x * x % p ≠ x2 || (x = 0 && v / 2 ^ 255 = 1) then none
  else some (if x % 2 = v / 2 ^ 255 then x else p - x, y)
def edBase : Nat × Nat :=
  (edDecode (leBytes 32 (4 * inv25519 5 % p25519))).getD (0, 1)

def edPublic (sk : List Byte) : List Byte := edEncode (edMul (clamp25519 ((sha512 sk).take 32)) edBase)
def edSign (sk m : List Byte) : List Byte :=
  let h := sha512 sk
  let a := clamp25519 (h.take 32)
  let pub := edEncode (edMul a edBase)
  let r := leNat (sha512 (h.drop 32 ++ m)) % l25519
  let rb := edEncode (edMul r edBase)
  let k := leNat (sha512 (rb ++ pub ++ m)) % l25519
  rb ++ leBytes 32 ((r + k * a) % l25519)
def edVerify (pub m sig : List Byte) : Bool :=
  match edDecode pub, edDecode (sig.take 32) with
  | some a, some r =>
    let s := leNat (sig.drop 32)
    let k := leNat (sha512 (sig.take 32 ++ pub ++ m)) % l25519
    decide (s < l25519) && edMul s edBase == edAdd r (edMul k a)
  | _, _ => false

/-! ## RSA -/

/-- The DER prefix of a SHA-2 digest. -/
def digestInfo (n : Nat) : List Byte :=
  let (a, b, c) : Byte × Byte × Byte := if n = 32 then (0x31, 0x01, 0x20) else if n = 48 then (0x41, 0x02, 0x30) else (0x51, 0x03, 0x40)
  [0x30, a, 0x30, 0x0D, 0x06, 0x09, 0x60, 0x86, 0x48, 0x01, 0x65, 0x03, 0x04, 0x02, b, 0x05, 0x00, 0x04, c]

/-- EMSA-PKCS1-v1_5 of a digest in `k` bytes. -/
def pkcs1Encode (k : Nat) (h : List Byte) : List Byte :=
  let t := digestInfo h.length ++ h
  [0, 1] ++ List.replicate (k - 3 - t.length) 0xFF ++ [0] ++ t

def mgf1 (hash : List Byte → List Byte) (hl : Nat) (seed : List Byte) (n : Nat) : List Byte :=
  ((List.range ((n + hl - 1) / hl)).flatMap fun i => hash (seed ++ beBytes 4 i)).take n

/-- EMSA-PSS with a salt; the modulus has a whole number of bytes. -/
def pssEncode (hash : List Byte → List Byte) (k : Nat) (h salt : List Byte) : List Byte :=
  let hl := h.length
  let hp := hash (List.replicate 8 0 ++ h ++ salt)
  let db := List.replicate (k - 2 * hl - 2) 0 ++ [1] ++ salt
  let m := xorBytes db (mgf1 hash hl hp (k - hl - 1))
  match m with
  | b :: t => (b &&& 0x7F) :: t ++ hp ++ [0xBC]
  | [] => []
def pssVerify (hash : List Byte → List Byte) (k : Nat) (h em : List Byte) : Bool :=
  let hl := h.length
  let m := em.take (k - hl - 1)
  let hp := (em.drop (k - hl - 1)).take hl
  let db := xorBytes m (mgf1 hash hl hp (k - hl - 1))
  let db := match db with
    | b :: t => (b &&& 0x7F) :: t
    | [] => []
  let salt := db.drop (k - 2 * hl - 1)
  em.length == k && em.getLastD 0 == 0xBC && (em.headD 0).toNat < 128
    && (db.take (k - 2 * hl - 2)).all (· = 0) && db.getD (k - 2 * hl - 2) 0 == 1
    && hp == hash (List.replicate 8 0 ++ h ++ salt)

/-- The RSA private operation with p, q, dp, dq and qinv. -/
def rsaCrt (bits p q dp dq qinv m : Nat) : Nat :=
  let s1 := powMod bits (m % p) dp p
  let s2 := powMod bits (m % q) dq q
  s2 + q * (qinv * ((s1 + p - s2 % p) % p) % p)

end Sys2Proof.Machine
end

