-- ==== Sys2Proof/Machine/Lattice.lean ====
section
/-!
DEFINITION. Machine/Lattice.lean: what ML-KEM of FIPS 203 and ML-DSA of FIPS 204 share: polynomials of 256 coefficients modulo
`q`, the number-theoretic transform and the packing of coefficients into bytes (R484, R487, R488). The standards' own
definitions are followed; their text is outside the spec (log 26).
-/

namespace Sys2Proof.Machine

/-- A polynomial, or its transform: 256 coefficients, the constant one first. -/
abbrev Poly := List Nat

/-- The `bits` low bits of a number in reverse order. -/
def bitRev : Nat → Nat → Nat
  | 0, _ => 0
  | k + 1, n => n % 2 * 2 ^ k + bitRev k (n / 2)

def modPow (q a : Nat) : Nat → Nat → Nat
  | 0, _ => 1
  | fuel + 1, e =>
    if e = 0 then 1
    else
      let h := modPow q (a * a % q) fuel (e / 2)
      if e % 2 = 1 then h * a % q else h

/-- The powers of the root `z` in the order that the transform uses them. -/
def zetas (q z bits : Nat) : Nat → Nat := fun k => modPow q z 16 (bitRev bits k)

def addPoly (q : Nat) : Poly → Poly → Poly := List.zipWith fun x y => (x + y) % q
def subPoly (q : Nat) : Poly → Poly → Poly := List.zipWith fun x y => (x + q - y) % q

/-- The transform of depth `d` of the polynomial at node `k` of the tree of factors. -/
def nttGo (q : Nat) (z : Nat → Nat) : Nat → Nat → Poly → Poly
  | 0, _, f => f
  | d + 1, k, f =>
    let lo := f.take (f.length / 2)
    let w := z k
    let hi := (f.drop (f.length / 2)).map fun x => x * w % q
    nttGo q z d (2 * k) (addPoly q lo hi) ++ nttGo q z d (2 * k + 1) (subPoly q lo hi)

/-- Its inverse, but for the factor 2^d; `z` holds the inverse powers. -/
def inttGo (q : Nat) (z : Nat → Nat) : Nat → Nat → Poly → Poly
  | 0, _, f => f
  | d + 1, k, f =>
    let a := inttGo q z d (2 * k) (f.take (f.length / 2))
    let b := inttGo q z d (2 * k + 1) (f.drop (f.length / 2))
    let w := z k
    addPoly q a b ++ (subPoly q a b).map fun x => x * w % q

/-- Numbers of `d` bits as bytes, the low bits first. -/
def packBits (d : Nat) (l : List Nat) : List Byte := leBytes (d * l.length / 8) (l.foldr (fun x a => x % 2 ^ d + 2 ^ d * a) 0)
/-- `n` numbers of `d` bits from bytes. -/
def unpackBits (d n : Nat) (l : List Byte) : List Nat :=
  let v := leNat l
  (List.range n).map fun i => v / 2 ^ (d * i) % 2 ^ d

/-- Pieces of `n` bytes, `k` of them, after the first `o` bytes. -/
def pieces (o n k : Nat) (l : List Byte) : List (List Byte) := chunks n k (l.drop o)

def sumPoly (q : Nat) (l : List Poly) : Poly := l.foldl (addPoly q) (List.replicate 256 0)

/-- Triples of bytes. -/
def triples : List Byte → List (Nat × Nat × Nat)
  | a :: b :: c :: t => (a.toNat, b.toNat, c.toNat) :: triples t
  | _ => []

end Sys2Proof.Machine
end

