-- ==== Sys2Proof/Machine/MlDsa.lean ====
section
/-!
DEFINITION. Machine/MlDsa.lean: ML-DSA-44, -65 and -87 of FIPS 204 (R484, R487, R488), the parameter sets numbered by DETAIL (R418):
0x20, 0x21, 0x22.
-/

namespace Sys2Proof.Machine

def dsaQ : Nat := 8380417

/-- A parameter set. -/
structure DsaSet where
  tau : Nat
  /-- Bytes of the commitment hash. -/
  ct : Nat
  gamma1 : Nat
  gamma2 : Nat
  k : Nat
  l : Nat
  eta : Nat
  omega : Nat

def dsaSet (d : Nat) : DsaSet :=
  if d = 0x20 then { tau := 39, ct := 32, gamma1 := 2 ^ 17, gamma2 := 95232, k := 4, l := 4, eta := 2, omega := 80 }
  else if d = 0x21 then { tau := 49, ct := 48, gamma1 := 2 ^ 19, gamma2 := 261888, k := 6, l := 5, eta := 4, omega := 55 }
  else { tau := 60, ct := 64, gamma1 := 2 ^ 19, gamma2 := 261888, k := 8, l := 7, eta := 2, omega := 75 }

def DsaSet.beta (s : DsaSet) : Nat := s.tau * s.eta
/-- Bits of a coefficient of z. -/
def DsaSet.zBits (s : DsaSet) : Nat := s.gamma1.log2 + 1
/-- Values of the high bits. -/
def DsaSet.highs (s : DsaSet) : Nat := (dsaQ - 1) / (2 * s.gamma2)

def dsaNtt (f : Poly) : Poly := nttGo dsaQ (zetas dsaQ 1753 8) 8 1 f
def dsaInv (f : Poly) : Poly := (inttGo dsaQ (zetas dsaQ 731434 8) 8 1 f).map fun x => x * 8347681 % dsaQ
def dsaMul (a b : Poly) : Poly := List.zipWith (fun x y => x * y % dsaQ) a b
def dsaDot (a b : List Poly) : Poly := sumPoly dsaQ (List.zipWith dsaMul a b)
/-- The matrix times a vector, both transformed; the result is not. -/
def dsaApply (a : List (List Poly)) (v : List Poly) : List Poly := a.map fun row => dsaInv (dsaDot row v)

/-- A uniform transform from a seed: rejection, with the 298 steps that FIPS 204 appendix C allows. -/
def dsaUniform (seed : List Byte) : Poly :=
  (((triples (shake128 894 seed)).map fun (a, b, c) => a + 256 * b + 65536 * (c % 128)).filter (· < dsaQ)).take 256
def dsaMatrix (s : DsaSet) (rho : List Byte) : List (List Poly) :=
  (List.range s.k).map fun r => (List.range s.l).map fun c => dsaUniform (rho ++ [BitVec.ofNat 8 c, BitVec.ofNat 8 r])

/-- A polynomial of coefficients at most eta: rejection, within 481 bytes. -/
def dsaSmall (eta : Nat) (seed : List Byte) : Poly :=
  ((nibblesLow (shake256 481 seed)).filterMap fun b =>
    if eta = 2 then (if b < 15 then some ((dsaQ + 2 - b % 5) % dsaQ) else none)
    else if b < 9 then some ((dsaQ + 4 - b) % dsaQ) else none).take 256
where
  nibblesLow (l : List Byte) : List Nat := l.flatMap fun b => [b.toNat % 16, b.toNat / 16]

/-- High and low parts by 2^13. -/
def dsaHigh13 (x : Nat) : Nat := (x + 4095) / 8192

/-- What a seed expands to: the public key and the secret parts. -/
structure DsaKey where
  pk : List Byte
  matrix : List (List Poly)
  k : List Byte
  s1 : List Poly
  s2 : List Poly
  t0 : List Poly

def dsaKey (s : DsaSet) (seed : List Byte) : DsaKey :=
  let h := shake256 128 (seed ++ [BitVec.ofNat 8 s.k, BitVec.ofNat 8 s.l])
  let rho := h.take 32
  let small (r : Nat) : Poly := dsaSmall s.eta ((h.drop 32).take 64 ++ leBytes 2 r)
  let a := dsaMatrix s rho
  let s1 := (List.range s.l).map small
  let s2 := (List.range s.k).map fun r => small (r + s.l)
  let t := List.zipWith (addPoly dsaQ) (dsaApply a (s1.map dsaNtt)) s2
  { pk := rho ++ t.flatMap fun p => packBits 10 (p.map dsaHigh13)
    matrix := a, k := h.drop 96, s1 := s1, s2 := s2
    t0 := t.map fun p => p.map fun x => (x + dsaQ - dsaHigh13 x * 8192) % dsaQ }

/-- The absolute value of the centred residue. -/
def dsaAbs (x : Nat) : Nat := if x ≤ dsaQ / 2 then x else dsaQ - x
def dsaNorm (v : List Poly) : Nat := v.foldl (fun m p => p.foldl (fun m x => max m (dsaAbs x)) m) 0

/-- The high part of a residue, and the low part modulo q. -/
def dsaSplit (s : DsaSet) (r : Nat) : Nat × Nat :=
  let r0 := r % (2 * s.gamma2)
  let (hi, lo) := if r0 ≤ s.gamma2 then (r - r0, r0) else (r - r0 + 2 * s.gamma2, r0 + dsaQ - 2 * s.gamma2)
  if hi = dsaQ - 1 then (0, (lo + dsaQ - 1) % dsaQ) else (hi / (2 * s.gamma2), lo)

/-- The challenge polynomial: `tau` coefficients 1 or -1, drawn from the rest of the stream by rejection. -/
def dsaBallGo (signs : Nat) : Nat → Nat → List Byte → Poly → Poly
  | 0, _, _, c => c
  | _ + 1, _, [], c => c
  | fuel + 1, i, b :: t, c =>
    if 256 ≤ i then c
    else if i < b.toNat then dsaBallGo signs fuel i t c
    else
      let c := (c.set i (c.getD b.toNat 0)).set b.toNat (if signs % 2 = 1 then dsaQ - 1 else 1)
      dsaBallGo (signs / 2) fuel (i + 1) t c
def dsaBall (s : DsaSet) (ct : List Byte) : Poly :=
  let b := shake256 272 ct
  dsaBallGo (leNat (b.take 8)) 264 (256 - s.tau) (b.drop 8) (List.replicate 256 0)

/-- The commitment hash over the high bits. -/
def dsaCommit (s : DsaSet) (mu : List Byte) (w1 : List Poly) : List Byte :=
  shake256 s.ct (mu ++ w1.flatMap (packBits (if s.highs = 16 then 4 else 6)))

/-- The message representative of the pure form. -/
def dsaMu (pk ctx m : List Byte) : List Byte :=
  shake256 64 (shake256 64 pk ++ [0, BitVec.ofNat 8 ctx.length] ++ ctx ++ m)

/-- The hint's encoding. -/
def dsaHintBytes (s : DsaSet) (h : List (List Nat)) : List Byte :=
  let all := h.flatten
  (all ++ List.replicate (s.omega - all.length) 0).map (BitVec.ofNat 8)
    ++ (List.range s.k).map fun i => BitVec.ofNat 8 ((h.take (i + 1)).flatten.length)

/-- The signing loop, from mask counter `kappa`: its 814 steps are those FIPS 204 appendix C allows. -/
def dsaLoop (s : DsaSet) (x : DsaKey) (mu mask : List Byte) (s1 s2 t0 : List Poly) : Nat → Nat → List Byte
  | 0, _ => []
  | fuel + 1, kappa =>
    let y := (List.range s.l).map fun r =>
      (unpackBits s.zBits 256 (shake256 (32 * s.zBits) (mask ++ leBytes 2 (kappa + r)))).map fun v => (s.gamma1 + dsaQ - v) % dsaQ
    let w := dsaApply x.matrix (y.map dsaNtt)
    let ct := dsaCommit s mu (w.map fun p => p.map fun v => (dsaSplit s v).1)
    let c := dsaNtt (dsaBall s ct)
    let z := List.zipWith (fun y t => addPoly dsaQ y (dsaInv (dsaMul c t))) y s1
    let v := List.zipWith (fun w t => subPoly dsaQ w (dsaInv (dsaMul c t))) w s2
    let again := dsaLoop s x mu mask s1 s2 t0 fuel (kappa + s.l)
    if s.gamma1 - s.beta ≤ dsaNorm z || s.gamma2 - s.beta ≤ dsaNorm (v.map fun p => p.map fun v => (dsaSplit s v).2) then again
    else
      let c0 := t0.map fun t => dsaInv (dsaMul c t)
      let h := List.zipWith (fun v t => (List.range 256).filter fun i =>
        (dsaSplit s ((v.getD i 0 + t.getD i 0) % dsaQ)).1 ≠ (dsaSplit s (v.getD i 0)).1) v c0
      if s.gamma2 ≤ dsaNorm c0 || s.omega < h.flatten.length then again
      else ct ++ z.flatMap (fun p => packBits s.zBits (p.map fun v => (s.gamma1 + dsaQ - v) % dsaQ)) ++ dsaHintBytes s h

/-- The public key that a seed expands to. -/
def mldsaPublic (d : Nat) (seed : List Byte) : List Byte := (dsaKey (dsaSet d) seed).pk

/-- A signature: set, seed, context, message, rnd. -/
def mldsaSign (d : Nat) (seed ctx m rnd : List Byte) : List Byte :=
  let s := dsaSet d
  let x := dsaKey s seed
  let mu := dsaMu x.pk ctx m
  dsaLoop s x mu (shake256 64 (x.k ++ rnd ++ mu)) (x.s1.map dsaNtt) (x.s2.map dsaNtt) (x.t0.map dsaNtt) 814 0

/-- The hint of a signature, if it is well formed: rising positions for each polynomial, and zeros after the last. -/
def dsaHint (s : DsaSet) (b : List Byte) : Option (List (List Nat)) :=
  let pos := (b.take s.omega).map (·.toNat)
  let ends := (b.drop s.omega).map (·.toNat)
  let rising (l : List Nat) : Bool := (l.zip l.tail).all fun p => p.1 < p.2
  let h := List.zipWith (fun a e => (pos.take e).drop a) (0 :: ends) ends
  if ((0 :: ends).zip ends).all (fun p => p.1 ≤ p.2 && p.2 ≤ s.omega) && h.all rising && (pos.drop (ends.getLastD 0)).all (· = 0) then some h
  else none

/-- Verification: set, public key, context, message, signature. -/
def mldsaVerify (d : Nat) (pk ctx m sig : List Byte) : Bool :=
  let s := dsaSet d
  let n := 32 * s.zBits
  match dsaHint s (sig.drop (s.ct + n * s.l)) with
  | none => false
  | some h =>
    let t1 := (pieces 32 320 s.k pk).map (unpackBits 10 256)
    let z := (pieces s.ct n s.l sig).map fun p => (unpackBits s.zBits 256 p).map fun v => (s.gamma1 + dsaQ - v) % dsaQ
    let c := dsaNtt (dsaBall s (sig.take s.ct))
    let nz := z.map dsaNtt
    let w := List.zipWith (fun row t => dsaInv (subPoly dsaQ (dsaDot row nz) (dsaMul c (dsaNtt (t.map (· * 8192)))))) (dsaMatrix s (pk.take 32)) t1
    let w1 := List.zipWith (fun p (h : List Nat) => (List.range 256).map fun i =>
      let (hi, lo) := dsaSplit s (p.getD i 0)
      if h.contains i then (if lo ≠ 0 && lo ≤ dsaQ / 2 then hi + 1 else hi + s.highs - 1) % s.highs else hi) w h
    decide (dsaNorm z < s.gamma1 - s.beta) && sig.take s.ct == dsaCommit s (dsaMu pk ctx m) w1

end Sys2Proof.Machine
end

