-- ==== Sys2Proof/Machine/MlKem.lean ====
section
/-!
DEFINITION. Machine/MlKem.lean: ML-KEM-512, -768 and -1024 of FIPS 203 (R484, R487, R488), the parameter sets numbered by DETAIL
(R418): 0x24, 0x25, 0x26.
-/

namespace Sys2Proof.Machine

def kemQ : Nat := 3329

/-- A parameter set. -/
structure KemSet where
  k : Nat
  eta1 : Nat
  du : Nat
  dv : Nat

def kemSet (d : Nat) : KemSet :=
  if d = 0x24 then { k := 2, eta1 := 3, du := 10, dv := 4 }
  else if d = 0x25 then { k := 3, eta1 := 2, du := 10, dv := 4 }
  else { k := 4, eta1 := 2, du := 11, dv := 5 }

def kemNtt (f : Poly) : Poly := nttGo kemQ (zetas kemQ 17 7) 7 1 f
def kemInv (f : Poly) : Poly := (inttGo kemQ (zetas kemQ 1175 7) 7 1 f).map fun x => x * 3303 % kemQ

/-- The product of two transforms: pairs modulo X^2 - gamma. -/
def kemMulGo : Nat → Poly → Poly → Poly
  | i, a0 :: a1 :: a, b0 :: b1 :: b =>
    let g := modPow kemQ 17 16 (2 * bitRev 7 i + 1)
    (a0 * b0 + a1 * b1 % kemQ * g) % kemQ :: (a0 * b1 + a1 * b0) % kemQ :: kemMulGo (i + 1) a b
  | _, _, _ => []
def kemDot (a b : List Poly) : Poly := sumPoly kemQ (List.zipWith (kemMulGo 0) a b)

/-- A uniform transform from a seed: rejection, with the 280 steps that FIPS 203 appendix B allows. -/
def kemUniform (seed : List Byte) : Poly :=
  (((triples (shake128 840 seed)).flatMap fun (a, b, c) => [a + 256 * (b % 16), b / 16 + 16 * c]).filter (· < kemQ)).take 256
def kemMatrix (k : Nat) (rho : List Byte) : List (List Poly) :=
  (List.range k).map fun i => (List.range k).map fun j => kemUniform (rho ++ [BitVec.ofNat 8 j, BitVec.ofNat 8 i])
def transpose (k : Nat) (a : List (List Poly)) : List (List Poly) := (List.range k).map fun j => a.map fun r => r.getD j []

/-- A small polynomial of the centred binomial distribution, from a key and a counter. -/
def kemSmall (eta : Nat) (s : List Byte) (n : Nat) : Poly :=
  let b := unpackBits 1 (512 * eta) (shake256 (64 * eta) (s ++ [BitVec.ofNat 8 n]))
  (List.range 256).map fun i =>
    let sum (o : Nat) : Nat := ((b.drop (2 * i * eta + o)).take eta).foldl (· + ·) 0
    (sum 0 + kemQ - sum eta) % kemQ

def kemCompress (d x : Nat) : Nat := (2 ^ (d + 1) * x + kemQ) / (2 * kemQ) % 2 ^ d
def kemDecompress (d y : Nat) : Nat := (y * kemQ + 2 ^ (d - 1)) / 2 ^ d

/-- The key pair of the underlying scheme from the seed d: the encapsulation key and the transformed secret. -/
def kemPair (s : KemSet) (d : List Byte) : List Byte × List Poly :=
  let g := sha3 64 (d ++ [BitVec.ofNat 8 s.k])
  let rho := g.take 32
  let sigma := g.drop 32
  let sec := (List.range s.k).map fun i => kemNtt (kemSmall s.eta1 sigma i)
  let t := List.zipWith (fun row i => addPoly kemQ (kemDot row sec) (kemNtt (kemSmall s.eta1 sigma (s.k + i)))) (kemMatrix s.k rho) (List.range s.k)
  (t.flatMap (packBits 12) ++ rho, sec)

/-- Encryption of 32 bytes under an encapsulation key with coins `r`. -/
def kemEncrypt (s : KemSet) (ek m r : List Byte) : List Byte :=
  let t := (pieces 0 384 s.k ek).map (unpackBits 12 256)
  let a := transpose s.k (kemMatrix s.k ((ek.drop (384 * s.k)).take 32))
  let y := (List.range s.k).map fun i => kemNtt (kemSmall s.eta1 r i)
  let u := List.zipWith (fun row i => addPoly kemQ (kemInv (kemDot row y)) (kemSmall 2 r (s.k + i))) a (List.range s.k)
  let mu := (unpackBits 1 256 m).map (kemDecompress 1)
  let v := addPoly kemQ (addPoly kemQ (kemInv (kemDot t y)) (kemSmall 2 r (2 * s.k))) mu
  u.flatMap (fun p => packBits s.du (p.map (kemCompress s.du))) ++ packBits s.dv (v.map (kemCompress s.dv))

/-- Decryption under the transformed secret. -/
def kemDecrypt (s : KemSet) (sec : List Poly) (c : List Byte) : List Byte :=
  let u := (pieces 0 (32 * s.du) s.k c).map fun p => (unpackBits s.du 256 p).map (kemDecompress s.du)
  let v := (unpackBits s.dv 256 (c.drop (32 * s.du * s.k))).map (kemDecompress s.dv)
  packBits 1 ((subPoly kemQ v (kemInv (kemDot sec (u.map kemNtt)))).map (kemCompress 1))

/-- The encapsulation key of the seeds d and z. -/
def mlkemPublic (d : Nat) (seed : List Byte) : List Byte := (kemPair (kemSet d) (seed.take 32)).1

/-- The modulus check of an encapsulation key. -/
def mlkemKeyOk (d : Nat) (ek : List Byte) : Bool :=
  (pieces 0 384 (kemSet d).k ek).all fun p => (unpackBits 12 256 p).all (· < kemQ)

/-- Ciphertext and shared secret of an encapsulation with the message `m`. -/
def mlkemEncaps (d : Nat) (ek m : List Byte) : List Byte × List Byte :=
  let g := sha3 64 (m ++ sha3 32 ek)
  (kemEncrypt (kemSet d) ek m (g.drop 32), g.take 32)

/-- The shared secret of a ciphertext, with implicit rejection. -/
def mlkemDecaps (d : Nat) (seed c : List Byte) : List Byte :=
  let (ek, sec) := kemPair (kemSet d) (seed.take 32)
  let m := kemDecrypt (kemSet d) sec c
  let g := sha3 64 (m ++ sha3 32 ek)
  if kemEncrypt (kemSet d) ek m (g.drop 32) = c then g.take 32 else shake256 32 (seed.drop 32 ++ c)

end Sys2Proof.Machine
end

