-- ==== Sys2Proof/Machine/Pke.lean ====
section
/-!
DEFINITION. Machine/Pke.lean: the jobs of the PKE (R484 to R486) and of the LKE (R487, R488).
-/

namespace Sys2Proof.Machine

/-! ## What VAR names (R485) -/

/-- The VARs that an operation of the PKE lists. -/
def pkeDefined (op var : Nat) : Bool :=
  match op with
  | 1 | 2 => 1 ≤ var && var ≤ 4
  | 3 | 4 => 8 ≤ var && var ≤ 0x0A
  | 5 => (1 ≤ var && var ≤ 3) || var == 5
  | 6 => var == 1 || var == 2 || var == 5
  | 7 => (1 ≤ var && var ≤ 5) || (8 ≤ var && var ≤ 0x0A)
  | _ => false

/-- The DETAIL of the keys that a VAR names. -/
def pkeDetail (var : Nat) : Nat := if var ≤ 5 then 0x0F + var else 0x10 + var
def pkeCurve (var : Nat) : Curve := if var = 1 then p256 else if var = 2 then p384 else p521
/-- The hash of ECDSA on a curve. -/
def pkeHash (var : Nat) : List Byte → List Byte := if var = 1 then sha256 else if var = 2 then sha384 else sha512
def rsaBytes (var : Nat) : Nat := if var = 8 then 256 else if var = 9 then 384 else 512
def rsaHash (aux : Nat) : (List Byte → List Byte) × Nat :=
  match aux / 4 % 4 with
  | 0 => (sha256, 32)
  | 1 => (sha384, 48)
  | _ => (sha512, 64)
def hashLen (var : Nat) : Nat := if var = 1 then 32 else if var = 2 then 48 else 64

/-- Length of a public key (R484). -/
def pkeKeyLen (var : Nat) : Nat := if var ≤ 3 then 1 + 2 * (pkeCurve var).len else if var ≤ 5 then 32 else rsaBytes var + 4
/-- Length of a signature (R486). -/
def pkeSigLen (var : Nat) : Nat := if var ≤ 3 then 2 * (pkeCurve var).len else if var = 4 then 64 else rsaBytes var

/-- The header (check 1 of R474). -/
def pkeHeader (j : JC) : J Unit := do
  J.guardBad (pkeDefined j.op j.var) 1
  let signs := decide (1 ≤ j.op) && decide (j.op ≤ 4)
  J.guardBad (!(j.clearKey || 8 ≤ j.byte 2)) 2
  J.guardBad (!(j.preHash && (!signs || j.var = 4))) 2
  J.guardBad (j.resume || j.token = 0) 2
  let rsa := decide (j.op = 3 || j.op = 4)
  J.guardBad (if rsa then j.aux % 4 ≤ 1 && j.aux / 4 ≤ 2 else j.aux == 0) 3
  J.guardBad (!signs || decide (j.len ≤ 65536)) 3
  let hl := if rsa then (rsaHash j.aux).2 else hashLen j.var
  J.guardBad (!j.preHash || j.len == hl) 3

def pkeFits (var : Nat) (h : List Byte) : Bool := hdrDetail h == pkeDetail var

/-- The digest that the job signs or verifies. -/
def pkeDigest (j : JC) (m : List Byte) : List Byte :=
  if j.preHash then m else if j.op = 3 || j.op = 4 then (rsaHash j.aux).1 m else pkeHash j.var m

/-- A check of the PKE's own failed (R486). -/
def J.inconsistent {α : Type} : J α := fun B => .error { Finish.fail 7 0x01 3 0 with events := [818] } B

/-- OP 0x01. -/
def pkeSign (j : JC) (unit : Option UnitJob) : J Finish := do
  pkeHeader j
  let role : KeyRole := { classes := if j.unit then [0x1D] else [0x10, 0x1D], modes := ['S'], fits := pkeFits j.var }
  match unit with
  | some (.checkpoint _ _ _ rec') =>
    match ← J.checkHandle j 0 (.handle role false) with
    | none => J.refuse 0x01 0
    | some k =>
      let c := pkeCurve j.var
      let r ← J.random (c.len + 8)
      match c.sign (beNat k.value) (1 + beNat r % (c.n - 1)) (pkeHash j.var rec') with
      | none => J.inconsistent
      | some s => pure { Finish.ok s.length 0 [] with sig := s, keyid := hdrKeyid k.header }
  | _ =>
    let c := pkeCurve j.var
    let i ← J.whole j (.handle role false) (.rd j.len) (.wr (pkeSigLen j.var)) (if j.var = 4 then 0 else c.len + 8)
    match i.ka with
    | none => J.refuse 0x01 0
    | some k =>
      if j.var = 4 then
        let s := edSign k.value i.b
        pure (Finish.ok s.length 0 (j.out 2 0 s))
      else
        match c.sign (beNat k.value) (1 + beNat i.r % (c.n - 1)) (pkeDigest j i.b) with
        | none => J.inconsistent
        | some s => pure (Finish.ok s.length 0 (j.out 2 0 s))

/-- The digest check of a trusted key (R425). -/
def trustedOk (k : Option KeyCopy) (pub : List Byte) : J Unit :=
  match k with
  | none => pure ()
  | some c => if c.value = sha384 pub then pure () else J.refuse 0x0A 0

/-- The outcome of a verification. -/
def verdict (ok : Bool) : Finish := if ok then Finish.ok 0 0 [] else Finish.fail 1 0 3 0

/-- OP 0x02. -/
def pkeVerify (j : JC) : J Finish := do
  pkeHeader j
  let role : KeyRole := { classes := [0x11], modes := ['V'], fits := pkeFits j.var }
  let kl := pkeKeyLen j.var
  let i ← J.whole j (.handleOpt role) (.rd j.len) (.rd (kl + pkeSigLen j.var))
  let pub := i.c.take kl
  let sig := i.c.drop kl
  trustedOk i.ka pub
  if j.var = 4 then
    match edDecode pub with
    | none => J.badInput 1
    | some _ => pure (verdict (edVerify pub i.b sig))
  else
    match (pkeCurve j.var).decode pub with
    | none => J.badInput 1
    | some q => pure (verdict ((pkeCurve j.var).verify q (pkeDigest j i.b) sig))

/-- An RSA value (R418): p, q, dp, dq, qinv, e. -/
def rsaParts (var : Nat) (v : List Byte) : List Nat :=
  let h := rsaBytes var / 2
  ((List.range 5).map fun i => beNat ((v.drop (i * h)).take h)) ++ [beNat (v.drop (5 * h))]

/-- The encoded message of an RSA operation. -/
def rsaEncode (j : JC) (h salt : List Byte) : List Byte :=
  if j.aux % 4 = 0 then pkcs1Encode (rsaBytes j.var) h else pssEncode (rsaHash j.aux).1 (rsaBytes j.var) h salt

/-- OP 0x03. -/
def pkeRsaSign (j : JC) : J Finish := do
  pkeHeader j
  let role : KeyRole := { classes := [0x13], modes := ['S'], fits := pkeFits j.var }
  let i ← J.whole j (.handle role false) (.rd j.len) (.wr (pkeSigLen j.var)) (if j.aux % 4 = 1 then (rsaHash j.aux).2 else 0)
  match i.ka with
  | none => J.refuse 0x01 0
  | some k =>
    match rsaParts j.var k.value with
    | [p, q, dp, dq, qinv, e] =>
      let m := beNat (rsaEncode j (pkeDigest j i.b) i.r)
      let s := rsaCrt (rsaBytes j.var * 4) p q dp dq qinv m
      if powMod 32 s e (p * q) ≠ m % (p * q) then J.inconsistent
      else
        let s := beBytes (rsaBytes j.var) s
        pure (Finish.ok s.length 0 (j.out 2 0 s))
    | _ => J.inconsistent

/-- An RSA public key is well formed (R484). -/
def rsaKeyOk (w n e : Nat) : Bool := n % 2 == 1 && decide (2 ^ (8 * w - 1) ≤ n) && e % 2 == 1 && decide (3 ≤ e)

/-- OP 0x04. -/
def pkeRsaVerify (j : JC) : J Finish := do
  pkeHeader j
  let role : KeyRole := { classes := [0x11], modes := ['V'], fits := pkeFits j.var }
  let w := rsaBytes j.var
  let i ← J.whole j (.handleOpt role) (.rd j.len) (.rd (w + 4 + w))
  let pub := i.c.take (w + 4)
  let n := beNat (pub.take w)
  let e := beNat (pub.drop w)
  let s := beNat (i.c.drop (w + 4))
  trustedOk i.ka pub
  if !rsaKeyOk w n e then J.badInput 1
  else
    let em := beBytes w (powMod 32 s e n)
    let h := pkeDigest j i.b
    let ok := decide (s < n) && (if j.aux % 4 = 0 then em == pkcs1Encode w h else pssVerify (rsaHash j.aux).1 w h em)
    pure (verdict ok)

/-- The shared secret of a scalar and a peer's public key (R486). -/
def agree (var : Nat) (d peer : List Byte) : J (List Byte) :=
  if var = 5 then
    let s := x25519 d peer
    if s.all (· = 0) then J.badInput 2 else pure s
  else
    let c := pkeCurve var
    match c.decode peer with
    | none => J.badInput 1
    | some q =>
      match c.mul (beNat d) (some q) with
      | none => J.inconsistent
      | some (x, _) => pure (beBytes c.len x)

/-- OP 0x05. -/
def pkeAgree (j : JC) : J Finish := do
  pkeHeader j
  let role : KeyRole := { classes := [0x12], modes := ['N', 'X'], fits := pkeFits j.var }
  let n := if j.var = 5 then 32 else (pkeCurve j.var).len
  let i ← J.whole j (.handle role false) (.rd (pkeKeyLen j.var)) (.wr n)
  match i.ka with
  | none => J.refuse 0x01 0
  | some k =>
    let s ← agree j.var k.value i.b
    pure (Finish.ok s.length 0 (j.out 2 0 s))

/-- The public key of a private one (R484, R423). -/
def pkePublic (var : Nat) (v : List Byte) : List Byte :=
  if var = 4 then edPublic v
  else if var = 5 then x25519Base v
  else if var ≤ 3 then
    let c := pkeCurve var
    c.encode (c.mul (beNat v) c.g)
  else
    match rsaParts var v with
    | p :: q :: _ => beBytes (rsaBytes var) (p * q) ++ (v.drop (5 * (rsaBytes var / 2))).take 4
    | _ => []

/-- OP 0x06. -/
def pkeEphemeral (j : JC) : J Finish := do
  pkeHeader j
  let n := if j.var = 5 then 32 else (pkeCurve j.var).len
  let i ← J.whole j .zero (.rd (pkeKeyLen j.var)) (.wr (pkeKeyLen j.var + n)) (n + 8)
  let d := if j.var = 5 then i.r.take 32 else beBytes n (1 + beNat i.r % ((pkeCurve j.var).n - 1))
  let s ← agree j.var d i.b
  let l := pkePublic j.var d ++ s
  pure (Finish.ok l.length 0 (j.out 2 0 l))

/-- The role of public-key derivation (R423). -/
def publicRole (fits : List Byte → Bool) : KeyRole := { classes := [0x10, 0x12, 0x14, 0x16, 0x1C, 0x1D], modes := [], fits := fits }

/-- OP 0x07. R485 lists the RSA VARs too, but R423 accepts no class that holds an RSA modulus: such a job is refused (log 82). -/
def pkeDerivePublic (j : JC) : J Finish := do
  pkeHeader j
  let i ← J.whole j (.handle (publicRole (pkeFits j.var)) true) .zero (.wr (pkeKeyLen j.var))
  match i.ka with
  | none => J.refuse 0x01 0
  | some k =>
    let l := pkePublic j.var k.value
    pure (Finish.ok l.length 0 (j.out 2 0 l))

/-- An operation that the PKE does not define fails check 1; any of its commands may take it. -/
def pkeRun (j : JC) (unit : Option UnitJob) : J Finish :=
  match j.op with
  | 1 => pkeSign j unit
  | 2 => pkeVerify j
  | 3 => pkeRsaSign j
  | 4 => pkeRsaVerify j
  | 5 => pkeAgree j
  | 6 => pkeEphemeral j
  | 7 => pkeDerivePublic j
  | _ => J.bad 1

/-- PKE `n` takes its next job if it is of operation `op`. -/
def Bench.pkeBegin (B : Bench) (n : Fin 4) (op : Nat) : Bench :=
  B.engBegin (Fin.ofNat 18 (1 + n.val)) (fun o _ => o == op || !(1 ≤ o && o ≤ 7)) pkeRun jobUses

/-! ## The LKE -/

/-- The DETAIL of the keys that a VAR names (R418, R487). -/
def lkeDetail (var : Nat) : Nat := if var ≤ 3 then 0x1F + var else 0x13 + var
def lkeDsa (var : Nat) : Bool := 1 ≤ var && var ≤ 3
def lkeKem (var : Nat) : Bool := 0x11 ≤ var && var ≤ 0x13
def lkeDefined (op var : Nat) : Bool :=
  match op with
  | 1 | 2 => lkeDsa var
  | 3 | 4 => lkeKem var
  | 5 => lkeDsa var || lkeKem var
  | _ => false

def dsaSigLen (d : Nat) : Nat := if d = 0x20 then 2420 else if d = 0x21 then 3309 else 4627
def dsaKeyLen (d : Nat) : Nat := if d = 0x20 then 1312 else if d = 0x21 then 1952 else 2592
def kemKeyLen (d : Nat) : Nat := if d = 0x24 then 800 else if d = 0x25 then 1184 else 1568
def kemCtLen (d : Nat) : Nat := if d = 0x24 then 768 else if d = 0x25 then 1088 else 1568

/-- A value at its length. -/
def exact (n : Nat) (l : List Byte) : List Byte := (padTo n l).take n

def dsaSign (d : Nat) (seed ctx m rnd : List Byte) : List Byte := exact (dsaSigLen d) (mldsaSign d seed ctx m rnd)
def dsaPublic (d : Nat) (seed : List Byte) : List Byte := exact (dsaKeyLen d) (mldsaPublic d seed)
def kemPublic (d : Nat) (seed : List Byte) : List Byte := exact (kemKeyLen d) (mlkemPublic d seed)

def lkeHeader (j : JC) : J Unit := do
  J.guardBad (lkeDefined j.op j.var) 1
  J.guardBad (!(j.clearKey || j.preHash || 8 ≤ j.byte 2)) 2
  J.guardBad (j.resume || j.token = 0) 2
  J.guardBad (if j.op ≤ 2 then j.aux ≤ 255 else j.aux == 0) 3

def lkeFits (var : Nat) (h : List Byte) : Bool := hdrDetail h == lkeDetail var

/-- OP 0x01. -/
def lkeSign (j : JC) (unit : Option UnitJob) : J Finish := do
  lkeHeader j
  let role : KeyRole := { classes := if j.unit then [0x1C] else [0x14, 0x1C], modes := ['S'], fits := lkeFits j.var }
  let d := lkeDetail j.var
  match unit with
  | some (.checkpoint _ _ _ rec') =>
    match ← J.checkHandle j 0 (.handle role false) with
    | none => J.refuse 0x01 0
    | some k =>
      let rnd ← J.random 32
      let s := dsaSign d k.value (ascii "KX8112 CKP") rec' rnd
      pure { Finish.ok s.length 0 [] with sig := s, keyid := hdrKeyid k.header }
  | _ =>
    let i ← J.whole j (.handle role false) (.rd (j.aux + j.len)) (.wr (dsaSigLen d)) 32
    match i.ka with
    | none => J.refuse 0x01 0
    | some k =>
      let s := dsaSign d k.value (i.b.take j.aux) (i.b.drop j.aux) i.r
      pure (Finish.ok s.length 0 (j.out 2 0 s))

/-- OP 0x02. -/
def lkeVerify (j : JC) : J Finish := do
  lkeHeader j
  let role : KeyRole := { classes := [0x15], modes := ['V'], fits := lkeFits j.var }
  let d := lkeDetail j.var
  let kl := dsaKeyLen d
  let i ← J.whole j (.handleOpt role) (.rd (j.aux + j.len)) (.rd (kl + dsaSigLen d))
  trustedOk i.ka (i.c.take kl)
  pure (verdict (mldsaVerify d (i.c.take kl) (i.b.take j.aux) (i.b.drop j.aux) (i.c.drop kl)))

/-- OP 0x03. -/
def lkeEncaps (j : JC) : J Finish := do
  lkeHeader j
  let d := lkeDetail j.var
  let i ← J.whole j .zero (.rd (kemKeyLen d)) (.wr (kemCtLen d + 32)) 32
  if !mlkemKeyOk d i.b then J.badInput 1
  else
    let (ct, ss) := mlkemEncaps d i.b i.r
    let l := exact (kemCtLen d) ct ++ exact 32 ss
    pure (Finish.ok l.length 0 (j.out 2 0 l))

/-- OP 0x04. -/
def lkeDecaps (j : JC) : J Finish := do
  lkeHeader j
  let d := lkeDetail j.var
  let role : KeyRole := { classes := [0x16], modes := ['D'], fits := lkeFits j.var }
  let i ← J.whole j (.handle role false) (.rd (kemCtLen d)) (.wr 32)
  match i.ka with
  | none => J.refuse 0x01 0
  | some k => pure (Finish.ok 32 0 (j.out 2 0 (exact 32 (mlkemDecaps d k.value i.b))))

/-- OP 0x05. -/
def lkeDerivePublic (j : JC) : J Finish := do
  lkeHeader j
  let d := lkeDetail j.var
  let n := if lkeDsa j.var then dsaKeyLen d else kemKeyLen d
  let i ← J.whole j (.handle (publicRole (lkeFits j.var)) true) .zero (.wr n)
  match i.ka with
  | none => J.refuse 0x01 0
  | some k => pure (Finish.ok n 0 (j.out 2 0 (if lkeDsa j.var then dsaPublic d k.value else kemPublic d k.value)))

def lkeRun (j : JC) (unit : Option UnitJob) : J Finish :=
  match j.op with
  | 1 => lkeSign j unit
  | 2 => lkeVerify j
  | 3 => lkeEncaps j
  | 4 => lkeDecaps j
  | 5 => lkeDerivePublic j
  | _ => J.bad 1

/-- LKE `n` takes its next job if it is of operation `op`. -/
def Bench.lkeBegin (B : Bench) (n : Fin 2) (op : Nat) : Bench :=
  B.engBegin (Fin.ofNat 18 (5 + n.val)) (fun o _ => o == op || !(1 ≤ o && o ≤ 5)) lkeRun jobUses

end Sys2Proof.Machine
end

