-- ==== Sys2Proof/Machine/Dev.lean ====
section
/-!
DEFINITION. Machine/Dev.lean: the device's own operations: draws, fuses, tamper, debug sessions, holds, device-level resets, the host
link, the release of benches, the registers of PF0 and the mailbox (R440, R448, R667, R674 to R694, R715 to R718, R735, R744 to R748,
R760, R761).
-/

namespace Sys2Proof.Machine

/-! ## What a device-level reset leaves -/

/-- What a device-level reset leaves of the device (R689): fuses, flash, tamper, the clock and the THERMTRIP latch stay, and
DMC.RSTCAUSE and the restart count as given. -/
def Device.cleared (d : Device) (phase : Phase) (cause : Byte) (restarts : BitVec 4) : Device :=
  { d with
    phase := phase, cause := cause, code := 0, ambig := false, slot := 3, failA := 0, failB := 0, failR := 0, restarts := restarts
    hostrst := 0, phyUp := false, pcieUp := false, ceiling := LinkCeiling.lowest, link := none, dmcStopped := false, holdReq := 0
    committed := none, staged := none, mbx := Mailbox.zero, staging := none, nonce := none, confirm := none, softDue := none
    epochAdv := none, spdm := Spdm.zero
    dbg := { Debug.zero with ir := d.dbg.ir }
    pkg := { PkgPower.zero with thermtrip := d.pkg.thermtrip } }

/-! ## Draws -/

/-- `n` bytes that the spec leaves open: a nonce, a seed. -/
def Device.draw (d : Device) (n : Nat) : List Byte × Device :=
  ((List.range n).map fun i => Config.freeByte ((d.freeCtr + i) * 16 + 8), { d with freeCtr := d.freeCtr + n })

def State.setDev (s : State) (d : Device) : State := { s with dev := d }
def State.draw (s : State) (n : Nat) : List Byte × State :=
  let (l, d) := s.dev.draw n
  (l, s.setDev d)
def State.emit (s : State) (o : DevOutput) : State := { s with dev := { s.dev with out := s.dev.out ++ [o] } }

/-- The device serial number (R722). -/
def serial : List Byte := exact 16 Config.serial

/-! ## Holds and phases -/

/-- The DMC's firmware runs: it has been released and has committed or given up the phase of option loading (R692, R708), and neither
code 14 nor a boundary-scan instruction has stopped it. -/
def Device.dmcRuns (d : Device) : Bool :=
  !d.dmcStopped && match d.phase with
    | .bootcfg | .loading | .loaded | .phy | .pcie | .benches _ => true
    | _ => false
/-- The fuses have been sensed. -/
def Device.sensed (d : Device) : Bool :=
  match d.phase with
  | .por | .aonWait | .pinHold | .aonLost | .fuse => false
  | _ => true
/-- The device is held in POR: PWROK is low or the AON domain is not yet valid (R771, R772). -/
def Device.inPor (d : Device) : Bool := d.phase = .por || d.phase = .aonWait

def Device.enabled (d : Device) : Byte :=
  match d.committed with
  | some i => i.enabled
  | none => 0
/-- A bench is held in reset (R694, R708, R721). -/
def Device.held (d : Device) (b : BenchNo) : Bool :=
  match d.committed with
  | none => true
  | some i => !i.enabled.getLsbD b.val || i.benches[b].sup.isNone || d.holdReq.getLsbD b.val || d.fuses.lifecycle = 3
/-- The option-loading phase has ended, by a commit or without one (R703, R708). -/
def Device.optionsDone (d : Device) : Bool :=
  match d.phase with
  | .phy | .pcie | .benches _ => true
  | _ => false
/-- DMC.BENCHHOLD.HELD: its reset value 0 until the option-loading phase has ended (R718). -/
def Device.heldByte (d : Device) : Byte :=
  if d.optionsDone then BitVec.ofNat 8 (((List.finRange 8).filter d.held).foldl (fun n b => n + 2 ^ b.val) 0) else 0
/-- The step of bench `b` has passed (R693). -/
def Device.stepped (d : Device) (b : BenchNo) : Bool :=
  match d.phase with
  | .benches n => decide (b.val < n.val)
  | _ => false

/-! ## Fuses (R715, R716) -/

/-- A counter by its ID, and its limit. -/
def Fuses.counter (f : Fuses) : Nat → Nat
  | 1 => f.lifecycle
  | 2 => f.rootslot
  | 3 => f.rollback
  | 4 => f.epoch
  | _ => f.debugcred
def fuseLimit : Nat → Nat
  | 1 => 4
  | 2 => 3
  | 3 => 128
  | 4 => 64
  | _ => 4
def Fuses.setCounter (f : Fuses) (id v : Nat) : Fuses :=
  match id with
  | 1 => { f with lifecycle := v }
  | 2 => { f with rootslot := v }
  | 3 => { f with rollback := v }
  | 4 => { f with epoch := v }
  | _ => { f with debugcred := v }
/-- Entries of the fuse log for the steps `lo + 1` to `hi` of a counter. -/
def fuseEntries (id lo hi : Nat) (time : BitVec 48) : List FuseEntry :=
  (List.range (hi - lo)).map fun i => { id := BitVec.ofNat 8 id, value := BitVec.ofNat 8 (lo + 1 + i), time := time }
/-- A counter advances to `v`, one step and one entry at a time. -/
def Fuses.advance (f : Fuses) (id v : Nat) (time : BitVec 48) : Fuses :=
  { f.setCounter id v with log := f.log ++ fuseEntries id (f.counter id) v time }
/-- The entries that fuse sense adds for steps that no entry records. -/
def Fuses.logMissing (f : Fuses) : Fuses :=
  [1, 2, 3, 4, 5].foldl (fun (f : Fuses) id =>
    let n := (f.log.filter fun e => e.id.toNat = id).length
    { f with log := f.log ++ fuseEntries id n (f.counter id) 0 }) f
/-- The TAI seconds of the lowest-numbered bench in RUN, or zero. -/
def State.taiSeconds (s : State) : BitVec 48 :=
  match s.benches.toList.find? Bench.running with
  | some B => B.time.sec
  | none => 0
def State.fuseStep (s : State) (id v : Nat) : State :=
  { s with dev := { s.dev with fuses := s.dev.fuses.advance id v s.taiSeconds } }
/-- The entries of R717 for the counters. -/
def Fuses.report (f : Fuses) : List Byte :=
  [1, 2, 3, 4, 5].flatMap fun id =>
    [BitVec.ofNat 8 id, BitVec.ofNat 8 (f.counter id), BitVec.ofNat 8 (fuseLimit id)] ++ zeros 5
def FuseEntry.bytes (e : FuseEntry) : List Byte := [e.id, e.value] ++ leBytes 6 e.time.toNat
def Fuses.logBytes (f : Fuses) : List Byte := (f.log.take 203).flatMap FuseEntry.bytes

/-! ## Tamper (R744 to R748, R761) -/

/-- TAMPER.STAT (R761). -/
def Tamper.word (t : Tamper) : Word :=
  BitVec.ofNat 32 (t.cause.toNat + (if t.tampered then 2 ^ 8 else 0) + (if t.onbatt then 2 ^ 9 else 0) + t.live.toNat * 2 ^ 16
    + t.count.toNat * 2 ^ 24)

/-- The tamper circuits change; the benches' view of TAMPER.STAT follows. -/
def State.setTamper (s : State) (t : Tamper) : State :=
  let w := if t.tampered then some t.word else none
  ({ s with dev := { s.dev with tamper := t } }).allBenches fun B => { B with jrn := { B.jrn with tamper := w } }

/-- The BBRAM partition of a bench is erased. -/
def Bench.eraseBbram (B : Bench) : Bench := { B with vault := { B.vault with current := none, previous := none, bbEpoch := 0 } }

/-! ## The host link (R657, R680) -/

/-- The host link goes down. -/
def State.linkDown (s : State) : State :=
  ({ s with dev := { s.dev with link := none } }).allBenches fun B =>
    if B.alive then B.hostLink false else { B with hostUp := false }
/-- The host link comes up. -/
def State.linkUp (s : State) (l : LinkCeiling) : State :=
  ({ s with dev := { s.dev with link := some l } }).allBenches fun B => if B.alive then B.hostLink true else { B with hostUp := true }

/-! ## Debug sessions and device-level resets (R674, R686 to R691, R704, R735) -/

/-- The session in force ends, and EV_DEBUG is raised in every bench that is out of reset. -/
def State.closeSession (s : State) : State :=
  let g := s.dev.dbg
  if g.level = 0 then s
  else
    let s := ({ s with dev := { s.dev with dbg := { g with level := 0, bench := 0, serhafa := false, validUntil := 0 } } }).allBenches fun B =>
      if B.alive then B.raise 837 else B
    let B := s.bench g.bench
    s.setBench g.bench { B with pwr := { B.pwr with halt := false } }

/-- A device-level reset with its cause (R674): it ends any debug session. One that begins before a commit counts a restart (R704). -/
def State.deviceReset (s : State) (cause : Byte) (aonLost : Bool) : State :=
  if s.dev.inPor then s
  else
    let s := s.closeSession
    let d := s.dev
    let lost := aonLost || d.phase = .aonLost
    let phase : Phase := if lost then .aonLost else if d.resetN then .fuse else .pinHold
    let restarts := if d.committed.isSome || d.restarts = 8 then d.restarts else d.restarts + 1
    let s := s.setDev (d.cleared phase cause restarts)
    s.allBenches fun B => { B.deviceReset cause aonLost with hostUp := false }

/-- POR and BOR (R688, R689, R772). -/
def State.porReset (s : State) (phase : Phase) : State :=
  let s := s.closeSession
  let d := s.dev.cleared phase 1 0
  let s := s.setDev { d with pkg := PkgPower.zero }
  s.allBenches fun B => { B.porReset with hostUp := false }

/-- What follows the end of a session (R735): HALT resets its bench, FULL the device. -/
def State.endSession (s : State) : State :=
  let g := s.dev.dbg
  let s := s.closeSession
  if g.level = 2 then s.setBench g.bench ((s.bench g.bench).requestReset 0x13 0)
  else if g.level = 3 then s.deviceReset 5 false
  else s

/-- A source trips the tamper response (R746, R747); `src` is its bit of TAMPER.STAT. A device-level reset follows the zeroisation, so
that it raises no EV_VAULT_ZEROISED (R460). -/
def State.tamperTrip (s : State) (src : Fin 8) : State :=
  let t := s.dev.tamper
  let bit : Byte := BitVec.ofNat 8 (2 ^ src.val)
  let live := t.live ||| bit
  if t.tampered && t.cause.getLsbD src.val then s.setTamper { t with live := live }
  else
    let s := s.endSession
    let power := s.dev.pwrok && !t.onVbat
    let s := s.allBenches fun B =>
      let B := { B.eraseBbram with jrn := { B.jrn with tamperRec := false } }
      if power then B.zeroise false else B
    let s := s.setTamper { t with cause := t.cause ||| bit, tampered := true, onbatt := t.onVbat, live := live
                                  count := if t.count = 0xFF then t.count else t.count + 1 }
    if power && !s.dev.inPor then { s with dev := { s.dev with softDue := some s.dev.elapsed } } else s

/-! ## The release of a bench (R693, R694, R740) -/

/-- Bench `b` may be released: it is not held, no reset source awaits, and its reference clock is valid (R681, R693). -/
def State.releasable (s : State) (b : BenchNo) : Bool :=
  !s.dev.held b && (s.bench b).rst.due.isNone && (s.bench b).rst.clockOk && s.dev.dmcRuns

/-- The blocks of bench `b` are released after a reset, or as it leaves OFF. -/
def State.releaseBench (s : State) (b : BenchNo) : State :=
  let B := s.bench b
  match s.dev.committed with
  | none => s
  | some img =>
    if !s.releasable b then s
    else
      let cfg := img.benches[b]
      let e := s.dev.fuses.epoch
      if !B.rst.released then s.setBench b (B.release img cfg e)
      else if B.pwr.effective = 3 && B.pwr.requested = 0 then
        s.setBench b ((B.leaveOff.release img cfg e).raise 835)
      else s

/-! ## The registers of PF0 (R4, R667, R718, R760) -/

/-- DMC.DBGSTAT. LEVEL reads 2 only once the bench has woken (R734). -/
def State.dbgstat (s : State) : Word :=
  let g := s.dev.dbg
  let lvl : Nat := if g.level = 2 && (s.bench g.bench).asleep then 0 else g.level.toNat
  let left := if g.level = 0 then 0 else (g.validUntil - s.dev.elapsed + 999999) / 1000000
  BitVec.ofNat 32 (lvl + g.bench.val * 4 + (if g.serhafa then 2 ^ 5 else 0) + g.fails.toNat * 2 ^ 8 + (if g.lockout then 2 ^ 12 else 0)
    + left % 65536 * 2 ^ 16)

def Device.bootstat (d : Device) : Word :=
  BitVec.ofNat 32 (d.code.toNat + (if d.ambig then 16 else 0) + d.slot.toNat * 2 ^ 5 + d.failA.toNat * 2 ^ 8 + d.failB.toNat * 2 ^ 12
    + d.failR.toNat * 2 ^ 16 + d.restarts.toNat * 2 ^ 20)
def Device.imgseq (d : Device) : Word :=
  match d.committed with
  | some i => i.bootseq
  | none => 0
def Device.imgver (d : Device) : Word :=
  match d.committed with
  | some i => BitVec.ofNat 32 (i.version.toNat + i.root.toNat * 2 ^ 8)
  | none => 0
def Device.benchhold (d : Device) : Word := BitVec.ofNat 32 (d.heldByte.toNat + d.enabled.toNat * 2 ^ 8)
def Device.lcs (d : Device) : Word :=
  BitVec.ofNat 32 (d.fuses.lifecycle % 8 + d.fuses.debugcred % 8 * 2 ^ 4 + d.fuses.rootslot % 4 * 2 ^ 8)
def Device.pwrmeas (d : Device) : Word :=
  let p := d.pkg
  BitVec.ofNat 32 (p.watts.toNat + (if p.capUnmet then 2 ^ 10 else 0) + (if p.ilimit then 2 ^ 11 else 0) + p.mv.toNat * 2 ^ 16)
def Mailbox.stat (m : Mailbox) : Word :=
  BitVec.ofNat 32 ((if m.busy then 1 else 0) + m.result.toNat * 2 ^ 8 + m.resp.length % 65536 * 2 ^ 16)
def State.tamperRecord (s : State) : Word :=
  BitVec.ofNat 32 (((List.finRange 8).filter fun b => (s.bench b).jrn.tamperRec).foldl (fun n b => n + 2 ^ b.val) 0)

/-- A 32-bit read of PF0 BAR0. -/
def State.pf0Read (s : State) (o : Nat) : Word :=
  let d := s.dev
  if o = 0x00 then d.devid
  else if o = 0x10 then d.cause.zeroExtend 32
  else if o = 0x14 then d.bootstat
  else if o = 0x18 then d.imgseq
  else if o = 0x1C then d.imgver
  else if o = 0x20 then d.benchhold
  else if o = 0x24 then d.hostrst.zeroExtend 32
  else if o = 0x40 then d.lcs
  else if o = 0x44 then s.dbgstat
  else if o = 0x48 then d.pkg.pcap.zeroExtend 32
  else if o = 0x4C then d.pwrmeas
  else if o = 0x60 then d.tamper.word
  else if o = 0x64 then d.tamper.mesh.zeroExtend 32
  else if o = 0x68 then s.tamperRecord
  else if o = 0x104 then d.mbx.stat
  else if 0x1000 ≤ o && o < 0x5000 then BitVec.ofNat 32 (leNat ((List.range 4).map fun i => d.mbx.req.get 0 (o - 0x1000 + i)))
  else if 0x5000 ≤ o && o < 0x9000 then BitVec.ofNat 32 (leNat ((List.range 4).map fun i => d.mbx.resp.getD (o - 0x5000 + i) 0))
  else 0

/-! ## The mailbox (R667, R708, R721) -/

/-- The DMC serves an opcode in the present state. -/
def Device.servesOp (d : Device) (op : Nat) : Bool :=
  d.committed.isSome || ([0x01, 0x10, 0x11, 0x12, 0x13] : List Nat).contains op
    || ((op = 0x40 || op = 0x41) && (d.fuses.lifecycle = 3 || d.fuses.lifecycle = 4))

/-- A command completes: RESULT, the response, and MSI-X vector 0 of PF0 (R667 step 4). -/
def State.mbxEnd (s : State) (result : Nat) (resp : List Byte) : State :=
  let s : State := { s with dev := { s.dev with mbx := { s.dev.mbx with busy := false, result := BitVec.ofNat 8 result, resp := resp } } }
  if s.dev.link.isSome then s.emit (.msix 0) else s

/-- The request of the command in progress. -/
def Mailbox.request (m : Mailbox) : List Byte := (List.range m.len.toNat).map fun i => m.req.get 0 i

/-- The form that a request's first byte selects has a command of its own. -/
def subopKnown (op : Nat) (sub : Nat) : Bool :=
  if op = 0x02 then [1, 2, 3, 0x10].contains sub
  else if op = 0x23 then 1 ≤ sub && sub ≤ 3
  else if op = 0x40 then 1 ≤ sub && sub ≤ 5
  else true

def opKnown (op : Nat) : Bool :=
  ([0x01, 0x02, 0x10, 0x11, 0x12, 0x13, 0x20, 0x21, 0x22, 0x23, 0x30, 0x40, 0x41] : List Nat).contains op

/-- A write of MBX.CMD (R667): the command starts; one that no row of its own runs completes at once. Every command but NONCE and CONFIRM
discards an ADVANCE that awaits its CONFIRM (R724). -/
def State.mbxStart (s : State) (v : Word) : State :=
  let d := s.dev
  if d.mbx.busy || !d.dmcRuns then s
  else
    let op := v.toNat % 256
    let len : Half := v.extractLsb' 8 16
    let m : Mailbox := { d.mbx with op := BitVec.ofNat 8 op, len := len, busy := true }
    let sub := (m.req.get 0 0).toNat
    let lcr := op = 0x40 && 1 ≤ len.toNat && (sub = 1 || sub = 3)
    let s : State := { s with dev := { d with mbx := m, confirm := if lcr then d.confirm else none } }
    if !opKnown op then s.mbxEnd 1 []
    else if !d.servesOp op then s.mbxEnd 3 []
    else if 16384 < len.toNat then s.mbxEnd 2 []
    else if (op = 0x02 || op = 0x23) && len = 0 then s.mbxEnd 2 []
    else if (op = 0x40 && len = 0) || (op = 0x40 && !subopKnown op sub) then ({ s with dev := { s.dev with nonce := none } }).mbxEnd 3 []
    else if !subopKnown op sub then s.mbxEnd 2 []
    else s

/-- The mailbox runs the command of an opcode, and of a first byte where one selects the form. -/
def State.mbxRuns (s : State) (op : Nat) (sub : Option Nat) : Bool :=
  let m := s.dev.mbx
  m.busy && m.op.toNat = op && s.dev.dmcRuns && match sub with
    | none => true
    | some b => (m.req.get 0 0).toNat = b

/-- A mailbox command of its own row: what it does, its RESULT and its response. -/
def State.mbx (s : State) (op : Nat) (sub : Option Nat) (f : State → List Byte → State × Nat × List Byte) : Out :=
  if s.mbxRuns op sub then
    let (s, r, l) := f s s.dev.mbx.request
    .next (s.mbxEnd r l)
  else .next s

/-- The bench a command names, where it is present and not held (R440). -/
def State.namedBench (s : State) (n : Nat) : Option BenchNo :=
  if h : n < 8 then (if s.dev.held ⟨n, h⟩ then none else some ⟨n, h⟩) else none

/-- A write to PF0 BAR0 of 4 aligned bytes. -/
def State.pf0Write (s : State) (o : Nat) (v : Word) : State :=
  if o = 0x100 then s.mbxStart v
  else if 0x1000 ≤ o && o < 0x5000 then
    let m := s.dev.mbx
    let req := (List.range 4).foldl (fun (t : Table Byte) i => Table.set 0 t (o - 0x1000 + i) (v.extractLsb' (8 * i) 8)) m.req
    { s with dev := { s.dev with mbx := { m with req := req } } }
  else s

end Sys2Proof.Machine
end

