-- ==== Sys2Proof/Machine/Boot.lean ====
section
/-!
DEFINITION. Machine/Boot.lean: BOOTCFG, the Carsyn image and its checks, the choice of a slot, the commit and staging (R698 to R714).
-/

namespace Sys2Proof.Machine

/-! ## BOOTCFG (R699 to R701) -/

/-- The lowest reading of each code's band. -/
def bandLow : List Nat := [0, 12, 32, 48, 64, 80, 96, 112, 128, 144, 160, 176, 192, 208, 224, 244]
/-- The code whose band holds a reading. -/
def bandOf (r : Byte) : Nat := (bandLow.filter (· ≤ r.toNat)).length - 1
/-- The code taken from the sixteen conversions, and AMBIG. -/
def takeCode (rs : Vector Byte 16) : BitVec 4 × Bool :=
  match (List.range 16).find? fun c => 12 ≤ (rs.toList.filter fun r => bandOf r = c).length with
  | some c => (BitVec.ofNat 4 c, false)
  | none => (15, true)

inductive SlotPolicy where
  | aThenB | aOnly | bOnly | recovery
  deriving DecidableEq, Repr

def codePolicy (c : BitVec 4) : SlotPolicy :=
  match c.toNat with
  | 1 | 10 => .aOnly
  | 2 | 11 => .bOnly
  | 7 | 13 | 15 => .recovery
  | _ => .aThenB
def codeCeiling (c : BitVec 4) : LinkCeiling :=
  match c.toNat with
  | 3 => ⟨4, 16⟩
  | 4 => ⟨3, 16⟩
  | 5 => ⟨5, 8⟩
  | 6 => ⟨2, 4⟩
  | 12 | 13 | 15 => ⟨0, 1⟩
  | _ => ⟨5, 16⟩
/-- The benches that a code holds. -/
def codeHold (c : BitVec 4) : Byte :=
  match c.toNat with
  | 8 | 10 | 11 | 15 => 0xFF
  | 9 => 0xFE
  | _ => 0
/-- The code in force: 15 once eight restarts have been counted (R704). -/
def Device.bootCode (d : Device) : BitVec 4 := if d.restarts = 8 then 15 else d.code
def LinkCeiling.lower (a b : LinkCeiling) : LinkCeiling := 
  { rate := if b.rate < a.rate then b.rate else a.rate, lanes := if b.lanes < a.lanes then b.lanes else a.lanes }

/-! ## Reading an image (R706, R709) -/

/-- The bytes of a slot's image: the header from a staging buffer where one is given, else the flash. -/
structure ImgSrc where
  flash : Table Byte
  base : Nat
  header : Option (List Byte)

def ImgSrc.byte (i : ImgSrc) (o : Nat) : Byte :=
  match i.header with
  | some h => if o < 128 then h.getD o 0 else i.flash.get 0xFF (i.base + o)
  | none => i.flash.get 0xFF (i.base + o)
def ImgSrc.bytes (i : ImgSrc) (o n : Nat) : List Byte := (List.range n).map fun k => i.byte (o + k)
def ImgSrc.num (i : ImgSrc) (o n : Nat) : Nat := leNat (i.bytes o n)
def ImgSrc.len (i : ImgSrc) : Nat := i.num 16 4

def slotBase (slot : Nat) : Nat := slot * 0x1000000
def Device.slotSrc (d : Device) (slot : Nat) : ImgSrc := { flash := d.flash, base := slotBase slot, header := none }

/-- A record (R711): TYPE, SCOPE, body, and whether its zero fields are zero. -/
structure CarsynRec where
  type : Nat
  scope : Nat
  body : List Byte
  zeros : Bool

/-- `n` records from offset `o` that end exactly at `stop`; none where they do not fit. -/
def ImgSrc.records (i : ImgSrc) (stop : Nat) : Nat → Nat → Option (List CarsynRec)
  | 0, o => if o = stop then some [] else none
  | n + 1, o =>
    if stop < o + 16 then none
    else
      let len := i.num (o + 4) 4
      let next := o + 16 + (len + 15) / 16 * 16
      if stop < next then none
      else
        let z := i.byte (o + 3) = 0 && i.num (o + 8) 8 = 0 && (i.bytes (o + 16 + len) (next - (o + 16 + len))).all (· = 0)
        (records i stop n next).map fun l => { type := i.num o 2, scope := (i.byte (o + 2)).toNat, body := i.bytes (o + 16) len, zeros := z } :: l

/-- The records of an image whose length is in range. -/
def ImgSrc.recs (i : ImgSrc) : Option (List CarsynRec) :=
  if i.len % 16 ≠ 0 || i.len < 128 + 7424 || 0x1000000 < i.len then none else i.records (i.len - 7424) (i.num 20 4) 128

/-! ## Bodies of records (R711, R712, R758) -/

def bnum (l : List Byte) (o n : Nat) : Nat := leNat ((l.drop o).take n)

def ceremonyProfile (l : List Byte) : Profile :=
  { quorum := bnum l 1 1, timeout := bnum l 2 2
    custodians := (List.range (bnum l 0 1)).map fun i =>
      { ecdsa := (l.drop (4 + 96 * i)).take 48, mldsa := (l.drop (52 + 96 * i)).take 48 } }
def profileOk (l : List Byte) : Bool :=
  let n := bnum l 0 1
  let m := bnum l 1 1
  4 ≤ l.length && 2 ≤ n && n ≤ 16 && 2 ≤ m && m ≤ n && l.length = 4 + 96 * n

def powerPolicy (l : List Byte) : Policy :=
  { pcap := BitVec.ofNat 10 (bnum l 0 2), floor := BitVec.ofNat 7 (bnum l 2 1), ceil := BitVec.ofNat 7 (bnum l 3 1)
    park := BitVec.ofNat 16 (bnum l 4 2), wake := BitVec.ofNat 6 (bnum l 6 1) &&& 0x3D#6, mesh := BitVec.ofNat 4 (bnum l 7 1) }
def policyOk (l : List Byte) : Bool :=
  l.length = 16 && bnum l 0 2 ≤ 1023 && bnum l 2 1 ≤ 80 && 1 ≤ bnum l 3 1 && bnum l 3 1 ≤ 80 && bnum l 7 1 < 16 && bnum l 8 8 = 0

def hostOk (l : List Byte) : Bool := l.length = 8 && bnum l 4 1 ≤ 5 && [1, 2, 4, 8, 16].contains (bnum l 5 1) && bnum l 6 2 = 0
def hostCeiling (l : List Byte) : LinkCeiling := { rate := Fin.ofNat 6 (bnum l 4 1), lanes := Fin.ofNat 17 (bnum l 5 1) }

def benchCoreOk (l : List Byte) : Bool :=
  l.length = 12 && (BitVec.ofNat 32 (bnum l 0 4) &&& 0xF000FFFC#32 = 0) && 1 ≤ bnum l 4 4 && bnum l 4 4 ≤ 1000 && bnum l 8 4 ≤ 60000

def supervisorOf (l : List Byte) : Supervisor := { offset := bnum l 0 4, entry := bnum l 4 4, code := l.drop 8 }
def supervisorOk (l : List Byte) : Bool :=
  let s := supervisorOf l
  let n := s.code.length
  8 ≤ l.length && n ≤ 0x100000 && s.offset % 4096 = 0 && s.entry % 4 = 0 && s.offset + n ≤ 0x8000000 && s.entry < n

def mafRules (l : List Byte) : List MafRule :=
  (List.range (l.length / 16)).map fun i =>
    { w0 := BitVec.ofNat 32 (bnum l (16 * i) 4), w1 := BitVec.ofNat 32 (bnum l (16 * i + 4) 4), w2 := BitVec.ofNat 32 (bnum l (16 * i + 8) 4) }
def mafBodyOk (l : List Byte) : Bool := l.length % 16 = 0 && 16 ≤ l.length && l.length ≤ 128 * 16

def pinsOk (l : List Byte) : Bool := l.length = 4 && l.all fun b => b.toNat < 4
def pinsOf (l : List Byte) : BitVec 8 := BitVec.ofNat 8 (((List.range 4).map fun i => bnum l i 1 * 4 ^ i).foldl (· + ·) 0)

/-- A record is well formed (R712), but for the uniqueness of its TYPE and SCOPE. -/
def CarsynRec.wf (r : CarsynRec) : Bool :=
  let device := r.scope = 0xFF
  let bench := r.scope < 8
  match r.type with
  | 0x0001 => device && r.body.length = 4 && bnum r.body 0 4 < 2 ^ 21
  | 0x0002 => device && r.body.length = 4 && bnum r.body 0 4 < 256
  | 0x0003 => device
  | 0x0004 => device && hostOk r.body
  | 0x0005 => device && profileOk r.body
  | 0x0006 => device && policyOk r.body
  | 0x0010 => bench && benchCoreOk r.body
  | 0x0011 => bench && supervisorOk r.body
  | 0x0012 => bench && mafBodyOk r.body
  | 0x0013 => bench
  | 0x0014 => bench && r.body.length = 12
  | 0x0015 => bench && pinsOk r.body
  | t => 0x8000 ≤ t

/-- No two of the listed records have the same TYPE and SCOPE. -/
def distinctRecords : List CarsynRec → Bool
  | [] => true
  | r :: t => (0x8000 ≤ r.type || !t.any fun q => q.type = r.type && q.scope = r.scope) && distinctRecords t

/-- Check 9 of R710. -/
def recordsOk (rs : List CarsynRec) : Bool :=
  rs.all CarsynRec.wf && distinctRecords rs && rs.any fun r => r.type = 0x0003

def bodyOf (rs : List CarsynRec) (type scope : Nat) : Option (List Byte) :=
  (rs.find? fun r => r.type = type && r.scope = scope).map (·.body)

/-- What the records hold for bench `b` (R711). -/
def benchCfg (rs : List CarsynRec) (b : Nat) : BenchCfg :=
  let core := (bodyOf rs 0x0010 b).getD ([3, 0, 0, 0] ++ leBytes 4 10 ++ leBytes 4 5000)
  { enforce := BitVec.ofNat 2 (bnum core 0 4), holdLimit := BitVec.ofNat 12 (bnum core 0 4 / 2 ^ 16), divto := BitVec.ofNat 10 (bnum core 4 4)
    wdog := BitVec.ofNat 16 (bnum core 8 4), sup := (bodyOf rs 0x0011 b).map supervisorOf, maf := (bodyOf rs 0x0012 b).map mafRules
    pat := bodyOf rs 0x0013 b, macs := (bodyOf rs 0x0014 b).map fun l => (l.take 6, l.drop 6)
    pins := ((bodyOf rs 0x0015 b).map pinsOf).getD 0 }

/-- BENCH.PLACE as the PLACE record gives it (R19). -/
def placeWord (l : List Byte) : Word :=
  BitVec.ofNat 32 (bnum l 0 1 * 2 ^ 24 + bnum l 1 1 * 2 ^ 16 + bnum l 2 1 % 32 * 2 ^ 11)

/-- The image as parsed (R703). -/
def parseImage (i : ImgSrc) (slot : BitVec 2) (rs : List CarsynRec) : Image :=
  let dev (t : Nat) : Option (List Byte) := bodyOf rs t 0xFF
  let flags := i.byte 10
  { slot := slot, bootseq := BitVec.ofNat 32 (i.num 12 4), version := i.byte 11, root := i.byte 9
    rollfwd := flags.getLsbD 0, rootfwd := flags.getLsbD 1
    place := ((dev 1).map placeWord).getD 0
    enabled := ((dev 2).map fun l => l.headD 0).getD 0xFF
    ids := ((dev 4).map fun l => BitVec.ofNat 32 (bnum l 0 4)).getD 0
    link := (dev 4).map hostCeiling, profile := (dev 5).map ceremonyProfile, policy := (dev 6).map powerPolicy
    benches := Vector.ofFn fun b => benchCfg rs b.val
    fwDigest := sha384 ((dev 3).getD []), digest := sha384 (i.bytes 0 i.len) }

/-! ## The checks (R710, R720) -/

def serhafaRoot : List Byte := exact 48 Config.serhafaRoot
/-- A digest of all zeros is never accepted (R723). -/
def digestSet (l : List Byte) : Bool := l.length = 48 && l.any (· ≠ 0)
/-- The fused digest of a customer root slot that check 4 accepts. -/
def Fuses.rootAccepted (f : Fuses) (r : Nat) : Bool := f.rootslot ≤ r && r ≤ 3 && digestSet (f.roots.toList.getD r [])
/-- ROOT is permitted in the lifecycle state. -/
def Fuses.rootPermitted (f : Fuses) (r : Byte) : Bool := if f.lifecycle = 2 then f.rootAccepted r.toNat else r = 0x0F
def Fuses.rootDigest (f : Fuses) (r : Byte) : List Byte := if r = 0x0F then serhafaRoot else f.roots.toList.getD r.toNat []

/-- Both signatures of a signer block laid out as the trailer: over `m`, under the context (R709, R722). -/
def hybridEcdsa (block m : List Byte) : Bool :=
  match p384.decode (block.take 97) with
  | some q => p384.verify q (sha384 m) ((block.drop 2689).take 96)
  | none => false
def hybridMldsa (block m ctx : List Byte) : Bool :=
  mldsaVerify 0x22 ((block.drop 97).take 2592) ctx m ((block.drop 2785).take 4627)

/-- Check 2. -/
def ImgSrc.headerOk (i : ImgSrc) : Bool :=
  let flags := i.byte 10
  i.num 0 4 = 0x4E595343 && i.num 4 2 = 1 && i.num 6 2 = 0x8112 && flags.toNat < 4 && (i.byte 11).toNat ≤ 128
    && !(flags.getLsbD 1 && i.byte 9 = 0x0F) && (i.bytes 32 96).all (· = 0) && (i.bytes (i.len - 12) 12).all (· = 0)
    && match i.recs with
      | some rs => rs.all (·.zeros)
      | none => false

/-- The first check that an image fails, or 0. -/
def Device.checkImage (d : Device) (i : ImgSrc) : Nat :=
  let f := d.fuses
  let root := i.byte 9
  if !i.headerOk then 2
  else if d.devid.toNat / 256 % 256 < (i.byte 8).toNat then 3
  else if !f.rootPermitted root then 4
  else
    let trailer := i.bytes (i.len - 7424) 7424
    let m := i.bytes 0 (i.len - 7424)
    let rs := i.recs.getD []
    if sha384 (trailer.take 2689) ≠ f.rootDigest root then 5
    else if !hybridEcdsa trailer m then 6
    else if !hybridMldsa trailer m (ascii "KX8112 CSY") then 7
    else if (i.byte 11).toNat < f.rollback then 8
    else if !recordsOk rs then 9
    else if !Config.dmcFwOk ((bodyOf rs 3 0xFF).getD []) serhafaRoot then 10
    else 0

/-! ## The choice of a slot (R706 to R708) -/

/-- The slots in the order in which they are verified. -/
def Device.slotOrder (d : Device) : List Nat :=
  match codePolicy d.bootCode with
  | .aOnly => [0, 2]
  | .bOnly => [1, 2]
  | .recovery => [2]
  | .aThenB => if (d.slotSrc 0).num 12 4 < (d.slotSrc 1).num 12 4 then [1, 0, 2] else [0, 1, 2]

def Device.setFail (d : Device) (slot : Nat) (v : Nat) : Device :=
  match slot with
  | 0 => { d with failA := BitVec.ofNat 4 v }
  | 1 => { d with failB := BitVec.ofNat 4 v }
  | _ => { d with failR := BitVec.ofNat 4 v }

/-- Verify the slots in order: the first that passes is parsed into STAGING. `ok` names the slots of which every read completes. -/
def Device.tryProgram (d : Device) (ok : BitVec 3) : List Nat → Device
  | [] => d
  | s :: t =>
    let i := d.slotSrc s
    let v := if ok.getLsbD s then d.checkImage i else 1
    if v = 0 then { d with staged := some (parseImage i (BitVec.ofNat 2 s) (i.recs.getD [])) }
    else tryProgram (d.setFail s v) ok t

/-- The option-loading phase up to the commit (R703 steps 1 to 4). -/
def Device.loadOptions (d : Device) (ok : BitVec 3) : Device :=
  let d := { d with staged := none }
  let d := d.tryProgram ok d.slotOrder
  if d.staged.isSome then { d with phase := .loaded } else { d with phase := .phy, ceiling := LinkCeiling.lowest }

/-- The commit (R703, R704, R716, R744, R758). -/
def State.commit (s : State) (img : Image) : State :=
  let d := s.dev
  let f := d.fuses
  let c := codeCeiling d.bootCode
  let c := match img.link with
    | some l => c.lower l
    | none => c
  let (pcap, mesh) : BitVec 10 × BitVec 4 := match img.policy with
    | some p => (p.pcap, p.mesh)
    | none => (0, 0)
  let s := s.setDev { d with
    committed := some img, staged := none, slot := img.slot, restarts := 0, phase := .phy, ceiling := c
    pkg := { d.pkg with pcap := pcap }, tamper := { d.tamper with mesh := d.tamper.mesh ||| mesh } }
  let s := if img.rootfwd && img.root.toNat ≤ 3 && f.rootslot < img.root.toNat then s.fuseStep 2 img.root.toNat else s
  if img.rollfwd && f.rollback < img.version.toNat then s.fuseStep 3 img.version.toNat else s

/-! ## Staging (R713, R714) -/

/-- The slot is erased: its 16 MiB read 0xFF. -/
def eraseSlot (t : Table Byte) (slot : Nat) : Table Byte :=
  t.filter fun e => e.1 < slotBase slot || slotBase (slot + 1) ≤ e.1

/-- Program flash bytes. -/
def programFlash (t : Table Byte) (a : Nat) (l : List Byte) : Table Byte :=
  (l.zipIdx.foldl (fun (t : Table Byte) e => Table.set 0xFF t (a + e.2) e.1) t)

def State.stageBegin (s : State) (l : List Byte) : State × Nat × List Byte :=
  let d := s.dev
  let slot := bnum l 0 1
  let committed := match d.committed with
    | some i => decide (i.slot.toNat = slot)
    | none => false
  if l.length ≠ 8 then (s, 2, [])
  else if 2 < slot || committed || d.staging.isSome then (s, 3, [])
  else
    (s.setDev { d with flash := eraseSlot d.flash slot, staging := some { slot := slot, len := bnum l 4 4, header := zeros 128 } }, 0, [])

def State.stageWrite (s : State) (l : List Byte) : State × Nat × List Byte :=
  let d := s.dev
  match d.staging with
  | none => (s, 3, [])
  | some g =>
    let o := bnum l 0 8
    let data := l.drop 8
    if l.length < 8 || min g.len 0x1000000 < o + data.length then (s, 2, [])
    else
      let n := 128 - o
      let head := (g.header.take o ++ data.take n ++ g.header.drop (o + (data.take n).length)).take 128
      let g := if o < 128 then { g with header := head } else g
      let rest := data.drop n
      let a := slotBase g.slot + max o 128
      (s.setDev { d with staging := some g, flash := programFlash d.flash a rest }, 0, [])

/-- `reads` where every read of the slot completes, `writes` where the write of the header and its comparison succeed. -/
def State.stageFinish (s : State) (reads writes : Bool) (l : List Byte) : State × Nat × List Byte :=
  let d := s.dev
  match d.staging with
  | none => (s, 3, [])
  | some g =>
    if l.length ≠ 0 then (s, 2, [])
    else
      let v := if !reads then 1 else d.checkImage { flash := d.flash, base := slotBase g.slot, header := some g.header }
      let v := if v = 0 && !writes then 1 else v
      let flash := if v = 0 then programFlash d.flash (slotBase g.slot) g.header else eraseSlot d.flash g.slot
      (s.setDev { d with flash := flash, staging := none }, 0, [BitVec.ofNat 8 v])

end Sys2Proof.Machine
end

