-- ==== Sys2Proof/Machine/Ceremony.lean ====
section
/-!
DEFINITION. Machine/Ceremony.lean: what the device signs, ceremonies and epoch advances (R439 to R447), the reports of the mailbox
(R669 to R671, R717, R763) and changes of the lifecycle (R722 to R725).
-/

namespace Sys2Proof.Machine

/-! ## The device's signatures (R670, R671) -/

/-- ECDSA P-384 by the device attestation key, over the SHA-384 of `m`. -/
def State.attestEcdsa (s : State) (m : List Byte) : List Byte × State :=
  let (r, s) := s.draw 48
  let sig := p384.sign (1 + Config.attestKey % (p384.n - 1)) (1 + beNat r % (p384.n - 1)) (sha384 m)
  (sig.getD (zeros 96), s)
/-- ML-DSA-87 by the post-quantum attestation key, under a context. -/
def State.attestMldsa (s : State) (ctx : String) (m : List Byte) : List Byte × State :=
  let (r, s) := s.draw 32
  (dsaSign 0x22 Config.attestSeed (ascii ctx) m r, s)
/-- Bytes followed by both signatures; the second covers the first where `chained` (R670). -/
def State.attest (s : State) (ctx : String) (m : List Byte) (chained : Bool) : List Byte × State :=
  let (e, s) := s.attestEcdsa m
  let (q, s) := s.attestMldsa ctx (if chained then m ++ e else m)
  (m ++ e ++ q, s)

/-! ## Ceremonies (R439 to R445) -/

/-- A ceremony record (R577) and EV_CEREMONY. -/
def Bench.cerRecord (B : Bench) (type : Byte) (custodian share check : Nat) (cv : List Byte) (mask : Nat) : Bench :=
  (B.jrnSystem type 0 B.bscOrigin 0 (ceremonyData custodian share B.ctl.epoch.toNat check cv mask)).raise 585

/-- The mask of custodians who gave shares. -/
def Ceremony.mask (c : Ceremony) : Nat := c.shares.foldl (fun m s => m + 2 ^ s.1) 0

/-- The vault opens a ceremony, or refuses; the X25519 and ML-KEM-768 public keys (R439). -/
def Bench.cerOpen (B : Bench) (nonce : List Byte) (check : Option (List Byte)) : Option (List Byte × List Byte) × Bench :=
  if B.vault.ceremony.isSome || B.vault.previous.isSome || !B.running then (none, B)
  else
    match B.drbgDraw 96 with
    | (none, B) => (none, B)
    | (some r, B) =>
      let c : Ceremony := { nonce := nonce, check := check, xPriv := r.take 32, kemSeed := r.drop 32, since := B.time.elapsed, shares := [] }
      (some (x25519Base c.xPriv, kemPublic 0x25 c.kemSeed), ({ B with vault := { B.vault with ceremony := some c } }).cerRecord 0x20 0xFF 0 0 [] 0)

/-- The value at 0 of the polynomial through the shares, for one byte of each (Shamir's scheme over GF(2^8)). -/
def shamirByte (pts : List (Byte × Byte)) : Byte :=
  (pts.zipIdx.map fun p =>
    (pts.zipIdx.foldl (fun (v : Byte) q =>
      if p.2 = q.2 then v else gmul v (gmul q.1.1 (ginv (q.1.1 ^^^ p.1.1)))) p.1.2)).foldl (· ^^^ ·) 0
def shamir (shares : List (Nat × List Byte)) : List Byte :=
  (List.range 32).map fun i => shamirByte (shares.map fun s => (BitVec.ofNat 8 s.1, s.2.getD i 0))

/-- The share that a package carries, none where its tag does not verify (R441). -/
def Ceremony.decryptShare (c : Ceremony) (pkg : List Byte) : Option (List Byte) :=
  let x := x25519 c.xPriv ((pkg.drop 40).take 32)
  let k := exact 32 (mlkemDecaps 0x25 c.kemSeed ((pkg.drop 72).take 1088))
  let aad := pkg.take 40
  let key := kdfCounter (cmac (aesEnc (sha256 (x ++ k))) 16) (kdfInput (ascii "KX8112 CER") aad 256) 32
  let nonce := (pkg.drop 4).take 12
  let ct := (pkg.drop 1160).take 32
  if gcmTag (aesEnc key) nonce aad ct = (pkg.drop 1192).take 16 then some (gcmCtr (aesEnc key) nonce 2 (blocksOf 16 ct)) else none

/-- Digests of the public keys of a custodian match the profile. -/
def Custodian.keysMatch (c : Custodian) (ecdsa mldsa : List Byte) : Bool := sha384 ecdsa = c.ecdsa && sha384 mldsa = c.mldsa
/-- Both signatures of a custodian over `m` verify. -/
def custodianSigns (ecdsa mldsa ctx m sigE sigM : List Byte) : Bool :=
  (match p384.decode ecdsa with
    | some q => p384.verify q (sha384 m) sigE
    | none => false) && mldsaVerify 0x21 mldsa ctx m sigM

/-- The first check of R442 that a share fails, or the share itself. -/
def Bench.cerCheck (B : Bench) (p : Profile) (c : Ceremony) (pkg ecdsa mldsa : List Byte) : Except Nat (List Byte) :=
  let word := leNat (pkg.take 4)
  let cust := (pkg.getD 36 0).toNat
  let idx := (pkg.getD 37 0).toNat
  if word ≠ B.ctl.id.val + B.ctl.epoch.toNat * 2 ^ 8 || (pkg.drop 4).take 32 ≠ c.nonce then .error 1
  else
    match p.custodians[cust]? with
    | none => .error 2
    | some k =>
      if !k.keysMatch ecdsa mldsa then .error 2
      else if !custodianSigns ecdsa mldsa [] (pkg.take 1208) ((pkg.drop 1208).take 96) ((pkg.drop 1304).take 3309) then .error 3
      else if c.shares.any fun s => s.1 = cust then .error 4
      else if idx = 0 || c.shares.any fun s => s.2.1 = idx then .error 5
      else
        match c.decryptShare pkg with
        | none => .error 6
        | some v => .ok v

/-- The quorum is reached (R443): OUTCOME and the check value. -/
def Bench.cerFinish (B : Bench) (c : Ceremony) : (Nat × List Byte) × Bench :=
  let key := shamir (c.shares.map fun s => s.2)
  let cv := checkValue key
  let B := { B with vault := { B.vault with ceremony := none } }
  if c.check.isSome && c.check ≠ some cv then ((2, zeros 5), B.cerRecord 0x24 0xFF 0 0 [] c.mask)
  else
    let v := B.vault
    let B := { B with vault := { v with previous := if v.current.isSome then v.current else v.previous, current := some key, bbEpoch := B.ctl.epoch } }
    ((1, cv), B.cerRecord 0x23 0xFF 0 0 cv c.mask)

/-- CER_SHARE (R440, R442, R443): the response. -/
def Bench.cerShare (B : Bench) (p : Profile) (c : Ceremony) (pkg ecdsa mldsa : List Byte) : List Byte × Bench :=
  let resp (outcome n : Nat) (cv : List Byte) : List Byte :=
    [BitVec.ofNat 8 outcome, BitVec.ofNat 8 n, BitVec.ofNat 8 p.quorum, 0] ++ cv ++ zeros 7
  let cust := (pkg.getD 36 0).toNat
  let idx := (pkg.getD 37 0).toNat
  match B.cerCheck p c pkg ecdsa mldsa with
  | .error n => (resp (16 + n) c.shares.length (zeros 5), B.cerRecord 0x22 cust idx n [] c.mask)
  | .ok v =>
    let c := { c with shares := c.shares ++ [(cust, idx, v)] }
    let B := ({ B with vault := { B.vault with ceremony := some c } }).cerRecord 0x21 cust idx 0 [] c.mask
    if c.shares.length < p.quorum then (resp 0 c.shares.length (zeros 5), B)
    else
      let ((o, cv), B) := B.cerFinish c
      (resp o c.shares.length cv, B)

/-! ## The epoch (R446, R447) -/

/-- A bench takes a new epoch (R446 steps 2 to 4). -/
def Bench.newEpoch (B : Bench) (e : Nat) : Bench :=
  let v := { B.vault with current := none, previous := none, bbEpoch := BitVec.ofNat 7 e }
  let B := ({ B with vault := v }).zeroise B.alive
  if !B.alive then B
  else
    let B := { B with ctl := { B.ctl with epoch := BitVec.ofNat 7 e } }
    B.jrnSystem 0x27 0 B.bscOrigin 0 (ceremonyData 0xFF 0 e 0 [] 0)
def State.advanceEpoch (s : State) : State :=
  let e := s.dev.fuses.epoch + 1
  ((s.fuseStep 4 e).allBenches fun B => B.newEpoch e)

/-- A SIGN of an open advance (R447): RESULT and response. -/
def State.epochSign (s : State) (p : Profile) (a : EpochAdvance) (l : List Byte) : State × Nat × List Byte :=
  let e := s.dev.fuses.epoch
  let cust := (l.getD 1 0).toNat
  let m := (l.drop 4).take 60
  let ecdsa := (l.drop 3472).take 97
  let mldsa := (l.drop 3569).take 1952
  if m ≠ a.nonce ++ serial ++ [BitVec.ofNat 8 e, BitVec.ofNat 8 (e + 1)] ++ zeros 10 then (s, 3, [])
  else
    match p.custodians[cust]? with
    | none => (s, 3, [])
    | some k =>
      if !k.keysMatch ecdsa mldsa then (s, 4, [])
      else if a.signed.contains cust then (s, 3, [])
      else if !custodianSigns ecdsa mldsa (ascii "KX8112 EPO") m ((l.drop 64).take 96) ((l.drop 160).take 3309) then (s, 4, [])
      else
        let signed := a.signed ++ [cust]
        let done := decide (p.quorum ≤ signed.length)
        let s : State := { s with dev := { s.dev with epochAdv := if done then none else some { a with signed := signed } } }
        let s := if done then s.advanceEpoch else s
        (s, 0, [BitVec.ofNat 8 signed.length, BitVec.ofNat 8 p.quorum, if done then 1 else 0, BitVec.ofNat 8 s.dev.fuses.epoch])

/-! ## Reports -/

/-- What GET_INFO shows of a bench (R669). -/
def State.infoByte (s : State) (b : BenchNo) : Byte :=
  let B := s.bench b
  if s.dev.held b then 0x30 else BitVec.ofNat 8 ((B.ustate 0).effective.toNat + B.pwr.effective.toNat * 16)
def State.info (s : State) : List Byte :=
  let d := s.dev
  leBytes 2 1 ++ zeros 2 ++ leBytes 4 d.devid.toNat ++ serial ++ [BitVec.ofNat 8 d.fuses.lifecycle, d.code.zeroExtend 8, d.slot.zeroExtend 8, d.restarts.zeroExtend 8]
    ++ leBytes 4 d.imgseq.toNat ++ leBytes 4 d.imgver.toNat ++ [d.heldByte, d.enabled, BitVec.ofNat 8 d.fuses.epoch, 0]
    ++ (List.finRange 8).map s.infoByte ++ leBytes 4 d.tamper.word.toNat ++ leBytes 4 s.dbgstat.toNat ++ zeros 8

/-- FUSE_REPORT (R717). -/
def Device.fuseReport (d : Device) : List Byte :=
  leBytes 2 1 ++ leBytes 2 d.fuses.log.length ++ zeros 4 ++ d.fuses.report ++ d.fuses.logBytes

/-- The fuses' contents, in an order of the model's own. -/
def Fuses.bytes (f : Fuses) : List Byte := f.report ++ f.roots.toList.flatMap (exact 48) ++ f.creds.toList.flatMap (exact 48) ++ f.logBytes

/-- The measurement of an index of R671. -/
def Device.measurement (d : Device) (i : Nat) : List Byte :=
  let absent := exact 48 (Config.absentMeasure i)
  match d.committed with
  | none => if i = 3 then exact 48 (Config.fuseMeasure d.fuses.bytes) else absent
  | some img =>
    if i = 1 then img.fwDigest
    else if i = 2 then img.digest
    else if i = 3 then exact 48 (Config.fuseMeasure d.fuses.bytes)
    else match (img.benches.toList[i - 4]?).bind (·.sup) with
      | some sup => sha384 sup.code
      | none => absent
def Device.measurements (d : Device) : List Byte := (List.range 11).flatMap fun i => d.measurement (i + 1)

/-- ATTEST_PQ (R670). -/
def State.attestPq (s : State) (nonce : List Byte) : List Byte × State :=
  let d := s.dev
  s.attest "KX8112 ATT" (leBytes 2 1 ++ [11, 0] ++ nonce ++ serial ++ leBytes 4 d.devid.toNat ++ d.measurements ++ dsaPublic 0x22 Config.attestSeed) true

/-- RMA_REPORT (R763). -/
def State.rmaReport (s : State) (nonce : List Byte) : List Byte × State :=
  let d := s.dev
  let journal (B : Bench) : List Byte :=
    if B.jrn.genesis then leBytes 8 B.jrn.jid.toNat ++ leBytes 8 B.jrn.nextSeq ++ B.jrn.chainBytes else zeros 64
  s.attest "KX8112 RMA"
    (leBytes 2 1 ++ [BitVec.ofNat 8 d.fuses.lifecycle, 0] ++ nonce ++ serial ++ leBytes 4 d.devid.toNat ++ d.fuses.report
      ++ sha384 d.fuses.logBytes ++ leBytes 4 d.tamper.word.toNat ++ zeros 4 ++ s.benches.toList.flatMap journal
      ++ (s.benches.toList.flatMap fun B => leBytes 4 B.vaultStat.toNat) ++ exact 48 d.advanceDigest) false

/-! ## The lifecycle (R722 to R725) -/

/-- The signer block after `n` request bytes is authorised (R722, R723): by the Serhafa root, or by a customer root that check 4
accepts. -/
def Fuses.signerOk (f : Fuses) (serhafa : Bool) (l : List Byte) (n : Nat) : Bool :=
  let block := l.drop n
  let m := l.take n
  let dg := sha384 (block.take 2689)
  (if serhafa then dg = serhafaRoot else (List.range 4).any fun r => f.rootAccepted r && f.roots.toList.getD r [] = dg)
    && hybridEcdsa block m && hybridMldsa block m (ascii "KX8112 LCR")

/-- A request after NONCE: its form, then the nonce and SERIAL; the nonce is used up whatever comes of it. `none` where both pass. -/
def State.lcrCheck (s : State) (l : List Byte) (target : Nat) (len : Nat) : Option Nat × State :=
  let n := s.dev.nonce
  let s : State := { s with dev := { s.dev with nonce := none } }
  if l.length ≠ len || bnum l 1 1 ≠ target || bnum l 2 2 ≠ 0 then (some 3, s)
  else if n ≠ some ((l.drop 4).take 32) || (l.drop 36).take 16 ≠ serial then (some 4, s)
  else (none, s)

/-- A reset with cause SOFT follows 1 ms later. -/
def State.softReset (s : State) : State :=
  let t := s.dev.elapsed + 1000
  let t := match s.dev.softDue with
    | some u => min t u
    | none => t
  { s with dev := { s.dev with softDue := some t } }

/-- ADVANCE (R723 to R725). -/
def State.lifecycleAdvance (s : State) (l : List Byte) : State × Nat × List Byte :=
  let f := s.dev.fuses
  let signed := 52 + 7412
  if 4 ≤ f.lifecycle then ({ s with dev := { s.dev with nonce := none } }, 3, [])
  else
    match s.lcrCheck l (f.lifecycle + 1) (if f.lifecycle = 1 then 292 else signed) with
    | (some r, s) => (s, r, [])
    | (none, s) =>
      if f.lifecycle = 1 then
        let digests := (List.range 5).map fun i => (l.drop (52 + 48 * i)).take 48
        if !digestSet (digests.getD 0 []) || !digestSet (digests.getD 4 []) then (s, 3, [])
        else
          let code := (sha384 l).take 8
          ({ s with dev := { s.dev with confirm := some { digests := digests, code := code, since := s.dev.elapsed } } }, 0, code)
      else if !f.signerOk (decide (f.lifecycle ≠ 2)) l 52 then (s, 4, [])
      else if f.lifecycle = 2 then
        let s := s.endSession.allBenches fun B => B.eraseBbram.zeroise false
        let s := s.fuseStep 1 3
        (({ s with dev := { s.dev with advanceDigest := sha384 l } }).softReset, 0, [])
      else ((s.fuseStep 1 (f.lifecycle + 1)).softReset, 0, [])

/-- CONFIRM (R724). -/
def State.lifecycleConfirm (s : State) (l : List Byte) : State × Nat × List Byte :=
  let c := s.dev.confirm
  match s.lcrCheck l 0 60 with
  | (some r, s) => ({ s with dev := { s.dev with confirm := none } }, r, [])
  | (none, s) =>
    let s : State := { s with dev := { s.dev with confirm := none } }
    match c with
    | none => (s, 3, [])
    | some c =>
      let f := s.dev.fuses
      if f.lifecycle ≠ 1 || 10000000 < s.dev.elapsed - c.since then (s, 3, [])
      else if (l.drop 52).take 8 ≠ c.code then (s, 4, [])
      else
        let root (i : Nat) : List Byte := let g := c.digests.getD i []; if digestSet g then g else []
        let f := { f with roots := Vector.ofFn fun i => root i.val, creds := f.creds.set 0 (c.digests.getD 4 []) }
        let s : State := { s with dev := { s.dev with fuses := f } }
        ((s.fuseStep 1 2).softReset, 0, [])

/-- DEBUGCRED (R723, R725). -/
def State.lifecycleDebugcred (s : State) (l : List Byte) : State × Nat × List Byte :=
  let f := s.dev.fuses
  if f.lifecycle ≠ 2 then ({ s with dev := { s.dev with nonce := none } }, 3, [])
  else
    match s.lcrCheck l 0 (100 + 7412) with
    | (some r, s) => (s, r, [])
    | (none, s) =>
      if !f.signerOk false l 100 then (s, 4, [])
      else if 4 ≤ f.debugcred then (s, 3, [])
      else
        let f := { f with creds := f.creds.set (Fin.ofNat 5 (f.debugcred + 1)) ((l.drop 52).take 48) }
        (({ s with dev := { s.dev with fuses := f } }).fuseStep 5 (f.debugcred + 1), 0, [])

/-- TAMPER_CLEAR (R723, R725, R747). -/
def State.tamperClear (s : State) (l : List Byte) : State × Nat × List Byte :=
  let f := s.dev.fuses
  if f.lifecycle = 0 then ({ s with dev := { s.dev with nonce := none } }, 3, [])
  else
    match s.lcrCheck l 0 (52 + 7412) with
    | (some r, s) => (s, r, [])
    | (none, s) =>
      let t := s.dev.tamper
      if !f.signerOk (decide (f.lifecycle ≠ 2)) l 52 then (s, 4, [])
      else if t.live ≠ 0 then (s, 3, [])
      else (s.setTamper { t with tampered := false, cause := 0 }, 0, [])

end Sys2Proof.Machine
end

