-- ==== Sys2Proof/Machine/CoreSys.lean ====
section
/-!
DEFINITION. Machine/CoreSys.lean: system registers (R199 to R202, R244, R257 to R261), fences and TLB invalidation (R203,
R204, R349 to R353), the bank window (R206), SAVEL, SAVEU, LOADL and LOADU (R208).
-/

namespace Sys2Proof.Machine

/-! ## System registers -/

/-- The x-class numbers of R200. -/
def xSysListed (n : Nat) : Bool :=
  n ≤ 0x004 || (0x010 ≤ n && n ≤ 0x016) || n == 0x020 || n == 0x021 || n == 0x030 || n == 0x031
/-- The c-class numbers of R200. -/
def cSysListed (n : Nat) : Bool :=
  (0x400 ≤ n && n ≤ 0x403) || (0x408 ≤ n && n ≤ 0x40B) || (0x410 ≤ n && n ≤ 0x41F)

/-- CYCLE at this moment: it has advanced by a number of core cycles that this model, which has no core clock, leaves free (log 9). -/
def M.cycle (σ : Strand) : M Dword := do
  let lo ← M.act drawWord
  let hi ← M.act drawWord
  let c ← M.core σ
  let now := c.cycle + (hi ++ lo)
  M.modCore σ fun c => { c with cycle := now }
  pure now

/-- The value an x-class register reads (R200). -/
def readSysX (σ : Strand) (n : Nat) : M Word := do
  let B ← M.bench
  let c := B.core σ.core
  let s := c.bank σ.bank
  match n with
  | 0x000 => pure (B.origin σ.core σ.bank)
  | 0x001 => do pure ((← M.cycle σ).truncate 32)
  | 0x002 => do pure (((← M.cycle σ) >>> 32).truncate 32)
  | 0x003 => pure (s.instret.truncate 32)
  | 0x004 => pure ((s.instret >>> 32).truncate 32)
  | 0x010 => pure s.ecause
  | 0x011 => pure (s.etval.truncate 32)
  | 0x012 => pure s.estat
  | 0x013 => pure c.escCause
  | 0x014 => pure (if c.escLock then 1 else 0)
  | 0x015 => pure (B.ctl.holdLimit.zeroExtend 32)
  | 0x016 => pure ((if B.ctl.nxEnforce then 1#32 else 0#32) ||| (if B.ctl.lastEnforce then 2#32 else 0#32))
  | 0x020 => pure s.atp
  | 0x021 => pure s.atpRoot
  | 0x030 => pure (BitVec.ofNat 32 c.bankwin.val)
  | 0x031 => pure (BitVec.ofNat 32 σ.bank.val)
  | _ => M.illegal σ

/-- The bounds of a capability lie within working SRAM (R258, R259). -/
def Cap.inSram (c : Cap) : Bool := 0x1000000000 ≤ c.base && c.top ≤ 0x1001000000

/-- The validation of ESC_PCC (R258). -/
def escPccCheck (v : Cap) : Except Cause Unit :=
  if !v.tag then .error .capTag
  else if v.sealed? then .error .capSeal
  else if !v.hasAll [permLD, permEX, permSYS, permBANK] then .error .capPerm
  else if v.cursor.toNat % 4 ≠ 0 then .error .misaligned
  else if v.cursor.toNat < v.base || v.cursor.toNat + 4 > v.top || !v.inSram then .error .capBounds
  else .ok ()

/-- The validation of ESC_CSP (R259). -/
def escCspCheck (v : Cap) : Except Cause Unit :=
  if !v.tag then .error .capTag
  else if v.sealed? then .error .capSeal
  else if !v.hasAll [permLD, permST, permLDC, permSTC] || v.has permGL then .error .capPerm
  else if v.cursor.toNat % 16 ≠ 0 then .error .capAlign
  else if v.cursor.toNat < v.base + 512 || v.top < v.cursor.toNat || !v.inSram then .error .capBounds
  else .ok ()

/-- The validation of LAST (R244). -/
def lastCheck (v : Cap) : Except Cause Unit :=
  if !v.tag then .ok ()
  else if v.otype ≠ otLast then .error .capSeal
  else if !v.hasAll [permLD, permST] then .error .capPerm
  else if v.cursor.toNat % 8 ≠ 0 then .error .capAlign
  else if v.cursor.toNat < v.base || v.top < v.cursor.toNat then .error .capBounds
  else .ok ()

def okUnit : Except Cause Unit → Bool
  | .ok _ => true
  | .error _ => false

/-- A write of ESC_LOCK (R9, R257, R261): a 1 locks only over valid values, and a refused write does not count as the
single write. The supervisor core's lock starts the home tasks (R297). -/
def Bench.escLockWrite (B : Bench) (k : CoreNo) (v : Word) : Bench :=
  let c := B.core k
  if c.escLockWritten then B
  else if v.getLsbD 0 then
    if okUnit (escPccCheck c.escPcc) && okUnit (escCspCheck c.escCsp) then
      let B := B.setCore k { c with escLock := true, escLockWritten := true }
      if k = bsc then B.startHomeTasks else B
    else B.raise 1010
  else B.setCore k { c with escLockWritten := true }

/-- A write of an x-class register (R200, R221 to R223, R320); read-only registers ignore it (R202). -/
def writeSysX (σ : Strand) (n : Nat) (v : Word) : M Unit :=
  let setB (f : Bank → Bank) : M Unit := M.mod fun B => B.modBank σ.core σ.bank f
  match n with
  | 0x010 => setB fun s => { s with ecause := v &&& 0x00FFDFFF#32 }
  | 0x011 => setB fun s => { s with etval := v.zeroExtend 64 }
  | 0x012 => setB fun s => { s with estat := (s.estat &&& 4#32) ||| (v &&& 3#32) }
  | 0x014 => M.mod fun B => B.escLockWrite σ.core v
  | 0x020 => setB fun s => { s with atp := v &&& 0x3FFFF#32 }
  | 0x021 => setB fun s => { s with atpRoot := v &&& 0xFFFFFFF#32 }
  | 0x030 => M.modCore σ fun c => { c with bankwin := Fin.ofNat 8 v.toNat }
  | _ => pure ()

/-- The value a c-class register reads (R200). -/
def readSysC (σ : Strand) (n : Nat) : M Cap := do
  let c ← M.core σ
  let s := c.bank σ.bank
  match n with
  | 0x400 => pure s.trapEntry
  | 0x401 => pure s.epcc
  | 0x402 => pure c.escPcc
  | 0x403 => pure c.escCsp
  | 0x408 => pure c.safree
  | 0x409 => pure s.sachain
  | 0x40A => pure c.saemerg
  | 0x40B => pure s.last
  | _ =>
    let i : Fin 8 := Fin.ofNat 8 ((n - 0x410) / 2)
    pure (if n % 2 = 0 then s.entry[i] else s.entryCsp[i])

/-- A write of a c-class register under its own validation (R200, R238, R244, R258 to R260, R292). -/
def writeSysC (σ : Strand) (n : Nat) (v : Cap) : M Unit := do
  let setB (f : Bank → Bank) : M Unit := M.mod fun B => B.modBank σ.core σ.bank f
  let c ← M.core σ
  match n with
  | 0x400 => setB fun s => { s with trapEntry := v }
  | 0x401 => setB fun s => { s with epcc := v }
  | 0x402 =>
    if c.escLock then pure ()
    else
      M.ofExceptWord σ (escPccCheck v)
      M.modCore σ fun c => { c with escPcc := v }
  | 0x403 =>
    if c.escLock then pure ()
    else
      M.ofExceptWord σ (escCspCheck v)
      M.modCore σ fun c => { c with escCsp := v }
  | 0x408 => M.modCore σ fun c => { c with safree := v }
  | 0x409 => setB fun s => { s with sachain := v }
  | 0x40A => M.modCore σ fun c => if c.saemergWritten then c else { c with saemerg := v, saemergWritten := true }
  | 0x40B =>
    M.ofExceptWord σ (lastCheck v)
    setB fun s => { s with last := v }
  | _ =>
    let i : Fin 8 := Fin.ofNat 8 ((n - 0x410) / 2)
    setB fun s => if n % 2 = 0 then { s with entry := s.entry.set i v } else { s with entryCsp := s.entryCsp.set i v }

def bodySysrd (rd : Reg) (n : BitVec 11) (σ : Strand) : M (Option Cap) := do
  if !xSysListed n.toNat then M.illegal σ
  if n.toNat > 0x004 then M.needSys σ
  let v ← readSysX σ n.toNat
  M.setX σ rd v
  pure none

def bodySyswr (rd : Reg) (n : BitVec 11) (σ : Strand) : M (Option Cap) := do
  if !xSysListed n.toNat then M.illegal σ
  M.needSys σ
  let v ← M.getX σ rd
  writeSysX σ n.toNat v
  pure none

def bodyCsysrd (cd : Reg) (n : BitVec 11) (σ : Strand) : M (Option Cap) := do
  if !cSysListed n.toNat then M.illegal σ
  M.needSys σ
  let v ← readSysC σ n.toNat
  M.setC σ cd v
  pure none

def bodyCsyswr (cd : Reg) (n : BitVec 11) (σ : Strand) : M (Option Cap) := do
  if !cSysListed n.toNat then M.illegal σ
  M.needSys σ
  let v ← M.getC σ cd
  writeSysC σ n.toNat v
  pure none

/-- SYSWR of ESC_LOCK (R257, R261). -/
def bodyEscLock (rd : Reg) (σ : Strand) : M (Option Cap) := do
  M.needSys σ
  let v ← M.getX σ rd
  M.mod fun B => B.escLockWrite σ.core v
  pure none

/-! ## Invalidation -/

/-- A TLBI: local, or a broadcast accepted for later completion (R350, R351). -/
def bodyTlbi (bcast : Bool) (scope : Bank → InvScope) (σ : Strand) : M (Option Cap) := do
  M.needSys σ
  let s ← M.bank σ
  let sc := scope s
  if bcast then
    M.mod fun B => { B with trans := { B.trans with
      pending := B.trans.pending ++ [{ core := σ.core, bank := σ.bank, scope := sc }] } }
  else M.modCore σ fun c => c.invalidate sc
  pure none

/-- The oldest broadcast removes its entries from every core and the ETU; a stopped core removes every entry before it next executes
(R351, R353). It is complete once no job holds the place of an access that was translated before it (R352 step 2, R355). -/
def Bench.broadcastDone (B : Bench) : Bench :=
  match B.trans.pending with
  | [] => B
  | p :: rest =>
    let cores := B.cores.map fun c =>
      if c.clockStopped || c.halted || B.asleep then { c with tlbFlushDue := true } else c.invalidate p.scope
    let B := { B with cores := cores, trans := { B.trans with etuTlb := invalidate p.scope B.trans.etuTlb } }
    if B.etuInFlight then B else { B with trans := { B.trans with pending := rest, bcast := sat16 B.trans.bcast } }

/-- FENCE.T waits while a broadcast of the strand is not complete (R352). -/
def Bench.fenceWaits (B : Bench) (k : CoreNo) (b : BankNo) : Bool :=
  B.trans.pending.any fun p => p.core = k && p.bank = b

/-- A bank-window instruction waits while the scheduler loads the bank it names (R207); a load that cannot begin (R302) is not waited
for. -/
def Bench.windowWaits (B : Bench) (k : CoreNo) (_b : BankNo) : Bool :=
  let c := B.core k
  match c.placing with
  | none => false
  | some p => p.bank = c.bankwin && c.hold.isNone && !c.escActive

/-- An instruction that waits under `w` does not begin while it must: the state stays. -/
def Bench.instrWaiting (B : Bench) (x : Exec) (word : Word) (w : Bench → CoreNo → BankNo → Bool)
    (body : Strand → M (Option Cap)) : Bench :=
  match B.executing x.core with
  | none => B
  | some b =>
    if (B.eventDue x.core).isNone && !B.switchDue x.core && x.guard.holds (B.bank x.core b) && w B x.core b then B
    else B.instr x word body

def State.instrWaiting (s : State) (x : Exec) (word : Word) (w : Bench → CoreNo → BankNo → Bool)
    (body : Strand → M (Option Cap)) : Out := s.onBench x.bench fun B => B.instrWaiting x word w body

/-! ## The bank window -/

/-- The bank the window reaches; banks 1 to 6 are ILLEGAL on the supervisor core (R206). -/
def windowBank (σ : Strand) : M BankNo := do
  let c ← M.core σ
  if σ.core = bsc && c.bankwin ≠ 0 && c.bankwin ≠ 7 then M.illegal σ
  pure c.bankwin

/-- A bank-window form: `f` computes from the executing bank and the window's bank what both become. -/
def bodyWindow (f : Bank → Bank → Bank × Bank) (σ : Strand) : M (Option Cap) := do
  M.needBank σ
  let b ← windowBank σ
  M.mod fun B =>
    let own := B.bank σ.core σ.bank
    let (own', win') := f own (B.bank σ.core b)
    if b = σ.bank then
      -- an ordinary move within the executing bank
      B.setBank σ.core b (f own own).2 |>.modBank σ.core b fun s => (f s s).1
    else (B.setBank σ.core b win').setBank σ.core σ.bank own'
  pure none

/-- The register that BRS reads (R206). -/
def Bank.selRead (s : Bank) (sel : Nat) : Word :=
  match sel with
  | 0 => s.predByte &&& 0xFE#32
  | 1 => s.rc
  | 2 => if s.rcv then 1 else 0
  | _ => s.dcsr

/-- The register that BWS writes (R206). -/
def Bank.selWrite (s : Bank) (sel : Nat) (v : Word) : Bank :=
  match sel with
  | 0 => s.setPreds v
  | 1 => { s with rc := v }
  | 2 => { s with rcv := v.getLsbD 0 }
  | _ => { s with dcsr := dcsrWrite s.dcsr v }

def bodyBrs (rd sel : Reg) (σ : Strand) : M (Option Cap) :=
  if sel.val > 3 then M.illegal σ else bodyWindow (fun o w => (o.setX rd (w.selRead sel.val), w)) σ
def bodyBws (sel rs1 : Reg) (σ : Strand) : M (Option Cap) :=
  if sel.val > 3 then M.illegal σ else bodyWindow (fun o w => (o, w.selWrite sel.val (o.getX rs1))) σ
def bodyBrd (dd ds1 : Reg) (σ : Strand) : M (Option Cap) := do
  let d ← M.dField σ dd
  let e ← M.dField σ ds1
  bodyWindow (fun o w => (o.setD d (w.getD e), w)) σ
def bodyBwd (dd ds1 : Reg) (σ : Strand) : M (Option Cap) := do
  let d ← M.dField σ dd
  let e ← M.dField σ ds1
  bodyWindow (fun o w => (o, w.setD d (o.getD e))) σ

/-- BWPCC is ILLEGAL on the executing bank (R206). -/
def bodyBwpcc (cs1 : Reg) (σ : Strand) : M (Option Cap) := do
  M.needBank σ
  let b ← windowBank σ
  if b = σ.bank then M.illegal σ
  bodyWindow (fun o w => (o, { w with pcc := o.getC cs1 })) σ

/-- SAVEL, SAVEU, LOADL and LOADU (R208): ILLEGAL on the executing bank, on bank 0 and on a bank the core lacks. -/
def bodySave (load upper : Bool) (σ : Strand) : M (Option Cap) := do
  M.needBank σ
  let c ← M.core σ
  let b := c.bankwin
  if b = σ.bank || b = 0 || (σ.core = bsc && b ≠ 7) then M.illegal σ
  let B ← M.bench
  let org := B.origin σ.core σ.bank
  if load then loadHalf σ.core b upper org else saveHalf σ.core b upper org
  pure none

/-! ## Meanings -/

def execSysrd (x : Exec) (rd : Reg) (n : BitVec 11) (s : State) : Out :=
  s.instr x (encI x.guard 0x40 rd.val 0 n) (bodySysrd rd n)
def execSyswr (x : Exec) (rd : Reg) (n : BitVec 11) (s : State) : Out :=
  s.instr x (encI x.guard 0x41 rd.val 0 n) (bodySyswr rd n)
def execCsysrd (x : Exec) (cd : Reg) (n : BitVec 11) (s : State) : Out :=
  s.instr x (encI x.guard 0x42 cd.val 0 n) (bodyCsysrd cd n)
def execCsyswr (x : Exec) (cd : Reg) (n : BitVec 11) (s : State) : Out :=
  s.instr x (encI x.guard 0x43 cd.val 0 n) (bodyCsyswr cd n)
def execEscLockWrite (x : Exec) (rd : Reg) (s : State) : Out :=
  s.instr x (encI x.guard 0x41 rd.val 0 0x014) (bodyEscLock rd)
/-- FENCE orders accesses that this machine performs one at a time (R148). -/
def execFence (x : Exec) (pred succ : BitVec 3) (s : State) : Out :=
  s.instr x (encU x.guard 0x44 0 (0#10 ++ pred ++ succ)) (plain id)
/-- FENCE.I discards fetched instructions; this machine fetches none ahead (R144). -/
def execFenceI (x : Exec) (s : State) : Out := s.instr x (encU x.guard 0x44 0 0x4000) (plain id)
def execFenceT (x : Exec) (s : State) : Out :=
  s.instrWaiting x (encU x.guard 0x44 0 0x8000) Bench.fenceWaits (plain id)
def execTlbiAll (x : Exec) (bcast : Bool) (s : State) : Out :=
  s.instr x (encR x.guard 0x45 0 0 0 (if bcast then 16 else 0)) (bodyTlbi bcast fun _ => .all)
def execTlbiAsid (x : Exec) (bcast : Bool) (rs1 : Reg) (s : State) : Out :=
  s.instr x (encR x.guard 0x45 0 rs1.val 0 ((if bcast then 16 else 0) + 1))
    (bodyTlbi bcast fun k => .asid ((k.getX rs1).toNat % 2 ^ 16))
def execTlbiVa (x : Exec) (bcast : Bool) (rs1 rs2 : Reg) (s : State) : Out :=
  s.instr x (encR x.guard 0x45 0 rs1.val rs2.val ((if bcast then 16 else 0) + 2))
    (bodyTlbi bcast fun k => .va (tlbiPage (k.getX rs1) (k.getX rs2)))
def execTlbiVaAsid (x : Exec) (bcast : Bool) (rs1 rs2 : Reg) (s : State) : Out :=
  s.instr x (encR x.guard 0x45 0 rs1.val rs2.val ((if bcast then 16 else 0) + 3))
    (bodyTlbi bcast fun k => .vaAsid (tlbiPage (k.getX rs1) (k.getX rs2)) (tlbiAsidOf (k.getX rs2)))
def execTlbiBCompletion (b : BenchNo) (s : State) : Out := s.onBench b Bench.broadcastDone

def execBrx (x : Exec) (rd rs1 : Reg) (s : State) : Out :=
  s.instrWaiting x (encR x.guard 0x47 rd.val rs1.val 0 0) Bench.windowWaits
    (bodyWindow fun o w => (o.setX rd (w.getX rs1), w))
def execBwx (x : Exec) (rd rs1 : Reg) (s : State) : Out :=
  s.instrWaiting x (encR x.guard 0x47 rd.val rs1.val 0 1) Bench.windowWaits
    (bodyWindow fun o w => (o, w.setX rd (o.getX rs1)))
def execBrc (x : Exec) (cd cs1 : Reg) (s : State) : Out :=
  s.instrWaiting x (encR x.guard 0x47 cd.val cs1.val 0 2) Bench.windowWaits
    (bodyWindow fun o w => (o.setC cd (w.getC cs1), w))
def execBwc (x : Exec) (cd cs1 : Reg) (s : State) : Out :=
  s.instrWaiting x (encR x.guard 0x47 cd.val cs1.val 0 3) Bench.windowWaits
    (bodyWindow fun o w => (o, w.setC cd (o.getC cs1)))
def execBrd (x : Exec) (dd ds1 : Reg) (s : State) : Out :=
  s.instrWaiting x (encR x.guard 0x47 dd.val ds1.val 0 4) Bench.windowWaits (bodyBrd dd ds1)
def execBwd (x : Exec) (dd ds1 : Reg) (s : State) : Out :=
  s.instrWaiting x (encR x.guard 0x47 dd.val ds1.val 0 5) Bench.windowWaits (bodyBwd dd ds1)
def execBrs (x : Exec) (rd sel : Reg) (s : State) : Out :=
  s.instrWaiting x (encR x.guard 0x47 rd.val sel.val 0 6) Bench.windowWaits (bodyBrs rd sel)
def execBws (x : Exec) (sel rs1 : Reg) (s : State) : Out :=
  s.instrWaiting x (encR x.guard 0x47 sel.val rs1.val 0 7) Bench.windowWaits (bodyBws sel rs1)
def execBrpcc (x : Exec) (cd : Reg) (s : State) : Out :=
  s.instrWaiting x (encR x.guard 0x47 cd.val 0 0 8) Bench.windowWaits (bodyWindow fun o w => (o.setC cd w.pcc, w))
def execBwpcc (x : Exec) (cs1 : Reg) (s : State) : Out :=
  s.instrWaiting x (encR x.guard 0x47 0 cs1.val 0 9) Bench.windowWaits (bodyBwpcc cs1)
def execSavel (x : Exec) (s : State) : Out :=
  s.instrWaiting x (encR x.guard 0x48 0 0 0 0) Bench.windowWaits (bodySave false false)
def execSaveu (x : Exec) (s : State) : Out :=
  s.instrWaiting x (encR x.guard 0x48 0 0 0 1) Bench.windowWaits (bodySave false true)
def execLoadl (x : Exec) (s : State) : Out :=
  s.instrWaiting x (encR x.guard 0x48 0 0 0 2) Bench.windowWaits (bodySave true false)
def execLoadu (x : Exec) (s : State) : Out :=
  s.instrWaiting x (encR x.guard 0x48 0 0 0 3) Bench.windowWaits (bodySave true true)

end Sys2Proof.Machine
end

