-- ==== Sys2Proof/Machine/Debug.lean ====
section
/-!
DEFINITION. Machine/Debug.lean: the TAP, debug challenges and grants, and the commands of DBG_ACCESS (R726 to R735, R743).
-/

namespace Sys2Proof.Machine

/-! ## The TAP (R726, R727) -/

def irIdcode : Byte := 0x01
def irBypass : Byte := 0xFF
/-- EXTEST, CLAMP or HIGHZ. -/
def irBoundary (ir : Byte) : Bool := ir = 0x03 || ir = 0x04 || ir = 0x05

/-- The instruction register takes `ir`: leaving a boundary-scan instruction resets the device, loading one holds every bench in reset
and stops the DMC. -/
def State.tapIr (s : State) (ir : Byte) : State :=
  let old := s.dev.dbg.ir
  let s : State := { s with dev := { s.dev with dbg := { s.dev.dbg with ir := ir } } }
  if old = ir then s
  else
    let s := if irBoundary old then s.deviceReset 5 false else s
    if irBoundary ir then
      (s.setDev { s.dev with dmcStopped := true, holdReq := 0xFF }).allBenches fun B => B.requestReset 0x13 0
    else s

/-- IDCODE's data register. -/
def Device.idcode (d : Device) : Nat := d.devid.toNat / 2 ^ 12 % 16 * 2 ^ 28 + 0x8112 * 2 ^ 12 + 1

/-! ## Challenge and response (R728 to R730, R734) -/

def serhafaCredential : List Byte := exact 48 Config.serhafaCredential

/-- DBG_CHAL's capture. -/
def State.challenge (s : State) : State :=
  let (n, s) := s.draw 32
  let d := s.dev
  let l := n ++ serial ++ [BitVec.ofNat 8 d.fuses.lifecycle, BitVec.ofNat 8 (s.dbgstat.toNat % 4), BitVec.ofNat 8 d.fuses.debugcred] ++ zeros 13
  ({ s with dev := { d with dbg := { d.dbg with nonce := some n } } }).emit (.tap 512 (leNat l))

/-- The matrix of R743 grants a level in a lifecycle state; while TAMPERED is 1 neither HALT nor FULL (R749). -/
def Device.levelGranted (d : Device) (level : Nat) : Bool :=
  let lc := d.fuses.lifecycle
  (level = 1 || (level = 2 && lc ≠ 3) || (level = 3 && (lc = 0 || lc = 4))) && (level = 1 || !d.tamper.tampered)

/-- The credential of a digest that R743 names in the lifecycle state: true for Serhafa's, none for no such credential. -/
def Device.credential (d : Device) (dg : List Byte) : Option Bool :=
  let lc := d.fuses.lifecycle
  let cust := d.fuses.creds.toList.getD d.fuses.debugcred []
  if (lc = 1 || lc = 3 || lc = 4) && dg = serhafaCredential then some true
  else if (lc = 2 || lc = 3) && dg = cust then some false
  else none

/-- Checks 3 to 6 of R730 on a response: whether the Serhafa credential is in use, or none. -/
def Device.responseOk (d : Device) (r : List Byte) : Option Bool :=
  let level := bnum r 0 1
  let bench := bnum r 1 1
  let halt := decide (level = 2)
  let benchOk := if h : bench < 8 then (if halt then !d.held ⟨bench, h⟩ else bench = 0) else false
  if (r.drop 36).take 16 ≠ serial || level = 0 || 3 < level || !benchOk || bnum r 2 2 = 0 || !d.levelGranted level then none
  else if d.fuses.lifecycle = 0 then (if (r.drop 64).all (· = 0) then some false else none)
  else
    let m := r.take 64
    let key := (r.drop 64).take 2049
    match d.credential (sha384 key) with
    | none => none
    | some c =>
      if custodianSigns (key.take 97) (key.drop 97) (ascii "KX8112 DBG") m ((r.drop 2113).take 96) ((r.drop 2209).take 3309) then some c
      else none

/-- What a grant of HALT does to its bench first (R734, R741). -/
def Bench.haltGrant (B : Bench) : Bench :=
  let B := (B.zeroise B.alive).eraseBbram.idleExit
  let p := { B.pwr with halt := true }
  { B with pwr := if B.asleep then { p with requested := 0, since := B.time.elapsed } else p }

/-- A response is granted: any session in force ends first. The reset that the end of FULL causes ends the new session too. -/
def State.grant (s : State) (r : List Byte) (serhafa : Bool) : State :=
  let was := s.dev.dbg.level
  let s := s.endSession
  if was = 3 then s
  else
    let level := bnum r 0 1
    let b : BenchNo := Fin.ofNat 8 (bnum r 1 1)
    let g := s.dev.dbg
    let s := s.setDev { s.dev with dbg := { g with level := BitVec.ofNat 2 level, bench := b, serhafa := serhafa
                                                   validUntil := s.dev.elapsed + bnum r 2 2 * 1000000 } }
    let s := if level = 2 then s.setBench b (s.bench b).haltGrant else s
    s.allBenches fun B => if B.alive then B.raise 837 else B

/-- An update of DBG_RESP (R730). -/
def State.respond (s : State) (r : List Byte) : State :=
  let r := exact 5518 r
  let g := s.dev.dbg
  let fresh := g.nonce = some ((r.drop 4).take 32)
  let ok := if g.lockout || !fresh then none else s.dev.responseOk r
  let nonce := if !g.lockout && fresh then none else g.nonce
  let s := s.setDev { s.dev with dbg := { g with nonce := nonce } }
  match ok with
  | some c => s.grant r c
  | none =>
    let n := if g.fails = 15 then g.fails else g.fails + 1
    s.setDev { s.dev with dbg := { s.dev.dbg with fails := n, lockout := g.lockout || decide (8 ≤ n.toNat) } }

/-! ## What a level reaches (R732, R743) -/

inductive DbgReach where
  | none | observe | observeOn | halt | full | fullOn
  deriving DecidableEq, Repr

/-- What the level in force reaches on bench `b` in its power state; a bench in reset counts as OFF (R721). -/
def State.reach (s : State) (b : BenchNo) : DbgReach :=
  let g := s.dev.dbg
  let off := !(s.bench b).alive || (s.bench b).pwr.effective = 3
  if g.level = 0 || (g.level = 2 && (s.bench g.bench).asleep) then .none
  else if g.level = 3 then (if off then .fullOn else .full)
  else if g.level = 2 && g.bench = b then (if off then .none else .halt)
  else if off then .observeOn
  else .observe

/-- The registers of R760. -/
def pf0Observable (o : Nat) : Bool := ([0x40, 0x44, 0x48, 0x4C, 0x60, 0x64, 0x68] : List Nat).contains o

/-- The always-on subset of R732, at register offsets. -/
def alwaysOn (o : Nat) : Bool :=
  (0x500000 ≤ o && o < 0x500018) || (0x500100 ≤ o && o < 0x500700) || ([0x310000, 0x310004, 0x310008, 0x31000C, 0x10, 0x3C] : List Nat).contains o

/-- The registers that OBSERVE reaches (R732), at register offsets. -/
def observable (o : Nat) : Bool :=
  alwaysOn o
    || ([0x00, 0x04, 0x20, 0x24, 0x30, 0x34, 0x38, 0x14, 0x40, 0x10010, 0x10014, 0x10018, 0x1001C, 0x40020, 0x20004, 0x20010, 0x20014, 0x20018,
          0x30004, 0x3001C, 0x30020, 0x30024, 0x30028, 0x148020, 0x100000, 0x100018, 0x10001C, 0x100020, 0x210004, 0x210018, 0x300000,
          0x300090, 0x300094, 0x300098, 0x310048, 0x40380C] : List Nat).contains o
    || (0x1000 ≤ o && o < 0x1880) || (0x12000 ≤ o && o < 0x13000) || (0x18000 ≤ o && o < 0x1C000) || (0x30100 ≤ o && o < 0x30118)
    || (0x300050 ≤ o && o < 0x300068)
    || (0x400000 ≤ o && o < 0x400800 && ([0x10, 0x80, 0x84, 0x88, 0x8C] : List Nat).contains (o % 0x400))
    || (0x408000 ≤ o && o < 0x40C000 && o % 0x40 = 0x20)
    || (match engBlock o with
        | some (_, e) => ([0x00, 0x04, 0x0C, 0x10] : List Nat).contains e || (0x100 ≤ e && e < 0x180 && e % 0x20 = 0x0C)
        | none => false)

/-! ## The commands (R731, R733) -/

def stOk : Nat := 0
def stDenied : Nat := 1
def stBusy : Nat := 2
def stError : Nat := 3

/-- A DBG_ACCESS command: the result of the one before is captured, then this one acts: STATUS, the data read, the state. -/
def State.dbgAccess (s : State) (f : State → Nat × Word × State) : Out :=
  if !s.dev.sensed then .next s
  else
    let s := s.tapIr 0x12
    let s := s.emit (.tap 104 (s.dev.dbg.status.toNat * 2 ^ 32 + s.dev.dbg.data.toNat))
    let (st, v, s) := f s
    .next (s.setDev { s.dev with dbg := { s.dev.dbg with status := BitVec.ofNat 2 st, data := v } })

/-- The register offset of a bench physical address that names a register. -/
def regOffset (a : Nat) : Option Nat := if paType a = .register && a % 4 = 0 then some (a - 0x2000000000) else none

/-- REG_RD. The spec gives no STATUS for an ADDR that is not aligned: ERROR, or DENIED at OBSERVE, where only the registers listed may be
read, DESIGN CHOICE (log 86). REG_WR likewise. -/
def State.dbgRegRd (s : State) (target : Byte) (addr : Nat) : Nat × Word × State :=
  let g := s.dev.dbg
  if target = 0xFF then
    let asleep := g.level = 2 && (s.bench g.bench).asleep
    if g.level = 0 || asleep || (g.level ≠ 3 && !pf0Observable addr) then (stDenied, 0, s)
    else if addr % 4 ≠ 0 || 0x10000 ≤ addr then (stError, 0, s)
    else (stOk, s.pf0Read addr, s)
  else if h : target.toNat < 8 then
    let b : BenchNo := ⟨target.toNat, h⟩
    let watch (ok : Nat → Bool) : Nat × Word × State :=
      match regOffset addr with
      | none => (stDenied, 0, s)
      | some o =>
        if !ok o then (stDenied, 0, s)
        else
          let (v, B) := (s.bench b).regRead .dmc o
          (stOk, v, if o = 0x310000 then s.setBench b B else s)
    let all (on : Bool) : Nat × Word × State :=
      match regOffset addr with
      | none => (if on then stDenied else stError, 0, s)
      | some o =>
        if on && !alwaysOn o then (stDenied, 0, s)
        else
          let B := s.bench b
          let (v, B) := (if on then B else B.idleExit).regRead .dmc o
          (stOk, v, s.setBench b B)
    match s.reach b with
    | .none => (stDenied, 0, s)
    | .observe => watch observable
    | .observeOn => watch alwaysOn
    | .halt | .full => all false
    | .fullOn => all true
  else (if g.level = 0 then stDenied else stError, 0, s)

/-- REG_WR. -/
def State.dbgRegWr (s : State) (target : Byte) (addr : Nat) (v : Word) : Nat × Word × State :=
  let g := s.dev.dbg
  if target = 0xFF then
    if g.level ≠ 3 then (stDenied, 0, s)
    else if addr % 4 ≠ 0 || 0x10000 ≤ addr then (stError, 0, s)
    else (stOk, 0, s.pf0Write addr v)
  else if h : target.toNat < 8 then
    let b : BenchNo := ⟨target.toNat, h⟩
    match s.reach b, regOffset addr with
    | .halt, some o | .full, some o => (stOk, 0, s.setBench b ((s.bench b).idleExit.regWrite .dmc o v))
    | .halt, none | .full, none => (stError, 0, s)
    | .fullOn, some o => if alwaysOn o then (stOk, 0, s.setBench b ((s.bench b).regWrite .dmc o v)) else (stDenied, 0, s)
    | _, _ => (stDenied, 0, s)
  else (if g.level = 0 then stDenied else stError, 0, s)

/-- A command that HALT permits on its bench and FULL on every bench that is powered. -/
def State.dbgHalt (s : State) (target : Byte) (f : Bench → Nat × Word × Bench) : Nat × Word × State :=
  if h : target.toNat < 8 then
    let b : BenchNo := ⟨target.toNat, h⟩
    if s.reach b = .halt || s.reach b = .full then
      let (st, v, B) := f (s.bench b).idleExit
      (st, v, s.setBench b B)
    else (stDenied, 0, s)
  else (if s.dev.dbg.level = 3 then stError else stDenied, 0, s)

/-- MEM_RD: the filter judges it; poison is an error. -/
def Bench.dbgMemRd (B : Bench) (addr : Nat) : Nat × Word × Bench :=
  let ((l, bad), B) := B.unitRead midDmc 0 addr 4
  if bad.isSome then (stError, 0, B) else (stOk, BitVec.ofNat 32 (leNat l), B)
def Bench.dbgMemWr (B : Bench) (addr : Nat) (v : Word) : Nat × Word × Bench := (stOk, 0, B.unitWrite midDmc 0 addr (leBytes 4 v.toNat))

/-- A core by ADDR[4:0]. -/
def dbgCore (addr : Nat) : Option CoreNo := if h : addr % 32 < 17 then some ⟨addr % 32, h⟩ else none

def Bench.dbgRun (B : Bench) (addr : Nat) (f : Core → Nat × Core) : Nat × Word × Bench :=
  match dbgCore addr with
  | none => (stError, 0, B)
  | some k =>
    let (st, c) := f (B.core k)
    (st, 0, B.setCore k c)

/-! ### A core's state by ADDR[23:8] (R733) -/

/-- Word `w` of a capability; 4 is the tag. -/
def Cap.dbgWord (c : Cap) (w : Nat) : Word := if w = 4 then (if c.tag then 1 else 0) else BitVec.ofNat 32 (c.bits.toNat / 2 ^ (32 * w))
/-- Word `w` of a capability written: a word of data leaves plain data, and the tag can only be cleared (R64, R733). -/
def Cap.setDbgWord (c : Cap) (w : Nat) (v : Word) : Cap :=
  if w = 4 then (if v.getLsbD 0 then c else c.clearTag)
  else { tag := false, bits := BitVec.ofNat 128 (c.bits.toNat - c.bits.toNat / 2 ^ (32 * w) % 2 ^ 32 * 2 ^ (32 * w) + v.toNat * 2 ^ (32 * w)) }

inductive DbgElem where
  | x (k : Nat) | c (k w : Nat) | pcc (w : Nat) | sel (n : Nat) | d (k w : Nat) | sysX (n w : Nat) | sysC (n w : Nat)
  deriving DecidableEq, Repr

def dbgElem (a : Nat) : Option DbgElem :=
  if a < 0x20 then some (.x a)
  else if 0x100 ≤ a && a < 0x208 && a % 8 ≤ 4 then
    let k := (a - 0x100) / 8
    some (if k = 32 then .pcc (a % 8) else .c k (a % 8))
  else if 0x300 ≤ a && a < 0x304 then some (.sel (a - 0x300))
  else if 0x400 ≤ a && a < 0x440 then some (.d ((a - 0x400) / 4) (a % 4))
  else if 0x1000 ≤ a && a < 0x5000 then
    let n := (a - 0x1000) / 8
    let w := a % 8
    if xSysListed n && (w = 0 || (w = 1 && n = 0x011)) then some (.sysX n w)
    else if cSysListed n && w ≤ 4 then some (.sysC n w)
    else none
  else none

/-- Run a computation of the strand of bank `bk`, which does not fault on a listed element. -/
def Bench.dbgM {α : Type} (B : Bench) (d : α) (m : M α) : α × Bench :=
  match m B with
  | .ok v B => (v, B)
  | .error _ B => (d, B)

def Bench.dbgRead (B : Bench) (k : CoreNo) (bk : BankNo) (e : DbgElem) : Word × Bench :=
  let s := B.bank k bk
  let σ : Strand := { core := k, bank := bk, word := 0 }
  match e with
  | .x i => (s.getX (Fin.ofNat 32 i), B)
  | .c i w => ((s.getC (Fin.ofNat 32 i)).dbgWord w, B)
  | .pcc w => (s.pcc.dbgWord w, B)
  | .sel n => (s.selRead n, B)
  | .d i w => ((s.getD (Fin.ofNat 16 i)).extractLsb' (32 * w) 32, B)
  | .sysX n w => if w = 1 then (s.etval.extractLsb' 32 32, B) else B.dbgM 0 (readSysX σ n)
  | .sysC n w =>
    let (v, B) := B.dbgM Cap.null (readSysC σ n)
    (v.dbgWord w, B)

/-- A c-class system register takes a value; locks hold (R9, R200). -/
def Bench.dbgSetSysC (B : Bench) (k : CoreNo) (bk : BankNo) (n : Nat) (v : Cap) : Bench :=
  let setB (f : Bank → Bank) : Bench := B.modBank k bk f
  match n with
  | 0x402 => B.modCore k fun c => if c.escLock then c else { c with escPcc := v }
  | 0x403 => B.modCore k fun c => if c.escLock then c else { c with escCsp := v }
  | 0x40B => setB fun s => { s with last := v }
  | n => (B.dbgM () (writeSysC { core := k, bank := bk, word := 0 } n v)).2

def Bench.dbgWrite (B : Bench) (k : CoreNo) (bk : BankNo) (e : DbgElem) (v : Word) : Bench :=
  let σ : Strand := { core := k, bank := bk, word := 0 }
  let setB (f : Bank → Bank) : Bench := B.modBank k bk f
  match e with
  | .x i => setB fun s => s.setX (Fin.ofNat 32 i) v
  | .c i w => setB fun s => s.setC (Fin.ofNat 32 i) ((s.getC (Fin.ofNat 32 i)).setDbgWord w v)
  | .pcc w => setB fun s => { s with pcc := s.pcc.setDbgWord w v }
  | .sel n => setB fun s => s.selWrite n v
  | .d i w =>
    setB fun s =>
      let q := (s.getD (Fin.ofNat 16 i)).toNat
      s.setD (Fin.ofNat 16 i) (BitVec.ofNat 128 (q - q / 2 ^ (32 * w) % 2 ^ 32 * 2 ^ (32 * w) + v.toNat * 2 ^ (32 * w)))
  | .sysX n w =>
    if n = 0x011 then
      setB fun s => { s with etval := if w = 1 then v ++ s.etval.extractLsb' 0 32 else s.etval.extractLsb' 32 32 ++ v }
    else (B.dbgM () (writeSysX σ n v)).2
  | .sysC n w =>
    let (c, B) := B.dbgM Cap.null (readSysC σ n)
    B.dbgSetSysC k bk n (c.setDbgWord w v)

/-- STATE_RD and STATE_WR: on a halted core, else BUSY. -/
def Bench.dbgState (B : Bench) (addr : Nat) (f : CoreNo → BankNo → DbgElem → Word × Bench) : Nat × Word × Bench :=
  match dbgCore addr, dbgElem (addr / 256 % 65536) with
  | some k, some e =>
    let bk : BankNo := Fin.ofNat 8 (addr / 32)
    if k = bsc && bk ≠ 0 && bk ≠ 7 then (stError, 0, B)
    else if !(B.core k).dbgHalted then (stBusy, 0, B)
    else
      let (v, B) := f k bk e
      (stOk, v, B)
  | _, _ => (stError, 0, B)

end Sys2Proof.Machine
end

