-- ==== Sys2Proof/Machine/MbxRows.lean ====
section
/-!
DEFINITION. Machine/MbxRows.lean: the commands of the DMC mailbox, the SPDM responder and the host link (R439 to R447, R654 to R657,
R665 to R672, R680, R685, R713, R717, R722 to R725, R763).
-/

namespace Sys2Proof.Machine

/-! ## Ceremonies and epoch advances -/

/-- A ceremony command on the bench that its byte `at'` names, of a fixed length: it waits while the journal has no room for `n` records. -/
def State.ceremony (s : State) (op len n : Nat) (f : State → BenchNo → Profile → List Byte → State × Nat × List Byte) : Out :=
  if !s.mbxRuns op none then .next s
  else
    let l := s.dev.mbx.request
    if l.length ≠ len then .next (s.mbxEnd 2 [])
    else
      match s.namedBench (bnum l 0 1) with
      | none => .next (s.mbxEnd 5 [])
      | some b =>
        match s.dev.committed.bind (·.profile) with
        | none => .next (s.mbxEnd 3 [])
        | some p =>
          if (s.bench b).alive && !(s.bench b).jrnRoom n then .next s
          else
            let (s, r, resp) := f s b p l
            .next (s.mbxEnd r resp)

/-- CER_OPEN (R439, R440, R749). -/
def State.cerOpen (s : State) (b : BenchNo) (_ : Profile) (l : List Byte) : State × Nat × List Byte :=
  if s.dev.tamper.tampered then (s, 3, [])
  else
    let nonce := (l.drop 4).take 32
    let check := if bnum l 36 1 % 2 = 1 then some ((l.drop 37).take 5) else none
    match (s.bench b).idleExit.cerOpen nonce check with
    | (none, B) => (s.setBench b B, 3, [])
    | (some (x, ek), B) =>
      let s := s.setBench b B
      let (resp, s) := s.attest "KX8112 COP"
        (leBytes 2 1 ++ [BitVec.ofNat 8 b.val, B.ctl.epoch.zeroExtend 8] ++ nonce ++ serial ++ x ++ ek) false
      (s, 0, resp)

def execCerOpen (s : State) : Out := s.ceremony 0x20 48 1 State.cerOpen

/-- CER_SHARE (R440 to R443). -/
def State.cerShare (s : State) (b : BenchNo) (p : Profile) (l : List Byte) : State × Nat × List Byte :=
  let B := s.bench b
  match B.vault.ceremony with
  | none => (s, 3, [])
  | some c =>
    let (resp, B) := B.idleExit.cerShare p c ((l.drop 16).take 4616) ((l.drop 4632).take 97) ((l.drop 4729).take 1952)
    (s.setBench b B, 0, resp)

def execCerShare (s : State) : Out := s.ceremony 0x21 6681 2 State.cerShare

/-- CER_ABORT (R440, R445). -/
def State.cerAbort (s : State) (b : BenchNo) (_ : Profile) (_ : List Byte) : State × Nat × List Byte :=
  let B := s.bench b
  if B.vault.ceremony.isNone then (s, 3, []) else (s.setBench b (B.idleExit.cerEnd true), 0, [])

def execCerAbort (s : State) : Out := s.ceremony 0x22 4 1 State.cerAbort

/-- EPOCH_ADVANCE OPEN (R447). -/
def State.epochOpen (s : State) (l : List Byte) : State × Nat × List Byte :=
  if l.length ≠ 4 then (s, 2, [])
  else
    match s.dev.committed.bind (·.profile) with
    | none => (s, 3, [])
    | some p =>
      if 64 ≤ s.dev.fuses.epoch then (s, 3, [])
      else
        let (n, s) := s.draw 32
        ({ s with dev := { s.dev with epochAdv := some { nonce := n, signed := [], since := s.dev.elapsed } } }, 0,
          n ++ serial ++ [BitVec.ofNat 8 s.dev.fuses.epoch, BitVec.ofNat 8 p.quorum, BitVec.ofNat 8 p.custodians.length, 0])

def execEpochAdvanceOpen (s : State) : Out := s.mbx 0x23 (some 1) State.epochOpen

/-- EPOCH_ADVANCE SIGN (R447); it waits while a bench's journal has no room for the EPOCH record. -/
def execEpochAdvanceSign (s : State) : Out :=
  if s.benches.toList.any fun B => B.alive && !B.jrnRoom 1 then .next s
  else
    s.mbx 0x23 (some 2) fun s l =>
      if l.length ≠ 5524 then (s, 2, [])
      else
        match s.dev.committed.bind (·.profile), s.dev.epochAdv with
        | some p, some a => s.epochSign p a l
        | _, _ => (s, 3, [])

/-- EPOCH_ADVANCE CANCEL (R447). -/
def execEpochAdvanceCancel (s : State) : Out :=
  s.mbx 0x23 (some 3) fun s l =>
    if l.length ≠ 4 then (s, 2, [])
    else if s.dev.epochAdv.isNone then (s, 3, [])
    else ({ s with dev := { s.dev with epochAdv := none } }, 0, [])

/-- R447: the ceremony timeout of the profile has passed since OPEN. -/
def execEpochAdvanceTimeout (s : State) : Out :=
  match s.dev.epochAdv, s.dev.committed.bind (·.profile) with
  | some a, some p =>
    if s.dev.elapsed - a.since < p.timeout * 1000000 then .next s else .next { s with dev := { s.dev with epochAdv := none } }
  | _, _ => .next s

/-! ## Reports -/

def execGetInfo (s : State) : Out := s.mbx 0x01 none fun s l => if l.length ≠ 0 then (s, 2, []) else (s, 0, s.info)
def execFuseReport (s : State) : Out := s.mbx 0x13 none fun s _ => (s, 0, s.dev.fuseReport)
def execAttestPq (s : State) : Out :=
  s.mbx 0x30 none fun s l =>
    if l.length ≠ 32 then (s, 2, [])
    else
      let (r, s) := s.attestPq l
      (s, 0, r)
/-- R763: the state first, then the length. -/
def execRmaReport (s : State) : Out :=
  s.mbx 0x41 none fun s l =>
    if s.dev.fuses.lifecycle ≠ 3 && s.dev.fuses.lifecycle ≠ 4 then (s, 3, [])
    else if l.length ≠ 32 then (s, 2, [])
    else
      let (r, s) := s.rmaReport l
      (s, 0, r)

/-! ## Resets and holds (R685) -/

/-- An action on the bench of byte 1. -/
def State.benchAction (s : State) (action : Nat) (f : State → BenchNo → State × Nat × List Byte) : Out :=
  s.mbx 0x02 (some action) fun s l =>
    if l.length < 2 then (s, 2, [])
    else if h : bnum l 1 1 < 8 then f s ⟨bnum l 1 1, h⟩
    else (s, 5, [])

def State.mbxBenchReset (s : State) (b : BenchNo) : State := s.setBench b ((s.bench b).requestReset 0x12 2)
def State.setHold (s : State) (b : BenchNo) (v : Bool) : State :=
  let bit : Byte := BitVec.ofNat 8 (2 ^ b.val)
  { s with dev := { s.dev with holdReq := if v then s.dev.holdReq ||| bit else s.dev.holdReq &&& ~~~bit } }

def execBenchReset (s : State) : Out := s.benchAction 1 fun s b => (s.mbxBenchReset b, 0, [])
def execBenchHold (s : State) : Out := s.benchAction 2 fun s b => ((s.mbxBenchReset b).setHold b true, 0, [])
/-- R685, R694, R721. -/
def execBenchRelease (s : State) : Out :=
  s.benchAction 3 fun s b =>
    if !s.dev.held b || !s.dev.enabled.getLsbD b.val || s.dev.fuses.lifecycle = 3 then (s, 3, [])
    else (s.setHold b false, 0, [])
def execDeviceReset (s : State) : Out :=
  s.mbx 0x02 (some 0x10) fun s l => if l.length < 2 then (s, 2, []) else (s.softReset, 0, [])

/-! ## Staging -/

def execStageBegin (s : State) : Out := s.mbx 0x10 none State.stageBegin
def execStageWrite (s : State) : Out := s.mbx 0x11 none State.stageWrite
def execStageFinish (reads writes : Bool) (s : State) : Out := s.mbx 0x12 none fun s l => s.stageFinish reads writes l

/-! ## The lifecycle -/

/-- R722. -/
def execLifecycleNonce (s : State) : Out :=
  s.mbx 0x40 (some 1) fun s l =>
    if l.length < 4 || bnum l 1 1 ≠ 0 || bnum l 2 2 ≠ 0 then (s, 3, [])
    else
      let (n, s) := s.draw 32
      ({ s with dev := { s.dev with nonce := some n } }, 0, n ++ serial)

/-- A change of state ends any debug session once the command has completed (R735). -/
def State.afterLifecycle (s : State) (before : Nat) : State := if s.dev.fuses.lifecycle = before then s else s.endSession

def State.lifecycle (s : State) (sub : Nat) (f : State → List Byte → State × Nat × List Byte) : Out :=
  if s.mbxRuns 0x40 (some sub) then
    let before := s.dev.fuses.lifecycle
    let (s, r, l) := f s s.dev.mbx.request
    .next ((s.mbxEnd r l).afterLifecycle before)
  else .next s

def execLifecycleAdvance (s : State) : Out := s.lifecycle 2 State.lifecycleAdvance
def execLifecycleConfirm (s : State) : Out := s.lifecycle 3 State.lifecycleConfirm
def execLifecycleDebugcred (s : State) : Out := s.lifecycle 4 State.lifecycleDebugcred
def execTamperClear (s : State) : Out := s.lifecycle 5 State.tamperClear

/-! ## The host link and functions -/

/-- R656. -/
def execFunctionLevelReset (f : Fin 9) (s : State) : Out :=
  if s.dev.link.isNone then .next s
  else if h : f.val = 0 then .next { s with dev := { s.dev with mbx := Mailbox.zero } }
  else
    s.onBench ⟨f.val - 1, by omega⟩ fun B => if B.alive then B.flr else { B with hwin := [], hq := { B.hq with msix := [] } }

/-- R680: HOST_PERST_N falls or rises. -/
def execHostPerst (low : Bool) (s : State) : Out :=
  let d := s.dev
  if d.perst = low then .next s
  else
    let n := if low && !d.inPor then sat16 d.hostrst else d.hostrst
    let s := s.setDev { d with perst := low, hostrst := n }
    if low then .next ({ s with dev := { s.dev with spdm := Spdm.zero } }).linkDown else .next s

/-- R652, R657, R701: the link trains, within the ceilings, or goes down. -/
def execHostLinkChange (up : Bool) (rate : Fin 6) (lanes : Fin 17) (s : State) : Out :=
  let d := s.dev
  if !up then (if d.link.isSome then .next s.linkDown else .next s)
  else if d.link.isSome || !d.phyUp || !d.pcieUp || d.perst || !([1, 2, 4, 8, 16].contains lanes.val) then .next s
  else
    let c := d.ceiling
    .next (s.linkUp { rate := if c.rate < rate then c.rate else rate, lanes := if c.lanes < lanes then c.lanes else lanes })

/-- R657. -/
def execHostWindowTimeout (b : BenchNo) (s : State) : Out := s.onAlive b fun B => if B.hostUp then B.raise 678 else B

/-- R654, R694: the host reads or writes through BAR2. -/
def execHostInboundAccess (b : BenchNo) (addr : BitVec 37) (acc : HostAccess) (s : State) : Out :=
  if s.dev.link.isNone then .next s
  else
    let B := s.bench b
    let live := B.alive && !B.asleep && !s.dev.held b
    match acc with
    | .read n =>
      if !live then .next (s.emit (.hostRead (zeros n.toNat) false))
      else
        let ((l, bad), B) := B.idleExit.unitRead midHost 0 addr.toNat (min n.toNat (2 ^ 37 - addr.toNat))
        .next ((s.setBench b B).emit (.hostRead l bad.isSome))
    | .write l =>
      if !live then .next s
      else .next (s.setBench b (B.idleExit.unitWrite midHost 0 addr.toNat (l.take (2 ^ 37 - addr.toNat))))

/-- A write to the host view of a bench (R57, R665). -/
def Bench.hostViewWrite (B : Bench) (o : Nat) (v : Word) : Bench :=
  if o = 0x10 then B.ustateWrite 0 v
  else if 0x400 ≤ o && o < 0x800 then B.ustateWrite (32 + (o - 0x400) / 4) v
  else if o = 0x118 || o = 0x11C then B.jrnWrite (0x300070 + (o - 0x118)) v
  else B.hostWrite4 o v

end Sys2Proof.Machine
end

