-- ==== Sys2Proof/Machine/DevRows.lean ====
section
/-!
DEFINITION. Machine/DevRows.lean: power-on, resets and release of the device and its benches, the TAP and debug access, tamper, and
register writes that have no row of their own (R9, R674 to R708, R726 to R735, R744 to R749, R753, R771 to R775).
-/

namespace Sys2Proof.Machine

/-! ## Power, pins and clocks -/

/-- R771: PWROK rises. -/
def execPwrokRise (s : State) : Out :=
  if s.dev.pwrok then .next s else .next (s.setDev { s.dev with pwrok := true, phase := .aonWait })

/-- Where release begins: at fuse sense, or at the rise of RESET_N (R679). -/
def State.beginRelease (s : State) : State := s.setDev { s.dev with phase := if s.dev.resetN then .fuse else .pinHold }

def execAonDomainValid (s : State) : Out := .next (if s.dev.phase = .aonWait then s.beginRelease else s)
/-- R772: PWROK falls. -/
def execPowerOnReset (s : State) : Out :=
  if !s.dev.pwrok then .next s else .next ((s.porReset .por).setDev { (s.porReset .por).dev with pwrok := false })
/-- R774. -/
def execBrownOut (s : State) : Out := if !s.dev.pwrok then .next s else .next (s.porReset .aonWait)

/-- R678, R679: a filtered low of RESET_N. -/
def execResetNPulse (s : State) : Out :=
  if !s.dev.resetN then .next s else .next ((s.setDev { s.dev with resetN := false }).deviceReset 2 false)
def execResetNRise (s : State) : Out :=
  if s.dev.resetN then .next s
  else
    let s := s.setDev { s.dev with resetN := true }
    .next (if s.dev.phase = .pinHold then s.beginRelease else s)

def execDeviceWatchdogExpiry (s : State) : Out := .next (if s.dev.dmcRuns then s.deviceReset 3 false else s)
/-- R674, R685: a request of DMC firmware, or one that was scheduled and whose time has come. -/
def execDeviceSoftReset (s : State) : Out :=
  let due := match s.dev.softDue with
    | some t => decide (t ≤ s.dev.elapsed)
    | none => true
  .next (if s.dev.dmcRuns && due then s.deviceReset 4 false else s)
/-- R681; `armed` where the clock had been valid for 1 ms after the release of the PHY. -/
def execHostClockLoss (armed : Bool) (s : State) : Out := .next (if armed && s.dev.phyUp then s.deviceReset 6 false else s)
def execAonClockLoss (s : State) : Out := .next (if s.dev.phase = .aonLost then s else s.deviceReset 7 true)
def execAonClockRecovery (s : State) : Out := .next (if s.dev.phase = .aonLost then s.beginRelease else s)
def execDmcLockup (s : State) : Out := .next (if s.dev.dmcRuns then s.deviceReset 8 false else s)

/-- Bytes of a line that a clock failure lost: what memory held before is not known to the model. -/
def Bench.loseLine (B : Bench) (line : Nat) : Bench :=
  if paType (line * 64) ≠ .normal then B
  else
    let (l, B) := drawBytes 64 B
    { B with mem := l.zipIdx.foldl (fun (m : Mem) e => m.setByte (line * 64 + e.2) e.1) B.mem }

/-- R675, R681, R687: bench `b`'s reference clock fails; `lost` names the dirty lines that only the caches held. -/
def execBenchClockLoss (b : BenchNo) (lost : List (BitVec 34)) (s : State) : Out :=
  s.onBench b fun B =>
    if !B.rst.clockOk || s.dev.inPor then B
    else
      let B := if B.alive then lost.foldl (fun B l => B.loseLine l.toNat) B else B
      ({ B with rst := { B.rst with clockOk := false }, time := B.time.clockFailed }).requestReset 0x14 0
def execBenchClockRecovery (b : BenchNo) (s : State) : Out := s.onBench b fun B => { B with rst := { B.rst with clockOk := true } }

/-- R686, R688. -/
def execBenchResetEntry (b : BenchNo) (s : State) : Out :=
  s.onBench b fun B =>
    match B.rst.due with
    | some c => B.resetEntry c
    | none => B

/-! ## The release sequence (R692 to R708) -/

/-- R716, R724: the fuses are sensed; log entries that are missing and a step that was interrupted are made. -/
def State.senseFuses (s : State) : State :=
  let s := s.setDev { s.dev with fuses := s.dev.fuses.logMissing, phase := .dmc }
  if s.dev.fuses.lifecycle = 1 && digestSet (s.dev.fuses.roots.toList.headD []) then s.fuseStep 1 2 else s

def execFuseSense (s : State) : Out := .next (if s.dev.phase = .fuse then s.senseFuses else s)

/-- R448, R692, R768: the DMC leaves its boot ROM, compares the epoch copies and takes over VDD_CORE. -/
def execDmcRelease (s : State) : Out :=
  if s.dev.phase ≠ .dmc || s.dev.dmcStopped then .next s
  else
    let p := s.dev.pkg
    let s := s.setDev { s.dev with phase := .bootcfg, pkg := { p with adapting := true, mv := if p.mv = 0 then 800 else p.mv } }
    .next (s.allBenches fun B => B.epochCheck s.dev.fuses.epoch)

/-- R698 to R701, R704: the sixteen conversions. -/
def execBootcfgSampling (rs : Vector Byte 16) (s : State) : Out :=
  if s.dev.phase ≠ .bootcfg || s.dev.dmcStopped then .next s
  else
    let (code, ambig) := takeCode rs
    let d : Device := { s.dev with code := code, ambig := ambig }
    let c : BitVec 4 := d.bootCode
    .next (s.setDev (if c = 14#4 then { d with phase := .dmcHold, dmcStopped := true } else { d with phase := .loading, holdReq := codeHold c }))

/-- R703, R706 to R708, R710; `ok` names the slots of which every read completes. -/
def execOptionLoading (ok : BitVec 3) (s : State) : Out :=
  .next (if s.dev.phase = .loading && !s.dev.dmcStopped then s.setDev (s.dev.loadOptions ok) else s)

def execImageCommit (s : State) : Out :=
  match s.dev.staged with
  | some img => .next (if s.dev.phase = .loaded && !s.dev.dmcStopped then s.commit img else s)
  | none => .next s

def execHostPhyRelease (s : State) : Out :=
  .next (if s.dev.phase = .phy then s.setDev { s.dev with phase := .pcie, phyUp := true } else s)
def execPcieControllerRelease (s : State) : Out :=
  .next (if s.dev.phase = .pcie then s.setDev { s.dev with phase := .benches 0, pcieUp := true } else s)

/-- R692, R693: the step of bench `b`, or its release after a reset of its own. -/
def execBenchResetRelease (b : BenchNo) (s : State) : Out :=
  match s.dev.phase with
  | .benches n =>
    if n.val = b.val then
      .next (s.setDev { s.dev with phase := .benches ⟨b.val + 1, by omega⟩ } |>.releaseBench b)
    else .next (if b.val < n.val then s.releaseBench b else s)
  | _ => .next s

/-- R398, R515, R695; `fails` names the engines whose known-answer tests failed. -/
def execTagClearComplete (b : BenchNo) (fails : BitVec 14) (s : State) : Out := s.onAlive b fun B => B.tagClearDone fails
def execSupervisorFirstFetch (b : BenchNo) (s : State) : Out := s.onAlive b Bench.firstFetch

/-! ## The TAP -/

/-- A TAP command: the fuses have been sensed (R726). -/
def State.tap (s : State) (ir : Byte) (f : State → State) : Out := .next (if s.dev.sensed then f (s.tapIr ir) else s)

def execBypass (s : State) : Out := s.tap irBypass fun s => s.emit (.tap 1 0)
def execIdcode (s : State) : Out := s.tap irIdcode fun s => s.emit (.tap 32 s.dev.idcode)
def execSamplePreload (s : State) : Out := s.tap 0x02 fun s => s
def execExtest (s : State) : Out := s.tap 0x03 fun s => s
def execClamp (s : State) : Out := s.tap 0x04 fun s => s
def execHighz (s : State) : Out := s.tap 0x05 fun s => s
def execDbgChal (s : State) : Out := s.tap 0x10 State.challenge
def execDbgResp (resp : List Byte) (s : State) : Out := s.tap 0x11 fun s => s.respond resp
def execDbgClose (s : State) : Out := s.tap 0x13 State.endSession
def execTestLogicReset (s : State) : Out := s.tap irIdcode State.endSession
def execDebugValidityExpiry (s : State) : Out :=
  .next (if s.dev.dbg.level ≠ 0 && s.dev.dbg.validUntil ≤ s.dev.elapsed then s.endSession else s)

def execRegRd (target : Byte) (addr : BitVec 48) (s : State) : Out := s.dbgAccess fun s => s.dbgRegRd target addr.toNat
def execRegWr (target : Byte) (addr : BitVec 48) (v : Word) (s : State) : Out := s.dbgAccess fun s => s.dbgRegWr target addr.toNat v
def execMemRd (target : Byte) (addr : BitVec 48) (s : State) : Out := s.dbgAccess fun s => s.dbgHalt target fun B => B.dbgMemRd addr.toNat
def execMemWr (target : Byte) (addr : BitVec 48) (v : Word) (s : State) : Out :=
  s.dbgAccess fun s => s.dbgHalt target fun B => B.dbgMemWr addr.toNat v
def execCoreHalt (target : Byte) (addr : BitVec 48) (s : State) : Out :=
  s.dbgAccess fun s => s.dbgHalt target fun B => B.dbgRun addr.toNat fun c => (stOk, { c with dbgHalted := true, stepOne := false })
def execCoreRun (target : Byte) (addr : BitVec 48) (s : State) : Out :=
  s.dbgAccess fun s => s.dbgHalt target fun B => B.dbgRun addr.toNat fun c => (stOk, { c with dbgHalted := false, stepOne := false })
/-- STEP lets a halted core execute one instruction. -/
def execCoreStep (target : Byte) (addr : BitVec 48) (s : State) : Out :=
  s.dbgAccess fun s => s.dbgHalt target fun B => B.dbgRun addr.toNat fun c =>
    if c.dbgHalted then (stOk, { c with stepOne := true }) else (stBusy, c)
def execStateRd (target : Byte) (addr : BitVec 48) (s : State) : Out :=
  s.dbgAccess fun s => s.dbgHalt target fun B => B.dbgState addr.toNat fun k bk e => B.dbgRead k bk e
def execStateWr (target : Byte) (addr : BitVec 48) (v : Word) (s : State) : Out :=
  s.dbgAccess fun s => s.dbgHalt target fun B => B.dbgState addr.toNat fun k bk e => (0, B.dbgWrite k bk e v)

/-! ## Tamper, heat and the battery -/

/-- R744: an enabled pair trips. -/
def execMeshTrip (pair : Fin 4) (s : State) : Out :=
  .next (if s.dev.tamper.mesh.getLsbD pair.val then s.tamperTrip ⟨pair.val, by omega⟩ else s)
/-- R745, R774: a supply glitch 0, the temperature 1, a clock glitch 2, the die shield 3. Supplies are judged only while PWROK is high. -/
def execSensorTrip (src : Fin 4) (s : State) : Out :=
  .next (if src = 0 && !s.dev.pwrok then s else s.tamperTrip ⟨4 + src.val, by omega⟩)
def execTamperSourceRestore (src : Fin 8) (s : State) : Out :=
  let t := s.dev.tamper
  .next (s.setTamper { t with live := t.live &&& ~~~(BitVec.ofNat 8 (2 ^ src.val)) })
/-- R775. -/
def execVbatChangeover (toVbat : Bool) (s : State) : Out :=
  .next (s.setDev { s.dev with tamper := { s.dev.tamper with onVbat := toVbat } })
/-- R760, R775: the VBAT domain is lost while it is what supplies the circuits. -/
def execVbatLoss (s : State) : Out :=
  if !s.dev.tamper.onVbat then .next s
  else
    let s := s.setTamper { Tamper.zero with onVbat := true }
    .next (s.allBenches fun B => { B.eraseBbram with jrn := { B.jrn with tamperRec := false } })

/-- R753, R791: every clock of the device stops until POR. -/
def execThermtrip (s : State) : Out :=
  if s.dev.inPor then .next s
  else
    let s := s.closeSession
    let s := s.setDev { s.dev with phase := .por, link := none, pkg := { s.dev.pkg with thermtrip := true } }
    .next ((s.allBenches fun B => { B with hostUp := false, rst := { B.rst with released := false } }).emit .thermtrip)

/-! ## Registers without a row of their own (R9 to R13) -/

/-- Unaligned writes have no effect (R13). -/
def execRegisterWrite (t : RegTarget) (off : BitVec 37) (v : Word) (s : State) : Out :=
  let o := off.toNat
  if o % 4 ≠ 0 then .next s
  else
    match t with
    | .bench b w => s.bus b w o v
    | .host b =>
      if s.dev.link.isNone || s.dev.held b then .next s
      else s.onBench b fun B => if B.alive && !B.asleep then B.idleExit.hostViewWrite o v else B
    | .pf0 => .next (if s.dev.link.isSome then s.pf0Write o v else s)

/-! ## Time -/

/-- A microsecond passes for a bench whose reference clock runs (R569, R682). -/
def Bench.tick (B : Bench) : Bench := if B.rst.clockOk then B.setTime B.nextTime else B

/-- A microsecond passes: nothing counts while the device is held in POR or its clocks are stopped (R753, R772). -/
def State.tick (s : State) : State :=
  if s.dev.inPor then s else (s.setDev { s.dev with elapsed := s.dev.elapsed + 1 }).allBenches Bench.tick

end Sys2Proof.Machine
end

