-- ==== Sys2Proof/Machine/Alu.lean ====
section
/-!
DEFINITION. Machine/Alu.lean: the integer group, majors 0x00 to 0x09 (R179 to R183).
-/

namespace Sys2Proof.Machine

/-! ## Operations -/

def aluClz (a : Word) : Word := BitVec.ofNat 32 (32 - (if a = 0 then 0 else Nat.log2 a.toNat + 1))
/-- The trailing zeros of a number's low `n` bits. -/
def ctzNat : Nat → Nat → Nat
  | 0, _ => 0
  | n + 1, a => if a % 2 = 1 then 0 else ctzNat n (a / 2) + 1
def aluCtz (a : Word) : Word := BitVec.ofNat 32 (ctzNat 32 a.toNat)
/-- The 1 bits among a number's low `n` bits. -/
def popNat : Nat → Nat → Nat
  | 0, _ => 0
  | n + 1, a => a % 2 + popNat n (a / 2)
def aluPopc (a : Word) : Word := BitVec.ofNat 32 (popNat 32 a.toNat)
def aluBswap (a : Word) : Word :=
  a.extractLsb' 0 8 ++ a.extractLsb' 8 8 ++ a.extractLsb' 16 8 ++ a.extractLsb' 24 8
def aluMulh (a b : Word) : Word := ((a.signExtend 64 * b.signExtend 64 : Dword) >>> 32).truncate 32
def aluMulhu (a b : Word) : Word := ((a.zeroExtend 64 * b.zeroExtend 64 : Dword) >>> 32).truncate 32
def aluMulhsu (a b : Word) : Word := ((a.signExtend 64 * b.zeroExtend 64 : Dword) >>> 32).truncate 32
/-- Signed quotient toward zero; a zero divisor gives all ones (R180). -/
def aluDiv (a b : Word) : Word := if b = 0 then 0xFFFFFFFF else BitVec.ofInt 32 (a.toInt.tdiv b.toInt)
def aluDivu (a b : Word) : Word := if b = 0 then 0xFFFFFFFF else a / b
def aluRem (a b : Word) : Word := if b = 0 then a else BitVec.ofInt 32 (a.toInt.tmod b.toInt)
def aluRemu (a b : Word) : Word := if b = 0 then a else a % b
/-- A shift amount of [4:0]. -/
def sh5 (b : Word) : Nat := b.toNat % 32
def aluMin (a b : Word) : Word := if a.slt b then a else b
def aluMax (a b : Word) : Word := if a.slt b then b else a
def aluMinu (a b : Word) : Word := if a.ult b then a else b
def aluMaxu (a b : Word) : Word := if a.ult b then b else a

/-- CRC polynomials (R183). -/
def crcPoly (poly : Fin 3) : Word := if poly = 0 then 0xEDB88320 else if poly = 1 then 0x82F63B78 else 0x8408
def crcBits (p : Word) : Nat → Word → Word
  | 0, c => c
  | n + 1, c => crcBits p n (if c.getLsbD 0 then (c >>> 1) ^^^ p else c >>> 1)
/-- One byte folded into a CRC (R183). -/
def crcByte (poly : Fin 3) (crc : Word) (b : Byte) : Word := crcBits (crcPoly poly) 8 (crc ^^^ b.zeroExtend 32)
/-- The accumulator a step starts from: CRC-16 uses the low half-word (R183). -/
def crcStart (poly : Fin 3) (w : Word) : Word := if poly = 2 then w &&& 0xFFFF else w

/-! ## Bodies shared by the plain and the repeated forms -/

def bodyMac (rd rs1 rs2 : Reg) : Strand → M (Option Cap) :=
  plain fun s => s.setX rd (s.getX rd + s.getX rs1 * s.getX rs2)

/-- A byte at the cursor of c[cs1] under the checks of a load; the cursor is the caller's to move. -/
def cursorByte (σ : Strand) (cs1 : Reg) : M Byte := do
  let c ← M.getC σ cs1
  let v ← M.load σ c c.cursor 1
  pure (v.headD 0)

def bodyMacb (rd cs1 rs2 : Reg) (σ : Strand) : M (Option Cap) := do
  let b ← cursorByte σ cs1
  M.mod fun B => B.modBank σ.core σ.bank fun s =>
    let s' := s.setX rd (s.getX rd + b.zeroExtend 32 * s.getX rs2)
    s'.setC cs1 ((s.getC cs1).bump 1)
  pure none

def bodyCrcb (poly : Fin 3) (rd rs1 : Reg) : Strand → M (Option Cap) :=
  plain fun s => s.setX rd (crcByte poly (crcStart poly (s.getX rd)) ((s.getX rs1).truncate 8))

def bodyCrcw (poly : Fin 3) (rd rs1 : Reg) : Strand → M (Option Cap) :=
  plain fun s =>
    let v := s.getX rs1
    s.setX rd ([0, 8, 16, 24].foldl (fun c i => crcByte poly c (v.extractLsb' i 8)) (crcStart poly (s.getX rd)))

def bodyCrcbPi (poly : Fin 3) (rd cs1 : Reg) (σ : Strand) : M (Option Cap) := do
  let b ← cursorByte σ cs1
  M.mod fun B => B.modBank σ.core σ.bank fun s =>
    let s' := s.setX rd (crcByte poly (crcStart poly (s.getX rd)) b)
    s'.setC cs1 ((s.getC cs1).bump 1)
  pure none

/-- An R-format operation of major 0x00. -/
def State.aluR (s : State) (x : Exec) (fn : Nat) (rd rs1 rs2 : Reg) (f : Word → Word → Word) : Out :=
  s.instr x (encR x.guard 0x00 rd.val rs1.val rs2.val fn) (plain fun k => k.setX rd (f (k.getX rs1) (k.getX rs2)))

/-- A unary operation of major 0x00. -/
def State.aluU (s : State) (x : Exec) (fn : Nat) (rd rs1 : Reg) (f : Word → Word) : Out :=
  s.instr x (encR x.guard 0x00 rd.val rs1.val 0 fn) (plain fun k => k.setX rd (f (k.getX rs1)))

/-- An I-format operation. -/
def State.aluI (s : State) (x : Exec) (major : Nat) (rd rs1 : Reg) (imm : BitVec 11) (f : Word → Word) : Out :=
  s.instr x (encI x.guard major rd.val rs1.val imm) (plain fun k => k.setX rd (f (k.getX rs1)))

/-! ## Meanings -/

def execAdd (x : Exec) (rd rs1 rs2 : Reg) (s : State) : Out := s.aluR x 0x00 rd rs1 rs2 ((· + ·))
def execSub (x : Exec) (rd rs1 rs2 : Reg) (s : State) : Out := s.aluR x 0x01 rd rs1 rs2 ((· - ·))
def execAnd (x : Exec) (rd rs1 rs2 : Reg) (s : State) : Out := s.aluR x 0x02 rd rs1 rs2 ((· &&& ·))
def execOr (x : Exec) (rd rs1 rs2 : Reg) (s : State) : Out := s.aluR x 0x03 rd rs1 rs2 ((· ||| ·))
def execXor (x : Exec) (rd rs1 rs2 : Reg) (s : State) : Out := s.aluR x 0x04 rd rs1 rs2 ((· ^^^ ·))
def execAndn (x : Exec) (rd rs1 rs2 : Reg) (s : State) : Out := s.aluR x 0x05 rd rs1 rs2 (fun a b => a &&& ~~~b)
def execOrn (x : Exec) (rd rs1 rs2 : Reg) (s : State) : Out := s.aluR x 0x06 rd rs1 rs2 (fun a b => a ||| ~~~b)
def execXnor (x : Exec) (rd rs1 rs2 : Reg) (s : State) : Out := s.aluR x 0x07 rd rs1 rs2 (fun a b => ~~~(a ^^^ b))
def execSll (x : Exec) (rd rs1 rs2 : Reg) (s : State) : Out := s.aluR x 0x08 rd rs1 rs2 (fun a b => a <<< sh5 b)
def execSrl (x : Exec) (rd rs1 rs2 : Reg) (s : State) : Out := s.aluR x 0x09 rd rs1 rs2 (fun a b => a >>> sh5 b)
def execSra (x : Exec) (rd rs1 rs2 : Reg) (s : State) : Out := s.aluR x 0x0A rd rs1 rs2 (fun a b => a.sshiftRight (sh5 b))
def execRol (x : Exec) (rd rs1 rs2 : Reg) (s : State) : Out := s.aluR x 0x0B rd rs1 rs2 (fun a b => a.rotateLeft (sh5 b))
def execRor (x : Exec) (rd rs1 rs2 : Reg) (s : State) : Out := s.aluR x 0x0C rd rs1 rs2 (fun a b => a.rotateRight (sh5 b))
def execMin (x : Exec) (rd rs1 rs2 : Reg) (s : State) : Out := s.aluR x 0x0D rd rs1 rs2 (aluMin)
def execMax (x : Exec) (rd rs1 rs2 : Reg) (s : State) : Out := s.aluR x 0x0E rd rs1 rs2 (aluMax)
def execMinu (x : Exec) (rd rs1 rs2 : Reg) (s : State) : Out := s.aluR x 0x0F rd rs1 rs2 (aluMinu)
def execMaxu (x : Exec) (rd rs1 rs2 : Reg) (s : State) : Out := s.aluR x 0x10 rd rs1 rs2 (aluMaxu)
def execMul (x : Exec) (rd rs1 rs2 : Reg) (s : State) : Out := s.aluR x 0x18 rd rs1 rs2 ((· * ·))
def execMulh (x : Exec) (rd rs1 rs2 : Reg) (s : State) : Out := s.aluR x 0x19 rd rs1 rs2 (aluMulh)
def execMulhu (x : Exec) (rd rs1 rs2 : Reg) (s : State) : Out := s.aluR x 0x1A rd rs1 rs2 (aluMulhu)
def execMulhsu (x : Exec) (rd rs1 rs2 : Reg) (s : State) : Out := s.aluR x 0x1B rd rs1 rs2 (aluMulhsu)
def execDiv (x : Exec) (rd rs1 rs2 : Reg) (s : State) : Out := s.aluR x 0x1C rd rs1 rs2 (aluDiv)
def execDivu (x : Exec) (rd rs1 rs2 : Reg) (s : State) : Out := s.aluR x 0x1D rd rs1 rs2 (aluDivu)
def execRem (x : Exec) (rd rs1 rs2 : Reg) (s : State) : Out := s.aluR x 0x1E rd rs1 rs2 (aluRem)
def execRemu (x : Exec) (rd rs1 rs2 : Reg) (s : State) : Out := s.aluR x 0x1F rd rs1 rs2 (aluRemu)
def execClz (x : Exec) (rd rs1 : Reg) (s : State) : Out := s.aluU x 0x11 rd rs1 (aluClz)
def execCtz (x : Exec) (rd rs1 : Reg) (s : State) : Out := s.aluU x 0x12 rd rs1 (aluCtz)
def execPopc (x : Exec) (rd rs1 : Reg) (s : State) : Out := s.aluU x 0x13 rd rs1 (aluPopc)
def execSextb (x : Exec) (rd rs1 : Reg) (s : State) : Out := s.aluU x 0x14 rd rs1 (fun a => (a.truncate 8).signExtend 32)
def execSexth (x : Exec) (rd rs1 : Reg) (s : State) : Out := s.aluU x 0x15 rd rs1 (fun a => (a.truncate 16).signExtend 32)
def execZexth (x : Exec) (rd rs1 : Reg) (s : State) : Out := s.aluU x 0x16 rd rs1 (fun a => (a.truncate 16).zeroExtend 32)
def execBswap (x : Exec) (rd rs1 : Reg) (s : State) : Out := s.aluU x 0x17 rd rs1 (aluBswap)
def execAddi (x : Exec) (rd rs1 : Reg) (imm : BitVec 11) (s : State) : Out := s.aluI x 0x01 rd rs1 imm (· + immWord imm)
def execAndi (x : Exec) (rd rs1 : Reg) (imm : BitVec 11) (s : State) : Out := s.aluI x 0x02 rd rs1 imm (· &&& immWord imm)
def execOri (x : Exec) (rd rs1 : Reg) (imm : BitVec 11) (s : State) : Out := s.aluI x 0x03 rd rs1 imm (· ||| immWord imm)
def execXori (x : Exec) (rd rs1 : Reg) (imm : BitVec 11) (s : State) : Out := s.aluI x 0x04 rd rs1 imm (· ^^^ immWord imm)
def execSlli (x : Exec) (rd rs1 : Reg) (sh : BitVec 5) (s : State) : Out := s.aluI x 0x05 rd rs1 (BitVec.ofNat 11 (0 * 32 + sh.toNat)) (· <<< sh.toNat)
def execSrli (x : Exec) (rd rs1 : Reg) (sh : BitVec 5) (s : State) : Out := s.aluI x 0x05 rd rs1 (BitVec.ofNat 11 (1 * 32 + sh.toNat)) (· >>> sh.toNat)
def execSrai (x : Exec) (rd rs1 : Reg) (sh : BitVec 5) (s : State) : Out := s.aluI x 0x05 rd rs1 (BitVec.ofNat 11 (2 * 32 + sh.toNat)) (·.sshiftRight sh.toNat)
def execRori (x : Exec) (rd rs1 : Reg) (sh : BitVec 5) (s : State) : Out := s.aluI x 0x05 rd rs1 (BitVec.ofNat 11 (3 * 32 + sh.toNat)) (·.rotateRight sh.toNat)
def execLui (x : Exec) (rd : Reg) (imm : BitVec 16) (s : State) : Out :=
  s.instr x (encU x.guard 0x06 rd.val imm) (plain fun k => k.setX rd (imm.zeroExtend 32 <<< 16))
def execLil (x : Exec) (rd : Reg) (imm : BitVec 16) (s : State) : Out :=
  s.instr x (encU x.guard 0x07 rd.val imm) (plain fun k => k.setX rd ((k.getX rd &&& 0xFFFF0000) ||| imm.zeroExtend 32))
def execMac (x : Exec) (rd rs1 rs2 : Reg) (s : State) : Out :=
  s.instr x (encR x.guard 0x08 rd.val rs1.val rs2.val 0) (bodyMac rd rs1 rs2)
def execMacbPi (x : Exec) (rd cs1 rs2 : Reg) (s : State) : Out :=
  s.instr x (encR x.guard 0x08 rd.val cs1.val rs2.val 1) (bodyMacb rd cs1 rs2)
def execCrcb (x : Exec) (poly : Fin 3) (rd rs1 : Reg) (s : State) : Out :=
  s.instr x (encR x.guard 0x09 rd.val rs1.val 0 poly.val) (bodyCrcb poly rd rs1)
def execCrcw (x : Exec) (poly : Fin 3) (rd rs1 : Reg) (s : State) : Out :=
  s.instr x (encR x.guard 0x09 rd.val rs1.val 0 (16 + poly.val)) (bodyCrcw poly rd rs1)
def execCrcbPi (x : Exec) (poly : Fin 3) (rd cs1 : Reg) (s : State) : Out :=
  s.instr x (encR x.guard 0x09 rd.val cs1.val 0 (32 + poly.val)) (bodyCrcbPi poly rd cs1)

end Sys2Proof.Machine
end

