-- ==== Sys2Proof/Machine/CoreCap.lean ====
section
/-!
DEFINITION. Machine/CoreCap.lean: the capability group, majors 0x20 to 0x22 (R190 to R192), the compares and predicate
logic, majors 0x38 to 0x3E (R197, R198).
-/

namespace Sys2Proof.Machine

/-- A capability operation: its result or its fault with the instruction word in ETVAL (R97). -/
def bodyCap (cd : Reg) (f : Bank → Except Cause Cap) (σ : Strand) : M (Option Cap) := do
  let s ← M.bank σ
  let v ← M.ofExceptWord σ (f s)
  M.setC σ cd v
  pure none

/-- A capability operation of major 0x20. -/
def State.capOp (s : State) (x : Exec) (fn : Nat) (cd cs1 r2 : Reg) (f : Bank → Except Cause Cap) : Out :=
  s.instr x (encR x.guard 0x20 cd.val cs1.val r2.val fn) (bodyCap cd f)

/-- A field read of major 0x20 (R191). -/
def State.capGet (s : State) (x : Exec) (fn : Nat) (rd cs1 : Reg) (f : Cap → Word) : Out :=
  s.instr x (encR x.guard 0x20 rd.val cs1.val 0 fn) (plain fun k => k.setX rd (f (k.getC cs1)))

/-- The low and the high word of a number. -/
def lowWord (n : Nat) : Word := BitVec.ofNat 32 n
def highWord (n : Nat) : Word := BitVec.ofNat 32 (n / 2 ^ 32)

/-- A predicate result (R119, R124). -/
def bodyPred (pd : Reg) (f : Bank → Bool) (σ : Strand) : M (Option Cap) := do
  let p ← M.predField σ pd
  M.mod fun B => B.modBank σ.core σ.bank fun s => s.setP p (f s)
  pure none

/-- Predicate logic over two predicate fields (R198). -/
def bodyPred2 (pd ps1 ps2 : Reg) (f : Bool → Bool → Bool) (σ : Strand) : M (Option Cap) := do
  let p ← M.predField σ pd
  let a ← M.predField σ ps1
  let b ← M.predField σ ps2
  M.mod fun B => B.modBank σ.core σ.bank fun s => s.setP p (f (s.getP a) (s.getP b))
  pure none

/-- The byte compares (R197): the cursor moves only if the byte was read. -/
def bodyCmpb (k : ByteCmp) (down : Bool) (pd cs1 rs2 : Reg) (σ : Strand) : M (Option Cap) := do
  let p ← M.predField σ pd
  let c ← M.getC σ cs1
  let v ← M.load σ c c.cursor 1
  M.mod fun B => B.modBank σ.core σ.bank fun s =>
    let s := s.setP p (k.holds (v.headD 0) ((s.getX rs2).truncate 8))
    s.setC cs1 ((s.getC cs1).bump (cursorStep down 1))
  pure none

/-! ## Meanings -/

def execCmov (x : Exec) (cd cs1 : Reg) (s : State) : Out := s.capOp x 0x00 cd cs1 0 fun k => .ok (k.getC cs1)
def execCclrtag (x : Exec) (cd cs1 : Reg) (s : State) : Out := s.capOp x 0x01 cd cs1 0 fun k => .ok (k.getC cs1).clearTag
def execCsetcl (x : Exec) (cd cs1 rs2 : Reg) (s : State) : Out :=
  s.capOp x 0x02 cd cs1 rs2 fun k =>
    let c := k.getC cs1
    c.setCursor (c.cursor.extractLsb' 32 32 ++ k.getX rs2)
def execCinc (x : Exec) (cd cs1 rs2 : Reg) (s : State) : Out :=
  s.capOp x 0x03 cd cs1 rs2 fun k =>
    let c := k.getC cs1
    c.setCursor (c.cursor + (k.getX rs2).signExtend 64)
def execCinch (x : Exec) (cd cs1 rs2 : Reg) (s : State) : Out :=
  s.capOp x 0x04 cd cs1 rs2 fun k =>
    let c := k.getC cs1
    c.setCursor (c.cursor + (k.getX rs2).zeroExtend 64 <<< 32)
def execCsetb (x : Exec) (cd cs1 rs2 : Reg) (s : State) : Out :=
  s.capOp x 0x05 cd cs1 rs2 fun k => (k.getC cs1).setBoundsOp (k.getX rs2).toNat false
def execCsetb4k (x : Exec) (cd cs1 rs2 : Reg) (s : State) : Out :=
  s.capOp x 0x06 cd cs1 rs2 fun k => (k.getC cs1).setBoundsOp ((k.getX rs2).toNat * 4096) false
def execCsetbx (x : Exec) (cd cs1 rs2 : Reg) (s : State) : Out :=
  s.capOp x 0x07 cd cs1 rs2 fun k => (k.getC cs1).setBoundsOp (k.getX rs2).toNat true
def execCandp (x : Exec) (cd cs1 rs2 : Reg) (s : State) : Out :=
  s.capOp x 0x08 cd cs1 rs2 fun k => (k.getC cs1).andPerm ((k.getX rs2).truncate 16)
def execCseal (x : Exec) (cd cs1 cs2 : Reg) (s : State) : Out :=
  s.capOp x 0x09 cd cs1 cs2 fun k => (k.getC cs1).sealWith (k.getC cs2)
def execCunseal (x : Exec) (cd cs1 cs2 : Reg) (s : State) : Out :=
  s.capOp x 0x0A cd cs1 cs2 fun k => (k.getC cs1).unsealWith (k.getC cs2)
def execCgate (x : Exec) (cd cs1 : Reg) (s : State) : Out := s.capOp x 0x0B cd cs1 0 fun k => (k.getC cs1).gate
def execCgetpcc (x : Exec) (cd : Reg) (s : State) : Out := s.capOp x 0x0C cd 0 0 fun k => .ok k.pcc

def execCgbasel (x : Exec) (rd cs1 : Reg) (s : State) : Out := s.capGet x 0x10 rd cs1 fun c => lowWord c.base
def execCgbaseh (x : Exec) (rd cs1 : Reg) (s : State) : Out := s.capGet x 0x11 rd cs1 fun c => highWord c.base
def execCgtopl (x : Exec) (rd cs1 : Reg) (s : State) : Out := s.capGet x 0x12 rd cs1 fun c => lowWord c.top
def execCgtoph (x : Exec) (rd cs1 : Reg) (s : State) : Out := s.capGet x 0x13 rd cs1 fun c => highWord c.top
def execCgtopx (x : Exec) (rd cs1 : Reg) (s : State) : Out :=
  s.capGet x 0x14 rd cs1 fun c => BitVec.ofNat 32 (c.top / 2 ^ 64 % 2)
def execCglenl (x : Exec) (rd cs1 : Reg) (s : State) : Out := s.capGet x 0x15 rd cs1 fun c => lowWord c.length
def execCglenh (x : Exec) (rd cs1 : Reg) (s : State) : Out := s.capGet x 0x16 rd cs1 fun c => highWord c.length
def execCgcurl (x : Exec) (rd cs1 : Reg) (s : State) : Out := s.capGet x 0x17 rd cs1 fun c => lowWord c.cursor.toNat
def execCgcurh (x : Exec) (rd cs1 : Reg) (s : State) : Out := s.capGet x 0x18 rd cs1 fun c => highWord c.cursor.toNat
def execCgperm (x : Exec) (rd cs1 : Reg) (s : State) : Out := s.capGet x 0x19 rd cs1 fun c => c.perm.zeroExtend 32
def execCgtype (x : Exec) (rd cs1 : Reg) (s : State) : Out := s.capGet x 0x1A rd cs1 fun c => c.otype.zeroExtend 32
def execCgtag (x : Exec) (rd cs1 : Reg) (s : State) : Out := s.capGet x 0x1B rd cs1 fun c => if c.tag then 1 else 0
def execCgexp (x : Exec) (rd cs1 : Reg) (s : State) : Out := s.capGet x 0x1C rd cs1 fun c => BitVec.ofNat 32 c.exp

def execCrrl (x : Exec) (rd rs1 : Reg) (s : State) : Out :=
  s.instr x (encR x.guard 0x20 rd.val rs1.val 0 0x20)
    (plain fun k => k.setX rd (BitVec.ofNat 32 (reprLength (k.getX rs1).toNat)))
def execCram (x : Exec) (rd rs1 : Reg) (s : State) : Out :=
  s.instr x (encR x.guard 0x20 rd.val rs1.val 0 0x21)
    (plain fun k => k.setX rd (~~~(BitVec.ofNat 32 (2 ^ reprExp (k.getX rs1).toNat - 1))))

def execCinci (x : Exec) (cd cs1 : Reg) (imm : BitVec 11) (s : State) : Out :=
  s.instr x (encI x.guard 0x21 cd.val cs1.val imm)
    (bodyCap cd fun k => (k.getC cs1).setCursor ((k.getC cs1).cursor + imm.signExtend 64))
def execCsetbi (x : Exec) (cd cs1 : Reg) (imm : BitVec 11) (s : State) : Out :=
  s.instr x (encI x.guard 0x22 cd.val cs1.val imm) (bodyCap cd fun k => (k.getC cs1).setBoundsOp imm.toNat false)

def execCmpEq (x : Exec) (pd rs1 rs2 : Reg) (s : State) : Out :=
  s.instr x (encR x.guard 0x38 pd.val rs1.val rs2.val 0) (bodyPred pd fun k => cmpEq (k.getX rs1) (k.getX rs2))
def execCmpNe (x : Exec) (pd rs1 rs2 : Reg) (s : State) : Out :=
  s.instr x (encR x.guard 0x38 pd.val rs1.val rs2.val 1) (bodyPred pd fun k => cmpNe (k.getX rs1) (k.getX rs2))
def execCmpLt (x : Exec) (pd rs1 rs2 : Reg) (s : State) : Out :=
  s.instr x (encR x.guard 0x38 pd.val rs1.val rs2.val 2) (bodyPred pd fun k => cmpLt (k.getX rs1) (k.getX rs2))
def execCmpLtu (x : Exec) (pd rs1 rs2 : Reg) (s : State) : Out :=
  s.instr x (encR x.guard 0x38 pd.val rs1.val rs2.val 3) (bodyPred pd fun k => cmpLtu (k.getX rs1) (k.getX rs2))
def execCmpGe (x : Exec) (pd rs1 rs2 : Reg) (s : State) : Out :=
  s.instr x (encR x.guard 0x38 pd.val rs1.val rs2.val 4) (bodyPred pd fun k => cmpGe (k.getX rs1) (k.getX rs2))
def execCmpGeu (x : Exec) (pd rs1 rs2 : Reg) (s : State) : Out :=
  s.instr x (encR x.guard 0x38 pd.val rs1.val rs2.val 5) (bodyPred pd fun k => cmpGeu (k.getX rs1) (k.getX rs2))
def execCmpTst (x : Exec) (pd rs1 rs2 : Reg) (s : State) : Out :=
  s.instr x (encR x.guard 0x38 pd.val rs1.val rs2.val 6) (bodyPred pd fun k => cmpTst (k.getX rs1) (k.getX rs2))
def execCmpTstz (x : Exec) (pd rs1 rs2 : Reg) (s : State) : Out :=
  s.instr x (encR x.guard 0x38 pd.val rs1.val rs2.val 7) (bodyPred pd fun k => cmpTstz (k.getX rs1) (k.getX rs2))
def execCmpeqi (x : Exec) (pd rs1 : Reg) (imm : BitVec 11) (s : State) : Out :=
  s.instr x (encI x.guard 0x39 pd.val rs1.val imm) (bodyPred pd fun k => cmpEq (k.getX rs1) (immWord imm))
def execCmplti (x : Exec) (pd rs1 : Reg) (imm : BitVec 11) (s : State) : Out :=
  s.instr x (encI x.guard 0x3A pd.val rs1.val imm) (bodyPred pd fun k => cmpLt (k.getX rs1) (immWord imm))
def execCmpltui (x : Exec) (pd rs1 : Reg) (imm : BitVec 11) (s : State) : Out :=
  s.instr x (encI x.guard 0x3B pd.val rs1.val imm) (bodyPred pd fun k => cmpLtu (k.getX rs1) (immWord imm))
def execPredicateAnd (x : Exec) (neg : Bool) (pd ps1 ps2 : Reg) (s : State) : Out :=
  s.instr x (encR x.guard 0x3C pd.val ps1.val ps2.val ((if neg then 4 else 0) + 0))
    (bodyPred2 pd ps1 ps2 fun a b => negIf neg (a && b))
def execPredicateOr (x : Exec) (neg : Bool) (pd ps1 ps2 : Reg) (s : State) : Out :=
  s.instr x (encR x.guard 0x3C pd.val ps1.val ps2.val ((if neg then 4 else 0) + 1))
    (bodyPred2 pd ps1 ps2 fun a b => negIf neg (a || b))
def execPredicateXor (x : Exec) (neg : Bool) (pd ps1 ps2 : Reg) (s : State) : Out :=
  s.instr x (encR x.guard 0x3C pd.val ps1.val ps2.val ((if neg then 4 else 0) + 2))
    (bodyPred2 pd ps1 ps2 fun a b => negIf neg (a != b))
def execPredicateAndNot (x : Exec) (neg : Bool) (pd ps1 ps2 : Reg) (s : State) : Out :=
  s.instr x (encR x.guard 0x3C pd.val ps1.val ps2.val ((if neg then 4 else 0) + 3))
    (bodyPred2 pd ps1 ps2 fun a b => negIf neg (a && !b))
def execPset (x : Exec) (pd : Reg) (s : State) : Out :=
  s.instr x (encR x.guard 0x3C pd.val 0 0 8) (bodyPred pd fun _ => true)
def execPclr (x : Exec) (pd : Reg) (s : State) : Out :=
  s.instr x (encR x.guard 0x3C pd.val 0 0 9) (bodyPred pd fun _ => false)
def execPrd (x : Exec) (rd : Reg) (s : State) : Out :=
  s.instr x (encR x.guard 0x3C rd.val 0 0 0xA) (plain fun k => k.setX rd k.predByte)
def execPwr (x : Exec) (rs1 : Reg) (s : State) : Out :=
  s.instr x (encR x.guard 0x3C 0 rs1.val 0 0xB) (plain fun k => k.setPreds (k.getX rs1))
def execCmpbEqPi (x : Exec) (down : Bool) (pd cs1 rs2 : Reg) (s : State) : Out :=
  s.instr x (encR x.guard 0x3D pd.val cs1.val rs2.val ((if down then 32 else 0) + 0)) (bodyCmpb .eq down pd cs1 rs2)
def execCmpbNePi (x : Exec) (down : Bool) (pd cs1 rs2 : Reg) (s : State) : Out :=
  s.instr x (encR x.guard 0x3D pd.val cs1.val rs2.val ((if down then 32 else 0) + 1)) (bodyCmpb .ne down pd cs1 rs2)
def execCmpbLtuPi (x : Exec) (down : Bool) (pd cs1 rs2 : Reg) (s : State) : Out :=
  s.instr x (encR x.guard 0x3D pd.val cs1.val rs2.val ((if down then 32 else 0) + 2)) (bodyCmpb .ltu down pd cs1 rs2)
def execCmpbGeuPi (x : Exec) (down : Bool) (pd cs1 rs2 : Reg) (s : State) : Out :=
  s.instr x (encR x.guard 0x3D pd.val cs1.val rs2.val ((if down then 32 else 0) + 3)) (bodyCmpb .geu down pd cs1 rs2)
def execCeqx (x : Exec) (pd cs1 cs2 : Reg) (s : State) : Out :=
  s.instr x (encR x.guard 0x3E pd.val cs1.val cs2.val 0) (bodyPred pd fun k => decide (k.getC cs1 = k.getC cs2))
def execCtsub (x : Exec) (pd cs1 cs2 : Reg) (s : State) : Out :=
  s.instr x (encR x.guard 0x3E pd.val cs1.val cs2.val 1) (bodyPred pd fun k => (k.getC cs1).subset (k.getC cs2))

end Sys2Proof.Machine
end

