-- ==== Sys2Proof/Machine/CoreMem.lean ====
section
/-!
DEFINITION. Machine/CoreMem.lean: the load, store and atomic group, majors 0x10 to 0x1E (R184 to R189).
-/

namespace Sys2Proof.Machine

/-- Loaded bytes extended to 32 bits (R184). -/
def extend (signed : Bool) (bytes : List Byte) : Word :=
  let v := leNat bytes
  let w := bytes.length * 8
  if signed && v ≥ 2 ^ (w - 1) then BitVec.ofNat 32 (v + 2 ^ 32 - 2 ^ w) else BitVec.ofNat 32 v

/-! ## Bodies: an access at `off` bytes from the cursor of c[cs1]; `move` is what the cursor then moves by -/

def M.bumpC (σ : Strand) (cs1 : Reg) (move : Option Dword) : M Unit :=
  match move with
  | none => pure ()
  | some n => M.mod fun B => B.modBank σ.core σ.bank fun s => s.setC cs1 ((s.getC cs1).bump n)

def bodyLoad (n : Nat) (signed : Bool) (rd cs1 : Reg) (off : Dword) (move : Option Dword) (σ : Strand) : M (Option Cap) := do
  let c ← M.getC σ cs1
  let v ← M.load σ c (c.cursor + off) n
  M.setX σ rd (extend signed v)
  M.bumpC σ cs1 move
  pure none

def bodyStore (n : Nat) (rs2 cs1 : Reg) (off : Dword) (move : Option Dword) (σ : Strand) : M (Option Cap) := do
  let c ← M.getC σ cs1
  let v ← M.getX σ rs2
  M.store σ c (c.cursor + off) (leBytes n v.toNat)
  M.bumpC σ cs1 move
  pure none

def bodyClc (cd cs1 : Reg) (off : Dword) (move : Option Dword) (σ : Strand) : M (Option Cap) := do
  let c ← M.getC σ cs1
  let v ← M.loadCap σ c (c.cursor + off)
  M.setC σ cd v
  M.bumpC σ cs1 move
  pure none

def bodyCsc (cs2 cs1 : Reg) (off : Dword) (move : Option Dword) (σ : Strand) : M (Option Cap) := do
  let c ← M.getC σ cs1
  let v ← M.getC σ cs2
  M.storeCap σ c (c.cursor + off) v
  M.bumpC σ cs1 move
  pure none

def bodyDld (dd cs1 : Reg) (off : Dword) (move : Option Dword) (σ : Strand) : M (Option Cap) := do
  let d ← M.dField σ dd
  let c ← M.getC σ cs1
  let v ← M.load σ c (c.cursor + off) 16
  M.mod fun B => B.modBank σ.core σ.bank (·.setD d (BitVec.ofNat 128 (leNat v)))
  M.bumpC σ cs1 move
  pure none

def bodyDst (ds2 cs1 : Reg) (off : Dword) (move : Option Dword) (σ : Strand) : M (Option Cap) := do
  let d ← M.dField σ ds2
  let c ← M.getC σ cs1
  let s ← M.bank σ
  M.store σ c (c.cursor + off) (leBytes 16 (s.getD d).toNat)
  M.bumpC σ cs1 move
  pure none

/-- CLC.PI with rd equal to rs1 is ILLEGAL (R186). -/
def bodyClcPi (cd cs1 : Reg) (move : Dword) (σ : Strand) : M (Option Cap) :=
  if cd = cs1 then M.illegal σ else bodyClc cd cs1 0 (some move) σ

/-- The post-increment loads (R185). -/
def bodyLoadPi (k : LoadPi) (down : Bool) (rd cs1 : Reg) : Strand → M (Option Cap) :=
  match k with
  | .lb => bodyLoad 1 true rd cs1 0 (some (cursorStep down 1))
  | .lbu => bodyLoad 1 false rd cs1 0 (some (cursorStep down 1))
  | .lh => bodyLoad 2 true rd cs1 0 (some (cursorStep down 2))
  | .lhu => bodyLoad 2 false rd cs1 0 (some (cursorStep down 2))
  | .lw => bodyLoad 4 false rd cs1 0 (some (cursorStep down 4))
  | .clc => bodyClcPi rd cs1 (cursorStep down 16)
  | .dld => bodyDld rd cs1 0 (some (cursorStep down 16))

/-- The post-increment stores (R185, R186). -/
def bodyStorePi (k : StorePi) (down : Bool) (rs2 cs1 : Reg) : Strand → M (Option Cap) :=
  match k with
  | .sb => bodyStore 1 rs2 cs1 0 (some (cursorStep down 1))
  | .sh => bodyStore 2 rs2 cs1 0 (some (cursorStep down 2))
  | .sw => bodyStore 4 rs2 cs1 0 (some (cursorStep down 4))
  | .csc => bodyCsc rs2 cs1 0 (some (cursorStep down 16))
  | .dst => bodyDst rs2 cs1 0 (some (cursorStep down 16))

/-- The size of a fill and the bytes it stores (R187). -/
def FillSize.bytes (k : FillSize) (v : Word) : List Byte :=
  match k with
  | .b => leBytes 1 v.toNat
  | .h => leBytes 2 v.toNat
  | .w => leBytes 4 v.toNat
  | .g => leBytes 4 v.toNat ++ leBytes 4 v.toNat ++ leBytes 4 v.toNat ++ leBytes 4 v.toNat

def FillSize.size : FillSize → Nat
  | .b => 1
  | .h => 2
  | .w => 4
  | .g => 16

def bodyFill (k : FillSize) (down : Bool) (cs1 rs2 : Reg) (σ : Strand) : M (Option Cap) := do
  let c ← M.getC σ cs1
  let v ← M.getX σ rs2
  M.store σ c c.cursor (k.bytes v)
  M.bumpC σ cs1 (some (cursorStep down k.size))
  pure none

/-! ## Atomics -/

/-- A word atomic (R188): `f` gives the word to write, if any; a denied part reads zero and writes nothing (R383). -/
def bodyAmo (rd cs1 : Reg) (f : Bank → Word → Option Word) (σ : Strand) : M (Option Cap) := do
  let c ← M.getC σ cs1
  M.ofExcept c.cursor (c.checkAccess c.cursor 4 [permLD, permST] 4 .misaligned)
  let ps ← M.xlate σ c.cursor.toNat 4 .atomic
  match ps with
  | [] => pure none
  | p :: _ =>
    let B ← M.bench
    let s ← M.bank σ
    if B.mafAllows (midCore σ.core) p.pa .rw then
      let (v, _) ← M.readPart σ p kindAtomic .rw false false
      let m : Word := BitVec.ofNat 32 (leNat v)
      match f s m with
      | some w => M.writePart σ p (leBytes 4 w.toNat) false
      | none => pure ()
      M.setX σ rd m
    else
      M.mod fun B => B.denied (midCore σ.core) (B.origin σ.core σ.bank) p.pa 4 kindAtomic
      M.setX σ rd 0
    pure none

/-- The capability compare-and-swap (R189). -/
def bodyAmocasC (cd cs2 cs1 : Reg) (σ : Strand) : M (Option Cap) := do
  let c ← M.getC σ cs1
  let new ← M.getC σ cs2
  let want ← M.getC σ cd
  M.ofExcept c.cursor (c.checkAccess c.cursor 16 [permLD, permST] 16 .capAlign (c.storeAllowed new))
  let ps ← M.xlate σ c.cursor.toNat 16 (if new.tag then .capAtomic else .atomic)
  match ps with
  | [] => pure none
  | p :: _ =>
    let B ← M.bench
    if B.mafAllows (midCore σ.core) p.pa .rw then
      let (v, tag) ← M.readPart σ p kindAtomic .rw false false
      let old := capOf v tag
      if old = want then
        M.mod fun B => B.writeGranule (midCore σ.core) (B.origin σ.core σ.bank) p.pa new
      else pure ()
      let B ← M.bench
      M.setC σ cd (c.loaded (B.filtered old) p.caps)
    else
      M.mod fun B => B.denied (midCore σ.core) (B.origin σ.core σ.bank) p.pa 16 kindAtomic
      M.setC σ cd Cap.null
    pure none

/-- fn of an atomic: AQ, RL and the operation (R188). Their orderings hold in a machine that performs one access at a
time. -/
def amoFn (aq rl : Bool) (op : Nat) : Nat := (if aq then 32 else 0) + (if rl then 16 else 0) + op
/-- fn of a post-increment form (R185). -/
def piFn (down : Bool) (op : Nat) : Nat := (if down then 32 else 0) + op

/-! ## Meanings -/

def execLb (x : Exec) (rd cs1 : Reg) (imm : BitVec 11) (s : State) : Out :=
  s.instr x (encI x.guard 0x10 rd.val cs1.val imm) (bodyLoad 1 true rd cs1 (offBytes imm) none)
def execLbu (x : Exec) (rd cs1 : Reg) (imm : BitVec 11) (s : State) : Out :=
  s.instr x (encI x.guard 0x11 rd.val cs1.val imm) (bodyLoad 1 false rd cs1 (offBytes imm) none)
def execLh (x : Exec) (rd cs1 : Reg) (imm : BitVec 11) (s : State) : Out :=
  s.instr x (encI x.guard 0x12 rd.val cs1.val imm) (bodyLoad 2 true rd cs1 (offBytes imm) none)
def execLhu (x : Exec) (rd cs1 : Reg) (imm : BitVec 11) (s : State) : Out :=
  s.instr x (encI x.guard 0x13 rd.val cs1.val imm) (bodyLoad 2 false rd cs1 (offBytes imm) none)
def execLw (x : Exec) (rd cs1 : Reg) (imm : BitVec 11) (s : State) : Out :=
  s.instr x (encI x.guard 0x14 rd.val cs1.val imm) (bodyLoad 4 false rd cs1 (offBytes imm) none)
def execSb (x : Exec) (rs2 cs1 : Reg) (imm : BitVec 11) (s : State) : Out :=
  s.instr x (encI x.guard 0x15 rs2.val cs1.val imm) (bodyStore 1 rs2 cs1 (offBytes imm) none)
def execSh (x : Exec) (rs2 cs1 : Reg) (imm : BitVec 11) (s : State) : Out :=
  s.instr x (encI x.guard 0x16 rs2.val cs1.val imm) (bodyStore 2 rs2 cs1 (offBytes imm) none)
def execSw (x : Exec) (rs2 cs1 : Reg) (imm : BitVec 11) (s : State) : Out :=
  s.instr x (encI x.guard 0x17 rs2.val cs1.val imm) (bodyStore 4 rs2 cs1 (offBytes imm) none)
def execClc (x : Exec) (cd cs1 : Reg) (imm : BitVec 11) (s : State) : Out :=
  s.instr x (encI x.guard 0x18 cd.val cs1.val imm) (bodyClc cd cs1 (offGranules imm) none)
def execCsc (x : Exec) (cs2 cs1 : Reg) (imm : BitVec 11) (s : State) : Out :=
  s.instr x (encI x.guard 0x19 cs2.val cs1.val imm) (bodyCsc cs2 cs1 (offGranules imm) none)
def execDld (x : Exec) (dd cs1 : Reg) (imm : BitVec 11) (s : State) : Out :=
  s.instr x (encI x.guard 0x1A dd.val cs1.val imm) (bodyDld dd cs1 (offGranules imm) none)
def execDst (x : Exec) (ds2 cs1 : Reg) (imm : BitVec 11) (s : State) : Out :=
  s.instr x (encI x.guard 0x1B ds2.val cs1.val imm) (bodyDst ds2 cs1 (offGranules imm) none)
def execLbPi (x : Exec) (down : Bool) (rd cs1 : Reg) (s : State) : Out :=
  s.instr x (encR x.guard 0x1C rd.val cs1.val 0 (piFn down 0)) (bodyLoadPi .lb down rd cs1)
def execLbuPi (x : Exec) (down : Bool) (rd cs1 : Reg) (s : State) : Out :=
  s.instr x (encR x.guard 0x1C rd.val cs1.val 0 (piFn down 1)) (bodyLoadPi .lbu down rd cs1)
def execLhPi (x : Exec) (down : Bool) (rd cs1 : Reg) (s : State) : Out :=
  s.instr x (encR x.guard 0x1C rd.val cs1.val 0 (piFn down 2)) (bodyLoadPi .lh down rd cs1)
def execLhuPi (x : Exec) (down : Bool) (rd cs1 : Reg) (s : State) : Out :=
  s.instr x (encR x.guard 0x1C rd.val cs1.val 0 (piFn down 3)) (bodyLoadPi .lhu down rd cs1)
def execLwPi (x : Exec) (down : Bool) (rd cs1 : Reg) (s : State) : Out :=
  s.instr x (encR x.guard 0x1C rd.val cs1.val 0 (piFn down 4)) (bodyLoadPi .lw down rd cs1)
def execClcPi (x : Exec) (down : Bool) (cd cs1 : Reg) (s : State) : Out :=
  s.instr x (encR x.guard 0x1C cd.val cs1.val 0 (piFn down 5)) (bodyLoadPi .clc down cd cs1)
def execDldPi (x : Exec) (down : Bool) (dd cs1 : Reg) (s : State) : Out :=
  s.instr x (encR x.guard 0x1C dd.val cs1.val 0 (piFn down 6)) (bodyLoadPi .dld down dd cs1)
def execSbPi (x : Exec) (down : Bool) (rs2 cs1 : Reg) (s : State) : Out :=
  s.instr x (encR x.guard 0x1C 0 cs1.val rs2.val (piFn down 8)) (bodyStorePi .sb down rs2 cs1)
def execShPi (x : Exec) (down : Bool) (rs2 cs1 : Reg) (s : State) : Out :=
  s.instr x (encR x.guard 0x1C 0 cs1.val rs2.val (piFn down 9)) (bodyStorePi .sh down rs2 cs1)
def execSwPi (x : Exec) (down : Bool) (rs2 cs1 : Reg) (s : State) : Out :=
  s.instr x (encR x.guard 0x1C 0 cs1.val rs2.val (piFn down 10)) (bodyStorePi .sw down rs2 cs1)
def execCscPi (x : Exec) (down : Bool) (cs2 cs1 : Reg) (s : State) : Out :=
  s.instr x (encR x.guard 0x1C 0 cs1.val cs2.val (piFn down 11)) (bodyStorePi .csc down cs2 cs1)
def execDstPi (x : Exec) (down : Bool) (ds2 cs1 : Reg) (s : State) : Out :=
  s.instr x (encR x.guard 0x1C 0 cs1.val ds2.val (piFn down 12)) (bodyStorePi .dst down ds2 cs1)
def execFillB (x : Exec) (down : Bool) (cs1 rs2 : Reg) (s : State) : Out :=
  s.instr x (encR x.guard 0x1D 0 cs1.val rs2.val (piFn down 0)) (bodyFill .b down cs1 rs2)
def execFillH (x : Exec) (down : Bool) (cs1 rs2 : Reg) (s : State) : Out :=
  s.instr x (encR x.guard 0x1D 0 cs1.val rs2.val (piFn down 1)) (bodyFill .h down cs1 rs2)
def execFillW (x : Exec) (down : Bool) (cs1 rs2 : Reg) (s : State) : Out :=
  s.instr x (encR x.guard 0x1D 0 cs1.val rs2.val (piFn down 2)) (bodyFill .w down cs1 rs2)
def execFillG (x : Exec) (down : Bool) (cs1 rs2 : Reg) (s : State) : Out :=
  s.instr x (encR x.guard 0x1D 0 cs1.val rs2.val (piFn down 3)) (bodyFill .g down cs1 rs2)
def execAmoswapW (x : Exec) (aq rl : Bool) (rd rs2 cs1 : Reg) (s : State) : Out :=
  s.instr x (encR x.guard 0x1E rd.val cs1.val rs2.val (amoFn aq rl 0)) (bodyAmo rd cs1 (fun k _ => some (k.getX rs2)))
def execAmocasW (x : Exec) (aq rl : Bool) (rd rs2 cs1 : Reg) (s : State) : Out :=
  s.instr x (encR x.guard 0x1E rd.val cs1.val rs2.val (amoFn aq rl 1)) (bodyAmo rd cs1 (fun k m => if m = k.getX rd then some (k.getX rs2) else none))
def execAmoaddW (x : Exec) (aq rl : Bool) (rd rs2 cs1 : Reg) (s : State) : Out :=
  s.instr x (encR x.guard 0x1E rd.val cs1.val rs2.val (amoFn aq rl 2)) (bodyAmo rd cs1 (fun k m => some (m + k.getX rs2)))
def execAmoorW (x : Exec) (aq rl : Bool) (rd rs2 cs1 : Reg) (s : State) : Out :=
  s.instr x (encR x.guard 0x1E rd.val cs1.val rs2.val (amoFn aq rl 3)) (bodyAmo rd cs1 (fun k m => some (m ||| k.getX rs2)))
def execAmoandW (x : Exec) (aq rl : Bool) (rd rs2 cs1 : Reg) (s : State) : Out :=
  s.instr x (encR x.guard 0x1E rd.val cs1.val rs2.val (amoFn aq rl 4)) (bodyAmo rd cs1 (fun k m => some (m &&& k.getX rs2)))
def execAmocasC (x : Exec) (aq rl : Bool) (cd cs2 cs1 : Reg) (s : State) : Out :=
  s.instr x (encR x.guard 0x1E cd.val cs1.val cs2.val (amoFn aq rl 8)) (bodyAmocasC cd cs2 cs1)

end Sys2Proof.Machine
end

