-- ==== Sys2Proof/Machine/Clicker.lean ====
section
/-!
DEFINITION. Machine/Clicker.lean: cutting a message into field descriptors (R524 to R543): ISO 8583, BER-TLV and XML.
-/

namespace Sys2Proof.Machine

/-- A field descriptor (R524), the place where its field begins, and whether its content is known. -/
structure Desc where
  fid : Nat
  offset : Nat
  length : Nat
  enc : Nat
  level : Nat
  parent : Nat
  flags : Nat
  start : Nat
  complete : Bool

def Desc.bytes (d : Desc) : List Byte :=
  leBytes 4 d.fid ++ leBytes 4 d.offset ++ leBytes 2 d.length ++ leBytes 1 d.enc ++ leBytes 1 d.level ++ leBytes 2 d.parent
    ++ leBytes 2 d.flags

/-- A cut in progress: the bytes of the message that are at hand from `pos` on, the message's length, the descriptors so far
(the last first), where the field being read begins, and how many descriptors the list holds. -/
structure CutSt where
  rest : List Byte
  pos : Nat
  len : Nat
  descs : List Desc
  start : Nat
  cap : Nat

/-- Why a cut ends early: more bytes than those at hand are needed, or it fails with a DETAIL of R543. -/
inductive CutErr where
  | short
  | bad (detail : Nat)

abbrev Cut := EStateM CutErr CutSt

def Cut.fail {α : Type} (d : Nat) : Cut α := fun s => .error (.bad d) s
def Cut.pos : Cut Nat := fun s => .ok s.pos s
/-- A field begins here. -/
def Cut.begin : Cut Unit := fun s => .ok () { s with start := s.pos }

/-- The next `n` bytes; `detail` where they pass `bound`. -/
def Cut.take (n detail bound : Nat) : Cut (List Byte) := fun s =>
  if bound < s.pos + n then .error (.bad detail) s
  else
    let l := s.rest.take n
    if l.length < n then .error .short s else .ok l { s with rest := s.rest.drop n, pos := s.pos + n }

/-- A descriptor is written; its index. -/
def Cut.emit (d : Desc) : Cut Nat := fun s =>
  let n := s.descs.length
  if s.cap ≤ n then .error (.bad 0x30) { s with start := d.start } else .ok n { s with descs := d :: s.descs }

/-! ## Characters -/

def digitVal (c : Nat) : Option Nat := if 0x30 ≤ c && c ≤ 0x39 then some (c - 0x30) else none
def hexVal (c : Nat) : Option Nat :=
  if 0x30 ≤ c && c ≤ 0x39 then some (c - 0x30)
  else if 0x41 ≤ c && c ≤ 0x46 then some (c - 0x37)
  else if 0x61 ≤ c && c ≤ 0x66 then some (c - 0x57)
  else none

def allSome {α : Type} : List (Option α) → Option (List α)
  | [] => some []
  | none :: _ => none
  | some a :: t => (allSome t).map (a :: ·)

def nibblesOf (l : List Byte) : List Nat := l.flatMap fun b => [b.toNat / 16, b.toNat % 16]
/-- The character codes of one-byte-a-character text: ASCII (1, 5, 6) or EBCDIC (2, 7); 0x100 where there is no mapping. -/
def charCodes (p : List Byte) (enc : Nat) (l : List Byte) : List Nat :=
  if enc = 2 || enc = 7 then l.map fun b => (profAscii p b).getD 0x100 else l.map (·.toNat)
def digitsOf (cs : List Nat) : Option (List Nat) := allSome (cs.map digitVal)
def natOfDigits (b : Nat) (ds : List Nat) : Nat := ds.foldl (fun a d => a * b + d) 0

/-! ## ISO 8583 (R534 to R536) and BER-TLV (R537) -/

/-- BER-TLV objects up to `bound`. `level` is the LEVEL they get, `depth` how many constructed objects are open. -/
def cutTlv : Nat → Nat → Nat → Nat → Nat → Cut Unit
  | 0, _, _, _, _ => pure ()
  | fuel + 1, bound, level, parent, depth => do
    let p ← Cut.pos
    if bound ≤ p then pure ()
    else
      Cut.begin
      let t ← Cut.take 1 0x22 bound
      let b := (t.headD 0).toNat
      if b = 0 || b = 0xFF then cutTlv fuel bound level parent depth
      else
        let tag ← (do
          if b % 32 ≠ 0x1F then pure b
          else
            let c ← Cut.take 1 0x22 bound
            let c := (c.headD 0).toNat
            if c < 128 then pure (b * 256 + c)
            else
              let d ← Cut.take 1 0x22 bound
              let d := (d.headD 0).toNat
              if d < 128 then pure ((b * 256 + c) * 256 + d) else Cut.fail 0x20)
        let n ← Cut.take 1 0x22 bound
        let n := (n.headD 0).toNat
        let len ← (do
          if n < 128 then pure n
          else if n = 0x81 || n = 0x82 then
            let l ← Cut.take (n - 0x80) 0x22 bound
            pure (beNat l)
          else Cut.fail 0x21)
        let at' ← Cut.pos
        let cons := b.testBit 5
        if bound < at' + len then Cut.fail 0x22
        else if cons && 8 ≤ depth then Cut.fail 0x23
        else
          let d : Desc :=
            { fid := 0x10000000 + tag, offset := at', length := len, enc := 0, level := level, parent := parent
              flags := if cons then 1 else 0, start := p, complete := true }
          if cons then
            let i ← Cut.emit d
            cutTlv fuel (at' + len) (level + 1) i (depth + 1)
            cutTlv fuel bound level parent depth
          else
            let _ ← Cut.take len 0x22 bound
            let _ ← Cut.emit d
            cutTlv fuel bound level parent depth

/-- A bitmap: its descriptor, and the elements whose bits are set. -/
def cutBitmap (p : List Byte) (part base len : Nat) : Cut (List Nat) := do
  Cut.begin
  let at' ← Cut.pos
  let bm := profBm p
  let n := if bm = 0 then 8 else 16
  let l ← Cut.take n 0x15 len
  let enc := if bm = 0 then 0 else 5 + bm
  let v ← (do
    if bm = 0 then pure (beNat l)
    else match allSome ((charCodes p enc l).map hexVal) with
      | some ds => pure (natOfDigits 16 ds)
      | none => Cut.fail 0x11)
  let _ ← Cut.emit
    { fid := 0x50000000 + part, offset := at', length := n, enc := enc, level := 0, parent := 0xFFFF, flags := 0, start := at', complete := true }
  pure ((List.range 64).filterMap fun k => if v.testBit (63 - k) then some (base + k + 1) else none)

/-- The length that a prefix gives. -/
def cutPrefix (p : List Byte) (form pre len : Nat) : Cut Nat := do
  let l ← Cut.take (if pre < 2 then form else form - 1) 0x15 len
  if pre = 3 then pure (beNat l)
  else
    match digitsOf (if pre = 2 then (nibblesOf l).map (· + 0x30) else charCodes p (pre + 1) l) with
    | some ds => pure (natOfDigits 10 ds)
    | none => Cut.fail 0x13

/-- The digits of packed BCD content, without the pad nibble of an odd count. -/
def bcdDigits (enc : Nat) (odd : Bool) (l : List Byte) : List Nat :=
  let n := nibblesOf l
  if odd then (if enc = 3 then n.drop 1 else n.take (n.length - 1)) else n

/-- Content fits NUM, SIGN and its BCD encoding (R543, 0x17). -/
def contentFits (p : List Byte) (w : Nat) (odd : Bool) (l : List Byte) : Bool :=
  let enc := elEnc w
  let cs := if isBcd enc then (bcdDigits enc odd l).map (fun d => if d < 10 then d + 0x30 else d + 0x37) else charCodes p enc l
  if elSign w then
    match cs with
    | c :: t => (c == 0x43 || c == 0x44) && (digitsOf t).isSome
    | [] => false
  else !(elNum w || isBcd enc) || (digitsOf cs).isSome

def cutElement (p : List Byte) (e len : Nat) : Cut Unit := do
  Cut.begin
  let start ← Cut.pos
  let w := profElem p e
  if elForm w = 0 then Cut.fail 0x12
  else
    let n ← (if elForm w = 1 then pure (elLen w) else cutPrefix p (elForm w) (elPrefix w) len)
    if elLen w < n then Cut.fail 0x14
    else
      let digits := elUnit w && isBcd (elEnc w)
      let bytes := if digits then (n + 1) / 2 else n
      let at' ← Cut.pos
      let s ← get
      let l ← Cut.take bytes 0x15 len
      -- content whose length counts bytes shows an odd number of digits by its trailing 0xF nibble (R526)
      let odd := if digits then n % 2 == 1 else elEnc w == 4 && (nibblesOf l).getLastD 0 == 15
      if !contentFits p w odd l then Cut.fail 0x17
      else
        let i ← Cut.emit
          { fid := e, offset := at', length := bytes, enc := elEnc w, level := 0, parent := 0xFFFF
            flags := (if elTlv w then 1 else 0) + (if odd then 4 else 0) + (if elSign w then 32 else 0), start := start, complete := true }
        if elTlv w then
          set { (← get) with rest := s.rest, pos := at' }
          cutTlv (bytes + 1) (at' + bytes) 1 i 0

/-- The elements from `e` on, the bitmaps of elements 1 and 65 among them. -/
def cutElements (p : List Byte) (len : Nat) : Nat → Nat → List Nat → Cut Unit
  | 0, _, _ => pure ()
  | fuel + 1, e, bits =>
    if !bits.contains e then cutElements p len fuel (e + 1) bits
    else if e = 1 then do
      let more ← cutBitmap p 2 64 len
      cutElements p len fuel (e + 1) (bits ++ more)
    else if e = 65 then do
      let more ← cutBitmap p 3 128 len
      cutElements p len fuel (e + 1) (bits ++ more)
    else do
      cutElement p e len
      cutElements p len fuel (e + 1) bits

def cutIso (p : List Byte) (len : Nat) : Cut Unit := do
  let bcd := decide (profMti p = 2)
  let n := if bcd then 2 else 4
  let l ← Cut.take n 0x15 len
  match digitsOf (if bcd then (nibblesOf l).map (· + 0x30) else charCodes p (profMti p + 1) l) with
  | none => Cut.fail 0x10
  | some ds =>
    if profEdition p ≠ 0xFF && ds.headD 10 ≠ profEdition p then Cut.fail 0x10
    else
      let _ ← Cut.emit
        { fid := 0x50000000, offset := 0, length := n, enc := profMti p + 1, level := 0, parent := 0xFFFF, flags := 0, start := 0
          complete := true }
      let bits ← cutBitmap p 1 0 len
      cutElements p len 193 1 bits
      Cut.begin
      let q ← Cut.pos
      if q < len then Cut.fail 0x16

/-! ## XML (R538 to R541) -/

/-- A character that XML 1.0 permits. -/
def xmlChar (c : Nat) : Bool :=
  c == 9 || c == 10 || c == 13 || (0x20 ≤ c && c ≤ 0xD7FF) || (0xE000 ≤ c && c ≤ 0xFFFD) || (0x10000 ≤ c && c ≤ 0x10FFFF)
def xmlSpace (c : Nat) : Bool := c == 9 || c == 10 || c == 13 || c == 32
def inRanges (rs : List (Nat × Nat)) (c : Nat) : Bool := rs.any fun r => r.1 ≤ c && c ≤ r.2
/-- NameStartChar of XML 1.0, without the colon. -/
def xmlNameStart (c : Nat) : Bool :=
  inRanges [(0x41, 0x5A), (0x5F, 0x5F), (0x61, 0x7A), (0xC0, 0xD6), (0xD8, 0xF6), (0xF8, 0x2FF), (0x370, 0x37D), (0x37F, 0x1FFF),
    (0x200C, 0x200D), (0x2070, 0x218F), (0x2C00, 0x2FEF), (0x3001, 0xD7FF), (0xF900, 0xFDCF), (0xFDF0, 0xFFFD), (0x10000, 0xEFFFF)] c
def xmlNameChar (c : Nat) : Bool :=
  xmlNameStart c || inRanges [(0x2D, 0x2E), (0x30, 0x39), (0xB7, 0xB7), (0x300, 0x36F), (0x203F, 0x2040)] c

/-- The first code point of UTF-8 bytes and its length; none where they are not valid UTF-8. -/
def utf8First (l : List Byte) : Option (Nat × Nat) :=
  let cont (b : Byte) : Option Nat := if b.toNat / 64 = 2 then some (b.toNat % 64) else none
  match l with
  | [] => none
  | b :: t =>
    let n := b.toNat
    if n < 0x80 then some (n, 1)
    else if 0xC2 ≤ n && n ≤ 0xDF then (cont (t.getD 0 0)).map fun x => (n % 32 * 64 + x, 2)
    else if 0xE0 ≤ n && n ≤ 0xEF then
      match cont (t.getD 0 0), cont (t.getD 1 0) with
      | some x, some y =>
        let c := (n % 16 * 64 + x) * 64 + y
        if c < 0x800 || (0xD800 ≤ c && c ≤ 0xDFFF) then none else some (c, 3)
      | _, _ => none
    else if 0xF0 ≤ n && n ≤ 0xF4 then
      match cont (t.getD 0 0), cont (t.getD 1 0), cont (t.getD 2 0) with
      | some x, some y, some z =>
        let c := ((n % 8 * 64 + x) * 64 + y) * 64 + z
        if c < 0x10000 || 0x10FFFF < c then none else some (c, 4)
      | _, _, _ => none
    else none

/-- How many bytes a character that starts with this byte takes. -/
def utf8Len (b : Byte) : Nat := if b.toNat < 0xC0 then 1 else if b.toNat < 0xE0 then 2 else if b.toNat < 0xF0 then 3 else 4

/-- The next character; the message's end is not well formed. -/
def Cut.char : Cut Nat := fun s =>
  match s.rest with
  | [] => if s.len ≤ s.pos then .error (.bad 0x42) s else .error .short s
  | b :: _ =>
    let n := utf8Len b
    if s.rest.length < n && s.pos + n ≤ s.len then .error .short s
    else
      match utf8First s.rest with
      | none => .error (.bad 0x40) s
      | some (c, k) => if xmlChar c then .ok c { s with rest := s.rest.drop k, pos := s.pos + k } else .error (.bad 0x40) s

/-- The text that follows is `t`: it is passed over. -/
def Cut.accept (t : List Byte) : Cut Bool := fun s =>
  let l := s.rest.take t.length
  if l == t then .ok true { s with rest := s.rest.drop t.length, pos := s.pos + t.length }
  else if l.length < t.length && l == t.take l.length && s.pos + l.length < s.len then .error .short s
  else .ok false s

def Cut.expect (t : List Byte) (d : Nat) : Cut Unit := do
  if ← Cut.accept t then pure () else Cut.fail d

/-- The next character is not consumed: 0 at the end of the message. -/
def Cut.peek : Cut Nat := fun s =>
  match s.rest with
  | [] => if s.len ≤ s.pos then .ok 0 s else .error .short s
  | b :: _ => .ok b.toNat s

def Cut.spaces : Nat → Cut Unit
  | 0 => pure ()
  | fuel + 1 => do
    let c ← Cut.peek
    if xmlSpace c then
      let _ ← Cut.char
      Cut.spaces fuel

/-- The bytes from `from'` to here of a message. -/
def Cut.since (full : List Byte) (from' : Nat) : Cut (List Byte) := fun s => .ok ((full.drop from').take (s.pos - from')) s

/-- An NCName: its bytes. -/
def Cut.ncName (full : List Byte) : Nat → Cut (List Byte)
  | fuel => do
    let p ← Cut.pos
    let c ← Cut.char
    if !xmlNameStart c then Cut.fail 0x42
    else
      go fuel
      Cut.since full p
where
  go : Nat → Cut Unit
    | 0 => pure ()
    | fuel + 1 => do
      let s ← get
      match utf8First s.rest with
      | some (c, _) =>
        if xmlNameChar c then
          let _ ← Cut.char
          go fuel
        else pure ()
      | none => if s.rest.isEmpty && s.len ≤ s.pos then pure () else
        let _ ← Cut.char
        pure ()

/-- A qualified name: prefix and local name. -/
def Cut.qname (full : List Byte) (fuel : Nat) : Cut (List Byte × List Byte) := do
  let a ← Cut.ncName full fuel
  let colon ← Cut.accept (ascii ":")
  let (p, l) ← (if colon then do
    let b ← Cut.ncName full fuel
    pure (a, b)
  else pure ([], a))
  if 15 < p.length || 30 < l.length then Cut.fail 0x43 else pure (p, l)

/-- A reference after '&' (R538). -/
def cutReference (full : List Byte) (fuel : Nat) : Cut Unit := do
  if ← Cut.accept (ascii "#") then
    let hex ← Cut.accept (ascii "x")
    let v ← number (if hex then 16 else 10) fuel none
    match v with
    | none => Cut.fail 0x42
    | some n => if xmlChar n then pure () else Cut.fail 0x45
  else
    let n ← Cut.ncName full fuel
    Cut.expect (ascii ";") 0x42
    if [ascii "amp", ascii "lt", ascii "gt", ascii "apos", ascii "quot"].contains n then pure () else Cut.fail 0x45
where
  number (base : Nat) : Nat → Option Nat → Cut (Option Nat)
    | 0, v => pure v
    | fuel + 1, v => do
      let c ← Cut.char
      if c = 0x3B then pure v
      else
        match (if base = 16 then hexVal c else digitVal c) with
        | some d => number base fuel (some (min 0x110000 (v.getD 0 * base + d)))
        | none => Cut.fail 0x42

/-- A comment's or a processing instruction's rest, up to and including `stop`; "--" may not stand inside a comment. -/
def cutSkip (stop : List Byte) (comment : Bool) : Nat → Cut Unit
  | 0 => pure ()
  | fuel + 1 => do
    if ← Cut.accept stop then pure ()
    else
      if comment then
        if ← Cut.accept (ascii "--") then Cut.fail 0x42
      let _ ← Cut.char
      cutSkip stop comment fuel

/-- A processing instruction after its opening mark: its target is not "xml". -/
def cutPi (full : List Byte) (fuel : Nat) : Cut Unit := do
  let n ← Cut.ncName full fuel
  let lower := n.map fun b => if 0x41 ≤ b.toNat && b.toNat ≤ 0x5A then b + 0x20 else b
  if lower == ascii "xml" then Cut.fail 0x42
  else if ← Cut.accept (ascii "?>") then pure ()
  else
    let c ← Cut.char
    if xmlSpace c then cutSkip (ascii "?>") false fuel else Cut.fail 0x42

/-- An attribute value between its quotes: whether it holds references, and where it lies. -/
def cutAttValue (full : List Byte) (fuel : Nat) : Cut (Nat × Nat × Bool) := do
  let q ← Cut.char
  if q ≠ 0x22 && q ≠ 0x27 then Cut.fail 0x42
  else
    let p ← Cut.pos
    let r ← go q fuel false
    let e ← Cut.pos
    pure (p, e - 1 - p, r)
where
  go (q : Nat) : Nat → Bool → Cut Bool
    | 0, r => pure r
    | fuel + 1, r => do
      let c ← Cut.char
      if c = q then pure r
      else if c = 0x3C then Cut.fail 0x42
      else if c = 0x26 then
        cutReference full fuel
        go q fuel true
      else go q fuel r

/-- A pseudo-attribute of the XML declaration. -/
def cutDeclItem (full : List Byte) (fuel : Nat) (name : String) : Cut (Option (List Byte)) := do
  let s ← get
  Cut.spaces fuel
  let q ← Cut.pos
  let named ← (if q ≠ s.pos then Cut.accept (ascii name) else pure false)
  if named then
    Cut.spaces fuel
    Cut.expect (ascii "=") 0x42
    Cut.spaces fuel
    let (o, n, _) ← cutAttValue full fuel
    pure (some ((full.drop o).take n))
  else
    set s
    pure none

/-- The XML declaration after its opening mark (R538). -/
def cutDecl (full : List Byte) (fuel : Nat) : Cut Unit := do
  let v ← cutDeclItem full fuel "version"
  if v != some (ascii "1.0") then Cut.fail 0x42
  let e ← cutDeclItem full fuel "encoding"
  let upper (l : List Byte) : List Byte := l.map fun b => if 0x61 ≤ b.toNat && b.toNat ≤ 0x7A then b - 0x20 else b
  if !(e.map upper == none || e.map upper == some (ascii "UTF-8")) then Cut.fail 0x42
  let a ← cutDeclItem full fuel "standalone"
  if !(a == none || a == some (ascii "yes") || a == some (ascii "no")) then Cut.fail 0x42
  Cut.spaces fuel
  Cut.expect (ascii "?>") 0x42

/-- An element that is open: its descriptor's index, its raw name, its children so far by name index, and what its text is. -/
structure XFrame where
  index : Nat
  name : List Byte × List Byte
  /-- Where the start tag begins, and where the content does. -/
  tagAt : Nat
  from' : Nat
  kids : List (Nat × Nat)
  /-- Text that is not white space, any text, references in it, and a CDATA section's place. -/
  text : Bool
  chars : Bool
  refs : Bool
  cdata : Option (Nat × Nat)

/-- The namespace index of a prefix (R539). -/
def nsIndex (p : List Byte) (pre : List Byte) : Option Nat :=
  (List.range 8).find? fun k => nsUsed (profNs p k) && nsPrefix (profNs p k) == pre

/-- The name index of a qualified name: 0xFFF where it is unknown and that is allowed. -/
def nameIndex (i p : List Byte) (ns : Nat) (loc : List Byte) : Cut Nat :=
  match (List.range (setNname i)).find? fun k => nameNs (nameOf i k) = ns && nameLocal (nameOf i k) == loc with
  | some k => pure k
  | none => if profUnknownOk p then pure 0xFFF else Cut.fail 0x47

/-- The name index of an element's or an attribute's name. -/
def resolveName (i p : List Byte) (attr : Bool) (n : List Byte × List Byte) : Cut Nat :=
  if n.1.isEmpty && attr then nameIndex i p 0xFF n.2
  else
    match nsIndex p n.1 with
    | some k => nameIndex i p k n.2
    | none => if n.1.isEmpty then nameIndex i p 0xFF n.2 else Cut.fail 0x44

def isDecl (n : List Byte × List Byte) : Bool := (n.1.isEmpty && n.2 == ascii "xmlns") || n.1 == ascii "xmlns"

/-- The attributes of a start tag: their descriptors, after the element's. -/
def cutAttributes (i p full : List Byte) (level parent : Nat) : Nat → List (List Byte × List Byte) → Cut Bool
  | 0, _ => pure false
  | fuel + 1, seen => do
    let before ← Cut.pos
    Cut.spaces (full.length + 1)
    if ← Cut.accept (ascii ">") then pure false
    else if ← Cut.accept (ascii "/>") then pure true
    else
      let at' ← Cut.pos
      if at' = before then Cut.fail 0x42
      else
        let n ← Cut.qname full (full.length + 1)
        if seen.contains n then Cut.fail 0x42
        if 16 ≤ seen.length then Cut.fail 0x43
        Cut.spaces (full.length + 1)
        Cut.expect (ascii "=") 0x42
        Cut.spaces (full.length + 1)
        let (o, k, refs) ← cutAttValue full (full.length + 1)
        if isDecl n then
          let pre := if n.1.isEmpty then [] else n.2
          match nsIndex p pre with
          | none => Cut.fail 0x44
          | some x => if nsUri (profNs p x) == (full.drop o).take k then pure () else Cut.fail 0x44
        else
          let x ← resolveName i p true n
          let _ ← Cut.emit
            { fid := 0x30000000 + x, offset := o, length := k, enc := 5, level := level + 1, parent := parent
              flags := if refs then 8 else 0, start := at', complete := true }
        cutAttributes i p full level parent fuel (n :: seen)

/-- The descriptor at an index is completed. -/
def Cut.complete (i : Nat) (f : Desc → Desc) : Cut Unit := fun s =>
  let n := s.descs.length - 1 - i
  .ok () { s with descs := s.descs.modify n fun d => { f d with complete := true } }

/-- An element ends: its content runs from where its frame says up to `stop`. -/
def cutClose (f : XFrame) (stop : Nat) (tag : Bool) : Cut Unit :=
  Cut.complete f.index fun d =>
    match f.cdata with
    | some (o, n) => { d with offset := o, length := n, flags := 16 }
    | none =>
      if tag || stop = f.from' then { d with offset := f.tagAt, length := 0, flags := 2 }
      else
        { d with offset := f.from', length := stop - f.from'
                 flags := (if f.kids.isEmpty then 0 else 1) + (if f.refs && f.kids.isEmpty then 8 else 0) }

/-- A start tag after '<': the open frames after it. -/
def cutStart (i p full : List Byte) (tagAt : Nat) (st : List XFrame) : Cut (List XFrame) := do
  let n ← Cut.qname full (full.length + 1)
  let x ← resolveName i p false n
  if st.isEmpty && profRoot p ≠ 0xFFFF && x ≠ profRoot p then Cut.fail 0x44
  if 32 ≤ st.length then Cut.fail 0x43
  let occ := ((st.head?.map (·.kids)).getD [] |>.lookup x).getD 0
  let idx ← Cut.emit
    { fid := 0x20000000 + occ % 4096 * 4096 + x, offset := tagAt, length := 0, enc := 5, level := st.length
      parent := (st.head?.map (·.index)).getD 0xFFFF, flags := 0, start := tagAt, complete := false }
  let st := match st with
    | f :: t => { f with kids := (x, occ + 1) :: f.kids.filter fun e => e.1 ≠ x } :: t
    | [] => []
  match st with
  | f :: _ => if f.text || f.cdata.isSome then Cut.fail 0x46
  | [] => pure ()
  let empty ← cutAttributes i p full st.length idx (full.length + 1) []
  let from' ← Cut.pos
  let f : XFrame := { index := idx, name := n, tagAt := tagAt, from' := from', kids := [], text := false, chars := false, refs := false, cdata := none }
  if empty then
    cutClose f from' true
    pure st
  else pure (f :: st)

/-- After "<!" that opens no comment and no CDATA section: a declaration, or a text that is not well formed. -/
def cutDoctype : Cut Unit := do
  if ← Cut.accept (ascii "DOCTYPE") then Cut.fail 0x41
  else if ← Cut.accept (ascii "ENTITY") then Cut.fail 0x41
  else Cut.fail 0x42

/-- The content of the elements that are open, up to the end of the root. -/
def cutContent (i p full : List Byte) : Nat → List XFrame → Cut Unit
  | 0, _ => pure ()
  | _ + 1, [] => pure ()
  | fuel + 1, f :: t => do
    let at' ← Cut.pos
    let big := full.length + 1
    if ← Cut.accept (ascii "</") then
      let n ← Cut.qname full big
      if n ≠ f.name then Cut.fail 0x42
      Cut.spaces big
      Cut.expect (ascii ">") 0x42
      cutClose f at' false
      cutContent i p full fuel t
    else if ← Cut.accept (ascii "<!--") then
      cutSkip (ascii "-->") true big
      cutContent i p full fuel (f :: t)
    else if ← Cut.accept (ascii "<![CDATA[") then
      let o ← Cut.pos
      cutSkip (ascii "]]>") false big
      let e ← Cut.pos
      if f.text || f.cdata.isSome || !f.kids.isEmpty || f.chars then Cut.fail 0x46
      cutContent i p full fuel ({ f with cdata := some (o, e - 3 - o) } :: t)
    else if ← Cut.accept (ascii "<?") then
      cutPi full big
      cutContent i p full fuel (f :: t)
    else if ← Cut.accept (ascii "<!") then
      cutDoctype
    else if ← Cut.accept (ascii "<") then
      let st ← cutStart i p full at' (f :: t)
      cutContent i p full fuel st
    else if ← Cut.accept (ascii "]]>") then Cut.fail 0x42
    else
      let c ← Cut.char
      if f.cdata.isSome then Cut.fail 0x46
      let f := { f with chars := true }
      let f := if c = 0x26 then { f with refs := true, text := true } else if xmlSpace c then f else { f with text := true }
      if c = 0x26 then cutReference full big
      if f.text && !f.kids.isEmpty then Cut.fail 0x46
      cutContent i p full fuel (f :: t)

/-- Comments, processing instructions and white space before and after the root. -/
def cutMisc (full : List Byte) : Nat → Cut Unit
  | 0 => pure ()
  | fuel + 1 => do
    let c ← Cut.peek
    if xmlSpace c then
      let _ ← Cut.char
      cutMisc full fuel
    else if ← Cut.accept (ascii "<!--") then
      cutSkip (ascii "-->") true (full.length + 1)
      cutMisc full fuel
    else if ← Cut.accept (ascii "<?") then
      cutPi full (full.length + 1)
      cutMisc full fuel
    else if ← Cut.accept (ascii "<!") then
      cutDoctype

def cutXml (i p full : List Byte) (len : Nat) : Cut Unit := do
  let big := full.length + 2
  let _ ← Cut.accept [0xEF, 0xBB, 0xBF]
  let s ← get
  if ← Cut.accept (ascii "<?xml") then
    let c ← Cut.peek
    if xmlSpace c then cutDecl full big else set s
  cutMisc full big
  Cut.begin
  let at' ← Cut.pos
  Cut.expect (ascii "<") 0x42
  let st ← cutStart i p full at' []
  cutContent i p full big st
  Cut.begin
  cutMisc full big
  Cut.begin
  let q ← Cut.pos
  if q < len then Cut.fail 0x42

/-! ## A whole cut -/

/-- What a cut of the bytes at hand gives: the descriptors known, whether the message is complete, has failed with a DETAIL, or
needs more bytes, and the offset of the first field without a descriptor. -/
structure CutResult where
  descs : List Desc
  error : Option CutErr
  at' : Nat

/-- Cut the bytes at hand of a message of `len` bytes under a profile of a set's image (R528, R543). -/
def cutMessage (image : List Byte) (prof : Nat) (data : List Byte) (len cap : Nat) : CutResult :=
  let p := profileOf image prof
  let run : Cut Unit := match profMode p with
    | 1 => cutIso p len
    | 2 => cutTlv (data.length + 1) len 0 0xFFFF 0
    | _ => cutXml image p data len
  match run { rest := data, pos := 0, len := len, descs := [], start := 0, cap := cap } with
  | .ok _ s => { descs := s.descs.reverse, error := none, at' := len }
  | .error e s =>
    let all := s.descs.reverse
    let known := all.takeWhile (·.complete)
    { descs := known, error := some e, at' := match all.find? fun d => !d.complete with | some d => d.start | none => s.start }

end Sys2Proof.Machine
end

