-- ==== Sys2Proof/Machine/DecMath.lean ====
section
/-!
DEFINITION. Machine/DecMath.lean: decimal128 arithmetic (R161 to R167): IEEE 754-2008 in the densely packed encoding.
-/

namespace Sys2Proof.Machine

/-- A decimal128 datum: the value is (-1)^neg * coeff * 10^exp. -/
inductive Dec where
  | nan (neg sig : Bool) (payload : Nat)
  | inf (neg : Bool)
  | fin (neg : Bool) (coeff : Nat) (exp : Int)
  deriving DecidableEq, Repr

/-! ## The encoding -/

/-- A declet as a number 0 to 999 (IEEE 754-2008 table 3.3). -/
def decletVal (w : Nat) : Nat :=
  let pqr := w / 128 % 8
  let stu := w / 16 % 8
  let wxy := w % 8
  let r := w / 128 % 2
  let u := w / 16 % 2
  let y := w % 2
  let pq := w / 256 % 4 * 2
  let st := w / 32 % 4 * 2
  if w / 8 % 2 = 0 then pqr * 100 + stu * 10 + wxy
  else
    match w / 2 % 4 with
    | 0 => pqr * 100 + stu * 10 + (8 + y)
    | 1 => pqr * 100 + (8 + u) * 10 + (st + y)
    | 2 => (8 + r) * 100 + stu * 10 + (pq + y)
    | _ =>
      match w / 32 % 4 with
      | 0 => (8 + r) * 100 + (8 + u) * 10 + (pq + y)
      | 1 => (8 + r) * 100 + (pq + u) * 10 + (8 + y)
      | 2 => pqr * 100 + (8 + u) * 10 + (8 + y)
      | _ => (8 + r) * 100 + (8 + u) * 10 + (8 + y)

/-- The canonical declet of a number 0 to 999 (IEEE 754-2008 table 3.4). -/
def decletOf (n : Nat) : Nat :=
  let d2 := n / 100 % 10
  let d1 := n / 10 % 10
  let d0 := n % 10
  let low (d : Nat) := d % 2
  let mid (d : Nat) := d / 2 % 4
  let tail (k : Nat) := 8 + k * 2 + low d0
  match decide (d2 ≥ 8), decide (d1 ≥ 8), decide (d0 ≥ 8) with
  | false, false, false => d2 * 128 + d1 * 16 + d0
  | false, false, true => d2 * 128 + d1 * 16 + tail 0
  | false, true, false => d2 * 128 + mid d0 * 32 + low d1 * 16 + tail 1
  | true, false, false => mid d0 * 256 + low d2 * 128 + d1 * 16 + tail 2
  | true, true, false => mid d0 * 256 + low d2 * 128 + low d1 * 16 + tail 3
  | true, false, true => mid d1 * 256 + low d2 * 128 + 1 * 32 + low d1 * 16 + tail 3
  | false, true, true => d2 * 128 + 2 * 32 + low d1 * 16 + tail 3
  | true, true, true => low d2 * 128 + 3 * 32 + low d1 * 16 + tail 3

/-- `n` declets as a number. -/
def decletsVal : Nat → Nat → Nat
  | 0, _ => 0
  | n + 1, w => decletVal (w % 1024) + 1000 * decletsVal n (w / 1024)
/-- A number's `n` declets. -/
def decletsOf : Nat → Nat → Nat
  | 0, _ => 0
  | n + 1, v => decletOf (v % 1000) + 1024 * decletsOf n (v / 1000)

/-- The datum that 128 bits encode. -/
def Dec.decode (q : Quad) : Dec :=
  let v := q.toNat
  let neg := q.getLsbD 127
  let g := slice v 126 122
  let trail := decletsVal 11 (v % 2 ^ 110)
  if g = 31 then .nan neg (q.getLsbD 121) trail
  else if g = 30 then .inf neg
  else
    let cont := slice v 121 110
    let (hi, lead) := if g ≥ 24 then (g / 2 % 4, 8 + g % 2) else (g / 8, g % 8)
    .fin neg (lead * 10 ^ 33 + trail) ((hi * 2 ^ 12 + cont : Nat) - 6176)

/-- The canonical encoding of a datum. -/
def Dec.encode : Dec → Quad
  | .nan neg sig p =>
    BitVec.ofNat 128 ((if neg then 2 ^ 127 else 0) + 31 * 2 ^ 122 + (if sig then 2 ^ 121 else 0) + decletsOf 11 (p % 10 ^ 33))
  | .inf neg => BitVec.ofNat 128 ((if neg then 2 ^ 127 else 0) + 30 * 2 ^ 122)
  | .fin neg c e =>
    let be := (e + 6176).toNat
    let lead := c / 10 ^ 33
    let hi := be / 2 ^ 12 % 4
    let g := if lead ≥ 8 then 24 + hi * 2 + lead % 2 else hi * 8 + lead
    BitVec.ofNat 128 ((if neg then 2 ^ 127 else 0) + g * 2 ^ 122 + be % 2 ^ 12 * 2 ^ 110 + decletsOf 11 (c % 10 ^ 33))

/-! ## Rounding -/

/-- Exceptions that an operation signals, and those whose flag default handling sets: underflow is signalled by a tiny
result, and its flag is set only if the result is inexact (IEEE 754-2008 clause 7.5). Bits as in FLAGS (R163). -/
structure Exc where
  signals : BitVec 5
  flags : BitVec 5
  deriving DecidableEq, Repr

def Exc.none : Exc := ⟨0, 0⟩
def Exc.of (b : BitVec 5) : Exc := ⟨b, b⟩
def excInvalid : BitVec 5 := 1
def excDivZero : BitVec 5 := 2
def excOverflow : BitVec 5 := 4
def excUnderflow : BitVec 5 := 8
def excInexact : BitVec 5 := 16

/-- Decimal digits of a number, at most `fuel`. -/
def digitsAux : Nat → Nat → Nat
  | 0, _ => 0
  | f + 1, n => if n = 0 then 0 else digitsAux f (n / 10) + 1
def digits (n : Nat) : Nat := digitsAux (Nat.log2 n + 1) n

/-- The discarded part `rem` of `10^drop` rounds the coefficient up (R164). -/
def roundsUp (rm : Nat) (neg : Bool) (c rem unit : Nat) : Bool :=
  match rm with
  | 0 => 2 * rem > unit || (2 * rem = unit && c % 2 = 1)
  | 1 => 2 * rem ≥ unit && rem > 0
  | 2 => false
  | 3 => !neg && rem > 0
  | _ => neg && rem > 0

/-- Strip trailing zeros while the exponent is below `pref`. -/
def stripTo (pref : Int) : Nat → Nat → Int → Nat × Int
  | 0, c, e => (c, e)
  | f + 1, c, e => if e < pref && c % 10 = 0 then stripTo pref f (c / 10) (e + 1) else (c, e)
/-- Append zeros while the exponent is above `pref` and 34 digits hold the coefficient. -/
def decPad (pref : Int) : Nat → Nat → Int → Nat × Int
  | 0, c, e => (c, e)
  | f + 1, c, e => if pref < e && c * 10 < 10 ^ 34 then decPad pref f (c * 10) (e - 1) else (c, e)

/-- Overflow's default result (IEEE 754-2008 clause 7.4). -/
def overflowResult (rm : Nat) (neg : Bool) : Dec :=
  let max := Dec.fin neg (10 ^ 34 - 1) 6111
  match rm with
  | 2 => max
  | 3 => if neg then max else .inf neg
  | 4 => if neg then .inf neg else max
  | _ => .inf neg

/-- The exact value c * 10^e delivered in the format, as near as possible to exponent `pref` where it is exact. -/
def Dec.deliver (rm : Nat) (neg : Bool) (c : Nat) (e pref : Int) : Dec × Exc :=
  if c = 0 then (.fin neg 0 (max (-6176) (min 6111 pref)), Exc.none)
  else
    let d := digits c
    let tiny := decide (e + d - 1 < -6143)
    let drop := max (d - 34) ((-6176 - e).toNat)
    let unit := 10 ^ drop
    let rem := c % unit
    let inexact := decide (rem ≠ 0)
    let c1 := c / unit
    let e1 := e + drop
    let (c2, e2) :=
      if inexact then
        let c2 := if roundsUp rm neg c1 rem unit then c1 + 1 else c1
        if c2 = 10 ^ 34 then (10 ^ 33, e1 + 1) else (c2, e1)
      else
        let (c2, e2) := stripTo pref 80 c1 e1
        decPad (max pref (-6176)) 40 c2 e2
    let (c3, e3) := if e2 > 6111 then decPad 6111 40 c2 e2 else (c2, e2)
    if e3 > 6111 then (overflowResult rm neg, Exc.of (excOverflow ||| excInexact))
    else
      let ix := if inexact then excInexact else 0
      let r := Dec.fin neg c3 e3
      if tiny then (r, ⟨ix ||| excUnderflow, if inexact then ix ||| excUnderflow else 0⟩) else (r, Exc.of ix)

/-! ## Operations -/

def Dec.isNan : Dec → Bool
  | .nan .. => true
  | _ => false
def Dec.isSig : Dec → Bool
  | .nan _ s _ => s
  | _ => false
def Dec.quiet : Dec → Dec
  | .nan n _ p => .nan n false p
  | d => d

/-- An invalid operation's quiet NaN. -/
def invalidResult (a b : Quad) : Dec × Exc :=
  let (n, p) := Config.nanNew a b
  (.nan n false (p % 10 ^ 33), Exc.of excInvalid)

/-- The result when an operand is a NaN; none otherwise. It keeps that operand's sign, which IEEE 754-2008 6.3 leaves open: DESIGN
CHOICE (log 87). -/
def nanResult (a b : Quad) : Option (Dec × Exc) :=
  let x := Dec.decode a
  let y := Dec.decode b
  if !x.isNan && !y.isNan then none
  else
    let r := if !y.isNan then x else if !x.isNan then y else if Config.nanFirst a b then x else y
    some (r.quiet, Exc.of (if x.isSig || y.isSig then excInvalid else 0))

/-- ds1 + ds2, with the sign of ds2 turned for a subtraction. -/
def decAdd (rm : Nat) (sub : Bool) (a b : Quad) : Dec × Exc :=
  match nanResult a b with
  | some r => r
  | none =>
    match Dec.decode a, Dec.decode b with
    | .inf m, .inf n => if m = (n != sub) then (.inf m, Exc.none) else invalidResult a b
    | .inf m, _ => (.inf m, Exc.none)
    | _, .inf n => (.inf (n != sub), Exc.none)
    | .fin m c e, .fin n d f =>
      let n := n != sub
      let x := min e f
      let u : Int := (if m then -1 else 1) * ((c * 10 ^ (e - x).toNat : Nat) : Int)
      let v : Int := (if n then -1 else 1) * ((d * 10 ^ (f - x).toNat : Nat) : Int)
      let w := u + v
      let neg := if w = 0 then (if m = n then m else rm = 4) else decide (w < 0)
      Dec.deliver rm neg w.natAbs x x
    | _, _ => invalidResult a b

def decMul (rm : Nat) (a b : Quad) : Dec × Exc :=
  match nanResult a b with
  | some r => r
  | none =>
    match Dec.decode a, Dec.decode b with
    | .inf m, .inf n => (.inf (m != n), Exc.none)
    | .inf m, .fin n d _ => if d = 0 then invalidResult a b else (.inf (m != n), Exc.none)
    | .fin m c _, .inf n => if c = 0 then invalidResult a b else (.inf (m != n), Exc.none)
    | .fin m c e, .fin n d f => Dec.deliver rm (m != n) (c * d) (e + f) (e + f)
    | _, _ => invalidResult a b

def decDiv (rm : Nat) (a b : Quad) : Dec × Exc :=
  match nanResult a b with
  | some r => r
  | none =>
    match Dec.decode a, Dec.decode b with
    | .inf _, .inf _ => invalidResult a b
    | .inf m, .fin n _ _ => (.inf (m != n), Exc.none)
    | .fin m _ _, .inf n => (.fin (m != n) 0 (-6176), Exc.none)
    | .fin m c e, .fin n d f =>
      if d = 0 then
        if c = 0 then invalidResult a b else (.inf (m != n), Exc.of excDivZero)
      else if c = 0 then Dec.deliver rm (m != n) 0 0 (e - f)
      else
        let q := c * 10 ^ 71 / d
        let r := c * 10 ^ 71 % d
        -- a nonzero remainder stands as one further digit, which rounding always discards
        if r = 0 then Dec.deliver rm (m != n) q (e - f - 71) (e - f)
        else Dec.deliver rm (m != n) (q * 10 + 1) (e - f - 72) (e - f)
    | _, _ => invalidResult a b

/-- c * 10^e as an integer multiple of 10^t: the rounded coefficient and whether rounding changed it. -/
def scaleTo (rm : Nat) (neg : Bool) (c : Nat) (e t : Int) : Nat × Bool :=
  if t ≤ e then (c * 10 ^ (e - t).toNat, false)
  else
    let unit := 10 ^ (t - e).toNat
    let q := c / unit
    let rem := c % unit
    (if roundsUp rm neg q rem unit then q + 1 else q, decide (rem ≠ 0))

def decQuantize (rm : Nat) (a b : Quad) : Dec × Exc :=
  match nanResult a b with
  | some r => r
  | none =>
    match Dec.decode a, Dec.decode b with
    | .inf m, .inf _ => (.inf m, Exc.none)
    | .fin m c e, .fin _ _ f =>
      if c = 0 then (.fin m 0 f, Exc.none)
      else if e - f > 40 then invalidResult a b
      else
        let (q, ix) := scaleTo rm m c e f
        if q ≥ 10 ^ 34 then invalidResult a b
        else (.fin m q f, Exc.of (if ix then excInexact else 0))
    | _, _ => invalidResult a b

/-- To fixed point (R166): the pair's value and the exceptions. -/
def decToFixed (rm : Nat) (exact : Bool) (a : Quad) (s : Nat) : Dword × Exc :=
  let bad : Dword × Exc := (0x8000000000000000, Exc.of excInvalid)
  match Dec.decode a with
  | .fin m c e =>
    if c ≠ 0 && e + s > 40 then bad
    else
      let (q, ix) := scaleTo rm m c (e + s) 0
      let v : Int := if m then -(q : Int) else q
      if exact && ix then bad
      else if v < -(2 ^ 63) || 2 ^ 63 ≤ v then bad
      else (BitVec.ofInt 64 v, Exc.of (if ix then excInexact else 0))
  | _ => bad

/-- From fixed point (R166): always exact. -/
def decFromFixed (v : Dword) (s : Nat) : Dec := .fin (decide (v.toInt < 0)) v.toInt.natAbs (-(s : Int))

/-- The packed BCD nibbles of a number, `n` digits. -/
def bcdOf : Nat → Nat → Nat
  | 0, _ => 0
  | n + 1, v => v % 10 + 16 * bcdOf n (v / 10)
/-- The number that `n` packed BCD nibbles spell; none with a nibble above 9. -/
def bcdVal : Nat → Nat → Option Nat
  | 0, _ => some 0
  | n + 1, v => if v % 16 > 9 then none else (bcdVal n (v / 16)).map fun t => v % 16 + 10 * t

/-- To packed BCD (R167). -/
def decToBcd (rm : Nat) (a : Quad) (s : Nat) : Dword × Exc :=
  let bad : Dword × Exc := (Config.bcdInvalid a, Exc.of excInvalid)
  match Dec.decode a with
  | .fin m c e =>
    if m && c ≠ 0 then bad
    else if c ≠ 0 && e + s > 20 then bad
    else
      let (q, ix) := scaleTo rm m c (e + s) 0
      if q ≥ 10 ^ 16 then bad
      else (BitVec.ofNat 64 (bcdOf 16 q), Exc.of (if ix then excInexact else 0))
  | _ => bad

/-- From packed BCD (R167). -/
def decFromBcd (v : Dword) (s : Nat) : Dec × Exc :=
  match bcdVal 16 v.toNat with
  | some n => (.fin false n (-(s : Int)), Exc.none)
  | none => invalidResult (v.zeroExtend 128) 0

/-- The order of two data that are no NaN: negative, zero or positive. -/
def decOrder (a b : Dec) : Int :=
  match a, b with
  | .inf m, .inf n => (if m then -1 else 1) - (if n then -1 else 1)
  | .inf m, _ => if m then -1 else 1
  | _, .inf n => if n then 1 else -1
  | .fin m c e, .fin n d f =>
    let x := min e f
    (if m then -1 else 1) * ((c * 10 ^ (e - x).toNat : Nat) : Int)
      - (if n then -1 else 1) * ((d * 10 ^ (f - x).toNat : Nat) : Int)
  | _, _ => 0

/-- A compare (R162, R210): `rel` on the order, `un` for unordered operands; `sig` makes a quiet NaN invalid. -/
def decCompare (rel : Int → Bool) (un sig : Bool) (a b : Quad) : Bool × Exc :=
  let x := Dec.decode a
  let y := Dec.decode b
  if x.isNan || y.isNan then (un, Exc.of (if sig || x.isSig || y.isSig then excInvalid else 0))
  else (rel (decOrder x y), Exc.none)

end Sys2Proof.Machine
end

