-- ==== Sys2Proof/Machine/Closer.lean ====
section
/-!
DEFINITION. Machine/Closer.lean: assembling a message by a pattern (R544 to R555): conversions of a source's content, and the
ISO 8583, XML and BER-TLV targets.
-/

namespace Sys2Proof.Machine

/-! ## Values (R548 to R550) -/

/-- A source's content: its bytes, its encoding and FLAGS. -/
structure SrcField where
  bytes : List Byte
  enc : Nat
  flags : Nat

/-- A converted value: bytes of the target encoding, or digits that the target encodes. -/
inductive Value where
  | bytes (l : List Byte)
  | digits (ds : List Nat)

/-- The target of a rule: mode, encoding, its element word (0 where it has none), and DSTPROF. -/
structure Target where
  mode : Nat
  enc : Nat
  word : Nat
  prof : List Byte

def utf8Encode (c : Nat) : List Byte :=
  let b (n : Nat) : Byte := BitVec.ofNat 8 n
  if c < 0x80 then [b c]
  else if c < 0x800 then [b (0xC0 + c / 64), b (0x80 + c % 64)]
  else if c < 0x10000 then [b (0xE0 + c / 4096), b (0x80 + c / 64 % 64), b (0x80 + c % 64)]
  else [b (0xF0 + c / 262144), b (0x80 + c / 4096 % 64), b (0x80 + c / 64 % 64), b (0x80 + c % 64)]

/-- The code points of UTF-8 bytes. -/
def utf8Decode : Nat → List Byte → Option (List Nat)
  | 0, l => if l.isEmpty then some [] else none
  | fuel + 1, l =>
    if l.isEmpty then some []
    else match utf8First l with
      | none => none
      | some (c, n) => (utf8Decode fuel (l.drop n)).map (c :: ·)

/-- The characters of a source in a character encoding; none otherwise, or where one has no mapping. -/
def srcChars (sp : List Byte) (s : SrcField) : Option (List Nat) :=
  match s.enc with
  | 1 => if s.bytes.all (·.toNat < 0x80) then some (s.bytes.map (·.toNat)) else none
  | 2 => allSome (s.bytes.map (profAscii sp))
  | 5 => utf8Decode s.bytes.length s.bytes
  | _ => none

/-- The digits of a source, from packed BCD or from characters. -/
def srcDigits (sp : List Byte) (s : SrcField) : Option (List Nat) :=
  if isBcd s.enc then
    let ds := bcdDigits s.enc (s.flags.testBit 2) s.bytes
    if ds.all (· < 10) then some ds else none
  else (srcChars sp s).bind digitsOf

/-- Characters in the target encoding. -/
def putChars (t : Target) (cs : List Nat) : Option (List Byte) :=
  match t.enc with
  | 1 | 6 => if cs.all (· < 0x80) then some (cs.map (BitVec.ofNat 8 ·)) else none
  | 2 | 7 => allSome (cs.map (profEbcdic t.prof))
  | 5 => if t.mode = 3 && !cs.all xmlChar then none else some (cs.flatMap utf8Encode)
  | 0 => if t.mode = 2 then some (cs.flatMap utf8Encode) else none
  | _ => none

/-- Digits in the target: packed BCD later, or characters now. -/
def putDigits (t : Target) (ds : List Nat) : Option Value :=
  if isBcd t.enc || t.enc = 0 then (if t.enc = 0 && t.mode ≠ 2 then none else some (.digits ds))
  else (putChars t (ds.map (· + 0x30))).map .bytes

/-- Nibbles that a packed BCD target takes: digits, after a leading C or D where its element has SIGN (R532). -/
def bcdFits (t : Target) (ns : List Nat) : Bool :=
  let ds := if elSign t.word && (ns.head? == some 12 || ns.head? == some 13) then ns.drop 1 else ns
  ds.all (· < 10)

/-- COPY: the bytes, each valid in the target encoding. -/
def convCopy (t : Target) (s : SrcField) : Option Value :=
  match t.enc with
  | 0 => some (.bytes s.bytes)
  | 1 => if s.bytes.all (·.toNat < 0x80) then some (.bytes s.bytes) else none
  | 2 => if s.bytes.all fun b => (profAscii t.prof b).isSome then some (.bytes s.bytes) else none
  | 3 =>
    let odd := isBcd s.enc && s.flags.testBit 2
    let ns := nibblesOf s.bytes
    let ds := if odd && s.enc = 3 then ns.drop 1 else ns
    if bcdFits t ds then some (.digits ds) else none
  | 4 =>
    let ns := nibblesOf s.bytes
    let ds := if ns.getLast? == some 15 then ns.dropLast else ns
    if bcdFits t ds then some (.digits ds) else none
  | 5 =>
    match utf8Decode s.bytes.length s.bytes with
    | some cs => if t.mode = 3 && !cs.all xmlChar then none else some (.bytes s.bytes)
    | none => none
  | 6 => if s.bytes.all fun b => (hexVal b.toNat).isSome then some (.bytes s.bytes) else none
  | _ => if s.bytes.all fun b => ((profAscii t.prof b).bind hexVal).isSome then some (.bytes s.bytes) else none

/-- Content of a source with REFS: its references decoded (R554). -/
def decodeRefs : Nat → List Byte → Option (List Byte)
  | 0, l => if l.isEmpty then some [] else none
  | _ + 1, [] => some []
  | fuel + 1, b :: t =>
    if b ≠ 0x26 then (decodeRefs fuel t).map (b :: ·)
    else
      let name := t.takeWhile (· ≠ 0x3B)
      let rest := t.drop (name.length + 1)
      let num (base : Nat) (ds : List Byte) : Option (List Byte) :=
        let vs := allSome (ds.map fun d => if base = 16 then hexVal d.toNat else digitVal d.toNat)
        vs.map fun vs => utf8Encode (natOfDigits base vs)
      let one : Option (List Byte) := match name.map (·.toNat) with
        | 0x23 :: 0x78 :: _ => num 16 (name.drop 2)
        | 0x23 :: _ => num 10 (name.drop 1)
        | _ =>
          [(ascii "amp", "&"), (ascii "lt", "<"), (ascii "gt", ">"), (ascii "apos", "'"), (ascii "quot", "\"")].findSome? fun e =>
            if e.1 == name then some (ascii e.2) else none
      match one, decodeRefs fuel rest with
      | some a, some l => some (a ++ l)
      | _, _ => none

/-- The units in which a target element's length counts: digits, or bytes (R532). -/
def targetDigits (t : Target) : Bool := elUnit t.word && isBcd t.enc

/-- AMOUNT (R549): DETAIL of a failure, or the value. The target length is that of the MTI or of an ISO 8583 element; only a
fixed length is filled to, a variable one being a maximum (R532, log 89). -/
def convAmount (t : Target) (sp : List Byte) (rm arg : Nat) (s : SrcField) : Except Nat Value :=
  let sc := slice arg 4 0
  let tc := slice arg 9 5
  let text := arg.testBit 10
  let nibbleChar (d : Nat) : Nat := if d < 10 then d + 0x30 else d + 0x37
  let chars := if isBcd s.enc then some ((bcdDigits s.enc (s.flags.testBit 2) s.bytes).map nibbleChar) else srcChars sp s
  match chars with
  | none => .error 0x51
  | some cs =>
    let signed := arg.testBit 12 && (cs.head? == some 0x43 || cs.head? == some 0x44)
    let neg := if signed then cs.head? == some 0x44 else cs.head? == some 0x2D
    let body := if signed || neg then cs.drop 1 else cs
    let ip := body.takeWhile (· ≠ 0x2E)
    let point := decide (ip.length < body.length)
    let fp := body.drop (ip.length + 1)
    match digitsOf (ip ++ fp) with
    | none => .error 0x51
    | some ds =>
      if ds.isEmpty || (signed && point) then .error 0x51
      else
        let c := natOfDigits 10 ds
        let scale := if point then fp.length else sc
        let (q, inexact) := scaleTo rm neg c (-(scale : Int)) (-(tc : Int))
        if 10 ^ 34 ≤ c || 10 ^ 34 ≤ q || (inexact && arg.testBit 11) then .error 0x52
        else
          let qs := (Nat.toDigits 10 q).map (·.toNat - 0x30)
          let neg := neg && q ≠ 0
          let bounded := t.mode = 1 && t.word ≠ 0
          let units := if targetDigits t || !isBcd t.enc then elLen t.word else 2 * elLen t.word
          if text then
            let qs := List.replicate (tc + 1 - qs.length) 0 ++ qs
            let (a, b) := (qs.take (qs.length - tc), qs.drop (qs.length - tc))
            let out := (if neg then [0x2D] else []) ++ a.map (· + 0x30) ++ (if tc = 0 then [] else 0x2E :: b.map (· + 0x30))
            match putChars t out with
            | none => .error 0x51
            | some l => if bounded && units < l.length then .error 0x52 else .ok (.bytes l)
          else
            let sign := bounded && elSign t.word
            if neg && !sign then .error 0x51
            else
              let room := if sign then units - 1 else units
              if bounded && room < qs.length then .error 0x52
              else
                let qs := if bounded && elForm t.word = 1 then List.replicate (room - qs.length) 0 ++ qs else qs
                if sign && isBcd t.enc then .ok (.digits ((if neg then 13 else 12) :: qs))
                else if sign then
                  match putChars t ((if neg then 0x44 else 0x43) :: qs.map (· + 0x30)) with
                  | some l => .ok (.bytes l)
                  | none => .error 0x51
                else match putDigits t qs with
                  | some v => .ok v
                  | none => .error 0x51

/-- A date and time as far as it is given. -/
structure When where
  year : Option Nat
  month : Option Nat
  day : Option Nat
  hour : Option Nat
  minute : Option Nat
  second : Option Nat

/-- A layout of R550: C and Y digits of the year, M month, D day, h, m, s; other characters stand for themselves. -/
def layoutOf (n : Nat) : String :=
  match n with
  | 0x01 => "MMDDhhmmss"
  | 0x02 => "YYMMDDhhmmss"
  | 0x03 => "YYMMDD"
  | 0x04 => "MMDD"
  | 0x05 => "hhmmss"
  | 0x06 => "YYMM"
  | 0x07 => "CCYYMMDDhhmmss"
  | 0x11 => "CCYY-MM-DD"
  | 0x12 => "CCYY-MM-DDThh:mm:ss"
  | _ => "hh:mm:ss"

/-- The number that the digits at a letter's places give. -/
def layoutField (lay : List Char) (cs : List Nat) (c : Char) : Option Nat :=
  let ds := (lay.zip cs).filterMap fun e => if e.1 = c then some (e.2 - 0x30) else none
  if ds.isEmpty then none else some (natOfDigits 10 ds)

def leapYear (y : Nat) : Bool := y % 4 == 0 && (y % 100 != 0 || y % 400 == 0)
def monthDays (y m : Nat) : Nat :=
  if m = 2 then (if leapYear y then 29 else 28) else if [4, 6, 9, 11].contains m then 30 else 31

/-- DATETIME (R550). -/
def convDate (t : Target) (sp : List Byte) (year arg : Nat) (s : SrcField) : Except Nat Value :=
  let lay := (layoutOf (slice arg 7 0)).toList
  let out := (layoutOf (slice arg 15 8)).toList
  let chars := if isBcd s.enc then (srcDigits sp s).map fun ds => ds.map (· + 0x30) else srcChars sp s
  match chars with
  | none => .error 0x51
  | some cs =>
    let letter (c : Char) : Bool := "CYMDhms".toList.contains c
    if cs.length ≠ lay.length || !((lay.zip cs).all fun e => if letter e.1 then (digitVal e.2).isSome else e.2 == e.1.toNat) then .error 0x51
    else
      let f := layoutField lay cs
      let yy := f 'Y'
      let y : Option Nat := match f 'C', yy with
        | some c, some y => some (c * 100 + y)
        | none, some y => some (2000 + y)
        | _, none => none
      let w : When := { year := y, month := f 'M', day := f 'D', hour := f 'h', minute := f 'm', second := f 's' }
      let ref := w.year.getD (if year = 0 then 2000 else 2000 + year)
      let ok := (w.month.all fun m => 1 ≤ m && m ≤ 12) && (w.day.all fun d => 1 ≤ d && d ≤ monthDays ref (w.month.getD 1))
        && w.hour.all (· ≤ 23) && w.minute.all (· ≤ 59) && w.second.all (· ≤ 59)
      let needsYear := out.contains 'Y' && w.year.isNone
      let lacks (c : Char) (v : Option Nat) : Bool := out.contains c && v.isNone
      if !ok || lacks 'M' w.month || lacks 'D' w.day || lacks 'h' w.hour || lacks 'm' w.minute || lacks 's' w.second then .error 0x51
      else if needsYear && year = 0 then .error 0x59
      else
        let yv := w.year.getD (2000 + year)
        -- each letter stands twice in a layout: tens first
        let put : List Char → Char → Nat := fun before c =>
          let v := match c with
            | 'C' => yv / 100 % 100
            | 'Y' => yv % 100
            | 'M' => w.month.getD 0
            | 'D' => w.day.getD 0
            | 'h' => w.hour.getD 0
            | 'm' => w.minute.getD 0
            | _ => w.second.getD 0
          if before.contains c then v % 10 else v / 10
        let cs := (List.range out.length).map fun k =>
          let c := out.getD k ' '
          if letter c then 0x30 + put (out.take k) c else c.toNat
        let v := if slice arg 15 8 ≤ 7 then putDigits t (cs.map (· - 0x30)) else (putChars t cs).map .bytes
        match v with
        | some v => .ok v
        | none => .error 0x51

def hexChars (l : List Byte) : List Nat := (nibblesOf l).map fun n => if n < 10 then 0x30 + n else 0x37 + n
def pairs {α : Type} : List α → Option (List (α × α))
  | [] => some []
  | [_] => none
  | a :: b :: t => (pairs t).map ((a, b) :: ·)

/-- HEX: binary to upper-case characters, or the reverse. -/
def convHex (t : Target) (sp : List Byte) (s : SrcField) : Option Value :=
  if t.enc = 0 then
    let cs := if s.enc = 6 || s.enc = 7 then some (charCodes sp s.enc s.bytes) else srcChars sp s
    ((cs.bind fun cs => allSome (cs.map hexVal)).bind pairs).map fun ps => .bytes (ps.map fun p => BitVec.ofNat 8 (p.1 * 16 + p.2))
  else if s.enc = 0 then (putChars t (hexChars s.bytes)).map .bytes
  else none

def base64Code (n : Nat) : Nat :=
  if n < 26 then 0x41 + n else if n < 52 then 0x61 + (n - 26) else if n < 62 then 0x30 + (n - 52) else if n = 62 then 0x2B else 0x2F
def base64Val (c : Nat) : Option Nat :=
  if 0x41 ≤ c && c ≤ 0x5A then some (c - 0x41) else if 0x61 ≤ c && c ≤ 0x7A then some (c - 0x61 + 26)
  else if 0x30 ≤ c && c ≤ 0x39 then some (c - 0x30 + 52) else if c = 0x2B then some 62 else if c = 0x2F then some 63 else none
def base64Encode : List Byte → List Nat
  | [] => []
  | [a] => [base64Code (a.toNat / 4), base64Code (a.toNat % 4 * 16), 0x3D, 0x3D]
  | [a, b] => [base64Code (a.toNat / 4), base64Code (a.toNat % 4 * 16 + b.toNat / 16), base64Code (b.toNat % 16 * 4), 0x3D]
  | a :: b :: c :: t =>
    [base64Code (a.toNat / 4), base64Code (a.toNat % 4 * 16 + b.toNat / 16), base64Code (b.toNat % 16 * 4 + c.toNat / 64),
      base64Code (c.toNat % 64)] ++ base64Encode t
/-- Quartets of characters; padding only in the last, its unused bits zero (RFC 4648). -/
def base64Decode : List Nat → Option (List Byte)
  | [] => some []
  | [a, b, 0x3D, 0x3D] =>
    match base64Val a, base64Val b with
    | some x, some y => if y % 16 = 0 then some [BitVec.ofNat 8 (x * 4 + y / 16)] else none
    | _, _ => none
  | [a, b, c, 0x3D] =>
    match base64Val a, base64Val b, base64Val c with
    | some x, some y, some z =>
      if z % 4 = 0 then some [BitVec.ofNat 8 (x * 4 + y / 16), BitVec.ofNat 8 (y % 16 * 16 + z / 4)] else none
    | _, _, _ => none
  | a :: b :: c :: d :: t =>
    match base64Val a, base64Val b, base64Val c, base64Val d, base64Decode t with
    | some x, some y, some z, some w, some l =>
      some (BitVec.ofNat 8 (x * 4 + y / 16) :: BitVec.ofNat 8 (y % 16 * 16 + z / 4) :: BitVec.ofNat 8 (z % 4 * 64 + w) :: l)
    | _, _, _, _, _ => none
  | _ => none

def convBase64 (t : Target) (sp : List Byte) (s : SrcField) : Option Value :=
  if t.enc = 0 then ((srcChars sp s).bind base64Decode).map .bytes
  else if s.enc = 0 then (putChars t (base64Encode s.bytes)).map .bytes
  else none

/-- MAP: the first entry whose key equals the source. -/
def convMap (image : List Byte) (arg : Nat) (s : SrcField) : Except Nat Value :=
  let hit := (List.range (slice arg 31 16)).findSome? fun k =>
    let e := poolOf image (slice arg 15 0 + 16 * k) 16
    if natAt e 0 1 ≤ 7 && bytesAt e 1 (natAt e 0 1) == s.bytes then some (bytesAt e 9 (min 7 (natAt e 8 1))) else none
  match hit with
  | some v => .ok (.bytes v)
  | none => .error 0x58

def ofOpt (v : Option Value) : Except Nat Value :=
  match v with
  | some v => .ok v
  | none => .error 0x51

/-- A rule's conversion of its source (R548). -/
def convert (image sp : List Byte) (t : Target) (year : Nat) (r : List Byte) (s : SrcField) : Except Nat Value :=
  let s : Option SrcField := if s.flags.testBit 3 then (decodeRefs (s.bytes.length + 1) s.bytes).map fun l => { s with bytes := l } else some s
  match s with
  | none => .error 0x51
  | some s =>
    match rConv r with
    | 1 => ofOpt (((srcChars sp s).bind (putChars t)).map .bytes)
    | 2 =>
      let tb := isBcd t.enc || (t.mode = 2 && t.enc = 0)
      if tb == isBcd s.enc then .error 0x51 else ofOpt ((srcDigits sp s).bind (putDigits t))
    | 3 => convAmount t sp (rMode r) (rArg r) s
    | 4 => convDate t sp year (rArg r) s
    | 5 => ofOpt (convHex t sp s)
    | 6 => ofOpt (convBase64 t sp s)
    | 7 => convMap image (rArg r) s
    | _ => ofOpt (convCopy t s)

/-! ## Targets (R553, R554) -/

/-- The output under construction: XML and BER-TLV in `out` and the open frames, ISO 8583 as the MTI and elements. -/
structure AsmOut where
  out : List Byte
  /-- Open elements (name, and unused), or open objects (tag, and content so far); the innermost first. -/
  open' : List (List Byte × List Byte)
  /-- The start tag of the innermost element has no '>' yet; an ATTR rule may come next. -/
  tagOpen : Bool
  attrOk : Bool
  mti : Option (List Byte)
  elems : List (Nat × List Byte)

def AsmOut.empty : AsmOut := { out := [], open' := [], tagOpen := false, attrOk := false, mti := none, elems := [] }

def packDigits (enc : Nat) (ds : List Nat) : List Byte :=
  let ds := if ds.length % 2 = 0 then ds else if enc = 4 then ds ++ [15] else 0 :: ds
  ((pairs ds).getD []).map fun p => BitVec.ofNat 8 (p.1 * 16 + p.2)

/-- The content of a value outside ISO 8583: digits are packed BCD, right-justified. -/
def Value.content : Value → List Byte
  | .bytes l => l
  | .digits ds => packDigits 3 ds

def escapeXml (attr : Bool) (l : List Byte) : List Byte :=
  l.flatMap fun b =>
    if b = 0x26 then ascii "&amp;" else if b = 0x3C then ascii "&lt;" else if b = 0x3E then ascii "&gt;"
    else if attr && b = 0x22 then ascii "&quot;" else [b]

def berLen (n : Nat) : List Byte :=
  if n < 128 then leBytes 1 n else if n < 256 then 0x81 :: leBytes 1 n else 0x82 :: beBytes 2 n
def berTag (t : Nat) : List Byte := if t < 256 then beBytes 1 t else if t < 65536 then beBytes 2 t else beBytes 3 t
def berObject (tag content : List Byte) : List Byte := tag ++ berLen content.length ++ content

/-- A name as XML writes it (R554). -/
def xmlName (image dp : List Byte) (n : Nat) : List Byte :=
  let e := nameOf image n
  if nameNs e = 0xFF then nameLocal e
  else
    let p := nsPrefix (profNs dp (nameNs e))
    if p.isEmpty then nameLocal e else p ++ ascii ":" ++ nameLocal e

def xmlDecls (dp : List Byte) : List Byte :=
  (List.range 8).flatMap fun k =>
    let n := profNs dp k
    if !nsUsed n then []
    else ascii " xmlns" ++ (if (nsPrefix n).isEmpty then [] else ascii ":" ++ nsPrefix n) ++ ascii "=\"" ++ escapeXml true (nsUri n) ++ ascii "\""

/-- The '>' of a start tag that is still open. -/
def AsmOut.closeTag (o : AsmOut) : AsmOut :=
  if o.tagOpen then { o with out := o.out ++ ascii ">", tagOpen := false } else o

def xmlOpen (o : AsmOut) (name decls : List Byte) : AsmOut :=
  let o := o.closeTag
  { o with out := o.out ++ ascii "<" ++ name ++ decls, open' := (name, []) :: o.open', tagOpen := true, attrOk := true }
def xmlClose (o : AsmOut) : Option AsmOut :=
  match o.open' with
  | [] => none
  | (n, _) :: t =>
    let out := if o.tagOpen then o.out ++ ascii "/>" else o.out ++ ascii "</" ++ n ++ ascii ">"
    some { o with out := out, open' := t, tagOpen := false, attrOk := false }
def xmlText (o : AsmOut) (l : List Byte) : AsmOut :=
  if l.isEmpty then { o with attrOk := false }
  else
    let o := o.closeTag
    { o with out := o.out ++ escapeXml false l, attrOk := false }

/-- Bytes go to the innermost open object, or to the output. -/
def berPut (o : AsmOut) (l : List Byte) : AsmOut :=
  match o.open' with
  | [] => { o with out := o.out ++ l }
  | (t, c) :: r => { o with open' := (t, c ++ l) :: r }

/-- An ISO 8583 length prefix of `n`; none where it does not fit (R532). -/
def isoPrefix (dp : List Byte) (form pre n : Nat) : Option (List Byte) :=
  let ds := (List.range form).reverse.map fun k => n / 10 ^ k % 10
  if form = 1 then some []
  else if pre = 3 then
    let k := form - 1
    if 256 ^ k ≤ n then none else some (beBytes k n)
  else if 10 ^ form ≤ n then none
  else match pre with
    | 0 => some (ds.map fun d => BitVec.ofNat 8 (d + 0x30))
    | 1 => allSome (ds.map fun d => profEbcdic dp (d + 0x30))
    | _ => some (packDigits 3 ds)

/-- The nibbles of a value of a packed BCD element. Bytes given as they stand (MAP, CONST) lose their pad nibble: the trailing
0xF of ENC 0x04, and the leading 0x0 of ENC 0x03 where LEN counts an odd number of digits that they then fill (R526). -/
def bcdNibbles (t : Target) (v : Value) : List Nat :=
  match v with
  | .digits d => d
  | .bytes l =>
    let ns := nibblesOf l
    if t.enc = 4 then (if ns.getLast? == some 15 then ns.dropLast else ns)
    else if elUnit t.word && ns.length = elLen t.word + 1 && ns.head? == some 0 then ns.drop 1
    else ns

/-- An element's bytes with its prefix and filling (R553); a value that does not fit gives 0x53. -/
def isoElement (t : Target) (v : Value) : Except Nat (List Byte) :=
  let w := t.word
  let bcd := isBcd t.enc
  let ds := bcdNibbles t v
  let raw := match v with
    | .digits _ => packDigits t.enc ds
    | .bytes l => if bcd then packDigits t.enc ds else l
  let count : Nat := if targetDigits t then ds.length else raw.length
  if elLen w < count then .error 0x53
  else if elForm w = 1 then
    let short := elLen w - count
    if bcd then .ok (packDigits t.enc (List.replicate (if targetDigits t then short else 2 * short) 0 ++ ds))
    else if elNum w then
      match putChars t (List.replicate short 0x30) with
      | some z => .ok (z ++ raw)
      | none => .ok (zeros short ++ raw)
    else if t.enc = 0 then .ok (raw ++ zeros short)
    else match putChars t (List.replicate short 0x20) with
      | some z => .ok (raw ++ z)
      | none => .error 0x51
  else match isoPrefix t.prof (elForm w) (elPrefix w) count with
    | some p => .ok (p ++ raw)
    | none => .error 0x53

/-- A FIELD rule of an ISO 8583 target. -/
def isoField (t : Target) (e : Nat) (v : Value) (o : AsmOut) : Except Nat AsmOut :=
  let last := (o.elems.getLast?.map (·.1)).getD 0
  if e = 0 then
    if o.mti.isSome then .error 0x54
    else
      let l := match v with | .bytes l => l | .digits d => packDigits 3 d
      let n := if profMti t.prof = 2 then 2 else 4
      if n < l.length then .error 0x53 else if l.length < n then .error 0x51 else .ok { o with mti := some l }
  else if o.mti.isNone || e = 1 || e = 65 || e ≤ last then .error 0x54
  else if elForm t.word = 0 then .error 0x53
  else match isoElement t v with
    | .ok l => .ok { o with elems := o.elems ++ [(e, l)] }
    | .error d => .error d

/-- A bitmap in BMENC. -/
def isoBitmap (dp : List Byte) (bits : List Nat) : List Byte :=
  let l := beBytes 8 ((bits.map fun b => 2 ^ (64 - b)).foldl (· + ·) 0)
  match profBm dp with
  | 0 => l
  | 1 => (hexChars l).map (BitVec.ofNat 8 ·)
  | _ => (hexChars l).map fun c => (profEbcdic dp c).getD 0

/-- The message with its bitmaps. -/
def isoMessage (dp : List Byte) (o : AsmOut) : List Byte :=
  let es := o.elems.map (·.1)
  let third := es.any (128 < ·)
  let second := es.any (64 < ·)
  let part (base : Nat) : List Nat := es.filterMap fun e => if base < e && e ≤ base + 64 then some (e - base) else none
  let body (lo hi : Nat) : List Byte := (o.elems.filter fun e => lo < e.1 && e.1 ≤ hi).flatMap (·.2)
  o.mti.getD [] ++ isoBitmap dp (part 0 ++ if second then [1] else [])
    ++ (if second then isoBitmap dp (part 64 ++ if third then [1] else []) else []) ++ body 0 64
    ++ (if third then isoBitmap dp (part 128) else []) ++ body 64 192

/-- The output as it would stand if every object ended here. -/
def AsmOut.whole (o : AsmOut) (mode : Nat) (dp : List Byte) : List Byte :=
  match mode with
  | 1 => if o.mti.isSome then isoMessage dp o else []
  | 2 => o.out ++ o.open'.foldl (fun inner f => berObject f.1 (f.2 ++ inner)) []
  | _ => o.out
/-- The bytes that hold their final values (R553, R555). -/
def AsmOut.final (o : AsmOut) (mode : Nat) : Nat :=
  match mode with
  | 1 => (o.mti.getD []).length
  | 2 => o.out.length + ((o.open'.getLast?.map (·.1.length)).getD 0)
  | _ => o.out.length

/-! ## Executing a pattern (R547, R551, R552) -/

/-- A descriptor of the assembly input. -/
structure InDesc where
  fid : Nat
  offset : Nat
  length : Nat
  enc : Nat
  flags : Nat

def InDesc.of (l : List Byte) : InDesc :=
  { fid := natAt l 0 4, offset := natAt l 4 4, length := natAt l 8 2, enc := natAt l 10 1, flags := natAt l 14 2 }

/-- How an assembly stops before its end. -/
inductive AsmErr where
  | bad (status detail opnd : Nat)
  | stop (s : Stop) (opnd : Nat)

/-- An assembly: the bench, contents read before a suspension that are used again, all contents read, the output, and the
places of output bytes that have been translated, from `from'` on. -/
structure AsmSt where
  bench : Bench
  replay : List Byte
  log : List Byte
  out : AsmOut
  placed : List (Nat × Nat)
  room : Nat

abbrev Asm := EStateM AsmErr AsmSt

def Asm.bad {α : Type} (detail opnd : Nat) : Asm α := fun s => .error (.bad 6 detail opnd) s
def Asm.lift (opnd : Nat) (r : Except Nat AsmOut) : Asm Unit := fun s =>
  match r with
  | .ok o => .ok () { s with out := o }
  | .error d => .error (.bad 6 d opnd) s

/-- What an assembly works under. -/
structure AsmCtx where
  j : JC
  image : List Byte
  sp : List Byte
  dp : List Byte
  year : Nat
  descs : List InDesc
  limit : Nat
  /-- Output goes to memory at C, the first `done` bytes of it written before. -/
  place : Bool
  done : Nat

/-- Content of `n` bytes at `off` of operand A (0) or B (1) (R552). -/
def Asm.content (x : AsmCtx) (opnd off n : Nat) : Asm (List Byte) := fun s =>
  let c := x.j.opnd opnd
  let va := c.cursor.toNat + off
  if va < c.base || c.top < va + n then .error (.bad 5 0x06 opnd) s
  else if n ≤ s.replay.length then
    .ok (s.replay.take n) { s with replay := s.replay.drop n, log := s.log ++ s.replay.take n }
  else
    match J.streamIn x.j va 0 n s.bench with
    | .ok (l, none) B => .ok l { s with bench := B, replay := [], log := s.log ++ l }
    | .ok (_, some st) B =>
      let shift : Stop := match st with
        | .page c o => .page c (o + off)
        | .memory o => .memory (o + off)
      .error (.stop shift opnd) { s with bench := B }
    | .error _ B => .error (.bad 7 1 3) { s with bench := B }

/-- The sources of a rule, in list order (R547). -/
def ruleSources (x : AsmCtx) (r : List Byte) : List InDesc :=
  let want := if rConv r = 9 then 0x40000000 + slice (rArg r) 15 0 else rSrc r
  let mask (f : Nat) : Nat := if rEach r && f / 2 ^ 28 = 2 then f / 2 ^ 24 * 2 ^ 24 + f % 4096 else f
  let hits := x.descs.filter fun d => mask d.fid = mask want
  if rEach r then hits else hits.take 1

/-- A source's content: from A, or for KIND 0x4 from B within LEN (R551). -/
def Asm.source (x : AsmCtx) (d : InDesc) : Asm SrcField := do
  let supply := decide (d.fid / 2 ^ 28 = 4)
  if supply && x.j.len < d.offset + d.length then Asm.bad 0x56 1
  let l ← Asm.content x (if supply then 1 else 0) d.offset d.length
  pure { bytes := l, enc := d.enc, flags := d.flags }

/-- A rule writes one value to its target. -/
def writeValue (x : AsmCtx) (r : List Byte) (t : Target) (v : Value) (o : AsmOut) : Except Nat AsmOut :=
  match rOpc r, t.mode with
  | 1, 1 => isoField t (rDst r) v o
  | 1, 2 => .ok (berPut o (berObject (berTag (rDst r)) v.content))
  | 1, _ =>
    let o := xmlText (xmlOpen o (xmlName x.image x.dp (rDst r)) []) v.content
    match xmlClose o with
    | some o => .ok o
    | none => .error 0x55
  | 4, _ =>
    if !(o.tagOpen && o.attrOk) then .error 0x55
    else .ok { o with out := o.out ++ ascii " " ++ xmlName x.image x.dp (rDst r) ++ ascii "=\"" ++ escapeXml true v.content ++ ascii "\"" }
  | _, _ => if o.open'.isEmpty then .error 0x55 else .ok (xmlText o v.content)

/-- Whatever a rule has added is placed: within the limit, and on pages that can be written (R552, R555). -/
def Asm.settle (x : AsmCtx) (before : AsmOut) : Asm Unit := fun s =>
  let mode := profMode x.dp
  let n := (s.out.whole mode x.dp).length
  if x.limit < n then .error (.bad 6 0x57 2) { s with out := before }
  else if !x.place || n ≤ x.done + s.room then .ok () s
  else
    match J.streamOut x.j (x.j.opnd 2).cursor.toNat (x.done + s.room) n s.bench with
    | .ok (ps, none) B =>
      .ok () { s with bench := B, placed := s.placed ++ ps, room := n - x.done }
    | .ok (ps, some st) B =>
      .error (.stop st 2) { s with bench := B, placed := s.placed ++ ps, room := s.room + (ps.map (·.2)).foldl (· + ·) 0 }
    | .error _ B => .error (.bad 7 1 3) { s with bench := B }

/-- The MTI as an element word: four digits, fixed (R532, R534). -/
def mtiWord : Nat := 0x00040A01

/-- One source of a rule is converted and written. -/
def Asm.apply (x : AsmCtx) (r : List Byte) (v : SrcField) (raw : Bool) : Asm Unit := do
  let s ← get
  let w := if profMode x.dp ≠ 1 then 0 else if rDst r = 0 then mtiWord else profElem x.dp (rDst r)
  let t : Target := { mode := profMode x.dp, enc := targetEnc x.dp r, word := w, prof := x.dp }
  let conv : Except Nat Value := if raw then .ok (.bytes v.bytes) else convert x.image x.sp t x.year r v
  match conv with
  | .error d => Asm.bad d 0
  | .ok v =>
    Asm.lift 0 (writeValue x r t v s.out)
    Asm.settle x s.out

def Asm.each (x : AsmCtx) (r : List Byte) : List InDesc → Asm Unit
  | [] => pure ()
  | d :: t => do
    let v ← Asm.source x d
    Asm.apply x r v false
    Asm.each x r t

/-- A rule (R546); true at END. -/
def Asm.rule (x : AsmCtx) (r : List Byte) : Asm Bool := do
  let s ← get
  let mode := profMode x.dp
  match rOpc r with
  | 0 =>
    if !s.out.open'.isEmpty then Asm.bad 0x55 3
    if mode = 1 && s.out.mti.isNone then Asm.bad 0x54 3
    Asm.settle x s.out
    pure true
  | 2 =>
    let o := if mode = 2 then { s.out with open' := (berTag (rDst r), []) :: s.out.open' }
      else xmlOpen s.out (xmlName x.image x.dp (rDst r)) (if (rArg r).testBit 0 then xmlDecls x.dp else [])
    Asm.lift 3 (.ok o)
    Asm.settle x s.out
    pure false
  | 3 =>
    let o := if mode = 2 then
        match s.out.open' with
        | [] => none
        | f :: t => some (berPut { s.out with open' := t } (berObject f.1 f.2))
      else xmlClose s.out
    match o with
    | none => Asm.bad 0x55 3
    | some o =>
      Asm.lift 3 (.ok o)
      Asm.settle x s.out
      pure false
  | _ =>
    if rConv r = 8 then
      Asm.apply x r { bytes := poolOf x.image (slice (rArg r) 15 0) (slice (rArg r) 31 16), enc := 0, flags := 0 } true
      pure false
    else
      match ruleSources x r with
      | [] => if rOpt r then pure false else if rConv r = 9 then Asm.bad 0x56 1 else Asm.bad 0x50 0
      | ds =>
        Asm.each x r ds
        pure false

def Asm.rules (x : AsmCtx) : List (List Byte) → Asm Unit
  | [] => pure ()
  | r :: t => do
    if ← Asm.rule x r then pure () else Asm.rules x t

/-- An assembly: the output and how it ended. -/
def runAsm (x : AsmCtx) (pat : List Byte) (replay : List Byte) (B : Bench) : Option AsmErr × AsmSt :=
  let rules := (List.range (patNrules pat)).map fun k => ruleOf x.image (patFirst pat + k)
  match Asm.rules x rules { bench := B, replay := replay, log := [], out := .empty, placed := [], room := 0 } with
  | .ok _ s => (none, s)
  | .error e s => (some e, s)

end Sys2Proof.Machine
end

