-- ==== Sys2Proof/Machine/Msg.lean ====
section
/-!
DEFINITION. Machine/Msg.lean: the jobs of the Clickers and Closers (R521, R522, R543, R552, R555) and the streams (R556 to R561).
-/

namespace Sys2Proof.Machine

/-! ## CUT and CUT_STREAM -/

/-- The must-be-zero bits of a message unit's header. -/
def msgFlags (j : JC) : J Unit := do
  J.guardBad (!(j.clearKey || j.preHash || 8 ≤ j.byte 2)) 2
  J.guardBad (j.resume || j.token = 0) 2
  J.guardBad (!(j.resume && j.op = 2)) 2

/-- A job whose stream goes on: its completion is not known yet. -/
def Finish.waiting : Finish := { Finish.ok 0 0 [] with wait := true }

def Finish.badAt (detail opnd progress : Nat) : Finish := { Finish.fail 6 detail opnd 0 with progress := progress }

/-- CUT (R522, R529, R543). -/
def cutRun (j : JC) (image : List Byte) : J Finish := do
  J.checkOperand j 0 (.rd j.len)
  J.checkOperand j 1 .zero
  J.checkOperand j 2 (.wr 0)
  let c := j.opnd 2
  let cap := min 4095 ((c.top - c.cursor.toNat) / 16)
  let (seen, tok) ← J.resumeSeen j
  let j := j.under tok
  let done := (tok.map (·.progress)).getD 0
  let (l, sin) ← J.streamIn j (j.opnd 0).cursor.toNat seen.length j.len
  let data := seen ++ l
  let r := cutMessage image j.var data j.len cap
  -- descriptors written before a suspension are not written again
  let old := if tok.isSome then (r.descs.takeWhile fun d => d.start < done).length else 0
  let new := r.descs.drop old
  let (ps, sout) ← J.streamOut j c.cursor.toNat (16 * old) (16 * r.descs.length)
  let bytes := new.flatMap (·.bytes)
  match sout with
  | some s =>
    let room := (ps.map (·.2)).foldl (· + ·) 0 / 16
    pure (stopFinish s 2 0 ((new.drop room).head?.map (·.start) |>.getD r.at') data [] (layOut ps (bytes.take (16 * room))))
  | none =>
    let writes := layOut ps bytes
    match r.error with
    | none => pure (Finish.ok j.len r.descs.length writes)
    | some (.bad d) => pure { Finish.badAt d (if d = 0x30 then 2 else 0) r.at' with writes := writes }
    | some .short =>
      match sin with
      | some s => pure (stopFinish s 0 0 r.at' data [] writes)
      | none => pure { Finish.badAt 0x15 0 r.at' with writes := writes }

/-! ## ASSEMBLE -/

/-- What an assembly's end makes of its job. -/
def asmFinish (x : AsmCtx) (e : Option AsmErr) (s : AsmSt) : Finish :=
  let mode := profMode x.dp
  let all := s.out.whole mode x.dp
  let final := min (s.out.final mode) (if x.place then x.done + s.room else s.out.final mode)
  let writes (n : Nat) : List (OutAt × List Byte) := if x.place then layOut s.placed ((all.take n).drop x.done) else []
  match e with
  | none => Finish.ok all.length all.length (writes all.length)
  | some (.bad st d o) => { Finish.fail st d o 0 with progress := final, writes := writes final }
  | some (.stop st o) =>
    let f := stopFinish st o 0 final s.log [] (writes final)
    if x.place then f else { f with suspend := none }

def JC.asmCount (j : JC) : Nat := j.aux % 2 ^ 13
def asmCtx (j : JC) (image : List Byte) (descs : List Byte) (limit : Nat) (place : Bool) (done : Nat) : AsmCtx :=
  let pat := patternOf image j.var
  { j := j, image := image, sp := profileOf image (patSrc pat), dp := profileOf image (patDst pat), year := j.aux / 2 ^ 20
    descs := (chunks 16 j.asmCount descs).map InDesc.of, limit := limit, place := place, done := done }

/-- ASSEMBLE (R552, R555). -/
def assembleRun (j : JC) (image : List Byte) : J Finish := do
  J.checkOperand j 0 (.rd 0)
  J.checkOperand j 1 (.rd j.len)
  J.checkOperand j 2 (.wr 0)
  let c := j.opnd 2
  let (seen, tok) ← J.resumeSeen j
  let j := j.under tok
  let n := 16 * j.asmCount
  let (descs, st) ← (if n ≤ seen.length then pure (seen.take n, none) else J.streamIn j (j.opnd 1).cursor.toNat 0 n)
  match st with
  | some s => pure (stopFinish s 1 0 0 [] [] [])
  | none =>
    let x := asmCtx j image descs (min 65536 (c.top - c.cursor.toNat)) true ((tok.map (·.progress)).getD 0)
    let B ← J.bench
    let (e, s) := runAsm x (patternOf image j.var) (seen.drop n) B
    J.mod fun _ => s.bench
    let f := asmFinish x e s
    pure { f with suspend := f.suspend.map (descs ++ ·) }

/-! ## Streams -/

def MsgStream.live (t : MsgStream) : Bool := t.phase != .closed

/-- ESUB may open a stream: eight at most on the unit, one for the task (R556). -/
def Bench.streamRoom (B : Bench) (u : UnitNo) (core : CoreNo) (bank : BankNo) (task : Option Nat) : Bool :=
  let on := B.streams.filter fun t => t.unit = u.val && t.live
  on.length < 8 && !on.any fun t => t.owner core bank task

/-- A stream opens with an accepted descriptor (R556); the one that its task had closed goes. -/
def Bench.streamOpen (B : Bench) (u : UnitNo) (r : Fin 4) (pos : Half) (s : Sub) : Bench :=
  let same (t : MsgStream) : Bool := t.unit == u.val && t.owner s.core s.bank s.task
  let len := leNat ((s.desc.drop 4).take 4)
  let aux := leNat ((s.desc.drop 8).take 4)
  let t : MsgStream :=
    { unit := u.val, ring := r.val, pos := pos, core := s.core, bank := s.bank, task := s.task, phase := .waiting
      var := (s.desc.getD 1 0).toNat, want := if u.val < 16 then len else 16 * (aux % 2 ^ 13), data := [], taken := 0, out := [], popped := 0
      since := 0, image := [] }
  { B with streams := B.streams.filter (fun t => !same t) ++ [t] }

/-- Two records of one stream: its unit and its owner say which it is. -/
def MsgStream.same (t o : MsgStream) : Bool := o.unit == t.unit && o.owner t.core t.bank t.task

/-- The stream is changed. -/
def Bench.setStream (B : Bench) (t : MsgStream) : Bench :=
  { B with streams := B.streams.map fun o => if t.same o && o.live then t else o }

/-- The job in flight of a unit gets its completion. -/
def Bench.setFinish (B : Bench) (u : UnitNo) (f : Finish) : Bench :=
  B.modEng u fun e => { e with job := e.job.map fun j => { j with fin := f } }

/-- The output buffer of 64 descriptors is full (R557). -/
def MsgStream.full (t : MsgStream) (descs : Nat) : Bool := t.popped / 16 + 64 ≤ descs

/-- The cut of what the Clicker has taken. -/
def MsgStream.cut (t : MsgStream) : CutResult := cutMessage t.image t.var (t.data.take t.taken) t.want 4095

/-- A Clicker takes bytes from its input buffer, one by one, until that is empty or its output buffer is full. -/
def clickerTake : Nat → MsgStream → MsgStream
  | 0, t => t
  | fuel + 1, t =>
    if t.taken < t.data.length && !t.full t.cut.descs.length then clickerTake fuel { t with taken := t.taken + 1 } else t

/-- A Clicker goes on with its stream. A field at which the cut fails is reached once the descriptors before it have left the
buffer room. -/
def Bench.clickerGo (B : Bench) (u : UnitNo) (t : MsgStream) : Bench :=
  let t := clickerTake t.data.length t
  let r := t.cut
  let t := { t with out := r.descs.flatMap (·.bytes) }
  let B := B.setStream t
  match r.error with
  | some .short => B
  | some (.bad d) => if t.full r.descs.length then B else B.setFinish u (Finish.badAt d 0 r.at')
  | none => if r.descs.length ≤ t.popped / 16 + 64 then B.setFinish u (Finish.ok t.want r.descs.length []) else B

/-- A Closer executes its rules once every descriptor has arrived (R558). -/
def Bench.closerGo (B : Bench) (u : UnitNo) (t : MsgStream) (j : JC) : Bench :=
  let B := B.setStream t
  if t.data.length < t.want then B
  else
    let x := asmCtx j t.image t.data 65536 false 0
    let (e, s) := runAsm x (patternOf t.image j.var) [] B
    let B := s.bench
    let B := B.setFinish u (asmFinish x e s)
    match e with
    | none => B.setStream { t with taken := t.want, out := s.out.whole (profMode x.dp) x.dp }
    | some _ => B

/-- A stream job goes on after a push, a pop or its begin. -/
def Bench.streamGo (B : Bench) (u : UnitNo) (t : MsgStream) : Bench :=
  match (B.eng u).job with
  | some j =>
    if t.phase != .begun || !j.fin.wait then B.setStream t
    else if u.val < 16 then B.clickerGo u t
    else B.closerGo u t { u := u, sub := j.sub, unit := false }
  | none => B.setStream t

/-- A stream job begins: its stream takes the pattern set in force. -/
def J.streamBegin (j : JC) (image : List Byte) : J Finish := fun B =>
  let begun (t : MsgStream) : MsgStream :=
    if t.of j.u.val (B.eng j.u).lastRing j.sub && t.phase == .waiting then
      { t with phase := .begun, image := image, since := B.time.elapsed }
    else t
  .ok Finish.waiting { B with streams := B.streams.map begun }

/-- The job of a Clicker (R521). -/
def clickerRun (j : JC) (_ : Option UnitJob) : J Finish := do
  let B ← J.bench
  let image := B.pat.active.image
  J.guardBad ((j.op = 1 || j.op = 2) && decide (j.var < setNprof image)) 1
  msgFlags j
  J.guardBad (1 ≤ j.len && j.len ≤ 65536 && j.aux == 0) 3
  if j.op = 1 then cutRun j image
  else
    J.checkOperand j 0 .zero
    J.checkOperand j 1 .zero
    J.checkOperand j 2 .zero
    J.streamBegin j image

/-- The job of a Closer (R521). -/
def closerRun (j : JC) (_ : Option UnitJob) : J Finish := do
  let B ← J.bench
  let image := B.pat.active.image
  J.guardBad ((j.op = 1 || j.op = 2) && decide (j.var < setNpat image)) 1
  msgFlags j
  J.guardBad (slice j.aux 19 13 == 0) 2
  let n := j.asmCount
  J.guardBad (1 ≤ n && n ≤ 4095 && (j.op = 2 || 16 * n ≤ j.len) && j.len ≤ 65536) 3
  if j.op = 1 then assembleRun j image
  else
    J.checkOperand j 0 (.rd 0)
    if (j.opnd 1).tag || (j.opnd 1).bits ≠ 0 || j.len ≠ 0 then J.checkOperand j 1 (.rd j.len)
    J.checkOperand j 2 .zero
    J.streamBegin j image

/-- A stream job that has just begun works on what was pushed before. -/
def Bench.streamStarted (B : Bench) (u : UnitNo) : Bench :=
  match B.streams.find? fun t => t.unit = u.val && t.phase == .begun with
  | some t => B.streamGo u t
  | none => B

def clickerUnit (n : Fin 2) : UnitNo := Fin.ofNat 18 (14 + n.val)
def closerUnit (n : Fin 2) : UnitNo := Fin.ofNat 18 (16 + n.val)

/-- Clicker `n` takes its next job if its OP is `op` (an undefined OP is taken by either row). -/
def Bench.clickerBegin (B : Bench) (n : Fin 2) (op : Nat) : Bench :=
  (B.engBegin (clickerUnit n) (fun o _ => o == op || !(o == 1 || o == 2)) clickerRun fun _ _ _ => []).streamStarted (clickerUnit n)
def Bench.closerBegin (B : Bench) (n : Fin 2) (op : Nat) : Bench :=
  (B.engBegin (closerUnit n) (fun o _ => o == op || !(o == 1 || o == 2)) closerRun fun _ _ _ => []).streamStarted (closerUnit n)

/-- The stream that a strand's pushes and pops on a unit act on (R214, R556). -/
def Bench.findStream (B : Bench) (u : UnitNo) (core : CoreNo) (bank : BankNo) (task : Option Nat) : Option MsgStream :=
  B.streams.find? fun t => t.unit = u.val && t.owner core bank task

/-- A push (R557, R558, R560): false where it waits for room in the input buffer of 256 bytes. The unit awaits it, so that it restarts
the limit of R561, if it brings bytes that the job wants and a full output buffer does not stop the Clicker. -/
def Bench.streamPush (B : Bench) (t : MsgStream) (l : List Byte) : Bool × Bench :=
  let u : UnitNo := Fin.ofNat 18 t.unit
  match t.phase with
  | .failed | .closed | .done => (true, B)
  | p =>
    let held := if p == .begun && 16 ≤ t.unit then 0 else t.data.length - t.taken
    let add := l.take (t.want - t.data.length)
    if 256 < held + add.length then (false, B)
    else
      let awaited := p == .begun && !add.isEmpty && (16 ≤ t.unit || !t.full (t.out.length / 16))
      let t := { t with data := t.data ++ add, since := if awaited then B.time.elapsed else t.since }
      (true, B.streamGo u t)

/-- A pop: its status and, for 0, the 16 bytes (R557 to R560). -/
def Bench.streamPop (B : Bench) (t : MsgStream) : Nat × List Byte × Bench :=
  let u : UnitNo := Fin.ofNat 18 t.unit
  let ended := t.phase == .done || match (B.eng u).job with
    | some j => t.phase == .begun && !j.fin.wait && j.fin.status = 0
    | none => false
  match t.phase with
  | .failed | .closed => (2, [], B.setStream { t with phase := .closed })
  | .waiting => (1, [], B)
  | _ =>
    let l := (t.out.drop t.popped).take 16
    if l.length = 16 || (!l.isEmpty && ended) then
      let t := { t with popped := t.popped + l.length, since := if t.full (t.out.length / 16) then B.time.elapsed else t.since }
      (0, padTo 16 l, B.streamGo u t)
    else if t.phase == .done then
      (2, [], { B with streams := B.streams.filter fun o => !t.same o })
    else (1, [], B)

/-- A stream job is idle for MSG.STALL (R561): it completes BAD_INPUT with DETAIL 0x60. -/
def Bench.streamStall (B : Bench) (u : UnitNo) : Bench :=
  match B.streams.find? fun t => t.unit = u.val && t.phase == .begun with
  | none => B
  | some t =>
    let limit := (B.reg (0x200020 + 0x4000 * (u.val - 14))).toNat % 2 ^ 16
    let wait := match (B.eng u).job with | some j => j.fin.wait | none => false
    if !wait || B.time.elapsed - t.since < limit then B
    else
      let at' := if u.val < 16 then (cutMessage t.image t.var (t.data.take t.taken) t.want 4095).at' else 0
      (B.setFinish u (Finish.badAt 0x60 3 at')).jobComplete u (unitInstance u.val)

end Sys2Proof.Machine
end

