-- ==== Sys2Proof/Machine/CoreEng.lean ====
section
/-!
DEFINITION. Machine/CoreEng.lean: the coprocessor group, majors 0x79 to 0x7B (R212 to R217): ring submission and completion, stream
pushes and pops, journal staging and appends, bench time.
-/

namespace Sys2Proof.Machine

/-! ## ESUB and EPOLL -/

/-- The four granules of a 64-byte descriptor, read as one part, each with the tag that a capability load through `auth` leaves it (R91,
R92, R109, R381, R475). -/
def M.readOperands (σ : Strand) (auth : Cap) (p : Part) : M (List Cap) := do
  let B ← M.bench
  let tagged := B.mafAllows (midCore σ.core) p.pa .r && decide (paType p.pa = .normal)
  let (v, _) ← M.readPart σ p kindRead .r false false
  let B ← M.bench
  pure ((List.range 4).map fun i =>
    auth.loaded (B.filtered (capOf ((v.drop (16 * i)).take 16) (tagged && B.mem.tag (p.pa / 16 + i)))) p.caps)

/-- The bytes of four granules. -/
def capBytes (l : List Cap) : List Byte := l.flatMap fun c => leBytes 16 c.bits.toNat
def capTags (l : List Cap) : BitVec 4 :=
  let bit (i : Nat) : Nat := if (l.getD i Cap.null).tag then 2 ^ i else 0
  BitVec.ofNat 4 (bit 0 + bit 1 + bit 2 + bit 3)

/-- What a submission records (R364, R465). -/
def Bench.subOf (B : Bench) (σ : Strand) (l : List Cap) : Sub :=
  let s := B.bank σ.core σ.bank
  { desc := capBytes l, tags := capTags l, seq := 0, origin := B.origin σ.core σ.bank, mode := slice s.atp.toNat 17 16
    asid := slice s.atp.toNat 15 0, root := slice s.atpRoot.toNat 27 0, sys := s.pccHas permSYS, core := σ.core, bank := σ.bank
    task := s.task }

/-- The descriptor opens a stream: a Clicker or Closer, and the streaming OP (R556). -/
def opensStream (u : Nat) (d : List Byte) : Bool := 14 ≤ u && d.headD 0 == 2

/-- Without a read of the descriptor: the status that ESUB returns for the unit and ring word (R212, R471). -/
def Bench.subStatus (B : Bench) (σ : Strand) (u : UnitNo) (r : Fin 4) : Nat := (B.submit u r (B.subOf σ [])).1.toNat % 16

def bodyEsub (rd cs1 rs2 : Reg) (σ : Strand) : M (Option Cap) := do
  let c ← M.getC σ cs1
  M.ofExcept c.cursor (c.checkAccess c.cursor 64 [permLD, permLDC, permENG] 64 .capAlign)
  let ps ← M.xlate σ c.cursor.toNat 64 .capLoad 64
  let w ← M.getX σ rs2
  let u : UnitNo := Fin.ofNat 18 (unitOf w)
  let r : Fin 4 := Fin.ofNat 4 (ringOf w)
  let B ← M.bench
  let st := if unitWordOk w then B.subStatus σ u r else 3
  if st ≠ 0 then M.setX σ rd (BitVec.ofNat 32 st)
  else
    let l ← match ps with
      | p :: _ => M.readOperands σ c p
      | [] => pure []
    let B ← M.bench
    let sub := B.subOf σ l
    if opensStream u.val sub.desc && !B.streamRoom u σ.core σ.bank sub.task then M.setX σ rd 1
    else
      let (v, B) := B.submit u r sub
      let B := if opensStream u.val sub.desc then B.streamOpen u r (v.extractLsb' 16 16) sub else B
      M.put B
      M.setX σ rd v
  pure none

def bodyEpoll (rd cs1 rs2 : Reg) (σ : Strand) : M (Option Cap) := do
  let c ← M.getC σ cs1
  M.ofExcept c.cursor (c.checkAccess c.cursor 16 [permST, permENG] 16 .capAlign)
  let ps ← M.xlate σ c.cursor.toNat 16 .store
  let w ← M.getX σ rs2
  if !unitWordOk w then M.setX σ rd 3
  else
    let B ← M.bench
    match B.poll (midCore σ.core) (B.origin σ.core σ.bank) (Fin.ofNat 18 (unitOf w)) (Fin.ofNat 4 (ringOf w)) with
    | (none, B) =>
      M.put B
      M.setX σ rd 1
    | (some l, B) =>
      M.put B
      M.writeParts σ false ps l
      M.setX σ rd 0
  pure none

/-! ## Streams (R214, R556 to R560) -/

/-- The stream that a push or pop acts on: on a Clicker, or on a Closer. -/
def Bench.strandStream (B : Bench) (σ : Strand) (closer : Bool) (w : Word) : Option MsgStream :=
  let u := unitOf w
  if unitWordOk w && 14 ≤ u && decide (16 ≤ u) == closer then
    B.findStream (Fin.ofNat 18 u) σ.core σ.bank (B.bank σ.core σ.bank).task
  else none

def M.stream (σ : Strand) (closer : Bool) (rs2 : Reg) : M MsgStream := do
  let w ← M.getX σ rs2
  let B ← M.bench
  match B.strandStream σ closer w with
  | some t => pure t
  | none => M.illegal σ

/-- The check of a push on its authorising capability. -/
def Cap.pushCheck (c : Cap) : Except Cause Unit := c.checkAccess c.cursor 16 [permLD, permENG] 1 .misaligned

/-- A push of 16 bytes that passes its check finds no room in the input buffer, and waits (R214, R557). -/
def Bench.pushFull (B : Bench) (σ : Strand) (closer : Bool) (cs1 rs2 : Reg) : Bool :=
  let s := B.bank σ.core σ.bank
  match B.strandStream σ closer (s.getX rs2) with
  | none => false
  | some t => okUnit (s.getC cs1).pushCheck && !(B.streamPush t (zeros 16)).1

/-- A push (R214): the check of its capability, the stream it acts on, then the page checks (R230). -/
def bodyPush (closer : Bool) (cs1 rs2 : Reg) (σ : Strand) : M (Option Cap) := do
  let c ← M.getC σ cs1
  M.ofExcept c.cursor c.pushCheck
  let _ ← M.stream σ closer rs2
  let ps ← M.xlate σ c.cursor.toNat 16 .load
  let (l, _) ← M.readParts σ kindRead .r false false ps
  let t ← M.stream σ closer rs2
  M.mod fun B => (B.streamPush t l).2
  M.bumpC σ cs1 (some 16)
  pure none

def bodyPop (closer : Bool) (rd cs1 rs2 : Reg) (σ : Strand) : M (Option Cap) := do
  let c ← M.getC σ cs1
  M.ofExcept c.cursor (c.checkAccess c.cursor 16 [permST, permENG] (if closer then 1 else 16) (if closer then .misaligned else .capAlign))
  let _ ← M.stream σ closer rs2
  let ps ← M.xlate σ c.cursor.toNat 16 .store
  let t ← M.stream σ closer rs2
  let B ← M.bench
  let (st, l, B) := B.streamPop t
  M.put B
  if st = 0 then
    M.writeParts σ false ps l
    M.setX σ rd 0
    M.bumpC σ cs1 (some 16)
  else M.setX σ rd (BitVec.ofNat 32 st)
  pure none

/-! ## The journal (R215, R216) -/

def bodyJpush (cs1 : Reg) (σ : Strand) : M (Option Cap) := do
  let c ← M.getC σ cs1
  M.ofExcept c.cursor (c.checkAccess c.cursor 16 [permLD, permJRN] 1 .misaligned)
  let ps ← M.xlate σ c.cursor.toNat 16 .load
  let (l, _) ← M.readParts σ kindRead .r false false ps
  M.mod fun B => B.modBank σ.core σ.bank fun s =>
    { s with staging := if s.staging.length < 4 then s.staging ++ [BitVec.ofNat 128 (leNat l)] else s.staging, pushes := s.pushes + 1 }
  M.bumpC σ cs1 (some 16)
  pure none

/-- The authority for JAPP passes its checks. -/
def Cap.jappOk (c : Cap) : Bool := c.tag && !c.sealed? && c.has permJRN

/-- An append stalls while the journal unit's island has no clock (R29). -/
def jappWaits (cs1 : Reg) (B : Bench) (k : CoreNo) (b : BankNo) : Bool := !B.jrnRuns && ((B.bank k b).getC cs1).jappOk

def bodyJapp (rd cs1 rs2 : Reg) (σ : Strand) : M (Option Cap) := do
  let c ← M.getC σ cs1
  if !c.tag then M.faultWord σ .capTag
  if c.sealed? then M.faultWord σ .capSeal
  if !c.has permJRN then M.faultWord σ .capPerm
  let w ← M.getX σ rs2
  let s ← M.bank σ
  let B ← M.bench
  let (st, B) := B.jrnSoft (s.staging.map fun q => leBytes 16 q.toNat) s.pushes (slice w.toNat 17 0) (slice w.toNat 25 18)
    (B.origin σ.core σ.bank)
  M.put (B.modBank σ.core σ.bank fun s => { s with staging := [], pushes := 0 })
  M.setX σ rd (BitVec.ofNat 32 st)
  pure none

/-! ## Bench time (R217) -/

def bodyTrd (rd : Reg) (σ : Strand) : M (Option Cap) := do
  if rd.val = 0 || 29 < rd.val then M.illegal σ
  let v ← M.act snapshot
  M.setX σ rd (v.extractLsb' 0 32)
  M.setX σ (rd + 1) (v.extractLsb' 32 32)
  M.setX σ (rd + 2) (v.extractLsb' 64 32)
  pure none

def bodyTrdc (cs1 : Reg) (σ : Strand) : M (Option Cap) := do
  let c ← M.getC σ cs1
  M.ofExcept c.cursor (c.checkAccess c.cursor 16 [permST] 16 .capAlign)
  let ps ← M.xlate σ c.cursor.toNat 16 .store
  let v ← M.act snapshot
  M.writeParts σ false ps (leBytes 16 v.toNat)
  pure none

/-! ## Meanings -/

def execEsub (x : Exec) (rd cs1 rs2 : Reg) (s : State) : Out :=
  s.instr x (encR x.guard 0x79 rd.val cs1.val rs2.val 0x00) (bodyEsub rd cs1 rs2)
def execEpoll (x : Exec) (rd cs1 rs2 : Reg) (s : State) : Out :=
  s.instr x (encR x.guard 0x79 rd.val cs1.val rs2.val 0x01) (bodyEpoll rd cs1 rs2)
/-- A push that finds the input buffer full has not executed yet. -/
def pushWaits (closer : Bool) (cs1 rs2 : Reg) (B : Bench) (k : CoreNo) (b : BankNo) : Bool :=
  B.pushFull { core := k, bank := b, word := 0 } closer cs1 rs2
def execCkpush (x : Exec) (cs1 rs2 : Reg) (s : State) : Out :=
  s.instrWaiting x (encR x.guard 0x79 0 cs1.val rs2.val 0x08) (pushWaits false cs1 rs2) (bodyPush false cs1 rs2)
def execCkpop (x : Exec) (rd cs1 rs2 : Reg) (s : State) : Out :=
  s.instr x (encR x.guard 0x79 rd.val cs1.val rs2.val 0x09) (bodyPop false rd cs1 rs2)
def execClpush (x : Exec) (cs1 rs2 : Reg) (s : State) : Out :=
  s.instrWaiting x (encR x.guard 0x79 0 cs1.val rs2.val 0x0A) (pushWaits true cs1 rs2) (bodyPush true cs1 rs2)
def execClpop (x : Exec) (rd cs1 rs2 : Reg) (s : State) : Out :=
  s.instr x (encR x.guard 0x79 rd.val cs1.val rs2.val 0x0B) (bodyPop true rd cs1 rs2)
def execJpush (x : Exec) (cs1 : Reg) (s : State) : Out :=
  s.instr x (encR x.guard 0x7A 0 cs1.val 0 0x08) (bodyJpush cs1)
def execJapp (x : Exec) (rd cs1 rs2 : Reg) (s : State) : Out :=
  s.instrWaiting x (encR x.guard 0x7A rd.val cs1.val rs2.val 0x00) (jappWaits cs1) (bodyJapp rd cs1 rs2)
def execTrd (x : Exec) (rd : Reg) (s : State) : Out := s.instr x (encR x.guard 0x7B rd.val 0 0 0x00) (bodyTrd rd)
def execTrdc (x : Exec) (cs1 : Reg) (s : State) : Out := s.instr x (encR x.guard 0x7B 0 cs1.val 0 0x01) (bodyTrdc cs1)

end Sys2Proof.Machine
end

