-- ==== Sys2Proof/Machine/CoreFlow.lean ====
section
/-!
DEFINITION. Machine/CoreFlow.lean: control flow, majors 0x30 to 0x33 (R193 to R196), ENTER, RETE and ERET (R232, R235,
R236), the Last (R244, R245), and HOLD, RELEASE, WAIT, YIELD and SEV (R205, R209, R249 to R252).
-/

namespace Sys2Proof.Machine

/-! ## The Last -/

/-- Push a return address (R245). -/
def lastPush (σ : Strand) (ra : Dword) : M Unit := do
  let s ← M.bank σ
  let l := s.last
  if !l.tag then M.fault .shadowOverflow 0
  else if l.cursor.toNat < l.base + 8 then M.fault .shadowOverflow l.cursor
  else
    let a := l.cursor - 8
    let ps ← M.xlate σ a.toNat 8 .store 16 true true
    M.writeParts σ false ps (leBytes 8 ra.toNat)
    M.mod fun B => B.modBank σ.core σ.bank fun s => { s with last := s.last.withCursor a }

/-- Pop and compare with a target cursor (R245). -/
def lastPop (σ : Strand) (target : Dword) : M Unit := do
  let s ← M.bank σ
  let l := s.last
  if !l.tag then M.fault .shadowUnderflow 0
  else if l.cursor.toNat + 8 > l.top then M.fault .shadowUnderflow l.cursor
  else
    let ps ← M.xlate σ l.cursor.toNat 8 .load 16 true true
    let (v, _) ← M.readParts σ kindRead .r false true ps
    if leNat v ≠ target.toNat then M.fault .shadowMismatch target
    else M.mod fun B => B.modBank σ.core σ.bank fun s => { s with last := s.last.withCursor (l.cursor + 8) }

/-- The Last is enforced (R239). -/
def lastEnforced : M Bool := do
  let B ← M.bench
  pure B.ctl.lastEnforce

/-! ## Jumps -/

/-- The PC-relative target, checked against PCC's bounds (R194). -/
def jumpTarget (σ : Strand) (off : BitVec 21) : M Cap := do
  let s ← M.bank σ
  let a := s.pcc.cursor + offJump off
  if a.toNat < s.pcc.base || a.toNat + 4 > s.pcc.top then M.fault .capBounds a
  else pure (s.pcc.withCursor a)

/-- The link of JAL and JALR: the Last is pushed where enforced, and c1 takes the return gate (R82, R196). -/
def link (σ : Strand) : M Unit := do
  let s ← M.bank σ
  let ra := s.pcc.cursor + 4
  if ← lastEnforced then lastPush σ ra
  M.setC σ 1 (s.pcc.returnGate ra)

def bodyJ (off : BitVec 21) (σ : Strand) : M (Option Cap) := do
  let t ← jumpTarget σ off
  pure (some t)

def bodyJal (off : BitVec 21) (σ : Strand) : M (Option Cap) := do
  let t ← jumpTarget σ off
  link σ
  pure (some t)

def bodyJr (cs1 : Reg) (σ : Strand) : M (Option Cap) := do
  let c ← M.getC σ cs1
  let t ← M.ofExceptWord σ (c.jumpTarget jumpOtypes)
  pure (some t)

def bodyJalr (cs1 : Reg) (σ : Strand) : M (Option Cap) := do
  let c ← M.getC σ cs1
  let t ← M.ofExceptWord σ (c.jumpTarget jumpOtypes)
  link σ
  pure (some t)

def bodyRet (cs1 : Reg) (σ : Strand) : M (Option Cap) := do
  let c ← M.getC σ cs1
  let t ← M.ofExceptWord σ (c.jumpTarget returnOtypes)
  if ← lastEnforced then lastPop σ t.cursor
  pure (some t)

/-- The checks of ENTER n (R235). -/
def enterChecks (e csp : Cap) : Except Cause Unit :=
  if !e.tag then .error .capTag
  else if e.otype ≠ otGate then .error .capSeal
  else if e.cursor.toNat % 4 ≠ 0 then .error .misaligned
  else if !csp.tag then .error .capTag
  else if csp.sealed? then .error .capSeal
  else if csp.cursor.toNat % 16 ≠ 0 then .error .capAlign
  else .ok ()

def bodyEnter (n : Fin 8) (σ : Strand) : M (Option Cap) := do
  let s ← M.bank σ
  let e := s.entry[n]
  let csp := s.entryCsp[n]
  M.ofExceptWord σ (enterChecks e csp)
  let ra := s.pcc.cursor + 4
  if ← lastEnforced then lastPush σ ra
  M.mod fun B => B.modBank σ.core σ.bank fun s =>
    let c2 := s.getC 2
    ((s.setC 1 (s.pcc.returnGate ra)).setC 30 (if c2.tag then c2.withOtype otReturn else c2)).setC 2 csp
  pure (some e.unsealed)

/-- The checks of RETE (R236). -/
def reteChecks (c1 c30 : Cap) : Except Cause Unit :=
  if !c1.tag then .error .capTag
  else if c1.otype ≠ otReturn then .error .capSeal
  else if c1.cursor.toNat % 4 ≠ 0 then .error .misaligned
  else if c30.tag && c30.otype ≠ otReturn then .error .capSeal
  else .ok ()

def bodyRete (σ : Strand) : M (Option Cap) := do
  let s ← M.bank σ
  let c1 := s.getC 1
  let c30 := s.getC 30
  M.ofExceptWord σ (reteChecks c1 c30)
  if ← lastEnforced then lastPop σ c1.cursor
  M.mod fun B => B.modBank σ.core σ.bank fun s =>
    ((s.setC 2 (if c30.tag then c30.unsealed else c30)).setC 1 Cap.null).setC 30 Cap.null
  pure (some c1.unsealed)

/-- ERET (R232), or the end of an escalation (R264). -/
def bodyEret (σ : Strand) : M (Option Cap) := do
  M.needSys σ
  let c ← M.core σ
  if c.escActive then
    M.mod fun B => B.endEscalation σ.core
    pure none
  else
    let s ← M.bank σ
    let t ← M.ofExceptWord σ (s.epcc.jumpTarget jumpOtypes)
    M.mod fun B => B.modBank σ.core σ.bank fun s =>
      { s with rcv := s.estat.getLsbD 1, estat := s.estat &&& 0xFFFFFFFC#32 }
    pure (some t)

/-! ## Hold, wait, yield, software events -/

def bodyHold (n : BitVec 12) (σ : Strand) : M (Option Cap) := do
  M.needSys σ
  let B ← M.bench
  if B.ctl.holdLimit.toNat < n.toNat then M.illegal σ
  M.modCore σ fun c => if n = 0 || c.hold.isSome then c else { c with hold := some n.toNat }
  pure none

def bodyRelease (σ : Strand) : M (Option Cap) := do
  M.needSys σ
  M.modCore σ fun c => { c with hold := none }
  pure none

/-- An occurrence bound TRAP to the task is pending (R209, R307). -/
def Bench.trapPending (B : Bench) (t : Nat) : Bool :=
  B.sched.evstat.any fun e => e.2.pending && decide (B.bindMode e.1 = .trap) && B.bindTask e.1 == t

/-- The running strand's task leaves the core for the state `st`, or is STOPPED where a stop is due (R296). -/
def Bench.giveUp (B : Bench) (k : CoreNo) (t : Nat) (f : Task → Task) : Bench :=
  let e := f (B.task t)
  let B := if e.stopDue then (B.setTask t { e with state := TaskState.stopped, stopDue := false }).dropTraps t else B.setTask t e
  B.modCore k fun c => { c with cur := none }

/-- WAIT (R209): a quad core's task waits unless WAKE is set or a trap-bound occurrence is pending for it. -/
def Bench.waitTask (B : Bench) (k : CoreNo) (b : BankNo) : Bench :=
  let B := B.modCore k fun c => { c with hold := none }
  if k = bsc then B.modCore k fun c => { c with waiting := true }
  else
    match (B.bank k b).task with
    | none => B
    | some t =>
      if (B.task t).wake || B.trapPending t then
        B.giveUp k t fun e => { e with state := TaskState.ready, wake := false }
      else B.giveUp k t fun e => { e with state := TaskState.waiting }

/-- YIELD (R209): the core is offered to any ready strand of equal priority. -/
def Bench.yieldTask (B : Bench) (k : CoreNo) (b : BankNo) : Bench :=
  let B := B.modCore k fun c => { c with hold := none }
  if k = bsc then B
  else
    match (B.bank k b).task with
    | none => B
    | some t => B.giveUp k t fun e => { e with state := TaskState.ready }

def bodyWait (σ : Strand) : M (Option Cap) := do
  let s ← M.bank σ
  if s.inTrap then M.illegal σ
  M.mod fun B => B.waitTask σ.core σ.bank
  pure none

def bodyYield (σ : Strand) : M (Option Cap) := do
  let s ← M.bank σ
  if s.inTrap then M.illegal σ
  M.mod fun B => B.yieldTask σ.core σ.bank
  pure none

/-- The hold count of core `k` reaches zero (R252). -/
def Bench.holdExpiry (B : Bench) (k : CoreNo) : Bench :=
  let c := B.core k
  if c.hold.isNone || c.clockStopped then B
  else
    let n := B.ctl.holdExpCount
    let B := B.setCore k { c with hold := none, holdExpired := true }
    ({ B with ctl := { B.ctl with holdExpCount := if n = 0xFFF then n else n + 1 } }).raise 1008

/-! ## Meanings -/

def execJ (x : Exec) (off : BitVec 21) (s : State) : Out := s.instr x (encJ x.guard 0x30 off) (bodyJ off)
def execJal (x : Exec) (off : BitVec 21) (s : State) : Out := s.instr x (encJ x.guard 0x31 off) (bodyJal off)
def execJr (x : Exec) (cs1 : Reg) (s : State) : Out := s.instr x (encR x.guard 0x32 0 cs1.val 0 0) (bodyJr cs1)
def execJalr (x : Exec) (cs1 : Reg) (s : State) : Out := s.instr x (encR x.guard 0x32 0 cs1.val 0 1) (bodyJalr cs1)
def execRet (x : Exec) (cs1 : Reg) (s : State) : Out := s.instr x (encR x.guard 0x32 0 cs1.val 0 2) (bodyRet cs1)
def execRete (x : Exec) (s : State) : Out := s.instr x (encR x.guard 0x32 0 0 0 3) bodyRete
def execEnter (x : Exec) (n : Fin 8) (s : State) : Out :=
  s.instr x (encU x.guard 0x33 0 (BitVec.ofNat 16 n.val)) (bodyEnter n)
def execEret (x : Exec) (s : State) : Out := s.instr x (encR x.guard 0x4A 0 0 0 0) bodyEret
def execHold (x : Exec) (n : BitVec 12) (s : State) : Out :=
  s.instr x (encU x.guard 0x46 0 (BitVec.ofNat 16 n.toNat)) (bodyHold n)
def execRelease (x : Exec) (s : State) : Out := s.instr x (encU x.guard 0x46 0 0x1000) bodyRelease
def execHoldExpiry (b : BenchNo) (k : CoreNo) (s : State) : Out := s.onBench b fun B => B.holdExpiry k
def execSev (x : Exec) (n : BitVec 6) (s : State) : Out :=
  s.instr x (encU x.guard 0x49 0 (BitVec.ofNat 16 n.toNat)) fun _ => do
    M.mod fun B => B.raise (704 + n.toNat)
    pure none
def execWait (x : Exec) (s : State) : Out := s.instr x (encU x.guard 0x49 0 0x1000) bodyWait
def execYield (x : Exec) (s : State) : Out := s.instr x (encU x.guard 0x49 0 0x2000) bodyYield

end Sys2Proof.Machine
end

