-- ==== Sys2Proof/Machine/Decimal.lean ====
section
/-!
DEFINITION. Machine/Decimal.lean: the decimal unit's instructions, major 0x78 (R163 to R167, R210, R211).
-/

namespace Sys2Proof.Machine

/-! ## Bodies -/

/-- The rounding mode of an instruction (R164): 0b101 and 0b110 are ILLEGAL, 0b111 takes DCSR.RM. -/
def roundMode (σ : Strand) (rm : BitVec 3) : M Nat := do
  let s ← M.bank σ
  if rm = 5 || rm = 6 then M.illegal σ
  pure (if rm = 7 then s.dcsr.toNat % 8 else rm.toNat)

/-- R165: an enabled exception faults DECIMAL after CAUSE takes the exceptions raised; otherwise `write` takes place and
FLAGS gains the flags. -/
def decFinish (σ : Strand) (x : Exc) (write : Bank → Bank) : M (Option Cap) := do
  let s ← M.bank σ
  let en : BitVec 5 := s.dcsr.extractLsb' 16 5
  if x.signals &&& en ≠ 0 then
    M.setBank σ { s with dcsr := (s.dcsr &&& 0xE0FFFFFF#32) ||| (x.signals.zeroExtend 32 <<< 24) }
    M.faultWord σ .decimal
  else
    M.mod fun B => B.modBank σ.core σ.bank fun s =>
      let s := write s
      { s with dcsr := s.dcsr ||| (x.flags.zeroExtend 32 <<< 8) }
    pure none

def bodyDec3 (rm : BitVec 3) (dd ds1 ds2 : Reg) (f : Nat → Quad → Quad → Dec × Exc) (σ : Strand) : M (Option Cap) := do
  let r ← roundMode σ rm
  let d ← M.dField σ dd
  let a ← M.dField σ ds1
  let b ← M.dField σ ds2
  let s ← M.bank σ
  let (v, x) := f r (s.getD a) (s.getD b)
  decFinish σ x fun s => s.setD d v.encode

/-- A conversion to an x-register pair. -/
def bodyToPair (rm : Option (BitVec 3)) (rk ds1 : Reg) (f : Nat → Quad → Dword × Exc) (σ : Strand) : M (Option Cap) := do
  let r ← match rm with
    | some rm => roundMode σ rm
    | none => pure 2
  if !pairOk rk then M.illegal σ
  let a ← M.dField σ ds1
  let s ← M.bank σ
  let (v, x) := f r (s.getD a)
  decFinish σ x fun s => s.setPair rk v

/-- A conversion from an x-register pair. -/
def bodyFromPair (dd rk : Reg) (f : Dword → Dec × Exc) (σ : Strand) : M (Option Cap) := do
  if !pairOk rk then M.illegal σ
  let d ← M.dField σ dd
  let s ← M.bank σ
  let (v, x) := f (s.pair rk)
  decFinish σ x fun s => s.setD d v.encode

def bodyDecCmp (pd ds1 ds2 : Reg) (f : Quad → Quad → Bool × Exc) (σ : Strand) : M (Option Cap) := do
  let p ← M.predField σ pd
  let a ← M.dField σ ds1
  let b ← M.dField σ ds2
  let s ← M.bank σ
  let (v, x) := f (s.getD a) (s.getD b)
  decFinish σ x fun s => s.setP p v

/-- A move that raises no decimal exception (R211). -/
def bodyDecMove (dd ds1 : Reg) (f : Quad → Quad) (σ : Strand) : M (Option Cap) := do
  let d ← M.dField σ dd
  let a ← M.dField σ ds1
  M.mod fun B => B.modBank σ.core σ.bank fun s => s.setD d (f (s.getD a))
  pure none

def bodyDmfx (rd ds1 : Reg) (i : Fin 4) (σ : Strand) : M (Option Cap) := do
  let a ← M.dField σ ds1
  M.mod fun B => B.modBank σ.core σ.bank fun s => s.setX rd ((s.getD a).extractLsb' (32 * i.val) 32)
  pure none

def bodyDmtx (dd rs1 : Reg) (i : Fin 4) (σ : Strand) : M (Option Cap) := do
  let d ← M.dField σ dd
  M.mod fun B => B.modBank σ.core σ.bank fun s =>
    let m : Quad := (0xFFFFFFFF#128) <<< (32 * i.val)
    s.setD d ((s.getD d &&& ~~~m) ||| ((s.getX rs1).zeroExtend 128 <<< (32 * i.val)))
  pure none

/-! ## Meanings -/

def execDadd (x : Exec) (rm : BitVec 3) (dd ds1 ds2 : Reg) (s : State) : Out :=
  s.instr x (encR x.guard 0x78 dd.val ds1.val ds2.val (0 * 8 + rm.toNat)) (bodyDec3 rm dd ds1 ds2 (fun r => decAdd r false))
def execDsub (x : Exec) (rm : BitVec 3) (dd ds1 ds2 : Reg) (s : State) : Out :=
  s.instr x (encR x.guard 0x78 dd.val ds1.val ds2.val (1 * 8 + rm.toNat)) (bodyDec3 rm dd ds1 ds2 (fun r => decAdd r true))
def execDmul (x : Exec) (rm : BitVec 3) (dd ds1 ds2 : Reg) (s : State) : Out :=
  s.instr x (encR x.guard 0x78 dd.val ds1.val ds2.val (2 * 8 + rm.toNat)) (bodyDec3 rm dd ds1 ds2 (decMul))
def execDdiv (x : Exec) (rm : BitVec 3) (dd ds1 ds2 : Reg) (s : State) : Out :=
  s.instr x (encR x.guard 0x78 dd.val ds1.val ds2.val (3 * 8 + rm.toNat)) (bodyDec3 rm dd ds1 ds2 (decDiv))
def execDqua (x : Exec) (rm : BitVec 3) (dd ds1 ds2 : Reg) (s : State) : Out :=
  s.instr x (encR x.guard 0x78 dd.val ds1.val ds2.val (4 * 8 + rm.toNat)) (bodyDec3 rm dd ds1 ds2 (decQuantize))
def execDtfx (x : Exec) (rm : BitVec 3) (rk ds1 : Reg) (sc : BitVec 5) (s : State) : Out :=
  s.instr x (encR x.guard 0x78 rk.val ds1.val sc.toNat (5 * 8 + rm.toNat)) (bodyToPair (some rm) rk ds1 fun r a => decToFixed r false a sc.toNat)
def execDtbcd (x : Exec) (rm : BitVec 3) (rk ds1 : Reg) (sc : BitVec 5) (s : State) : Out :=
  s.instr x (encR x.guard 0x78 rk.val ds1.val sc.toNat (6 * 8 + rm.toNat)) (bodyToPair (some rm) rk ds1 fun r a => decToBcd r a sc.toNat)
def execDceq (x : Exec) (pd ds1 ds2 : Reg) (s : State) : Out :=
  s.instr x (encR x.guard 0x78 pd.val ds1.val ds2.val 0x38) (bodyDecCmp pd ds1 ds2 (decCompare (· == 0) false false))
def execDclt (x : Exec) (pd ds1 ds2 : Reg) (s : State) : Out :=
  s.instr x (encR x.guard 0x78 pd.val ds1.val ds2.val 0x39) (bodyDecCmp pd ds1 ds2 (decCompare (· < 0) false true))
def execDcle (x : Exec) (pd ds1 ds2 : Reg) (s : State) : Out :=
  s.instr x (encR x.guard 0x78 pd.val ds1.val ds2.val 0x3A) (bodyDecCmp pd ds1 ds2 (decCompare (· ≤ 0) false true))
def execDcun (x : Exec) (pd ds1 ds2 : Reg) (s : State) : Out :=
  s.instr x (encR x.guard 0x78 pd.val ds1.val ds2.val 0x3B) (bodyDecCmp pd ds1 ds2 (decCompare (fun _ => false) true false))
def execDffx (x : Exec) (dd rk : Reg) (sc : BitVec 5) (s : State) : Out :=
  s.instr x (encR x.guard 0x78 dd.val rk.val sc.toNat 0x3C) (bodyFromPair dd rk fun v => (decFromFixed v sc.toNat, Exc.none))
def execDtfxe (x : Exec) (rk ds1 : Reg) (sc : BitVec 5) (s : State) : Out :=
  s.instr x (encR x.guard 0x78 rk.val ds1.val sc.toNat 0x3D) (bodyToPair none rk ds1 fun r a => decToFixed r true a sc.toNat)
def execDfbcd (x : Exec) (dd rk : Reg) (sc : BitVec 5) (s : State) : Out :=
  s.instr x (encR x.guard 0x78 dd.val rk.val sc.toNat 0x3E) (bodyFromPair dd rk fun v => decFromBcd v sc.toNat)
def execDmov (x : Exec) (dd ds1 : Reg) (s : State) : Out :=
  s.instr x (encR x.guard 0x78 dd.val ds1.val 0 0x3F) (bodyDecMove dd ds1 id)
def execDneg (x : Exec) (dd ds1 : Reg) (s : State) : Out :=
  s.instr x (encR x.guard 0x78 dd.val ds1.val 1 0x3F) (bodyDecMove dd ds1 (· ^^^ (1#128 <<< 127)))
def execDabs (x : Exec) (dd ds1 : Reg) (s : State) : Out :=
  s.instr x (encR x.guard 0x78 dd.val ds1.val 2 0x3F) (bodyDecMove dd ds1 (· &&& ~~~(1#128 <<< 127)))
def execDcsrr (x : Exec) (rd : Reg) (s : State) : Out :=
  s.instr x (encR x.guard 0x78 rd.val 0 3 0x3F) (plain fun k => k.setX rd k.dcsr)
def execDcsrw (x : Exec) (rs1 : Reg) (s : State) : Out :=
  s.instr x (encR x.guard 0x78 0 rs1.val 4 0x3F) (plain fun k => { k with dcsr := dcsrWrite k.dcsr (k.getX rs1) })
def execDmfx (x : Exec) (rd ds1 : Reg) (i : Fin 4) (s : State) : Out :=
  s.instr x (encR x.guard 0x78 rd.val ds1.val (8 + i.val) 0x3F) (bodyDmfx rd ds1 i)
def execDmtx (x : Exec) (dd rs1 : Reg) (i : Fin 4) (s : State) : Out :=
  s.instr x (encR x.guard 0x78 dd.val rs1.val (12 + i.val) 0x3F) (bodyDmtx dd rs1 i)

end Sys2Proof.Machine
end

