-- ==== Sys2Proof/Machine/SkePin.lean ====
section
/-!
DEFINITION. Machine/SkePin.lean: the SKE's sealed PIN path (R493 to R498) and EMV cryptograms (R499, R500), with the DUKPT and
EMV key derivations that they and the key-load job use.
-/

namespace Sys2Proof.Machine

/-! ## DUKPT AES (ANSI X9.24-3) -/

/-- Derivation data: key block counter, key usage, algorithm, length in bits, and eight bytes of context. -/
def dukptData (i usage alg bits : Nat) (ctx : List Byte) : List Byte :=
  [1, BitVec.ofNat 8 i] ++ beBytes 2 usage ++ beBytes 2 alg ++ beBytes 2 bits ++ ctx

/-- A key of `n` bytes from a derivation key. -/
def dukptDerive (key : List Byte) (usage alg n : Nat) (ctx : List Byte) : List Byte :=
  ((List.range ((n + 15) / 16)).flatMap fun i => aesEnc key (dukptData (i + 1) usage alg (8 * n) ctx)).take n

/-- The algorithm number of an AES or TDES key of `n` bytes. -/
def dukptAlg (aes : Bool) (n : Nat) : Nat := if aes then n / 8 else n / 8 - 2

/-- The initial key of a base derivation key. -/
def dukptAesInitial (bdk ksn : List Byte) : List Byte :=
  dukptDerive bdk 0x8001 (dukptAlg true bdk.length) bdk.length (ksn.take 8)

/-- The derivation key of a counter: one step for each bit set, the highest first. -/
def dukptAesKey (initial ksn : List Byte) : List Byte :=
  let ctr := beNat ((ksn.drop 8).take 4)
  ((List.range 32).foldl (fun (p : List Byte × Nat) i =>
    let bit := 2 ^ (31 - i)
    if ctr / bit % 2 = 1 then
      let w := p.2 + bit
      (dukptDerive p.1 0x8000 (dukptAlg true initial.length) initial.length ((ksn.drop 4).take 4 ++ beBytes 4 w), w)
    else p) (initial, 0)).1

/-- A working key of the KSN. -/
def dukptAesWorking (initial ksn : List Byte) (usage alg n : Nat) : List Byte :=
  dukptDerive (dukptAesKey initial ksn) usage alg n ((ksn.drop 4).take 8)

def popCount (n : Nat) : Nat := (List.range 64).foldl (fun c i => if n.testBit i then c + 1 else c) 0
/-- The counter of a KSN is one a device may use (R496 item 4). -/
def dukptCounterOk (aes : Bool) (ksn : List Byte) : Bool :=
  if aes then
    let c := beNat ((ksn.drop 8).take 4)
    c ≠ 0 && popCount c ≤ 16
  else
    let c := beNat ((ksn.drop 2).take 8) % 2 ^ 21
    c ≠ 0 && popCount c ≤ 10

/-- The variants of the TDES method. -/
def tdesVariant (byte : Nat) (k : List Byte) : List Byte :=
  let m := (List.range 8).map fun i => if i = byte then (0xFF : Byte) else 0
  xorBytes k (m ++ m)
def tdesDataKey (k : List Byte) : List Byte :=
  let v := tdesVariant 5 k
  tdesEnc v (v.take 8) ++ tdesEnc v (v.drop 8)

/-! ## PIN blocks (R495) -/

def nibbles (l : List Byte) : List Nat := l.flatMap fun b => [b.toNat / 16, b.toNat % 16]
def packNibbles : List Nat → List Byte
  | a :: b :: t => BitVec.ofNat 8 (a * 16 + b) :: packNibbles t
  | _ => []

/-- The PAN field of formats 0 and 3: the 12 rightmost digits but the check digit, right-justified after zeros. -/
def panField8 (pan : List Nat) : List Byte := packNibbles ((pan.dropLast.reverse.take 12 ++ List.replicate 16 0).take 16).reverse
/-- The PAN field of format 4. -/
def panField16 (pan : List Nat) : List Byte :=
  packNibbles (([pan.length - 12] ++ pan ++ List.replicate 32 0).take 32)

/-- The PIN digits that a plain PIN field holds, if it obeys its format. -/
def pinOf (fmt : Nat) (f : List Nat) : Option (List Nat) :=
  let n := f.getD 1 0
  let pin := (f.drop 2).take n
  let fill := (f.take 16).drop (2 + n)
  let fillOk := match fmt with
    | 0 => fill.all (· = 15)
    | 1 => true
    | 3 => fill.all (10 ≤ ·)
    | _ => fill.all (· = 10)
  if f.headD 15 = fmt && 4 ≤ n && n ≤ 12 && pin.all (· ≤ 9) && fillOk then some pin else none

/-- Decipher a PIN block under a key. -/
def pinDecipher (fmt : Nat) (key : List Byte) (pan : List Nat) (blk : List Byte) : Option (List Nat) :=
  if fmt = 4 then
    pinOf 4 (nibbles (aesDec key (xorBytes (aesDec key (blk.take 16)) (panField16 pan))))
  else
    let x := tdesDec key (blk.take 8)
    pinOf fmt (nibbles (if fmt = 1 then x else xorBytes x (panField8 pan)))

/-- Encipher a PIN, padded to 16 bytes; `r` is random. -/
def pinEncipher (fmt : Nat) (key : List Byte) (pan pin : List Nat) (r : List Byte) : List Byte :=
  let rn := nibbles r
  let head := [fmt, pin.length] ++ pin
  if fmt = 4 then
    let plain := packNibbles ((head ++ List.replicate 16 10).take 16) ++ r.take 8
    aesEnc key (xorBytes (aesEnc key plain) (panField16 pan))
  else
    let fill := if fmt = 0 then List.replicate 16 15 else if fmt = 1 then rn else rn.map fun x => 10 + x % 6
    let f := packNibbles ((head ++ fill).take 16)
    padTo 16 (tdesEnc key (if fmt = 1 then f else xorBytes f (panField8 pan)))

/-! ## The PIN jobs (R493, R494, R496, R497) -/

/-- A move between formats is permitted (R497). -/
def pinMoveOk (pol : BitVec 2) (s d : Nat) : Bool :=
  let f1 := pol.getLsbD 0
  let down := pol.getLsbD 1
  if s = 1 then true
  else if d = 1 then f1 && (s ≠ 4 || down)
  else if s = 4 && d ≠ 4 then down
  else true

/-- What a side of a PIN operation accepts (R423): a DUKPT source only in translate, and reformat a key for both sides, which
needs MODE B (R494). -/
def pinRole (op : Nat) (dst : Bool) (h : Cap) : KeyRole :=
  let k (classes : List Nat) (modes : List Char) : KeyRole := { classes := classes, modes := modes }
  if op = 0x11 then k [0x04] ['B']
  else if op = 0x12 then k [0x04] ['B', 'D']
  else if dst then k [0x04] ['B', 'E']
  else if h.otype.toNat % 256 = 4 then k [0x04] ['B', 'D']
  else k [0x02, 0x03] ['X']

/-- The key of one side, once its algorithm fits the format (R424). -/
def pinAlgOk (fmt : Nat) (k : KeyCopy) : Bool := algOf k.header = (if fmt = 4 then 'A' else 'T')

/-- The working key of a DUKPT source (R498). -/
def pinSourceKey (k : KeyCopy) (dukpt : Bool) (wkey : Nat) (ksn : List Byte) : List Byte :=
  if !dukpt then k.value
  else if algOf k.header = 'A' then
    let init := if k.cls = 2 then dukptAesInitial k.value ksn else k.value
    let n := if wkey = 2 then 32 else 16
    dukptAesWorking init ksn 0x1000 (dukptAlg true n) n
  else
    let init := if k.cls = 2 then dukptTdesInitial k.value (ksn.take 10) else k.value
    tdesVariant 7 (dukptTdesKey init (ksn.take 10))

/-- OP 0x10 to 0x12. -/
def skePin (j : JC) : J Finish := do
  J.guardBad (j.var == 0) 1
  J.guardBad (j.byte 2 / 2 == 0 && (j.resume || j.token = 0)) 2
  J.guardBad (j.len == 64 && j.aux == 0) 3
  let cmp := decide (j.op = 0x12)
  let reformat := decide (j.op = 0x11)
  let i ← J.whole j (.handle (pinRole j.op false (j.opnd 0)) false)
    (if reformat then .zero else .handle (pinRole j.op true (j.opnd 1)) false) (if cmp then .rd 64 else .rw 64)
  -- check 6: only the fill of formats 1, 3 and 4 is drawn, which the block names (R495, R507)
  let r ← J.random (if cmp || i.c.getD 1 0 = 0 then 0 else 8)
  match i.ka with
  | none => J.refuse 0x01 0
  | some ka =>
      let kb := i.kb.getD ka
      let b := i.c
      let g (n : Nat) : Nat := (b.getD n 0).toNat
      let sf := g 0
      let df := g 1
      let dukpt := (g 2).testBit 0
      let wkey := g 2 / 2 % 4
      let aes := algOf ka.header = 'A'
      let ksn := (b.drop 16).take 12
      let okFmt (f : Nat) : Bool := f == 0 || f == 1 || f == 3 || f == 4
      if okFmt sf && !pinAlgOk sf ka then J.refuse 0x0A 0
      else if okFmt df && !pinAlgOk df kb then J.refuse 0x0A 1
      else
        let zero (l : List Byte) : Bool := l.all (· = 0)
        let src := (b.drop 32).take 16
        let dst := (b.drop 48).take 16
        let flagsOk := okFmt sf && okFmt df && g 2 < 8 && wkey ≠ 3 && dukpt == (ka.cls ≠ 4) && (wkey = 0 || (dukpt && aes))
          && zero ((b.drop 14).take 2) && zero ((b.drop 28).take 4) && (dukpt || zero ksn) && (!dukpt || aes || zero (ksn.drop 10))
          && (sf = 4 || zero (src.drop 8)) && (!cmp || df = 4 || zero (dst.drop 8))
        let pl := g 3
        let all := nibbles ((b.drop 4).take 10)
        let pan := all.take pl
        let bound := sf ≠ 1 || df ≠ 1
        if !flagsOk then J.badInput 0x10
        else if !(12 ≤ pl && pl ≤ 19) || (bound && !(pan.all (· ≤ 9) && (all.drop pl).all (· = 15))) then J.badInput 0x14
        else
          let B ← J.bench
          if !cmp && !pinMoveOk (B.eng j.u).pinpol sf df then J.badInput 0x15
          else if dukpt && !dukptCounterOk aes ksn then J.badInput 0x16
          else
            match pinDecipher sf (pinSourceKey ka dukpt wkey ksn) pan src with
            | none => J.badInput 0x18
            | some pin =>
              if cmp then
                match pinDecipher df kb.value pan dst with
                | none => J.badInput 0x18
                | some ref => pure (if pin = ref then Finish.ok 0 0 [] else Finish.fail 1 0 3 0)
              else
                let out := pinEncipher df kb.value pan pin r
                pure (Finish.ok 16 0 (j.out 2 48 out))

/-! ## EMV (R499, R500) -/

/-- SHA-1 of FIPS 180-4, which option B of EMV Book 2 uses. -/
def sha1 (m : List Byte) : List Byte :=
  let step (s : List Word × List Word) (t : Nat) : List Word × List Word :=
    match s.1 with
    | [a, b, c, d, e] =>
      let (f, k) : Word × Word := if t < 20 then ((b &&& c) ||| (~~~b &&& d), 0x5A827999) else if t < 40 then (b ^^^ c ^^^ d, 0x6ED9EBA1)
        else if t < 60 then ((b &&& c) ||| (b &&& d) ||| (c &&& d), 0x8F1BBCDC) else (b ^^^ c ^^^ d, 0xCA62C1D6)
      let w := s.2
      let new := (w.getD 13 0 ^^^ w.getD 8 0 ^^^ w.getD 2 0 ^^^ w.getD 0 0).rotateLeft 1
      ([a.rotateLeft 5 + f + e + k + w.getD 0 0, a, b.rotateLeft 30, c, d], w.tail ++ [new])
    | _ => s
  let p := shaPad 4 m
  ((blocksOf 64 p).foldl (fun h b => List.zipWith (· + ·) h ((List.range 80).foldl step (h, beWords 32 4 16 b)).1)
    [0x67452301, 0xEFCDAB89, 0x98BADCFE, 0x10325476, 0xC3D2E1F0]).flatMap fun w => beBytes 4 w.toNat

def invertBytes (l : List Byte) : List Byte := l.map (~~~ ·)

/-- The 16 digits of option B: decimal digits of a hash first, then its letters less ten. -/
def emvDecimalise (h : List Byte) : List Nat :=
  let n := nibbles h
  ((n.filter (· ≤ 9)) ++ (n.filter (10 ≤ ·)).map (· - 10)).take 16

/-- ICC master key derivation of EMV Book 2. -/
def emvMaster (aes : Bool) (key : List Byte) (pan : List Nat) (psn : Nat) : List Byte :=
  let x := pan ++ [psn / 16, psn % 16]
  if aes then
    let y := packNibbles ((List.replicate 32 0 ++ x).reverse.take 32).reverse
    (aesEnc key y ++ aesEnc key (invertBytes y)).take key.length
  else
    let y := if pan.length ≤ 16 then packNibbles ((List.replicate 16 0 ++ x).reverse.take 16).reverse
      else packNibbles (emvDecimalise (sha1 (packNibbles (if x.length % 2 = 1 then 0 :: x else x))))
    tdesEnc key y ++ tdesEnc key (invertBytes y)

/-- The common session key of an ATC. -/
def emvSession (aes : Bool) (mk atc : List Byte) : List Byte :=
  if aes then
    if mk.length = 16 then aesEnc mk (padTo 16 atc)
    else (aesEnc mk (padTo 16 (atc ++ [0xF0])) ++ aesEnc mk (padTo 16 (atc ++ [0x0F]))).take mk.length
  else tdesEnc mk (padTo 8 (atc ++ [0xF0])) ++ tdesEnc mk (padTo 8 (atc ++ [0x0F]))

/-- The cryptogram over transaction data. -/
def emvMac (aes : Bool) (sk data : List Byte) : List Byte :=
  if aes then (cmac (aesEnc sk) 16 data).take 8 else retailMac sk data

/-- The ARPC of method 1 or 2 in its eight bytes. -/
def emvArpc (aes : Bool) (sk arqc arc csu : List Byte) (two : Bool) : List Byte :=
  if two then padTo 8 ((emvMac aes sk (arqc ++ csu)).take 4)
  else
    let y := xorBytes arqc (padTo 8 arc)
    if aes then (aesEnc sk (padTo 16 y)).take 8 else tdesEnc sk y

/-- OP 0x18. -/
def skeArqc (j : JC) : J Finish := do
  J.guardBad (j.var == 0) 1
  J.guardBad (j.byte 2 / 2 == 0 && (j.resume || j.token = 0)) 2
  J.guardBad (decide (49 ≤ j.len) && decide (j.len ≤ 303) && j.aux == 0) 3
  let i ← J.whole j (.handle { classes := [0x06], modes := ['X'] } false) .zero (.rw j.len)
  match i.ka with
  | none => J.refuse 0x01 0
  | some k =>
    let b := i.c
    let g (n : Nat) : Nat := (b.getD n 0).toNat
    let pl := g 10
    let all := nibbles (b.take 10)
    let zero (l : List Byte) : Bool := l.all (· = 0)
    if !(g 14 < 4 && g 15 ≠ 0 && zero ((b.drop 28).take 4) && zero ((b.drop 40).take 8)) then J.badInput 0x10
    else if j.len ≠ 48 + g 15 then J.bad 3
    else if !(12 ≤ pl && pl ≤ 19) || !((all.take pl).all (· ≤ 9) && (all.drop pl).all (· = 15)) || !((nibbles [b.getD 11 0]).all (· ≤ 9)) then
      J.badInput 0x14
    else
      let aes := algOf k.header = 'A'
      let sk := emvSession aes (emvMaster aes k.value (all.take pl) (g 11)) ((b.drop 12).take 2)
      let arqc := (b.drop 16).take 8
      if emvMac aes sk (b.drop 48) ≠ arqc then pure (Finish.fail 1 0 3 0)
      else if !(g 14).testBit 0 then pure (Finish.ok 0 0 [])
      else
        let r := emvArpc aes sk arqc ((b.drop 24).take 2) ((b.drop 24).take 4) ((g 14).testBit 1)
        pure (Finish.ok 8 0 (j.out 2 32 r))

end Sys2Proof.Machine
end

