-- ==== Sys2Proof/Machine/SkeKey.lean ====
section
/-!
DEFINITION. Machine/SkeKey.lean: the key-load job's forms and the IMPORT and EXPORT of X9.143 key blocks (R419, R429 to R436, R444,
R453, R454, R501 to R503).
-/

namespace Sys2Proof.Machine

/-! ## Classes (R419) -/

structure ClassRow where
  cls : Nat
  usages : List String
  algs : String
  modes : String
  details : List Nat
  imports : Bool
  generate : Bool

def sym : List Nat := [1, 2, 3, 4, 5]

def classRows : List ClassRow :=
  [⟨0x01, ["K1"], "AT", "BDE", sym, true, false⟩, ⟨0x02, ["B0"], "AT", "X", sym, true, false⟩,
   ⟨0x03, ["B1"], "AT", "X", sym, true, false⟩, ⟨0x04, ["P0"], "AT", "BDE", sym, true, true⟩,
   ⟨0x05, ["M3", "M6", "M7"], "TAH", "CGV", sym ++ [8], true, true⟩, ⟨0x06, ["E0"], "AT", "X", sym, true, false⟩,
   ⟨0x07, ["E1", "E2", "E3", "E4", "E5", "E6"], "AT", "X", sym, true, false⟩, ⟨0x08, ["D0"], "AT", "BDE", sym, true, true⟩]
  ++ [⟨0x09, ["0D"], "\x00", "X", [3, 4, 5, 8], false, true⟩, ⟨0x10, ["S0"], "E", "S", [0x10, 0x11, 0x12, 0x13], false, true⟩,
   ⟨0x11, ["S0"], "ER", "V", [0x10, 0x11, 0x12, 0x13, 0x18, 0x19, 0x1A], false, false⟩,
   ⟨0x12, ["K3"], "E", "NX", [0x10, 0x11, 0x12, 0x14], false, true⟩, ⟨0x13, ["S0"], "R", "S", [0x18, 0x19, 0x1A], true, false⟩,
   ⟨0x14, ["0S"], "\x00", "S", [0x20, 0x21, 0x22], false, true⟩, ⟨0x15, ["0V"], "\x00", "V", [0x20, 0x21, 0x22], false, false⟩,
   ⟨0x16, ["0K"], "\x00", "D", [0x24, 0x25, 0x26], false, true⟩, ⟨0x1C, ["0S"], "\x00", "S", [0x21], false, true⟩,
   ⟨0x1D, ["S0"], "E", "S", [0x11], false, true⟩]

def hasChar (s : String) (n : Nat) : Bool := s.toList.any fun c => c.toNat = n

def ClassRow.usageOk (r : ClassRow) (h : List Byte) : Bool :=
  r.usages.any (usageIs h) && hasChar r.modes (hdrMode h)
/-- The algorithm fits the class and its usage, and the detail fits the algorithm (R418, R419). -/
def ClassRow.algOk (r : ClassRow) (h : List Byte) : Bool :=
  let a := Char.ofNat (hdrAlg h)
  let d := hdrDetail h
  hasChar r.algs (hdrAlg h) && r.details.contains d
    && (match a with
        | 'T' => d == 1 || d == 2
        | 'A' => 3 ≤ d && d ≤ 5
        | 'H' => d == 8
        | 'E' => 0x10 ≤ d && d ≤ 0x14
        | 'R' => 0x18 ≤ d && d ≤ 0x1A
        | _ => true)
    && (r.cls ≠ 5 || (if usageIs h "M3" then a = 'T' else if usageIs h "M6" then a = 'A' else a = 'H'))

/-- A header against the classes that a form allows (R502): the class, or the reason. -/
def fitClass (rows : List ClassRow) (h : List Byte) : Except Nat ClassRow :=
  let u := rows.filter fun r => r.usageOk h
  match u.find? fun r => r.algOk h with
  | some r => .ok r
  | none => .error (if u.isEmpty then 0x09 else 0x0A)

/-- Length of the value of a DETAIL that the device makes itself; an HMAC key takes 32 bytes. -/
def detailLen (d : Nat) : Nat :=
  match d with
  | 1 => 16 | 2 => 24 | 3 => 16 | 4 => 24 | 5 => 32 | 8 => 32
  | 0x10 => 32 | 0x11 => 48 | 0x12 => 66 | 0x24 => 64 | 0x25 => 64 | 0x26 => 64
  | _ => 32

/-- Strength (R418). -/
def strength (d n : Nat) : Nat :=
  match d with
  | 1 => 80 | 2 => 112 | 3 => 128 | 4 => 192 | 5 => 256
  | 8 => min (8 * n) 256
  | 0x11 => 192 | 0x12 => 256 | 0x18 => 112 | 0x21 => 192 | 0x22 => 256 | 0x25 => 192 | 0x26 => 256
  | _ => 128

/-! ## Templates (R501, R502) -/

/-- The must-be-zero fields of a template. -/
def templateOk (h : List Byte) : Bool :=
  (hdrWord h 2 / 2 ^ 12 % 16 == 0) && (hdrWord h 2 / 2 ^ 18 == 0) && (hdrWord h 7 / 2 ^ 16 == 0)

/-- The header that a form writes: LENGTH and CREATED set by the SKE. -/
def finishHeader (h : List Byte) (len : Nat) (sec : BitVec 48) (derived : Bool) : List Byte :=
  let h2 := hdrWord h 2 / 2 ^ 16 % 4 * 2 ^ 16 + len
  h.take 6 ++ [if derived then 0x4E else h.getD 6 0] ++ (h.drop 7).take 1 ++ leBytes 4 h2 ++ (h.drop 12).take 12
    ++ leBytes 4 sec.toNat ++ leBytes 4 (sec.toNat / 2 ^ 32)

/-- AUX of a form that places a key. -/
def auxOk (j : JC) (cls : Bool) : Bool :=
  if cls then j.aux / 2 ^ 24 == 0 && j.aux / 2 ^ 16 % 256 ≠ 0 else j.aux / 2 ^ 16 == 0

def JC.flagsOk (j : JC) : Bool := j.byte 2 / 2 == 0 && (j.resume || j.token == 0)

/-- CURRENT, or reason 0x10. -/
def J.bmk : J (List Byte) := do
  let B ← J.bench
  match B.vault.current with
  | some k => pure k
  | none => J.refuse 0x10 3

def JC.destVa (j : JC) : Nat := (j.opnd 1).cursor.toNat

/-- The completion of a form that places a key and writes `rec'` to C. -/
def placing (j : JC) (p : KeyPlan) (rec' : List Byte) (prev : Bool) : Finish :=
  { Finish.ok (16 + rec'.length) rec'.length (j.out 2 0 rec') with plan := some p, prev := prev }

/-- A record has room at C. -/
def J.roomC (j : JC) (n : Nat) : J Unit := do
  J.checkCap (j.opnd 2) 2 n [permST]
  let _ ← J.translate j 2 .store (j.opnd 2).cursor.toNat n

/-! ## Forms of OP 0x20 -/

/-- LOAD (R431): the handle destination of R473 is judged at step 6, after the record (log 83). -/
def skeLoad (j : JC) : J Finish := do
  J.guardBad (144 ≤ j.len && j.len ≤ 2128 && j.len % 16 == 0 && auxOk j false) 3
  let fit := hdFit (j.opnd 1) 16
  let i ← J.whole j (.rd j.len) (if fit then .hd 16 else .later) .zero
  let B ← J.bench
  match B.openRecord i.a with
  | .error r => J.refuse r 3
  | .ok (cls, header, value, prev) =>
    if !fit then J.refuse 0x17 1
    else pure (placing j { load := true, cls := cls, header := header, value := value, aux := j.aux, dest := j.destVa, journal := none } [] prev)

/-- A fresh key value of a DETAIL (R435). -/
def freshValue (d : Nat) (r : List Byte) : List Byte :=
  match d with
  | 0x10 => beBytes 32 (1 + beNat r % (p256.n - 1))
  | 0x11 => beBytes 48 (1 + beNat r % (p384.n - 1))
  | 0x12 => beBytes 66 (1 + beNat r % (p521.n - 1))
  | _ => r.take (detailLen d)

/-- GENERATE (R435): what it draws at check 6 depends on the template, which it reads first; nothing is judged before the draw
(R474, R507). -/
def skeGenerate (j : JC) : J Finish := do
  J.guardBad (j.len == 48 && auxOk j true) 3
  let i ← J.whole j .zero (.hd 48) (.wr 144)
  let t := (i.b.drop 16).take 32
  let n := detailLen (hdrDetail t)
  let r ← J.random (n + 8)
  let cls := j.aux / 2 ^ 16 % 256
  if !templateOk t then J.badInput 0x20
  else
    match fitClass (classRows.filter fun r => r.cls = cls && r.generate) t with
    | .error r => J.refuse r 3
    | .ok _ =>
      if (cls = 0x1C || cls = 0x1D) && !j.sub.sys then J.refuse 0x0B 3
      else
        let bmk ← J.bmk
        J.roomC j (recordLen n)
        let v := freshValue (hdrDetail t) r
        let B ← J.bench
        let h := finishHeader t n B.time.sec false
        pure (placing j { load := false, cls := cls, header := h, value := v, aux := j.aux % 2 ^ 16, dest := j.destVa, journal := some 0x28 }
          (makeRecord bmk B.ctl.epoch.toNat cls h v) false)

/-- Length of the public key of a trusted-verification DETAIL, and whether it is well formed (R484). -/
def publicLen (d : Nat) : Nat :=
  if d = 0x10 then 65 else if d = 0x11 then 97 else if d = 0x12 then 133 else if d ≤ 0x14 then 32
  else if d = 0x18 then 260 else if d = 0x19 then 388 else if d = 0x1A then 516 else dsaKeyLen d
def publicOk (d : Nat) (k : List Byte) : Bool :=
  if d ≤ 0x12 then ((if d = 0x10 then p256 else if d = 0x11 then p384 else p521).decode k).isSome
  else if d = 0x13 then (edDecode k).isSome
  else if 0x18 ≤ d && d ≤ 0x1A then
    let w := publicLen d - 4
    rsaKeyOk w (beNat (k.take w)) (beNat (k.drop w))
  else true

/-- TRUST (R436). -/
def skeTrust (j : JC) : J Finish := do
  J.guardBad (decide (80 ≤ j.len) && decide (j.len ≤ 48 + 2592) && auxOk j false) 3
  let i ← J.whole j .zero (.hd j.len) (.wr 144)
  let t := (i.b.drop 16).take 32
  let pub := i.b.drop 48
  if !templateOk t then J.badInput 0x20
  else
    match fitClass (classRows.filter fun r => r.cls = 0x11 || r.cls = 0x15) t with
    | .error r => J.refuse r 3
    | .ok row =>
      if !j.sub.sys then J.refuse 0x0B 3
      else
        let bmk ← J.bmk
        let d := hdrDetail t
        if pub.length ≠ publicLen d then J.bad 3
        else if !publicOk d pub then J.badInput 1
        else
          J.roomC j (recordLen 48)
          let v := sha384 pub
          let B ← J.bench
          let h := finishHeader t 48 B.time.sec false
          pure (placing j { load := false, cls := row.cls, header := h, value := v, aux := j.aux, dest := j.destVa, journal := some 0x2A }
            (makeRecord bmk B.ctl.epoch.toNat row.cls h v) false)

/-- REWRAP (R503). -/
def skeRewrap (j : JC) : J Finish := do
  J.guardBad (j.len == 0 && j.aux == 0) 3
  let role : KeyRole := { classes := classRows.map (·.cls), modes := [] }
  let i ← J.whole j (.handle role true) .zero (.wr 144)
  match i.ka with
  | none => J.refuse 0x01 0
  | some k =>
    let bmk ← J.bmk
    let B ← J.bench
    let r := makeRecord bmk B.ctl.epoch.toNat k.cls k.header k.value
    J.roomC j r.length
    pure (Finish.ok r.length r.length (j.out 2 0 r))

/-- A derived key (R502): no record. -/
def derived (j : JC) (t v : List Byte) (cls : Nat) : J Finish := do
  let B ← J.bench
  let h := finishHeader t v.length B.time.sec true
  pure (placing j { load := false, cls := cls, header := h, value := v, aux := j.aux, dest := j.destVa, journal := none } [] false)

/-- The template of a derivation against the classes it allows. -/
def J.template (t : List Byte) (classes : List Nat) : J ClassRow :=
  if !templateOk t then J.badInput 0x20
  else
    match fitClass (classRows.filter fun r => classes.contains r.cls) t with
    | .error r => J.refuse r 3
    | .ok row => pure row

/-- DERIVE_EMV: EMV Book 2 makes a TDES session key of 16 bytes, so that no key has the length of a 24-byte master (R502, log 35). -/
def skeDeriveEmv (j : JC) : J Finish := do
  J.guardBad (j.len == 62 && auxOk j false) 3
  let i ← J.whole j (.handle { classes := [0x06, 0x07], modes := ['X'] } false) (.hd 62) .zero
  match i.ka with
  | none => J.refuse 0x01 0
  | some k =>
    let t := (i.b.drop 16).take 32
    let row ← J.template t [0x05, 0x08]
    let aes := algOf k.header = 'A'
    let b := i.b.drop 48
    let pl := (b.getD 10 0).toNat
    let all := nibbles (b.take 10)
    let v := emvSession aes (emvMaster aes k.value (all.take pl) (b.getD 11 0).toNat) ((b.drop 12).take 2)
    if hdrAlg t ≠ hdrAlg k.header || hdrDetail t ≠ hdrDetail k.header || v.length ≠ k.value.length then J.refuse 0x0A 3
    else if !(12 ≤ pl && pl ≤ 19) || !((all.take pl).all (· ≤ 9)) then J.badInput 0x14
    else derived j t v row.cls

/-- The X9.24-3 key usage that a template's class and mode stand for. -/
def dukptUsage (cls mode : Nat) : Nat :=
  if cls = 4 then 0x1000
  else if cls = 5 then (if mode = 0x47 then 0x2000 else if mode = 0x56 then 0x2001 else 0x2002)
  else (if mode = 0x45 then 0x3000 else if mode = 0x44 then 0x3001 else 0x3002)

/-- DERIVE_DUKPT: AES, TDES and HMAC working keys of an AES derivation key, two-key TDES ones of a TDES one (R502, log 35). -/
def skeDeriveDukpt (j : JC) : J Finish := do
  J.guardBad (j.len == 60 && auxOk j false) 3
  let i ← J.whole j (.handle { classes := [0x02, 0x03], modes := ['X'] } false) (.hd 60) .zero
  match i.ka with
  | none => J.refuse 0x01 0
  | some k =>
    let t := (i.b.drop 16).take 32
    let row ← J.template t [0x04, 0x05, 0x08]
    let aes := algOf k.header = 'A'
    let ksn := i.b.drop 48
    let d := hdrDetail t
    if !dukptCounterOk aes ksn then J.badInput 0x16
    else if aes then
      let init := if k.cls = 2 then dukptAesInitial k.value ksn else k.value
      let alg := if d = 8 then 5 else dukptAlg (3 ≤ d) (detailLen d)
      derived j t (dukptAesWorking init ksn (dukptUsage row.cls (hdrMode t)) alg (detailLen d)) row.cls
    else if d ≠ 1 then J.refuse 0x0A 3
    else
      let init := if k.cls = 2 then dukptTdesInitial k.value (ksn.take 10) else k.value
      let txn := dukptTdesKey init (ksn.take 10)
      derived j t (if row.cls = 4 then tdesVariant 7 txn else if row.cls = 5 then tdesVariant 6 txn else tdesDataKey txn) row.cls

/-- DERIVE_KDF. -/
def skeDeriveKdf (j : JC) : J Finish := do
  J.guardBad (49 ≤ j.len && j.len ≤ 304 && auxOk j false) 3
  let i ← J.whole j (.handle { classes := [0x09], modes := ['X'] } false) (.hd j.len) .zero
  match i.ka with
  | none => J.refuse 0x01 0
  | some k =>
    let t := (i.b.drop 16).take 32
    let row ← J.template t [1, 2, 3, 4, 5, 6, 7, 8, 9]
    let prf := if hdrDetail k.header = 8 then hmac sha256 64 k.value else cmac (aesEnc k.value) 16
    derived j t (kdfCounter prf (i.b.drop 48) (detailLen (hdrDetail t))) row.cls

/-! ## X9.143 key blocks (R453, R454) -/

/-- A key block protection key's derived keys: encryption 0, authentication 1. -/
def kbDerive (aes : Bool) (k : List Byte) (use : Nat) : List Byte :=
  let n := k.length
  let f := if aes then cmac (aesEnc k) 16 else cmac (tdesEnc k) 8
  let alg := dukptAlg aes n
  ((List.range 4).flatMap fun i =>
    f ([BitVec.ofNat 8 (i + 1)] ++ beBytes 2 use ++ [0] ++ beBytes 2 alg ++ beBytes 2 (8 * n))).take n

def hexDigit (b : Byte) : Option Nat :=
  let n := b.toNat
  if 0x30 ≤ n && n ≤ 0x39 then some (n - 0x30) else if 0x41 ≤ n && n ≤ 0x46 then some (n - 0x37) else none
def hexBytes : List Byte → Option (List Byte)
  | [] => some []
  | a :: b :: t =>
    match hexDigit a, hexDigit b, hexBytes t with
    | some x, some y, some r => some (BitVec.ofNat 8 (x * 16 + y) :: r)
    | _, _, _ => none
  | _ => none
def toHex (l : List Byte) : List Byte :=
  l.flatMap fun b => [b.toNat / 16, b.toNat % 16].map fun n => BitVec.ofNat 8 (if n < 10 then 0x30 + n else 0x37 + n)
def decDigits (l : List Byte) : Option Nat :=
  if l.all fun b => 0x30 ≤ b.toNat && b.toNat ≤ 0x39 then some (l.foldl (fun n b => n * 10 + (b.toNat - 0x30)) 0) else none
def toDec (w n : Nat) : List Byte := ((List.range w).map fun i => BitVec.ofNat 8 (0x30 + n / 10 ^ i % 10)).reverse

/-- Skip `n` optional blocks, each one that the import accepts. -/
def skipOptional : Nat → List Byte → Option (List Byte)
  | 0, l => some l
  | k + 1, l =>
    match hexBytes ((l.drop 2).take 2) with
    | some [n] =>
      if ["KS", "IK", "TS", "PB"].any (fun s => ascii s == l.take 2) && 4 ≤ n.toNat && n.toNat ≤ l.length then skipOptional k (l.drop n.toNat)
      else none
    | _ => none

/-- Open a key block: header bytes and key, or the reason (R453). -/
def openBlock (aes : Bool) (kbpk blk : List Byte) : Except Nat (List Byte × List Byte) :=
  let bs := if aes then 16 else 8
  let ver : Byte := if aes then 0x44 else 0x42
  match decDigits ((blk.drop 1).take 4), decDigits ((blk.drop 12).take 2) with
  | some len, some opts =>
    if blk.headD 0 ≠ ver || len ≠ blk.length || blk.length < 16 + 2 * bs then .error 0x18
    else
      match skipOptional opts (blk.drop 16) with
      | none => .error 0x18
      | some rest =>
        let hlen := blk.length - rest.length
        match hexBytes (rest.take (rest.length - 2 * bs)), hexBytes (rest.drop (rest.length - 2 * bs)) with
        | some ct, some mac =>
          if ct.isEmpty || ct.length % bs ≠ 0 || hlen % bs ≠ 0 then .error 0x18
          else
            let ke := kbDerive aes kbpk 0
            let ka := kbDerive aes kbpk 1
            let pt := if aes then cbcDec (aesDec ke) mac (blocksOf 16 ct) else cbcDec (tdesDec ke) mac (blocksOf 8 ct)
            let want := if aes then cmac (aesEnc ka) 16 (blk.take hlen ++ pt) else cmac (tdesEnc ka) 8 (blk.take hlen ++ pt)
            let n := beNat (pt.take 2) / 8
            if want ≠ mac then .error 0x19
            else if pt.length < 2 + n then .error 0x18
            else .ok (blk.take 16, (pt.drop 2).take n)
        | _, _ => .error 0x18
  | _, _ => .error 0x18

/-- A DER length. -/
def derLen : List Byte → Option (Nat × List Byte)
  | [] => none
  | b :: t =>
    if b.toNat < 128 then some (b.toNat, t)
    else
      let n := b.toNat - 128
      some (beNat (t.take n), t.drop n)
/-- `k` DER integers. -/
def derInts : Nat → List Byte → Option (List Nat)
  | 0, _ => some []
  | k + 1, 0x02 :: t =>
    match derLen t with
    | some (n, r) =>
      if n ≤ r.length then (derInts k (r.drop n)).map fun l => beNat (r.take n) :: l else none
    | none => none
  | _, _ => none
/-- RSAPrivateKey with two primes: n, e, d, p, q, dp, dq, qinv. -/
def rsaFromDer (l : List Byte) : Option (List Nat) :=
  match l with
  | 0x30 :: t =>
    match derLen t with
    | some (_, r) =>
      match derInts 9 r with
      | some (0 :: ns) => some ns
      | _ => none
    | none => none
  | _ => none

def byteLen (n : Nat) : Nat := (n.log2 + 8) / 8
def derTag (t : Byte) (l : List Byte) : List Byte :=
  t :: (if l.length < 128 then [BitVec.ofNat 8 l.length]
    else let n := byteLen l.length; BitVec.ofNat 8 (128 + n) :: beBytes n l.length) ++ l
def derInt (n : Nat) : List Byte :=
  let b := beBytes (byteLen n) n
  derTag 0x02 (if 128 ≤ (b.headD 0).toNat then 0 :: b else b)

/-- The extended Euclidean algorithm: x with a x = gcd modulo m. -/
def egcd : Nat → Int → Int → Int → Int → Int
  | 0, _, _, x, _ => x
  | k + 1, a, b, x, y => if b = 0 then x else egcd k b (a % b) y (x - a / b * y)
def invCoprime (a m : Nat) : Nat := (egcd (2 * m.log2 + 4) a m 1 0 % m).toNat

/-- The RSAPrivateKey encoding of a value (R418). -/
def rsaToDer (var : Nat) (v : List Byte) : List Byte :=
  match rsaParts var v with
  | [p, q, dp, dq, qinv, e] =>
    let d := invCoprime e ((p - 1) * (q - 1))
    derTag 0x30 (([0, p * q, e, d, p, q, dp, dq, qinv].map derInt).flatten)
  | _ => []

/-- The DETAIL and value of an imported key. -/
def importValue (alg : Char) (k : List Byte) : Option (Nat × List Byte) :=
  match alg with
  | 'T' => if k.length = 16 then some (1, k) else if k.length = 24 then some (2, k) else none
  | 'A' => if k.length = 16 then some (3, k) else if k.length = 24 then some (4, k) else if k.length = 32 then some (5, k) else none
  | 'H' => if 16 ≤ k.length && k.length ≤ 2016 then some (8, k) else none
  | 'R' =>
    match rsaFromDer k with
    | some [n, e, _, p, q, dp, dq, qinv] =>
      let w := byteLen n
      let h := w / 2
      let v := beBytes h p ++ beBytes h q ++ beBytes h dp ++ beBytes h dq ++ beBytes h qinv ++ beBytes 4 e
      if w = 256 then some (0x18, v) else if w = 384 then some (0x19, v) else if w = 512 then some (0x1A, v) else none
    | _ => none
  | _ => none

/-- IMPORT (R453). -/
def skeImport (j : JC) : J Finish := do
  J.guardBad (j.var == 0) 1
  J.guardBad j.flagsOk 2
  J.guardBad (decide (64 < j.len) && auxOk j false) 3
  let i ← J.whole j (.handle { classes := [0x01], modes := ['B', 'D'] } false) (.hd j.len) (.wr 144)
  match i.ka with
  | none => J.refuse 0x01 0
  | some k =>
    let bmk ← J.bmk
    let aes := algOf k.header = 'A'
    if leNat ((i.b.drop 28).take 2) ≠ j.len - 48 then J.bad 3
    else
      match openBlock aes k.value (i.b.drop 48) with
      | .error r => J.refuse r 3
      | .ok (bh, key) =>
        let alg := Char.ofNat (bh.getD 7 0).toNat
        match importValue alg key with
        | none => J.refuse 0x09 3
        | some (d, v) =>
          let pre := (bh.drop 5).take 2 ++ [bh.getD 7 0, bh.getD 8 0] ++ (bh.drop 9).take 2 ++ [bh.getD 11 0, BitVec.ofNat 8 d]
            ++ zeros 4 ++ (i.b.drop 24).take 4 ++ (i.b.drop 16).take 8 ++ zeros 8
          match fitClass (classRows.filter fun r => r.imports) pre with
          | .error _ => J.refuse 0x09 3
          | .ok row =>
            J.roomC j (recordLen v.length)
            let B ← J.bench
            let h := finishHeader pre v.length B.time.sec false
            pure (placing j { load := false, cls := row.cls, header := h, value := v, aux := j.aux, dest := j.destVa, journal := some 0x29 }
              (makeRecord bmk B.ctl.epoch.toNat row.cls h v) false)

/-- EXPORT (R454). -/
def skeExport (j : JC) : J Finish := do
  J.guardBad (j.var == 0) 1
  J.guardBad j.flagsOk 2
  J.guardBad (j.len == 0 && j.aux == 0) 3
  let imports := (classRows.filter fun r => r.imports).map (·.cls)
  let i ← J.whole j (.handle { classes := [0x01], modes := ['B', 'E'] } false) (.handle { classes := imports, modes := [] } false) (.wr 64) 16
  match i.ka, i.kb with
  | some k, some x =>
    let B ← J.bench
    let ex := Char.ofNat (hdrExport x.header)
    if ex = 'N' || (ex = 'S' && !B.vault.ctrl.getLsbD 1) then J.refuse 0x1A 1
    else if strength (hdrDetail k.header) k.value.length < strength (hdrDetail x.header) x.value.length then J.refuse 0x1B 0
    else
      let aes := algOf k.header = 'A'
      let bs := if aes then 16 else 8
      let d := hdrDetail x.header
      let key := if 0x18 ≤ d then rsaToDer (d - 0x10) x.value else x.value
      let n := (2 + key.length + bs - 1) / bs * bs
      let total := 16 + 2 * n + 2 * bs
      J.roomC j total
      let pt := (beBytes 2 (8 * key.length) ++ key ++ i.r).take n
      let h := x.header
      let bh := [if aes then (0x44 : Byte) else 0x42] ++ toDec 4 total ++ hdrUsage h ++ [h.getD 2 0, h.getD 3 0] ++ hdrVersion h ++ [h.getD 6 0]
        ++ ascii "0000"
      let ke := kbDerive aes k.value 0
      let ka := kbDerive aes k.value 1
      let mac := if aes then cmac (aesEnc ka) 16 (bh ++ pt) else cmac (tdesEnc ka) 8 (bh ++ pt)
      let ct := if aes then cbcEnc (aesEnc ke) mac (blocksOf 16 pt) else cbcEnc (tdesEnc ke) mac (blocksOf 8 pt)
      let blk := bh ++ toHex ct ++ toHex mac
      pure { Finish.ok blk.length blk.length (j.out 2 0 blk) with
        record := some (0x2E, hdrTenant h, keyData h x.cls x.slot (B.slot x.slot).gen ++ hdrKeyid k.header) }
  | _, _ => J.refuse 0x01 0

/-! ## The SKE's work -/

/-- The forms of OP 0x20 that VAR lists. -/
def loadForm (v : Nat) : Bool := (1 ≤ v && v ≤ 4) || (8 ≤ v && v ≤ 0x0A)

/-- The operation and, for the key-load job, the form: what one command stands for. -/
def skeKey (op var : Nat) : Nat := if op = 0x20 then 0x2000 + (if loadForm var then var else 0) else op

def skeDefined (op var : Nat) : Bool :=
  (1 ≤ op && op ≤ 4) || (0x10 ≤ op && op ≤ 0x12) || op == 0x18 || (op == 0x20 && loadForm var) || op == 0x21 || op == 0x22

def skeLoadJob (j : JC) : J Finish := do
  J.guardBad j.flagsOk 2
  match j.var with
  | 0x01 => skeLoad j
  | 0x02 => skeGenerate j
  | 0x03 => skeTrust j
  | 0x04 => skeRewrap j
  | 0x08 => skeDeriveEmv j
  | 0x09 => skeDeriveDukpt j
  | 0x0A => skeDeriveKdf j
  | _ => J.bad 1

def skeRun (j : JC) (unit : Option UnitJob) : J Finish :=
  match unit with
  | some (.tls _ enc suite nonce key aad data) => pure (tlsRun enc suite nonce key aad data)
  | _ =>
  match j.op with
  | 0x01 | 0x02 => skeCipher j
  | 0x03 | 0x04 => skeMac j
  | 0x10 | 0x11 | 0x12 => skePin j
  | 0x18 => skeArqc j
  | 0x20 => skeLoadJob j
  | 0x21 => skeImport j
  | 0x22 => skeExport j
  | _ => J.bad 1

/-- SKE `n` takes its next job if it is the operation, or form, `key`. -/
def Bench.skeBegin (B : Bench) (n : Fin 4) (key : Nat) : Bench :=
  B.engBegin (Fin.ofNat 18 (7 + n.val)) (fun o v => skeKey o v == key || !skeDefined o v) skeRun jobUses

end Sys2Proof.Machine
end

