-- ==== Sys2Proof/Machine/EngRows.lean ====
section
/-!
DEFINITION. Machine/EngRows.lean: the commands of chapters 09 to 11: the key vault's commands, the jobs of the engines, Clickers and
Closers from begin to completion, rings, tokens and the pattern store. A job command names the unit that takes its next job;
it has an effect where that job is of the command's operation.
-/

namespace Sys2Proof.Machine

/-! ## Vault commands (R458) -/

def execVaultInfo (b : BenchNo) (w : Writer) (s : State) : Out := s.bus b w 0x10000C 1
def execVaultDelete (b : BenchNo) (w : Writer) (s : State) : Out := s.bus b w 0x10000C 2
def execVaultRevoke (b : BenchNo) (w : Writer) (s : State) : Out := s.bus b w 0x10000C 3
def execVaultPin (b : BenchNo) (w : Writer) (s : State) : Out := s.bus b w 0x10000C 4
def execVaultUnpin (b : BenchNo) (w : Writer) (s : State) : Out := s.bus b w 0x10000C 5
def execVaultPurge (b : BenchNo) (w : Writer) (s : State) : Out := s.bus b w 0x10000C 6
def execVaultAbort (b : BenchNo) (w : Writer) (s : State) : Out := s.bus b w 0x10000C 7
def execVaultForgetPrevious (b : BenchNo) (w : Writer) (s : State) : Out := s.bus b w 0x10000C 8
def execVaultCommandEnd (b : BenchNo) (s : State) : Out := s.onMemory b Bench.vaultEnd

/-- The ceremony's timeout passes (R440, R445): the profile's, in seconds since CER_OPEN. -/
def Bench.cerTimeout (B : Bench) (seconds : Nat) : Bench :=
  match B.vault.ceremony with
  | none => B
  | some c => if B.time.elapsed - c.since < seconds * 1000000 then B else B.cerEnd true

def execCeremonyTimeout (b : BenchNo) (s : State) : Out :=
  let t : Nat := match s.dev.committed.bind (·.profile) with
    | some p => p.timeout
    | none => 0
  s.onAlive b fun B => B.cerTimeout t

/-! ## Jobs -/

/-- PKE `n` begins its next job if its OP is `op`. -/
def State.pke (s : State) (b : BenchNo) (n : Fin 4) (op : Nat) : Out := s.onUnit b (1 + n.val) fun B => B.pkeBegin n op
def State.lke (s : State) (b : BenchNo) (n : Fin 2) (op : Nat) : Out := s.onUnit b (5 + n.val) fun B => B.lkeBegin n op
def State.ske (s : State) (b : BenchNo) (n : Fin 4) (key : Nat) : Out := s.onUnit b (7 + n.val) fun B => B.skeBegin n key
def State.clicker (s : State) (b : BenchNo) (n : Fin 2) (op : Nat) : Out := s.onUnit b (14 + n.val) fun B => B.clickerBegin n op
def State.closer (s : State) (b : BenchNo) (n : Fin 2) (op : Nat) : Out := s.onUnit b (16 + n.val) fun B => B.closerBegin n op

def execPkeSign (b : BenchNo) (n : Fin 4) (s : State) : Out := s.pke b n 1
def execPkeVerify (b : BenchNo) (n : Fin 4) (s : State) : Out := s.pke b n 2
def execRsaCrtSign (b : BenchNo) (n : Fin 4) (s : State) : Out := s.pke b n 3
def execRsaVerify (b : BenchNo) (n : Fin 4) (s : State) : Out := s.pke b n 4
def execKeyAgreement (b : BenchNo) (n : Fin 4) (s : State) : Out := s.pke b n 5
def execEphemeralKeyAgreement (b : BenchNo) (n : Fin 4) (s : State) : Out := s.pke b n 6
def execPkePublicKeyDerivation (b : BenchNo) (n : Fin 4) (s : State) : Out := s.pke b n 7
def execMlDsaSign (b : BenchNo) (n : Fin 2) (s : State) : Out := s.lke b n 1
def execMlDsaVerify (b : BenchNo) (n : Fin 2) (s : State) : Out := s.lke b n 2
def execMlKemEncapsulate (b : BenchNo) (n : Fin 2) (s : State) : Out := s.lke b n 3
def execMlKemDecapsulate (b : BenchNo) (n : Fin 2) (s : State) : Out := s.lke b n 4
def execLkePublicKeyDerivation (b : BenchNo) (n : Fin 2) (s : State) : Out := s.lke b n 5
def execEncrypt (b : BenchNo) (n : Fin 4) (s : State) : Out := s.ske b n 1
def execDecrypt (b : BenchNo) (n : Fin 4) (s : State) : Out := s.ske b n 2
def execMacGenerate (b : BenchNo) (n : Fin 4) (s : State) : Out := s.ske b n 3
def execMacVerify (b : BenchNo) (n : Fin 4) (s : State) : Out := s.ske b n 4
def execPinTranslate (b : BenchNo) (n : Fin 4) (s : State) : Out := s.ske b n 0x10
def execPinReformat (b : BenchNo) (n : Fin 4) (s : State) : Out := s.ske b n 0x11
def execPinCompare (b : BenchNo) (n : Fin 4) (s : State) : Out := s.ske b n 0x12
def execArqcVerify (b : BenchNo) (n : Fin 4) (s : State) : Out := s.ske b n 0x18
def execKeyLoad (b : BenchNo) (n : Fin 4) (s : State) : Out := s.ske b n 0x2001
def execKeyGenerate (b : BenchNo) (n : Fin 4) (s : State) : Out := s.ske b n 0x2002
def execKeyTrust (b : BenchNo) (n : Fin 4) (s : State) : Out := s.ske b n 0x2003
def execKeyRewrap (b : BenchNo) (n : Fin 4) (s : State) : Out := s.ske b n 0x2004
def execDeriveEmv (b : BenchNo) (n : Fin 4) (s : State) : Out := s.ske b n 0x2008
def execDeriveDukpt (b : BenchNo) (n : Fin 4) (s : State) : Out := s.ske b n 0x2009
def execDeriveKdf (b : BenchNo) (n : Fin 4) (s : State) : Out := s.ske b n 0x200A
def execKeyImport (b : BenchNo) (n : Fin 4) (s : State) : Out := s.ske b n 0x21
def execKeyExport (b : BenchNo) (n : Fin 4) (s : State) : Out := s.ske b n 0x22
def execHash (b : BenchNo) (n : Fin 2) (s : State) : Out := s.onUnit b (11 + n.val) fun B => B.hseBegin n
def execDrbgGenerate (b : BenchNo) (s : State) : Out := s.onUnit b 13 fun B => B.drbgBegin 1
def execDrbgReseed (b : BenchNo) (s : State) : Out := s.onUnit b 13 fun B => B.drbgBegin 2
def execDrbgReseedDue (b : BenchNo) (s : State) : Out := s.onUnit b 13 Bench.drbgDue
/-- R509. -/
def execEntropySourceFailure (b : BenchNo) (second : Bool) (s : State) : Out := s.onUnit b 13 fun B => B.sourceFails second
def execCut (b : BenchNo) (n : Fin 2) (s : State) : Out := s.clicker b n 1
def execCutStream (b : BenchNo) (n : Fin 2) (s : State) : Out := s.clicker b n 2
def execAssemble (b : BenchNo) (n : Fin 2) (s : State) : Out := s.closer b n 1
def execAssembleStream (b : BenchNo) (n : Fin 2) (s : State) : Out := s.closer b n 2
/-- R561: message unit `n` (Clickers 0 and 1, Closers 2 and 3). -/
def execStreamStall (b : BenchNo) (n : Fin 4) (s : State) : Out :=
  s.onUnit b (14 + n.val) fun B => B.streamStall (Fin.ofNat 18 (14 + n.val))

/-- BENCH.USTATE index of unit `n` counted from PKE 0. -/
def jobUnit (n : Fin 17) : UnitNo := n.succ

/-- The job in flight unprotects a TLS record, whose end has a command of its own. -/
def Bench.tlsDecrypting (B : Bench) (u : UnitNo) : Bool :=
  match (B.eng u).job with
  | some { unit := some (.tls _ false _ _ _ _ _), .. } => true
  | _ => false

/-- R469: the job in flight completes. -/
def execJobCompletion (b : BenchNo) (n : Fin 17) (s : State) : Out :=
  let u := jobUnit n
  s.onUnit b u.val fun B => if B.tlsDecrypting u then B else (B.jobComplete u (unitInstance u.val)).tlsSettle

/-- R635, R793: SKE `n` has unprotected a record. -/
def execTlsRecordDecryptEnd (b : BenchNo) (n : Fin 4) (s : State) : Out :=
  let u : UnitNo := Fin.ofNat 18 (7 + n.val)
  s.onUnit b u.val fun B => if B.tlsDecrypting u then (B.jobComplete u n.val).tlsSettle else B

/-- Register base of unit `u` (R462, R470). -/
def engBase (u : Nat) : Nat :=
  if u ≤ 4 then 0x110000 + 0x4000 * (u - 1) else if u ≤ 6 then 0x120000 + 0x4000 * (u - 5)
  else if u ≤ 10 then 0x130000 + 0x4000 * (u - 7) else if u ≤ 12 then 0x140000 + 0x4000 * (u - 11)
  else if u = 13 then 0x148000 else 0x200000 + 0x4000 * (u - 14)
def ringCfgReg (u : UnitNo) (ring : Fin 4) : Nat := engBase u.val + 0x108 + 0x20 * ring.val

/-- R471: a write of RING.CFG with EN 1. -/
def execRingEnable (b : BenchNo) (w : Writer) (n : Fin 17) (ring : Fin 4) (depth prio : BitVec 2) (s : State) : Out :=
  s.bus b w (ringCfgReg (jobUnit n) ring) (BitVec.ofNat 32 (depth.toNat + prio.toNat * 16 + 256))
/-- R471: a write of RING.CFG with EN 0. -/
def execRingDisable (b : BenchNo) (w : Writer) (n : Fin 17) (ring : Fin 4) (s : State) : Out :=
  s.bus b w (ringCfgReg (jobUnit n) ring) 0
/-- R481. -/
def execTokenExpiry (b : BenchNo) (n : Fin 17) (i : Fin 32) (s : State) : Out :=
  s.onUnit b (jobUnit n).val fun B => B.tokenExpiry (jobUnit n) i.val

/-! ## The pattern store (R563) -/

def execPatLoad (b : BenchNo) (w : Writer) (s : State) : Out := s.bus b w 0x210000 1
def execPatLoadEnd (b : BenchNo) (s : State) : Out := s.onUnit b 14 Bench.patLoadEnd
def execPatSwap (b : BenchNo) (w : Writer) (s : State) : Out := s.bus b w 0x210000 2
def execPatSwapCheckEnd (b : BenchNo) (s : State) : Out := s.onUnit b 14 Bench.patSwapEnd
def execPatDrainEnd (b : BenchNo) (s : State) : Out := s.onUnit b 14 Bench.patDrainEnd

end Sys2Proof.Machine
end

