-- ==== Sys2Proof/Machine/NetRows.lean ====
section
/-!
DEFINITION. Machine/NetRows.lean: the commands of chapters 12 and 13 on one bench: the journal and its mirrors, bench time, the ports,
TCP's timers, the queues and the host queue pairs.
-/

namespace Sys2Proof.Machine

/-! ## The journal -/

/-- R601, R602. -/
def execJournalRecoveryEnd (b : BenchNo) (s : State) : Out := s.onUnit b 18 Bench.jrnRecover

/-- Each delivery goes to the queue that admitted the request (R580). -/
def Bench.deliverRequests (B : Bench) : Bench :=
  let l := B.jrn.deliveries
  l.foldl (fun B d => if 288 ≤ d.req.queue then B.rxAnswer d else B.hqAnswer d) { B with jrn := { B.jrn with deliveries := [] } }

/-- R580, R583. -/
def execReceivedRecord (b : BenchNo) (s : State) : Out := s.onUnit b 18 fun B => B.jrnReceive.deliverRequests
/-- R581. -/
def execItemTimeout (b : BenchNo) (i : BitVec 19) (s : State) : Out := s.onUnit b 18 fun B => B.jrnTimeout i.toNat
/-- R587, R588. -/
def execCheckpointRecord (b : BenchNo) (s : State) : Out := s.onUnit b 18 Bench.jrnCheckpoint
/-- R589, R590. -/
def execSignatureEntryWrite (b : BenchNo) (s : State) : Out := s.onUnit b 18 Bench.jrnSigEntry
/-- R584. -/
def execDedupSweep (b : BenchNo) (s : State) : Out := s.onUnit b 18 Bench.jrnSweep

/-- MSI-X vector 257, at most once in 10 us (R665). -/
def Bench.mirrorNotice (B : Bench) : Bench :=
  let due := match B.jrn.msixTime with
    | none => true
    | some t => 10 ≤ B.time.elapsed - t
  if due then ({ B with jrn := { B.jrn with msixTime := some B.time.elapsed } } : Bench).msix 257 else B

/-- R595: one record or signature entry is copied to host memory. -/
def execHostMirrorWrite (b : BenchNo) (s : State) : Out :=
  s.onUnit b 18 fun B =>
    let was := B.jrn.mirrorSeq
    let (_, B) := B.jrnMirror
    if B.jrn.mirrorSeq ≠ was then B.mirrorNotice else B

/-- A write of a release point's half; the host writes HACK in its own view (R594, R665). -/
def execHackWrite (b : BenchNo) (w : Writer) (hi : Bool) (v : Word) (s : State) : Out :=
  let off := if hi then 0x300074 else 0x300070
  if w = .host then s.onBench b fun B => if B.hostReaches then B.idleExit.jrnWrite off v else B
  else s.bus b w off v
def execSwrelWrite (b : BenchNo) (w : Writer) (hi : Bool) (v : Word) (s : State) : Out :=
  s.bus b w (if hi then 0x30006C else 0x300068) v
/-- R594: a read of a _LO register latches its _HI partner. -/
def execJournalLoRead (b : BenchNo) (w : Writer) (r : Fin 8) (s : State) : Out := s.busR b w (0x300050 + 8 * r.val)
/-- R596. -/
def execPartnerSend (b : BenchNo) (s : State) : Out := s.onUnit b 18 Bench.partnerSend
/-- R598. -/
def execPartnerRetransmitTimeout (b : BenchNo) (s : State) : Out := s.onUnit b 18 Bench.partnerTimeout

/-! ## Time -/

/-- R603: a measurement by the PTP port `p`, `off` units of 1/256 ns; `announce` carries a UTC offset and the source's second. -/
def execServoMeasurement (b : BenchNo) (p : Bool) (off : BitVec 64) (announce : Option (Half × BitVec 48)) (s : State) : Out :=
  s.onUnit b 19 fun B => B.measurement p off announce
/-- R604. -/
def execPtpMessageTransmit (b : BenchNo) (p : Bool) (kind : BitVec 4) (s : State) : Out :=
  s.onUnit b 19 fun B => B.ptpSend p kind
/-- R606: the selected source is lost; `other` is what the other port's source measures, where there is one. -/
def execHoldoverEntry (b : BenchNo) (other : Option (BitVec 64)) (s : State) : Out := s.onTime b fun B => B.sourceLost other
/-- R607. -/
def execTimeSetWrite (b : BenchNo) (w : Writer) (v : Word) (s : State) : Out := s.bus b w 0x310040 v
/-- R612. -/
def execTimeNow0Read (b : BenchNo) (w : Writer) (s : State) : Out := s.busR b w 0x310000
/-- R608. -/
def execPpsInputEdge (b : BenchNo) (sub : BitVec 18) (s : State) : Out := s.onTime b fun B => B.ppsEdge sub
def execSecondBoundary (b : BenchNo) (s : State) : Out := s.onTime b Bench.secondBoundary
def execPpsOutputFall (b : BenchNo) (s : State) : Out := s.onTime b Bench.ppsFall
/-- R605. -/
def execLatencyCalibration (b : BenchNo) (p : Bool) (s : State) : Out := s.onUnit b 19 fun B => B.latencyCal p
/-- R610. -/
def execBenchTimerExpiry (b : BenchNo) (i : Fin 64) (s : State) : Out := s.onTime b fun B => B.timerExpiry i
def execTimerWrite (b : BenchNo) (w : Writer) (i : Fin 64) (v : Word) (s : State) : Out := s.bus b w (0x310100 + 4 * i.val) v

/-! ## Ports and queues -/

/-- R614, R615: a link comes up or goes down; in NAP and OFF the ports are off (R616). -/
def execLinkChange (b : BenchNo) (p up : Bool) (rate : BitVec 3) (anDone : Bool) (s : State) : Out :=
  s.onBench b fun B =>
    if B.alive && !B.asleep && B.islandOk (unitIsland (portUnit p)) then B.idleExit.linkChange p up rate anDone else B

/-- R616 to R621: a frame arrives, which also returns an idle bench to RUN (R737). -/
def execFrameReceive (b : BenchNo) (p : Bool) (frame : List Byte) (fcsOk : Bool) (s : State) : Out :=
  s.onBench b fun B =>
    let B' := B.idleExit
    if B.alive && B'.unitRuns (portUnit p) then B'.frameIn p frame fcsOk else B

/-- R638 to R642. -/
def execRxQueueDelivery (b : BenchNo) (q : Fin 128) (s : State) : Out := s.onUnit b 20 fun B => B.rxResume q.val
/-- R624. -/
def execTcpRetransmitTimeout (b : BenchNo) (conn : Fin 16384) (s : State) : Out := s.onUnit b 20 fun B => B.tcpTimeout conn.val
def execTcpKeepaliveExpiry (b : BenchNo) (conn : Fin 16384) (s : State) : Out := s.onUnit b 20 fun B => B.tcpKeepalive conn.val
def execDelayedAckExpiry (b : BenchNo) (conn : Fin 16384) (s : State) : Out := s.onUnit b 20 fun B => B.tcpDelayedAck conn.val
/-- R625. -/
def execTimeWaitExpiry (b : BenchNo) (conn : Fin 16384) (s : State) : Out := s.onUnit b 20 fun B => B.tcpTimeWait conn.val

/-- R644, R648. -/
def execTxqTailWrite (b : BenchNo) (w : Writer) (q : Fin 128) (v : Word) (s : State) : Out := s.bus b w (0x402008 + 0x20 * q.val) v

/-- Transmit queue `q` carries out its next descriptor if it holds operation `op` (R645 to R648). -/
def State.tx (s : State) (b : BenchNo) (q : Fin 128) (op : Nat) (f : Bench → Nat → TxCur → Bench) : Out :=
  s.onUnit b 20 fun B => B.txRun q.val op f
def execTxSend (b : BenchNo) (q : Fin 128) (s : State) : Out := s.tx b q 1 Bench.txSend
def execTxRaw (b : BenchNo) (q : Fin 128) (s : State) : Out := s.tx b q 2 Bench.txRaw
def execTxTlsRaw (b : BenchNo) (q : Fin 128) (s : State) : Out := s.tx b q 3 Bench.txTlsRaw
def execTxUdp (b : BenchNo) (q : Fin 128) (s : State) : Out := s.tx b q 4 Bench.txUdp
def execTxFrame (b : BenchNo) (q : Fin 128) (s : State) : Out := s.tx b q 5 Bench.txFrame
def execTxConnect (b : BenchNo) (q : Fin 128) (s : State) : Out := s.tx b q 6 Bench.txConnect
def execTxClose (b : BenchNo) (q : Fin 128) (s : State) : Out := s.tx b q 7 Bench.txClose
def execTxAbort (b : BenchNo) (q : Fin 128) (s : State) : Out := s.tx b q 8 Bench.txAbort
def execTxSetkey (b : BenchNo) (q : Fin 128) (s : State) : Out := s.tx b q 9 Bench.txSetKey
def execTxContinue (b : BenchNo) (q : Fin 128) (s : State) : Out := s.tx b q 10 Bench.txContinue

/-! ## Host queue pairs -/

/-- R659: the host writes HQ.SQTAIL. In NAP and OFF the write is kept and its event raised, which may wake the bench (R741). -/
def execSqDoorbell (b : BenchNo) (n : Fin 256) (v : Word) (s : State) : Out :=
  s.onAlive b fun B =>
    if !B.hostUp then B
    else if B.asleep then (B.setHqp n.val { B.hqp n.val with sqtail := bitsOf v 11 0 }).raise n.val
    else B.idleExit.hostWrite4 (0x1000 + 16 * n.val) v

/-- R661. -/
def execCstailWrite (b : BenchNo) (w : Writer) (n : Fin 256) (v : Word) (s : State) : Out := s.bus b w (0x408018 + 0x40 * n.val) v
def execCompletionDescriptor (b : BenchNo) (n : Fin 256) (s : State) : Out := s.onMemory b fun B => B.csRun n.val

end Sys2Proof.Machine
end

