-- ==== Sys2Proof/Machine/PwrRows.lean ====
section
/-!
DEFINITION. Machine/PwrRows.lean: the commands of chapters 14 and 15 on a bench's clocks, watchdog, power state and adaptation, and
on the package's voltage, current and power (R29, R682, R719, R736 to R742, R750 to R759, R768).
-/

namespace Sys2Proof.Machine

/-! ## Clocks and reset requests -/

def execFllLockLoss (b : BenchNo) (i : Fin 40) (s : State) : Out := s.onAlive b fun B => B.fllLoss i
def execFllRelock (b : BenchNo) (i : Fin 40) (s : State) : Out := s.onBench b fun B =>
  -- what stalled at the island goes on
  if B.running then (B.fllRelock i).hqGo.connsGo else B.fllRelock i
def execFllRelockTimeout (b : BenchNo) (s : State) : Out := s.onAlive b Bench.fllTimeout
def execBenchWatchdogExpiry (b : BenchNo) (s : State) : Out := s.onAlive b Bench.wdogExpiry
def execWdkickWrite (b : BenchNo) (w : Writer) (v : Word) (s : State) : Out := s.bus b w 0x44 v
def execRstreqWrite (b : BenchNo) (w : Writer) (v : Word) (s : State) : Out := s.bus b w 0x18 v

/-! ## Power states -/

/-- R736, R740, R741: PWR.STATE stays powered in NAP and OFF, where the DMC can write it; the host reaches it never (R672). -/
def execPwrStateWrite (b : BenchNo) (w : Writer) (v : Word) (s : State) : Out :=
  s.onBench b fun B =>
    if B.reaches w || (B.alive && B.asleep && w = .dmc) then B.idleExit.busWrite w 0x500000 v else B

def execIdleEntry (b : BenchNo) (s : State) : Out := s.onAlive b Bench.idleEntry
def execIdleExit (b : BenchNo) (s : State) : Out := s.onAlive b Bench.idleExit
def execNapEntry (b : BenchNo) (s : State) : Out := s.onAlive b fun B => B.sleep 2
def execOffEntry (b : BenchNo) (s : State) : Out := s.onAlive b fun B => B.sleep 3
/-- R739, R741: what waited goes on. -/
def execNapWake (b : BenchNo) (s : State) : Out :=
  s.onAlive b fun B => if B.pwr.effective = 2 then B.napWake.hqGo else B

/-! ## Frequency -/

/-- R751, with the mean latencies of the queues over the last millisecond. -/
def execFrequencySelection (b : BenchNo) (lat : List (Fin 384 × Half)) (s : State) : Out := s.onAlive b fun B => B.selectFreq lat
/-- R757. -/
def execPolicyRelease (b : BenchNo) (s : State) : Out := s.onAlive b Bench.policyRelease
/-- R753; `tj` is the junction temperature in degrees Celsius, signed. -/
def execThermalThrottleStep (b : BenchNo) (tj : Byte) (s : State) : Out := s.onAlive b fun B => B.thermalStep tj

def State.setPkg (s : State) (p : PkgPower) : State := { s with dev := { s.dev with pkg := p } }

/-- A step of the current loop with VDD_CORE at `amps` (R754). -/
def State.current (s : State) (amps : Half) : State :=
  let p := s.dev.pkg
  let now := s.dev.elapsed
  if 185 < amps.toNat then
    (s.setPkg { p with ilimit := true, calmSince := now }).allBenches fun B => if B.alive then B.currentStep true false else B
  else if 170 ≤ amps.toNat then s.setPkg { p with calmSince := now }
  else if p.ilimit && 1000 ≤ now - p.calmSince then
    (s.setPkg { p with ilimit := false }).allBenches fun B => B.currentStep false true
  else s

def execCurrentLimitStep (amps : Half) (s : State) : Out := .next (s.current amps)

/-- A bench's frequency stands at its floor or below, or it runs no clock. -/
def Bench.atFloor (B : Bench) : Bool := !B.alive || B.asleep || decide (B.pwr.selected ≤ B.pwr.floor.toNat)

/-- A step of the power cap with the package at `watts` (R755). -/
def State.powerCap (s : State) (watts : BitVec 10) : State :=
  let p := { s.dev.pkg with watts := watts }
  let cap := p.pcap.toNat
  let tooHigh := decide (cap ≠ 0 ∧ cap < watts.toNat)
  let unmet := tooHigh && s.benches.toList.all Bench.atFloor
  let s := (s.setPkg { p with capUnmet := unmet }).allBenches fun B =>
    if tooHigh then (if B.alive then B.capStep true false else B)
    else if cap = 0 || watts.toNat * 100 ≤ cap * 95 then B.capStep false true
    else B
  if unmet = p.capUnmet then s else s.allBenches fun B => if B.alive then B.raise 836 else B

def execPowerCapStep (watts : BitVec 10) (s : State) : Out := .next (s.powerCap watts)

/-- Each bench takes the limit that its FLLs keep at the voltage in force; `top` at 0.85 V (R29, R751, R757). -/
def State.margins (s : State) (limits : Vector (BitVec 7) 8) (top : Bool) : State :=
  { s with benches := Vector.ofFn fun b => if s.benches[b].alive then s.benches[b].marginLimit limits[b] top else s.benches[b] }

/-- R752: VDD_CORE moves toward `mv` by at most 5 mV, within 650 to 850 mV. -/
def State.avs (s : State) (mv : BitVec 12) (limits : Vector (BitVec 7) 8) : State :=
  let p := s.dev.pkg
  if !p.adapting then s
  else
    let goal := max 650 (min 850 mv.toNat)
    let new := max (p.mv.toNat - 5) (min (p.mv.toNat + 5) goal)
    let s := s.setPkg { p with mv := BitVec.ofNat 12 new }
    let s : State := if new = p.mv.toNat then s else { s with dev := { s.dev with out := s.dev.out ++ [.avs new] } }
    s.margins limits (new = 850)

def execAvsAdjustment (mv : BitVec 12) (limits : Vector (BitVec 7) 8) (s : State) : Out := .next (s.avs mv limits)

/-- R768: the regulator has not acknowledged. -/
def execAvsbusTimeout (limits : Vector (BitVec 7) 8) (s : State) : Out :=
  if !s.dev.pkg.adapting then .next s
  else
    let s := s.setPkg { s.dev.pkg with mv := 850, adapting := false }
    .next (({ s with dev := { s.dev with out := s.dev.out ++ [.avs 850] } } : State).margins limits true)

/-! ## Parked cores (R756) -/

def execParkWrite (b : BenchNo) (w : Writer) (v : Half) (s : State) : Out := s.bus b w 0x50000C (v.zeroExtend 32)
def execCorePowerGating (b : BenchNo) (k : CoreNo) (s : State) : Out := s.onMemory b fun B => B.gateCore k

end Sys2Proof.Machine
end

