-- ==== Sys2Proof/Machine/Repeat.lean ====
section
/-!
DEFINITION. Machine/Repeat.lean: the repeat prefixes (R130 to R139), the words that are defined encodings, and the decode of a word
that is none (R123).
-/

namespace Sys2Proof.Machine

/-! ## Fields of a word (R118) -/

def wMajor (w : Word) : Nat := (w.extractLsb' 21 7).toNat
def wRd (w : Word) : Nat := (w.extractLsb' 16 5).toNat
def wR1 (w : Word) : Nat := (w.extractLsb' 11 5).toNat
def wR2 (w : Word) : Nat := (w.extractLsb' 6 5).toNat
def wFn (w : Word) : Nat := (w.extractLsb' 0 6).toNat
def wImm (w : Word) : Nat := (w.extractLsb' 0 16).toNat

/-- The guard of a word; none for the prefix space (R121). -/
def wGuard (w : Word) : Option Guard :=
  let p := (w.extractLsb' 28 3).toNat
  if w.getLsbD 31 then (if p = 0 then none else some (.ifnot (Fin.ofNat 7 (p - 1)))) else some (.ifp (Fin.ofNat 8 p))

/-! ## Eligible instructions (R131) -/

def wForm (w : Word) : Option RepForm :=
  let rd : Reg := Fin.ofNat 32 (wRd w)
  let r1 : Reg := Fin.ofNat 32 (wR1 w)
  let r2 : Reg := Fin.ofNat 32 (wR2 w)
  let fn := wFn w
  let down := decide (32 ≤ fn)
  match wMajor w with
  | 0x08 => if fn = 0 then some (.mac rd r1 r2) else if fn = 1 then some (.macbPi rd r1 r2) else none
  | 0x09 =>
    if r2 ≠ 0 || fn / 4 % 4 ≠ 0 then none
    else
      match fn % 4, fn / 16 with
      | 3, _ => none
      | p, 0 => some (.crcb (Fin.ofNat 3 p) rd r1)
      | p, 1 => some (.crcw (Fin.ofNat 3 p) rd r1)
      | p, 2 => some (.crcbPi (Fin.ofNat 3 p) rd r1)
      | _, _ => none
  | 0x1C =>
    match fn % 32 with
    | 0 => if r2 = 0 then some (.load .lb down rd r1) else none
    | 1 => if r2 = 0 then some (.load .lbu down rd r1) else none
    | 2 => if r2 = 0 then some (.load .lh down rd r1) else none
    | 3 => if r2 = 0 then some (.load .lhu down rd r1) else none
    | 4 => if r2 = 0 then some (.load .lw down rd r1) else none
    | 5 => if r2 = 0 && rd ≠ r1 then some (.load .clc down rd r1) else none
    | 6 => if r2 = 0 && rd.val < 16 then some (.load .dld down rd r1) else none
    | 8 => if rd = 0 then some (.store .sb down r2 r1) else none
    | 9 => if rd = 0 then some (.store .sh down r2 r1) else none
    | 10 => if rd = 0 then some (.store .sw down r2 r1) else none
    | 11 => if rd = 0 then some (.store .csc down r2 r1) else none
    | 12 => if rd = 0 && r2.val < 16 then some (.store .dst down r2 r1) else none
    | _ => none
  | 0x1D =>
    if rd ≠ 0 then none
    else
      match fn % 32 with
      | 0 => some (.fill .b down r1 r2)
      | 1 => some (.fill .h down r1 r2)
      | 2 => some (.fill .w down r1 r2)
      | 3 => some (.fill .g down r1 r2)
      | _ => none
  | 0x3D =>
    if 8 ≤ rd.val then none
    else
      match fn % 32 with
      | 0 => some (.cmpb .eq down rd r1 r2)
      | 1 => some (.cmpb .ne down rd r1 r2)
      | 2 => some (.cmpb .ltu down rd r1 r2)
      | 3 => some (.cmpb .geu down rd r1 r2)
      | _ => none
  | 0x79 => if fn = 8 && rd = 0 then some (.ckpush r1 r2) else none
  | 0x7A => if fn = 8 && rd = 0 && r2 = 0 then some (.jpush r1) else none
  | _ => none

/-- The word after a prefix, if it is an eligible instruction. -/
def wRepeat (w : Word) : Option (Guard × RepForm) :=
  match wGuard w, wForm w with
  | some g, some f => some (g, f)
  | _, _ => none

def RepForm.body : RepForm → Strand → M (Option Cap)
  | .mac rd rs1 rs2 => bodyMac rd rs1 rs2
  | .macbPi rd cs1 rs2 => bodyMacb rd cs1 rs2
  | .crcb p rd rs1 => bodyCrcb p rd rs1
  | .crcw p rd rs1 => bodyCrcw p rd rs1
  | .crcbPi p rd cs1 => bodyCrcbPi p rd cs1
  | .load k down rd cs1 => bodyLoadPi k down rd cs1
  | .store k down rs2 cs1 => bodyStorePi k down rs2 cs1
  | .fill k down cs1 rs2 => bodyFill k down cs1 rs2
  | .cmpb k down pd cs1 rs2 => bodyCmpb k down pd cs1 rs2
  | .ckpush cs1 rs2 => bodyPush false cs1 rs2
  | .jpush cs1 => bodyJpush cs1

/-- A push that waits for room (R214). -/
def RepForm.waits (f : RepForm) (B : Bench) (σ : Strand) : Bool :=
  match f with
  | .ckpush cs1 rs2 => B.pushFull σ false cs1 rs2
  | _ => false

/-! ## The procedure of R132 -/

/-- RC and RCV of a bank. -/
def Bench.setRc (B : Bench) (k : CoreNo) (b : BankNo) (n : Nat) (rcv : Bool) : Bench :=
  B.modBank k b fun s => { s with rc := BitVec.ofNat 32 n, rcv := rcv }

/-- The repetition ends: PCC passes both words. -/
def Bench.repeatEnd (B : Bench) (k : CoreNo) (b : BankNo) : Bench :=
  let s := B.bank k b
  (B.setRc k b 0 false).retire k b (some (s.pcc.withCursor (s.pcc.cursor + 8)))

/-- `n` iterations to go. A fault, an interruption of REPI and a push under REPI that waits for room leave RC with the iterations not
yet completed, RCV 1 and PCC at the prefix (R132, R133, R137). A push under REP that waits for room stays in progress (R214). -/
def repeatGo (σ : Strand) (repi : Bool) (g : Guard) (f : RepForm) : Nat → Bench → Bench
  | 0, B => B.repeatEnd σ.core σ.bank
  | n + 1, B =>
    let k := σ.core
    let b := σ.bank
    let after (B : Bench) : Bench :=
      if repi && n ≠ 0 && ((B.eventDue k).isSome || B.switchDue k) then B.setRc k b n true
      else repeatGo σ repi g f n B
    if !g.holds (B.bank k b) then after B
    else if f.waits B σ then
      if repi then B.setRc k b (n + 1) true
      else (B.setRc k b (n + 1) false).modCore k fun c => { c with repBusy := some { bank := b, word := σ.word } }
    else
      match f.body σ B with
      | .ok _ B => after B
      | .error t B => (B.setRc k b (n + 1) true).takeTrap k b t

/-- The prefix at PCC, with `w` the word that follows it. `count` is read where RCV is 0. A prefix that raises ILLEGAL executes nothing:
RCV stays for its trap entry (DESIGN CHOICE, log 76). -/
def Bench.repeatWord (B : Bench) (k : CoreNo) (b : BankNo) (repi : Bool) (count : Bank → Nat) (w : Word) : Bench :=
  match wRepeat w with
  | none => B.takeTrap k b { cause := .illegal, etval := w.zeroExtend 64 }
  | some (g, f) =>
    let s := B.bank k b
    let n := if s.rcv then s.rc.toNat else count s
    repeatGo { core := k, bank := b, word := w } repi g f n (B.setRc k b n false)

/-- A REP-prefixed instruction in progress goes on with its iterations: neither word is fetched again (R132), and nothing interrupts
it (R137). -/
def Bench.repeatOn (B : Bench) (k : CoreNo) (r : RepRun) : Bench :=
  match B.strandOf k, wRepeat r.word with
  | some _, some (g, f) =>
    let B := B.modCore k fun c => { c with repBusy := none }
    repeatGo { core := k, bank := r.bank, word := r.word } false g f (B.bank k r.bank).rc.toNat B
  | _, _ => B

/-- A prefix is executed: the boundary as for any instruction (Bench.runWord), then both words are fetched. -/
def Bench.runPrefix (B : Bench) (k : CoreNo) (pfx w : Word) (repi : Bool) (count : Bank → Nat) : Bench :=
  match B.executing k with
  | none => match (B.core k).repBusy with
    | none => B
    | some r => if repi || r.word ≠ w then B else B.repeatOn k r
  | some b =>
    match B.eventDue k with
    | some (eb, n) => B.eventTrap k eb n
    | none =>
      if B.switchDue k then B.switchStrand k
      else
        let σ : Strand := { core := k, bank := b, word := pfx }
        let B := B.prepare k
        let a := (B.bank k b).pcc.cursor
        match fetchAt σ a B with
        | .error t B => B.takeTrap k b t
        | .ok false B => B.noOp k b
        | .ok true B =>
          match fetchAt σ (a + 4) B with
          | .error t B => B.takeTrap k b t
          | .ok ok B => B.repeatWord k b repi count (if ok then w else 0)

/-- R130, R132: REP with `count` + 1 iterations of the word `w` at the next address. -/
def execRep (b : BenchNo) (k : CoreNo) (count : BitVec 6) (w : Word) (s : State) : Out :=
  s.onBench b fun B => B.runPrefix k (0x80000000#32 ||| count.zeroExtend 32) w false fun _ => count.toNat + 1
/-- R130, R132, R138: REPI with x[rs1] iterations. -/
def execRepi (b : BenchNo) (k : CoreNo) (rs1 : Reg) (w : Word) (s : State) : Out :=
  s.onBench b fun B => B.runPrefix k (0x80200000#32 ||| (BitVec.ofNat 32 rs1.val <<< 11)) w true fun s => (s.getX rs1).toNat

/-! ## Defined encodings (R119, R123, R130 and the tables of chapter 04) -/

/-- A prefix word is defined (R130). -/
def prefixDefined (w : Word) : Bool :=
  let rest := (w.extractLsb' 0 21).toNat
  match wMajor w with
  | 0 => decide (rest < 64)
  | 1 => decide (rest < 2 ^ 16) && rest % 2 ^ 11 == 0
  | _ => false

/-- The decimal unit (R210, R211). -/
def decimalDefined (w : Word) : Bool :=
  let d (n : Nat) : Bool := decide (n < 16)
  let rd := wRd w
  let r1 := wR1 w
  let r2 := wR2 w
  let fn := wFn w
  let pair (n : Nat) : Bool := n % 2 == 0 && n != 0
  if fn < 0x28 then d rd && d r1 && d r2
  else if fn < 0x38 then pair rd && d r1
  else if fn < 0x3C then decide (rd < 8) && d r1 && d r2
  else if fn = 0x3D then pair rd && d r1
  else if fn = 0x3C || fn = 0x3E then d rd && pair r1
  else if r2 < 3 then d rd && d r1
  else if r2 = 3 then r1 == 0
  else if r2 = 4 then rd == 0
  else if r2 < 8 then false
  else if r2 < 12 then d r1
  else if r2 < 16 then d rd
  else false

/-- The system group (R199 to R209). -/
def systemDefined (w : Word) : Bool :=
  let rd := wRd w
  let r1 := wR1 w
  let r2 := wR2 w
  let fn := wFn w
  let imm := wImm w
  let d (n : Nat) : Bool := decide (n < 16)
  match wMajor w with
  | 0x40 | 0x41 => r1 == 0 && xSysListed (imm % 2 ^ 11)
  | 0x42 | 0x43 => r1 == 0 && cSysListed (imm % 2 ^ 11)
  | 0x44 => rd == 0 && (decide (imm < 64) || imm == 0x4000 || imm == 0x8000)
  | 0x45 => rd == 0 && decide (fn < 32) && decide (fn % 16 < 4) && (fn % 4 != 0 || r1 == 0) && (decide (2 ≤ fn % 4) || r2 == 0)
  | 0x46 => rd == 0 && decide (imm ≤ 0x1000)
  | 0x47 =>
    r2 == 0 && (decide (fn < 4) || (decide (fn < 6) && d rd && d r1) || (fn == 6 && decide (r1 < 4)) || (fn == 7 && decide (rd < 4))
      || (fn == 8 && r1 == 0) || (fn == 9 && rd == 0))
  | 0x48 => (w.extractLsb' 0 21).toNat < 4
  | 0x49 => rd == 0 && (decide (imm < 64) || imm == 0x1000 || imm == 0x2000)
  | 0x4A => (w.extractLsb' 0 21).toNat == 0
  | _ => false

/-- A word with a guard is a defined encoding of its major opcode. -/
def wordDefined (w : Word) : Bool :=
  let p (n : Nat) : Bool := decide (n < 8)
  let rd := wRd w
  let r1 := wR1 w
  let r2 := wR2 w
  let fn := wFn w
  let imm := wImm w
  let m := wMajor w
  if m = 0x00 then decide (fn < 0x20) && (decide (fn < 0x11) || decide (0x18 ≤ fn) || r2 == 0)
  else if m = 0x05 then imm % 2 ^ 11 < 2 ^ 7
  else if m < 0x08 then true
  else if m = 0x08 || m = 0x09 || m = 0x1C || m = 0x1D || m = 0x3D then (wForm w).isSome
  else if 0x10 ≤ m && m < 0x1A then true
  else if m = 0x1A || m = 0x1B then rd < 16
  else if m = 0x1E then fn % 16 < 5 || fn % 16 == 8
  else if m = 0x20 then
    (2 ≤ fn && fn ≤ 0xA) || ((fn < 2 || fn == 0xB || (0x10 ≤ fn && fn ≤ 0x1C) || fn == 0x20 || fn == 0x21) && r2 == 0)
      || (fn == 0xC && r1 == 0 && r2 == 0)
  else if m = 0x21 || m = 0x22 || m = 0x30 || m = 0x31 then true
  else if m = 0x32 then fn < 4 && rd == 0 && r2 == 0 && (fn != 3 || r1 == 0)
  else if m = 0x33 then rd == 0 && imm < 8
  else if m = 0x38 then p rd && fn < 8
  else if 0x39 ≤ m && m ≤ 0x3B then p rd
  else if m = 0x3C then
    (fn < 8 && p rd && p r1 && p r2) || ((fn == 8 || fn == 9) && p rd && r1 == 0 && r2 == 0)
      || (fn == 0xA && r1 == 0 && r2 == 0) || (fn == 0xB && rd == 0 && r2 == 0)
  else if m = 0x3E then p rd && fn < 2
  else if 0x40 ≤ m && m ≤ 0x4A then systemDefined w
  else if m = 0x78 then decimalDefined w
  else if m = 0x79 then fn == 0 || fn == 1 || fn == 9 || fn == 0xB || ((fn == 8 || fn == 0xA) && rd == 0)
  else if m = 0x7A then fn == 0 || (fn == 8 && rd == 0 && r2 == 0)
  else if m = 0x7B then (fn == 0 && r1 == 0 && r2 == 0 && 1 ≤ rd && rd ≤ 29) || (fn == 1 && rd == 0 && r2 == 0)
  else false

/-- Items 4 to 6 of R123: the cause of a word that is no defined encoding. -/
def wordCause (w : Word) : Cause :=
  let m := wMajor w
  if 0x50 ≤ m && m < 0x70 then .reservedOp else if (0x70 ≤ m && m < 0x78) || 0x7C ≤ m then .coprocAbsent else .illegal

/-- R123, R130: core `k` executes `word`, which is no defined encoding; a defined one is not this command's, and changes nothing. -/
def execUndefinedEncoding (b : BenchNo) (k : CoreNo) (word : Word) (s : State) : Out :=
  s.onBench b fun B =>
    match wGuard word with
    | none =>
      if prefixDefined word then B
      else B.runWord k word fun σ => M.illegal σ
    | some g =>
      if wordDefined word then B
      else B.runWord k word (guarded g fun σ => M.faultWord σ (wordCause word))

end Sys2Proof.Machine
end

