-- ==== Sys2Proof/Machine/Spdm.lean ====
section
/-!
DEFINITION. Machine/Spdm.lean: the SPDM 1.3 responder on the PF0 DOE (R671). A request is its bytes, header first, and so is the
answer; what R671 leaves open follows DSP0274 at the edition that R6 adopts (log 47, 48).
-/

namespace Sys2Proof.Machine

/-! ## Messages -/

/-- The response code of an error, and the codes used (DSP0274). -/
def spdmInvalid : Byte := 0x01
def spdmUnexpected : Byte := 0x04
def spdmDecrypt : Byte := 0x06
def spdmUnsupported : Byte := 0x07
def spdmLimit : Byte := 0x0A
def spdmNoSession : Byte := 0x0B
def spdmVersion : Byte := 0x41

/-- An answer: its response code, its two parameters and what follows. -/
def spdmRsp (code p1 p2 : Byte) (body : List Byte) : List Byte := [0x13, code, p1, p2] ++ body
def spdmError (e : Byte) : List Byte := spdmRsp 0x7F e 0 []

/-- Field of `n` bytes at `off` of a message. -/
def spdmField (m : List Byte) (off n : Nat) : List Byte := (m.drop off).take n
def spdmNat (m : List Byte) (off n : Nat) : Nat := leNat (spdmField m off n)
/-- The slot that a request names: the one provisioned is 0. -/
def spdmSlot (b : Byte) : Nat := b.toNat % 16

/-- Header of a request: its version, or the error that it earns. -/
def spdmHeader (code : Byte) (m : List Byte) : Option Byte :=
  if m.length < 4 || m.getD 1 0 ≠ code then some spdmInvalid
  else if m.getD 0 0 ≠ (if code = 0x84 then 0x10 else 0x13) then some spdmVersion
  else none

def State.setSpdm (s : State) (p : Spdm) : State := { s with dev := { s.dev with spdm := p } }

/-- A request reaches the responder, which answers `f`'s response or ERROR with its code. -/
def State.spdm (s : State) (code : Byte) (m : List Byte) (f : State → Except Byte (List Byte) × State) : Out :=
  if s.dev.link.isNone || !s.dev.dmcRuns then .next s
  else
    let (r, s) : Except Byte (List Byte) × State := match spdmHeader code m with
      | some e => (.error e, s)
      | none => f s
    .next (s.emit (.spdm (match r with | .ok l => l | .error e => spdmError e)))
/-- Transcripts that a request other than GET_DIGESTS, GET_CERTIFICATE and CHALLENGE, or other than GET_MEASUREMENTS, ends. -/
def Spdm.drop (p : Spdm) (chain meas : Bool) : Spdm :=
  { p with chain := if chain then [] else p.chain, meas := if meas then [] else p.meas }
/-- A request that needs the algorithms to have been negotiated. -/
def State.spdmReady (s : State) (code : Byte) (m : List Byte) (chain meas : Bool) (f : State → Except Byte (List Byte) × State) : Out :=
  s.spdm code m fun s =>
    if s.dev.spdm.phase = .algorithms then f (s.setSpdm (s.dev.spdm.drop chain meas)) else (.error spdmUnexpected, s)
/-- A request within an established session. -/
def State.spdmSession (s : State) (code : Byte) (m : List Byte) (f : State → SpdmSession → Except Byte (List Byte) × State) : Out :=
  s.spdmReady code m true true fun s =>
    match s.dev.spdm.session with
    | some c => if c.established then f s c else (.error spdmUnexpected, s)
    | none => (.error spdmNoSession, s)

/-! ## Hashes, signatures and keys -/

/-- A signature of the device attestation key over a transcript, under its context (DSP0274, the combined prefix). -/
def State.spdmSign (s : State) (context : String) (transcript : List Byte) : List Byte × State :=
  let c := ascii context
  s.attestEcdsa ((List.replicate 4 (ascii "dmtf-spdm-v1.3.*")).flatten ++ zeros (36 - c.length) ++ c ++ sha384 transcript)

def hmac384 (key m : List Byte) : List Byte := hmac sha384 128 key m
/-- HKDF-Expand of 48 bytes: one block. -/
def spdmExpand (secret : List Byte) (label : String) (context : List Byte) : List Byte :=
  hmac384 secret (leBytes 2 48 ++ ascii "spdm1.3 " ++ ascii label ++ context ++ [1])

def certDigest : List Byte := sha384 Config.certificates

/-- A measurement block: DMTF form, the digest of firmware (0x01), hardware configuration (0x02) or configuration (0x03). -/
def Device.spdmBlock (d : Device) (i : Nat) : List Byte :=
  let v := d.measurement i
  let kind : Byte := if i = 2 then 0x03 else if i = 3 then 0x02 else 0x01
  [BitVec.ofNat 8 i, 0x01] ++ leBytes 2 (v.length + 3) ++ [kind] ++ leBytes 2 v.length ++ v
/-- The measurement summary hash that a request asks for: none, of the trusted computing base, or of all. -/
def Device.spdmSummary (d : Device) (type : Byte) : List Byte :=
  if type = 0 then []
  else
    let is := ((List.range 11).map (· + 1)).filter fun i => type = 0xFF || Config.spdmTcb i
    sha384 (is.flatMap d.spdmBlock)
def summaryOk (type : Byte) : Bool := type = 0 || type = 1 || type = 0xFF

/-! ## Connection -/

/-- GET_VERSION: ends whatever stood before. -/
def execSpdmGetVersion (m : List Byte) (s : State) : Out :=
  s.spdm 0x84 m fun s =>
    let r : List Byte := [0x10, 0x04, 0, 0, 0, 1, 0x00, 0x13]
    (.ok r, s.setSpdm { Spdm.zero with phase := .version, vca := m ++ r })

/-- CERT, CHAL, MEAS with signatures, ENCRYPT, MAC, KEY_EX, HBEAT and KEY_UPD: what the requests of R671 need. -/
def spdmCaps : Nat := 0x62D6

def execSpdmGetCapabilities (m : List Byte) (s : State) : Out :=
  s.spdm 0xE1 m fun s =>
    if s.dev.spdm.phase ≠ .version then (.error spdmUnexpected, s)
    else if m.length ≠ 20 || spdmNat m 12 4 < 42 || spdmNat m 16 4 < spdmNat m 12 4 then (.error spdmInvalid, s)
    else
      let l := exact 9 Config.spdmLimits
      let r := spdmRsp 0x61 0 0 ([0] ++ l.take 1 ++ [0, 0] ++ leBytes 4 spdmCaps ++ l.drop 1)
      (.ok r, s.setSpdm { s.dev.spdm with phase := .capabilities, vca := s.dev.spdm.vca ++ m ++ r })

/-- Algorithm structures of a request: type and what it supports; none where they do not fill the rest exactly. -/
def spdmAlgs : Nat → List Byte → Option (List (Byte × Nat))
  | 0, l => if l.isEmpty then some [] else none
  | n + 1, l =>
    let ext := (l.getD 1 0).toNat % 16
    if l.length < 4 + 4 * ext || (l.getD 1 0).toNat / 16 ≠ 2 then none
    else (spdmAlgs n (l.drop (4 + 4 * ext))).map ((l.getD 0 0, leNat ((l.drop 2).take 2)) :: ·)
/-- What the responder selects of a structure: secp384r1, AES-256-GCM, the SPDM key schedule; no requester signatures. -/
def spdmSelect (a : Byte × Nat) : Nat :=
  let bit (k : Nat) : Nat := if a.2.testBit k then 2 ^ k else 0
  if a.1 = 2 then bit 4 else if a.1 = 3 then bit 1 else if a.1 = 5 then bit 0 else 0

/-- NEGOTIATE_ALGORITHMS: ECDSA P-384 and SHA-384 must be offered. -/
def execSpdmNegotiateAlgorithms (m : List Byte) (s : State) : Out :=
  s.spdm 0xE3 m fun s =>
    if s.dev.spdm.phase ≠ .capabilities then (.error spdmUnexpected, s)
    else
      let ext := 4 * (spdmNat m 28 1 + spdmNat m 29 1)
      match spdmAlgs (spdmNat m 2 1) (m.drop (32 + ext)) with
      | none => (.error spdmInvalid, s)
      | some algs =>
        if m.length < 32 + ext || spdmNat m 4 2 ≠ m.length || !(spdmNat m 8 4).testBit 7 || !(spdmNat m 12 4).testBit 1 then
          (.error spdmInvalid, s)
        else
          let meas := spdmNat m 6 1 % 2
          let structs := algs.flatMap fun a => [a.1, 0x20] ++ leBytes 2 (spdmSelect a)
          let r := spdmRsp 0x63 (BitVec.ofNat 8 algs.length) 0 (leBytes 2 (36 + structs.length)
            ++ [BitVec.ofNat 8 meas, BitVec.ofNat 8 (spdmNat m 7 1 / 2 % 2 * 2)] ++ leBytes 4 (4 * meas) ++ leBytes 4 0x80 ++ leBytes 4 2
            ++ zeros 16 ++ structs)
          let keyed := [2, 3, 5].all fun t => algs.any fun a => a.1.toNat = t && spdmSelect a ≠ 0
          (.ok r, s.setSpdm { s.dev.spdm with phase := .algorithms, keyed := keyed, vca := s.dev.spdm.vca ++ m ++ r })

/-! ## Certificates, challenge and measurements -/

/-- An answer that joins the transcript of certificates. -/
def State.spdmChain (s : State) (m r : List Byte) : Except Byte (List Byte) × State :=
  (.ok r, s.setSpdm { s.dev.spdm with chain := s.dev.spdm.chain ++ m ++ r })

def execSpdmGetDigests (m : List Byte) (s : State) : Out :=
  s.spdmReady 0x81 m false true fun s =>
    if m.length ≠ 4 then (.error spdmInvalid, s) else s.spdmChain m (spdmRsp 0x01 1 1 certDigest)
/-- GET_CERTIFICATE: a portion of the chain in slot 0. -/
def execSpdmGetCertificate (m : List Byte) (s : State) : Out :=
  s.spdmReady 0x82 m false true fun s =>
    let off := spdmNat m 4 2
    if m.length ≠ 8 || spdmSlot (m.getD 2 0) ≠ 0 || m.getD 3 0 ≠ 0 || Config.certificates.length ≤ off then (.error spdmInvalid, s)
    else
      let l := (Config.certificates.drop off).take (spdmNat m 6 2)
      s.spdmChain m (spdmRsp 0x02 0 0 (leBytes 2 l.length ++ leBytes 2 (Config.certificates.length - off - l.length) ++ l))
/-- CHALLENGE: the certificate digest, a nonce, the summary and a signature over all of the connection's transcript. -/
def execSpdmChallenge (m : List Byte) (s : State) : Out :=
  s.spdmReady 0x83 m false true fun s =>
    if m.length ≠ 44 || spdmSlot (m.getD 2 0) ≠ 0 || !summaryOk (m.getD 3 0) then (.error spdmInvalid, s)
    else
      let (nonce, s) := s.draw 32
      let r := spdmRsp 0x03 0 1 (certDigest ++ nonce ++ s.dev.spdmSummary (m.getD 3 0) ++ [0, 0] ++ spdmField m 36 8)
      let (sig, s) := s.spdmSign "responder-challenge_auth signing" (s.dev.spdm.vca ++ s.dev.spdm.chain ++ m ++ r)
      (.ok (r ++ sig), s.setSpdm { s.dev.spdm with chain := [] })
/-- GET_MEASUREMENTS: operation 0 asks for their number, 0xFF for all, 1 to 11 for one; bit 0 of its attributes asks for a
signature, over every measurement message since the last one signed. -/
def execSpdmGetMeasurements (m : List Byte) (s : State) : Out :=
  s.spdmReady 0xE0 m true false fun s =>
    let signed := (m.getD 2 0).getLsbD 0
    let op := (m.getD 3 0).toNat
    if m.length ≠ (if signed then 45 else 12) || (signed && spdmSlot (m.getD 36 0) ≠ 0) || (11 < op && op ≠ 255) then
      (.error spdmInvalid, s.setSpdm { s.dev.spdm with meas := [] })
    else
      let (nonce, s) := s.draw 32
      let is := if op = 0 then [] else if op = 255 then (List.range 11).map (· + 1) else [op]
      let record := is.flatMap s.dev.spdmBlock
      let r := spdmRsp 0x60 (if op = 0 then 11 else 0) 0 ([BitVec.ofNat 8 is.length] ++ leBytes 3 record.length ++ record ++ nonce ++ [0, 0]
        ++ spdmField m (m.length - 8) 8)
      let t := s.dev.spdm.meas ++ m ++ r
      if signed then
        let (sig, s) := s.spdmSign "responder-measurements signing" (s.dev.spdm.vca ++ t)
        (.ok (r ++ sig), s.setSpdm { s.dev.spdm with meas := [] })
      else (.ok r, s.setSpdm { s.dev.spdm with meas := t })

/-! ## Sessions -/

/-- KEY_EXCHANGE: secp384r1, the handshake secrets and the responder's verification data; one session at a time. -/
def execSpdmKeyExchange (m : List Byte) (s : State) : Out :=
  s.spdmReady 0xE4 m true true fun s =>
    if !s.dev.spdm.keyed then (.error spdmUnsupported, s)
    else if s.dev.spdm.session.isSome then (.error spdmLimit, s)
    else if m.length < 138 || m.length ≠ 138 + spdmNat m 136 2 || spdmSlot (m.getD 3 0) ≠ 0 || !summaryOk (m.getD 2 0) then
      (.error spdmInvalid, s)
    else match p384.decode (4 :: spdmField m 40 96) with
      | none => (.error spdmInvalid, s)
      | some q =>
        let (rnd, s) := s.draw 82
        let d := 1 + beNat (rnd.drop 34) % (p384.n - 1)
        let opaque' := Config.spdmOpaque.take 1024
        let r := spdmRsp 0x64 Config.spdmHeartbeat 0 (rnd.take 2 ++ [0, 0] ++ (rnd.drop 2).take 32 ++ (p384.encode (p384.mul d p384.g)).drop 1
          ++ s.dev.spdmSummary (m.getD 2 0) ++ leBytes 2 opaque'.length ++ opaque')
        let th := s.dev.spdm.vca ++ certDigest ++ m ++ r
        let (sig, s) := s.spdmSign "responder-key_exchange_rsp signing" th
        let th := th ++ sig
        let h := hmac384 (zeros 48) (match p384.mul d (some q) with | some z => beBytes 48 z.1 | none => [])
        let req := spdmExpand h "req hs data" (sha384 th)
        let rsp := spdmExpand h "rsp hs data" (sha384 th)
        let verify := hmac384 (spdmExpand rsp "finished" []) (sha384 th)
        let c : SpdmSession := { id := BitVec.ofNat 32 (leNat (rnd.take 2) * 65536 + spdmNat m 4 2), established := false, updating := false
                                 handshake := h, reqSecret := req, rspSecret := rsp, th := th ++ verify }
        (.ok (r ++ sig ++ verify), s.setSpdm { s.dev.spdm with session := some c })

/-- The requester's verification data is right: HMAC of the transcript under its finished key. -/
def SpdmSession.finishOk (c : SpdmSession) (m : List Byte) : Bool :=
  spdmField m 4 48 == hmac384 (spdmExpand c.reqSecret "finished" []) (sha384 (c.th ++ m.take 4))
/-- The session once FINISH is answered: the secrets of application data. -/
def SpdmSession.finish (c : SpdmSession) (m r : List Byte) : SpdmSession :=
  let th := sha384 (c.th ++ m ++ r)
  let master := hmac384 (spdmExpand c.handshake "derived" []) (zeros 48)
  { c with established := true, reqSecret := spdmExpand master "req app data" th, rspSecret := spdmExpand master "rsp app data" th }

/-- FINISH: verification data that is wrong ends the session. -/
def execSpdmFinish (m : List Byte) (s : State) : Out :=
  s.spdmReady 0xE5 m true true fun s =>
    match s.dev.spdm.session with
    | none => (.error spdmNoSession, s)
    | some c =>
      if c.established then (.error spdmUnexpected, s)
      else if m.length ≠ 52 || (m.getD 2 0).getLsbD 0 then (.error spdmInvalid, s)
      else if !c.finishOk m then (.error spdmDecrypt, s.setSpdm { s.dev.spdm with session := none })
      else (.ok (spdmRsp 0x65 0 0 []), s.setSpdm { s.dev.spdm with session := some (c.finish m (spdmRsp 0x65 0 0 [])) })

/-- KEY_UPDATE: operation 1 takes new keys of the requester's direction, 2 of both, 3 confirms them. -/
def execSpdmKeyUpdate (m : List Byte) (s : State) : Out :=
  s.spdmSession 0xE9 m fun s c =>
    let op := (m.getD 2 0).toNat
    let next (k : List Byte) : List Byte := spdmExpand k "traffic upd" []
    if m.length ≠ 4 || op = 0 || 3 < op || (op = 3) ≠ c.updating then (.error spdmInvalid, s)
    else
      let c := { c with
        updating := decide (op ≠ 3), reqSecret := if op = 3 then c.reqSecret else next c.reqSecret
        rspSecret := if op = 2 then next c.rspSecret else c.rspSecret }
      (.ok (spdmRsp 0x69 (m.getD 2 0) (m.getD 3 0) []), s.setSpdm { s.dev.spdm with session := some c })
def execSpdmHeartbeat (m : List Byte) (s : State) : Out :=
  s.spdmSession 0xE8 m fun s _ => if m.length ≠ 4 then (.error spdmInvalid, s) else (.ok (spdmRsp 0x68 0 0 []), s)
def execSpdmEndSession (m : List Byte) (s : State) : Out :=
  s.spdmSession 0xEC m fun s _ =>
    if m.length ≠ 4 then (.error spdmInvalid, s) else (.ok (spdmRsp 0x6C 0 0 []), s.setSpdm { s.dev.spdm with session := none })

end Sys2Proof.Machine
end

