-- ==== Sys2Proof/Machine/SysRows.lean ====
section
/-!
DEFINITION. Machine/SysRows.lean: the commands of chapters 01, 06, 07 and 08 that are no instructions: strand switches, events, the
scheduler's work, unit states, translation, the access filter, the Rake and the scrubber.
-/

namespace Sys2Proof.Machine

/-! ## Strands and events -/

/-- R298, R299: core `k` gives its boundary to the strand that the scheduler chooses; a gated core whose home task is READY is ungated
first (R756). -/
def execStrandSwitch (b : BenchNo) (k : CoreNo) (s : State) : Out :=
  s.onBench b fun B =>
    if B.coresRun && !(B.core k).clockStopped then (B.ungate k).switchStrand k else B

/-- R306 to R308, R315: source `src` occurs; `lvl` is the level that an event pin shows. -/
def execEventOccurrence (b : BenchNo) (src : Fin 1024) (lvl : Bool) (s : State) : Out :=
  s.onAlive b fun B => B.occurrence src.val lvl

/-- R229, R309: the strand of quad core `k` takes the event trap that is due. -/
def execEventTrapDelivery (b : BenchNo) (k : CoreNo) (s : State) : Out :=
  s.onBench b fun B =>
    if k = bsc then B
    else
      match B.executing k, B.eventDue k with
      | some _, some (eb, n) => B.eventTrap k eb n
      | _, _ => B

/-- R309: the supervisor core, waiting or not, takes the event trap that is due; a REP-prefixed instruction in progress is not
interrupted (R137). -/
def execBscTrapDelivery (b : BenchNo) (s : State) : Out :=
  s.onBench b fun B =>
    let c := B.core bsc
    if !B.coresRun || c.halted || c.clockStopped || c.repBusy.isSome || (c.dbgHalted && !c.stepOne) then B
    else
      match B.eventDue bsc with
      | some (eb, n) => B.eventTrap bsc eb n
      | none => B

/-- R313: the aligned window of 1 ms of bench time ends. -/
def execStormWindowRollover (b : BenchNo) (s : State) : Out := s.onAlive b Bench.stormRollover

/-- R313, R318: a write of SCHED.EVSTAT[src] with MASKED 1. -/
def execEvstatMaskedClear (b : BenchNo) (w : Writer) (src : Fin 1024) (count : Half) (s : State) : Out :=
  s.bus b w (0x12000 + 4 * src.val) (2#16 ++ count)

/-! ## Tasks -/

/-- The word of SCHED.TCMD for a task and an OP (R316). -/
def tcmdWord (t : Fin 4096) (op : Nat) : Word := BitVec.ofNat 32 (t.val + op * 2 ^ 16)

def execTaskStart (b : BenchNo) (w : Writer) (t : Fin 4096) (s : State) : Out := s.bus b w 0x1000C (tcmdWord t 1)
def execTaskStop (b : BenchNo) (w : Writer) (t : Fin 4096) (s : State) : Out := s.bus b w 0x1000C (tcmdWord t 2)
def execTaskWake (b : BenchNo) (w : Writer) (t : Fin 4096) (s : State) : Out := s.bus b w 0x1000C (tcmdWord t 3)
def execTaskFree (b : BenchNo) (w : Writer) (t : Fin 4096) (s : State) : Out := s.bus b w 0x1000C (tcmdWord t 4)

/-- R300: the scheduler makes one placement. -/
def execTaskPlacement (b : BenchNo) (s : State) : Out :=
  s.onMemory b fun B => if B.rst.firstFetch then B.placement else B

/-- R304: the load of core `k`'s placement. -/
def execTaskLoad (b : BenchNo) (k : CoreNo) (s : State) : Out :=
  s.onMemory b fun B => if (B.core k).clockStopped then B else B.taskLoad k

/-! ## Translation -/

/-- R360. -/
def execShootdownDoorbell (b : BenchNo) (w : Writer) (cores : Half) (s : State) : Out := s.bus b w 0x40000 (cores.zeroExtend 32)
/-- R361. -/
def execShootdownAck (b : BenchNo) (w : Writer) (cores : Half) (s : State) : Out := s.bus b w 0x40004 (cores.zeroExtend 32)
/-- R363. -/
def execEtuInvalidate (b : BenchNo) (w : Writer) (scope : BitVec 2) (s : State) : Out :=
  s.bus b w 0x40018 (BitVec.ofNat 32 (scope.toNat + 4))
/-- R363: BUSY clears. -/
def execEtuInvalidateDone (b : BenchNo) (s : State) : Out := s.onMemory b Bench.etuDone

/-! ## The access filter -/

/-- R384: a write of MAF.CMD. -/
def execMafSwap (b : BenchNo) (w : Writer) (s : State) : Out := s.bus b w 0x20000 1
/-- R385, R386: the check ends; `outstanding` where parts judged under the old set are still outstanding. -/
def execMafSwapCheckEnd (b : BenchNo) (outstanding : Bool) (s : State) : Out := s.onMemory b fun B => B.mafCheckEnd outstanding
/-- R388. -/
def execMafDrainEnd (b : BenchNo) (s : State) : Out := s.onMemory b Bench.mafDrainEnd

/-! ## The Rake and the scrubber -/

def execRakeSweep (b : BenchNo) (w : Writer) (s : State) : Out := s.bus b w 0x30000 1
def execRakeAbort (b : BenchNo) (w : Writer) (s : State) : Out := s.bus b w 0x30000 2
def execRakeTagclear (b : BenchNo) (w : Writer) (s : State) : Out := s.bus b w 0x30000 3
def execRakeTagcount (b : BenchNo) (w : Writer) (s : State) : Out := s.bus b w 0x30000 4
/-- R108, R402 to R404: the command in progress ends; an ABORT takes effect at line `reached`. -/
def execRakeCommandEnd (b : BenchNo) (reached : BitVec 34) (s : State) : Out :=
  s.onMemory b fun B => B.rakeCommandEnd reached.toNat
/-- R412: the scrubber reads its next line. -/
def execScrubRead (b : BenchNo) (found : LineState) (s : State) : Out := s.onMemory b fun B => B.scrubRead found
def execScrubPassEnd (b : BenchNo) (s : State) : Out := s.onMemory b Bench.scrubPassEnd

/-! ## Unit states (R38 to R56) -/

/-- Index `u` is in the host's view of BENCH.USTATE (R665): the bench and its queue pairs. -/
def hostUnit (u : Nat) : Bool := u = 0 || (32 ≤ u && u < 288)

/-- A write of BENCH.USTATE[u]: the host's through its own view, another writer's over the interconnect. -/
def State.ustateBus (s : State) (b : BenchNo) (w : Writer) (u : Fin 544) (v : Word) : Out :=
  if w = .host then
    s.onBench b fun B => if B.hostReaches && hostUnit u.val then B.idleExit.ustateWrite u.val v else B
  else s.bus b w (0x1000 + 4 * u.val) v

def execUstateWriteRequested (b : BenchNo) (w : Writer) (u : Fin 544) (v : BitVec 4) (s : State) : Out :=
  s.ustateBus b w u (v.zeroExtend 32)
def execUstateForce (b : BenchNo) (w : Writer) (u : Fin 544) (s : State) : Out := s.ustateBus b w u 0x20000
/-- R52, R515. -/
def execForcedResetCompletion (b : BenchNo) (u : Fin 544) (katFails : Bool) (s : State) : Out :=
  s.onUnit b u.val fun B => B.forcedDone u.val katFails
/-- R44, R45. -/
def execUnitQuiescentPoint (b : BenchNo) (u : Fin 544) (s : State) : Out := s.onUnit b u.val fun B => B.quiescentPoint u.val
/-- R48; index 22 is PWR.STATE (R736). -/
def execDivergenceTimeout (b : BenchNo) (u : Fin 544) (s : State) : Out := s.onAlive b fun B => B.divergence u.val

end Sys2Proof.Machine
end

