-- ==== Sys2Proof/Machine/Dispatch.lean ====
section
/-!
DEFINITION. Machine/Dispatch.lean: the effect of a command on everything but the queue, one arm for each row of
spec/opcode_table.json.
-/

namespace Sys2Proof.Machine

def exec (i : Instr) (s : State) : Host.Outcome State Fault Refusal :=
  match i with
  | .add x rd rs1 rs2 => Sys2Proof.Machine.execAdd x rd rs1 rs2 s
  | .sub x rd rs1 rs2 => Sys2Proof.Machine.execSub x rd rs1 rs2 s
  | .and x rd rs1 rs2 => Sys2Proof.Machine.execAnd x rd rs1 rs2 s
  | .or x rd rs1 rs2 => Sys2Proof.Machine.execOr x rd rs1 rs2 s
  | .xor x rd rs1 rs2 => Sys2Proof.Machine.execXor x rd rs1 rs2 s
  | .andn x rd rs1 rs2 => Sys2Proof.Machine.execAndn x rd rs1 rs2 s
  | .orn x rd rs1 rs2 => Sys2Proof.Machine.execOrn x rd rs1 rs2 s
  | .xnor x rd rs1 rs2 => Sys2Proof.Machine.execXnor x rd rs1 rs2 s
  | .sll x rd rs1 rs2 => Sys2Proof.Machine.execSll x rd rs1 rs2 s
  | .srl x rd rs1 rs2 => Sys2Proof.Machine.execSrl x rd rs1 rs2 s
  | .sra x rd rs1 rs2 => Sys2Proof.Machine.execSra x rd rs1 rs2 s
  | .rol x rd rs1 rs2 => Sys2Proof.Machine.execRol x rd rs1 rs2 s
  | .ror x rd rs1 rs2 => Sys2Proof.Machine.execRor x rd rs1 rs2 s
  | .min x rd rs1 rs2 => Sys2Proof.Machine.execMin x rd rs1 rs2 s
  | .max x rd rs1 rs2 => Sys2Proof.Machine.execMax x rd rs1 rs2 s
  | .minu x rd rs1 rs2 => Sys2Proof.Machine.execMinu x rd rs1 rs2 s
  | .maxu x rd rs1 rs2 => Sys2Proof.Machine.execMaxu x rd rs1 rs2 s
  | .clz x rd rs1 => Sys2Proof.Machine.execClz x rd rs1 s
  | .ctz x rd rs1 => Sys2Proof.Machine.execCtz x rd rs1 s
  | .popc x rd rs1 => Sys2Proof.Machine.execPopc x rd rs1 s
  | .sextb x rd rs1 => Sys2Proof.Machine.execSextb x rd rs1 s
  | .sexth x rd rs1 => Sys2Proof.Machine.execSexth x rd rs1 s
  | .zexth x rd rs1 => Sys2Proof.Machine.execZexth x rd rs1 s
  | .bswap x rd rs1 => Sys2Proof.Machine.execBswap x rd rs1 s
  | .mul x rd rs1 rs2 => Sys2Proof.Machine.execMul x rd rs1 rs2 s
  | .mulh x rd rs1 rs2 => Sys2Proof.Machine.execMulh x rd rs1 rs2 s
  | .mulhu x rd rs1 rs2 => Sys2Proof.Machine.execMulhu x rd rs1 rs2 s
  | .mulhsu x rd rs1 rs2 => Sys2Proof.Machine.execMulhsu x rd rs1 rs2 s
  | .div x rd rs1 rs2 => Sys2Proof.Machine.execDiv x rd rs1 rs2 s
  | .divu x rd rs1 rs2 => Sys2Proof.Machine.execDivu x rd rs1 rs2 s
  | .rem x rd rs1 rs2 => Sys2Proof.Machine.execRem x rd rs1 rs2 s
  | .remu x rd rs1 rs2 => Sys2Proof.Machine.execRemu x rd rs1 rs2 s
  | .addi x rd rs1 imm => Sys2Proof.Machine.execAddi x rd rs1 imm s
  | .andi x rd rs1 imm => Sys2Proof.Machine.execAndi x rd rs1 imm s
  | .ori x rd rs1 imm => Sys2Proof.Machine.execOri x rd rs1 imm s
  | .xori x rd rs1 imm => Sys2Proof.Machine.execXori x rd rs1 imm s
  | .slli x rd rs1 sh => Sys2Proof.Machine.execSlli x rd rs1 sh s
  | .srli x rd rs1 sh => Sys2Proof.Machine.execSrli x rd rs1 sh s
  | .srai x rd rs1 sh => Sys2Proof.Machine.execSrai x rd rs1 sh s
  | .rori x rd rs1 sh => Sys2Proof.Machine.execRori x rd rs1 sh s
  | .lui x rd imm => Sys2Proof.Machine.execLui x rd imm s
  | .lil x rd imm => Sys2Proof.Machine.execLil x rd imm s
  | .mac x rd rs1 rs2 => Sys2Proof.Machine.execMac x rd rs1 rs2 s
  | .macbPi x rd cs1 rs2 => Sys2Proof.Machine.execMacbPi x rd cs1 rs2 s
  | .crcb x poly rd rs1 => Sys2Proof.Machine.execCrcb x poly rd rs1 s
  | .crcw x poly rd rs1 => Sys2Proof.Machine.execCrcw x poly rd rs1 s
  | .crcbPi x poly rd cs1 => Sys2Proof.Machine.execCrcbPi x poly rd cs1 s
  | .lb x rd cs1 imm => Sys2Proof.Machine.execLb x rd cs1 imm s
  | .lbu x rd cs1 imm => Sys2Proof.Machine.execLbu x rd cs1 imm s
  | .lh x rd cs1 imm => Sys2Proof.Machine.execLh x rd cs1 imm s
  | .lhu x rd cs1 imm => Sys2Proof.Machine.execLhu x rd cs1 imm s
  | .lw x rd cs1 imm => Sys2Proof.Machine.execLw x rd cs1 imm s
  | .sb x rs2 cs1 imm => Sys2Proof.Machine.execSb x rs2 cs1 imm s
  | .sh x rs2 cs1 imm => Sys2Proof.Machine.execSh x rs2 cs1 imm s
  | .sw x rs2 cs1 imm => Sys2Proof.Machine.execSw x rs2 cs1 imm s
  | .clc x cd cs1 imm => Sys2Proof.Machine.execClc x cd cs1 imm s
  | .csc x cs2 cs1 imm => Sys2Proof.Machine.execCsc x cs2 cs1 imm s
  | .dld x dd cs1 imm => Sys2Proof.Machine.execDld x dd cs1 imm s
  | .dst x ds2 cs1 imm => Sys2Proof.Machine.execDst x ds2 cs1 imm s
  | .lbPi x down rd cs1 => Sys2Proof.Machine.execLbPi x down rd cs1 s
  | .lbuPi x down rd cs1 => Sys2Proof.Machine.execLbuPi x down rd cs1 s
  | .lhPi x down rd cs1 => Sys2Proof.Machine.execLhPi x down rd cs1 s
  | .lhuPi x down rd cs1 => Sys2Proof.Machine.execLhuPi x down rd cs1 s
  | .lwPi x down rd cs1 => Sys2Proof.Machine.execLwPi x down rd cs1 s
  | .clcPi x down cd cs1 => Sys2Proof.Machine.execClcPi x down cd cs1 s
  | .dldPi x down dd cs1 => Sys2Proof.Machine.execDldPi x down dd cs1 s
  | .sbPi x down rs2 cs1 => Sys2Proof.Machine.execSbPi x down rs2 cs1 s
  | .shPi x down rs2 cs1 => Sys2Proof.Machine.execShPi x down rs2 cs1 s
  | .swPi x down rs2 cs1 => Sys2Proof.Machine.execSwPi x down rs2 cs1 s
  | .cscPi x down cs2 cs1 => Sys2Proof.Machine.execCscPi x down cs2 cs1 s
  | .dstPi x down ds2 cs1 => Sys2Proof.Machine.execDstPi x down ds2 cs1 s
  | .fillB x down cs1 rs2 => Sys2Proof.Machine.execFillB x down cs1 rs2 s
  | .fillH x down cs1 rs2 => Sys2Proof.Machine.execFillH x down cs1 rs2 s
  | .fillW x down cs1 rs2 => Sys2Proof.Machine.execFillW x down cs1 rs2 s
  | .fillG x down cs1 rs2 => Sys2Proof.Machine.execFillG x down cs1 rs2 s
  | .amoswapW x aq rl rd rs2 cs1 => Sys2Proof.Machine.execAmoswapW x aq rl rd rs2 cs1 s
  | .amocasW x aq rl rd rs2 cs1 => Sys2Proof.Machine.execAmocasW x aq rl rd rs2 cs1 s
  | .amoaddW x aq rl rd rs2 cs1 => Sys2Proof.Machine.execAmoaddW x aq rl rd rs2 cs1 s
  | .amoorW x aq rl rd rs2 cs1 => Sys2Proof.Machine.execAmoorW x aq rl rd rs2 cs1 s
  | .amoandW x aq rl rd rs2 cs1 => Sys2Proof.Machine.execAmoandW x aq rl rd rs2 cs1 s
  | .amocasC x aq rl cd cs2 cs1 => Sys2Proof.Machine.execAmocasC x aq rl cd cs2 cs1 s
  | .cmov x cd cs1 => Sys2Proof.Machine.execCmov x cd cs1 s
  | .cclrtag x cd cs1 => Sys2Proof.Machine.execCclrtag x cd cs1 s
  | .csetcl x cd cs1 rs2 => Sys2Proof.Machine.execCsetcl x cd cs1 rs2 s
  | .cinc x cd cs1 rs2 => Sys2Proof.Machine.execCinc x cd cs1 rs2 s
  | .cinch x cd cs1 rs2 => Sys2Proof.Machine.execCinch x cd cs1 rs2 s
  | .csetb x cd cs1 rs2 => Sys2Proof.Machine.execCsetb x cd cs1 rs2 s
  | .csetb4k x cd cs1 rs2 => Sys2Proof.Machine.execCsetb4k x cd cs1 rs2 s
  | .csetbx x cd cs1 rs2 => Sys2Proof.Machine.execCsetbx x cd cs1 rs2 s
  | .candp x cd cs1 rs2 => Sys2Proof.Machine.execCandp x cd cs1 rs2 s
  | .cseal x cd cs1 cs2 => Sys2Proof.Machine.execCseal x cd cs1 cs2 s
  | .cunseal x cd cs1 cs2 => Sys2Proof.Machine.execCunseal x cd cs1 cs2 s
  | .cgate x cd cs1 => Sys2Proof.Machine.execCgate x cd cs1 s
  | .cgetpcc x cd => Sys2Proof.Machine.execCgetpcc x cd s
  | .cgbasel x rd cs1 => Sys2Proof.Machine.execCgbasel x rd cs1 s
  | .cgbaseh x rd cs1 => Sys2Proof.Machine.execCgbaseh x rd cs1 s
  | .cgtopl x rd cs1 => Sys2Proof.Machine.execCgtopl x rd cs1 s
  | .cgtoph x rd cs1 => Sys2Proof.Machine.execCgtoph x rd cs1 s
  | .cgtopx x rd cs1 => Sys2Proof.Machine.execCgtopx x rd cs1 s
  | .cglenl x rd cs1 => Sys2Proof.Machine.execCglenl x rd cs1 s
  | .cglenh x rd cs1 => Sys2Proof.Machine.execCglenh x rd cs1 s
  | .cgcurl x rd cs1 => Sys2Proof.Machine.execCgcurl x rd cs1 s
  | .cgcurh x rd cs1 => Sys2Proof.Machine.execCgcurh x rd cs1 s
  | .cgperm x rd cs1 => Sys2Proof.Machine.execCgperm x rd cs1 s
  | .cgtype x rd cs1 => Sys2Proof.Machine.execCgtype x rd cs1 s
  | .cgtag x rd cs1 => Sys2Proof.Machine.execCgtag x rd cs1 s
  | .cgexp x rd cs1 => Sys2Proof.Machine.execCgexp x rd cs1 s
  | .crrl x rd rs1 => Sys2Proof.Machine.execCrrl x rd rs1 s
  | .cram x rd rs1 => Sys2Proof.Machine.execCram x rd rs1 s
  | .cinci x cd cs1 imm => Sys2Proof.Machine.execCinci x cd cs1 imm s
  | .csetbi x cd cs1 imm => Sys2Proof.Machine.execCsetbi x cd cs1 imm s
  | .j x off => Sys2Proof.Machine.execJ x off s
  | .jal x off => Sys2Proof.Machine.execJal x off s
  | .jr x cs1 => Sys2Proof.Machine.execJr x cs1 s
  | .jalr x cs1 => Sys2Proof.Machine.execJalr x cs1 s
  | .ret x cs1 => Sys2Proof.Machine.execRet x cs1 s
  | .rete x => Sys2Proof.Machine.execRete x s
  | .enter x n => Sys2Proof.Machine.execEnter x n s
  | .cmpEq x pd rs1 rs2 => Sys2Proof.Machine.execCmpEq x pd rs1 rs2 s
  | .cmpNe x pd rs1 rs2 => Sys2Proof.Machine.execCmpNe x pd rs1 rs2 s
  | .cmpLt x pd rs1 rs2 => Sys2Proof.Machine.execCmpLt x pd rs1 rs2 s
  | .cmpLtu x pd rs1 rs2 => Sys2Proof.Machine.execCmpLtu x pd rs1 rs2 s
  | .cmpGe x pd rs1 rs2 => Sys2Proof.Machine.execCmpGe x pd rs1 rs2 s
  | .cmpGeu x pd rs1 rs2 => Sys2Proof.Machine.execCmpGeu x pd rs1 rs2 s
  | .cmpTst x pd rs1 rs2 => Sys2Proof.Machine.execCmpTst x pd rs1 rs2 s
  | .cmpTstz x pd rs1 rs2 => Sys2Proof.Machine.execCmpTstz x pd rs1 rs2 s
  | .cmpeqi x pd rs1 imm => Sys2Proof.Machine.execCmpeqi x pd rs1 imm s
  | .cmplti x pd rs1 imm => Sys2Proof.Machine.execCmplti x pd rs1 imm s
  | .cmpltui x pd rs1 imm => Sys2Proof.Machine.execCmpltui x pd rs1 imm s
  | .predicateAnd x neg pd ps1 ps2 => Sys2Proof.Machine.execPredicateAnd x neg pd ps1 ps2 s
  | .predicateOr x neg pd ps1 ps2 => Sys2Proof.Machine.execPredicateOr x neg pd ps1 ps2 s
  | .predicateXor x neg pd ps1 ps2 => Sys2Proof.Machine.execPredicateXor x neg pd ps1 ps2 s
  | .predicateAndNot x neg pd ps1 ps2 => Sys2Proof.Machine.execPredicateAndNot x neg pd ps1 ps2 s
  | .pset x pd => Sys2Proof.Machine.execPset x pd s
  | .pclr x pd => Sys2Proof.Machine.execPclr x pd s
  | .prd x rd => Sys2Proof.Machine.execPrd x rd s
  | .pwr x rs1 => Sys2Proof.Machine.execPwr x rs1 s
  | .cmpbEqPi x down pd cs1 rs2 => Sys2Proof.Machine.execCmpbEqPi x down pd cs1 rs2 s
  | .cmpbNePi x down pd cs1 rs2 => Sys2Proof.Machine.execCmpbNePi x down pd cs1 rs2 s
  | .cmpbLtuPi x down pd cs1 rs2 => Sys2Proof.Machine.execCmpbLtuPi x down pd cs1 rs2 s
  | .cmpbGeuPi x down pd cs1 rs2 => Sys2Proof.Machine.execCmpbGeuPi x down pd cs1 rs2 s
  | .ceqx x pd cs1 cs2 => Sys2Proof.Machine.execCeqx x pd cs1 cs2 s
  | .ctsub x pd cs1 cs2 => Sys2Proof.Machine.execCtsub x pd cs1 cs2 s
  | .sysrd x rd n => Sys2Proof.Machine.execSysrd x rd n s
  | .syswr x rd n => Sys2Proof.Machine.execSyswr x rd n s
  | .csysrd x cd n => Sys2Proof.Machine.execCsysrd x cd n s
  | .csyswr x cd n => Sys2Proof.Machine.execCsyswr x cd n s
  | .escLockWrite x rd => Sys2Proof.Machine.execEscLockWrite x rd s
  | .fence x pred succ => Sys2Proof.Machine.execFence x pred succ s
  | .fenceI x => Sys2Proof.Machine.execFenceI x s
  | .fenceT x => Sys2Proof.Machine.execFenceT x s
  | .tlbiAll x bcast => Sys2Proof.Machine.execTlbiAll x bcast s
  | .tlbiAsid x bcast rs1 => Sys2Proof.Machine.execTlbiAsid x bcast rs1 s
  | .tlbiVa x bcast rs1 rs2 => Sys2Proof.Machine.execTlbiVa x bcast rs1 rs2 s
  | .tlbiVaAsid x bcast rs1 rs2 => Sys2Proof.Machine.execTlbiVaAsid x bcast rs1 rs2 s
  | .tlbiBCompletion b => Sys2Proof.Machine.execTlbiBCompletion b s
  | .hold x n => Sys2Proof.Machine.execHold x n s
  | .release x => Sys2Proof.Machine.execRelease x s
  | .holdExpiry b k => Sys2Proof.Machine.execHoldExpiry b k s
  | .brx x rd rs1 => Sys2Proof.Machine.execBrx x rd rs1 s
  | .bwx x rd rs1 => Sys2Proof.Machine.execBwx x rd rs1 s
  | .brc x cd cs1 => Sys2Proof.Machine.execBrc x cd cs1 s
  | .bwc x cd cs1 => Sys2Proof.Machine.execBwc x cd cs1 s
  | .brd x dd ds1 => Sys2Proof.Machine.execBrd x dd ds1 s
  | .bwd x dd ds1 => Sys2Proof.Machine.execBwd x dd ds1 s
  | .brs x rd sel => Sys2Proof.Machine.execBrs x rd sel s
  | .bws x sel rs1 => Sys2Proof.Machine.execBws x sel rs1 s
  | .brpcc x cd => Sys2Proof.Machine.execBrpcc x cd s
  | .bwpcc x cs1 => Sys2Proof.Machine.execBwpcc x cs1 s
  | .savel x => Sys2Proof.Machine.execSavel x s
  | .saveu x => Sys2Proof.Machine.execSaveu x s
  | .loadl x => Sys2Proof.Machine.execLoadl x s
  | .loadu x => Sys2Proof.Machine.execLoadu x s
  | .sev x n => Sys2Proof.Machine.execSev x n s
  | .wait x => Sys2Proof.Machine.execWait x s
  | .yield x => Sys2Proof.Machine.execYield x s
  | .eret x => Sys2Proof.Machine.execEret x s
  | .rep b k count w => Sys2Proof.Machine.execRep b k count w s
  | .repi b k rs1 w => Sys2Proof.Machine.execRepi b k rs1 w s
  | .dadd x rm dd ds1 ds2 => Sys2Proof.Machine.execDadd x rm dd ds1 ds2 s
  | .dsub x rm dd ds1 ds2 => Sys2Proof.Machine.execDsub x rm dd ds1 ds2 s
  | .dmul x rm dd ds1 ds2 => Sys2Proof.Machine.execDmul x rm dd ds1 ds2 s
  | .ddiv x rm dd ds1 ds2 => Sys2Proof.Machine.execDdiv x rm dd ds1 ds2 s
  | .dqua x rm dd ds1 ds2 => Sys2Proof.Machine.execDqua x rm dd ds1 ds2 s
  | .dtfx x rm rk ds1 sc => Sys2Proof.Machine.execDtfx x rm rk ds1 sc s
  | .dtbcd x rm rk ds1 sc => Sys2Proof.Machine.execDtbcd x rm rk ds1 sc s
  | .dceq x pd ds1 ds2 => Sys2Proof.Machine.execDceq x pd ds1 ds2 s
  | .dclt x pd ds1 ds2 => Sys2Proof.Machine.execDclt x pd ds1 ds2 s
  | .dcle x pd ds1 ds2 => Sys2Proof.Machine.execDcle x pd ds1 ds2 s
  | .dcun x pd ds1 ds2 => Sys2Proof.Machine.execDcun x pd ds1 ds2 s
  | .dffx x dd rk sc => Sys2Proof.Machine.execDffx x dd rk sc s
  | .dtfxe x rk ds1 sc => Sys2Proof.Machine.execDtfxe x rk ds1 sc s
  | .dfbcd x dd rk sc => Sys2Proof.Machine.execDfbcd x dd rk sc s
  | .dmov x dd ds1 => Sys2Proof.Machine.execDmov x dd ds1 s
  | .dneg x dd ds1 => Sys2Proof.Machine.execDneg x dd ds1 s
  | .dabs x dd ds1 => Sys2Proof.Machine.execDabs x dd ds1 s
  | .dcsrr x rd => Sys2Proof.Machine.execDcsrr x rd s
  | .dcsrw x rs1 => Sys2Proof.Machine.execDcsrw x rs1 s
  | .dmfx x rd ds1 i0 => Sys2Proof.Machine.execDmfx x rd ds1 i0 s
  | .dmtx x dd rs1 i0 => Sys2Proof.Machine.execDmtx x dd rs1 i0 s
  | .esub x rd cs1 rs2 => Sys2Proof.Machine.execEsub x rd cs1 rs2 s
  | .epoll x rd cs1 rs2 => Sys2Proof.Machine.execEpoll x rd cs1 rs2 s
  | .ckpush x cs1 rs2 => Sys2Proof.Machine.execCkpush x cs1 rs2 s
  | .ckpop x rd cs1 rs2 => Sys2Proof.Machine.execCkpop x rd cs1 rs2 s
  | .clpush x cs1 rs2 => Sys2Proof.Machine.execClpush x cs1 rs2 s
  | .clpop x rd cs1 rs2 => Sys2Proof.Machine.execClpop x rd cs1 rs2 s
  | .jpush x cs1 => Sys2Proof.Machine.execJpush x cs1 s
  | .japp x rd cs1 rs2 => Sys2Proof.Machine.execJapp x rd cs1 rs2 s
  | .trd x rd => Sys2Proof.Machine.execTrd x rd s
  | .trdc x cs1 => Sys2Proof.Machine.execTrdc x cs1 s
  | .strandSwitch b k => Sys2Proof.Machine.execStrandSwitch b k s
  | .eventOccurrence b src lvl => Sys2Proof.Machine.execEventOccurrence b src lvl s
  | .eventTrapDelivery b k => Sys2Proof.Machine.execEventTrapDelivery b k s
  | .bscTrapDelivery b => Sys2Proof.Machine.execBscTrapDelivery b s
  | .stormWindowRollover b => Sys2Proof.Machine.execStormWindowRollover b s
  | .evstatMaskedClear b w src count => Sys2Proof.Machine.execEvstatMaskedClear b w src count s
  | .taskStart b w t => Sys2Proof.Machine.execTaskStart b w t s
  | .taskStop b w t => Sys2Proof.Machine.execTaskStop b w t s
  | .taskWake b w t => Sys2Proof.Machine.execTaskWake b w t s
  | .taskFree b w t => Sys2Proof.Machine.execTaskFree b w t s
  | .taskPlacement b => Sys2Proof.Machine.execTaskPlacement b s
  | .taskLoad b k => Sys2Proof.Machine.execTaskLoad b k s
  | .shootdownDoorbell b w cores => Sys2Proof.Machine.execShootdownDoorbell b w cores s
  | .shootdownAck b w cores => Sys2Proof.Machine.execShootdownAck b w cores s
  | .etuInvalidate b w scope => Sys2Proof.Machine.execEtuInvalidate b w scope s
  | .etuInvalidateDone b => Sys2Proof.Machine.execEtuInvalidateDone b s
  | .mafSwap b w => Sys2Proof.Machine.execMafSwap b w s
  | .mafSwapCheckEnd b outstanding => Sys2Proof.Machine.execMafSwapCheckEnd b outstanding s
  | .mafDrainEnd b => Sys2Proof.Machine.execMafDrainEnd b s
  | .rakeSweep b w => Sys2Proof.Machine.execRakeSweep b w s
  | .rakeAbort b w => Sys2Proof.Machine.execRakeAbort b w s
  | .rakeTagclear b w => Sys2Proof.Machine.execRakeTagclear b w s
  | .rakeTagcount b w => Sys2Proof.Machine.execRakeTagcount b w s
  | .rakeCommandEnd b reached => Sys2Proof.Machine.execRakeCommandEnd b reached s
  | .scrubRead b found => Sys2Proof.Machine.execScrubRead b found s
  | .scrubPassEnd b => Sys2Proof.Machine.execScrubPassEnd b s
  | .vaultInfo b w => Sys2Proof.Machine.execVaultInfo b w s
  | .vaultDelete b w => Sys2Proof.Machine.execVaultDelete b w s
  | .vaultRevoke b w => Sys2Proof.Machine.execVaultRevoke b w s
  | .vaultPin b w => Sys2Proof.Machine.execVaultPin b w s
  | .vaultUnpin b w => Sys2Proof.Machine.execVaultUnpin b w s
  | .vaultPurge b w => Sys2Proof.Machine.execVaultPurge b w s
  | .vaultAbort b w => Sys2Proof.Machine.execVaultAbort b w s
  | .vaultForgetPrevious b w => Sys2Proof.Machine.execVaultForgetPrevious b w s
  | .vaultCommandEnd b => Sys2Proof.Machine.execVaultCommandEnd b s
  | .cerOpen => Sys2Proof.Machine.execCerOpen s
  | .cerShare => Sys2Proof.Machine.execCerShare s
  | .cerAbort => Sys2Proof.Machine.execCerAbort s
  | .ceremonyTimeout b => Sys2Proof.Machine.execCeremonyTimeout b s
  | .epochAdvanceOpen => Sys2Proof.Machine.execEpochAdvanceOpen s
  | .epochAdvanceSign => Sys2Proof.Machine.execEpochAdvanceSign s
  | .epochAdvanceCancel => Sys2Proof.Machine.execEpochAdvanceCancel s
  | .epochAdvanceTimeout => Sys2Proof.Machine.execEpochAdvanceTimeout s
  | .pkeSign b n => Sys2Proof.Machine.execPkeSign b n s
  | .pkeVerify b n => Sys2Proof.Machine.execPkeVerify b n s
  | .rsaCrtSign b n => Sys2Proof.Machine.execRsaCrtSign b n s
  | .rsaVerify b n => Sys2Proof.Machine.execRsaVerify b n s
  | .keyAgreement b n => Sys2Proof.Machine.execKeyAgreement b n s
  | .ephemeralKeyAgreement b n => Sys2Proof.Machine.execEphemeralKeyAgreement b n s
  | .pkePublicKeyDerivation b n => Sys2Proof.Machine.execPkePublicKeyDerivation b n s
  | .mlDsaSign b n => Sys2Proof.Machine.execMlDsaSign b n s
  | .mlDsaVerify b n => Sys2Proof.Machine.execMlDsaVerify b n s
  | .mlKemEncapsulate b n => Sys2Proof.Machine.execMlKemEncapsulate b n s
  | .mlKemDecapsulate b n => Sys2Proof.Machine.execMlKemDecapsulate b n s
  | .lkePublicKeyDerivation b n => Sys2Proof.Machine.execLkePublicKeyDerivation b n s
  | .encrypt b n => Sys2Proof.Machine.execEncrypt b n s
  | .decrypt b n => Sys2Proof.Machine.execDecrypt b n s
  | .macGenerate b n => Sys2Proof.Machine.execMacGenerate b n s
  | .macVerify b n => Sys2Proof.Machine.execMacVerify b n s
  | .pinTranslate b n => Sys2Proof.Machine.execPinTranslate b n s
  | .pinReformat b n => Sys2Proof.Machine.execPinReformat b n s
  | .pinCompare b n => Sys2Proof.Machine.execPinCompare b n s
  | .arqcVerify b n => Sys2Proof.Machine.execArqcVerify b n s
  | .keyLoad b n => Sys2Proof.Machine.execKeyLoad b n s
  | .keyGenerate b n => Sys2Proof.Machine.execKeyGenerate b n s
  | .keyTrust b n => Sys2Proof.Machine.execKeyTrust b n s
  | .keyRewrap b n => Sys2Proof.Machine.execKeyRewrap b n s
  | .deriveEmv b n => Sys2Proof.Machine.execDeriveEmv b n s
  | .deriveDukpt b n => Sys2Proof.Machine.execDeriveDukpt b n s
  | .deriveKdf b n => Sys2Proof.Machine.execDeriveKdf b n s
  | .keyImport b n => Sys2Proof.Machine.execKeyImport b n s
  | .keyExport b n => Sys2Proof.Machine.execKeyExport b n s
  | .hash b n => Sys2Proof.Machine.execHash b n s
  | .drbgGenerate b => Sys2Proof.Machine.execDrbgGenerate b s
  | .drbgReseed b => Sys2Proof.Machine.execDrbgReseed b s
  | .drbgReseedDue b => Sys2Proof.Machine.execDrbgReseedDue b s
  | .entropySourceFailure b second => Sys2Proof.Machine.execEntropySourceFailure b second s
  | .cut b n => Sys2Proof.Machine.execCut b n s
  | .cutStream b n => Sys2Proof.Machine.execCutStream b n s
  | .assemble b n => Sys2Proof.Machine.execAssemble b n s
  | .assembleStream b n => Sys2Proof.Machine.execAssembleStream b n s
  | .streamStall b n => Sys2Proof.Machine.execStreamStall b n s
  | .jobCompletion b n => Sys2Proof.Machine.execJobCompletion b n s
  | .ringEnable b w n ring depth prio => Sys2Proof.Machine.execRingEnable b w n ring depth prio s
  | .ringDisable b w n ring => Sys2Proof.Machine.execRingDisable b w n ring s
  | .tokenExpiry b n i0 => Sys2Proof.Machine.execTokenExpiry b n i0 s
  | .patLoad b w => Sys2Proof.Machine.execPatLoad b w s
  | .patLoadEnd b => Sys2Proof.Machine.execPatLoadEnd b s
  | .patSwap b w => Sys2Proof.Machine.execPatSwap b w s
  | .patSwapCheckEnd b => Sys2Proof.Machine.execPatSwapCheckEnd b s
  | .patDrainEnd b => Sys2Proof.Machine.execPatDrainEnd b s
  | .ustateWriteRequested b w u v => Sys2Proof.Machine.execUstateWriteRequested b w u v s
  | .ustateForce b w u => Sys2Proof.Machine.execUstateForce b w u s
  | .forcedResetCompletion b u katFails => Sys2Proof.Machine.execForcedResetCompletion b u katFails s
  | .unitQuiescentPoint b u => Sys2Proof.Machine.execUnitQuiescentPoint b u s
  | .divergenceTimeout b u => Sys2Proof.Machine.execDivergenceTimeout b u s
  | .journalRecoveryEnd b => Sys2Proof.Machine.execJournalRecoveryEnd b s
  | .receivedRecord b => Sys2Proof.Machine.execReceivedRecord b s
  | .itemTimeout b i0 => Sys2Proof.Machine.execItemTimeout b i0 s
  | .checkpointRecord b => Sys2Proof.Machine.execCheckpointRecord b s
  | .signatureEntryWrite b => Sys2Proof.Machine.execSignatureEntryWrite b s
  | .dedupSweep b => Sys2Proof.Machine.execDedupSweep b s
  | .hostMirrorWrite b => Sys2Proof.Machine.execHostMirrorWrite b s
  | .hackWrite b w hi v => Sys2Proof.Machine.execHackWrite b w hi v s
  | .swrelWrite b w hi v => Sys2Proof.Machine.execSwrelWrite b w hi v s
  | .journalLoRead b w r => Sys2Proof.Machine.execJournalLoRead b w r s
  | .partnerSend b => Sys2Proof.Machine.execPartnerSend b s
  | .partnerRetransmitTimeout b => Sys2Proof.Machine.execPartnerRetransmitTimeout b s
  | .servoMeasurement b p off announce => Sys2Proof.Machine.execServoMeasurement b p off announce s
  | .ptpMessageTransmit b p kind => Sys2Proof.Machine.execPtpMessageTransmit b p kind s
  | .holdoverEntry b other => Sys2Proof.Machine.execHoldoverEntry b other s
  | .timeSetWrite b w v => Sys2Proof.Machine.execTimeSetWrite b w v s
  | .timeNow0Read b w => Sys2Proof.Machine.execTimeNow0Read b w s
  | .ppsInputEdge b sub => Sys2Proof.Machine.execPpsInputEdge b sub s
  | .secondBoundary b => Sys2Proof.Machine.execSecondBoundary b s
  | .ppsOutputFall b => Sys2Proof.Machine.execPpsOutputFall b s
  | .latencyCalibration b p => Sys2Proof.Machine.execLatencyCalibration b p s
  | .benchTimerExpiry b i0 => Sys2Proof.Machine.execBenchTimerExpiry b i0 s
  | .timerWrite b w i0 v => Sys2Proof.Machine.execTimerWrite b w i0 v s
  | .linkChange b p up rate anDone => Sys2Proof.Machine.execLinkChange b p up rate anDone s
  | .frameReceive b p frame fcsOk => Sys2Proof.Machine.execFrameReceive b p frame fcsOk s
  | .tlsRecordDecryptEnd b n => Sys2Proof.Machine.execTlsRecordDecryptEnd b n s
  | .rxQueueDelivery b q => Sys2Proof.Machine.execRxQueueDelivery b q s
  | .tcpRetransmitTimeout b conn => Sys2Proof.Machine.execTcpRetransmitTimeout b conn s
  | .tcpKeepaliveExpiry b conn => Sys2Proof.Machine.execTcpKeepaliveExpiry b conn s
  | .delayedAckExpiry b conn => Sys2Proof.Machine.execDelayedAckExpiry b conn s
  | .timeWaitExpiry b conn => Sys2Proof.Machine.execTimeWaitExpiry b conn s
  | .txqTailWrite b w q v => Sys2Proof.Machine.execTxqTailWrite b w q v s
  | .txSend b q => Sys2Proof.Machine.execTxSend b q s
  | .txRaw b q => Sys2Proof.Machine.execTxRaw b q s
  | .txTlsRaw b q => Sys2Proof.Machine.execTxTlsRaw b q s
  | .txUdp b q => Sys2Proof.Machine.execTxUdp b q s
  | .txFrame b q => Sys2Proof.Machine.execTxFrame b q s
  | .txConnect b q => Sys2Proof.Machine.execTxConnect b q s
  | .txClose b q => Sys2Proof.Machine.execTxClose b q s
  | .txAbort b q => Sys2Proof.Machine.execTxAbort b q s
  | .txSetkey b q => Sys2Proof.Machine.execTxSetkey b q s
  | .txContinue b q => Sys2Proof.Machine.execTxContinue b q s
  | .sqDoorbell b n v => Sys2Proof.Machine.execSqDoorbell b n v s
  | .cstailWrite b w n v => Sys2Proof.Machine.execCstailWrite b w n v s
  | .completionDescriptor b n => Sys2Proof.Machine.execCompletionDescriptor b n s
  | .functionLevelReset f => Sys2Proof.Machine.execFunctionLevelReset f s
  | .hostPerst low => Sys2Proof.Machine.execHostPerst low s
  | .hostLinkChange up rate lanes => Sys2Proof.Machine.execHostLinkChange up rate lanes s
  | .hostWindowTimeout b => Sys2Proof.Machine.execHostWindowTimeout b s
  | .spdmGetVersion msg => Sys2Proof.Machine.execSpdmGetVersion msg s
  | .spdmGetCapabilities msg => Sys2Proof.Machine.execSpdmGetCapabilities msg s
  | .spdmNegotiateAlgorithms msg => Sys2Proof.Machine.execSpdmNegotiateAlgorithms msg s
  | .spdmGetDigests msg => Sys2Proof.Machine.execSpdmGetDigests msg s
  | .spdmGetCertificate msg => Sys2Proof.Machine.execSpdmGetCertificate msg s
  | .spdmChallenge msg => Sys2Proof.Machine.execSpdmChallenge msg s
  | .spdmGetMeasurements msg => Sys2Proof.Machine.execSpdmGetMeasurements msg s
  | .spdmKeyExchange msg => Sys2Proof.Machine.execSpdmKeyExchange msg s
  | .spdmFinish msg => Sys2Proof.Machine.execSpdmFinish msg s
  | .spdmKeyUpdate msg => Sys2Proof.Machine.execSpdmKeyUpdate msg s
  | .spdmHeartbeat msg => Sys2Proof.Machine.execSpdmHeartbeat msg s
  | .spdmEndSession msg => Sys2Proof.Machine.execSpdmEndSession msg s
  | .getInfo => Sys2Proof.Machine.execGetInfo s
  | .benchReset => Sys2Proof.Machine.execBenchReset s
  | .benchHold => Sys2Proof.Machine.execBenchHold s
  | .benchRelease => Sys2Proof.Machine.execBenchRelease s
  | .deviceReset => Sys2Proof.Machine.execDeviceReset s
  | .deviceSoftReset => Sys2Proof.Machine.execDeviceSoftReset s
  | .stageBegin => Sys2Proof.Machine.execStageBegin s
  | .stageWrite => Sys2Proof.Machine.execStageWrite s
  | .stageFinish reads writes => Sys2Proof.Machine.execStageFinish reads writes s
  | .fuseReport => Sys2Proof.Machine.execFuseReport s
  | .attestPq => Sys2Proof.Machine.execAttestPq s
  | .lifecycleNonce => Sys2Proof.Machine.execLifecycleNonce s
  | .lifecycleAdvance => Sys2Proof.Machine.execLifecycleAdvance s
  | .lifecycleConfirm => Sys2Proof.Machine.execLifecycleConfirm s
  | .lifecycleDebugcred => Sys2Proof.Machine.execLifecycleDebugcred s
  | .tamperClear => Sys2Proof.Machine.execTamperClear s
  | .rmaReport => Sys2Proof.Machine.execRmaReport s
  | .pwrokRise => Sys2Proof.Machine.execPwrokRise s
  | .aonDomainValid => Sys2Proof.Machine.execAonDomainValid s
  | .powerOnReset => Sys2Proof.Machine.execPowerOnReset s
  | .brownOut => Sys2Proof.Machine.execBrownOut s
  | .resetNPulse => Sys2Proof.Machine.execResetNPulse s
  | .resetNRise => Sys2Proof.Machine.execResetNRise s
  | .deviceWatchdogExpiry => Sys2Proof.Machine.execDeviceWatchdogExpiry s
  | .hostClockLoss armed => Sys2Proof.Machine.execHostClockLoss armed s
  | .aonClockLoss => Sys2Proof.Machine.execAonClockLoss s
  | .aonClockRecovery => Sys2Proof.Machine.execAonClockRecovery s
  | .dmcLockup => Sys2Proof.Machine.execDmcLockup s
  | .benchClockLoss b lost => Sys2Proof.Machine.execBenchClockLoss b lost s
  | .benchClockRecovery b => Sys2Proof.Machine.execBenchClockRecovery b s
  | .fllLockLoss b i0 => Sys2Proof.Machine.execFllLockLoss b i0 s
  | .fllRelock b i0 => Sys2Proof.Machine.execFllRelock b i0 s
  | .fllRelockTimeout b => Sys2Proof.Machine.execFllRelockTimeout b s
  | .benchWatchdogExpiry b => Sys2Proof.Machine.execBenchWatchdogExpiry b s
  | .wdkickWrite b w v => Sys2Proof.Machine.execWdkickWrite b w v s
  | .rstreqWrite b w v => Sys2Proof.Machine.execRstreqWrite b w v s
  | .benchResetEntry b => Sys2Proof.Machine.execBenchResetEntry b s
  | .fuseSense => Sys2Proof.Machine.execFuseSense s
  | .dmcRelease => Sys2Proof.Machine.execDmcRelease s
  | .bootcfgSampling rs => Sys2Proof.Machine.execBootcfgSampling rs s
  | .optionLoading ok => Sys2Proof.Machine.execOptionLoading ok s
  | .imageCommit => Sys2Proof.Machine.execImageCommit s
  | .hostPhyRelease => Sys2Proof.Machine.execHostPhyRelease s
  | .pcieControllerRelease => Sys2Proof.Machine.execPcieControllerRelease s
  | .benchResetRelease b => Sys2Proof.Machine.execBenchResetRelease b s
  | .tagClearComplete b fails => Sys2Proof.Machine.execTagClearComplete b fails s
  | .supervisorFirstFetch b => Sys2Proof.Machine.execSupervisorFirstFetch b s
  | .bypass => Sys2Proof.Machine.execBypass s
  | .idcode => Sys2Proof.Machine.execIdcode s
  | .samplePreload => Sys2Proof.Machine.execSamplePreload s
  | .extest => Sys2Proof.Machine.execExtest s
  | .clamp => Sys2Proof.Machine.execClamp s
  | .highz => Sys2Proof.Machine.execHighz s
  | .dbgChal => Sys2Proof.Machine.execDbgChal s
  | .dbgResp resp => Sys2Proof.Machine.execDbgResp resp s
  | .dbgClose => Sys2Proof.Machine.execDbgClose s
  | .testLogicReset => Sys2Proof.Machine.execTestLogicReset s
  | .debugValidityExpiry => Sys2Proof.Machine.execDebugValidityExpiry s
  | .regRd target addr => Sys2Proof.Machine.execRegRd target addr s
  | .regWr target addr v => Sys2Proof.Machine.execRegWr target addr v s
  | .memRd target addr => Sys2Proof.Machine.execMemRd target addr s
  | .memWr target addr v => Sys2Proof.Machine.execMemWr target addr v s
  | .coreHalt target addr => Sys2Proof.Machine.execCoreHalt target addr s
  | .coreRun target addr => Sys2Proof.Machine.execCoreRun target addr s
  | .coreStep target addr => Sys2Proof.Machine.execCoreStep target addr s
  | .stateRd target addr => Sys2Proof.Machine.execStateRd target addr s
  | .stateWr target addr v => Sys2Proof.Machine.execStateWr target addr v s
  | .pwrStateWrite b w v => Sys2Proof.Machine.execPwrStateWrite b w v s
  | .idleEntry b => Sys2Proof.Machine.execIdleEntry b s
  | .idleExit b => Sys2Proof.Machine.execIdleExit b s
  | .napEntry b => Sys2Proof.Machine.execNapEntry b s
  | .offEntry b => Sys2Proof.Machine.execOffEntry b s
  | .napWake b => Sys2Proof.Machine.execNapWake b s
  | .frequencySelection b lat => Sys2Proof.Machine.execFrequencySelection b lat s
  | .policyRelease b => Sys2Proof.Machine.execPolicyRelease b s
  | .avsAdjustment mv limits => Sys2Proof.Machine.execAvsAdjustment mv limits s
  | .avsbusTimeout limits => Sys2Proof.Machine.execAvsbusTimeout limits s
  | .thermalThrottleStep b tj => Sys2Proof.Machine.execThermalThrottleStep b tj s
  | .thermtrip => Sys2Proof.Machine.execThermtrip s
  | .currentLimitStep amps => Sys2Proof.Machine.execCurrentLimitStep amps s
  | .powerCapStep watts => Sys2Proof.Machine.execPowerCapStep watts s
  | .parkWrite b w v => Sys2Proof.Machine.execParkWrite b w v s
  | .corePowerGating b k => Sys2Proof.Machine.execCorePowerGating b k s
  | .meshTrip pair => Sys2Proof.Machine.execMeshTrip pair s
  | .sensorTrip src => Sys2Proof.Machine.execSensorTrip src s
  | .vbatChangeover toVbat => Sys2Proof.Machine.execVbatChangeover toVbat s
  | .vbatLoss => Sys2Proof.Machine.execVbatLoss s
  | .registerWrite t off v => Sys2Proof.Machine.execRegisterWrite t off v s
  | .hostInboundAccess b addr acc => Sys2Proof.Machine.execHostInboundAccess b addr acc s
  | .undefinedEncoding b k word => Sys2Proof.Machine.execUndefinedEncoding b k word s
  | .tamperSourceRestore src => Sys2Proof.Machine.execTamperSourceRestore src s

end Sys2Proof.Machine
end

