-- ==== Sys2Proof/Safety.lean ====
section
/-!
DEFINITION. Safety.lean: the terms in which the statements speak of a run: where a core begins an instruction, what a completed
instruction leaves, what a run may not do.
-/

namespace Sys2Proof

/-- The bench on which a command acts; none for a command of the device. A REGISTER_WRITE to PF0 is the device's. -/
def Instr.bench? : Instr → Option BenchNo
  | .add x _ _ _ => some x.bench
  | .sub x _ _ _ => some x.bench
  | .and x _ _ _ => some x.bench
  | .or x _ _ _ => some x.bench
  | .xor x _ _ _ => some x.bench
  | .andn x _ _ _ => some x.bench
  | .orn x _ _ _ => some x.bench
  | .xnor x _ _ _ => some x.bench
  | .sll x _ _ _ => some x.bench
  | .srl x _ _ _ => some x.bench
  | .sra x _ _ _ => some x.bench
  | .rol x _ _ _ => some x.bench
  | .ror x _ _ _ => some x.bench
  | .min x _ _ _ => some x.bench
  | .max x _ _ _ => some x.bench
  | .minu x _ _ _ => some x.bench
  | .maxu x _ _ _ => some x.bench
  | .clz x _ _ => some x.bench
  | .ctz x _ _ => some x.bench
  | .popc x _ _ => some x.bench
  | .sextb x _ _ => some x.bench
  | .sexth x _ _ => some x.bench
  | .zexth x _ _ => some x.bench
  | .bswap x _ _ => some x.bench
  | .mul x _ _ _ => some x.bench
  | .mulh x _ _ _ => some x.bench
  | .mulhu x _ _ _ => some x.bench
  | .mulhsu x _ _ _ => some x.bench
  | .div x _ _ _ => some x.bench
  | .divu x _ _ _ => some x.bench
  | .rem x _ _ _ => some x.bench
  | .remu x _ _ _ => some x.bench
  | .addi x _ _ _ => some x.bench
  | .andi x _ _ _ => some x.bench
  | .ori x _ _ _ => some x.bench
  | .xori x _ _ _ => some x.bench
  | .slli x _ _ _ => some x.bench
  | .srli x _ _ _ => some x.bench
  | .srai x _ _ _ => some x.bench
  | .rori x _ _ _ => some x.bench
  | .lui x _ _ => some x.bench
  | .lil x _ _ => some x.bench
  | .mac x _ _ _ => some x.bench
  | .macbPi x _ _ _ => some x.bench
  | .crcb x _ _ _ => some x.bench
  | .crcw x _ _ _ => some x.bench
  | .crcbPi x _ _ _ => some x.bench
  | .lb x _ _ _ => some x.bench
  | .lbu x _ _ _ => some x.bench
  | .lh x _ _ _ => some x.bench
  | .lhu x _ _ _ => some x.bench
  | .lw x _ _ _ => some x.bench
  | .sb x _ _ _ => some x.bench
  | .sh x _ _ _ => some x.bench
  | .sw x _ _ _ => some x.bench
  | .clc x _ _ _ => some x.bench
  | .csc x _ _ _ => some x.bench
  | .dld x _ _ _ => some x.bench
  | .dst x _ _ _ => some x.bench
  | .lbPi x _ _ _ => some x.bench
  | .lbuPi x _ _ _ => some x.bench
  | .lhPi x _ _ _ => some x.bench
  | .lhuPi x _ _ _ => some x.bench
  | .lwPi x _ _ _ => some x.bench
  | .clcPi x _ _ _ => some x.bench
  | .dldPi x _ _ _ => some x.bench
  | .sbPi x _ _ _ => some x.bench
  | .shPi x _ _ _ => some x.bench
  | .swPi x _ _ _ => some x.bench
  | .cscPi x _ _ _ => some x.bench
  | .dstPi x _ _ _ => some x.bench
  | .fillB x _ _ _ => some x.bench
  | .fillH x _ _ _ => some x.bench
  | .fillW x _ _ _ => some x.bench
  | .fillG x _ _ _ => some x.bench
  | .amoswapW x _ _ _ _ _ => some x.bench
  | .amocasW x _ _ _ _ _ => some x.bench
  | .amoaddW x _ _ _ _ _ => some x.bench
  | .amoorW x _ _ _ _ _ => some x.bench
  | .amoandW x _ _ _ _ _ => some x.bench
  | .amocasC x _ _ _ _ _ => some x.bench
  | .cmov x _ _ => some x.bench
  | .cclrtag x _ _ => some x.bench
  | .csetcl x _ _ _ => some x.bench
  | .cinc x _ _ _ => some x.bench
  | .cinch x _ _ _ => some x.bench
  | .csetb x _ _ _ => some x.bench
  | .csetb4k x _ _ _ => some x.bench
  | .csetbx x _ _ _ => some x.bench
  | .candp x _ _ _ => some x.bench
  | .cseal x _ _ _ => some x.bench
  | .cunseal x _ _ _ => some x.bench
  | .cgate x _ _ => some x.bench
  | .cgetpcc x _ => some x.bench
  | .cgbasel x _ _ => some x.bench
  | .cgbaseh x _ _ => some x.bench
  | .cgtopl x _ _ => some x.bench
  | .cgtoph x _ _ => some x.bench
  | .cgtopx x _ _ => some x.bench
  | .cglenl x _ _ => some x.bench
  | .cglenh x _ _ => some x.bench
  | .cgcurl x _ _ => some x.bench
  | .cgcurh x _ _ => some x.bench
  | .cgperm x _ _ => some x.bench
  | .cgtype x _ _ => some x.bench
  | .cgtag x _ _ => some x.bench
  | .cgexp x _ _ => some x.bench
  | .crrl x _ _ => some x.bench
  | .cram x _ _ => some x.bench
  | .cinci x _ _ _ => some x.bench
  | .csetbi x _ _ _ => some x.bench
  | .j x _ => some x.bench
  | .jal x _ => some x.bench
  | .jr x _ => some x.bench
  | .jalr x _ => some x.bench
  | .ret x _ => some x.bench
  | .rete x => some x.bench
  | .enter x _ => some x.bench
  | .cmpEq x _ _ _ => some x.bench
  | .cmpNe x _ _ _ => some x.bench
  | .cmpLt x _ _ _ => some x.bench
  | .cmpLtu x _ _ _ => some x.bench
  | .cmpGe x _ _ _ => some x.bench
  | .cmpGeu x _ _ _ => some x.bench
  | .cmpTst x _ _ _ => some x.bench
  | .cmpTstz x _ _ _ => some x.bench
  | .cmpeqi x _ _ _ => some x.bench
  | .cmplti x _ _ _ => some x.bench
  | .cmpltui x _ _ _ => some x.bench
  | .predicateAnd x _ _ _ _ => some x.bench
  | .predicateOr x _ _ _ _ => some x.bench
  | .predicateXor x _ _ _ _ => some x.bench
  | .predicateAndNot x _ _ _ _ => some x.bench
  | .pset x _ => some x.bench
  | .pclr x _ => some x.bench
  | .prd x _ => some x.bench
  | .pwr x _ => some x.bench
  | .cmpbEqPi x _ _ _ _ => some x.bench
  | .cmpbNePi x _ _ _ _ => some x.bench
  | .cmpbLtuPi x _ _ _ _ => some x.bench
  | .cmpbGeuPi x _ _ _ _ => some x.bench
  | .ceqx x _ _ _ => some x.bench
  | .ctsub x _ _ _ => some x.bench
  | .sysrd x _ _ => some x.bench
  | .syswr x _ _ => some x.bench
  | .csysrd x _ _ => some x.bench
  | .csyswr x _ _ => some x.bench
  | .escLockWrite x _ => some x.bench
  | .fence x _ _ => some x.bench
  | .fenceI x => some x.bench
  | .fenceT x => some x.bench
  | .tlbiAll x _ => some x.bench
  | .tlbiAsid x _ _ => some x.bench
  | .tlbiVa x _ _ _ => some x.bench
  | .tlbiVaAsid x _ _ _ => some x.bench
  | .tlbiBCompletion b => some b
  | .hold x _ => some x.bench
  | .release x => some x.bench
  | .holdExpiry b _ => some b
  | .brx x _ _ => some x.bench
  | .bwx x _ _ => some x.bench
  | .brc x _ _ => some x.bench
  | .bwc x _ _ => some x.bench
  | .brd x _ _ => some x.bench
  | .bwd x _ _ => some x.bench
  | .brs x _ _ => some x.bench
  | .bws x _ _ => some x.bench
  | .brpcc x _ => some x.bench
  | .bwpcc x _ => some x.bench
  | .savel x => some x.bench
  | .saveu x => some x.bench
  | .loadl x => some x.bench
  | .loadu x => some x.bench
  | .sev x _ => some x.bench
  | .wait x => some x.bench
  | .yield x => some x.bench
  | .eret x => some x.bench
  | .rep b _ _ _ => some b
  | .repi b _ _ _ => some b
  | .dadd x _ _ _ _ => some x.bench
  | .dsub x _ _ _ _ => some x.bench
  | .dmul x _ _ _ _ => some x.bench
  | .ddiv x _ _ _ _ => some x.bench
  | .dqua x _ _ _ _ => some x.bench
  | .dtfx x _ _ _ _ => some x.bench
  | .dtbcd x _ _ _ _ => some x.bench
  | .dceq x _ _ _ => some x.bench
  | .dclt x _ _ _ => some x.bench
  | .dcle x _ _ _ => some x.bench
  | .dcun x _ _ _ => some x.bench
  | .dffx x _ _ _ => some x.bench
  | .dtfxe x _ _ _ => some x.bench
  | .dfbcd x _ _ _ => some x.bench
  | .dmov x _ _ => some x.bench
  | .dneg x _ _ => some x.bench
  | .dabs x _ _ => some x.bench
  | .dcsrr x _ => some x.bench
  | .dcsrw x _ => some x.bench
  | .dmfx x _ _ _ => some x.bench
  | .dmtx x _ _ _ => some x.bench
  | .esub x _ _ _ => some x.bench
  | .epoll x _ _ _ => some x.bench
  | .ckpush x _ _ => some x.bench
  | .ckpop x _ _ _ => some x.bench
  | .clpush x _ _ => some x.bench
  | .clpop x _ _ _ => some x.bench
  | .jpush x _ => some x.bench
  | .japp x _ _ _ => some x.bench
  | .trd x _ => some x.bench
  | .trdc x _ => some x.bench
  | .strandSwitch b _ => some b
  | .eventOccurrence b _ _ => some b
  | .eventTrapDelivery b _ => some b
  | .bscTrapDelivery b => some b
  | .stormWindowRollover b => some b
  | .evstatMaskedClear b _ _ _ => some b
  | .taskStart b _ _ => some b
  | .taskStop b _ _ => some b
  | .taskWake b _ _ => some b
  | .taskFree b _ _ => some b
  | .taskPlacement b => some b
  | .taskLoad b _ => some b
  | .shootdownDoorbell b _ _ => some b
  | .shootdownAck b _ _ => some b
  | .etuInvalidate b _ _ => some b
  | .etuInvalidateDone b => some b
  | .mafSwap b _ => some b
  | .mafSwapCheckEnd b _ => some b
  | .mafDrainEnd b => some b
  | .rakeSweep b _ => some b
  | .rakeAbort b _ => some b
  | .rakeTagclear b _ => some b
  | .rakeTagcount b _ => some b
  | .rakeCommandEnd b _ => some b
  | .scrubRead b _ => some b
  | .scrubPassEnd b => some b
  | .vaultInfo b _ => some b
  | .vaultDelete b _ => some b
  | .vaultRevoke b _ => some b
  | .vaultPin b _ => some b
  | .vaultUnpin b _ => some b
  | .vaultPurge b _ => some b
  | .vaultAbort b _ => some b
  | .vaultForgetPrevious b _ => some b
  | .vaultCommandEnd b => some b
  | .cerOpen => none
  | .cerShare => none
  | .cerAbort => none
  | .ceremonyTimeout b => some b
  | .epochAdvanceOpen => none
  | .epochAdvanceSign => none
  | .epochAdvanceCancel => none
  | .epochAdvanceTimeout => none
  | .pkeSign b _ => some b
  | .pkeVerify b _ => some b
  | .rsaCrtSign b _ => some b
  | .rsaVerify b _ => some b
  | .keyAgreement b _ => some b
  | .ephemeralKeyAgreement b _ => some b
  | .pkePublicKeyDerivation b _ => some b
  | .mlDsaSign b _ => some b
  | .mlDsaVerify b _ => some b
  | .mlKemEncapsulate b _ => some b
  | .mlKemDecapsulate b _ => some b
  | .lkePublicKeyDerivation b _ => some b
  | .encrypt b _ => some b
  | .decrypt b _ => some b
  | .macGenerate b _ => some b
  | .macVerify b _ => some b
  | .pinTranslate b _ => some b
  | .pinReformat b _ => some b
  | .pinCompare b _ => some b
  | .arqcVerify b _ => some b
  | .keyLoad b _ => some b
  | .keyGenerate b _ => some b
  | .keyTrust b _ => some b
  | .keyRewrap b _ => some b
  | .deriveEmv b _ => some b
  | .deriveDukpt b _ => some b
  | .deriveKdf b _ => some b
  | .keyImport b _ => some b
  | .keyExport b _ => some b
  | .hash b _ => some b
  | .drbgGenerate b => some b
  | .drbgReseed b => some b
  | .drbgReseedDue b => some b
  | .entropySourceFailure b _ => some b
  | .cut b _ => some b
  | .cutStream b _ => some b
  | .assemble b _ => some b
  | .assembleStream b _ => some b
  | .streamStall b _ => some b
  | .jobCompletion b _ => some b
  | .ringEnable b _ _ _ _ _ => some b
  | .ringDisable b _ _ _ => some b
  | .tokenExpiry b _ _ => some b
  | .patLoad b _ => some b
  | .patLoadEnd b => some b
  | .patSwap b _ => some b
  | .patSwapCheckEnd b => some b
  | .patDrainEnd b => some b
  | .ustateWriteRequested b _ _ _ => some b
  | .ustateForce b _ _ => some b
  | .forcedResetCompletion b _ _ => some b
  | .unitQuiescentPoint b _ => some b
  | .divergenceTimeout b _ => some b
  | .journalRecoveryEnd b => some b
  | .receivedRecord b => some b
  | .itemTimeout b _ => some b
  | .checkpointRecord b => some b
  | .signatureEntryWrite b => some b
  | .dedupSweep b => some b
  | .hostMirrorWrite b => some b
  | .hackWrite b _ _ _ => some b
  | .swrelWrite b _ _ _ => some b
  | .journalLoRead b _ _ => some b
  | .partnerSend b => some b
  | .partnerRetransmitTimeout b => some b
  | .servoMeasurement b _ _ _ => some b
  | .ptpMessageTransmit b _ _ => some b
  | .holdoverEntry b _ => some b
  | .timeSetWrite b _ _ => some b
  | .timeNow0Read b _ => some b
  | .ppsInputEdge b _ => some b
  | .secondBoundary b => some b
  | .ppsOutputFall b => some b
  | .latencyCalibration b _ => some b
  | .benchTimerExpiry b _ => some b
  | .timerWrite b _ _ _ => some b
  | .linkChange b _ _ _ _ => some b
  | .frameReceive b _ _ _ => some b
  | .tlsRecordDecryptEnd b _ => some b
  | .rxQueueDelivery b _ => some b
  | .tcpRetransmitTimeout b _ => some b
  | .tcpKeepaliveExpiry b _ => some b
  | .delayedAckExpiry b _ => some b
  | .timeWaitExpiry b _ => some b
  | .txqTailWrite b _ _ _ => some b
  | .txSend b _ => some b
  | .txRaw b _ => some b
  | .txTlsRaw b _ => some b
  | .txUdp b _ => some b
  | .txFrame b _ => some b
  | .txConnect b _ => some b
  | .txClose b _ => some b
  | .txAbort b _ => some b
  | .txSetkey b _ => some b
  | .txContinue b _ => some b
  | .sqDoorbell b _ _ => some b
  | .cstailWrite b _ _ _ => some b
  | .completionDescriptor b _ => some b
  | .functionLevelReset _ => none
  | .hostPerst _ => none
  | .hostLinkChange _ _ _ => none
  | .hostWindowTimeout b => some b
  | .spdmGetVersion _ => none
  | .spdmGetCapabilities _ => none
  | .spdmNegotiateAlgorithms _ => none
  | .spdmGetDigests _ => none
  | .spdmGetCertificate _ => none
  | .spdmChallenge _ => none
  | .spdmGetMeasurements _ => none
  | .spdmKeyExchange _ => none
  | .spdmFinish _ => none
  | .spdmKeyUpdate _ => none
  | .spdmHeartbeat _ => none
  | .spdmEndSession _ => none
  | .getInfo => none
  | .benchReset => none
  | .benchHold => none
  | .benchRelease => none
  | .deviceReset => none
  | .deviceSoftReset => none
  | .stageBegin => none
  | .stageWrite => none
  | .stageFinish _ _ => none
  | .fuseReport => none
  | .attestPq => none
  | .lifecycleNonce => none
  | .lifecycleAdvance => none
  | .lifecycleConfirm => none
  | .lifecycleDebugcred => none
  | .tamperClear => none
  | .rmaReport => none
  | .pwrokRise => none
  | .aonDomainValid => none
  | .powerOnReset => none
  | .brownOut => none
  | .resetNPulse => none
  | .resetNRise => none
  | .deviceWatchdogExpiry => none
  | .hostClockLoss _ => none
  | .aonClockLoss => none
  | .aonClockRecovery => none
  | .dmcLockup => none
  | .benchClockLoss b _ => some b
  | .benchClockRecovery b => some b
  | .fllLockLoss b _ => some b
  | .fllRelock b _ => some b
  | .fllRelockTimeout b => some b
  | .benchWatchdogExpiry b => some b
  | .wdkickWrite b _ _ => some b
  | .rstreqWrite b _ _ => some b
  | .benchResetEntry b => some b
  | .fuseSense => none
  | .dmcRelease => none
  | .bootcfgSampling _ => none
  | .optionLoading _ => none
  | .imageCommit => none
  | .hostPhyRelease => none
  | .pcieControllerRelease => none
  | .benchResetRelease b => some b
  | .tagClearComplete b _ => some b
  | .supervisorFirstFetch b => some b
  | .bypass => none
  | .idcode => none
  | .samplePreload => none
  | .extest => none
  | .clamp => none
  | .highz => none
  | .dbgChal => none
  | .dbgResp _ => none
  | .dbgClose => none
  | .testLogicReset => none
  | .debugValidityExpiry => none
  | .regRd _ _ => none
  | .regWr _ _ _ => none
  | .memRd _ _ => none
  | .memWr _ _ _ => none
  | .coreHalt _ _ => none
  | .coreRun _ _ => none
  | .coreStep _ _ => none
  | .stateRd _ _ => none
  | .stateWr _ _ _ => none
  | .pwrStateWrite b _ _ => some b
  | .idleEntry b => some b
  | .idleExit b => some b
  | .napEntry b => some b
  | .offEntry b => some b
  | .napWake b => some b
  | .frequencySelection b _ => some b
  | .policyRelease b => some b
  | .avsAdjustment _ _ => none
  | .avsbusTimeout _ => none
  | .thermalThrottleStep b _ => some b
  | .thermtrip => none
  | .currentLimitStep _ => none
  | .powerCapStep _ => none
  | .parkWrite b _ _ => some b
  | .corePowerGating b _ => some b
  | .meshTrip _ => none
  | .sensorTrip _ => none
  | .vbatChangeover _ => none
  | .vbatLoss => none
  | .registerWrite (.bench b _) _ _ => some b
  | .registerWrite (.host b) _ _ => some b
  | .registerWrite .pf0 _ _ => none
  | .hostInboundAccess b _ _ => some b
  | .undefinedEncoding b _ _ => some b
  | .tamperSourceRestore _ => none

/-- The core that executes the command's instruction and the guard it is under; none for a command that is no instruction of the catalogue
with a guard. -/
def Instr.exec? : Instr → Option Machine.Exec
  | .add x _ _ _ => some x
  | .sub x _ _ _ => some x
  | .and x _ _ _ => some x
  | .or x _ _ _ => some x
  | .xor x _ _ _ => some x
  | .andn x _ _ _ => some x
  | .orn x _ _ _ => some x
  | .xnor x _ _ _ => some x
  | .sll x _ _ _ => some x
  | .srl x _ _ _ => some x
  | .sra x _ _ _ => some x
  | .rol x _ _ _ => some x
  | .ror x _ _ _ => some x
  | .min x _ _ _ => some x
  | .max x _ _ _ => some x
  | .minu x _ _ _ => some x
  | .maxu x _ _ _ => some x
  | .clz x _ _ => some x
  | .ctz x _ _ => some x
  | .popc x _ _ => some x
  | .sextb x _ _ => some x
  | .sexth x _ _ => some x
  | .zexth x _ _ => some x
  | .bswap x _ _ => some x
  | .mul x _ _ _ => some x
  | .mulh x _ _ _ => some x
  | .mulhu x _ _ _ => some x
  | .mulhsu x _ _ _ => some x
  | .div x _ _ _ => some x
  | .divu x _ _ _ => some x
  | .rem x _ _ _ => some x
  | .remu x _ _ _ => some x
  | .addi x _ _ _ => some x
  | .andi x _ _ _ => some x
  | .ori x _ _ _ => some x
  | .xori x _ _ _ => some x
  | .slli x _ _ _ => some x
  | .srli x _ _ _ => some x
  | .srai x _ _ _ => some x
  | .rori x _ _ _ => some x
  | .lui x _ _ => some x
  | .lil x _ _ => some x
  | .mac x _ _ _ => some x
  | .macbPi x _ _ _ => some x
  | .crcb x _ _ _ => some x
  | .crcw x _ _ _ => some x
  | .crcbPi x _ _ _ => some x
  | .lb x _ _ _ => some x
  | .lbu x _ _ _ => some x
  | .lh x _ _ _ => some x
  | .lhu x _ _ _ => some x
  | .lw x _ _ _ => some x
  | .sb x _ _ _ => some x
  | .sh x _ _ _ => some x
  | .sw x _ _ _ => some x
  | .clc x _ _ _ => some x
  | .csc x _ _ _ => some x
  | .dld x _ _ _ => some x
  | .dst x _ _ _ => some x
  | .lbPi x _ _ _ => some x
  | .lbuPi x _ _ _ => some x
  | .lhPi x _ _ _ => some x
  | .lhuPi x _ _ _ => some x
  | .lwPi x _ _ _ => some x
  | .clcPi x _ _ _ => some x
  | .dldPi x _ _ _ => some x
  | .sbPi x _ _ _ => some x
  | .shPi x _ _ _ => some x
  | .swPi x _ _ _ => some x
  | .cscPi x _ _ _ => some x
  | .dstPi x _ _ _ => some x
  | .fillB x _ _ _ => some x
  | .fillH x _ _ _ => some x
  | .fillW x _ _ _ => some x
  | .fillG x _ _ _ => some x
  | .amoswapW x _ _ _ _ _ => some x
  | .amocasW x _ _ _ _ _ => some x
  | .amoaddW x _ _ _ _ _ => some x
  | .amoorW x _ _ _ _ _ => some x
  | .amoandW x _ _ _ _ _ => some x
  | .amocasC x _ _ _ _ _ => some x
  | .cmov x _ _ => some x
  | .cclrtag x _ _ => some x
  | .csetcl x _ _ _ => some x
  | .cinc x _ _ _ => some x
  | .cinch x _ _ _ => some x
  | .csetb x _ _ _ => some x
  | .csetb4k x _ _ _ => some x
  | .csetbx x _ _ _ => some x
  | .candp x _ _ _ => some x
  | .cseal x _ _ _ => some x
  | .cunseal x _ _ _ => some x
  | .cgate x _ _ => some x
  | .cgetpcc x _ => some x
  | .cgbasel x _ _ => some x
  | .cgbaseh x _ _ => some x
  | .cgtopl x _ _ => some x
  | .cgtoph x _ _ => some x
  | .cgtopx x _ _ => some x
  | .cglenl x _ _ => some x
  | .cglenh x _ _ => some x
  | .cgcurl x _ _ => some x
  | .cgcurh x _ _ => some x
  | .cgperm x _ _ => some x
  | .cgtype x _ _ => some x
  | .cgtag x _ _ => some x
  | .cgexp x _ _ => some x
  | .crrl x _ _ => some x
  | .cram x _ _ => some x
  | .cinci x _ _ _ => some x
  | .csetbi x _ _ _ => some x
  | .j x _ => some x
  | .jal x _ => some x
  | .jr x _ => some x
  | .jalr x _ => some x
  | .ret x _ => some x
  | .rete x => some x
  | .enter x _ => some x
  | .cmpEq x _ _ _ => some x
  | .cmpNe x _ _ _ => some x
  | .cmpLt x _ _ _ => some x
  | .cmpLtu x _ _ _ => some x
  | .cmpGe x _ _ _ => some x
  | .cmpGeu x _ _ _ => some x
  | .cmpTst x _ _ _ => some x
  | .cmpTstz x _ _ _ => some x
  | .cmpeqi x _ _ _ => some x
  | .cmplti x _ _ _ => some x
  | .cmpltui x _ _ _ => some x
  | .predicateAnd x _ _ _ _ => some x
  | .predicateOr x _ _ _ _ => some x
  | .predicateXor x _ _ _ _ => some x
  | .predicateAndNot x _ _ _ _ => some x
  | .pset x _ => some x
  | .pclr x _ => some x
  | .prd x _ => some x
  | .pwr x _ => some x
  | .cmpbEqPi x _ _ _ _ => some x
  | .cmpbNePi x _ _ _ _ => some x
  | .cmpbLtuPi x _ _ _ _ => some x
  | .cmpbGeuPi x _ _ _ _ => some x
  | .ceqx x _ _ _ => some x
  | .ctsub x _ _ _ => some x
  | .sysrd x _ _ => some x
  | .syswr x _ _ => some x
  | .csysrd x _ _ => some x
  | .csyswr x _ _ => some x
  | .escLockWrite x _ => some x
  | .fence x _ _ => some x
  | .fenceI x => some x
  | .fenceT x => some x
  | .tlbiAll x _ => some x
  | .tlbiAsid x _ _ => some x
  | .tlbiVa x _ _ _ => some x
  | .tlbiVaAsid x _ _ _ => some x
  | .hold x _ => some x
  | .release x => some x
  | .brx x _ _ => some x
  | .bwx x _ _ => some x
  | .brc x _ _ => some x
  | .bwc x _ _ => some x
  | .brd x _ _ => some x
  | .bwd x _ _ => some x
  | .brs x _ _ => some x
  | .bws x _ _ => some x
  | .brpcc x _ => some x
  | .bwpcc x _ => some x
  | .savel x => some x
  | .saveu x => some x
  | .loadl x => some x
  | .loadu x => some x
  | .sev x _ => some x
  | .wait x => some x
  | .yield x => some x
  | .eret x => some x
  | .dadd x _ _ _ _ => some x
  | .dsub x _ _ _ _ => some x
  | .dmul x _ _ _ _ => some x
  | .ddiv x _ _ _ _ => some x
  | .dqua x _ _ _ _ => some x
  | .dtfx x _ _ _ _ => some x
  | .dtbcd x _ _ _ _ => some x
  | .dceq x _ _ _ => some x
  | .dclt x _ _ _ => some x
  | .dcle x _ _ _ => some x
  | .dcun x _ _ _ => some x
  | .dffx x _ _ _ => some x
  | .dtfxe x _ _ _ => some x
  | .dfbcd x _ _ _ => some x
  | .dmov x _ _ => some x
  | .dneg x _ _ => some x
  | .dabs x _ _ => some x
  | .dcsrr x _ => some x
  | .dcsrw x _ => some x
  | .dmfx x _ _ _ => some x
  | .dmtx x _ _ _ => some x
  | .esub x _ _ _ => some x
  | .epoll x _ _ _ => some x
  | .ckpush x _ _ => some x
  | .ckpop x _ _ _ => some x
  | .clpush x _ _ => some x
  | .clpop x _ _ _ => some x
  | .jpush x _ => some x
  | .japp x _ _ _ => some x
  | .trd x _ => some x
  | .trdc x _ => some x
  | _ => none

/-- The instructions that wait at their beginning: a bank-window form or a save while the scheduler loads the bank (R207), a push while the
buffer is full (R214), FENCE.T (R352). -/
def Instr.mayWait : Instr → Bool
  | .fenceT _ => true
  | .brx _ _ _ => true
  | .bwx _ _ _ => true
  | .brc _ _ _ => true
  | .bwc _ _ _ => true
  | .brd _ _ _ => true
  | .bwd _ _ _ => true
  | .brs _ _ _ => true
  | .bws _ _ _ => true
  | .brpcc _ _ => true
  | .bwpcc _ _ => true
  | .savel _ => true
  | .saveu _ => true
  | .loadl _ => true
  | .loadu _ => true
  | .ckpush _ _ _ => true
  | .clpush _ _ _ => true
  | .japp _ _ _ _ => true
  | _ => false

end Sys2Proof

namespace Sys2Proof.Machine

/-- Core `x.core` of the bench begins an instruction of its own (R121, R230): a strand executes, no event trap and no strand switch comes
first, the fetch succeeds and the guard holds. The answer is the strand's bank and the bench after the fetch, with RCV clear (R135). -/
def Bench.begins (B : Bench) (x : Exec) : Option (BankNo × Bench) :=
  match B.executing x.core with
  | none => none
  | some b =>
    if (B.eventDue x.core).isSome || B.switchDue x.core then none
    else
      let B := B.prepare x.core
      match fetchAt { core := x.core, bank := b, word := 0 } (B.bank x.core b).pcc.cursor B with
      | .ok true B =>
        let B := B.modBank x.core b fun s => { s with rcv := false }
        if x.guard.holds (B.bank x.core b) then some (b, B) else none
      | _ => none


/-- Core `k` begins a repeat prefix of its own (R130, R132): as `begins`, but both the prefix and the word after it are fetched, and
the prefix has no guard. -/
def Bench.beginsPrefix (B : Bench) (k : CoreNo) : Option (BankNo × Bench) :=
  match B.executing k with
  | none => none
  | some b =>
    if (B.eventDue k).isSome || B.switchDue k then none
    else
      let B := B.prepare k
      let a := (B.bank k b).pcc.cursor
      match fetchAt { core := k, bank := b, word := 0 } a B with
      | .ok true B =>
        match fetchAt { core := k, bank := b, word := 0 } (a + 4) B with
        | .ok true B => some (b, B)
        | _ => none
      | _ => none

/-- An instruction that changes only its strand's registers completes: `f` is what it does to them, PCC advances by 4 and INSTRET counts
it (R121). -/
def Bench.completes (B : Bench) (k : CoreNo) (b : BankNo) (f : Bank → Bank) : Bench := (B.modBank k b f).retire k b none

/-- An instruction that writes x[rd]. -/
def State.writesX (s : State) (x : Exec) (b : BankNo) (B : Bench) (rd : Reg) (v : Word) : Out :=
  .next (s.setBench x.bench (B.completes x.core b (·.setX rd v)))

/-- An instruction that writes c[cd]. -/
def State.writesC (s : State) (x : Exec) (b : BankNo) (B : Bench) (cd : Reg) (v : Cap) : Out :=
  .next (s.setBench x.bench (B.completes x.core b (·.setC cd v)))

/-- An instruction that writes p[pd]. -/
def State.writesP (s : State) (x : Exec) (b : BankNo) (B : Bench) (pd : Fin 8) (v : Bool) : Out :=
  .next (s.setBench x.bench (B.completes x.core b (·.setP pd v)))

/-- The strand in bank `b` of core `k` that executes an instruction; the word plays no part in its accesses. -/
def strandOf (k : CoreNo) (b : BankNo) : Strand := { core := k, bank := b, word := 0 }

/-- The command's next state is the bench `B` in place of the one it names. -/
def State.gives (s : State) (b : BenchNo) (B : Bench) : Out := .next (s.setBench b B)

/-- The capability authorises an access of `n` bytes at `a` (R87): tagged, unsealed, with the permissions, in bounds. -/
def Cap.authorises (c : Cap) (perms : List Nat) (a n : Nat) : Prop :=
  c.tag = true ∧ c.otype = 0 ∧ (∀ p ∈ perms, c.has p = true) ∧ c.base ≤ a ∧ a + n ≤ c.top

/-- To the master `mid` the bytes at the physical addresses [a, a + n) are plain memory: they are of type Normal, the filter grants
the right for each, and no line or tag line that holds one has an error. -/
def Bench.plainFor (B : Bench) (mid a n : Nat) (need : Right) : Prop :=
  ∀ i, a ≤ i → i < a + n →
    paType i = .normal ∧ B.mafAllows mid i need = true ∧ i / 64 ∉ B.mem.poison ∧ i / 64 ∉ B.mem.latent
      ∧ i / 64 ∉ B.mem.weak ∧ i / 8192 ∉ B.mem.tagLatent ∧ i / 8192 ∉ B.mem.tagWeak

/-- To the strand in bank `b` of core `k` the bytes [a, a + n) are plain memory, with translation off. -/
def Bench.plainMemory (B : Bench) (k : CoreNo) (b : BankNo) (a n : Nat) (need : Right) : Prop :=
  slice (B.bank k b).atp.toNat 17 16 = 0 ∧ B.plainFor (midCore k) a n need

/-- The bench after memory changed to `m`, everything else as it was. -/
def Bench.withMem (B : Bench) (m : Mem) : Bench := { B with mem := m }

/-- Memory `m'` is `m` with `bytes` stored at `a` as data: every other byte as it was, the tags of the granules touched clear, the
rest of the memory's state as it was (R100). -/
def Mem.storedAt (m m' : Mem) (a : Nat) (bytes : List Byte) : Prop :=
  (∀ i, m'.byte i = if a ≤ i ∧ i < a + bytes.length then bytes.getD (i - a) 0 else m.byte i)
  ∧ (∀ g, m'.tag g = (m.tag g && !decide (a / 16 ≤ g ∧ g ≤ (a + bytes.length - 1) / 16)))
  ∧ m' = { m with bytes := m'.bytes, tags := m'.tags }

/-- The capability that the 16 bytes at a physical address and their tag spell (R63). -/
def Mem.capAt (m : Mem) (a : Nat) : Cap := capOf (m.read a 16) (m.tag (a / 16))

/-- Memory `m'` is `m` with the granules `l` stored one after another from `a`, tags and all: every other byte and tag as it was, the
summary bit of each page that took a tag set, the rest of the memory's state as it was (R101, R396). -/
def Mem.savedAt (m m' : Mem) (a : Nat) (l : List Cap) : Prop :=
  (∀ i, m'.byte i = if a ≤ i ∧ i < a + 16 * l.length then (l.flatMap fun c => leBytes 16 c.bits.toNat).getD (i - a) 0 else m.byte i)
  ∧ (∀ g, m'.tag g = if a / 16 ≤ g ∧ g < a / 16 + l.length then (l.getD (g - a / 16) Cap.null).tag else m.tag g)
  ∧ (∀ p, p ∈ m'.summary ↔ p ∈ m.summary ∨ ∃ i, (l.getD i Cap.null).tag = true ∧ (a / 16 + i) / 256 = p)
  ∧ m' = { m with bytes := m'.bytes, tags := m'.tags, summary := m'.summary }

/-- A save area that core `k` can use (R287, R288): the capability's form, and 640 bytes of plain memory in which the filter lets tags
be stored. -/
def Bench.saveArea (B : Bench) (k : CoreNo) (a : Cap) : Prop :=
  a.tag = true ∧ a.otype = otSave ∧ a.length = 640 ∧ a.cursor.toNat = a.base ∧ a.base % 16 = 0
    ∧ (∀ p ∈ [permLD, permST, permLDC, permSTC], a.has p = true)
    ∧ B.plainFor (midCore k) a.base 640 .r ∧ B.plainFor (midCore k) a.base 640 .w
    ∧ ∀ i, a.base ≤ i → i < a.base + 640 → B.mafTagw (midCore k) i = true

/-- Core `k` can save a half of a bank (R208, R293): SAFREE names a save area, or it is empty and the emergency area is free; no sweep
is in progress. -/
def Bench.canSave (B : Bench) (k : CoreNo) : Prop :=
  let t := B.core k
  (t.safree.tag = true ∨ t.emergBusy = false) ∧ B.saveArea k (if t.safree.tag then t.safree else t.saemerg)
    ∧ B.rake.op ≠ some .sweep ∧ B.mem.wf = true

/-- `C` is the bench after core `k` saved a half of bank `b` (R208, R289, R290, R293): the area holds the chain, the header and the half;
it heads the chain, SAFREE is what its granule 0 held, and the emergency area's use is marked and raised as event 1012. -/
def Bench.savesHalf (B : Bench) (k : CoreNo) (b : BankNo) (upper : Bool) (C : Bench) : Prop :=
  let t := B.core k
  let c := B.bank k b
  let a := if t.safree.tag then t.safree else t.saemerg
  let l := c.sachain :: saveHeader upper c.task (B.origin k b) (t.saves + 1) :: (if upper then c.upperHalf else c.lowerHalf)
  ∃ m, B.mem.savedAt m a.base l ∧
    let E := ((B.withMem m).modBank k b fun r => { r with sachain := a }).modCore k fun r =>
      { r with saves := t.saves + 1, safree := B.mem.capAt a.base, emergBusy := r.emergBusy || !t.safree.tag }
    C = if t.safree.tag then E else E.raise 1012

/-- Core `k` can load a half of bank `b` (R208, R294): the bank's chain names a save area that holds that half; no sweep is in progress. -/
def Bench.canLoad (B : Bench) (k : CoreNo) (b : BankNo) (upper : Bool) : Prop :=
  let a := (B.bank k b).sachain
  B.saveArea k a ∧ ((B.mem.capAt (a.base + 16)).word 0).getLsbD 0 = upper ∧ B.rake.op ≠ some .sweep ∧ B.mem.wf = true

/-- `C` is the bench after core `k` loaded a half of bank `b` (R208, R290, R294): the half's registers, the chain from granule 0, and the
area at the head of SAFREE, or the emergency area free. -/
def Bench.loadsHalf (B : Bench) (k : CoreNo) (b : BankNo) (upper : Bool) (C : Bench) : Prop :=
  let t := B.core k
  let a := (B.bank k b).sachain
  let g := (List.range (if upper then 37 else 21)).map fun i => B.mem.capAt (a.base + 32 + 16 * i)
  let R := B.modBank k b fun r => { (if upper then r.restoreUpper g else r.restoreLower g) with sachain := B.mem.capAt a.base }
  (t.saemerg.tag = true ∧ t.saemerg.base = a.base → C = R.modCore k fun t => { t with emergBusy := false })
  ∧ (¬ (t.saemerg.tag = true ∧ t.saemerg.base = a.base) →
      ∃ m, B.mem.savedAt m a.base [t.safree] ∧ C = (R.withMem m).modCore k fun t => { t with safree := a })

/-! ## Jobs -/

/-- The job that unit `u` makes of a ring's descriptor. -/
def jobOf (u : UnitNo) (q : Sub) : JC := { u := u, sub := q, unit := false }

/-- Unit `u` takes the descriptor `q` of ring `r` next (R464, R468); it resumes no job, names no token, and its translation is off (R326). -/
def Bench.offers (B : Bench) (u : UnitNo) (r : Fin 4) (q : Sub) : Prop :=
  B.unitRuns u.val = true ∧ B.serving u.val = true ∧ (B.eng u).job = none ∧ (B.eng u).next = some (.ring r q)
    ∧ q.mode = 0 ∧ (jobOf u q).resume = false ∧ (jobOf u q).token = 0

/-- The command has the unit take that descriptor, and the job in flight will complete with `f`. -/
def State.takesJob (s : State) (b : BenchNo) (i : Instr) (u : UnitNo) (r : Fin 4) (q : Sub) (f : Finish) : Prop :=
  ∃ E J, exec i s = s.gives b E ∧ (E.eng u).job = some J ∧ J.ring = some r ∧ J.sub = q ∧ J.unit = none ∧ J.fin = f

/-- The handle names the key `k` of the vault, and the role accepts it (R83, R420, R423 to R425); `special` for public-key derivation and
REWRAP. -/
def Bench.acceptsKey (B : Bench) (h : Cap) (role : KeyRole) (sys special : Bool) (k : KeyCopy) : Prop :=
  let v := B.slot k.slot
  h.tag = true ∧ h.otype.toNat = 0xF000 + k.cls ∧ h.has permKEY = true ∧ h.exp = 0 ∧ h.baseM = 0 ∧ h.topM = 0
    ∧ k.slot < 2 ^ 14 ∧ h.cursor.toNat = k.slot + 2 ^ 14 * v.gen.toNat ∧ classDefined k.cls = true
    ∧ v.first = true ∧ v.cls.toNat = k.cls ∧ k.header = B.keyHeader k.slot ∧ k.value = B.keyValue k.slot
    ∧ k.cls ∈ role.classes ∧ (role.modes = [] ∨ ∃ c ∈ role.modes, c.toNat = hdrMode k.header) ∧ role.fits k.header = true
    ∧ (hdrSysOnly k.header = true → sys = true) ∧ (k.cls = 0x1C ∨ k.cls = 0x1D → special = true ∧ sys = true)

/-- Operand `i` of a job is what its role asks for (R473), the key that it names `k`; memory operands are plain memory to the unit. -/
def JC.meets (j : JC) (B : Bench) (i : Nat) (role : OpRole) (k : Option KeyCopy) : Prop :=
  let c := j.opnd i
  let a := c.cursor.toNat
  match role, k with
  | .zero, none => c.tag = false ∧ c.bits = 0
  | .handle r special, some k => B.acceptsKey c r j.sub.sys special k
  | .handleOpt r, some k => B.acceptsKey c r j.sub.sys false k
  | .handleOpt _, none => c.tag = false ∧ c.bits = 0
  | .rd n, none => c.authorises [permLD] a n ∧ B.plainFor j.mid a n .r
  | .wr n, none => c.authorises [permST] a n ∧ B.plainFor j.mid a n .w
  | .rw n, none => c.authorises [permLD, permST] a n ∧ B.plainFor j.mid a n .r ∧ B.plainFor j.mid a n .w
  | .hd n, none => c.authorises [permLD, permST, permSTC] a (max 16 n) ∧ a % 16 = 0 ∧ B.plainFor j.mid a (max 16 n) .r
  | _, _ => False

/-- The `n` bytes of memory that operand `i` of a job addresses. -/
def JC.bytesAt (j : JC) (B : Bench) (i n : Nat) : List Byte := B.mem.read (j.opnd i).cursor.toNat n

/-- The DRBG serves a draw of `n` bytes (R507, R509), and what it gives. -/
def Bench.serves (B : Bench) (n : Nat) : Prop := n = 0 ∨ B.drbg.live = true
def Bench.drawn (B : Bench) (n : Nat) : List Byte := if n = 0 then [] else ((B.drbgDraw n).1).getD []

/-- The placed output of a streaming job (R366): `l` at operand C, page by page. -/
def JC.placed (j : JC) (n : Nat) (l : List Byte) : List (OutAt × List Byte) :=
  layOut (splitAt 4096 (n / 4096 + 2) (j.opnd 2).cursor.toNat n) l

/-- The completion of a whole-job operation whose output is `l` at operand C. -/
def JC.gives (j : JC) (l : List Byte) : Finish := Finish.ok l.length 0 (j.out 2 0 l)

/-! ## Registers and traps -/

/-- Writer `w` can read or write the register at `off`: it reaches the bench's registers (R737, R739), and the filter grants it the
access (R377). The access acts on the bench back in RUN, where it was idle. -/
def Bench.accessOk (B : Bench) (w : Writer) (off : Nat) (need : Right) : Bool :=
  B.reaches w && B.idleExit.mafAllows w.mid (0x2000000000 + off) need

/-- What a trap of event `n` leaves in the bank that takes it (R221, R222, R226, R309); `held` where a hold was in force. -/
def Bank.trappedBy (s : Bank) (n : Nat) (held : Bool) : Bank :=
  { s with epcc := s.pcc, ecause := BitVec.ofNat 32 (0x30 + n % 1024 * 2 ^ 14), etval := 0
           estat := 1#32 ||| (if s.rcv then 2 else 0) ||| (if held then 4 else 0), rcv := false, pcc := s.trapEntry.unsealed }

/-- The sparse tables of a bench's memory and event sources are in their canonical form. -/
def Bench.tablesOk (B : Bench) : Prop := B.mem.wf = true ∧ Table.wf EvStat.zero B.sched.evstat = true

/-- A legal state of the device: no fuse counter is beyond its limit (R715), no more restarts are counted than the limit of R704, an image
awaiting its commit has a version that the rollback counter can take (R709), an epoch advance is open only below the last epoch (R447),
the lockout stands for eight failures (R730), no session means none of a session's fields (R735), and the link is up only with the PHY
and the controller released and HOST_PERST_N high (R657, R680). -/
def Device.legal (d : Device) : Prop :=
  d.fuses.lifecycle ≤ 4 ∧ d.fuses.rootslot ≤ 3 ∧ d.fuses.rollback ≤ 128 ∧ d.fuses.epoch ≤ 64 ∧ d.fuses.debugcred ≤ 4
  ∧ d.restarts.toNat ≤ 8 ∧ (∀ img, d.staged = some img → img.version.toNat ≤ 128) ∧ (d.epochAdv ≠ none → d.fuses.epoch < 64)
  ∧ d.dbg.lockout = decide (8 ≤ d.dbg.fails.toNat) ∧ (d.dbg.level = 0 → d.dbg.bench = 0 ∧ d.dbg.serhafa = false ∧ d.dbg.validUntil = 0)
  ∧ (d.link ≠ none → d.phyUp = true ∧ d.pcieUp = true ∧ d.perst = false)

/-- A run is safe that goes on: no command stops the machine. -/
def State.safe (s : State) : Prop := ∃ t, step s = .next t

end Sys2Proof.Machine
end

