-- ==== Sys2Proof/Certificates/Slice0/Obligations.lean ====
section
/-!
DEFINITION. Certificates/Slice0/Obligations.lean: the statements about the machine. Each is the proposition alone; its docstring names the
rules it rests on. A next state is written out wherever the spec fixes it, so that the equation is the command's frame as well: what it does
not name is as it was.
-/

open Sys2Proof Sys2Proof.Machine
set_option maxRecDepth 4000

/-- Chapter 04, R179 and R180: what the register forms of the integer group write to x[rd], x0 taking no write (R176); PCC advances, INSTRET
counts, and nothing else of the fetched bench changes. The next state is written out whole, so that it is the frame as well.

R179 and R180: the one-operand forms.

R181, R182: the immediate forms of the integer group; the immediate is sign-extended (R120).

Chapter 04, R183: the multiply-accumulate and CRC steps on registers. The CRC step is written out from its pseudocode: the byte is folded
in, then eight times the accumulator shifts right and takes the polynomial where the bit shifted out is 1. -/
def Obligations.IntegerResults : Prop :=
  (∀ (s : State) (x : Exec) (b : BankNo) (B : Bench) (rd rs1 rs2 : Reg), (s.bench x.bench).begins x = some (b, B) →
      let v := (B.bank x.core b).getX rs1
      let w := (B.bank x.core b).getX rs2
      let n := w.toNat % 32
      let gives (i : Instr) (r : Word) : Prop := exec i s = s.writesX x b B rd r
      gives (.add x rd rs1 rs2) (v + w) ∧ gives (.sub x rd rs1 rs2) (v - w)
      ∧ gives (.and x rd rs1 rs2) (v &&& w) ∧ gives (.or x rd rs1 rs2) (v ||| w) ∧ gives (.xor x rd rs1 rs2) (v ^^^ w)
      ∧ gives (.andn x rd rs1 rs2) (v &&& ~~~w) ∧ gives (.orn x rd rs1 rs2) (v ||| ~~~w) ∧ gives (.xnor x rd rs1 rs2) (~~~(v ^^^ w))
      ∧ gives (.sll x rd rs1 rs2) (v <<< n) ∧ gives (.srl x rd rs1 rs2) (v >>> n) ∧ gives (.sra x rd rs1 rs2) (v.sshiftRight n)
      ∧ gives (.rol x rd rs1 rs2) (v <<< n ||| v >>> (32 - n)) ∧ gives (.ror x rd rs1 rs2) (v >>> n ||| v <<< (32 - n))
      ∧ gives (.min x rd rs1 rs2) (BitVec.ofInt 32 (min v.toInt w.toInt)) ∧ gives (.max x rd rs1 rs2) (BitVec.ofInt 32 (max v.toInt w.toInt))
      ∧ gives (.minu x rd rs1 rs2) (BitVec.ofNat 32 (min v.toNat w.toNat)) ∧ gives (.maxu x rd rs1 rs2) (BitVec.ofNat 32 (max v.toNat w.toNat))
      ∧ gives (.mul x rd rs1 rs2) (BitVec.ofNat 32 (v.toNat * w.toNat))
      ∧ gives (.mulh x rd rs1 rs2) (BitVec.ofInt 32 (v.toInt * w.toInt / 2 ^ 32))
      ∧ gives (.mulhu x rd rs1 rs2) (BitVec.ofNat 32 (v.toNat * w.toNat / 2 ^ 32))
      ∧ gives (.mulhsu x rd rs1 rs2) (BitVec.ofInt 32 (v.toInt * (w.toNat : Int) / 2 ^ 32))
      ∧ gives (.div x rd rs1 rs2) (if w = 0 then 0xFFFFFFFF else BitVec.ofInt 32 (v.toInt.tdiv w.toInt))
      ∧ gives (.divu x rd rs1 rs2) (if w = 0 then 0xFFFFFFFF else BitVec.ofNat 32 (v.toNat / w.toNat))
      ∧ gives (.rem x rd rs1 rs2) (if w = 0 then v else BitVec.ofInt 32 (v.toInt.tmod w.toInt))
      ∧ gives (.remu x rd rs1 rs2) (if w = 0 then v else BitVec.ofNat 32 (v.toNat % w.toNat)))
  ∧ (∀ (s : State) (x : Exec) (b : BankNo) (B : Bench) (rd rs1 : Reg), (s.bench x.bench).begins x = some (b, B) →
      let v := (B.bank x.core b).getX rs1
      let gives (i : Instr) (r : Word) : Prop := exec i s = s.writesX x b B rd r
      (∃ n, n ≤ 32 ∧ v.toNat < 2 ^ (32 - n) ∧ (n < 32 → 2 ^ (31 - n) ≤ v.toNat) ∧ gives (.clz x rd rs1) (BitVec.ofNat 32 n))
      ∧ (∃ n, n ≤ 32 ∧ (∀ i, i < n → v.getLsbD i = false) ∧ (n < 32 → v.getLsbD n = true) ∧ gives (.ctz x rd rs1) (BitVec.ofNat 32 n))
      ∧ gives (.popc x rd rs1) (BitVec.ofNat 32 ((List.range 32).countP fun i => v.getLsbD i))
      ∧ gives (.sextb x rd rs1) ((v.extractLsb' 0 8).signExtend 32) ∧ gives (.sexth x rd rs1) ((v.extractLsb' 0 16).signExtend 32)
      ∧ gives (.zexth x rd rs1) ((v.extractLsb' 0 16).zeroExtend 32)
      ∧ gives (.bswap x rd rs1) (BitVec.ofNat 32 (beNat (leBytes 4 v.toNat))))
  ∧ (∀ (s : State) (x : Exec) (b : BankNo) (B : Bench) (rd rs1 : Reg) (imm : BitVec 11) (sh : BitVec 5) (u : BitVec 16),
      (s.bench x.bench).begins x = some (b, B) →
      let v := (B.bank x.core b).getX rs1
      let i := imm.signExtend 32
      let n := sh.toNat
      let gives (i : Instr) (r : Word) : Prop := exec i s = s.writesX x b B rd r
      gives (.addi x rd rs1 imm) (v + i) ∧ gives (.andi x rd rs1 imm) (v &&& i) ∧ gives (.ori x rd rs1 imm) (v ||| i)
      ∧ gives (.xori x rd rs1 imm) (v ^^^ i)
      ∧ gives (.slli x rd rs1 sh) (v <<< n) ∧ gives (.srli x rd rs1 sh) (v >>> n) ∧ gives (.srai x rd rs1 sh) (v.sshiftRight n)
      ∧ gives (.rori x rd rs1 sh) (v >>> n ||| v <<< (32 - n))
      ∧ gives (.lui x rd u) (u ++ 0#16) ∧ gives (.lil x rd u) (((B.bank x.core b).getX rd).extractLsb' 16 16 ++ u))
  ∧ (∀ (s : State) (x : Exec) (b : BankNo) (B : Bench) (rd rs1 rs2 : Reg) (poly : Fin 3), (s.bench x.bench).begins x = some (b, B) →
      let v := (B.bank x.core b).getX rs1
      let acc := (B.bank x.core b).getX rd
      let p : Word := if poly = 0 then 0xEDB88320 else if poly = 1 then 0x82F63B78 else 0x8408
      let start := if poly = 2 then acc.extractLsb' 0 16 |>.zeroExtend 32 else acc
      let fold (crc : Word) (byte : Byte) : Word :=
        (List.range 8).foldl (fun c _ => if c.getLsbD 0 then c >>> 1 ^^^ p else c >>> 1) (crc ^^^ byte.zeroExtend 32)
      exec (.mac x rd rs1 rs2) s = s.writesX x b B rd (acc + v * (B.bank x.core b).getX rs2)
      ∧ exec (.crcb x poly rd rs1) s = s.writesX x b B rd (fold start (v.extractLsb' 0 8))
      ∧ exec (.crcw x poly rd rs1) s = s.writesX x b B rd
          (fold (fold (fold (fold start (v.extractLsb' 0 8)) (v.extractLsb' 8 8)) (v.extractLsb' 16 8)) (v.extractLsb' 24 8)))

/-- Chapter 04, R184: the plain loads from plain memory. Every byte comes from its own address, the lowest first; the rest of the bench is as
the fetch left it.

Chapter 04, R184 and R185, and R183, R197 for the byte forms: a load in any form, wherever its access succeeds (`M.load` is R178's check,
xlate and rd_mem; the bench it leaves holds the TLB fills and the A bits of R337). The post-increment forms move the cursor by the size,
up or down. -/
def Obligations.LoadResults : Prop :=
  (∀ (s : State) (x : Exec) (b : BankNo) (B : Bench) (rd cs1 : Reg) (imm : BitVec 11), (s.bench x.bench).begins x = some (b, B) →
      let c := (B.bank x.core b).getC cs1
      let a := (c.cursor + imm.signExtend 64).toNat
      let g := (c.cursor + imm.signExtend 64 * 16).toNat
      let m := fun i => B.mem.byte (a + i)
      let may (a n : Nat) : Prop := c.authorises [permLD] a n ∧ B.plainMemory x.core b a n .r
      (may a 1 → exec (.lb x rd cs1 imm) s = s.writesX x b B rd ((m 0).signExtend 32)
        ∧ exec (.lbu x rd cs1 imm) s = s.writesX x b B rd ((m 0).zeroExtend 32))
      ∧ (may a 2 → exec (.lh x rd cs1 imm) s = s.writesX x b B rd ((m 1 ++ m 0).signExtend 32)
        ∧ exec (.lhu x rd cs1 imm) s = s.writesX x b B rd ((m 1 ++ m 0).zeroExtend 32))
      ∧ (may a 4 → exec (.lw x rd cs1 imm) s = s.writesX x b B rd (m 3 ++ m 2 ++ m 1 ++ m 0))
      ∧ (may g 16 → g % 16 = 0 → exec (.clc x rd cs1 imm) s
          = s.writesC x b B rd (c.loaded (B.filtered { tag := B.mem.tag (g / 16), bits := BitVec.ofNat 128 (leNat (B.mem.read g 16)) }) true))
      ∧ (may g 16 → ∀ dd : Fin 16, exec (.dld x (dd.castLE (by decide)) cs1 imm) s
          = s.gives x.bench (B.completes x.core b (·.setD dd (BitVec.ofNat 128 (leNat (B.mem.read g 16)))))))
  ∧ (∀ (s : State) (x : Exec) (b : BankNo) (B B' : Bench) (rd cs1 rs2 : Reg) (down : Bool) (l : List Byte),
      (s.bench x.bench).begins x = some (b, B) →
      let k := x.core
      let c := (B.bank k b).getC cs1
      let reads (n : Nat) : Prop := M.load (strandOf k b) c c.cursor n B = .ok l B'
      let moves (n : Nat) (t : Bank) : Bank := t.setC cs1 ((t.getC cs1).bump (if down then 0 - BitVec.ofNat 64 n else BitVec.ofNat 64 n))
      let up (t : Bank) : Bank := t.setC cs1 ((t.getC cs1).bump 1)
      let gives (i : Instr) (f : Bank → Bank) : Prop := exec i s = s.gives x.bench (B'.completes k b f)
      (reads 1 → gives (.lbPi x down rd cs1) (fun t => moves 1 (t.setX rd (extend true l)))
        ∧ gives (.lbuPi x down rd cs1) (fun t => moves 1 (t.setX rd (extend false l)))
        ∧ gives (.macbPi x rd cs1 rs2) (fun t => up (t.setX rd (t.getX rd + (l.headD 0).zeroExtend 32 * t.getX rs2)))
        ∧ (∀ p : Fin 3, gives (.crcbPi x p rd cs1) (fun t => up (t.setX rd (crcByte p (crcStart p (t.getX rd)) (l.headD 0)))))
        ∧ (∀ pd : Fin 8,
            let byte := l.headD 0
            let against := ((B'.bank k b).getX rs2).extractLsb' 0 8
            let pdr : Reg := pd.castLE (by decide)
            gives (.cmpbEqPi x down pdr cs1 rs2) (fun t => moves 1 (t.setP pd (decide (byte = against))))
            ∧ gives (.cmpbNePi x down pdr cs1 rs2) (fun t => moves 1 (t.setP pd (decide (byte ≠ against))))
            ∧ gives (.cmpbLtuPi x down pdr cs1 rs2) (fun t => moves 1 (t.setP pd (decide (byte.toNat < against.toNat))))
            ∧ gives (.cmpbGeuPi x down pdr cs1 rs2) (fun t => moves 1 (t.setP pd (decide (against.toNat ≤ byte.toNat))))))
      ∧ (reads 2 → gives (.lhPi x down rd cs1) (fun t => moves 2 (t.setX rd (extend true l)))
        ∧ gives (.lhuPi x down rd cs1) (fun t => moves 2 (t.setX rd (extend false l))))
      ∧ (reads 4 → gives (.lwPi x down rd cs1) (fun t => moves 4 (t.setX rd (extend false l))))
      ∧ (reads 16 → ∀ dd : Fin 16, gives (.dldPi x down (dd.castLE (by decide)) cs1) (fun t => moves 16 (t.setD dd (BitVec.ofNat 128 (leNat l)))))
      ∧ (∀ v, M.loadCap (strandOf k b) c c.cursor B = .ok v B' → rd ≠ cs1 → gives (.clcPi x down rd cs1) (fun t => moves 16 (t.setC rd v))))

/-- Chapter 04, R184: the plain stores to plain memory: the stored bytes at their addresses, the lowest first, no other byte changed, the tags
of the granules touched cleared (R100), nothing else of the bench changed.

Chapter 04, R184 with R93 and R101: a tagged capability stored under LD-free rules: STC, GL or a local source allowed, and the filter's
TAGW, leaves the granule's 128 bits and its tag.

Chapter 04, R185 and R187: the post-increment stores and the fills, wherever their access succeeds; memory, the filter's records and the
TLBs are as `M.store` leaves them, and the cursor moves by the size. -/
def Obligations.StoreResults : Prop :=
  (∀ (s : State) (x : Exec) (b : BankNo) (B : Bench) (rs2 cs1 : Reg) (imm : BitVec 11), (s.bench x.bench).begins x = some (b, B) → B.mem.wf = true →
      let c := (B.bank x.core b).getC cs1
      let v := (B.bank x.core b).getX rs2
      let a := (c.cursor + imm.signExtend 64).toNat
      let g := (c.cursor + imm.signExtend 64 * 16).toNat
      let may (a n : Nat) : Prop := c.authorises [permST] a n ∧ B.plainMemory x.core b a n .w
      let stores (i : Instr) (a : Nat) (bytes : List Byte) : Prop :=
        ∃ m, B.mem.storedAt m a bytes ∧ exec i s = s.gives x.bench ((B.withMem m).completes x.core b id)
      (may a 1 → stores (.sb x rs2 cs1 imm) a [v.extractLsb' 0 8])
      ∧ (may a 2 → stores (.sh x rs2 cs1 imm) a [v.extractLsb' 0 8, v.extractLsb' 8 8])
      ∧ (may a 4 → stores (.sw x rs2 cs1 imm) a [v.extractLsb' 0 8, v.extractLsb' 8 8, v.extractLsb' 16 8, v.extractLsb' 24 8])
      ∧ (may g 16 → ∀ ds : Fin 16, stores (.dst x (ds.castLE (by decide)) cs1 imm) g (leBytes 16 ((B.bank x.core b).getD ds).toNat))
      ∧ (may g 16 → g % 16 = 0 → ((B.bank x.core b).getC rs2).tag = false →
          stores (.csc x rs2 cs1 imm) g (leBytes 16 ((B.bank x.core b).getC rs2).bits.toNat)))
  ∧ (∀ (s : State) (x : Exec) (b : BankNo) (B : Bench) (cs2 cs1 : Reg) (imm : BitVec 11), (s.bench x.bench).begins x = some (b, B) → B.mem.wf = true →
      let c := (B.bank x.core b).getC cs1
      let v := (B.bank x.core b).getC cs2
      let g := (c.cursor + imm.signExtend 64 * 16).toNat
      c.authorises [permST, permSTC] g 16 → g % 16 = 0 → (v.has permGL = true ∨ c.has permGL = false) → v.tag = true →
      B.plainMemory x.core b g 16 .w → B.mafTagw (midCore x.core) g = true →
      ∃ m, exec (.csc x cs2 cs1 imm) s = s.gives x.bench ((B.withMem m).completes x.core b id)
        ∧ (∀ i, m.byte i = if g ≤ i ∧ i < g + 16 then (leBytes 16 v.bits.toNat).getD (i - g) 0 else B.mem.byte i)
        ∧ (∀ n, m.tag n = (B.mem.tag n || decide (n = g / 16))))
  ∧ (∀ (s : State) (x : Exec) (b : BankNo) (B B' : Bench) (rs2 cs1 : Reg) (down : Bool), (s.bench x.bench).begins x = some (b, B) →
      let k := x.core
      let c := (B.bank k b).getC cs1
      let v := (B.bank k b).getX rs2
      let byte (i : Nat) : Byte := v.extractLsb' (8 * i) 8
      let word := [byte 0, byte 1, byte 2, byte 3]
      let stores (l : List Byte) : Prop := M.store (strandOf k b) c c.cursor l B = .ok () B'
      let moves (i : Instr) (n : Nat) : Prop := exec i s = s.gives x.bench (B'.completes k b fun t =>
        t.setC cs1 ((t.getC cs1).bump (if down then 0 - BitVec.ofNat 64 n else BitVec.ofNat 64 n)))
      (stores [byte 0] → moves (.sbPi x down rs2 cs1) 1 ∧ moves (.fillB x down cs1 rs2) 1)
      ∧ (stores [byte 0, byte 1] → moves (.shPi x down rs2 cs1) 2 ∧ moves (.fillH x down cs1 rs2) 2)
      ∧ (stores word → moves (.swPi x down rs2 cs1) 4 ∧ moves (.fillW x down cs1 rs2) 4)
      ∧ (stores (word ++ word ++ word ++ word) → moves (.fillG x down cs1 rs2) 16)
      ∧ (∀ ds : Fin 16, stores (leBytes 16 ((B.bank k b).getD ds).toNat) → moves (.dstPi x down (ds.castLE (by decide)) cs1) 16)
      ∧ (M.storeCap (strandOf k b) c c.cursor ((B.bank k b).getC rs2) B = .ok () B' → moves (.cscPi x down rs2 cs1) 16))

/-- Chapter 04, R188: the word atomics on plain memory: the word at the address becomes the operation's result (AMOCAS.W: only where it equals
x[rd]), and x[rd] takes the old word.

Chapter 04, R189: the capability compare-and-swap on plain memory. The comparison is of all 129 bits; c[cd] takes the old value under R91
and R92, whether or not the granule is written. -/
def Obligations.AtomicResults : Prop :=
  (∀ (s : State) (x : Exec) (b : BankNo) (B : Bench) (aq rl : Bool) (rd rs2 cs1 : Reg), (s.bench x.bench).begins x = some (b, B) → B.mem.wf = true →
      let c := (B.bank x.core b).getC cs1
      let a := c.cursor.toNat
      let v := (B.bank x.core b).getX rs2
      let old : Word := B.mem.byte (a + 3) ++ B.mem.byte (a + 2) ++ B.mem.byte (a + 1) ++ B.mem.byte a
      c.authorises [permLD, permST] a 4 → a % 4 = 0 → B.plainMemory x.core b a 4 .rw →
      let writes (i : Instr) (w : Word) : Prop :=
        ∃ m, B.mem.storedAt m a [w.extractLsb' 0 8, w.extractLsb' 8 8, w.extractLsb' 16 8, w.extractLsb' 24 8]
          ∧ exec i s = s.writesX x b (B.withMem m) rd old
      writes (.amoswapW x aq rl rd rs2 cs1) v
      ∧ writes (.amoaddW x aq rl rd rs2 cs1) (old + v)
      ∧ writes (.amoorW x aq rl rd rs2 cs1) (old ||| v)
      ∧ writes (.amoandW x aq rl rd rs2 cs1) (old &&& v)
      ∧ (old = (B.bank x.core b).getX rd → writes (.amocasW x aq rl rd rs2 cs1) v)
      ∧ (old ≠ (B.bank x.core b).getX rd → exec (.amocasW x aq rl rd rs2 cs1) s = s.writesX x b B rd old))
  ∧ (∀ (s : State) (x : Exec) (b : BankNo) (B : Bench) (aq rl : Bool) (cd cs2 cs1 : Reg), (s.bench x.bench).begins x = some (b, B) →
      let k := x.core
      let c := (B.bank k b).getC cs1
      let a := c.cursor.toNat
      let new := (B.bank k b).getC cs2
      let old : Cap := { tag := B.mem.tag (a / 16), bits := BitVec.ofNat 128 (leNat (B.mem.read a 16)) }
      c.authorises [permLD, permST] a 16 → a % 16 = 0 → c.storeAllowed new = true → B.plainMemory k b a 16 .rw →
      (old ≠ (B.bank k b).getC cd → exec (.amocasC x aq rl cd cs2 cs1) s = s.writesC x b B cd (c.loaded (B.filtered old) true))
      ∧ (old = (B.bank k b).getC cd → ∃ B', B' = B.writeGranule (midCore k) (B.origin k b) a new
          ∧ exec (.amocasC x aq rl cd cs2 cs1) s = s.writesC x b B' cd (c.loaded (B'.filtered old) true)))

/-- Chapter 02, R87: the checks of a load or store on its authorising capability, in their order; the first that fails decides the fault,
taken as the trap of chapter 05 with the address in ETVAL. -/
def Obligations.AccessCheckFaults : Prop :=
  ∀ (s : State) (x : Exec) (b : BankNo) (B : Bench) (r cs1 : Reg) (imm : BitVec 11), (s.bench x.bench).begins x = some (b, B) →
    let c := (B.bank x.core b).getC cs1
    let ea := c.cursor + imm.signExtend 64
    let faults (i : Instr) (cause : Cause) : Prop :=
      exec i s = s.gives x.bench (B.takeTrap x.core b { cause := cause, etval := ea })
    let loads := fun i => i = Instr.lw x r cs1 imm
    let stores := fun i => i = Instr.sw x r cs1 imm
    (∀ i, loads i ∨ stores i → c.tag = false → faults i .capTag)
    ∧ (∀ i, loads i ∨ stores i → c.tag = true → c.otype ≠ 0 → faults i .capSeal)
    ∧ (∀ i, (loads i ∧ c.has permLD = false) ∨ (stores i ∧ c.has permST = false) → c.tag = true → c.otype = 0 → faults i .capPerm)
    ∧ (∀ i, (loads i ∧ c.has permLD = true) ∨ (stores i ∧ c.has permST = true) → c.tag = true → c.otype = 0 →
        (ea.toNat < c.base ∨ c.top < ea.toNat + 4) → faults i .capBounds)

/-- Chapter 02, R70, R71, R84 and chapter 04, R190, R192: the copies and the cursor operations. A source that is tagged and sealed faults
CAP_SEAL with the instruction word in ETVAL; otherwise the cursor moves, and the tag stays only where the source had one and the new
cursor lies within the representable window; every other bit is the source's.

Chapter 02, R84 and chapter 04, R190, R191: the field reads, whatever the tag and the seal. The bounds are those of R69 (and R66 for EXP
above 27); a 64-bit value is read in two words, and CGTOPX reads bit 64 of the top. -/
def Obligations.CursorAndFieldOperations : Prop :=
  (∀ (s : State) (x : Exec) (b : BankNo) (B : Bench) (cd cs1 rs2 : Reg) (imm : BitVec 11), (s.bench x.bench).begins x = some (b, B) →
      let c := (B.bank x.core b).getC cs1
      let v := (B.bank x.core b).getX rs2
      let moved (a : Dword) : Cap := { tag := c.tag && c.inWindow a, bits := c.bits.extractLsb' 64 64 ++ a }
      let moves (i : Instr) (a : Dword) : Prop := exec i s = s.writesC x b B cd (moved a)
      let refused (i : Instr) : Prop := ∃ w, exec i s = s.gives x.bench (B.takeTrap x.core b { cause := .capSeal, etval := w })
      exec (.cmov x cd cs1) s = s.writesC x b B cd c
      ∧ exec (.cclrtag x cd cs1) s = s.writesC x b B cd { tag := false, bits := c.bits }
      ∧ exec (.cgetpcc x cd) s = s.writesC x b B cd (B.bank x.core b).pcc
      ∧ (c.tag = false ∨ c.otype = 0 →
          moves (.csetcl x cd cs1 rs2) (c.cursor.extractLsb' 32 32 ++ v) ∧ moves (.cinc x cd cs1 rs2) (c.cursor + v.signExtend 64)
          ∧ moves (.cinch x cd cs1 rs2) (c.cursor + (v ++ 0#32)) ∧ moves (.cinci x cd cs1 imm) (c.cursor + imm.signExtend 64))
      ∧ (c.tag = true ∧ c.otype ≠ 0 →
          refused (.csetcl x cd cs1 rs2) ∧ refused (.cinc x cd cs1 rs2) ∧ refused (.cinch x cd cs1 rs2) ∧ refused (.cinci x cd cs1 imm)))
  ∧ (∀ (s : State) (x : Exec) (b : BankNo) (B : Bench) (rd cs1 rs1 : Reg), (s.bench x.bench).begins x = some (b, B) →
      let c := (B.bank x.core b).getC cs1
      let v := (B.bank x.core b).getX rs1
      let low (n : Nat) : Word := BitVec.ofNat 32 n
      let reads (i : Instr) (r : Word) : Prop := exec i s = s.writesX x b B rd r
      reads (.cgbasel x rd cs1) (low c.base) ∧ reads (.cgbaseh x rd cs1) (low (c.base >>> 32))
      ∧ reads (.cgtopl x rd cs1) (low c.top) ∧ reads (.cgtoph x rd cs1) (low (c.top >>> 32))
      ∧ reads (.cgtopx x rd cs1) (if c.top.testBit 64 then 1 else 0)
      ∧ reads (.cglenl x rd cs1) (low c.length) ∧ reads (.cglenh x rd cs1) (low (c.length >>> 32))
      ∧ reads (.cgcurl x rd cs1) (c.bits.extractLsb' 0 32) ∧ reads (.cgcurh x rd cs1) (c.bits.extractLsb' 32 32)
      ∧ reads (.cgperm x rd cs1) (0#16 ++ c.bits.extractLsb' 112 16) ∧ reads (.cgtype x rd cs1) (0#16 ++ c.bits.extractLsb' 96 16)
      ∧ reads (.cgtag x rd cs1) (if c.tag then 1 else 0)
      ∧ reads (.cgexp x rd cs1) (0#27 ++ c.bits.extractLsb' 91 5)
      ∧ (∃ e rb rt, setBoundsRound 0 v.toNat v.toNat = (e, rb, rt) ∧ reads (.crrl x rd rs1) (low (rt - rb))
          ∧ reads (.cram x rd rs1) (0xFFFFFFFF <<< e)))

/-- Chapter 02, R73, R79 to R81, R84 and chapter 04, R190, R192: the operations that narrow, seal and unseal, where the requirements on their
sources hold.

Chapter 02, R79, R81, R84, R85: the faults of the operations that need a tagged, unsealed source, in their order: bounds that the source
does not contain last; the checks of the gate; and those of the seal operation and its authority. -/
def Obligations.CapabilityDerivation : Prop :=
  (∀ (s : State) (x : Exec) (b : BankNo) (B : Bench) (cd cs1 r2 : Reg) (imm : BitVec 11), (s.bench x.bench).begins x = some (b, B) →
      let c := (B.bank x.core b).getC cs1
      let v := (B.bank x.core b).getX r2
      let ct := (B.bank x.core b).getC r2
      let makes (i : Instr) (r : Cap) : Prop := exec i s = s.writesC x b B cd r
      let permitted (o : Nat) : Prop := o = 0x10 ∨ o = 0x20 ∨ o = 0x21 ∨ (0x100 ≤ o ∧ o ≤ 0xEFFF)
      c.tag = true →
      (c.otype = 0 →
        (∀ r, c.setBounds v.toNat false = some r → makes (.csetb x cd cs1 r2) r)
        ∧ (∀ r, c.setBounds (v.toNat * 4096) false = some r → makes (.csetb4k x cd cs1 r2) r)
        ∧ (∀ r, c.setBounds v.toNat true = some r → makes (.csetbx x cd cs1 r2) r)
        ∧ (∀ r, c.setBounds imm.toNat false = some r → makes (.csetbi x cd cs1 imm) r)
        ∧ makes (.candp x cd cs1 r2) { tag := true, bits := (c.perm &&& v.extractLsb' 0 16) ++ c.bits.extractLsb' 0 112 }
        ∧ (ct.tag = true → ct.otype = 0 → ct.has permSEAL = true → ct.base ≤ ct.cursor.toNat → ct.cursor.toNat < ct.top →
            permitted ct.cursor.toNat → makes (.cseal x cd cs1 r2) (c.withOtype (ct.cursor.extractLsb' 0 16)))
        ∧ (c.has permEX = true → c.cursor.toNat % 4 = 0 → c.base ≤ c.cursor.toNat → c.cursor.toNat + 4 ≤ c.top →
            makes (.cgate x cd cs1) (c.withOtype 0x0001)))
      ∧ (c.otype ≠ 0 → ct.tag = true → ct.otype = 0 → ct.has permUNSEAL = true → ct.base ≤ ct.cursor.toNat →
          ct.cursor.toNat < ct.top → ct.cursor.toNat = c.otype.toNat → permitted c.otype.toNat →
          makes (.cunseal x cd cs1 r2) ((c.withOtype 0).withPerm
            (if c.has permGL = true ∧ ct.has permGL = true then c.perm else c.perm &&& 0xFFDF))))
  ∧ (∀ (s : State) (x : Exec) (b : BankNo) (B : Bench) (cd cs1 r2 : Reg) (imm : BitVec 11), (s.bench x.bench).begins x = some (b, B) →
      let c := (B.bank x.core b).getC cs1
      let v := (B.bank x.core b).getX r2
      let faults (cause : Cause) (i : Instr) : Prop :=
        ∃ w, exec i s = s.gives x.bench (B.takeTrap x.core b { cause := cause, etval := w })
      let setB : List Instr := [.csetb x cd cs1 r2, .csetb4k x cd cs1 r2, .csetbx x cd cs1 r2, .csetbi x cd cs1 imm]
      let open' : List Instr := setB ++ [.candp x cd cs1 r2, .cseal x cd cs1 r2, .cgate x cd cs1]
      (c.tag = false → ∀ i ∈ open' ++ [.cunseal x cd cs1 r2], faults .capTag i)
      ∧ (c.tag = true → c.otype ≠ 0 → ((B.bank x.core b).getC r2).tag = true → ∀ i ∈ open', faults .capSeal i)
      ∧ (c.tag = true → c.otype = 0 →
          (c.setBounds v.toNat false = none → faults .capBounds (.csetb x cd cs1 r2))
          ∧ (c.setBounds v.toNat true = none → faults .capBounds (.csetbx x cd cs1 r2))
          ∧ (c.setBounds (v.toNat * 4096) false = none → faults .capBounds (.csetb4k x cd cs1 r2))
          ∧ (c.setBounds imm.toNat false = none → faults .capBounds (.csetbi x cd cs1 imm)))
      ∧ (c.tag = true → c.otype = 0 →
          (c.has permEX = false → faults .capPerm (.cgate x cd cs1))
          ∧ (c.has permEX = true → c.cursor.toNat % 4 ≠ 0 → faults .misaligned (.cgate x cd cs1))
          ∧ (c.has permEX = true → c.cursor.toNat % 4 = 0 → (c.cursor.toNat < c.base ∨ c.top < c.cursor.toNat + 4) →
              faults .capBounds (.cgate x cd cs1)))
      ∧ (let ct := (B.bank x.core b).getC r2
         let a := ct.cursor.toNat
         let sealing := Instr.cseal x cd cs1 r2
         (ct.tag = false → faults .capTag sealing)
         ∧ (c.tag = true → ct.tag = true → ct.otype ≠ 0 → faults .capSeal sealing)
         ∧ (c.tag = true → ct.tag = true → c.otype = 0 → ct.otype = 0 →
             (ct.has permSEAL = false → faults .capPerm sealing)
             ∧ (ct.has permSEAL = true → a < ct.base ∨ ct.top ≤ a → faults .capBounds sealing)
             ∧ (ct.has permSEAL = true → ct.base ≤ a → a < ct.top → ¬(a = 0x10 ∨ a = 0x20 ∨ a = 0x21 ∨ (0x100 ≤ a ∧ a ≤ 0xEFFF)) →
                 faults .capSeal sealing))))

/-- Chapter 04, R197, R198: the register comparisons and the predicate logic; p0 takes no write (R176). PRD reads p0 to p7 and PWR writes p1
to p7.

Chapter 04, R119: a predicate field with a bit above [2:0] set, and a d-register field with its top bit set, are ILLEGAL, with the
instruction word in ETVAL. -/
def Obligations.PredicateResults : Prop :=
  (∀ (s : State) (x : Exec) (b : BankNo) (B : Bench) (p p1 p2 : Fin 8) (r1 r2 rd : Reg) (imm : BitVec 11) (neg : Bool),
      (s.bench x.bench).begins x = some (b, B) →
      let k := B.bank x.core b
      let f (p : Fin 8) : Reg := p.castLE (by decide)
      let v := k.getX r1
      let w := k.getX r2
      let i := imm.signExtend 32
      let c1 := k.getC r1
      let c2 := k.getC r2
      let gives (i : Instr) (r : Bool) : Prop := exec i s = s.writesP x b B p r
      gives (.cmpEq x (f p) r1 r2) (decide (v = w)) ∧ gives (.cmpNe x (f p) r1 r2) (decide (v ≠ w))
      ∧ gives (.cmpLt x (f p) r1 r2) (decide (v.toInt < w.toInt)) ∧ gives (.cmpLtu x (f p) r1 r2) (decide (v.toNat < w.toNat))
      ∧ gives (.cmpGe x (f p) r1 r2) (decide (w.toInt ≤ v.toInt)) ∧ gives (.cmpGeu x (f p) r1 r2) (decide (w.toNat ≤ v.toNat))
      ∧ gives (.cmpTst x (f p) r1 r2) (decide (v &&& w ≠ 0)) ∧ gives (.cmpTstz x (f p) r1 r2) (decide (v &&& w = 0))
      ∧ gives (.cmpeqi x (f p) r1 imm) (decide (v = i)) ∧ gives (.cmplti x (f p) r1 imm) (decide (v.toInt < i.toInt))
      ∧ gives (.cmpltui x (f p) r1 imm) (decide (v.toNat < i.toNat))
      ∧ gives (.predicateAnd x neg (f p) (f p1) (f p2)) (neg ^^ (k.getP p1 && k.getP p2))
      ∧ gives (.predicateOr x neg (f p) (f p1) (f p2)) (neg ^^ (k.getP p1 || k.getP p2))
      ∧ gives (.predicateXor x neg (f p) (f p1) (f p2)) (neg ^^ (k.getP p1 ^^ k.getP p2))
      ∧ gives (.predicateAndNot x neg (f p) (f p1) (f p2)) (neg ^^ (k.getP p1 && !k.getP p2))
      ∧ gives (.pset x (f p)) true ∧ gives (.pclr x (f p)) false
      ∧ gives (.ceqx x (f p) r1 r2) (decide (c1 = c2))
      ∧ gives (.ctsub x (f p) r1 r2) (decide (c1.tag = true ∧ c2.tag = true ∧ c1.base ≤ c2.base ∧ c2.top ≤ c1.top
          ∧ ∀ n : Fin 16, c2.has n.val = true → c1.has n.val = true))
      ∧ (∃ r, exec (.prd x rd) s = s.writesX x b B rd r ∧ (∀ n : Fin 8, r.getLsbD n.val = k.getP n) ∧ r.toNat < 256)
      ∧ (∃ t, exec (.pwr x r1) s = s.gives x.bench (B.completes x.core b fun _ => t)
          ∧ (∀ n : Fin 8, t.getP n = if n = 0 then true else v.getLsbD n.val) ∧ t = { k with p := t.p }))
  ∧ (∀ (s : State) (x : Exec) (b : BankNo) (B : Bench) (r r1 r2 : Reg), (s.bench x.bench).begins x = some (b, B) →
      let illegal (i : Instr) (w : Word) : Prop :=
        exec i s = s.gives x.bench (B.takeTrap x.core b { cause := .illegal, etval := w.zeroExtend 64 })
      (8 ≤ r.val → illegal (.cmpEq x r r1 r2) (encR x.guard 0x38 r.val r1.val r2.val 0) ∧ illegal (.pset x r) (encR x.guard 0x3C r.val 0 0 8))
      ∧ (16 ≤ r.val → illegal (.dmov x r r1) (encR x.guard 0x78 r.val r1.val 0 0x3F)))

/-- Chapter 04, R193 to R196, with R82 and R96: the jumps. The next instruction address is the one after the jump; JAL, JALR and ENTER seal it
as a return gate in c1, and where LAST_ENFORCE is set also push it on the Last (stated apart).

Chapter 05, R232, R235, R236: ENTER and RETE where the Last is not enforced, and ERET outside an escalation. -/
def Obligations.JumpsEntriesAndReturns : Prop :=
  (∀ (s : State) (x : Exec) (b : BankNo) (B : Bench) (off : BitVec 21) (cs1 : Reg), (s.bench x.bench).begins x = some (b, B) →
      let k := B.bank x.core b
      let c := k.getC cs1
      let target := k.pcc.cursor + off.signExtend 64 * 4
      let gate := (k.pcc.withCursor (k.pcc.cursor + 4)).withOtype 0x0002
      let goes (i : Instr) (f : Bank → Bank) (pc : Cap) : Prop := exec i s = s.gives x.bench ((B.modBank x.core b f).retire x.core b (some pc))
      let linked : Bank → Bank := fun t => t.setC 1 gate
      (k.pcc.base ≤ target.toNat ∧ target.toNat + 4 ≤ k.pcc.top →
        goes (.j x off) id (k.pcc.withCursor target)
        ∧ (B.ctl.lastEnforce = false → goes (.jal x off) linked (k.pcc.withCursor target)))
      ∧ (target.toNat < k.pcc.base ∨ k.pcc.top < target.toNat + 4 → ∀ i, i = Instr.j x off ∨ i = Instr.jal x off →
          exec i s = s.gives x.bench (B.takeTrap x.core b { cause := .capBounds, etval := target }))
      ∧ (c.tag = true → (c.otype = 0 ∨ c.otype = 1) → c.cursor.toNat % 4 = 0 →
          goes (.jr x cs1) id (c.withOtype 0) ∧ (B.ctl.lastEnforce = false → goes (.jalr x cs1) linked (c.withOtype 0)))
      ∧ (c.tag = true → c.otype = 2 → c.cursor.toNat % 4 = 0 → B.ctl.lastEnforce = false → goes (.ret x cs1) id (c.withOtype 0)))
  ∧ (∀ (s : State) (x : Exec) (b : BankNo) (B : Bench) (n : Fin 8), (s.bench x.bench).begins x = some (b, B) →
      let k := B.bank x.core b
      let e := k.entry[n]
      let csp := k.entryCsp[n]
      let c1 := k.getC 1
      let c2 := k.getC 2
      let c30 := k.getC 30
      let gate := (k.pcc.withCursor (k.pcc.cursor + 4)).withOtype 0x0002
      let goes (i : Instr) (f : Bank → Bank) (pc : Cap) : Prop := exec i s = s.gives x.bench ((B.modBank x.core b f).retire x.core b (some pc))
      (B.ctl.lastEnforce = false → e.tag = true → e.otype = 1 → e.cursor.toNat % 4 = 0 → csp.tag = true → csp.otype = 0 →
        csp.cursor.toNat % 16 = 0 →
        goes (.enter x n) (fun t => ((t.setC 1 gate).setC 30 (if c2.tag then c2.withOtype 2 else c2)).setC 2 csp) (e.withOtype 0))
      ∧ (B.ctl.lastEnforce = false → c1.tag = true → c1.otype = 2 → c1.cursor.toNat % 4 = 0 → (c30.tag = false ∨ c30.otype = 2) →
        goes (.rete x) (fun t => ((t.setC 2 (if c30.tag then c30.withOtype 0 else c30)).setC 1 Cap.null).setC 30 Cap.null) (c1.withOtype 0))
      ∧ (k.pcc.has permSYS = true → (B.core x.core).escActive = false → k.epcc.tag = true → (k.epcc.otype = 0 ∨ k.epcc.otype = 1) →
        k.epcc.cursor.toNat % 4 = 0 →
        goes (.eret x) (fun t => { t with rcv := k.estat.getLsbD 1, estat := k.estat &&& 0xFFFFFFFC }) (k.epcc.withOtype 0)))

/-- Chapter 05, R245: what the Last does where it is enforced. A call pushes the next instruction's address 8 bytes below the Last's cursor,
with translation on or off; a Last without room faults SHADOW_OVERFLOW and c1 is unchanged; a return compares the word at the cursor with
its target and faults SHADOW_MISMATCH where they differ. -/
def Obligations.LastResults : Prop :=
  ∀ (s : State) (x : Exec) (b : BankNo) (B : Bench) (cs1 : Reg), (s.bench x.bench).begins x = some (b, B) → B.ctl.lastEnforce = true →
    let k := B.bank x.core b
    let c := k.getC cs1
    let l := k.last
    let faults (i : Instr) (cause : Cause) (v : Dword) : Prop :=
      exec i s = s.gives x.bench (B.takeTrap x.core b { cause := cause, etval := v })
    c.tag = true → c.cursor.toNat % 4 = 0 →
    ((c.otype = 0 ∨ c.otype = 1) → l.tag = false → faults (.jalr x cs1) .shadowOverflow 0)
    ∧ ((c.otype = 0 ∨ c.otype = 1) → l.tag = true → l.cursor.toNat < l.base + 8 → faults (.jalr x cs1) .shadowOverflow l.cursor)
    ∧ (c.otype = 2 → l.tag = false → faults (.ret x cs1) .shadowUnderflow 0)
    ∧ (c.otype = 2 → l.tag = true → l.top < l.cursor.toNat + 8 → faults (.ret x cs1) .shadowUnderflow l.cursor)
    ∧ (c.otype = 2 → l.tag = true → l.cursor.toNat + 8 ≤ l.top → B.plainMemory x.core b l.cursor.toNat 8 .r →
        (leNat (B.mem.read l.cursor.toNat 8) ≠ c.cursor.toNat → faults (.ret x cs1) .shadowMismatch c.cursor)
        ∧ (leNat (B.mem.read l.cursor.toNat 8) = c.cursor.toNat →
            exec (.ret x cs1) s = s.gives x.bench ((B.modBank x.core b fun t => { t with last := l.withCursor (l.cursor + 8) }).retire x.core b
              (some (c.withOtype 0)))))
    ∧ ((c.otype = 0 ∨ c.otype = 1) → l.tag = true → l.base + 8 ≤ l.cursor.toNat → B.mem.wf = true →
        B.plainMemory x.core b (l.cursor - 8).toNat 8 .w →
        ∃ m, B.mem.storedAt m (l.cursor - 8).toNat (leBytes 8 (k.pcc.cursor + 4).toNat)
          ∧ exec (.jalr x cs1) s = s.gives x.bench (((B.withMem m).modBank x.core b fun t =>
              { t with last := l.withCursor (l.cursor - 8) }.setC 1 ((k.pcc.withCursor (k.pcc.cursor + 4)).withOtype 0x0002)).retire x.core b
              (some (c.withOtype 0))))

/-- Chapter 04, R200 to R202: SYSRD. Numbers 0x000 to 0x004 need no SYS, every other one does; a number the table does not list is ILLEGAL.
CYCLE advances by a free number of cycles in this model (log 9), so its clause says only that one number is read in halves.

Chapter 04, R200, R202 with R221 to R223, R320: SYSWR with SYS on PCC: the writable bits take the value, the reserved and read-only ones
stay (R12); a write of a read-only register has no effect; a SYSWR of ETVAL clears its upper half. -/
def Obligations.SystemRegisters : Prop :=
  (∀ (s : State) (x : Exec) (b : BankNo) (B : Bench) (rd : Reg), (s.bench x.bench).begins x = some (b, B) →
      let c := B.core x.core
      let k := B.bank x.core b
      let reads (n : BitVec 11) (v : Word) : Prop := exec (.sysrd x rd n) s = s.writesX x b B rd v
      reads 0x000 (B.origin x.core b)
      ∧ (∃ now : Dword, let C := { B.modCore x.core (fun c => { c with cycle := now }) with freeCtr := B.freeCtr + 2 }
          exec (.sysrd x rd 0x001) s = s.writesX x b C rd (now.extractLsb' 0 32) ∧ exec (.sysrd x rd 0x002) s = s.writesX x b C rd (now.extractLsb' 32 32))
      ∧ reads 0x003 (k.instret.extractLsb' 0 32) ∧ reads 0x004 (k.instret.extractLsb' 32 32)
      ∧ (k.pcc.has permSYS = true →
          reads 0x010 k.ecause ∧ reads 0x011 (k.etval.extractLsb' 0 32) ∧ reads 0x012 k.estat ∧ reads 0x013 c.escCause
          ∧ reads 0x014 (if c.escLock then 1 else 0) ∧ reads 0x015 (0#20 ++ B.ctl.holdLimit)
          ∧ reads 0x016 (BitVec.ofNat 32 (B.ctl.nxEnforce.toNat + 2 * B.ctl.lastEnforce.toNat))
          ∧ reads 0x020 k.atp ∧ reads 0x021 k.atpRoot ∧ reads 0x030 (BitVec.ofNat 32 c.bankwin.val) ∧ reads 0x031 (BitVec.ofNat 32 b.val))
      ∧ (k.pcc.has permSYS = false → ∀ n : BitVec 11, xSysListed n.toNat = true → 4 < n.toNat →
          exec (.sysrd x rd n) s = s.gives x.bench (B.takeTrap x.core b
            { cause := .capPerm, etval := (encI x.guard 0x40 rd.val 0 n).zeroExtend 64 }))
      ∧ (∀ n : BitVec 11, xSysListed n.toNat = false →
          exec (.sysrd x rd n) s = s.gives x.bench (B.takeTrap x.core b
            { cause := .illegal, etval := (encI x.guard 0x40 rd.val 0 n).zeroExtend 64 })))
  ∧ (∀ (s : State) (x : Exec) (b : BankNo) (B : Bench) (rd : Reg), (s.bench x.bench).begins x = some (b, B) →
      (B.bank x.core b).pcc.has permSYS = true →
      let v := (B.bank x.core b).getX rd
      let writes (n : BitVec 11) (f : Bank → Bank) : Prop := exec (.syswr x rd n) s = s.gives x.bench (B.completes x.core b f)
      writes 0x010 (fun k => { k with ecause := v &&& 0x00FFDFFF }) ∧ writes 0x011 (fun k => { k with etval := 0#32 ++ v })
      ∧ writes 0x012 (fun k => { k with estat := (k.estat &&& 4) ||| (v &&& 3) }) ∧ writes 0x020 (fun k => { k with atp := v &&& 0x3FFFF })
      ∧ writes 0x021 (fun k => { k with atpRoot := v &&& 0xFFFFFFF })
      ∧ exec (.syswr x rd 0x030) s = s.gives x.bench ((B.modCore x.core fun c => { c with bankwin := Fin.ofNat 8 v.toNat }).completes x.core b id)
      ∧ (∀ n : BitVec 11, n.toNat ≤ 4 ∨ n = 0x013 ∨ n = 0x015 ∨ n = 0x016 ∨ n = 0x031 → writes n id))

/-- Chapter 04, R200, R202 with R238, R244, R257 to R260, R292: CSYSRD and CSYSWR with SYS on PCC. ESC_PCC and ESC_CSP take a value only while
LOCK is 0, and only one that passes its checks, and SAEMERG takes one write.

Chapter 05, R257, R261 and chapter 06, R297: a write of 1 to ESC_LOCK over valid ESC_PCC and ESC_CSP locks them; over a value that does
not pass R258 or R259 it raises EV_ESC_LOCK_REFUSED (event 1010) and does not count as the single write; a second write has no effect. -/
def Obligations.CapabilitySystemRegisters : Prop :=
  (∀ (s : State) (x : Exec) (b : BankNo) (B : Bench) (cd : Reg) (i : Fin 8), (s.bench x.bench).begins x = some (b, B) →
      (B.bank x.core b).pcc.has permSYS = true →
      let c := B.core x.core
      let k := B.bank x.core b
      let v := k.getC cd
      let reads (n : BitVec 11) (r : Cap) : Prop := exec (.csysrd x cd n) s = s.writesC x b B cd r
      let writes (n : BitVec 11) (f : Bank → Bank) : Prop := exec (.csyswr x cd n) s = s.gives x.bench (B.completes x.core b f)
      let writesCore (n : BitVec 11) (f : Core → Core) : Prop := exec (.csyswr x cd n) s = s.gives x.bench ((B.modCore x.core f).completes x.core b id)
      let e : BitVec 11 := BitVec.ofNat 11 (0x410 + 2 * i.val)
      reads 0x400 k.trapEntry ∧ reads 0x401 k.epcc ∧ reads 0x402 c.escPcc ∧ reads 0x403 c.escCsp ∧ reads 0x408 c.safree
      ∧ reads 0x409 k.sachain ∧ reads 0x40A c.saemerg ∧ reads 0x40B k.last ∧ reads e k.entry[i] ∧ reads (e + 1) k.entryCsp[i]
      ∧ writes 0x400 (fun k => { k with trapEntry := v }) ∧ writes 0x401 (fun k => { k with epcc := v })
      ∧ writes 0x409 (fun k => { k with sachain := v }) ∧ writesCore 0x408 (fun c => { c with safree := v })
      ∧ writes e (fun k => { k with entry := k.entry.set i v }) ∧ writes (e + 1) (fun k => { k with entryCsp := k.entryCsp.set i v })
      ∧ (c.saemergWritten = false → writesCore 0x40A (fun c => { c with saemerg := v, saemergWritten := true }))
      ∧ (c.saemergWritten = true → writes 0x40A id)
      ∧ (c.escLock = true → writes 0x402 id ∧ writes 0x403 id)
      ∧ (c.escLock = false → v.tag = true → v.otype = 0 → v.cursor.toNat % 4 = 0 → v.base ≤ v.cursor.toNat → v.cursor.toNat + 4 ≤ v.top →
          0x1000000000 ≤ v.base → v.top ≤ 0x1001000000 → v.hasAll [permLD, permEX, permSYS, permBANK] = true →
          writesCore 0x402 (fun c => { c with escPcc := v }))
      ∧ (c.escLock = false → v.tag = true → v.otype = 0 → v.cursor.toNat % 16 = 0 → v.base + 512 ≤ v.cursor.toNat → v.cursor.toNat ≤ v.top →
          0x1000000000 ≤ v.base → v.top ≤ 0x1001000000 → v.hasAll [permLD, permST, permLDC, permSTC] = true → v.has permGL = false →
          writesCore 0x403 (fun c => { c with escCsp := v }))
      ∧ (v.tag = false ∨ (v.otype = 0x0010 ∧ v.hasAll [permLD, permST] = true ∧ v.cursor.toNat % 8 = 0 ∧ v.base ≤ v.cursor.toNat
          ∧ v.cursor.toNat ≤ v.top) → writes 0x40B (fun k => { k with last := v }))
      ∧ (c.escLock = false → v.tag = false → ∀ n : BitVec 11, n = 0x402 ∨ n = 0x403 →
          exec (.csyswr x cd n) s = s.gives x.bench (B.takeTrap x.core b
            { cause := .capTag, etval := (encI x.guard 0x43 cd.val 0 n).zeroExtend 64 })))
  ∧ (∀ (s : State) (x : Exec) (b : BankNo) (B : Bench) (rd : Reg), (s.bench x.bench).begins x = some (b, B) →
      (B.bank x.core b).pcc.has permSYS = true →
      let c := B.core x.core
      let v := (B.bank x.core b).getX rd
      let valid : Prop := escPccCheck c.escPcc = .ok () ∧ escCspCheck c.escCsp = .ok ()
      let both (B' : Bench) : Prop := ∀ i, i = Instr.escLockWrite x rd ∨ i = Instr.syswr x rd 0x014 →
        exec i s = s.gives x.bench (B'.completes x.core b id)
      let locked := B.setCore x.core { c with escLock := true, escLockWritten := true }
      (c.escLockWritten = true → both B)
      ∧ (c.escLockWritten = false → v.getLsbD 0 = true → valid → x.core ≠ bsc → both locked)
      ∧ (c.escLockWritten = false → v.getLsbD 0 = true → valid → x.core = bsc → both locked.startHomeTasks)
      ∧ (c.escLockWritten = false → v.getLsbD 0 = true → ¬valid → both (B.raise 1010)))

/-- Chapter 04, R203, R204 and chapter 07, R349 to R352: the fences and the invalidations. The orders of FENCE and FENCE.I hold of themselves
in this machine, which performs one access at a time (log 8). A local TLBI removes the matching entries of its core; a broadcast is
accepted and completes later. FENCE.T waits while a broadcast of its own strand is not complete.

Chapter 07, R351 to R353, R355: the oldest broadcast is performed: no core that runs and not the ETU keeps a matching entry, and a stopped
core is to remove every entry before it next executes. It completes, and TLB.BCAST counts it, saturating, unless a job still holds the
place of an output that was translated before. -/
def Obligations.FencesAndBroadcasts : Prop :=
  (∀ (s : State) (x : Exec) (b : BankNo) (B : Bench) (pred succ : BitVec 3) (r1 r2 : Reg), (s.bench x.bench).begins x = some (b, B) →
      let k := B.bank x.core b
      let lo := k.getX r1
      let hi := k.getX r2
      let page := (hi.extractLsb' 0 13 ++ lo).toNat
      let completes (i : Instr) (B' : Bench) : Prop := exec i s = s.gives x.bench (B'.completes x.core b id)
      let scopes : List (Bool → Instr) × List InvScope :=
        ([(.tlbiAll x ·), (.tlbiAsid x · r1), (.tlbiVa x · r1 r2), (.tlbiVaAsid x · r1 r2)],
         [.all, .asid (lo.extractLsb' 0 16).toNat, .va page, .vaAsid page (hi.extractLsb' 16 16).toNat])
      completes (.fence x pred succ) B ∧ completes (.fenceI x) B
      ∧ ((∀ p ∈ (s.bench x.bench).trans.pending, ¬(p.core = x.core ∧ p.bank = b)) → completes (.fenceT x) B)
      ∧ ((∃ p ∈ (s.bench x.bench).trans.pending, p.core = x.core ∧ p.bank = b) → exec (.fenceT x) s = .next s)
      ∧ (k.pcc.has permSYS = true → ∀ e ∈ scopes.1.zip scopes.2,
          completes (e.1 false) (B.modCore x.core fun c =>
            { c with itlb := invalidate e.2 c.itlb, dtlb := invalidate e.2 c.dtlb, tlb := invalidate e.2 c.tlb })
          ∧ completes (e.1 true) { B with trans := { B.trans with
              pending := B.trans.pending ++ [{ core := x.core, bank := b, scope := e.2 }] } }))
  ∧ (∀ (s : State) (n : BenchNo) (p : Broadcast) (rest : List Broadcast), (s.bench n).trans.pending = p :: rest →
      let held := (s.bench n).etuInFlight
      ∃ B, exec (.tlbiBCompletion n) s = s.gives n B ∧ B.trans.pending = (if held then p :: rest else rest)
        ∧ B.trans.etuTlb = (s.bench n).trans.etuTlb.filter (fun e => !e.invalidated p.scope)
        ∧ B.trans.bcast.toNat = (if held then (s.bench n).trans.bcast.toNat else min ((s.bench n).trans.bcast.toNat + 1) 0xFFFF)
        ∧ (∀ k, (B.core k).tlbFlushDue = true
            ∨ ∀ e ∈ (B.core k).itlb ++ (B.core k).dtlb ++ (B.core k).tlb, e.invalidated p.scope = false)
        ∧ (∀ k, ((s.bench n).core k).clockStopped = true → (B.core k).tlbFlushDue = true)
        ∧ B = { s.bench n with cores := B.cores, trans := B.trans })

/-- Chapter 04, R205, R209 and chapter 05, R249 to R251: the holds and the software events.

Chapter 05, R252: a hold whose count reaches zero ends, sets the core's bit of BENCH.HOLDEXP, counts in BENCH.HOLDEXP.COUNT and raises
EV_HOLD_EXPIRED; while the island's clock is stopped the count does not move.

Chapter 04, R209 with R296 and R307: WAIT and YIELD outside a trap. The core gives up its strand: the task waits, or stays READY where its
WAKE bit is set or a TRAP-bound occurrence for it is pending (WAKE then clears); YIELD leaves it READY; a stop that is due makes it
STOPPED, and its TRAP-bound occurrences are dropped (R307). Within a trap both are ILLEGAL. -/
def Obligations.HoldsWaitsAndEvents : Prop :=
  (∀ (s : State) (x : Exec) (b : BankNo) (B : Bench) (n : BitVec 12) (e : BitVec 6), (s.bench x.bench).begins x = some (b, B) →
      let completes (i : Instr) (B' : Bench) : Prop := exec i s = s.gives x.bench (B'.completes x.core b id)
      let sys := (B.bank x.core b).pcc.has permSYS
      (sys = true → n.toNat ≤ B.ctl.holdLimit.toNat → n ≠ 0 → (B.core x.core).hold = none →
        completes (.hold x n) (B.modCore x.core fun c => { c with hold := some n.toNat }))
      ∧ (sys = true → n.toNat ≤ B.ctl.holdLimit.toNat → n = 0 ∨ (B.core x.core).hold ≠ none → completes (.hold x n) B)
      ∧ (sys = true → B.ctl.holdLimit.toNat < n.toNat → exec (.hold x n) s = s.gives x.bench (B.takeTrap x.core b
          { cause := .illegal, etval := (encU x.guard 0x46 0 (BitVec.ofNat 16 n.toNat)).zeroExtend 64 }))
      ∧ (sys = true → completes (.release x) (B.modCore x.core fun c => { c with hold := none }))
      ∧ completes (.sev x e) (B.raise (704 + e.toNat))
      ∧ (sys = false → ∀ i, i = Instr.hold x n ∨ i = Instr.release x → ∃ w, exec i s = s.gives x.bench (B.takeTrap x.core b { cause := .capPerm, etval := w })))
  ∧ (∀ (s : State) (n : BenchNo) (k : CoreNo), ((s.bench n).core k).hold ≠ none →
      let B := s.bench n
      (((s.bench n).core k).clockStopped = true → exec (.holdExpiry n k) s = .next s)
      ∧ (((s.bench n).core k).clockStopped = false → ∃ m : BitVec 12, m.toNat = min (B.ctl.holdExpCount.toNat + 1) 0xFFF
          ∧ exec (.holdExpiry n k) s = s.gives n
              (Bench.raise { B.modCore k (fun c => { c with hold := none, holdExpired := true }) with ctl := { B.ctl with holdExpCount := m } } 1008)))
  ∧ (∀ (s : State) (x : Exec) (b : BankNo) (B : Bench) (t : Nat), (s.bench x.bench).begins x = some (b, B) →
      let k := B.bank x.core b
      let gone (i : Instr) (C : Bench) : Prop := exec i s = s.gives x.bench ((C.modCore x.core fun c => { c with cur := none }).completes x.core b id)
      let given (e : Task) : Bench := (B.modCore x.core fun c => { c with hold := none }).setTask t e
      let leaves (i : Instr) (e : Task) : Prop := gone i (given e)
      (k.inTrap = false → x.core ≠ bsc → k.task = some t →
        (∀ i, i = Instr.wait x ∨ i = Instr.yield x → (B.task t).stopDue = true →
            ∃ w, gone i ((given { B.task t with state := .stopped, stopDue := false, wake := w }).dropTraps t))
        ∧ ((B.task t).stopDue = false →
            leaves (.yield x) { B.task t with state := .ready }
            ∧ ((B.task t).wake = true ∨ B.trapPending t = true → leaves (.wait x) { B.task t with state := .ready, wake := false })
            ∧ ((B.task t).wake = false → B.trapPending t = false → leaves (.wait x) { B.task t with state := .waiting })))
      ∧ (k.inTrap = false → x.core = bsc →
          exec (.wait x) s = s.gives x.bench ((B.modCore bsc fun c => { c with hold := none, waiting := true }).completes bsc b id)
          ∧ exec (.yield x) s = s.gives x.bench ((B.modCore bsc fun c => { c with hold := none }).completes bsc b id))
      ∧ (k.inTrap = true → ∀ i, i = Instr.wait x ∨ i = Instr.yield x → ∃ w, exec i s = s.gives x.bench (B.takeTrap x.core b { cause := .illegal, etval := w })))

/-- Chapter 04, R206: the bank-window forms between two banks: each moves one register, and nothing else of either bank changes. -/
def Obligations.BankWindowMoves : Prop :=
  ∀ (s : State) (x : Exec) (b w : BankNo) (B : Bench) (rd r1 : Reg) (d e : Fin 16), (s.bench x.bench).begins x = some (b, B) →
    let own := B.bank x.core b
    let win := B.bank x.core w
    let dr (d : Fin 16) : Reg := d.castLE (by decide)
    let own' (i : Instr) (f : Bank → Bank) : Prop := exec i s = s.gives x.bench (B.completes x.core b f)
    let win' (i : Instr) (f : Bank → Bank) : Prop := exec i s = s.gives x.bench ((B.setBank x.core w (f win)).completes x.core b id)
    own.pcc.has permSYS = true → own.pcc.has permBANK = true → (B.core x.core).bankwin = w → w ≠ b →
    (x.core = bsc → w = 0 ∨ w = 7) → (s.bench x.bench).windowWaits x.core b = false →
    own' (.brx x rd r1) (·.setX rd (win.getX r1)) ∧ own' (.brc x rd r1) (·.setC rd (win.getC r1))
    ∧ own' (.brd x (dr d) (dr e)) (·.setD d (win.getD e)) ∧ own' (.brpcc x rd) (·.setC rd win.pcc)
    ∧ own' (.brs x rd 0) (·.setX rd (win.predByte &&& 0xFE)) ∧ own' (.brs x rd 1) (·.setX rd win.rc)
    ∧ own' (.brs x rd 2) (·.setX rd (if win.rcv then 1 else 0)) ∧ own' (.brs x rd 3) (·.setX rd win.dcsr)
    ∧ win' (.bwx x rd r1) (·.setX rd (own.getX r1)) ∧ win' (.bwc x rd r1) (·.setC rd (own.getC r1))
    ∧ win' (.bwd x (dr d) (dr e)) (·.setD d (own.getD e)) ∧ win' (.bwpcc x r1) (fun k => { k with pcc := own.getC r1 })
    ∧ win' (.bws x 0 r1) (·.setPreds (own.getX r1)) ∧ win' (.bws x 1 r1) (fun k => { k with rc := own.getX r1 })
    ∧ win' (.bws x 2 r1) (fun k => { k with rcv := (own.getX r1).getLsbD 0 })
    ∧ win' (.bws x 3 r1) (fun k => { k with dcsr := dcsrWrite k.dcsr (own.getX r1) })

/-- Chapter 04, R208 and chapter 06, R289 to R294: SAVEL, SAVEU, LOADL and LOADU where their computation on the bank (`saveHalf`, `loadHalf`)
meets no fault; and the banks on which they are ILLEGAL. Where SAFREE, or else the free emergency area, names a save area in plain memory
(`Bench.canSave`), a save writes the chain, the header and the half there; where the chain names one that holds the half (`Bench.canLoad`),
a load takes the half back.

Chapter 06, R290 and R208: what a save writes of a bank is what a load restores: the half that LOADL or LOADU takes back from the granules
that SAVEL or SAVEU wrote is the half saved, every register of it, whatever the bank held before. -/
def Obligations.SaveAndLoad : Prop :=
  (∀ (s : State) (x : Exec) (b w : BankNo) (B B' : Bench), (s.bench x.bench).begins x = some (b, B) →
      let k := B.bank x.core b
      let org := B.origin x.core b
      k.pcc.has permSYS = true → k.pcc.has permBANK = true → (B.core x.core).bankwin = w → (s.bench x.bench).windowWaits x.core b = false →
      let completes (i : Instr) : Prop := exec i s = s.gives x.bench (B'.completes x.core b id)
      (w ≠ b → w ≠ 0 → (x.core = bsc → w = 7) →
        (saveHalf x.core w false org B = .ok () B' → completes (.savel x)) ∧ (saveHalf x.core w true org B = .ok () B' → completes (.saveu x))
        ∧ (loadHalf x.core w false org B = .ok () B' → completes (.loadl x)) ∧ (loadHalf x.core w true org B = .ok () B' → completes (.loadu x))
        ∧ (let saved (upper : Bool) (i : Instr) : Prop :=
             ∃ C, B.savesHalf x.core w upper C ∧ exec i s = s.gives x.bench (C.completes x.core b id)
           let loaded (upper : Bool) (i : Instr) : Prop :=
             ∃ C, B.loadsHalf x.core w upper C ∧ exec i s = s.gives x.bench (C.completes x.core b id)
           (B.canSave x.core → saved false (.savel x) ∧ saved true (.saveu x))
           ∧ (B.canLoad x.core w false → loaded false (.loadl x)) ∧ (B.canLoad x.core w true → loaded true (.loadu x))))
      ∧ (w = b ∨ w = 0 ∨ (x.core = bsc ∧ w ≠ 7) → ∀ i ∈ [Instr.savel x, .saveu x, .loadl x, .loadu x],
          ∃ e, exec i s = s.gives x.bench (B.takeTrap x.core b { cause := .illegal, etval := e })))
  ∧ (∀ (k t : Bank),
      (let r := t.restoreLower k.lowerHalf
       (∀ i : Reg, i.val < 16 → r.getX i = k.getX i ∧ r.getC i = k.getC i) ∧ (∀ i : Reg, 16 ≤ i.val → r.getX i = t.getX i ∧ r.getC i = t.getC i)
       ∧ (∀ i, r.getP i = k.getP i) ∧ r.pcc = k.pcc ∧ r.rc = k.rc ∧ r.rcv = k.rcv ∧ r.d = t.d ∧ r.dcsr = t.dcsr)
      ∧ (let r := t.restoreUpper k.upperHalf
         (∀ i : Reg, 16 ≤ i.val → r.getX i = k.getX i ∧ r.getC i = k.getC i) ∧ (∀ i : Reg, i.val < 16 → r.getX i = t.getX i ∧ r.getC i = t.getC i)
         ∧ r.d = k.d ∧ (k.dcsr &&& 0xE0E0E0F8 = 0 → k.dcsr.toNat % 8 < 5 → r.dcsr = k.dcsr)
         ∧ r.p = t.p ∧ r.pcc = t.pcc ∧ r.rc = t.rc ∧ r.rcv = t.rcv))

/-- Chapter 03, R130 to R132, R135, R138: the repeat prefixes over MAC. REP runs count + 1 iterations; where RCV is 1 it takes the iterations
still to go from RC. REPI runs x[rs1] iterations where no interruption is pending. PCC passes both words, RC and RCV are 0, and the prefix
with its instruction counts as one in INSTRET. A false guard leaves the registers as they are; a word that is not eligible makes the
prefix ILLEGAL with that word in ETVAL.

Chapter 03, R133: where an iteration of REP or REPI faults, the iterations before it stand and the trap is taken with RC holding the
iterations not yet completed, the faulting one included, and RCV 1 (so that ESTAT.RCV is 1, R134); EPCC addresses the prefix. Stated for
the first iteration of a byte store whose capability is untagged. -/
def Obligations.RepeatPrefixes : Prop :=
  (∀ (s : State) (n : BenchNo) (k : CoreNo) (b : BankNo) (B : Bench) (count : BitVec 6) (rs1 rd r1 r2 : Reg) (g : Guard) (w : Word),
      (s.bench n).beginsPrefix k = some (b, B) →
      let own := B.bank k b
      let mac := encR g 0x08 rd.val r1.val r2.val 0
      let done (i : Instr) (n' : Nat) : Prop :=
        exec i s = s.gives n ((B.modBank k b fun t =>
          { t.setX rd (if g.holds own then own.getX rd + BitVec.ofNat 32 n' * (own.getX r1 * own.getX r2) else own.getX rd) with rc := 0, rcv := false }).retire
            k b (some (own.pcc.withCursor (own.pcc.cursor + 8))))
      (rd ≠ r1 → rd ≠ r2 →
        (own.rcv = false → done (.rep n k count mac) (count.toNat + 1))
        ∧ (own.rcv = true → done (.rep n k count mac) own.rc.toNat)
        ∧ (own.rcv = false → B.eventDue k = none → B.switchDue k = false → done (.repi n k rs1 mac) (own.getX rs1).toNat))
      ∧ (wRepeat w = none → ∀ i, i = Instr.rep n k count w ∨ i = Instr.repi n k rs1 w →
          exec i s = s.gives n (B.takeTrap k b { cause := .illegal, etval := w.zeroExtend 64 })))
  ∧ (∀ (s : State) (n : BenchNo) (k : CoreNo) (b : BankNo) (B : Bench) (count : BitVec 6) (rs2 cs1 : Reg) (g : Guard),
      (s.bench n).beginsPrefix k = some (b, B) →
      let own := B.bank k b
      own.rcv = false → g.holds own = true → (own.getC cs1).tag = false →
      exec (.rep n k count (encR g 0x1C 0 cs1.val rs2.val 8)) s
        = s.gives n ((B.modBank k b fun t => { t with rc := BitVec.ofNat 32 (count.toNat + 1), rcv := true }).takeTrap k b
            { cause := .capTag, etval := (own.getC cs1).cursor }))

/-- Chapter 03, R123: a word that is no defined encoding takes the cause its major opcode gives: RESERVED_OP for 0x50 to 0x6F, COPROC_ABSENT
for 0x70 to 0x77 and 0x7C to 0x7F, ILLEGAL otherwise, with the word in ETVAL.

The prefix space and the eligible words: every eligible instruction's word, written from its encoding (R131, R183, R185, R187, R197), is
read back as that instruction with all its operands, under any guard. -/
def Obligations.EncodingSpace : Prop :=
  (∀ (s : State) (n : BenchNo) (k : CoreNo) (g : Guard) (b : BankNo) (B : Bench) (w : Word), wGuard w = some g →
      (s.bench n).begins { bench := n, core := k, guard := g } = some (b, B) → wordDefined w = false →
      let m := (w.extractLsb' 21 7).toNat
      let takes (c : Cause) : Prop := exec (.undefinedEncoding n k w) s = s.gives n (B.takeTrap k b { cause := c, etval := w.zeroExtend 64 })
      (0x50 ≤ m ∧ m ≤ 0x6F → takes .reservedOp) ∧ ((0x70 ≤ m ∧ m ≤ 0x77) ∨ 0x7C ≤ m → takes .coprocAbsent)
      ∧ (m < 0x50 ∨ (0x78 ≤ m ∧ m ≤ 0x7B) → takes .illegal))
  ∧ (∀ (g : Guard) (rd r1 r2 : Reg) (p : Fin 8) (d : Fin 16) (down : Bool) (poly : Fin 3),
      let dn (n : Nat) : Nat := (if down then 32 else 0) + n
      let word (major rd r1 r2 fn : Nat) := encR g major rd r1 r2 fn
      let is (w : Word) (f : RepForm) : Prop := wRepeat w = some (g, f)
      let dr : Reg := d.castLE (by decide)
      let pr : Reg := p.castLE (by decide)
      is (word 0x08 rd.val r1.val r2.val 0) (.mac rd r1 r2) ∧ is (word 0x08 rd.val r1.val r2.val 1) (.macbPi rd r1 r2)
      ∧ is (word 0x09 rd.val r1.val 0 poly.val) (.crcb poly rd r1) ∧ is (word 0x09 rd.val r1.val 0 (16 + poly.val)) (.crcw poly rd r1)
      ∧ is (word 0x09 rd.val r1.val 0 (32 + poly.val)) (.crcbPi poly rd r1)
      ∧ (∀ e ∈ [(0, LoadPi.lb), (1, .lbu), (2, .lh), (3, .lhu), (4, .lw)], is (word 0x1C rd.val r1.val 0 (dn e.1)) (.load e.2 down rd r1))
      ∧ (rd ≠ r1 → is (word 0x1C rd.val r1.val 0 (dn 5)) (.load .clc down rd r1))
      ∧ is (word 0x1C d.val r1.val 0 (dn 6)) (.load .dld down dr r1)
      ∧ (∀ e ∈ [(8, StorePi.sb), (9, .sh), (10, .sw), (11, .csc)], is (word 0x1C 0 r1.val r2.val (dn e.1)) (.store e.2 down r2 r1))
      ∧ is (word 0x1C 0 r1.val d.val (dn 12)) (.store .dst down dr r1)
      ∧ (∀ e ∈ [(0, FillSize.b), (1, .h), (2, .w), (3, .g)], is (word 0x1D 0 r1.val r2.val (dn e.1)) (.fill e.2 down r1 r2))
      ∧ (∀ e ∈ [(0, ByteCmp.eq), (1, .ne), (2, .ltu), (3, .geu)], is (word 0x3D p.val r1.val r2.val (dn e.1)) (.cmpb e.2 down pr r1 r2))
      ∧ is (word 0x79 0 r1.val r2.val 8) (.ckpush r1 r2) ∧ is (word 0x7A 0 r1.val 0 8) (.jpush r1))

/-- The decimal128 encoding (R161, R162): decoding the encoding of any finite datum of the format gives that datum back: sign, 34-digit
coefficient and exponent -6176 to 6111. -/
def Obligations.DecimalEncodingRoundTrip : Prop :=
  ∀ (neg : Bool) (c : Nat) (e : Int), c < 10 ^ 34 → -6176 ≤ e → e ≤ 6111 → Dec.decode (Dec.fin neg c e).encode = .fin neg c e

/-- Chapter 03, R162 and chapter 04, R210: exact decimal results with no trap enabled: a sum, difference or product that the format holds
exactly at the preferred exponent is written as such, and no flag changes.

Chapter 03, R163 to R165: every rounding, comparing and converting form of the decimal unit. Where no exception it raises is enabled, the
result of IEEE 754-2008 default handling is written (`decAdd` and its fellows) and the exceptions are ORed into FLAGS; otherwise no
register but DCSR.CAUSE changes and the instruction faults DECIMAL; a reserved rounding field is ILLEGAL.

Chapter 04, R211: the moves of the decimal unit, which raise no decimal exception. -/
def Obligations.DecimalFormsAndMoves : Prop :=
  (∀ (s : State) (x : Exec) (b : BankNo) (B : Bench) (rm : BitVec 3) (dd d1 d2 : Fin 16) (m n : Bool) (c d : Nat) (e f : Int),
      (s.bench x.bench).begins x = some (b, B) →
      let k := B.bank x.core b
      let r (d : Fin 16) : Reg := d.castLE (by decide)
      let writes (i : Instr) (v : Dec) : Prop := exec i s = s.gives x.bench (B.completes x.core b (·.setD dd v.encode))
      rm ≠ 5 → rm ≠ 6 → k.dcsr.extractLsb' 16 5 = 0 → Dec.decode (k.getD d1) = .fin m c e → Dec.decode (k.getD d2) = .fin n d f →
      (e = f → m = n → c + d < 10 ^ 34 → writes (.dadd x rm (r dd) (r d1) (r d2)) (.fin m (c + d) e))
      ∧ (e = f → m = n → d < c → writes (.dsub x rm (r dd) (r d1) (r d2)) (.fin m (c - d) e))
      ∧ (c * d < 10 ^ 34 → -6176 ≤ e + f → e + f ≤ 6111 → writes (.dmul x rm (r dd) (r d1) (r d2)) (.fin (m ^^ n) (c * d) (e + f))))
  ∧ (∀ (s : State) (x : Exec) (b : BankNo) (B : Bench) (rm : BitVec 3) (sc : BitVec 5) (dd d1 d2 : Fin 16) (pd : Fin 8) (pk : Fin 16),
      (s.bench x.bench).begins x = some (b, B) →
      let k := B.bank x.core b
      let r (d : Fin 16) : Reg := d.castLE (by decide)
      let a := k.getD d1
      let c := k.getD d2
      let mode : Nat := if rm = 7 then (k.dcsr.extractLsb' 0 3).toNat else rm.toNat
      let en := k.dcsr.extractLsb' 16 5
      let pair : Reg := ⟨2 * pk.val % 32, by omega⟩
      let rp : Reg := r dd
      let setPair (v : Dword) (t : Bank) : Bank := (t.setX pair (v.extractLsb' 0 32)).setX (pair + 1) (v.extractLsb' 32 32)
      let val : Dword := k.getX (pair + 1) ++ k.getX pair
      let does (i : Instr) (e : Exc) (f : Bank → Bank) : Prop :=
        (e.signals &&& en = 0 → exec i s = s.gives x.bench (B.completes x.core b fun t => { f t with dcsr := t.dcsr ||| (e.flags.zeroExtend 32 <<< 8) }))
        ∧ (e.signals &&& en ≠ 0 → ∃ w, exec i s = s.gives x.bench ((B.modBank x.core b fun t =>
            { t with dcsr := (t.dcsr &&& 0xE0FFFFFF) ||| (e.signals.zeroExtend 32 <<< 24) }).takeTrap x.core b { cause := .decimal, etval := w }))
      let sets (i : Instr) (v : Dec × Exc) : Prop := does i v.2 (·.setD dd v.1.encode)
      let pairs (i : Instr) (v : Dword × Exc) : Prop := pk.val ≠ 0 → does i v.2 (setPair v.1)
      let tests (i : Instr) (v : Bool × Exc) : Prop := does i v.2 (·.setP pd v.1)
      let pr : Reg := pd.castLE (by decide)
      (rm ≠ 5 → rm ≠ 6 →
        sets (.dadd x rm rp (r d1) (r d2)) (decAdd mode false a c) ∧ sets (.dsub x rm rp (r d1) (r d2)) (decAdd mode true a c)
        ∧ sets (.dmul x rm rp (r d1) (r d2)) (decMul mode a c) ∧ sets (.ddiv x rm rp (r d1) (r d2)) (decDiv mode a c)
        ∧ sets (.dqua x rm rp (r d1) (r d2)) (decQuantize mode a c)
        ∧ pairs (.dtfx x rm pair (r d1) sc) (decToFixed mode false a sc.toNat) ∧ pairs (.dtbcd x rm pair (r d1) sc) (decToBcd mode a sc.toNat))
      ∧ pairs (.dtfxe x pair (r d1) sc) (decToFixed 2 true a sc.toNat)
      ∧ tests (.dceq x pr (r d1) (r d2)) (decCompare (· == 0) false false a c) ∧ tests (.dclt x pr (r d1) (r d2)) (decCompare (· < 0) false true a c)
      ∧ tests (.dcle x pr (r d1) (r d2)) (decCompare (· ≤ 0) false true a c) ∧ tests (.dcun x pr (r d1) (r d2)) (decCompare (fun _ => false) true false a c)
      ∧ (pk.val ≠ 0 → sets (.dfbcd x rp pair sc) (decFromBcd val sc.toNat)
          ∧ exec (.dffx x rp pair sc) s = s.gives x.bench (B.completes x.core b
              (·.setD dd (Dec.fin val.msb val.toInt.natAbs (-(sc.toNat : Int))).encode)))
      ∧ ((rm = 5 ∨ rm = 6) → ∃ w, exec (.dadd x rm rp (r d1) (r d2)) s = s.gives x.bench (B.takeTrap x.core b { cause := .illegal, etval := w })))
  ∧ (∀ (s : State) (x : Exec) (b : BankNo) (B : Bench) (dd d1 : Fin 16) (rd : Reg) (i : Fin 4), (s.bench x.bench).begins x = some (b, B) →
      let k := B.bank x.core b
      let r (d : Fin 16) : Reg := d.castLE (by decide)
      let a := k.getD d1
      let v := k.getX rd
      let sets (i : Instr) (f : Bank → Bank) : Prop := exec i s = s.gives x.bench (B.completes x.core b f)
      sets (.dmov x (r dd) (r d1)) (·.setD dd a) ∧ sets (.dneg x (r dd) (r d1)) (·.setD dd (BitVec.ofBool (!a.msb) ++ a.extractLsb' 0 127))
      ∧ sets (.dabs x (r dd) (r d1)) (·.setD dd (0#1 ++ a.extractLsb' 0 127))
      ∧ exec (.dcsrr x rd) s = s.writesX x b B rd k.dcsr
      ∧ sets (.dcsrw x rd) (fun t => { t with dcsr := (v &&& 0x1F1F1F00) ||| (if (v &&& 7).toNat < 5 then v &&& 7 else t.dcsr &&& 7) })
      ∧ exec (.dmfx x rd (r d1) i) s = s.writesX x b B rd (a.extractLsb' (32 * i.val) 32)
      ∧ (∃ q, sets (.dmtx x (r dd) rd i) (·.setD dd q) ∧ ∀ j : Fin 4, q.extractLsb' (32 * j.val) 32 = if j = i then v else (k.getD dd).extractLsb' (32 * j.val) 32))

/-- Chapter 06, R307, R308, R310, R313, R315 and chapter 14, R740, R741: an occurrence of a source that is no event pin. It sets PENDING and
counts, saturating; what its binding then does with it; in NAP and OFF it stays pending, in OFF only where PWR.WAKE enables its group, and
an enabled one sets REQUESTED of PWR.STATE to RUN.

Chapter 06, R313, R318: the deliveries of one window of 1 ms reach the source's LIMIT and mask it; a write of 1 to MASKED unmasks it and
delivers what is pending; where bench time has left the window's millisecond every source's count of deliveries starts again.

Chapter 05, R226, R229 and chapter 06, R307, R309, R313: an event trap. PENDING of its source clears, the delivery counts, the bank takes
its trap state, a hold ends, and the core executes the bank; with TRAP_ENTRY unusable the core escalates. -/
def Obligations.EventsStormsAndTraps : Prop :=
  (∀ (s : State) (b : BenchNo) (n : Fin 1024) (lvl : Bool), (s.bench b).alive = true → (n.val < 768 ∨ 772 ≤ n.val) → (n.val < 964 ∨ 1008 ≤ n.val) →
      let B := s.bench b
      let e := B.ev n
      let P := B.setEv n { e with count := if e.count = 0xFFFF then e.count else e.count + 1, pending := true }
      let t := P.task (P.bindTask n)
      let live : Prop := t.state = .waiting ∨ t.state = .ready ∨ t.state = .running
      let now (P' : Bench) : Prop := exec (.eventOccurrence b n lvl) s = s.gives b P'
      let on : Prop := (P.ev n).pending = true ∧ (P.ev n).masked = false
      (B.asleep = false →
        (¬on → now P)
        ∧ (on → P.bindMode n = .none → now (P.clearPending n))
        ∧ (on → P.bindMode n = .wake → t.state = .waiting →
            now (((P.setTask (P.bindTask n) { t with state := .ready }).clearPending n).countDelivery n))
        ∧ (on → P.bindMode n = .wake → t.state = .ready ∨ t.state = .running →
            now (((P.setTask (P.bindTask n) { t with wake := true }).clearPending n).countDelivery n))
        ∧ (on → P.bindMode n = .wake ∨ P.bindMode n = .trap → ¬live → now (P.clearPending n))
        ∧ (on → P.bindMode n = .trap → t.state = .waiting → now (P.setTask (P.bindTask n) { t with state := .ready }))
        ∧ (on → P.bindMode n = .trap → t.state = .ready ∨ t.state = .running → now P)
        ∧ (on → P.bindMode n = .bsc → now P))
      ∧ (B.asleep = true → B.wakeOn n = true → B.pwr.requested ≠ 0 → now { P with pwr := { P.pwr with requested := 0, since := B.time.elapsed, passed := false } })
      ∧ (B.asleep = true → B.wakeOn n = true → B.pwr.requested = 0 → now P)
      ∧ (B.pwr.effective = 2 → B.wakeOn n = false → now P) ∧ (B.pwr.effective = 3 → B.wakeOn n = false → exec (.eventOccurrence b n lvl) s = .next s))
  ∧ ((∀ (B : Bench) (n : Nat), n < 1008 → 0 < B.bindLimit n →
        let e := B.ev n
        (e.window + 1 < B.bindLimit n → B.countDelivery n = B.setEv n { e with window := e.window + 1 })
        ∧ (B.bindLimit n ≤ e.window + 1 → ∃ c, B.countDelivery n =
            Bench.pend { (B.setEv n { e with window := e.window + 1, masked := true }) with sched :=
              { (B.setEv n { e with window := e.window + 1, masked := true }).sched with stormSource := BitVec.ofNat 10 n, stormCount := c } } 1013))
    ∧ (∀ (B : Bench) (n : Nat), 1008 ≤ n ∨ B.bindLimit n = 0 → B.countDelivery n = B)
    ∧ (∀ (s : State) (b : BenchNo) (w : Writer) (n : Fin 1024) (v : Half), (s.bench b).accessOk w (0x12000 + 4 * n) .w = true →
        let B := (s.bench b).idleExit
        let C := B.setEv n { B.ev n with count := v }
        exec (.evstatMaskedClear b w n v) s = s.gives b ((C.setEv n { C.ev n with masked := false }).deliver n))
    ∧ (∀ (s : State) (b : BenchNo), (s.bench b).alive = true → (s.bench b).tablesOk →
        let B := s.bench b
        (B.sched.stormMs ≠ B.time.ms → ∃ t, exec (.stormWindowRollover b) s = s.gives b { B with sched := { B.sched with stormMs := B.time.ms, evstat := t } }
          ∧ ∀ n, t.get EvStat.zero n = { B.ev n with window := 0 })
        ∧ (B.sched.stormMs = B.time.ms → exec (.stormWindowRollover b) s = .next s)))
  ∧ (∀ (s : State) (b : BenchNo) (k : CoreNo) (eb : BankNo) (n : Nat),
      let B := s.bench b
      B.eventDue k = some (eb, n) →
      let C := (B.clearPending n).countDelivery n
      let traps (i : Instr) (D : Bench) : Prop := exec i s = s.gives b
        (D.setCore k { (D.core k).setBank eb ((D.bank k eb).trappedBy n (D.core k).hold.isSome) with hold := none, waiting := false, cur := some eb })
      (k ≠ bsc → (B.executing k).isSome = true →
        (((B.core k).bank eb).trapUsable = true → traps (.eventTrapDelivery b k) { C with sched := { C.sched with lastTrap := n } })
        ∧ (((B.core k).bank eb).trapUsable = false → ∃ D : Bench, exec (.eventTrapDelivery b k) s = s.gives b (D.escalate k eb 0x30 1) ∧ D.core k = { B.core k with waiting := false }))
      ∧ (k = bsc → B.coresRun = true → (B.core k).halted = false → (B.core k).clockStopped = false → (B.core k).repBusy = none →
        ((B.core k).dbgHalted = false ∨ (B.core k).stepOne = true) →
        (((B.core k).bank eb).trapUsable = true → traps (.bscTrapDelivery b) { C with sched := { C.sched with lastBsc := n } })
        ∧ (((B.core k).bank eb).trapUsable = false → ∃ D : Bench, exec (.bscTrapDelivery b) s = s.gives b (D.escalate k eb 0x30 1) ∧ D.core k = { B.core k with waiting := false })))

/-- Chapter 06, R282, R296 and R316: the commands of SCHED.TCMD in each state of the task. START reads the task's TCB and makes it READY, or
FAULTED with the code of the check that failed; a command that does not apply counts in BADCMD. A task that is no longer live loses its
pending TRAP-bound occurrences (R307). -/
def Obligations.TaskCommands : Prop :=
  ∀ (s : State) (b : BenchNo) (w : Writer) (t : Fin 4096), (s.bench b).accessOk w 0x1000C .w = true →
    let B := (s.bench b).idleExit
    let k := B.task t
    let gives (i : Instr) (B' : Bench) : Prop := exec i s = s.gives b B'
    let bad (i : Instr) : Prop := ∃ m : BitVec 11, m.toNat = min (B.sched.badcmd.toNat + 1) 0x7FF ∧ gives i { B with sched := { B.sched with badcmd := m } }
    let start := Instr.taskStart b w t
    (k.state = .empty ∨ k.state = .stopped ∨ k.state = .faulted →
      (∀ c B', B.readTcb midBsc (B.origin bsc 7) t = (.ok c, B') → gives start (B'.setTask t { (B'.task t) with
        prio := c.prio, upper := c.upper, pin := c.pin, cores := c.cores, banks := c.banks, tcb := c.base, state := .ready, fault := 0 }))
      ∧ (∀ c B', B.readTcb midBsc (B.origin bsc 7) t = (.error c, B') →
          let F := (B'.setTask t { (B'.task t) with state := .faulted, fault := BitVec.ofNat 8 c, stopDue := false }).dropTraps t
          gives start (Bench.raise { F with sched := { F.sched with faultTask := BitVec.ofNat 12 t, faultCode := BitVec.ofNat 8 c } } 1014)))
    ∧ (k.state = .waiting ∨ k.state = .ready ∨ k.state = .running → bad start)
    ∧ (k.state = .waiting ∨ k.state = .ready → gives (.taskStop b w t) ((B.setTask t { k with state := .stopped }).dropTraps t))
    ∧ (k.state = .running → gives (.taskStop b w t) (B.setTask t { k with stopDue := true }))
    ∧ (k.state = .empty ∨ k.state = .stopped ∨ k.state = .faulted → bad (.taskStop b w t) ∧ bad (.taskWake b w t))
    ∧ (k.state = .waiting → gives (.taskWake b w t) (B.setTask t { k with state := .ready }))
    ∧ (k.state = .ready ∨ k.state = .running → gives (.taskWake b w t) (B.setTask t { k with wake := true }))
    ∧ (k.state = .stopped ∨ k.state = .faulted →
        (k.at? = none → gives (.taskFree b w t) ((B.setTask t Task.zero).dropTraps t))
        ∧ (∀ c e, k.at? = some (c, e) → gives (.taskFree b w t) (((B.modBank c e Bank.clearContext).setTask t Task.zero).dropTraps t)))
    ∧ (k.state = .empty ∨ k.state = .waiting ∨ k.state = .ready ∨ k.state = .running → bad (.taskFree b w t))
    ∧ (B.tablesOk → ∀ n, (B.dropTraps t).ev n = if B.bindMode n = .trap ∧ B.bindTask n = t.val ∧ (B.ev n).masked = false
        then { B.ev n with pending := false } else B.ev n)

/-- Chapter 06, R298 to R304: a strand switch. The bank that a core is given holds a READY task of the highest priority among the core's
resident ready tasks, above the running task's; the strand that leaves is READY, or STOPPED where STOP was due. A placement of a task
reserves a bank, and the load that follows puts the task's registers there. -/
def Obligations.PlacementAndSwitches : Prop :=
  ∀ (s : State) (b : BenchNo) (k : CoreNo),
    let B := s.bench b
    let runs (C : Bench) (d : BankNo) (t : Nat) : Bench :=
      (C.setTask t { C.task t with state := .running }).modCore k fun c => { c with cur := some d, lastBank := d.val }
    let leaves (t : Nat) (e : Task) : Bench := (B.setTask t e).modCore k fun c => { c with cur := none }
    let stops (t : Nat) : Bench := ((B.setTask t { B.task t with state := .stopped, stopDue := false }).dropTraps t).modCore k fun c => { c with cur := none }
    (B.coresRun = true → (B.core k).clockStopped = false → (B.core k).gated = false →
      (∀ d, B.switchTarget k = some d → ∃ t, (B.bank k d).task = some t ∧ (B.task t).state = .ready ∧ (B.task t).at? = some (k, d)
        ∧ (∀ d' t', (B.bank k d').task = some t' → (B.task t').state = .ready → (B.task t').at? = some (k, d') → B.mayRun k d' = true →
            (B.task t').prio.val ≤ (B.task t).prio.val)
        ∧ (∀ a t', (B.core k).cur = some a → (B.bank k a).task = some t' → (B.task t').state = .running → (B.task t').stopDue = false →
            (B.task t').prio.val < (B.task t).prio.val)
        ∧ ((B.core k).cur = none → exec (.strandSwitch b k) s = s.gives b (runs B d t))
        ∧ (∀ a t', (B.core k).cur = some a → (B.bank k a).task = some t' → (B.task t').state = .running → (B.task t').stopDue = false →
            exec (.strandSwitch b k) s = s.gives b (runs (leaves t' { B.task t' with state := .ready }) d t))
        ∧ (∀ a t', (B.core k).cur = some a → (B.bank k a).task = some t' → (B.task t').stopDue = true →
            exec (.strandSwitch b k) s = s.gives b (runs (stops t') d t)))
      ∧ (∀ a t', k ≠ bsc → (B.core k).switchAllowed = true → (B.core k).cur = some a → (B.bank k a).task = some t' → (B.task t').stopDue = true →
          B.switchTarget k = none → exec (.strandSwitch b k) s = s.gives b (stops t'))
      ∧ (B.switchDue k = false → exec (.strandSwitch b k) s = .next s))
    ∧ (B.memoryRuns = true → B.rst.firstFetch = true →
        (∀ t k' d C, B.placeNext = some (t, k', d) →
          (let P := { B with sched := { B.sched with lastTask := t, lastCore := if t < 16 then B.sched.lastCore else k'.val } }
           Bench.spill (if t < 16 then P else P.modCore k' fun c => { c with lastPlace := d.val }) k' d = (true, C)) →
          exec (.taskPlacement b) s = s.gives b (C.modCore k' fun c => { c with placing := some { task := t, bank := d } }))
        ∧ (∀ t k' d, B.placeNext = some (t, k', d) → (B.bank k' d).task = none →
            let P := { B with sched := { B.sched with lastTask := t, lastCore := if t < 16 then B.sched.lastCore else k'.val } }
            exec (.taskPlacement b) s = s.gives b (P.modCore k' fun c =>
              { c with placing := some { task := t, bank := d }, lastPlace := if t < 16 then c.lastPlace else d.val }))
        ∧ (B.placeNext = none → exec (.taskPlacement b) s = .next s))
    ∧ (B.memoryRuns = true → (B.core k).clockStopped = false →
        ((B.core k).hold = none → (B.core k).escActive = false → ∀ p, (B.core k).placing = some p →
          let C := B.modCore k fun c => { c with placing := none }
          ((C.task p.task).state = .ready → (C.bank k p.bank).task = none → ∀ tcb D E, C.readTcb (midCore k) (C.origin k p.bank) p.task = (.ok tcb, D) →
            loadHalves k p.bank tcb ((D.setTask p.task ((D.task p.task).withTcb tcb)).modBank k p.bank
              fun r => { r with sachain := tcb.chain, staging := [], pushes := 0 }) = .ok () E →
            (let F := E.modBank k p.bank fun r => { r with atp := tcb.atp, atpRoot := tcb.atpRoot, instret := 0, task := some p.task }
             exec (.taskLoad b k) s = s.gives b (F.setTask p.task { F.task p.task with at? := some (k, p.bank) })))
          ∧ ((C.task p.task).state = .ready → (C.bank k p.bank).task = none → C.rake.op ≠ some .sweep →
              let tab := C.sched.tcbTable + 16 * p.task
              let e := C.mem.capAt tab
              C.plainFor (midCore k) tab 16 .r → tcbEntryCheck e = none → C.plainFor (midCore k) e.base 48 .r → ∀ tcb,
              tcbOf p.task e.base (C.mem.capAt e.base) (C.mem.capAt (e.base + 16)) (C.mem.capAt (e.base + 32)) = .ok tcb →
              let D := (C.setTask p.task ((C.task p.task).withTcb tcb)).modBank k p.bank fun r => { r with sachain := tcb.chain, staging := [], pushes := 0 }
              let D' := D.modBank k p.bank Bank.clearUpper
              let loaded (E : Bench) : Prop :=
                let F := E.modBank k p.bank fun r => { r with atp := tcb.atp, atpRoot := tcb.atpRoot, instret := 0, task := some p.task }
                exec (.taskLoad b k) s = s.gives b (F.setTask p.task { F.task p.task with at? := some (k, p.bank) })
              (tcb.upper = false → D'.canLoad k p.bank false → ∃ E, D'.loadsHalf k p.bank false E ∧ loaded E)
              ∧ (tcb.upper = true → D.canLoad k p.bank true → (∀ E, D.loadsHalf k p.bank true E → E.canLoad k p.bank false) →
                  ∃ E E', D.loadsHalf k p.bank true E ∧ E.loadsHalf k p.bank false E' ∧ loaded E'))
          ∧ ((C.task p.task).state ≠ .ready → exec (.taskLoad b k) s = s.gives b C))
        ∧ ((B.core k).placing = none ∨ (B.core k).hold ≠ none ∨ (B.core k).escActive = true → exec (.taskLoad b k) s = .next s))

/-- Chapter 07, R360, R361, R363 and chapter 08, R376, R384 to R388: the shootdown register, the ETU's invalidation, and the exchange of the
filter's rule sets.

Chapter 08, R375, R376, R385: the check of a rule set finds none of its rules wrong exactly where every enabled rule's LIMIT is at or
above its BASE and no two enabled rules overlap. -/
def Obligations.TranslationAndFilter : Prop :=
  (∀ (s : State) (b : BenchNo) (w : Writer) (cores : Half) (scope : BitVec 2),
      let B := s.bench b
      let I := B.idleExit
      let t := I.trans
      let takes (off : Nat) (i : Instr) (B' : Bench) : Prop := B.accessOk w off .w = true → exec i s = s.gives b B'
      takes 0x40000 (.shootdownDoorbell b w cores)
          (((List.range 16).filter fun k => cores.getLsbD k).foldl (fun C k => C.raise (800 + k)) { I with trans := { t with shootdb := t.shootdb ||| cores } })
      ∧ takes 0x40004 (.shootdownAck b w cores) { I with trans := { t with shootdb := t.shootdb &&& ~~~cores } }
      ∧ (t.etuBusy = false → takes 0x40018 (.etuInvalidate b w scope) { I with trans := { t with
          etuBusy := true, etuScope := scope
          etuTlb := t.etuTlb.filter fun e => !e.invalidated (match scope.toNat with
            | 0 => .all
            | 1 => .asid (t.etuHi.extractLsb' 16 16).toNat
            | 2 => .va (t.etuHi.extractLsb' 0 13 ++ t.etuLo).toNat
            | _ => .vaAsid (t.etuHi.extractLsb' 0 13 ++ t.etuLo).toNat (t.etuHi.extractLsb' 16 16).toNat) } })
      ∧ (t.etuBusy = true → takes 0x40018 (.etuInvalidate b w scope) I)
      ∧ (B.memoryRuns = true →
          (B.etuInFlight = false → exec (.etuInvalidateDone b) s = s.gives b { B with trans := { B.trans with etuBusy := false } })
          ∧ (B.etuInFlight = true → exec (.etuInvalidateDone b) s = .next s))
      ∧ (w.mid = midBsc → I.maf.checking = false →
          (I.maf.drained = true → takes 0x20000 (.mafSwap b w) { I with maf := { I.maf with checking := true } })
          ∧ (I.maf.drained = false → takes 0x20000 (.mafSwap b w)
              (Bench.raise { I with maf := { I.maf with refused := true, reason := 3, ruleA := 0, ruleB := 0, checking := false } } 578)))
      ∧ (w.mid ≠ midBsc ∨ I.maf.checking = true → takes 0x20000 (.mafSwap b w) I)
      ∧ (∀ out, B.memoryRuns = true → B.maf.checking = true →
          (mafCheck B.maf.staged = none →
            let E := Bench.raise { B with maf := { B.maf with bank := !B.maf.bank, gen := B.maf.gen + 1, refused := false, checking := false
                                                              reason := 0, ruleA := 0, ruleB := 0, drained := !out } } 578
            exec (.mafSwapCheckEnd b out) s = s.gives b (if out then E else E.raise 579))
          ∧ (∀ r x y, mafCheck B.maf.staged = some (r, x, y) → exec (.mafSwapCheckEnd b out) s = s.gives b
              (Bench.raise { B with maf := { B.maf with refused := true, reason := BitVec.ofNat 2 r, ruleA := BitVec.ofNat 7 x
                                                        ruleB := BitVec.ofNat 7 y, checking := false } } 578)))
      ∧ (B.memoryRuns = true → B.maf.drained = false →
          exec (.mafDrainEnd b) s = s.gives b (Bench.raise { B with maf := { B.maf with drained := true } } 579)))
  ∧ (∀ t : Table MafRule, Table.wf MafRule.zero t = true →
      (mafCheck t = none ↔
        (∀ e ∈ t, e.2.en = true → e.2.base ≤ e.2.limit)
        ∧ (∀ e ∈ t, ∀ f ∈ t, e.1 ≠ f.1 → e.2.en = true → f.2.en = true →
            ¬∃ page mid, mid < 256 ∧ e.2.base ≤ page ∧ page ≤ e.2.limit ∧ f.2.base ≤ page ∧ page ≤ f.2.limit
              ∧ mid &&& e.2.midm = e.2.midv &&& e.2.midm ∧ mid &&& f.2.midm = f.2.midv &&& f.2.midm)))

/-- Chapter 02, R107 to R111 and chapter 08, R400 to R404, R412: the Rake's commands begin, abort and end, and the scrubber. The memory passes
are stated where memory holds no error. -/
def Obligations.RakeAndScrubber : Prop :=
  ∀ (s : State) (b : BenchNo) (w : Writer),
    let B := s.bench b
    let I := B.idleExit
    let takes (i : Instr) (P : Bench → Prop) : Prop := ∃ E, exec i s = s.gives b E ∧ P E
    let clean : Prop := B.mem.poison = [] ∧ B.mem.latent = [] ∧ B.mem.weak = [] ∧ B.mem.tagLatent = [] ∧ B.mem.tagWeak = []
    (B.accessOk w 0x30000 .w = true →
      (I.rake.op = none →
        (∀ set C, readSet I.rake.setCnt.toNat (0x1000000000 + I.rake.setOff.toNat * 16) { I with rake := { I.rake with seq := I.rake.seq + 1 } } = (set, C) →
          (setValid set = true → takes (.rakeSweep b w) fun E =>
            E.rake.state = 2 ∧ E.rake.op = some .sweep ∧ E.rake.seq = I.rake.seq + 1 ∧ E.rake.set = set ∧ E.rake.result = 0
            ∧ ∀ k d r, (E.bank k d).getC r = if ((C.bank k d).getC r).revokedIn set then ((C.bank k d).getC r).clearTag else (C.bank k d).getC r)
          ∧ (setValid set = false → takes (.rakeSweep b w) fun E => E.rake.state = 6 ∧ E.rake.op = none ∧ E.cores = C.cores))
        ∧ (rangeOk I.rake.rangePpn.toNat I.rake.rangeLen.toNat = true →
            takes (.rakeTagclear b w) (fun E => E.rake.state = 2 ∧ E.rake.op = some .tagclear ∧ E.rake.seq = I.rake.seq + 1
              ∧ E.rake.runPpn = I.rake.rangePpn.toNat ∧ E.rake.runLen = I.rake.rangeLen.toNat ∧ E.mem = B.mem)
            ∧ takes (.rakeTagcount b w) fun E => E.rake.state = 2 ∧ E.rake.op = some .tagcount ∧ E.rake.seq = I.rake.seq + 1
              ∧ E.rake.runPpn = I.rake.rangePpn.toNat ∧ E.rake.runLen = I.rake.rangeLen.toNat ∧ E.rake.result = 0 ∧ E.mem = B.mem)
        ∧ (rangeOk I.rake.rangePpn.toNat I.rake.rangeLen.toNat = false →
            takes (.rakeTagclear b w) (fun E => E.rake.state = 6 ∧ E.rake.op = none ∧ E.mem = B.mem)
            ∧ takes (.rakeTagcount b w) fun E => E.rake.state = 6 ∧ E.rake.op = none ∧ E.mem = B.mem)
        ∧ exec (.rakeAbort b w) s = s.gives b I)
      ∧ (I.rake.op ≠ none → exec (.rakeAbort b w) s = s.gives b { I with rake := { I.rake with abort := true } }
          ∧ ∀ i ∈ [Instr.rakeSweep b w, .rakeTagclear b w, .rakeTagcount b w], exec i s = s.gives b I))
    ∧ (∀ at', B.memoryRuns = true →
        (B.rake.op = some .tagclear → B.rake.state = 2 → B.rake.abort = false → B.rake.waitFor = [] → takes (.rakeCommandEnd b at') fun E =>
          E.rake.state = 4 ∧ E.rake.op = none ∧ E.mem.bytes = B.mem.bytes
          ∧ ∀ g, E.mem.tag g = (B.mem.tag g && !decide (B.rake.runPpn * 256 ≤ g ∧ g < (B.rake.runPpn + B.rake.runLen) * 256)))
        ∧ (clean → B.rake.op = some .tagcount → B.rake.state = 2 → B.rake.abort = false → B.rake.waitFor = [] → takes (.rakeCommandEnd b at') fun E =>
          E.rake.state = 4 ∧ E.rake.op = none ∧ E.mem = B.mem
          ∧ E.rake.result.toNat = min 0xFFFFFFFF (B.mem.tags.filter fun g => decide (B.rake.runPpn * 256 ≤ g ∧ g < (B.rake.runPpn + B.rake.runLen) * 256)).length)
        ∧ (clean → B.rake.op = some .sweep → B.rake.state = 2 → B.rake.abort = false → takes (.rakeCommandEnd b at') fun E =>
          E.mem.bytes = B.mem.bytes ∧ (∀ g, E.mem.tag g = (B.mem.tag g && !(capOf (B.mem.read (g * 16) 16) true).revokedIn B.rake.set))
          ∧ (B.rake.waitFor = [] → E.rake.state = 4 ∧ E.rake.op = none) ∧ (B.rake.waitFor ≠ [] → E.rake.state = 3 ∧ E.rake.op = some .sweep))
        ∧ (B.rake.op ≠ none → B.rake.abort = true → takes (.rakeCommandEnd b at') fun E => E.rake.state = 5 ∧ E.rake.op = none))
    ∧ (B.memoryRuns = true →
        let line := B.memErr.scrubPage * 64 + B.memErr.scrubLine
        (B.memErr.scrubPeriod ≠ 0 → B.memErr.scrubPage ≠ 0x1001000 → clean →
          exec (.scrubRead b .intact) s = s.gives b { B with memErr := B.memErr.scrubNext }
          ∧ takes (.scrubRead b .uncorrectable) fun E => line ∈ E.mem.poison)
        ∧ (B.memErr.scrubPage = 0x1001000 → exec (.scrubPassEnd b) s = s.gives b
            (Bench.raise { B with memErr := { B.memErr with scrubPage := 0, scrubLine := 0 } } 898)))

/-- Chapter 09, R426, R427, R434 and R458 to R461: the commands of VAULT.CMD. A write while no command is in progress starts one and counts in
SEQ; the command's end does its action, sets RESULT and raises EV_VAULT_CMD. The actions on a slot are stated for keys of one slot.

Chapter 09, R431, R435, R436, R453, R454 and chapter 10, R501 to R503: the forms that load, generate, trust, rewrap, derive, import and export
a key, where the operands are what the form asks for and the record, template or block passes its checks: the key to be placed (its class,
header and value), the record made under the current bench master key, and the journal record. -/
def Obligations.VaultCommands : Prop :=
  ∀ (s : State) (b : BenchNo) (w : Writer),
    let B := s.bench b
    let I := B.idleExit
    let rows : List (Instr × BitVec 4) :=
      [(.vaultInfo b w, 1), (.vaultDelete b w, 2), (.vaultRevoke b w, 3), (.vaultPin b w, 4), (.vaultUnpin b w, 5), (.vaultPurge b w, 6),
       (.vaultAbort b w, 7), (.vaultForgetPrevious b w, 8)]
    (B.accessOk w 0x10000C .w = true → ∀ r ∈ rows,
      (I.vault.cmd = none → exec r.1 s = s.gives b { I with vault := { I.vault with
        cmd := some { op := r.2, arg := I.vault.arg, origin := I.writerOrigin w }, seq := I.vault.seq + 1 } })
      ∧ (I.vault.cmd ≠ none → exec r.1 s = s.gives b I))
    ∧ (B.memoryRuns = true → ∀ c, B.vault.cmd = some c →
        (B.jrnRoom (B.vaultRecords c) = false → exec (.vaultCommandEnd b) s = .next s)
        ∧ (B.jrnRoom (B.vaultRecords c) = true →
          let f := c.arg.toNat % 16384
          let k := B.slot f
          let ends (result : Byte) (v : Vault) : Prop := ∃ E, exec (.vaultCommandEnd b) s = s.gives b E
            ∧ E.vault = { v with cmd := none, result := result }
          (k.first = false → c.op = 2 ∨ c.op = 3 ∨ c.op = 4 ∨ c.op = 5 → ends 6 B.vault)
          ∧ (c.op = 1 → ∃ info : Vector Word 9, info[0] = k.word ∧ ends (if k.first then 0 else 6) { B.vault with info := info })
          ∧ (k.first = true → k.run = 0 →
              (c.op = 2 → B.ckLocked f = true → ends 0x0B B.vault)
              ∧ (c.op = 2 → B.ckLocked f = false → k.gen ≠ 0xFFFF → ends 0 (B.setSlot f { Slot.zero with gen := k.gen + 1 }).vault)
              ∧ (c.op = 3 → k.gen ≠ 0xFFFF → ends 0 (B.setSlot f { k with gen := k.gen + 1 }).vault)
              ∧ (c.op = 2 → B.ckLocked f = false → k.gen = 0xFFFF → ends 0 (B.setSlot f { Slot.zero with gen := 0xFFFF, retired := true }).vault)
              ∧ (c.op = 3 → k.gen = 0xFFFF → ends 0 (B.setSlot f { Slot.zero with gen := 0xFFFF, retired := true }).vault)
              ∧ (c.op = 4 → ends 0 (B.setSlot f { k with pin := true }).vault)
              ∧ (c.op = 5 → ends 0 (B.setSlot f { k with pin := false }).vault))
          ∧ (c.op = 6 → B.purgeList c.arg = [] → ends 0 B.vault)
          ∧ (c.op = 7 → ends 0 { B.vault with ceremony := none })
          ∧ (c.op = 8 → ends 0 { B.vault with previous := none })))
    ∧ (∀ (r : Fin 4) (q : Sub), (∀ n : Fin 4, let u : UnitNo := n.castLE (by decide) + 7
        let j := jobOf u q
        let begins (i : Instr) (f : Finish) : Prop := s.takesJob b i u r q f
        let is (op var : Nat) : Prop := B.offers u r q ∧ j.op = op ∧ j.var = var ∧ j.byte 2 = 0
        let places (row : Nat) (header v : List Byte) (journal : Option Nat) : KeyPlan :=
          { load := false, cls := row, header := header, value := v, aux := j.aux % 2 ^ 16, dest := (j.opnd 1).cursor.toNat, journal := journal }
        let role (cls : List Nat) (modes : List Char) : OpRole := .handle { classes := cls, modes := modes } false
        let input := j.bytesAt B 1 j.len
        let t := (input.drop 16).take 32
        let data := input.drop 48
        let fits (p : ClassRow → Bool) (row : ClassRow) : Prop := fitClass (classRows.filter p) t = .ok row
        let derives (i : Instr) (cls : Nat) (v : List Byte) : Prop :=
          begins i (placing j (places cls (finishHeader t v.length B.time.sec true) v none) [] false)
        (is 0x20 1 → 144 ≤ j.len → j.len ≤ 2128 → j.len % 16 = 0 → j.aux < 2 ^ 16 → j.meets B 0 (.rd j.len) none → j.meets B 1 (.hd 16) none →
          j.meets B 2 .zero none → ∀ cls header v prev, B.openRecord (j.bytesAt B 0 j.len) = .ok (cls, header, v, prev) →
          begins (.keyLoad b n) (placing j { places cls header v none with load := true } [] prev))
        ∧ (is 0x20 2 → j.len = 48 →
            let cls := j.aux / 2 ^ 16
            let len := detailLen (hdrDetail t)
            let v := freshValue (hdrDetail t) (B.drawn (len + 8))
            let header := finishHeader t len B.time.sec false
            0 < cls → cls < 256 → j.meets B 0 .zero none → j.meets B 1 (.hd 48) none → j.meets B 2 (.wr (recordLen len)) none →
            B.serves (len + 8) → templateOk t = true → (∃ row, fits (fun r => r.cls = cls && r.generate) row) →
            (cls = 0x1C ∨ cls = 0x1D → q.sys = true) → ∀ bmk, B.vault.current = some bmk →
            begins (.keyGenerate b n) (placing j (places cls header v (some 0x28)) (makeRecord bmk B.ctl.epoch.toNat cls header v) false))
        ∧ (is 0x20 3 → 80 ≤ j.len → j.len ≤ 48 + 2592 → j.aux < 2 ^ 16 → q.sys = true → j.meets B 0 .zero none →
            j.meets B 1 (.hd j.len) none → j.meets B 2 (.wr (recordLen 48)) none → templateOk t = true → j.len = 48 + publicLen (hdrDetail t) →
            publicOk (hdrDetail t) data = true → ∀ row, fits (fun r => r.cls = 0x11 || r.cls = 0x15) row → ∀ bmk, B.vault.current = some bmk →
            let header := finishHeader t 48 B.time.sec false
            begins (.keyTrust b n) (placing j (places row.cls header (sha384 data) (some 0x2A))
              (makeRecord bmk B.ctl.epoch.toNat row.cls header (sha384 data)) false))
        ∧ (is 0x20 4 → j.len = 0 → j.aux = 0 → ∀ k, j.meets B 0 (.handle { classes := classRows.map (·.cls), modes := [] } true) (some k) →
            j.meets B 1 .zero none → ∀ bmk, B.vault.current = some bmk →
            let rec' := makeRecord bmk B.ctl.epoch.toNat k.cls k.header k.value
            j.meets B 2 (.wr (max 144 rec'.length)) none → begins (.keyRewrap b n) { j.gives rec' with result := rec'.length })
        ∧ (templateOk t = true → j.aux < 2 ^ 16 → j.meets B 1 (.hd j.len) none → j.meets B 2 .zero none → ∀ row k,
            let aes : Bool := algOf k.header = 'A'
            (is 0x20 8 → j.len = 62 → j.meets B 0 (role [0x06, 0x07] ['X']) (some k) → fits (fun r => [0x05, 0x08].contains r.cls) row →
              let pl := (data.getD 10 0).toNat
              let digits := (nibbles (data.take 10)).take pl
              let v := emvSession aes (emvMaster aes k.value digits (data.getD 11 0).toNat) ((data.drop 12).take 2)
              hdrAlg t = hdrAlg k.header → hdrDetail t = hdrDetail k.header → v.length = k.value.length → 12 ≤ pl → pl ≤ 19 →
              digits.all (· ≤ 9) = true → derives (.deriveEmv b n) row.cls v)
            ∧ (is 0x20 9 → j.len = 60 → j.meets B 0 (role [0x02, 0x03] ['X']) (some k) → fits (fun r => [0x04, 0x05, 0x08].contains r.cls) row →
                dukptCounterOk aes data = true →
                let d := hdrDetail t
                (aes = true →
                  let init := if k.cls = 2 then dukptAesInitial k.value data else k.value
                  derives (.deriveDukpt b n) row.cls (dukptAesWorking init data (dukptUsage row.cls (hdrMode t))
                    (if d = 8 then 5 else dukptAlg (3 ≤ d) (detailLen d)) (detailLen d)))
                ∧ (aes = false → d = 1 →
                  let init := if k.cls = 2 then dukptTdesInitial k.value (data.take 10) else k.value
                  let txn := dukptTdesKey init (data.take 10)
                  derives (.deriveDukpt b n) row.cls
                    (if row.cls = 4 then tdesVariant 7 txn else if row.cls = 5 then tdesVariant 6 txn else tdesDataKey txn)))
            ∧ (is 0x20 10 → 49 ≤ j.len → j.len ≤ 304 → j.meets B 0 (role [0x09] ['X']) (some k) →
                fits (fun r => [1, 2, 3, 4, 5, 6, 7, 8, 9].contains r.cls) row →
                let prf := if hdrDetail k.header = 8 then hmac sha256 64 k.value else cmac (aesEnc k.value) 16
                derives (.deriveKdf b n) row.cls (kdfCounter prf data (detailLen (hdrDetail t)))))
        ∧ (is 0x21 0 → 64 < j.len → j.aux < 2 ^ 16 → ∀ k, j.meets B 0 (role [0x01] ['B', 'D']) (some k) → j.meets B 1 (.hd j.len) none →
            ∀ bmk, B.vault.current = some bmk → leNat ((input.drop 28).take 2) = j.len - 48 →
            ∀ head key d v, openBlock (algOf k.header = 'A') k.value data = .ok (head, key) →
            importValue (Char.ofNat (head.getD 7 0).toNat) key = some (d, v) →
            let pre := (head.drop 5).take 2 ++ [head.getD 7 0, head.getD 8 0] ++ (head.drop 9).take 2 ++ [head.getD 11 0, BitVec.ofNat 8 d]
              ++ zeros 4 ++ (input.drop 24).take 4 ++ (input.drop 16).take 8 ++ zeros 8
            ∀ row, fitClass (classRows.filter fun r => r.imports) pre = .ok row → j.meets B 2 (.wr (recordLen v.length)) none →
            let header := finishHeader pre v.length B.time.sec false
            begins (.keyImport b n) (placing j (places row.cls header v (some 0x29)) (makeRecord bmk B.ctl.epoch.toNat row.cls header v) false))
        ∧ (is 0x22 0 → j.len = 0 → j.aux = 0 → Table.wf Slot.zero B.vault.slots = true → ∀ k x, j.meets B 0 (role [0x01] ['B', 'E']) (some k) →
            j.meets B 1 (role ((classRows.filter fun r => r.imports).map (·.cls)) []) (some x) → B.serves 16 →
            let ex := Char.ofNat (hdrExport x.header)
            ex ≠ 'N' → (ex = 'S' → B.vault.ctrl.getLsbD 1 = true) →
            strength (hdrDetail x.header) x.value.length ≤ strength (hdrDetail k.header) k.value.length →
            let aes : Bool := algOf k.header = 'A'
            let bs := if aes then 16 else 8
            let d := hdrDetail x.header
            let key := if 0x18 ≤ d then rsaToDer (d - 0x10) x.value else x.value
            let m := (2 + key.length + bs - 1) / bs * bs
            let total := 16 + 2 * m + 2 * bs
            let plain := (beBytes 2 (8 * key.length) ++ key ++ B.drawn 16).take m
            let head := [if aes then (0x44 : Byte) else 0x42] ++ toDec 4 total ++ hdrUsage x.header ++ [x.header.getD 2 0, x.header.getD 3 0]
              ++ hdrVersion x.header ++ [x.header.getD 6 0] ++ ascii "0000"
            let ke := kbDerive aes k.value 0
            let ka := kbDerive aes k.value 1
            let mac := if aes then cmac (aesEnc ka) 16 (head ++ plain) else cmac (tdesEnc ka) 8 (head ++ plain)
            let ct := if aes then cbcEnc (aesEnc ke) mac (blocksOf 16 plain) else cbcEnc (tdesEnc ke) mac (blocksOf 8 plain)
            let blk := head ++ toHex ct ++ toHex mac
            j.meets B 2 (.wr (max 64 total)) none →
            begins (.keyExport b n) { j.gives blk with
              result := blk.length
              record := some (0x2E, hdrTenant x.header, keyData x.header x.cls x.slot (B.slot x.slot).gen ++ hdrKeyid k.header) })))

/-- Chapter 10, R464, R468 and chapter 11, R521: a unit that serves and has no job takes the next descriptor of the ring that its arbitration
picks (`Eng.next`), where that descriptor's OP (and for KEY jobs the form in VAR) is the command's. The descriptor leaves the ring, and
the job in flight is that descriptor's, with the completion that its operation's computation gives it.

Chapter 10, R473, R484 to R488, R504: what the PKEs', the LKEs' and the HSEs' jobs give, where the operands are what their forms ask for
(`JC.meets`): a handle of a key that the operation accepts, memory within the capability that is plain memory to the unit, or zero; the
descriptor resumes no job and translation is off. The signature, the verdict, the shared secret, the ciphertext, the public key or the
digest is the one that the named standard defines. -/
def Obligations.JobsBegin : Prop :=
  ∀ (s : State) (b : BenchNo) (r : Fin 4) (q : Sub),
    let B := s.bench b
    let takes (i : Instr) (u : UnitNo) (op : Nat) (form : Option Nat) (P : Finish → Bench → Prop) : Prop :=
      B.unitRuns u.val = true → B.serving u.val = true → (B.eng u).job = none → (B.eng u).next = some (.ring r q) →
      (q.desc.getD 0 0).toNat = op → (∀ v ∈ form, (q.desc.getD 1 0).toNat = v) →
      let C := (B.setRing u r { B.ring u r with subs := (B.ring u r).subs.tail }).modEng u fun e => { e with lastRing := r.val }
      ∃ E j, exec i s = s.gives b E ∧ (E.eng u).job = some j ∧ j.ring = some r ∧ j.sub = q ∧ j.unit = none ∧ P j.fin C
    let byRun (run : JC → Option UnitJob → J Finish) (u : UnitNo) (f : Finish) (C : Bench) : Prop :=
      f = match run { u := u, sub := q, unit := false } none C with
        | .ok g _ => g
        | .error g _ => g
    (∀ n : Fin 4, let u : UnitNo := n.castLE (by decide) + 1
      ∀ e ∈ [(Instr.pkeSign b n, 1), (.pkeVerify b n, 2), (.rsaCrtSign b n, 3), (.rsaVerify b n, 4), (.keyAgreement b n, 5),
             (.ephemeralKeyAgreement b n, 6), (.pkePublicKeyDerivation b n, 7)], takes e.1 u e.2 none (byRun pkeRun u))
    ∧ (∀ n : Fin 2, let u : UnitNo := n.castLE (by decide) + 5
      ∀ e ∈ [(Instr.mlDsaSign b n, 1), (.mlDsaVerify b n, 2), (.mlKemEncapsulate b n, 3), (.mlKemDecapsulate b n, 4),
             (.lkePublicKeyDerivation b n, 5)], takes e.1 u e.2 none (byRun lkeRun u))
    ∧ (∀ n : Fin 4, let u : UnitNo := n.castLE (by decide) + 7
      (∀ e ∈ [(Instr.encrypt b n, 1), (.decrypt b n, 2), (.macGenerate b n, 3), (.macVerify b n, 4), (.pinTranslate b n, 0x10),
             (.pinReformat b n, 0x11), (.pinCompare b n, 0x12), (.arqcVerify b n, 0x18), (.keyImport b n, 0x21), (.keyExport b n, 0x22)],
        takes e.1 u e.2 none (byRun skeRun u))
      ∧ ∀ e ∈ [(Instr.keyLoad b n, 1), (.keyGenerate b n, 2), (.keyTrust b n, 3), (.keyRewrap b n, 4), (.deriveEmv b n, 8),
             (.deriveDukpt b n, 9), (.deriveKdf b n, 10)], takes e.1 u 0x20 (some e.2) (byRun skeRun u))
    ∧ (∀ n : Fin 2, let u : UnitNo := n.castLE (by decide) + 11
      takes (.hash b n) u 1 none (byRun hseRun u))
    ∧ takes (.drbgGenerate b) 13 1 none (byRun drbgRun 13) ∧ takes (.drbgReseed b) 13 2 none (byRun drbgRun 13)
    ∧ (∀ n : Fin 2, let u : UnitNo := n.castLE (by decide) + 14
      takes (.cut b n) u 1 none (fun _ _ => True) ∧ takes (.cutStream b n) u 2 none fun _ _ => True)
    ∧ (∀ n : Fin 2, let u : UnitNo := n.castLE (by decide) + 16
      takes (.assemble b n) u 1 none (fun _ _ => True) ∧ takes (.assembleStream b n) u 2 none fun _ _ => True)
    ∧ (∀ n : Fin 4, let u : UnitNo := n.castLE (by decide) + 1
        let j := jobOf u q
        let v := j.var
        let c := pkeCurve v
        let is (op : Nat) : Prop := B.offers u r q ∧ j.op = op ∧ j.byte 2 = 0
        let begins (i : Instr) (f : Finish) : Prop := s.takesJob b i u r q f
        let role (cls : List Nat) (modes : List Char) : KeyRole := { classes := cls, modes := modes, fits := pkeFits v }
        let msg := j.bytesAt B 1 j.len
        let n' := if v = 5 then 32 else c.len
        let peer := j.bytesAt B 1 (pkeKeyLen v)
        let shared (d x : List Byte) : Prop :=
          (v = 5 ∧ x = x25519 d peer ∧ x.all (· = 0) = false)
          ∨ (1 ≤ v ∧ v ≤ 3 ∧ ∃ Q a y, c.decode peer = some Q ∧ c.mul (beNat d) (some Q) = some (a, y) ∧ x = beBytes c.len a)
        (is 1 → j.aux = 0 → j.len ≤ 65536 → ∀ k, j.meets B 0 (.handle (role [0x10, 0x1D] ['S']) false) (some k) →
          j.meets B 1 (.rd j.len) none → j.meets B 2 (.wr (pkeSigLen v)) none →
          (v = 4 → begins (.pkeSign b n) (j.gives (edSign k.value msg)))
          ∧ (1 ≤ v → v ≤ 3 → B.serves (c.len + 8) → ∀ sig,
              c.sign (beNat k.value) (1 + beNat (B.drawn (c.len + 8)) % (c.n - 1)) (pkeHash v msg) = some sig → begins (.pkeSign b n) (j.gives sig)))
        ∧ (is 2 → j.aux = 0 → j.len ≤ 65536 → ∀ k, j.meets B 0 (.handleOpt (role [0x11] ['V'])) k →
            j.meets B 1 (.rd j.len) none → j.meets B 2 (.rd (pkeKeyLen v + pkeSigLen v)) none →
            let l := j.bytesAt B 2 (pkeKeyLen v + pkeSigLen v)
            let pub := l.take (pkeKeyLen v)
            let sig := l.drop (pkeKeyLen v)
            (∀ t ∈ k, t.value = sha384 pub) →
            (v = 4 → (edDecode pub).isSome = true → begins (.pkeVerify b n) (verdict (edVerify pub msg sig)))
            ∧ (1 ≤ v → v ≤ 3 → ∀ Q, c.decode pub = some Q → begins (.pkeVerify b n) (verdict (c.verify Q (pkeHash v msg) sig))))
        ∧ (j.aux % 4 ≤ 1 → j.aux / 4 ≤ 2 → j.len ≤ 65536 → 8 ≤ v → v ≤ 0x0A → j.meets B 1 (.rd j.len) none →
            let w := rsaBytes v
            let digest := (rsaHash j.aux).1 msg
            let salt := if j.aux % 4 = 1 then (rsaHash j.aux).2 else 0
            (is 3 → ∀ k, j.meets B 0 (.handle (role [0x13] ['S']) false) (some k) → j.meets B 2 (.wr w) none → B.serves salt →
              ∀ p p' dp dq qi e, rsaParts v k.value = [p, p', dp, dq, qi, e] →
              let m := beNat (rsaEncode j digest (B.drawn salt))
              let x := rsaCrt (w * 4) p p' dp dq qi m
              powMod 32 x e (p * p') = m % (p * p') → begins (.rsaCrtSign b n) (j.gives (beBytes w x)))
            ∧ (is 4 → ∀ k, j.meets B 0 (.handleOpt (role [0x11] ['V'])) k → j.meets B 2 (.rd (w + 4 + w)) none →
              let l := j.bytesAt B 2 (w + 4 + w)
              let pub := l.take (w + 4)
              let N := beNat (pub.take w)
              let e := beNat (pub.drop w)
              let x := beNat (l.drop (w + 4))
              let em := beBytes w (powMod 32 x e N)
              (∀ t ∈ k, t.value = sha384 pub) → rsaKeyOk w N e = true → begins (.rsaVerify b n) (verdict
                (decide (x < N) && (if j.aux % 4 = 0 then em == pkcs1Encode w digest else pssVerify (rsaHash j.aux).1 w digest em)))))
        ∧ (is 5 → j.aux = 0 → ∀ k x, j.meets B 0 (.handle (role [0x12] ['N', 'X']) false) (some k) →
            j.meets B 1 (.rd (pkeKeyLen v)) none → j.meets B 2 (.wr n') none → shared k.value x → begins (.keyAgreement b n) (j.gives x))
        ∧ (is 6 → j.aux = 0 → v ≠ 3 → j.meets B 0 .zero none → j.meets B 1 (.rd (pkeKeyLen v)) none →
            j.meets B 2 (.wr (pkeKeyLen v + n')) none → B.serves (n' + 8) →
            let d := if v = 5 then (B.drawn (n' + 8)).take 32 else beBytes n' (1 + beNat (B.drawn (n' + 8)) % (c.n - 1))
            ∀ x, shared d x → begins (.ephemeralKeyAgreement b n) (j.gives (pkePublic v d ++ x)))
        ∧ (is 7 → j.aux = 0 → 1 ≤ v → v ≤ 5 → ∀ k, j.meets B 0 (.handle (publicRole (pkeFits v)) true) (some k) → j.meets B 1 .zero none →
            j.meets B 2 (.wr (pkeKeyLen v)) none → begins (.pkePublicKeyDerivation b n) (j.gives (pkePublic v k.value))))
    ∧ (∀ n : Fin 2, let u : UnitNo := n.castLE (by decide) + 5
        let j := jobOf u q
        let v := j.var
        let d := lkeDetail v
        let is (op : Nat) : Prop := B.offers u r q ∧ j.op = op ∧ j.byte 2 = 0
        let begins (i : Instr) (f : Finish) : Prop := s.takesJob b i u r q f
        let role (cls : List Nat) (mode : Char) : KeyRole := { classes := cls, modes := [mode], fits := lkeFits v }
        let l := j.bytesAt B 1 (j.aux + j.len)
        (lkeDsa v = true → j.aux ≤ 255 → j.meets B 1 (.rd (j.aux + j.len)) none →
          (is 1 → ∀ k, j.meets B 0 (.handle (role [0x14, 0x1C] 'S') false) (some k) → j.meets B 2 (.wr (dsaSigLen d)) none → B.serves 32 →
            begins (.mlDsaSign b n) (j.gives (dsaSign d k.value (l.take j.aux) (l.drop j.aux) (B.drawn 32))))
          ∧ (is 2 → ∀ k, j.meets B 0 (.handleOpt (role [0x15] 'V')) k → j.meets B 2 (.rd (dsaKeyLen d + dsaSigLen d)) none →
              let c := j.bytesAt B 2 (dsaKeyLen d + dsaSigLen d)
              let pub := c.take (dsaKeyLen d)
              (∀ t ∈ k, t.value = sha384 pub) →
              begins (.mlDsaVerify b n) (verdict (mldsaVerify d pub (l.take j.aux) (l.drop j.aux) (c.drop (dsaKeyLen d))))))
        ∧ (lkeKem v = true → j.aux = 0 →
            (is 3 → j.meets B 0 .zero none → j.meets B 1 (.rd (kemKeyLen d)) none → j.meets B 2 (.wr (kemCtLen d + 32)) none → B.serves 32 →
              let ek := j.bytesAt B 1 (kemKeyLen d)
              let e := mlkemEncaps d ek (B.drawn 32)
              mlkemKeyOk d ek = true → begins (.mlKemEncapsulate b n) (j.gives (exact (kemCtLen d) e.1 ++ exact 32 e.2)))
            ∧ (is 4 → ∀ k, j.meets B 0 (.handle (role [0x16] 'D') false) (some k) → j.meets B 1 (.rd (kemCtLen d)) none →
                j.meets B 2 (.wr 32) none →
                begins (.mlKemDecapsulate b n)
                  (Finish.ok 32 0 (j.out 2 0 (exact 32 (mlkemDecaps d k.value (j.bytesAt B 1 (kemCtLen d))))))))
        ∧ (is 5 → lkeDsa v = true ∨ lkeKem v = true → j.aux = 0 → ∀ k, j.meets B 0 (.handle (publicRole (lkeFits v)) true) (some k) →
            j.meets B 1 .zero none →
            let n' := if lkeDsa v then dsaKeyLen d else kemKeyLen d
            j.meets B 2 (.wr n') none → begins (.lkePublicKeyDerivation b n)
              (Finish.ok n' 0 (j.out 2 0 (if lkeDsa v then dsaPublic d k.value else kemPublic d k.value)))))
    ∧ (∀ n : Fin 2, let u : UnitNo := n.castLE (by decide) + 11
        let j := jobOf u q
        B.offers u r q → j.op = 1 → j.byte 2 = 0 → hseDefined j.var = true → (if 0x21 ≤ j.var then 1 ≤ j.aux ∧ j.aux ≤ 4096 else j.aux = 0) →
        j.meets B 0 .zero none → j.meets B 1 (.rd j.len) none → j.meets B 2 (.wr (hseLen j)) none →
        s.takesJob b (.hash b n) u r q (Finish.ok j.len 0 (j.placed (hseLen j) (hseHash j (j.bytesAt B 1 j.len)))))

/-- Chapter 10, R467, R469, R476, R479, R481: completion. The entry's 16 bytes go to the place that the ring's head names, the head and the
phase advance, the unit counts the job, and the ring's event is raised; the job leaves the unit. -/
def Obligations.JobsComplete : Prop :=
  (∀ (B : Bench) (u : UnitNo) (r : Fin 4) (origin : Word) (cookie : List Byte) (e : Entry), cookie.length = 4 → e.status < 256 → e.detail < 256 →
      e.opnd < 4 → (∀ t ∈ e.token, t < 256) →
    let g := B.ring u r
    let flags : Word := BitVec.ofNat 32 (e.token.getD 0 + e.opnd * 2 ^ 8 + (if e.token.isSome then 2 ^ 10 else 0) + (if e.prev then 2 ^ 11 else 0)
      + (if g.phase then 2 ^ 12 else 0))
    let bytes := cookie ++ [BitVec.ofNat 8 e.status, BitVec.ofNat 8 e.detail, flags.extractLsb' 0 8, flags.extractLsb' 8 8]
      ++ leBytes 4 e.progress ++ leBytes 4 e.result
    ∃ D : Bench, B.postEntry u r origin cookie e = D.raise ((if u = 13 then 960 else if u.val ≤ 12 then 380 + 4 * u.val else 376 + 4 * u.val) + r.val)
      ∧ D.mem = (B.unitWrite (unitMid u.val) origin (g.base.toNat + 16 * g.head) bytes).mem
      ∧ (D.ring u r).head = (g.head + 1) % (8 * 2 ^ g.depth.toNat)
      ∧ (D.ring u r).phase = (if (g.head + 1) % (8 * 2 ^ g.depth.toNat) = 0 then !g.phase else g.phase)
      ∧ (D.eng u).done.toNat = min ((B.eng u).done.toNat + 1) 0xFFFFFFFF
      ∧ (D.eng u).notOk.toNat = min ((B.eng u).notOk.toNat + if e.status = 0 then 0 else 1) 0xFFFF)
  ∧ (∀ (s : State) (b : BenchNo) (n : Fin 17) (j : Job), let u := jobUnit n
      let B := s.bench b
      B.unitRuns u.val = true → (B.eng u).job = some j → j.fin.wait = false → j.fin.writes = [] → j.fin.plan = none → j.fin.record = none →
      j.fin.events = [] → B.net.tlsDone = [] →
      let C := B.modEng u fun e => { e with job := none }
      (∀ r, j.ring = some r → j.unit = none → j.fin.suspend = none → exec (.jobCompletion b n) s = s.gives b
        (((C.streamEnd u r j.sub (j.fin.status = 0)).jobEnded u).postEntry u r j.sub.origin ((j.sub.desc.drop 12).take 4)
          { status := j.fin.status, detail := j.fin.detail, opnd := j.fin.opnd, token := none, prev := j.fin.prev
            progress := j.fin.progress, result := j.fin.result }))
      ∧ (∀ r seen i, j.ring = some r → j.unit = none → j.fin.suspend = some seen → (C.eng u).freeToken = some i →
          ∃ D : Bench, exec (.jobCompletion b n) s = s.gives b (D.postEntry u r j.sub.origin ((j.sub.desc.drop 12).take 4)
              { status := j.fin.status, detail := j.fin.detail, opnd := j.fin.opnd, token := some (i + 32 * unitInstance u.val), prev := j.fin.prev
                progress := j.fin.progress, result := j.fin.result })
            ∧ (D.eng u).job = none
            ∧ (D.eng u).tokens.find? (fun t => t.1 = i) = some (i, { desc := j.sub.desc, sub := j.sub, seen := seen, param := j.fin.param
                                                                     progress := j.fin.progress, since := B.time.elapsed, set := j.set })))
  ∧ (∀ (s : State) (b : BenchNo) (n : Fin 4) (j : Job) (id suite : Nat) (nonce key aad data : List Byte),
      let u : UnitNo := n.castLE (by decide) + 7
      let B := s.bench b
      B.unitRuns u.val = true → (B.eng u).job = some j → j.ring = none → j.unit = some (.tls id false suite nonce key aad data) →
      j.fin.wait = false → j.fin.writes = [] → j.fin.plan = none → j.fin.record = none → j.fin.events = [] → B.net.tlsDone = [] →
      let C := (B.modEng u fun e => { e with job := none }).countDone u j.fin.status
      exec (.tlsRecordDecryptEnd b n) s = s.gives b (C.tlsTake { ident := id, status := j.fin.status, bytes := j.fin.sig })
      ∧ (∀ k c, B.net.conns.find? (fun e => e.2.rxJob = some id) = some (k, c) → j.fin.status = 1 →
          exec (.tlsRecordDecryptEnd b n) s = s.gives b ((C.setConn k { c with rxJob := none }).tlsFatal k 20 0x04)))
  ∧ (∀ (s : State) (b : BenchNo) (n : Fin 17) (i : Fin 32) (t : Token), let u := jobUnit n
      let B := s.bench b
      let e := B.eng u
      B.unitRuns u.val = true → e.tokens.find? (fun t => t.1 = i.val) = some (i.val, t) →
      (e.tokttl.toNat * 1000 ≤ B.time.elapsed - t.since → ∃ d : Half, d.toNat = min (e.tokDrop.toNat + 1) 0xFFFF
        ∧ exec (.tokenExpiry b n i) s = s.gives b (Bench.raise (B.setEng u { e with tokens := e.tokens.filter (fun t => t.1 ≠ i.val), tokDrop := d }) 819))
      ∧ (B.time.elapsed - t.since < e.tokttl.toNat * 1000 → exec (.tokenExpiry b n i) s = .next s))
  ∧ (∀ (s : State) (b : BenchNo) (n : Fin 4) (j : Job) (r : Fin 4) (t : MsgStream), let u : UnitNo := n.castLE (by decide) + 14
      let B := s.bench b
      B.unitRuns u.val = true → (B.eng u).job = some j → j.ring = some r → j.unit = none → j.fin.wait = true →
      B.streams.find? (fun t => t.unit = u.val && t.phase == .begun) = some t →
      bitsOf (B.reg (0x200020 + 0x4000 * n.val)) 15 0 ≤ B.time.elapsed - t.since →
      ∃ (D : Bench) (p : Nat), exec (.streamStall b n) s = s.gives b (D.postEntry u r j.sub.origin ((j.sub.desc.drop 12).take 4)
        { status := 6, detail := 0x60, opnd := 3, token := none, prev := false, progress := p, result := 0 }) ∧ (D.eng u).job = none)

/-- Chapter 10, R464: of the rings that hold a descriptor the unit takes one of the highest PRIO, the first after the one that won last; it
takes a ring's descriptors in order, and the unit queue before any ring.

Chapter 10, R471: RING.CFG while the unit is DISABLED. Enabling a ring starts it over; disabling one completes every descriptor in it.

Chapter 10, R505, R506, R509: the DRBG's reseed falls due after 65,536 requests or one second, a source that fails a health test goes out
of service and counts, and the failure of both stops the DRBG. A job's GENERATE gives the bytes that the DRBG gives next, after a reseed
where AUX asks for one, and its RESEED reseeds. -/
def Obligations.RingsAndDrbg : Prop :=
  (∀ e : Eng,
      (∀ q rest, e.unitQ = q :: rest → e.next = some (.unit q))
      ∧ (e.unitQ = [] → (∀ r : Fin 4, e.rings[r].subs = []) → e.next = none)
      ∧ (∀ r : Fin 4, e.unitQ = [] → e.lastRing < 4 → e.rings[r].subs ≠ [] →
          (∀ k : Fin 4, e.rings[k].subs ≠ [] → e.rings[k].prio ≤ e.rings[r].prio) →
          (∀ k : Fin 4, e.rings[k].subs ≠ [] → e.rings[k].prio = e.rings[r].prio → (r.val + 3 - e.lastRing) % 4 ≤ (k.val + 3 - e.lastRing) % 4) →
          ∃ q, e.rings[r].subs.head? = some q ∧ e.next = some (.ring r q)))
  ∧ (∀ (s : State) (b : BenchNo) (w : Writer) (n : Fin 17) (r : Fin 4) (depth prio : BitVec 2), let u := jobUnit n
      let I := (s.bench b).idleExit
      let g := I.ring u r
      (s.bench b).accessOk w (ringCfgReg u r) .w = true →
      (I.configurable u.val = true →
        (g.en = false → exec (.ringEnable b w n r depth prio) s = s.gives b (I.setRing u r { g with
          depth := depth, prio := prio, en := true, head := 0, tail := 0, seq := 0, outstanding := 0, phase := true }))
        ∧ (g.en = true → exec (.ringEnable b w n r depth prio) s = s.gives b (I.setRing u r { g with depth := depth, prio := prio }))
        ∧ (g.en = false → exec (.ringDisable b w n r) s = s.gives b (I.setRing u r { g with depth := 0, prio := 0 }))
        ∧ (g.en = true → ∃ E, exec (.ringDisable b w n r) s = s.gives b E ∧ (E.ring u r).en = false ∧ (E.ring u r).subs = []
            ∧ (E.eng u).done.toNat = min ((I.eng u).done.toNat + g.subs.length) 0xFFFFFFFF))
      ∧ (I.configurable u.val = false → exec (.ringEnable b w n r depth prio) s = s.gives b I ∧ exec (.ringDisable b w n r) s = s.gives b I))
  ∧ (∀ (s : State) (b : BenchNo) (second : Bool), (s.bench b).unitRuns 13 = true →
      let B := s.bench b
      let d := B.drbg
      let after : Drbg := { d with
        src0 := d.src0 && second, src1 := d.src1 && !second, fails := if d.fails = 0xFF then d.fails else d.fails + 1 }
      (d.inst = true → 65536 ≤ d.requests ∨ 1000000 ≤ B.time.elapsed - d.since →
        exec (.drbgReseedDue b) s = s.gives b { B with drbg := { d with reseedDue := true } })
      ∧ (d.inst = false ∨ (d.requests < 65536 ∧ B.time.elapsed - d.since < 1000000) → exec (.drbgReseedDue b) s = .next s)
      ∧ ((if second then d.src1 else d.src0) = true →
          ((if second then d.src0 else d.src1) = true → exec (.entropySourceFailure b second) s = s.gives b (Bench.raise { B with drbg := after } 816))
          ∧ ((if second then d.src0 else d.src1) = false → exec (.entropySourceFailure b second) s = s.gives b
              (Bench.raise (Bench.raise { B with drbg := { after with error := true } } 816) 817)))
      ∧ ((if second then d.src1 else d.src0) = false → exec (.entropySourceFailure b second) s = .next s))
  ∧ (∀ (s : State) (b : BenchNo) (r : Fin 4) (q : Sub), let B := s.bench b
      (
        let j := jobOf 13 q
        B.offers 13 r q → j.var = 0 → j.byte 2 = 0 → B.drbg.live = true → j.meets B 0 .zero none → j.meets B 1 .zero none →
        (j.op = 1 → 1 ≤ j.len → j.len ≤ 65536 → j.aux ≤ 1 → j.meets B 2 (.wr j.len) none →
          s.takesJob b (.drbgGenerate b) 13 r q (Finish.ok j.len 0 (j.out 2 0 ((if j.aux = 1 then B.drbgReseed else B).drawn j.len))))
        ∧ (j.op = 2 → j.len = 0 → j.aux = 0 → j.meets B 2 .zero none →
            s.takesJob b (.drbgReseed b) 13 r q (Finish.ok 0 0 [])
            ∧ ∃ E, exec (.drbgReseed b) s = s.gives b E ∧ E.drbg = B.drbgReseed.drbg)))

/-- Chapter 11, R563 to R565: the pattern store's commands, which the supervisor core alone gives: LOAD copies the image into the staged bank,
SWAP checks it and exchanges the banks, and the old set drains.

Chapter 11, R522, R524, R537, R552, R553, R556: a CUT writes the descriptors that its profile gives, one for a primitive BER-TLV object; an
ASSEMBLE writes the object that a COPY or CONST rule makes; CUT_STREAM and ASSEMBLE_STREAM begin on a stream that waits. -/
def Obligations.PatternStore : Prop :=
  ∀ (s : State) (b : BenchNo) (w : Writer),
    let B := s.bench b
    let I := B.idleExit
    let stage (p : Pat) (e : PatSet) : Pat := if p.bank then { p with bank0 := e } else { p with bank1 := e }
    (B.accessOk w 0x210000 .w = true →
      (w.mid = midBsc → I.pat.busy = none →
        exec (.patLoad b w) s = s.gives b { I with pat := { I.pat with busy := some (.load I.pat.src.toNat I.pat.srclen.toNat) } }
        ∧ (I.pat.drained = true → exec (.patSwap b w) s = s.gives b { I with pat := { I.pat with busy := some .swap } })
        ∧ (I.pat.drained = false → exec (.patSwap b w) s = s.gives b
            (Bench.raise { I with pat := { I.pat with refused := true, reason := 6, index := 0 } } 820)))
      ∧ (w.mid ≠ midBsc ∨ I.pat.busy ≠ none → exec (.patLoad b w) s = s.gives b I ∧ exec (.patSwap b w) s = s.gives b I))
    ∧ (B.unitRuns 14 = true →
        (∀ src len l bad C, B.pat.busy = some (.load src len) → B.unitRead 0x10 0 (0x1000000000 + src) len = ((l, bad), C) →
          let p : Pat := { stage C.pat { image := l, srclen := len, usable := bad.isNone, ident := C.pat.loads + 1 } with
            busy := none, loads := C.pat.loads + 1 }
          exec (.patLoadEnd b) s = s.gives b { C with pat := if bad.isSome then { p with refused := true, reason := 7, index := 0 } else p })
        ∧ (B.pat.busy = some .swap → setCheck B.pat.staged = none →
            let old := [14, 15, 16, 17].filter fun n => (B.eng (Fin.ofNat 18 n)).job.isSome
            let E := Bench.raise { B with pat := { B.pat with
              busy := none, bank := !B.pat.bank, gen := B.pat.gen + 1, refused := false, reason := 0, index := 0, drained := old.isEmpty, old := old } } 820
            exec (.patSwapCheckEnd b) s = s.gives b (if old.isEmpty then E.raise 821 else E))
        ∧ (∀ r i, B.pat.busy = some .swap → setCheck B.pat.staged = some (r, i) → exec (.patSwapCheckEnd b) s = s.gives b
            (Bench.raise { B with pat := { B.pat with busy := none, refused := true, reason := r, index := i } } 820))
        ∧ (B.pat.drained = false → B.pat.old = [] →
            exec (.patDrainEnd b) s = s.gives b (Bench.raise { B with pat := { B.pat with drained := true } } 821)))
    ∧ (∀ (r : Fin 4) (q : Sub), (∀ n : Fin 2, let cl : UnitNo := n.castLE (by decide) + 14
        let co : UnitNo := n.castLE (by decide) + 16
        let begins (i : Instr) (u : UnitNo) (f : Finish) : Prop := s.takesJob b i u r q f
        let image := B.pat.active.image
        let waits (u : UnitNo) (t : MsgStream) (want : Nat) : Prop :=
          t ∈ B.streams ∧ t.of u.val r.val q = true ∧ t.phase = .waiting ∧ t.data = [] ∧ t.taken = 0 ∧ t.popped = 0 ∧ t.out = []
            ∧ t.var = (jobOf u q).var ∧ t.want = want
            ∧ ∀ o ∈ B.streams, o.unit = u.val → o = t ∨ o.phase ≠ .begun ∧ o.of u.val r.val q = false
        let opens (i : Instr) (u : UnitNo) (t : MsgStream) : Prop :=
          begins i u Finish.waiting
          ∧ ∃ E, exec i s = s.gives b E ∧ { t with phase := .begun, image := image, since := B.time.elapsed } ∈ E.streams
        (let j := jobOf cl q
         let data := j.bytesAt B 0 j.len
         let mode := profMode (profileOf image j.var)
         B.offers cl r q → j.byte 2 = 0 → j.var < setNprof image → 1 ≤ j.len → j.len ≤ 65536 → j.aux = 0 → j.meets B 1 .zero none →
          (j.op = 1 → j.meets B 0 (.rd j.len) none →
            (let c := cutMessage image j.var data j.len (min 4095 (((j.opnd 2).top - (j.opnd 2).cursor.toNat) / 16))
             c.error = none → j.meets B 2 (.wr (16 * c.descs.length)) none →
             begins (.cut b n) cl (Finish.ok j.len c.descs.length (j.placed (16 * c.descs.length) (c.descs.flatMap (·.bytes)))))
            ∧ (mode = 2 → ∀ tag : Byte, ∀ content, data = tag :: BitVec.ofNat 8 content.length :: content → tag ≠ 0 → tag ≠ 0xFF →
                tag.toNat % 32 ≠ 0x1F → tag.getLsbD 5 = false → content.length < 128 → j.meets B 2 (.wr 16) none →
                begins (.cut b n) cl (Finish.ok j.len 1 (j.placed 16 (leBytes 4 (0x10000000 + tag.toNat) ++ leBytes 4 2
                  ++ leBytes 2 content.length ++ [0, 0, 0xFF, 0xFF, 0, 0])))))
          ∧ (j.op = 2 → j.meets B 0 .zero none → j.meets B 2 .zero none → (mode = 1 → 4 ≤ j.len) → ∀ t, waits cl t j.len →
              opens (.cutStream b n) cl t))
        ∧ (let j := jobOf co q
           let pat := patternOf image j.var
           let rule (k : Nat) := ruleOf image (patFirst pat + k)
           let descs := (chunks 16 j.asmCount (j.bytesAt B 1 (16 * j.asmCount))).map InDesc.of
           B.offers co r q → j.byte 2 = 0 → j.var < setNpat image → slice j.aux 19 13 = 0 → 1 ≤ j.asmCount → j.asmCount ≤ 4095 →
           j.len ≤ 65536 → j.meets B 0 (.rd 0) none →
            (j.op = 1 → 16 * j.asmCount ≤ j.len → j.meets B 1 (.rd j.len) none → profMode (profileOf image (patDst pat)) = 2 →
              patNrules pat = 2 → rOpc (rule 0) = 1 → rEach (rule 0) = false → rOpc (rule 1) = 0 → ∀ content,
              let out := berObject (berTag (rDst (rule 0))) content
              out.length ≤ 65536 → j.meets B 2 (.wr out.length) none →
              (rConv (rule 0) = 8 ∧ content = poolOf image (slice (rArg (rule 0)) 15 0) (slice (rArg (rule 0)) 31 16)
                ∨ rConv (rule 0) = 0 ∧ ∃ d, descs.find? (fun d => d.fid = rSrc (rule 0)) = some d ∧ d.fid / 2 ^ 28 ≠ 4 ∧ d.flags.testBit 3 = false
                  ∧ (j.opnd 0).base ≤ (j.opnd 0).cursor.toNat + d.offset ∧ (j.opnd 0).cursor.toNat + d.offset + d.length ≤ (j.opnd 0).top
                  ∧ B.plainFor j.mid ((j.opnd 0).cursor.toNat + d.offset) d.length .r
                  ∧ content = B.mem.read ((j.opnd 0).cursor.toNat + d.offset) d.length) →
              begins (.assemble b n) co (Finish.ok out.length out.length (j.placed out.length out)))
            ∧ (j.op = 2 → j.meets B 1 .zero none ∧ j.len = 0 ∨ j.meets B 1 (.rd j.len) none → j.meets B 2 .zero none →
                ∀ t, waits co t (16 * j.asmCount) → opens (.assembleStream b n) co t))))

/-- Chapter 01, R38, R44 to R56 and chapter 14, R736: the state register of a unit. A write of REQUESTED starts the divergence timer over; at
its quiescent point the unit's EFFECTIVE takes REQUESTED; a divergence is recorded once for each time the timer runs; FORCE resets a
diverged unit. -/
def Obligations.UnitStates : Prop :=
  ∀ (s : State) (b : BenchNo) (w : Writer) (u : Fin 544), (u.val ≤ 21 ∨ 32 ≤ u.val) →
    let B := s.bench b
    let I := B.idleExit
    let may : Prop := (w ≠ .host ∧ B.accessOk w (0x1000 + 4 * u.val) .w = true)
      ∨ (w = .host ∧ B.hostReaches = true ∧ (u.val = 0 ∨ (32 ≤ u.val ∧ u.val < 288)))
    let changed (C : Bench) : Bench :=
      let k := C.ustate u
      let R := (C.setUState u { k with effective := k.requested, changes := k.changes + 1, diverged := false, passed := false }).raise 830
      if u.val = 0 then R.msix 258 else if 32 ≤ u.val ∧ u.val < 288 then R.msix 256 else R
    let k := B.ustate u
    (may → ∀ v : BitVec 4,
      (v.toNat ≤ 2 ∨ (v = 3 ∧ u.val = 0) → v ≠ k.requested →
        let C := I.setUState u { k with
          requested := v, since := B.time.elapsed, passed := false, diverged := k.diverged && (k.forcing || v ≠ k.effective) }
        let D := if u.val = 18 then C.jrnRequest else C
        exec (.ustateWriteRequested b w u v) s = s.gives b (if v = k.effective then D.unitChanged u v else D))
      ∧ ((2 < v.toNat ∧ ¬(v = 3 ∧ u.val = 0)) ∨ v = k.requested → exec (.ustateWriteRequested b w u v) s = s.gives b I))
    ∧ (may →
        (k.diverged = true → k.forcing = false → u.val ≠ 0 → u.val ≠ 18 → u.val ≠ 19 →
          exec (.ustateForce b w u) s = s.gives b ((I.setUState u { k with forcing := true }).unitReset u))
        ∧ (k.diverged = true → k.forcing = false → u.val = 0 → exec (.ustateForce b w u) s = s.gives b (I.requestReset 0x12 1))
        ∧ (k.diverged = false ∨ k.forcing = true ∨ u.val = 18 ∨ u.val = 19 → exec (.ustateForce b w u) s = s.gives b I))
    ∧ (B.unitRuns u = true → k.forcing = false → k.requested ≠ k.effective → u.val ≠ 18 →
        let quiet : Prop := (k.requested = 2 ∧ (k.effective = 0 ∨ k.effective = 1)) ∨ (u.val = 0 ∧ B.benchQuiet = true)
          ∨ (u.val ≠ 0 ∧ B.unitQuiet u = true)
        let able : Prop := 1 ≤ u.val → u.val ≤ 13 → k.requested = 0
          ∨ ((B.eng (Fin.ofNat 18 u)).katFail = false ∧ (k.requested = 2 → (B.eng (Fin.ofNat 18 u)).katOk = true))
        (quiet → able → exec (.unitQuiescentPoint b u) s = s.gives b ((changed B).unitChanged u k.effective))
        ∧ (¬quiet ∨ ¬able → exec (.unitQuiescentPoint b u) s = .next s))
    ∧ (1 ≤ u.val → u.val ≤ 17 → B.unitQuiet u = (B.eng (Fin.ofNat 18 u)).job.isNone)
    ∧ (B.unitRuns u = true → k.forcing = true →
        let C := B.setUState u { k with forcing := false }
        (14 ≤ u.val → u.val ≠ 18 → exec (.forcedResetCompletion b u false) s = s.gives b ((changed C).unitChanged u k.effective))
        ∧ (1 ≤ u.val → u.val ≤ 13 → ∀ fails,
            let D := C.modEng (Fin.ofNat 18 u) fun e => { e with katOk := !fails, katFail := fails }
            let D := if fails then D.raise 818 else D
            let D := if u.val = 13 then D.drbgInstantiate else D
            (fails = false ∨ k.requested = 0 → exec (.forcedResetCompletion b u fails) s = s.gives b (changed D))
            ∧ (fails = true → k.requested ≠ 0 → k.effective ≠ 0 → exec (.forcedResetCompletion b u fails) s = s.gives b
                (Bench.raise (D.setUState u { D.ustate u with effective := 0, changes := (D.ustate u).changes + 1 }) 830))
            ∧ (fails = true → k.requested ≠ 0 → k.effective = 0 → exec (.forcedResetCompletion b u fails) s = s.gives b D)))
    ∧ (B.alive = true → u.val ≠ 22 →
        (k.requested ≠ k.effective → k.passed = false → B.ctl.divto.toNat * 1000 ≤ B.time.elapsed - k.since →
          ∃ d : Half, d.toNat = min (B.ctl.divCount.toNat + 1) 0xFFFF ∧
            let C := B.setUState u { k with diverged := true, passed := true }
            exec (.divergenceTimeout b u) s = s.gives b (Bench.raise { C with ctl := { C.ctl with divUnit := BitVec.ofNat 10 u.val, divCount := d } } 831))
        ∧ (k.requested = k.effective ∨ k.passed = true ∨ B.time.elapsed - k.since < B.ctl.divto.toNat * 1000 →
            exec (.divergenceTimeout b u) s = .next s))

/-- Chapter 12, R573 to R602: the journal's work. A record takes the next SEQ and the chain covers it; a waiting request's RECEIVED record is
written and its open item carries its SEQ; the item's timeout closes it; release points only rise; the mirror and the signature entries. -/
def Obligations.JournalWork : Prop :=
  (∀ (B : Bench) (reqid : BitVec 48) (type status : Byte) (origin tenant : Word) (tin : BitVec 96) (data : List Byte), data.length = 32 →
      let j := B.jrn
      let body := leBytes 8 j.nextSeq ++ leBytes 6 reqid.toNat ++ [type, status] ++ leBytes 4 origin.toNat ++ leBytes 4 tenant.toNat
        ++ leBytes 12 tin.toNat ++ leBytes 12 B.time.value.toNat ++ data
      let c := sha384 (beBytes 48 j.chain.toNat ++ body)
      B.jrnAppend reqid type status origin tenant tin data = Bench.unitWrite { B with jrn := { j with
          chain := BitVec.ofNat 384 (beNat c), nextSeq := j.nextSeq + 1, sinceCk := if type = 0x10 then j.sinceCk else j.sinceCk + 1 } }
        0x30 0 (B.jrnBase + j.nextSeq % B.jrnSlots * 128) (body ++ c))
  ∧ (∀ (s : State) (b : BenchNo) (w : Writer) (i : BitVec 19) (v : Word) (r : Fin 8),
      let B := s.bench b
      let I := B.idleExit
      (B.unitRuns 18 = true →
        let starts := B.jrnRoom (if B.tamperDue.isSome then 2 else 1)
        (B.jrn.recovering = true → starts = true →
            ∃ E, exec (.journalRecoveryEnd b) s = s.gives b E ∧ E.jrn.recovering = false ∧ E.jrn.recoverDue = false)
        ∧ (B.jrn.recovering = true → starts = false → exec (.journalRecoveryEnd b) s = .next s)
        ∧ (B.jrn.recovering = false → exec (.journalRecoveryEnd b) s = .next s)
        ∧ (∀ a, B.jrn.waiting.find? (fun a => a.digest.isSome) = some a → a.dup = none → (B.item a.item).state = .opened → B.jrn.deliveries = [] →
            (B.openCount < B.jrnFree → ∃ C E : Bench, exec (.receivedRecord b) s = s.gives b E
              ∧ C.jrn.waiting = B.jrn.waiting.filter (fun w => w.req.token ≠ a.req.token) ∧ C.jrn.nextSeq = B.jrn.nextSeq + 1
              ∧ C.jrn.deliveries = [({ req := a.req, item := a.item, answer := .serve, seq := B.jrn.nextSeq } : Delivery)] ∧ E = C.jrnSettle.deliverRequests)
            ∧ (B.jrnFree ≤ B.openCount → exec (.receivedRecord b) s = .next s))
        ∧ (B.jrn.waiting.find? (fun a => a.digest.isSome) = none → B.jrn.deliveries = [] → exec (.receivedRecord b) s = .next s)
        ∧ ((B.item i.toNat).state = .opened → bitsOf (B.reg 0x300020) 15 0 * 1000 ≤ B.time.elapsed - (B.item i.toNat).since →
            exec (.itemTimeout b i) s = s.gives b ((B.jrnClose i.toNat false 0x02 0 (zeros 16) 0 true).raise 518))
        ∧ ((B.item i.toNat).state ≠ .opened ∨ B.time.elapsed - (B.item i.toNat).since < bitsOf (B.reg 0x300020) 15 0 * 1000 →
            exec (.itemTimeout b i) s = .next s)
        ∧ exec (.dedupSweep b) s = s.gives b { B with jrn := { B.jrn with
            items := B.jrn.items.filter fun e => e.2.state = .opened || decide (B.time.elapsed - e.2.since < bitsOf (B.reg 0x30001C) 15 0 * 1000) } }
        ∧ (B.ckDue = true → B.openCount < B.jrnFree → B.jrn.cks = [] → B.jrn.sigSeq = [] → B.jrn.held = [] →
            B.time.setDue = [] → B.jrn.partnerDue = none → ∃ E,
            exec (.checkpointRecord b) s = s.gives b E ∧ E.jrn.nextSeq = B.jrn.nextSeq + 1 ∧ E.jrn.sinceCk = 0 ∧ E.jrn.lastCk = some B.jrn.nextSeq
            ∧ E.jrn.ckTime = B.time.elapsed * 256000 + B.time.part ∧ E.jrn.cks.map (·.seq) = [B.jrn.nextSeq])
        ∧ (B.ckDue = false → exec (.checkpointRecord b) s = .next s)
        ∧ (∀ c e m, B.jrn.cks = [c] → c.ecdsa = some e → c.mldsa = some m → ∃ E, exec (.signatureEntryWrite b) s = s.gives b E ∧ E.jrn.cks = []
            ∧ E.mem = (Bench.raise (B.unitWrite 0x30 0 (B.sigBase + c.k * 4096) (sigEntry c e m)) 512).mem)
        ∧ (B.hmode ≠ 0 → B.hostUp = true → B.jrn.mirrorSeq < B.jrn.nextSeq → ∃ E, exec (.hostMirrorWrite b) s = s.gives b E
            ∧ E.jrn.mirrorSeq = B.jrn.mirrorSeq + 1)
        ∧ (B.hmode = 0 ∨ B.hostUp = false → exec (.hostMirrorWrite b) s = .next s))
      ∧ (B.unitRuns 18 = true →
        (B.pmode ≠ 0 → (B.peer B.pPort B.pPeer).en = true → B.portRuns B.pPort = true → B.jrn.genesis = true →
          let n := min 8 (min (B.jrn.nextSeq - B.jrn.sendSeq) ((B.udpRoom B.pPort (B.peer B.pPort B.pPeer).v6 - 32) / 128))
          (n ≠ 0 → ∃ E, exec (.partnerSend b) s = s.gives b E ∧ E.jrn.sendSeq = B.jrn.sendSeq + n)
          ∧ (n = 0 → B.jrn.sendSigs = [] → exec (.partnerSend b) s = .next s))
        ∧ (B.pmode ≠ 0 → B.jrn.pack < B.jrn.sendSeq → B.pTimeout ≤ B.time.elapsed - B.jrn.ackTime →
          let C := { B with jrn := { B.jrn with sendSeq := B.jrn.pack, timeouts := B.jrn.timeouts + 1, ackTime := B.time.elapsed } }
          (B.jrn.timeouts < 15 → exec (.partnerRetransmitTimeout b) s = s.gives b C)
          ∧ (15 ≤ B.jrn.timeouts → ∃ E, exec (.partnerRetransmitTimeout b) s = s.gives b E
              ∧ (B.jrn.partner = 3 ∨ B.jrnRoom 1 = true → E.jrn.partner = 3)
              ∧ (B.jrn.partner ≠ 3 → B.jrnRoom 1 = false → E.jrn.partner = B.jrn.partner ∧ E.jrn.partnerDue = some (3, 0))))
        ∧ (B.pmode = 0 → exec (.partnerSend b) s = .next s ∧ exec (.partnerRetransmitTimeout b) s = .next s))
      ∧ (let due := I.jrn.loDue
        let waits (off : Nat) : Bench := { I with jrn := { I.jrn with loDue := (off, v) :: due.filter (fun e => e.1 ≠ off) } }
        let whole (off old : Nat) : Nat := ((due.lookup off).map (·.toNat)).getD (old % 2 ^ 32) + v.toNat * 2 ^ 32
        (B.accessOk w 0x300068 .w = true → exec (.swrelWrite b w false v) s = s.gives b (waits 0x300068))
        ∧ (B.accessOk w 0x30006C .w = true → let n := whole 0x300068 I.jrn.swrel
            ∃ E, exec (.swrelWrite b w true v) s = s.gives b E ∧ E.jrn.loDue = due.filter (fun e => e.1 ≠ 0x300068) ∧ E.jrn.hack = I.jrn.hack
            ∧ E.jrn.swrel = if I.jrn.swrel ≤ n ∧ n ≤ I.jrn.nextSeq then n else I.jrn.swrel)
        ∧ (∀ hi : Bool, (w ≠ .host ∧ B.accessOk w (if hi then 0x300074 else 0x300070) .w = true) ∨ (w = .host ∧ B.hostReaches = true) →
            (hi = false → exec (.hackWrite b w hi v) s = s.gives b (waits 0x300070))
            ∧ (hi = true → let n := whole 0x300070 I.jrn.hack
              ∃ E, exec (.hackWrite b w hi v) s = s.gives b E ∧ E.jrn.loDue = due.filter (fun e => e.1 ≠ 0x300070) ∧ E.jrn.swrel = I.jrn.swrel
              ∧ E.jrn.hack = if I.jrn.hack ≤ n ∧ n ≤ I.jrn.nextSeq then n else I.jrn.hack)))
      ∧ (B.accessOk w (0x300050 + 8 * r.val) .r = true → ∃ n, (r = 0 → n = B.jrn.nextSeq) ∧ (r = 1 → n = I.relSeq) ∧ (r = 2 → n = I.durSeq)
          ∧ (r = 3 → n = B.jrn.swrel) ∧ (r = 4 → n = B.jrn.hack) ∧ (r = 5 → n = B.jrn.pack) ∧ (r = 6 → n = B.jrn.prxSeq) ∧ (r = 7 → n = B.jrn.jid.toNat)
          ∧ exec (.journalLoRead b w r) s = s.gives b ({ I with jrn := { I.jrn with
              latch := I.jrn.latch.set 0 (0x300050 + 8 * r.val) (BitVec.ofNat 32 (n / 2 ^ 32)) } }.emit (.read w (0x300050 + 8 * r.val) (BitVec.ofNat 32 n)))))

/-- Chapter 12, R569, R603 to R612 and R792: bench time. A measurement by the selected port's source, a lost source, a write of TIME.SET2, a
PPS edge, the passing of a second, the messages of the PTP instance, the latches of TIME.NOW0 and the bench timers. The loop's new
frequency and QUALITY's estimate are free values of this model (log 36), and so is the time by which a snapshot moves bench time on
(log 71). -/
def Obligations.BenchTime : Prop :=
  ∀ (s : State) (b : BenchNo) (w : Writer) (p : Bool) (off : BitVec 64) (ann : Option (Half × BitVec 48)) (other : Option (BitVec 64))
    (kind : BitVec 4) (sub : BitVec 18) (k : Fin 64) (v : Word),
    let B := s.bench b
    let I := B.idleExit
    let t := B.time
    let raised (t : TimeState) (n : Nat) : Bench := Bench.raise { B with time := t } n
    let pi : Fin 2 := if p then 1 else 0
    let th := (B.reg 0x310018).toNat * 256
    (B.unitRuns 19 = true →
      (B.serving 19 = true → B.ptpPort p = true → B.timeSrc = 1 → ∃ E, exec (.servoMeasurement b p off ann) s = s.gives b E
        ∧ E.time.source = (if p then 2 else 1) ∧ E.time.port = p ∧ E.time.holdover = false ∧ E.time.todValid = true
        ∧ E.time.offset = BitVec.ofInt 32 (max (-2147483648) (min 2147483647 off.toInt))
        ∧ (∀ u x, ann = some (u, x) → E.time.utcoff = 0x10000#32 ||| u.zeroExtend 32)
        ∧ (t.setDue = [] → th = 0 ∨ off.toInt.natAbs ≤ th ∨ B.jrnRoom 1 = false → E.time.sec = t.sec ∧ E.time.ns = t.ns ∧ E.time.frac = t.frac ∧ E.time.steps = t.steps)
        ∧ (t.setDue = [] → th ≠ 0 → th < off.toInt.natAbs → B.jrnRoom 1 = true → E.time.steps.toNat = min (t.steps.toNat + 1) 0xFF
            ∧ let n := (t.units - off.toInt).toNat
              E.time.sec = BitVec.ofNat 48 (n / 256000000000) ∧ E.time.ns = n / 256 % 1000000000 ∧ E.time.frac = BitVec.ofNat 8 n))
      ∧ (B.serving 19 = false ∨ B.ptpPort p = false ∨ B.timeSrc = 0 → exec (.servoMeasurement b p off ann) s = .next s)
      ∧ (B.serving 19 = true → B.serving (if p then 21 else 20) = true → B.ptpPort p = true → B.ptpSends kind = true →
          let cfg := B.reg 0x310010
          let stamp := (t.withUnits (t.units + (t.latcal[pi]).toNat % 65536 * 256 / 1000)).value
          let msg (k : BitVec 4) (x : Option (BitVec 96)) : Output := .ptp p k (bitsOf cfg 5 4) (bitsOf cfg 15 8) x
          (kind = 0 ∨ kind = 3 → cfg.getLsbD 16 = true → exec (.ptpMessageTransmit b p kind) s = s.gives b (B.emit (msg kind (some stamp))))
          ∧ (kind = 0 ∨ kind = 3 → cfg.getLsbD 16 = false → exec (.ptpMessageTransmit b p kind) s = s.gives b
              ((B.emit (msg kind none)).emit (msg (if kind = 0 then 8 else 10) (some stamp))))
          ∧ (kind ≠ 0 → kind ≠ 3 → exec (.ptpMessageTransmit b p kind) s = s.gives b (B.emit (msg kind none))))
      ∧ ∃ x, exec (.latencyCalibration b p) s = s.gives b { B with
          freeCtr := B.freeCtr + 1, time := { t with latcal := t.latcal.set pi x } })
    ∧ (B.timeRuns = true →
        (B.timeSrc ≠ 0 → t.holdover = false → t.source ≠ 0 →
          let held := raised { t with holdover := true, holdBound := qualityBound t.quality, holdSince := t.elapsed } 689
          (other = none → exec (.holdoverEntry b other) s = s.gives b held)
          ∧ (∀ o : BitVec 64, other = some o → B.timeSrc = 1 → B.ptpPort (!t.port) = true → o.toInt.natAbs ≤ 25600 →
              exec (.holdoverEntry b other) s = s.gives b (raised { t with port := !t.port, source := if t.port then 1 else 2 } 692))
          ∧ (∀ o : BitVec 64, other = some o → B.timeSrc ≠ 1 ∨ B.ptpPort (!t.port) = false ∨ 25600 < o.toInt.natAbs →
              exec (.holdoverEntry b other) s = s.gives b held))
        ∧ (B.timeSrc = 0 ∨ t.holdover = true ∨ t.source = 0 → exec (.holdoverEntry b other) s = .next s)
        ∧ (let cfg := B.reg 0x310030
           let at' : Int := (t.units + sub.toNat % 256000 : Nat) - (bitsOf cfg 23 0 * 256 / 1000 : Nat)
           let n := (at' + 128000000000) / 256000000000
           let d := (at' - n * 256000000000).natAbs
           (cfg.getLsbD 24 = false → exec (.ppsInputEdge b sub) s = .next s)
           ∧ (cfg.getLsbD 24 = true → d ≤ 256000000 → t.ppsSecond ≠ some n.toNat → B.timeSrc ≠ 2 →
               exec (.ppsInputEdge b sub) s = s.gives b { B with time := { t with ppsOk := true, ppsSecond := some n.toNat } })
           ∧ (cfg.getLsbD 24 = true → 256000000 < d ∨ t.ppsSecond = some n.toNat → ∃ E, exec (.ppsInputEdge b sub) s = s.gives b E
               ∧ E.time.ppsOk = false ∧ E.time.ppsRej.toNat = min (t.ppsRej.toNat + 1) 0xFF
               ∧ (B.timeSrc = 2 → t.source ≠ 0 → E.time.holdover = true)))
        ∧ (t.secondDue = true → exec (.secondBoundary b) s = s.gives b (raised { t with
            secondDue := false
            quality := if t.holdover = true ∧ t.quality ≠ 7 then qualityOf (t.holdBound + bitsOf (B.reg 0x31001C) 15 0 * ((t.elapsed - t.holdSince) / 1000000)) else t.quality
            ppsOut := t.ppsOut || (B.reg 0x310010).getLsbD 20
            ppsOutSince := if (B.reg 0x310010).getLsbD 20 then t.elapsed else t.ppsOutSince } 693))
        ∧ (t.secondDue = false → exec (.secondBoundary b) s = .next s)
        ∧ (t.ppsOut = true → bitsOf (B.reg 0x310034) 19 0 ≤ t.elapsed - t.ppsOutSince →
            exec (.ppsOutputFall b) s = s.gives b { B with time := { t with ppsOut := false } })
        ∧ (t.timers[k].run = true → t.timers[k].due ≤ t.elapsed → exec (.benchTimerExpiry b k) s = s.gives b
            (raised { t with timers := t.timers.set k (if t.timers[k].periodic
              then { t.timers[k] with due := t.timers[k].due + t.timers[k].period.toNat } else { t.timers[k] with run := false, due := 0 }) } (448 + k.val)))
        ∧ (t.timers[k].run = false ∨ t.elapsed < t.timers[k].due → exec (.benchTimerExpiry b k) s = .next s))
    ∧ (B.accessOk w 0x310040 .w = true →
        let x : BitVec 96 := v ++ t.set1 ++ t.set0
        let ns := (x.extractLsb' 18 30).toNat
        (ns ≤ 999999999 → B.timeSrc ≠ 1 → t.setDue = [] → I.jrnRoom 1 = true → ∃ E, exec (.timeSetWrite b w v) s = s.gives b E ∧ E.time.sec = x.extractLsb' 48 48 ∧ E.time.todValid = true
          ∧ E.time.timers = t.timers ∧ E.time.elapsed = t.elapsed
          ∧ E.time.steps.toNat = min (t.steps.toNat + 1) 0xFF
          ∧ (B.timeSrc = 2 → E.time.ns = t.ns ∧ E.time.frac = t.frac) ∧ (B.timeSrc ≠ 2 → E.time.ns = ns ∧ E.time.frac = x.extractLsb' 10 8))
        ∧ (ns ≤ 999999999 → B.timeSrc ≠ 1 → t.setDue ≠ [] ∨ I.jrnRoom 1 = false →
            exec (.timeSetWrite b w v) s = s.gives b { I with time := { t with setDue := t.setDue ++ [x] } })
        ∧ (999999999 < ns ∨ B.timeSrc = 1 → exec (.timeSetWrite b w v) s = s.gives b I))
    ∧ (B.accessOk w 0x310000 .r = true → ∃ C : Bench,
        exec (.timeNow0Read b w) s = s.gives b (C.emit (.read w 0x310000 (t.value.extractLsb' 0 32)))
        ∧ (∃ n, 1 ≤ n ∧ n ≤ 256 ∧ C.time = { t.advance n with
            ahead := t.ahead + n, now1 := t.value.extractLsb' 32 32, now2 := t.value.extractLsb' 64 32 })
        ∧ (t.ns < 1000000000 → C.time.value ≠ t.value))
    ∧ (B.accessOk w (0x310100 + 4 * k.val) .w = true →
        let period := if v.extractLsb' 0 24 = 0 then t.timers[k].period else v.extractLsb' 0 24
        let n : Timer := { period := period, periodic := v.getLsbD 24, run := v.getLsbD 25 && period ≠ 0
                           due := if v.getLsbD 25 = true ∧ period ≠ 0 then t.elapsed + period.toNat else 0 }
        exec (.timerWrite b w k v) s = s.gives b { I with time := { t with timers := t.timers.set k n } })

/-- Chapter 13, R614 to R621 and R639 to R643: links, frames and receive queues. A frame with a bad FCS or one that the port does not take is
counted and gone; an ARP request for an own address is answered; a frame of no type that the port handles goes to the CONTROL queue or is
counted. A ready entry at the head of a receive queue is written as a descriptor of 32 bytes. -/
def Obligations.FramesAndReceiveQueues : Prop :=
  ∀ (s : State) (b : BenchNo) (p up : Bool) (rate : BitVec 3) (an fcs : Bool) (f : List Byte) (q : Fin 128),
    let B := s.bench b
    let I := B.idleExit
    let v := I.port p
    let setPort (C : Bench) (v : Port) : Bench := { C with net := if p then { C.net with port1 := v } else { C.net with port0 := v } }
    let inc (n : Word) : Word := if n = 0xFFFFFFFF then n else n + 1
    let cfg := B.reg (if p then 0x400400 else 0x400000)
    (B.alive = true → B.asleep = false → B.islandOk (if p then 38 else 37) = true →
      (v.up = up → exec (.linkChange b p up rate an) s = s.gives b I)
      ∧ (v.up ≠ up → ∃ n : Half, n.toNat = min (v.changes.toNat + 1) 0xFFFF ∧
          let auto := cfg.getLsbD 3 && cfg.extractLsb' 0 3 ≠ 2
          exec (.linkChange b p up rate an) s = s.gives b ((setPort I { v with
            up := up, rate := if up then (if auto then rate else cfg.extractLsb' 0 3) else v.rate, anDone := up && auto && an, changes := n }).raise
              (if p then 673 else 672))))
    ∧ (B.alive = true → I.unitRuns (if p then 21 else 20) = true →
        let dropped (C : Bench) : Bench := setPort C { C.port p with drop := inc (C.port p).drop }
        let counted := setPort I { v with rxfrm := inc v.rxfrm }
        let takes (C : Bench) : Prop := exec (.frameReceive b p f fcs) s = s.gives b C
        (I.portRuns p = false → takes I)
        ∧ (I.portRuns p = true → fcs = false → takes (dropped I))
        ∧ (I.portRuns p = true → fcs = true → I.readEth p f = none → takes (dropped I))
        ∧ (∀ e, I.portRuns p = true → fcs = true → I.readEth p f = some e →
            (I.accepts p e = false ∨ max 46 (I.mtu p) < e.payload.length → takes (dropped I))
            ∧ (I.accepts p e = true → e.payload.length ≤ max 46 (I.mtu p) →
                (ptpMacs.contains e.dst = true → takes counted)
                ∧ (ptpMacs.contains e.dst = false → e.type = 0x0806 → ∀ C, counted.arpAnswer p e.payload = some C → takes C)
                ∧ (ptpMacs.contains e.dst = false → e.type ≠ 0x0806 → e.type ≠ 0x0800 → e.type ≠ 0x86DD →
                    (B.reg (if p then 0x400414 else 0x400014)).getLsbD 7 = false → takes (dropped counted))
                ∧ (ptpMacs.contains e.dst = false → e.type = 0x0800 ∨ e.type = 0x86DD →
                    (counted.readIp p (e.type = 0x86DD) e.payload = none → takes (dropped counted))
                    ∧ ∀ ip, counted.readIp p (e.type = 0x86DD) e.payload = some ip → takes (counted.ipIn p f e.src ip)))))
    ∧ (B.unitRuns 20 = true → (∀ e ∈ B.net.conns, B.pfRxq e.2.prof ≠ q.val) → exec (.rxQueueDelivery b q) s = s.gives b (B.rxSettle q))
    ∧ (∀ (C D : Bench) (n : Nat), C.rxHead q = (true, D) → Bench.rxSettleN q (n + 1) C = Bench.rxSettleN q n D)
    ∧ (∀ (C D : Bench) (n : Nat), C.rxHead q = (false, D) → Bench.rxSettleN q (n + 1) C = D)
    ∧ (∀ (C : Bench) (e : RxEntry) (rest : List RxEntry) (a : Nat), (C.rxq q).fifo = e :: rest → e.addr = some a → e.ready = true →
        C.drains (288 + q.val) = true → C.rxFull q = false →
        C.rxHead q = (true, (C.setRxq q { C.rxq q with fifo := rest }).rxWrite q e a))
    ∧ (∀ (C : Bench) (e : RxEntry) (a : Nat),
        let mid := if e.port then 0x32 else 0x31
        let D := if e.bytes = [] then C else C.unitWrite mid 0 a e.bytes
        let r := D.rxq q
        let h := (r.dhead + 1) % 2 ^ (bitsOf (D.reg (0x401004 + 0x20 * q.val)) 11 8 + 6)
        let E := D.unitWrite mid 0 (D.rxDesc q + 32 * r.dhead) (leBytes 8 a ++ leBytes 4 e.len ++ leBytes 2 e.conn ++ leBytes 1 e.kind
          ++ leBytes 1 e.status ++ leBytes 4 e.item.toNat ++ leBytes 2 (e.flags + (if r.phase then 1 else 0) + (if e.port then 8 else 0))
          ++ leBytes 1 e.reason ++ [0] ++ leBytes 8 e.id)
        C.rxWrite q e a = (E.setRxq q { r with dhead := h, phase := if h = 0 then !r.phase else r.phase }).raise (256 + q.val))

/-- Chapter 13, R623 to R627: TCP's timers. The retransmission timer backs off, halves the window and sends again, or resets the connection;
the keepalive probes; a delayed acknowledgement is sent; TIME_WAIT ends. The numbers follow RFC 6298 and RFC 5681, which R623 names. -/
def Obligations.TcpTimers : Prop :=
  ∀ (s : State) (b : BenchNo) (n : Fin 16384) (c : Conn),
    let B := s.bench b
    B.unitRuns 20 = true →
    (B.conn n = none → ∀ i ∈ [Instr.tcpRetransmitTimeout b n, .tcpKeepaliveExpiry b n, .delayedAckExpiry b n, .timeWaitExpiry b n], exec i s = .next s)
    ∧ (B.conn n = some c →
        (∀ t, c.timer = some t → c.rto ≤ B.time.elapsed - t → c.state ≠ .synSent → c.state ≠ .synRcvd → c.flight ≠ 0 ∨ c.finSent = true →
          (B.dataRetry ≤ c.retries → exec (.tcpRetransmitTimeout b n) s = s.gives b (B.resetConn n 0x08 true))
          ∧ (c.retries < B.dataRetry → exec (.tcpRetransmitTimeout b n) s = s.gives b (Bench.resend (B.setConn n { c with
              timer := some B.time.elapsed, rto := min 60000000 (2 * c.rto), timing := none, retries := c.retries + 1
              ssthresh := max (c.flight / 2) (2 * c.segMax (B.mtu c.port)), cwnd := c.segMax (B.mtu c.port), recover := none, dupAcks := 0 }) n)))
        ∧ (∀ t, c.timer = some t → c.rto ≤ B.time.elapsed - t → c.state = .synSent → B.synRetry ≤ c.retries →
            exec (.tcpRetransmitTimeout b n) s = s.gives b (B.endConn n 0x08 false))
        ∧ (∀ t, c.timer = some t → c.rto ≤ B.time.elapsed - t → c.state = .synSent ∨ c.state = .synRcvd → c.retries < B.synRetry →
            exec (.tcpRetransmitTimeout b n) s = s.gives b (Bench.resend (B.setConn n { c with
              timer := some B.time.elapsed, rto := min 60000000 (2 * c.rto), timing := none, retries := c.retries + 1 }) n))
        ∧ ((c.timer = none ∨ ∃ t, c.timer = some t ∧ B.time.elapsed - t < c.rto) → exec (.tcpRetransmitTimeout b n) s = .next s)
        ∧ (let k := B.pfKeepalive c.prof * 1000000
           let idle : Prop := k ≠ 0 ∧ (c.state = .established ∨ c.state = .closeWait) ∧ k * (c.probes + 1) ≤ B.time.elapsed - c.lastRx
           (idle → B.dataRetry ≤ c.probes → exec (.tcpKeepaliveExpiry b n) s = s.gives b (B.resetConn n 0x08 true))
           ∧ (idle → c.probes < B.dataRetry → exec (.tcpKeepaliveExpiry b n) s = s.gives b
               ((B.setConn n { c with probes := c.probes + 1 }).sendSeg { c with probes := c.probes + 1 } (c.nxt - 1) c.rcvNxt flACK []))
           ∧ (¬idle → exec (.tcpKeepaliveExpiry b n) s = .next s))
        ∧ (∀ t, c.ackDue = some t → 200 ≤ B.time.elapsed - t → exec (.delayedAckExpiry b n) s = s.gives b
            ((B.setConn n { c with ackDue := none }).sendSeg { c with ackDue := none } c.nxt c.rcvNxt flACK []))
        ∧ (c.ackDue = none → exec (.delayedAckExpiry b n) s = .next s)
        ∧ (c.state = .timeWait → B.timeWaitUs ≤ B.time.elapsed - c.waitSince → exec (.timeWaitExpiry b n) s = s.gives b (B.freeConnection n))
        ∧ (c.state ≠ .timeWait ∨ B.time.elapsed - c.waitSince < B.timeWaitUs → exec (.timeWaitExpiry b n) s = .next s))

/-- Chapter 13, R632, R633 and R644 to R648: the transmit queues. A write of TXQ.TAIL makes descriptors available; a queue's next descriptor
runs when its gate is open, ends at once where it is malformed, and otherwise does what its OP says. -/
def Obligations.TransmitQueues : Prop :=
  ∀ (s : State) (b : BenchNo) (w : Writer) (q : Fin 128) (v : Word) (d : TxCur),
    let B := s.bench b
    let I := B.idleExit
    let F := B.txFetch q
    let rows : List (Instr × Nat) := [(.txSend b q, 1), (.txRaw b q, 2), (.txTlsRaw b q, 3), (.txUdp b q, 4), (.txFrame b q, 5),
      (.txConnect b q, 6), (.txClose b q, 7), (.txAbort b q, 8), (.txSetkey b q, 9), (.txContinue b q, 10)]
    let ready (op : Nat) : Prop := B.unitRuns 20 = true ∧ (F.txq q).cur = some d ∧ F.drains (416 + q.val) = true ∧ d.started = false
      ∧ F.islandOk (if d.port then 38 else 37) = true
      ∧ (d.jgate = true → d.gate ≤ F.durSeq) ∧ d.op = op
    let runs (i : Instr) (op : Nat) (C : Bench) : Prop := ready op → d.bad = false → d.formed = true → exec i s = s.gives b C
    let ok (c : Conn) : Prop := F.conn d.conn = some c ∧ c.state ≠ .synSent ∧ c.state ≠ .synRcvd
    (B.accessOk w (0x402008 + 0x20 * q.val) .w = true →
      exec (.txqTailWrite b w q v) s = s.gives b ((I.setReg (0x402008 + 0x20 * q.val) (v &&& 0x7FFF)).txFetch q))
    ∧ (∀ e ∈ rows, (ready e.2 → d.bad = true → exec e.1 s = s.gives b (F.txDone q d.port 0x04 0))
        ∧ (ready e.2 → d.bad = false → d.formed = false → exec e.1 s = s.gives b (F.txDone q d.port 0x03 0)))
    ∧ (∀ e ∈ rows, e.2 ≠ 4 → e.2 ≠ 5 → e.2 ≠ 6 →
        (F.conn d.conn = none → runs e.1 e.2 (F.txDone q d.port (if d.open' then 0x02 else 0x01) 0))
        ∧ ∀ c, F.conn d.conn = some c → c.state = .synSent ∨ c.state = .synRcvd → runs e.1 e.2 (F.txDone q d.port 0x01 0))
    ∧ (∀ c, ok c → F.pfTls c.prof = false → d.len ≠ 0 → c.fin = false →
        (d.len ≤ F.pfMaxmsg c.prof → d.len ≤ frameMax (F.pfFraming c.prof) → F.txRoom c (prefixLen (F.pfFraming c.prof) + d.len) = true →
          ∀ l D, F.txData c.port d = (some l, D) → runs (.txSend b q) 1
            (((D.modConn d.conn fun c => { c with sndBuf := c.sndBuf ++ (framePre (F.pfFraming c.prof) l.length ++ l) }).txDone q c.port 0 0).tcpGo d.conn))
        ∧ (d.len ≤ F.pfMaxmsg c.prof → F.txRoom c d.len = true → ∀ l D, F.txData c.port d = (some l, D) → runs (.txRaw b q) 2
            (((D.modConn d.conn fun c => { c with sndBuf := c.sndBuf ++ l }).txDone q c.port 0 0).tcpGo d.conn))
        ∧ (F.pfMaxmsg c.prof < d.len → runs (.txSend b q) 1 (F.txDone q c.port 0x05 0) ∧ runs (.txRaw b q) 2 (F.txDone q c.port 0x05 0))
        ∧ runs (.txTlsRaw b q) 3 (F.txDone q c.port 0x03 0) ∧ runs (.txSetkey b q) 9 (F.txDone q c.port 0x03 0)
        ∧ runs (.txContinue b q) 10 (F.txDone q c.port 0x03 0))
    ∧ (∀ c, ok c → F.pfTls c.prof = true → d.len ≠ 0 → c.fin = false → d.len ≤ 16384 → F.txRoom c (d.len + 22) = true →
        ∀ l D, F.txData c.port d = (some l, D) → runs (.txTlsRaw b q) 3 (D.txRecords q d.conn d.arg [l]))
    ∧ (d.conn < 256 → (F.peer d.port d.conn).en = true → d.len ≤ F.udpRoom d.port (F.peer d.port d.conn).v6 →
        ∀ l D, F.txData d.port d = (some l, D) → runs (.txUdp b q) 4 ((D.sendUdp d.port (F.peer d.port d.conn) l).txDone q d.port 0 0))
    ∧ (256 ≤ d.conn ∨ (F.peer d.port d.conn).en = false → runs (.txUdp b q) 4 (F.txDone q d.port 0x06 0))
    ∧ (14 ≤ d.len → d.len ≤ F.mtu d.port + 14 → ∀ l D, F.txData d.port d = (some l, D) → l.length = d.len →
        runs (.txFrame b q) 5 ((D.sendRaw d.port l).txDone q d.port 0 0))
    ∧ (∀ k lport C, d.arg < 64 → F.pfEn d.arg = true → F.pfPorts d.arg d.port = true → d.conn < 256 → (F.peer d.port d.conn).en = true →
        (F.peer d.port d.conn).v6 = F.pfV6 d.arg → F.ipEnabled d.port (F.pfV6 d.arg) (F.pfAddr d.arg) = true → F.freeConn = some k →
        let e := F.peer d.port d.conn
        let laddr := F.ipAddr d.port e.v6 (F.pfAddr d.arg)
        F.localPort d.port laddr e.raddr e.rport = (some lport, C) →
        ∃ (c : Conn) (E : Bench), c.state = .synSent ∧ c.prof = d.arg ∧ c.laddr = laddr ∧ c.raddr = e.raddr ∧ c.lport = lport ∧ c.rport = e.rport
          ∧ c.txq = some q.val ∧ c.una = c.iss ∧ c.nxt = c.iss + 1 ∧ E.conn k = some c ∧ runs (.txConnect b q) 6 (E.sendSeg c c.iss 0 flSYN []))
    ∧ (∀ c, ok c →
        runs (.txClose b q) 7 (((F.modConn d.conn fun c => { c with fin := true }).txDone q c.port 0 0).tcpGo d.conn)
        ∧ runs (.txAbort b q) 8 ((F.resetConn d.conn 0 false).txDone q c.port 0 0)
        ∧ (F.pfTls c.prof = true →
            runs (.txContinue b q) 10 (((F.modConn d.conn fun c => { c with hold := false }).txDone q c.port 0 0).connWork d.conn)
            ∧ ∀ l C, F.unitRead (if c.port then 0x32 else 0x31) 0 d.addr 64 = ((l, none), C) →
                let D := C.unitWrite (if c.port then 0x32 else 0x31) 0 d.addr (zeros 64)
                let suite := (l.getD 1 0).toNat
                let k : TlsKey := { suite := suite, iv := (l.drop 4).take 12, key := (l.drop 16).take 32, seq := 0 }
                suite = 2 ∨ suite = 3 → leNat ((l.drop 2).take 2) = 0 → leNat ((l.drop 48).take 16) = 0 →
                (l.getD 0 0 = 0 → runs (.txSetkey b q) 9
                  (((D.modConn d.conn fun c => { c with rkey := some k, hold := false }).txDone q c.port 0 0).connWork d.conn))
                ∧ (l.getD 0 0 = 1 → runs (.txSetkey b q) 9 (((D.modConn d.conn fun c => { c with wkey := some k }).txDone q c.port 0 0).connWork d.conn))))

/-- Chapter 04, R212, R213 and chapter 10, R464 to R467: ESUB and EPOLL through an authorising capability over plain memory. A word that names
no unit, or a ring that is not enabled, gives 3, a unit that does not serve 2, a full ring 1, and none of these submits anything. An
accepted descriptor joins the ring as it stands, with the strand's ORIGIN and translation, and x[rd] holds its position. EPOLL copies the
entry at the ring's tail from the completion ring's memory and advances the tail, or gives 1.

Chapter 10, R490 to R500: what the SKEs' cipher, MAC, PIN and ARQC jobs give, where the operands are what their forms ask for (`JC.meets`):
the output of the mode, the tag and its verdict, the PIN block enciphered again, and the cryptogram's verdict with its ARPC. -/
def Obligations.JobSubmission : Prop :=
  (∀ (s : State) (x : Exec) (b : BankNo) (B : Bench) (rd cs1 rs2 : Reg), (s.bench x.bench).begins x = some (b, B) →
      let k := B.bank x.core b
      let c := k.getC cs1
      let a := c.cursor.toNat
      let w := k.getX rs2
      let sub (v : Word) : Prop := exec (.esub x rd cs1 rs2) s = s.writesX x b B rd v
      let may : Prop := c.authorises [permLD, permLDC, permENG] a 64 ∧ a % 64 = 0 ∧ B.plainMemory x.core b a 64 .r
      let mayPoll : Prop := c.authorises [permST, permENG] a 16 ∧ a % 16 = 0 ∧ B.plainMemory x.core b a 16 .w
      (w.toNat % 1024 = 0 ∨ 17 < w.toNat % 1024 ∨ w.toNat / 1024 % 64 ≠ 0 ∨ 2 ^ 18 ≤ w.toNat →
        (may → sub 3) ∧ (mayPoll → exec (.epoll x rd cs1 rs2) s = s.writesX x b B rd 3))
      ∧ ∀ (u : UnitNo) (r : Fin 4), u ≠ 0 → w = BitVec.ofNat 32 (u.val + 65536 * r.val) →
        let g := B.ring u r
        (may → g.en = false → sub 3)
        ∧ (may → g.en = true → B.serving u.val = false → sub 2)
        ∧ (may → g.en = true → B.serving u.val = true → 8 * 2 ^ g.depth.toNat ≤ g.outstanding → sub 1)
        ∧ (may → g.en = true → B.serving u.val = true → g.outstanding < 8 * 2 ^ g.depth.toNat → (∀ i < 4, B.mem.tag (a / 16 + i) = false) →
            u.val < 14 ∨ B.mem.byte a ≠ 2 →
            exec (.esub x rd cs1 rs2) s = s.writesX x b (B.setRing u r { g with
              subs := g.subs ++ [{ desc := B.mem.read a 64, tags := 0, seq := g.seq, origin := B.origin x.core b, mode := slice k.atp.toNat 17 16
                                   asid := slice k.atp.toNat 15 0, root := slice k.atpRoot.toNat 27 0, sys := k.pcc.has permSYS, core := x.core
                                   bank := b, task := k.task }]
              outstanding := g.outstanding + 1, seq := g.seq + 1 }) rd (g.seq ++ 0#16))
        ∧ (may → g.en = true → B.serving u.val = true → g.outstanding < 8 * 2 ^ g.depth.toNat → (∀ i < 4, B.mem.tag (a / 16 + i) = false) →
            14 ≤ u.val → B.mem.byte a = 2 →
            (B.streamRoom u x.core b k.task = false → sub 1)
            ∧ (B.streamRoom u x.core b k.task = true → ∃ (E : Bench) (t : MsgStream), exec (.esub x rd cs1 rs2) s = s.writesX x b E rd (g.seq ++ 0#16)
                ∧ E.findStream u x.core b k.task = some t ∧ t.phase = .waiting ∧ t.ring = r.val ∧ t.pos = g.seq ∧ t.data = [] ∧ t.out = []
                ∧ (E.ring u r).outstanding = g.outstanding + 1))
        ∧ (mayPoll → (B.eng u).unread r = 0 → exec (.epoll x rd cs1 rs2) s = s.writesX x b B rd 1)
        ∧ (mayPoll → (B.eng u).unread r ≠ 0 → B.mem.wf = true → ∀ l bad,
            B.unitRead (midCore x.core) (B.origin x.core b) (g.base.toNat + 16 * g.tail) 16 = ((l, bad), B) → l.length = 16 → ∃ m, B.mem.storedAt m a l ∧
            exec (.epoll x rd cs1 rs2) s = s.writesX x b
              ((B.setRing u r { g with tail := (g.tail + 1) % (8 * 2 ^ g.depth.toNat), outstanding := g.outstanding - 1 }).withMem m) rd 0))
  ∧ (∀ (s : State) (b : BenchNo) (r : Fin 4) (q : Sub), let B := s.bench b
    (∀ n : Fin 4, let u : UnitNo := n.castLE (by decide) + 7
      let j := jobOf u q
      let v := j.var
      let begins (i : Instr) (f : Finish) : Prop := s.takesJob b i u r q f
      let is (op : Nat) : Prop := B.offers u r q ∧ j.op = op
      let keyed (key : CipherKey) : Prop :=
        (j.byte 2 = 0 ∧ j.clearLen = 0 ∧ ∃ k, j.meets B 0 (.handle (skeRole j) false) (some k) ∧ key = { alg := algOf k.header, key := k.value })
        ∨ (j.byte 2 = 2 ∧ clearLenOk j j.clearLen = true ∧ j.meets B 0 (.rd j.clearLen) none
            ∧ key = { alg := clearAlg j, key := j.bytesAt B 0 j.clearLen })
      let aad := if 4 ≤ v then j.aadLen else 0
      let param := j.bytesAt B 1 64
      let data := B.mem.read ((j.opnd 1).cursor.toNat + 64) j.len
      (∀ key, keyed key → 1 ≤ v → v ≤ 5 → j.meets B 1 (.rd (64 + j.len)) none →
        (j.macLen = 0 → j.aadLen = aad → aad ≤ j.len → (v ≤ 2 → j.len % key.block = 0) → (v = 5 → j.clearKey = true) →
          (let tagLen := if 4 ≤ v then 16 else 0
           let ct := cipherOut j key param (data.drop aad)
           let tag := if 4 ≤ v then aeadTag j key param (data.take aad) ct else []
           is 1 → j.meets B 2 (.wr (j.len - aad + tagLen)) none →
           begins (.encrypt b n) (Finish.ok j.len (j.len - aad + tagLen) (j.placed (j.len - aad + tagLen) (ct ++ tag))))
          ∧ (let out := cipherOut j key param (data.drop aad)
             let f := Finish.ok j.len (j.len - aad) (j.placed (j.len - aad) out)
             let fits := aeadTag j key param (data.take aad) (data.drop aad) = (param.drop 16).take 16
             is 2 → j.meets B 2 (.wr (j.len - aad)) none →
             (v ≤ 3 ∨ fits → begins (.decrypt b n) f) ∧ (4 ≤ v → ¬ fits → begins (.decrypt b n) { f with status := 1, result := 0 })))
        ∧ (j.aadLen = 0 → 4 ≤ j.macLen → j.macLen ≤ macFull v key.block →
            let mac := (macOf j key data).take j.macLen
            (is 3 → j.meets B 2 (.wr j.macLen) none → begins (.macGenerate b n) (Finish.ok j.len mac.length (j.placed j.macLen mac)))
            ∧ (is 4 → j.meets B 2 .zero none → begins (.macVerify b n)
                (if mac.take (min 16 j.macLen) = (param.drop 16).take (min 16 j.macLen) then Finish.ok j.len 0 []
                 else { Finish.ok j.len 0 [] with status := 1 }))))
      ∧ (v = 0 → j.byte 2 = 0 → j.len = 64 → j.aux = 0 → Table.wf Slot.zero B.vault.slots = true → ∀ ka kb : KeyCopy,
          let role (modes : List Char) : OpRole := .handle { classes := [0x04], modes := modes } false
          let f := j.bytesAt B 2 64
          let g (i : Nat) : Nat := (f.getD i 0).toNat
          let zero (l : List Byte) : Prop := l.all (· = 0) = true
          let digits := nibbles ((f.drop 4).take 10)
          let pan := digits.take (g 3)
          let src := (f.drop 32).take 16
          let dst := (f.drop 48).take 16
          let drawn := if g 1 = 0 then 0 else 8
          g 0 ∈ [0, 1, 3, 4] → g 1 ∈ [0, 1, 3, 4] → pinAlgOk (g 0) ka = true → pinAlgOk (g 1) kb = true → g 2 = 0 →
          zero ((f.drop 14).take 2) → zero ((f.drop 16).take 12) → zero ((f.drop 28).take 4) → (g 0 = 4 ∨ zero (src.drop 8)) →
          12 ≤ g 3 → g 3 ≤ 19 → (g 0 = 1 ∧ g 1 = 1 ∨ pan.all (· ≤ 9) = true ∧ (digits.drop (g 3)).all (· = 15) = true) →
          ∀ pin, pinDecipher (g 0) ka.value pan src = some pin →
            (pinMoveOk (B.eng u).pinpol (g 0) (g 1) = true → B.serves drawn → j.meets B 2 (.rw 64) none →
              let f := Finish.ok 16 0 (j.out 2 48 (pinEncipher (g 1) kb.value pan pin (B.drawn drawn)))
              (is 0x10 → j.meets B 0 (role ['B', 'D']) (some ka) → j.meets B 1 (role ['B', 'E']) (some kb) → begins (.pinTranslate b n) f)
              ∧ (is 0x11 → j.meets B 0 (role ['B']) (some ka) → j.meets B 1 .zero none → kb = ka → begins (.pinReformat b n) f))
            ∧ (is 0x12 → j.meets B 0 (role ['B', 'D']) (some ka) → j.meets B 1 (role ['B', 'D']) (some kb) → j.meets B 2 (.rd 64) none →
                (g 1 = 4 ∨ zero (dst.drop 8)) → ∀ ref, pinDecipher (g 1) kb.value pan dst = some ref →
                begins (.pinCompare b n) (verdict (decide (pin = ref)))))
      ∧ (is 0x18 → v = 0 → j.byte 2 = 0 → j.aux = 0 → j.len ≤ 303 → ∀ k, j.meets B 0 (.handle { classes := [0x06], modes := ['X'] } false) (some k) →
          j.meets B 1 .zero none → j.meets B 2 (.rw j.len) none →
          let f := j.bytesAt B 2 j.len
          let g (i : Nat) : Nat := (f.getD i 0).toNat
          let zero (l : List Byte) : Prop := l.all (· = 0) = true
          let digits := nibbles (f.take 10)
          let aes : Bool := algOf k.header = 'A'
          let sk := emvSession aes (emvMaster aes k.value (digits.take (g 10)) (g 11)) ((f.drop 12).take 2)
          let arqc := (f.drop 16).take 8
          g 14 < 4 → g 15 ≠ 0 → j.len = 48 + g 15 → zero ((f.drop 28).take 4) → zero ((f.drop 40).take 8) → 12 ≤ g 10 → g 10 ≤ 19 →
          (digits.take (g 10)).all (· ≤ 9) = true → (digits.drop (g 10)).all (· = 15) = true → (nibbles [f.getD 11 0]).all (· ≤ 9) = true →
          begins (.arqcVerify b n) (if emvMac aes sk (f.drop 48) ≠ arqc then Finish.fail 1 0 3 0
            else if (g 14).testBit 0 then
              Finish.ok 8 0 (j.out 2 32 (emvArpc aes sk arqc ((f.drop 24).take 2) ((f.drop 24).take 4) ((g 14).testBit 1)))
            else Finish.ok 0 0 []))))

/-- Chapter 04, R214 and chapter 11, R556 to R560: the pushes and pops of a strand's stream on a Clicker or, `closer`, a Closer. A push passes
the 16 bytes at the cursor and moves the cursor, waits while the input buffer of 256 bytes is full, and is passed over once the stream has
ended; a pop stores the next 16 bytes of output (0, and the cursor moves), or gives 1 where nothing is ready and 2 at the end; without a
stream both are ILLEGAL. -/
def Obligations.MessageStreams : Prop :=
  ∀ (s : State) (x : Exec) (b : BankNo) (B : Bench) (rd cs1 rs2 : Reg) (closer : Bool) (u : UnitNo), (s.bench x.bench).begins x = some (b, B) →
    let k := B.bank x.core b
    let c := k.getC cs1
    let a := c.cursor.toNat
    let push := if closer then Instr.clpush x cs1 rs2 else .ckpush x cs1 rs2
    let pop := if closer then Instr.clpop x rd cs1 rs2 else .ckpop x rd cs1 rs2
    let on (B : Bench) := B.findStream u x.core b (B.bank x.core b).task
    let goes (t : Bank) : Bank := t.setC cs1 ((t.getC cs1).bump 16)
    let room (t : MsgStream) : Prop := (if closer = true ∧ t.phase = .begun then 0 else t.data.length - t.taken) + min 16 (t.want - t.data.length) ≤ 256
    let illegal (i : Instr) (r f : Nat) : Prop := exec i s = s.gives x.bench
      (B.takeTrap x.core b { cause := .illegal, etval := (encR x.guard 0x79 r cs1.val rs2.val f).zeroExtend 64 })
    let mayPop : Prop := c.authorises [permST, permENG] a 16 ∧ (closer = false → a % 16 = 0) ∧ B.plainMemory x.core b a 16 .w
    14 ≤ u.val → closer = decide (16 ≤ u.val) → k.getX rs2 = BitVec.ofNat 32 u.val →
    ((s.bench x.bench).bank x.core b).getX rs2 = BitVec.ofNat 32 u.val →
    let own := (s.bench x.bench).bank x.core b
    (on B = none → on (s.bench x.bench) = none →
      (c.authorises [permLD, permENG] a 16 → illegal push 0 (if closer then 0x0A else 0x08))
      ∧ (c.authorises [permST, permENG] a 16 → (closer = false → a % 16 = 0) → illegal pop rd.val (if closer then 0x0B else 0x09)))
    ∧ (∀ t, on (s.bench x.bench) = some t → t.phase = .waiting ∨ t.phase = .begun → ¬room t → (s.bench x.bench).executing x.core = some b →
        (own.getC cs1).authorises [permLD, permENG] (own.getC cs1).cursor.toNat 16 → x.guard.holds ((s.bench x.bench).bank x.core b) = true → exec push s = .next s)
    ∧ (∀ t, on B = some t → on (s.bench x.bench) = some t → t.unit = u.val → c.authorises [permLD, permENG] a 16 → B.plainMemory x.core b a 16 .r →
        (t.phase = .waiting ∨ t.phase = .begun → room t →
          let add := (B.mem.read a 16).take (t.want - t.data.length)
          let awaited : Prop := t.phase = .begun ∧ add ≠ [] ∧ (closer = true ∨ t.out.length / 16 < t.popped / 16 + 64)
          ∀ since, (awaited → since = B.time.elapsed) → (¬awaited → since = t.since) →
          let more := { t with data := t.data ++ add, since := since }
          exec push s = s.gives x.bench ((B.streamGo u more).completes x.core b goes))
        ∧ (t.phase = .done ∨ t.phase = .failed ∨ t.phase = .closed → exec push s = s.gives x.bench (B.completes x.core b goes)))
    ∧ (∀ t, on B = some t → t.unit = u.val → mayPop →
        let left := (t.out.drop t.popped).take 16
        (t.phase = .waiting → exec pop s = s.writesX x b B rd 1)
        ∧ (t.phase = .failed ∨ t.phase = .closed → exec pop s = s.writesX x b (B.setStream { t with phase := .closed }) rd 2)
        ∧ (t.phase = .done → left = [] → exec pop s = s.writesX x b { B with
            streams := B.streams.filter fun o => !(o.unit == t.unit && o.owner t.core t.bank t.task) } rd 2)
        ∧ (t.phase = .begun → left = [] → exec pop s = s.writesX x b B rd 1)
        ∧ (t.phase = .done → left ≠ [] → (B.eng u).job = none → t.out.length / 16 < t.popped / 16 + 64 → B.mem.wf = true → ∃ m,
            B.mem.storedAt m a (padTo 16 left) ∧ exec pop s = s.gives x.bench
              (((B.setStream { t with popped := t.popped + left.length }).withMem m).completes x.core b fun z => goes (z.setX rd 0))))

/-- Chapter 04, R215, R216: JPUSH appends the 16 bytes at the cursor to the bank's staging buffer of four granules and counts; JAPP offers
them and empties the buffer whatever its status: 4 where the journal is DISABLED, 2 for a type software may not append, 3 where the number
pushed is not the type's, 1 where the item is not open, and otherwise 0, with the record (or, for a NOTE or an ADMIN record without space, its count); it waits
while the journal's clock is stopped. R217, R571: TRD and TRDC read one snapshot of bench time, after which time has moved on. -/
def Obligations.JournalAndTimeInstructions : Prop :=
  ∀ (s : State) (x : Exec) (b : BankNo) (B : Bench) (rd cs1 rs2 : Reg), (s.bench x.bench).begins x = some (b, B) →
    let k := B.bank x.core b
    let c := k.getC cs1
    let a := c.cursor.toNat
    let item := (k.getX rs2).toNat % 2 ^ 18
    let type := (k.getX rs2).toNat / 2 ^ 18 % 256
    let count := if type = 2 ∨ type = 5 ∨ type = 6 then 2 else 1
    let kinds : List Nat := [2, 3, 5, 6]
    let word (f rd' r1 r2 : Nat) (m : Nat) : Dword := (encR x.guard m rd' r1 r2 f).zeroExtend 64
    let empties (C : Bench) (v : Word) : Prop := exec (.japp x rd cs1 rs2) s = s.gives x.bench
      ((C.modBank x.core b fun t => { t with staging := [], pushes := 0 }).completes x.core b (·.setX rd v))
    let may : Prop := c.tag = true ∧ c.otype = 0 ∧ c.has permJRN = true ∧ (s.bench x.bench).jrnRuns = true
    let own := (s.bench x.bench).bank x.core b
    let moved (C : Bench) : Prop := C.mem = B.mem ∧ C.cores = B.cores
      ∧ ∃ n, 1 ≤ n ∧ n ≤ 256 ∧ C.time = { B.time.advance n with ahead := B.time.ahead + n }
    let ready : Prop := may ∧ (B.ustate 18).effective ≠ 0 ∧ type ∈ kinds ∧ k.pushes = count
    let v := B.time.value
    (c.authorises [permLD, permJRN] a 16 → B.plainMemory x.core b a 16 .r →
      let g := BitVec.ofNat 128 (leNat (B.mem.read a 16))
      exec (.jpush x cs1) s = s.gives x.bench (B.completes x.core b fun t =>
        Bank.setC { t with staging := if t.staging.length < 4 then t.staging ++ [g] else t.staging, pushes := t.pushes + 1 }
          cs1 ((t.getC cs1).bump 16)))
    ∧ (c.tag = false → exec (.japp x rd cs1 rs2) s = s.gives x.bench (B.takeTrap x.core b { cause := .capTag, etval := word 0 rd.val cs1.val rs2.val 0x7A }))
    ∧ (c.tag = true → c.otype ≠ 0 →
        exec (.japp x rd cs1 rs2) s = s.gives x.bench (B.takeTrap x.core b { cause := .capSeal, etval := word 0 rd.val cs1.val rs2.val 0x7A }))
    ∧ (c.tag = true → c.otype = 0 → c.has permJRN = false →
        exec (.japp x rd cs1 rs2) s = s.gives x.bench (B.takeTrap x.core b { cause := .capPerm, etval := word 0 rd.val cs1.val rs2.val 0x7A }))
    ∧ (may → (B.ustate 18).effective = 0 → empties B 4)
    ∧ (may → (B.ustate 18).effective ≠ 0 → type ∉ kinds → empties B 2)
    ∧ (may → (B.ustate 18).effective ≠ 0 → type ∈ kinds → k.pushes ≠ count → empties B 3)
    ∧ ((s.bench x.bench).jrnRuns = false → (s.bench x.bench).executing x.core = some b → x.guard.holds own = true →
        (own.getC cs1).tag = true → (own.getC cs1).otype = 0 → (own.getC cs1).has permJRN = true → exec (.japp x rd cs1 rs2) s = .next s)
    ∧ (ready → (B.item item).state ≠ .opened → empties B 1)
    ∧ (ready → (B.item item).state = .opened → type = 5 ∨ type = 6 → B.jrnFree - 1 ≤ B.openCount + B.jrnRsv →
        empties (Bench.raise { B with jrn := { B.jrn with lostNote := sat16 B.jrn.lostNote } } 515) 0)
    ∧ (ready → (B.item item).state = .opened → Table.wf Item.zero B.jrn.items = true → type = 2 ∨ type = 3 → ∃ C D : Bench, empties C 0 ∧ C = D.jrnSettle ∧ D.jrn.nextSeq = B.jrn.nextSeq + 1
        ∧ (D.item item).state = (if (B.item item).reqid = 0 ∨ B.dedupUs = 0 then .free else .done))
    ∧ (ready → (B.item item).state = .opened → type = 5 ∨ type = 6 → B.openCount + B.jrnRsv < B.jrnFree - 1 → ∃ C D : Bench, empties C 0 ∧ C = D.jrnSettle
        ∧ D.jrn.nextSeq = B.jrn.nextSeq + 1 ∧ D.jrn.items = B.jrn.items)
    ∧ (1 ≤ rd.val → rd.val ≤ 29 → ∃ C, moved C ∧ exec (.trd x rd) s = s.gives x.bench (C.completes x.core b fun t =>
        ((t.setX rd (v.extractLsb' 0 32)).setX (rd + 1) (v.extractLsb' 32 32)).setX (rd + 2) (v.extractLsb' 64 32)))
    ∧ (rd = 0 ∨ 29 < rd.val → exec (.trd x rd) s = s.gives x.bench (B.takeTrap x.core b { cause := .illegal, etval := word 0 rd.val 0 0 0x7B }))
    ∧ (c.authorises [permST] a 16 → a % 16 = 0 → B.plainMemory x.core b a 16 .w → B.mem.wf = true → ∃ C m, moved C ∧
        B.mem.storedAt m a (leBytes 16 v.toNat) ∧ exec (.trdc x cs1) s = s.gives x.bench ((C.withMem m).completes x.core b id))

/-- Chapter 13, R656, R659 to R666: the host queue pairs. A doorbell sets the tail and has its new entries read while the pair serves; in NAP
or OFF it is kept and raises the pair's event; a completion descriptor is carried out once its gate has passed, moves its data to the host
and writes one completion entry, and one for a slot that is not outstanding is counted and raises EV_CQ_BAD (680). A function-level reset
clears what the host holds there. -/
def Obligations.HostQueues : Prop :=
  ∀ (s : State) (b : BenchNo) (w : Writer) (n : Fin 256) (v : Word),
    let B := s.bench b
    let I := B.idleExit
    let q := B.hqp n.val
    let rings (B : Bench) : Bench := B.setHqp n.val { B.hqp n.val with sqtail := v.toNat % 4096 }
    (B.alive = true → B.hostUp = true →
      (B.asleep = true → exec (.sqDoorbell b n v) s = s.gives b ((rings B).raise n.val))
      ∧ (B.asleep = false → exec (.sqDoorbell b n v) s = s.gives b ((rings I).doorbell n.val))
      ∧ (B.asleep = false → I.serving (32 + n.val) = false ∨ (Table.wf Hqp.zero B.hq.pairs = true ∧ v.toNat % 4096 = q.sqadm ∧ q.sqadm < I.sqSize n.val) →
          exec (.sqDoorbell b n v) s = s.gives b (rings I)))
    ∧ (B.hostUp = false ∨ B.alive = false → exec (.sqDoorbell b n v) s = .next s)
    ∧ (B.accessOk w (0x408018 + 0x40 * n.val) .w = true → ∃ r : Word, r.toNat % 4096 = v.toNat % 4096
        ∧ exec (.cstailWrite b w n v) s = s.gives b ((I.setReg (0x408018 + 0x40 * n.val) r).csFetch n.val))
    ∧ (B.memoryRuns = true → ∀ d : CsDesc, q.devq = [] → q.desc = some d →
        let num (i k : Nat) : Nat := leNat ((d.desc.drop i).take k)
        let taken : Hqp := { q with desc := none, cshead := (q.cshead + 1) % B.csSize n.val }
        (B.drains (32 + n.val) = false ∨ B.hostUp = false ∨ (num 15 1 % 2 = 1 ∧ B.durSeq < d.gate) ∨ q.cqRoom = false →
          exec (.completionDescriptor b n) s = .next s)
        ∧ (B.drains (32 + n.val) = true → B.hostUp = true → (num 15 1 % 2 = 0 ∨ d.gate ≤ B.durSeq) → q.cqRoom = true →
          (q.out.lookup (num 12 2) = none → exec (.completionDescriptor b n) s = s.gives b
            ((Bench.msix (Bench.raise (B.setHqp n.val { taken with badcpl := if q.badcpl = 0xFF then q.badcpl else q.badcpl + 1 }) 680) 256).csFetch n.val))
          ∧ ∀ cookie, q.out.lookup (num 12 2) = some cookie →
              let C := B.setHqp n.val { taken with out := q.out.filter fun e => e.1 ≠ num 12 2 }
              let len := min (num 8 4) 65536
              ∀ l bad D, C.unitRead midHost 0 (num 0 8) len = ((l, bad), D) →
                (bad = none → exec (.completionDescriptor b n) s = s.gives b
                  (((D.unitWrite midHost 0 (0x3000000000 + num 16 8 % 2 ^ 36) l).cqWrite n.val cookie len
                    (if (d.desc.getD 14 0) = 0 ∨ (d.desc.getD 14 0).toNat ≥ 128 then d.desc.getD 14 0 else 0x80) 0).csFetch n.val))
                ∧ (bad ≠ none → exec (.completionDescriptor b n) s = s.gives b ((D.cqWrite n.val cookie 0 4 0).csFetch n.val))))
    ∧ (∀ (C : Bench) (cookie : Word) (len : Nat) (status reason : Byte), let q := C.hqp n.val
        ∃ D : Bench, C.cqWrite n.val cookie len status reason = D.msix n.val ∧
          D.out = (C.unitWrite midHost 0 (q.cqBase + 16 * (q.cqtail % q.cqSize)) (leBytes 4 cookie.toNat ++ leBytes 4 len ++ [status, reason]
            ++ leBytes 2 (C.sqHead n.val) ++ leBytes 4 (if q.phase then 1 else 0))).out)
    ∧ (s.dev.link = none → ∀ f, exec (.functionLevelReset f) s = .next s)
    ∧ (s.dev.link ≠ none →
        exec (.functionLevelReset 0) s = .next { s with dev := { s.dev with mbx := Mailbox.zero } }
        ∧ (B.alive = true → Table.wf Hqp.zero B.hq.pairs = true → ∃ E : Bench, exec (.functionLevelReset (b.succ)) s = s.gives b E
            ∧ E.hwin = [] ∧ E.hq.msix = [] ∧ ∀ k < 256, E.hqp k = Hqp.zero))

/-- Chapter 13, R652, R654, R657, R665, R680, R694 and chapter 01, R9 to R13: the host link, the host's accesses, and the register writes that
have no row of their own. -/
def Obligations.HostPortAndRegisterWrites : Prop :=
  ∀ (s : State) (b : BenchNo) (w : Writer) (rate : Fin 6) (lanes : Fin 17) (addr : BitVec 37) (n : BitVec 13) (l : List Byte) (v : Word),
    let d := s.dev
    let B := s.bench b
    let I := B.idleExit
    let down (t : State) : Prop := t.dev.link = none ∧ ∀ k, t.bench k = (if (s.bench k).alive = true ∧ (s.bench k).hostUp = true
      then Bench.raise { s.bench k with hostUp := false } 679 else { s.bench k with hostUp := false })
    let live : Prop := B.alive = true ∧ B.asleep = false ∧ d.held b = false
    let off := addr.toNat
    (d.perst = false → ∃ t, exec (.hostPerst true) s = .next t ∧ down t ∧ t.dev.perst = true ∧ t.dev.spdm = Spdm.zero
      ∧ t.dev.hostrst.toNat = (if d.phase = .por ∨ d.phase = .aonWait then d.hostrst.toNat else min (d.hostrst.toNat + 1) 0xFFFF))
    ∧ (d.perst = true → exec (.hostPerst false) s = .next { s with dev := { d with perst := false } })
    ∧ exec (.hostPerst d.perst) s = .next s
    ∧ (d.link ≠ none → ∃ t, exec (.hostLinkChange false rate lanes) s = .next t ∧ down t)
    ∧ (d.link = none → d.phyUp = true → d.pcieUp = true → d.perst = false → lanes.val ∈ [1, 2, 4, 8, 16] → ∃ t,
        exec (.hostLinkChange true rate lanes) s = .next t ∧ t.dev.link = some { rate := if d.ceiling.rate < rate then d.ceiling.rate else rate, lanes := if d.ceiling.lanes < lanes then d.ceiling.lanes else lanes }
        ∧ ∀ k, t.bench k = if (s.bench k).alive then (s.bench k).hostLink true else { s.bench k with hostUp := true })
    ∧ (d.phyUp = false ∨ d.pcieUp = false ∨ d.perst = true → exec (.hostLinkChange true rate lanes) s = .next s)
    ∧ (B.alive = true → B.hostUp = true → exec (.hostWindowTimeout b) s = s.gives b (B.raise 678))
    ∧ (B.alive = false ∨ B.hostUp = false → exec (.hostWindowTimeout b) s = .next s)
    ∧ (d.link = none → exec (.hostInboundAccess b addr (.read n)) s = .next s ∧ exec (.hostInboundAccess b addr (.write l)) s = .next s)
    ∧ (d.link ≠ none →
        (live → ∀ r bad C, I.unitRead midHost 0 off (min n.toNat (2 ^ 37 - off)) = ((r, bad), C) →
          exec (.hostInboundAccess b addr (.read n)) s = .next ((s.setBench b C).emit (.hostRead r bad.isSome)))
        ∧ (live → exec (.hostInboundAccess b addr (.write l)) s = s.gives b (I.unitWrite midHost 0 off (l.take (2 ^ 37 - off))))
        ∧ (¬live → exec (.hostInboundAccess b addr (.read n)) s = .next (s.emit (.hostRead (List.replicate n.toNat 0) false))
            ∧ exec (.hostInboundAccess b addr (.write l)) s = .next s))
    ∧ (off % 4 ≠ 0 → ∀ t, exec (.registerWrite t addr v) s = .next s)
    ∧ (off % 4 = 0 →
        (B.accessOk w off .w = true → exec (.registerWrite (.bench b w) addr v) s = s.gives b (I.regWrite w off v))
        ∧ (B.reaches w = false → exec (.registerWrite (.bench b w) addr v) s = .next s)
        ∧ (d.link ≠ none → live → exec (.registerWrite (.host b) addr v) s = s.gives b (I.hostViewWrite off v))
        ∧ (d.link = none ∨ ¬live → exec (.registerWrite (.host b) addr v) s = .next s)
        ∧ (d.link ≠ none → exec (.registerWrite .pf0 addr v) s = .next (s.pf0Write off v))
        ∧ (d.link = none → exec (.registerWrite .pf0 addr v) s = .next s))

/-- Chapter 13, R671: the SPDM responder, where the link is up and the DMC runs. A request is its bytes; one with a wrong header, out of its
order or of a wrong form is answered with ERROR, and any other with the response that the requests before it make due, over which R6 and
R671 have the device attestation key sign and the session's keys derive. The layouts and the codes are DSP0274's, which the spec adopts and
does not repeat; the choices that DSP0274 leaves are the model's own (log 47, log 48). -/
def Obligations.SpdmResponder : Prop :=
  ∀ (s : State) (m : List Byte), s.dev.link ≠ none → s.dev.dmcRuns = true →
    let p := s.dev.spdm
    let q : Spdm := { p with chain := [], meas := [] }
    let answers (i : Instr) (r : List Byte) (q : Spdm) : Prop := exec i s = .next (({ s with dev := { s.dev with spdm := q } }).emit (.spdm r))
    let err (e : Byte) : List Byte := [0x13, 0x7F, e, 0]
    let byte (i : Nat) : Byte := m.getD i 0
    let num (i n : Nat) : Nat := leNat ((m.drop i).take n)
    let rows : List (Instr × Byte) := [(.spdmGetVersion m, 0x84), (.spdmGetCapabilities m, 0xE1), (.spdmNegotiateAlgorithms m, 0xE3), (.spdmGetDigests m, 0x81),
      (.spdmGetCertificate m, 0x82), (.spdmChallenge m, 0x83), (.spdmGetMeasurements m, 0xE0), (.spdmKeyExchange m, 0xE4), (.spdmFinish m, 0xE5),
      (.spdmKeyUpdate m, 0xE9), (.spdmHeartbeat m, 0xE8), (.spdmEndSession m, 0xEC)]
    let head (code : Byte) : Prop := 4 ≤ m.length ∧ byte 1 = code ∧ byte 0 = if code = 0x84 then 0x10 else 0x13
    let ready (code : Byte) : Prop := head code ∧ p.phase = .algorithms
    let signed (context : String) (t sig : List Byte) : Prop := ∃ k, k < p384.n ∧
      sig = (p384.sign (1 + Config.attestKey % (p384.n - 1)) k (sha384 ((List.replicate 4 (ascii "dmtf-spdm-v1.3.*")).flatten
        ++ List.replicate (36 - (ascii context).length) 0 ++ ascii context ++ sha384 t))).getD (List.replicate 96 0)
    let goes (i : Instr) (r : List Byte) (q : Spdm) : Prop := ∃ t, exec i s = .next t ∧ t.dev.out = s.dev.out ++ [.spdm r] ∧ t.dev.spdm = q ∧ t.benches = s.benches
    let cert := sha384 Config.certificates
    let block (i : Nat) : List Byte := let v := s.dev.measurement i
      [BitVec.ofNat 8 i, 0x01] ++ leBytes 2 (v.length + 3) ++ [if i = 2 then 0x03 else if i = 3 then 0x02 else 0x01] ++ leBytes 2 v.length ++ v
    let summary (t : Byte) : List Byte := if t = 0 then [] else
      sha384 ((((List.range 11).map (· + 1)).filter fun i => t = 0xFF || Config.spdmTcb i).flatMap block)
    let summed (t : Byte) : Prop := t = 0 ∨ t = 1 ∨ t = 0xFF
    (∀ e ∈ rows, (m.length < 4 ∨ byte 1 ≠ e.2 → answers e.1 (err 0x01) p)
      ∧ (4 ≤ m.length → byte 1 = e.2 → byte 0 ≠ (if e.2 = 0x84 then 0x10 else 0x13) → answers e.1 (err 0x41) p)
      ∧ (e.2 ∉ [0x84, 0xE1, 0xE3] → head e.2 → p.phase ≠ .algorithms → answers e.1 (err 0x04) p))
    ∧ (head 0x84 → answers (.spdmGetVersion m) [0x10, 0x04, 0, 0, 0, 1, 0x00, 0x13]
        { Spdm.zero with phase := .version, vca := m ++ [0x10, 0x04, 0, 0, 0, 1, 0x00, 0x13] })
    ∧ (head 0xE1 →
        (p.phase ≠ .version → answers (.spdmGetCapabilities m) (err 0x04) p)
        ∧ (p.phase = .version → m.length ≠ 20 ∨ num 12 4 < 42 ∨ num 16 4 < num 12 4 → answers (.spdmGetCapabilities m) (err 0x01) p)
        ∧ (p.phase = .version → m.length = 20 → 42 ≤ num 12 4 → num 12 4 ≤ num 16 4 → ∃ r : List Byte, r.length = 20 ∧ r.take 5 = [0x13, 0x61, 0, 0, 0]
            ∧ (r.drop 8).take 4 = [0xD6, 0x62, 0, 0] ∧ answers (.spdmGetCapabilities m) r { p with phase := .capabilities, vca := p.vca ++ m ++ r }))
    ∧ (head 0xE3 →
        let ext := 4 * (num 28 1 + num 29 1)
        let algs := spdmAlgs (num 2 1) (m.drop (32 + ext))
        let offered : Prop := 32 + ext ≤ m.length ∧ num 4 2 = m.length ∧ (num 8 4).testBit 7 = true ∧ (num 12 4).testBit 1 = true
        (p.phase ≠ .capabilities → answers (.spdmNegotiateAlgorithms m) (err 0x04) p)
        ∧ (p.phase = .capabilities → algs = none ∨ ¬offered → answers (.spdmNegotiateAlgorithms m) (err 0x01) p)
        ∧ ∀ l, p.phase = .capabilities → algs = some l → offered → ∃ r : List Byte, r.take 4 = [0x13, 0x63, BitVec.ofNat 8 l.length, 0]
            ∧ (r.drop 12).take 8 = [0x80, 0, 0, 0, 0x02, 0, 0, 0] ∧ (r.drop 36) = l.flatMap (fun a => [a.1, 0x20] ++ leBytes 2 (spdmSelect a))
            ∧ answers (.spdmNegotiateAlgorithms m) r { p with
                phase := .algorithms, vca := p.vca ++ m ++ r
                keyed := [2, 3, 5].all fun t => l.any fun a => a.1.toNat = t && spdmSelect a ≠ 0 })
    ∧ (ready 0x81 →
        (m.length ≠ 4 → answers (.spdmGetDigests m) (err 0x01) { p with meas := [] })
        ∧ (m.length = 4 → let r := [0x13, 0x01, 1, 1] ++ cert
            answers (.spdmGetDigests m) r { p with meas := [], chain := p.chain ++ m ++ r }))
    ∧ (ready 0x82 →
        let chain := Config.certificates
        let fits : Prop := m.length = 8 ∧ (byte 2).toNat % 16 = 0 ∧ byte 3 = 0 ∧ num 4 2 < chain.length
        (¬fits → answers (.spdmGetCertificate m) (err 0x01) { p with meas := [] })
        ∧ (fits → let l := (chain.drop (num 4 2)).take (num 6 2)
            let r := [0x13, 0x02, 0, 0] ++ leBytes 2 l.length ++ leBytes 2 (chain.length - num 4 2 - l.length) ++ l
            answers (.spdmGetCertificate m) r { p with meas := [], chain := p.chain ++ m ++ r }))
    ∧ (ready 0x83 →
        let fits : Prop := m.length = 44 ∧ (byte 2).toNat % 16 = 0 ∧ summed (byte 3)
        (¬fits → answers (.spdmChallenge m) (err 0x01) { p with meas := [] })
        ∧ (fits → ∃ nonce sig : List Byte, let r := [0x13, 0x03, 0, 1] ++ cert ++ nonce ++ summary (byte 3) ++ [0, 0] ++ (m.drop 36).take 8
            nonce.length = 32 ∧ signed "responder-challenge_auth signing" (p.vca ++ p.chain ++ m ++ r) sig ∧ goes (.spdmChallenge m) (r ++ sig) q))
    ∧ (ready 0xE0 →
        let sign := (byte 2).getLsbD 0
        let op := (byte 3).toNat
        let fits : Prop := m.length = (if sign then 45 else 12) ∧ (sign = true → (byte 36).toNat % 16 = 0) ∧ (op ≤ 11 ∨ op = 255)
        let is := if op = 0 then [] else if op = 255 then (List.range 11).map (· + 1) else [op]
        let l := is.flatMap block
        (¬fits → answers (.spdmGetMeasurements m) (err 0x01) q)
        ∧ (fits → ∃ nonce sig : List Byte,
            let r := [0x13, 0x60, if op = 0 then 11 else 0, 0, BitVec.ofNat 8 is.length] ++ leBytes 3 l.length ++ l ++ nonce ++ [0, 0] ++ (m.drop (m.length - 8)).take 8
            nonce.length = 32
            ∧ (sign = false → goes (.spdmGetMeasurements m) r { p with chain := [], meas := p.meas ++ m ++ r })
            ∧ (sign = true → signed "responder-measurements signing" (p.vca ++ p.meas ++ m ++ r) sig ∧ goes (.spdmGetMeasurements m) (r ++ sig) q)))
    ∧ (ready 0xE4 →
        let fits : Prop := 138 ≤ m.length ∧ m.length = 138 + num 136 2 ∧ (byte 3).toNat % 16 = 0 ∧ summed (byte 2)
        let point := p384.decode (4 :: (m.drop 40).take 96)
        (p.keyed = false → answers (.spdmKeyExchange m) (err 0x07) q)
        ∧ (p.keyed = true → p.session ≠ none → answers (.spdmKeyExchange m) (err 0x0A) q)
        ∧ (p.keyed = true → p.session = none → ¬fits ∨ point = none → answers (.spdmKeyExchange m) (err 0x01) q)
        ∧ (p.keyed = true → p.session = none → fits → point ≠ none → ∃ (c : SpdmSession) (r sig verify : List Byte),
            let th := p.vca ++ cert ++ m ++ r ++ sig
            r.take 2 = [0x13, 0x64] ∧ c.established = false ∧ c.updating = false ∧ c.id.extractLsb' 0 16 = BitVec.ofNat 16 (num 4 2)
            ∧ signed "responder-key_exchange_rsp signing" (p.vca ++ cert ++ m ++ r) sig
            ∧ verify = hmac384 (spdmExpand c.rspSecret "finished" []) (sha384 th) ∧ c.th = th ++ verify
            ∧ c.reqSecret = spdmExpand c.handshake "req hs data" (sha384 th) ∧ c.rspSecret = spdmExpand c.handshake "rsp hs data" (sha384 th)
            ∧ goes (.spdmKeyExchange m) (r ++ sig ++ verify) { q with session := some c }))
    ∧ (p.session = none → ∀ e ∈ [(Instr.spdmFinish m, 0xE5), (.spdmKeyUpdate m, 0xE9), (.spdmHeartbeat m, 0xE8), (.spdmEndSession m, 0xEC)],
        ready e.2 → answers e.1 (err 0x0B) q)
    ∧ (∀ c, p.session = some c →
        (ready 0xE5 →
          let good : Prop := (m.drop 4).take 48 = hmac384 (spdmExpand c.reqSecret "finished" []) (sha384 (c.th ++ m.take 4))
          let th := sha384 (c.th ++ m ++ [0x13, 0x65, 0, 0])
          let master := hmac384 (spdmExpand c.handshake "derived" []) (List.replicate 48 0)
          (c.established = true → answers (.spdmFinish m) (err 0x04) q)
          ∧ (c.established = false → m.length ≠ 52 ∨ (byte 2).getLsbD 0 = true → answers (.spdmFinish m) (err 0x01) q)
          ∧ (c.established = false → m.length = 52 → (byte 2).getLsbD 0 = false →
            (¬good → answers (.spdmFinish m) (err 0x06) { q with session := none })
            ∧ (good → answers (.spdmFinish m) [0x13, 0x65, 0, 0] { q with session := some { c with
                established := true, reqSecret := spdmExpand master "req app data" th, rspSecret := spdmExpand master "rsp app data" th } })))
        ∧ (c.established = false → ∀ e ∈ [(Instr.spdmKeyUpdate m, 0xE9), (.spdmHeartbeat m, 0xE8), (.spdmEndSession m, 0xEC)],
            ready e.2 → answers e.1 (err 0x04) q)
        ∧ (c.established = true →
          (ready 0xE9 →
            let op := (byte 2).toNat
            let next (k : List Byte) : List Byte := spdmExpand k "traffic upd" []
            let fits : Prop := m.length = 4 ∧ (if c.updating then op = 3 else op = 1 ∨ op = 2)
            (¬fits → answers (.spdmKeyUpdate m) (err 0x01) q)
            ∧ (fits → answers (.spdmKeyUpdate m) [0x13, 0x69, byte 2, byte 3] { q with session := some { c with
                updating := decide (op ≠ 3), reqSecret := if op = 3 then c.reqSecret else next c.reqSecret
                rspSecret := if op = 2 then next c.rspSecret else c.rspSecret } }))
          ∧ (ready 0xE8 → (m.length ≠ 4 → answers (.spdmHeartbeat m) (err 0x01) q) ∧ (m.length = 4 → answers (.spdmHeartbeat m) [0x13, 0x68, 0, 0] q))
          ∧ (ready 0xEC → (m.length ≠ 4 → answers (.spdmEndSession m) (err 0x01) q)
            ∧ (m.length = 4 → answers (.spdmEndSession m) [0x13, 0x6C, 0, 0] { q with session := none }))))

/-- Chapters 13 to 15, R667, R669, R670, R685, R694, R717, R763: the mailbox, its reports and its resets. A command that the mailbox does not
run changes nothing; one that it runs ends with RESULT, the response, and MSI-X vector 0 of PF0 where the link is up. -/
def Obligations.MailboxReportsAndResets : Prop :=
  ∀ (s : State) (b : BenchNo),
    let d := s.dev
    let l := d.mbx.request
    let byte (i : Nat) : Nat := (l.getD i 0).toNat
    let ends (i : Instr) (t : State) (r : Nat) (resp : List Byte) : Prop := exec i s = .next (t.mbxEnd r resp)
    let runs (op sub : Nat) : Prop := d.mbx.busy = true ∧ d.mbx.op.toNat = op ∧ d.dmcRuns = true ∧ (d.mbx.req.get 0 0).toNat = sub
    let bit : Byte := BitVec.ofNat 8 (2 ^ b.val)
    let attested (i : Instr) (ctx : String) (m : List Byte) (chained : Bool) : Prop :=
      ends i (s.attest ctx m chained).2 0 (s.attest ctx m chained).1
    (∀ r resp, let t := s.mbxEnd r resp
        t.dev.mbx = { d.mbx with busy := false, result := BitVec.ofNat 8 r, resp := resp } ∧ t.benches = s.benches
        ∧ t.dev.out = (if d.link = none then d.out else d.out ++ [.msix 0]))
    ∧ (d.mbx.busy = false ∨ d.dmcRuns = false → ∀ i ∈ [Instr.getInfo, .benchReset, .benchHold, .benchRelease, .deviceReset, .stageBegin, .stageWrite,
          .stageFinish true true, .fuseReport, .attestPq, .lifecycleNonce, .lifecycleAdvance, .lifecycleConfirm, .lifecycleDebugcred, .tamperClear,
          .rmaReport, .cerOpen, .cerShare, .cerAbort, .epochAdvanceOpen, .epochAdvanceSign, .epochAdvanceCancel], exec i s = .next s)
    ∧ (∀ sub, runs 0x01 sub →
        (l ≠ [] → ends .getInfo s 2 [])
        ∧ (l = [] → ends .getInfo s 0 ([1, 0, 0, 0] ++ leBytes 4 d.devid.toNat ++ serial
            ++ [BitVec.ofNat 8 d.fuses.lifecycle, d.code.zeroExtend 8, d.slot.zeroExtend 8, d.restarts.zeroExtend 8] ++ leBytes 4 d.imgseq.toNat
            ++ leBytes 4 d.imgver.toNat ++ [d.heldByte, d.enabled, BitVec.ofNat 8 d.fuses.epoch, 0]
            ++ (List.finRange 8).map (fun k => if d.held k then 0x30 else
              BitVec.ofNat 8 (((s.bench k).ustate 0).effective.toNat + (s.bench k).pwr.effective.toNat * 16))
            ++ leBytes 4 d.tamper.word.toNat ++ leBytes 4 s.dbgstat.toNat ++ List.replicate 8 0)))
    ∧ (∀ i a, (i, a) ∈ [(Instr.benchReset, 1), (.benchHold, 2), (.benchRelease, 3)] → runs 0x02 a →
        (l.length < 2 → ends i s 2 []) ∧ (2 ≤ l.length → 8 ≤ byte 1 → ends i s 5 []))
    ∧ (2 ≤ l.length → byte 1 = b.val →
        let R := s.setBench b ((s.bench b).requestReset 0x12 2)
        (runs 0x02 1 → ends .benchReset R 0 [])
        ∧ (runs 0x02 2 → ends .benchHold { R with dev := { d with holdReq := d.holdReq ||| bit } } 0 [])
        ∧ (runs 0x02 3 → d.held b = true → d.enabled.getLsbD b.val = true → d.fuses.lifecycle ≠ 3 →
            ends .benchRelease { s with dev := { d with holdReq := d.holdReq &&& ~~~bit } } 0 [])
        ∧ (runs 0x02 3 → d.held b = false ∨ d.enabled.getLsbD b.val = false ∨ d.fuses.lifecycle = 3 → ends .benchRelease s 3 []))
    ∧ (runs 0x02 0x10 → (l.length < 2 → ends .deviceReset s 2 [])
        ∧ (2 ≤ l.length → d.softDue = none → ends .deviceReset { s with dev := { d with softDue := some (d.elapsed + 1000) } } 0 []))
    ∧ (∀ sub, runs 0x13 sub → ends .fuseReport s 0 ([1, 0] ++ leBytes 2 d.fuses.log.length ++ [0, 0, 0, 0] ++ d.fuses.report
        ++ (d.fuses.log.take 203).flatMap fun e => [e.id, e.value] ++ leBytes 6 e.time.toNat))
    ∧ (∀ sub, runs 0x30 sub → (l.length ≠ 32 → ends .attestPq s 2 [])
        ∧ (l.length = 32 → attested .attestPq "KX8112 ATT" ([1, 0, 11, 0] ++ l ++ serial ++ leBytes 4 d.devid.toNat
            ++ ((List.range 11).flatMap fun i => d.measurement (i + 1)) ++ dsaPublic 0x22 Config.attestSeed) true))
    ∧ (∀ sub, runs 0x41 sub → (d.fuses.lifecycle ≠ 3 → d.fuses.lifecycle ≠ 4 → ends .rmaReport s 3 [])
        ∧ (d.fuses.lifecycle = 3 ∨ d.fuses.lifecycle = 4 → (l.length ≠ 32 → ends .rmaReport s 2 [])
            ∧ (l.length = 32 → attested .rmaReport "KX8112 RMA" ([1, 0, BitVec.ofNat 8 d.fuses.lifecycle, 0] ++ l ++ serial ++ leBytes 4 d.devid.toNat
                ++ d.fuses.report ++ sha384 d.fuses.logBytes ++ leBytes 4 d.tamper.word.toNat ++ [0, 0, 0, 0]
                ++ (s.benches.toList.flatMap fun B => if B.jrn.genesis then
                    leBytes 8 B.jrn.jid.toNat ++ leBytes 8 B.jrn.nextSeq ++ beBytes 48 B.jrn.chain.toNat else List.replicate 64 0)
                ++ (s.benches.toList.flatMap fun B => leBytes 4 B.vaultStat.toNat) ++ exact 48 d.advanceDigest) false)))

/-- Chapter 09, R439 to R447 and R749: ceremonies on the bench that the command names, and the epoch advance of the device. -/
def Obligations.CeremoniesAndEpochs : Prop :=
  ∀ (s : State) (b : BenchNo),
    let d := s.dev
    let B := s.bench b
    let I := B.idleExit
    let l := d.mbx.request
    let prof := d.committed.bind (·.profile)
    let ends (i : Instr) (t : State) (r : Nat) (resp : List Byte) : Prop := exec i s = .next (t.mbxEnd r resp)
    let runs (op : Nat) : Prop := d.mbx.busy = true ∧ d.mbx.op.toNat = op ∧ d.dmcRuns = true
    let runsSub (sub : Nat) : Prop := runs 0x23 ∧ (d.mbx.req.get 0 0).toNat = sub
    (∀ i op len n, (i, op, len, n) ∈ [(Instr.cerOpen, 0x20, 48, 1), (.cerShare, 0x21, 6681, 2), (.cerAbort, 0x22, 4, 1)] → runs op →
      (l.length ≠ len → ends i s 2 [])
      ∧ (l.length = len → (∀ k : BenchNo, k.val = (l.headD 0).toNat → d.held k = true) → ends i s 5 [])
      ∧ (l.length = len → (l.headD 0).toNat = b.val → d.held b = false → prof = none → ends i s 3 [])
      ∧ (l.length = len → (l.headD 0).toNat = b.val → d.held b = false → prof ≠ none → B.alive = true → B.jrnRoom n = false → exec i s = .next s))
    ∧ (∀ p, prof = some p → d.held b = false → (l.headD 0).toNat = b.val →
        (runs 0x20 → l.length = 48 → B.alive = false ∨ B.jrnRoom 1 = true →
          (d.tamper.tampered = true → ends .cerOpen s 3 [])
          ∧ (d.tamper.tampered = false → I.vault.ceremony ≠ none ∨ I.vault.previous ≠ none ∨ I.running = false ∨ I.drbg.inst = false ∨ I.drbg.error = true →
              ends .cerOpen (s.setBench b I) 3 [])
          ∧ (d.tamper.tampered = false → I.vault.ceremony = none → I.vault.previous = none → I.running = true → I.drbg.inst = true → I.drbg.error = false →
              ∃ (t : State) (c : Ceremony) (e q : List Byte), exec .cerOpen s = .next (t.mbxEnd 0 ([1, 0, BitVec.ofNat 8 b.val, I.ctl.epoch.zeroExtend 8] ++ c.nonce ++ serial
                  ++ x25519Base c.xPriv ++ kemPublic 0x25 c.kemSeed ++ e ++ q))
                ∧ (t.bench b).vault.ceremony = some c ∧ c.nonce = (l.drop 4).take 32 ∧ c.shares = [] ∧ c.since = B.time.elapsed))
        ∧ (runs 0x21 → l.length = 6681 → B.alive = false ∨ B.jrnRoom 2 = true →
          let pkg := (l.drop 16).take 4616
          (B.vault.ceremony = none → ends .cerShare s 3 [])
          ∧ ∀ c, B.vault.ceremony = some c →
            let check := I.cerCheck p c pkg ((l.drop 4632).take 97) ((l.drop 4729).take 1952)
            (∀ n, check = .error n → ∃ E : Bench, ends .cerShare (s.setBench b E) 0
                ([BitVec.ofNat 8 (16 + n), BitVec.ofNat 8 c.shares.length, BitVec.ofNat 8 p.quorum] ++ List.replicate 13 0) ∧ E.vault.ceremony = some c)
            ∧ ∀ v, check = .ok v →
              let shares := c.shares ++ [((pkg.getD 36 0).toNat, (pkg.getD 37 0).toNat, v)]
              let key := shamir (shares.map fun s => s.2)
              (shares.length < p.quorum → ∃ E : Bench, ends .cerShare (s.setBench b E) 0
                ([0, BitVec.ofNat 8 shares.length, BitVec.ofNat 8 p.quorum] ++ List.replicate 13 0) ∧ E.vault.ceremony = some { c with shares := shares })
              ∧ (p.quorum ≤ shares.length → (c.check = none ∨ c.check = some (checkValue key)) → ∃ (E : Bench) (resp : List Byte), ends .cerShare (s.setBench b E) 0 resp
                ∧ E.vault.ceremony = none ∧ E.vault.current = some key ∧ E.vault.bbEpoch = I.ctl.epoch
                ∧ E.vault.previous = (if I.vault.current = none then I.vault.previous else I.vault.current) ∧ resp.headD 0 = 1)
              ∧ (p.quorum ≤ shares.length → c.check ≠ none → c.check ≠ some (checkValue key) → ∃ (E : Bench) (resp : List Byte), ends .cerShare (s.setBench b E) 0 resp
                ∧ E.vault.ceremony = none ∧ E.vault.current = I.vault.current ∧ resp.headD 0 = 2))
        ∧ (runs 0x22 → l.length = 4 → B.alive = false ∨ B.jrnRoom 1 = true →
          (B.vault.ceremony = none → ends .cerAbort s 3 [])
          ∧ (B.vault.ceremony ≠ none → ∃ E : Bench, ends .cerAbort (s.setBench b E) 0 [] ∧ E.vault.ceremony = none ∧ E.vault.current = B.vault.current)))
    ∧ (B.alive = true →
        (∀ c, B.vault.ceremony = some c → ((prof.map (·.timeout)).getD 0) * 1000000 ≤ B.time.elapsed - c.since → ∃ E : Bench, exec (.ceremonyTimeout b) s = s.gives b E
            ∧ E.vault.ceremony = none)
        ∧ (∀ c, B.vault.ceremony = some c → B.time.elapsed - c.since < ((prof.map (·.timeout)).getD 0) * 1000000 → exec (.ceremonyTimeout b) s = .next s)
        ∧ (B.vault.ceremony = none → exec (.ceremonyTimeout b) s = .next s))
    ∧ (runsSub 1 → (l.length ≠ 4 → ends .epochAdvanceOpen s 2 [])
        ∧ (l.length = 4 → prof = none ∨ 64 ≤ d.fuses.epoch → ends .epochAdvanceOpen s 3 [])
        ∧ (∀ p, l.length = 4 → prof = some p → d.fuses.epoch < 64 → ∃ (t : State) (n : List Byte), n.length = 32 ∧ t.benches = s.benches
            ∧ exec .epochAdvanceOpen s = .next (t.mbxEnd 0 (n ++ serial ++ [BitVec.ofNat 8 d.fuses.epoch, BitVec.ofNat 8 p.quorum,
                BitVec.ofNat 8 p.custodians.length, 0])) ∧ t.dev.epochAdv = some { nonce := n, signed := [], since := d.elapsed }))
    ∧ ((∃ k, (s.bench k).alive = true ∧ (s.bench k).jrnRoom 1 = false) → exec .epochAdvanceSign s = .next s)
    ∧ (runsSub 2 → (∀ k, (s.bench k).alive = false ∨ (s.bench k).jrnRoom 1 = true) →
        (l.length ≠ 5524 → ends .epochAdvanceSign s 2 [])
        ∧ (l.length = 5524 → prof = none ∨ d.epochAdv = none → ends .epochAdvanceSign s 3 [])
        ∧ ∀ p a, l.length = 5524 → prof = some p → d.epochAdv = some a →
            let e := d.fuses.epoch
            let m := (l.drop 4).take 60
            let cust := (l.getD 1 0).toNat
            let signed := a.signed ++ [cust]
            (m ≠ a.nonce ++ serial ++ [BitVec.ofNat 8 e, BitVec.ofNat 8 (e + 1)] ++ List.replicate 10 0 → ends .epochAdvanceSign s 3 [])
            ∧ (m = a.nonce ++ serial ++ [BitVec.ofNat 8 e, BitVec.ofNat 8 (e + 1)] ++ List.replicate 10 0 → ∀ k, p.custodians[cust]? = some k →
                k.keysMatch ((l.drop 3472).take 97) ((l.drop 3569).take 1952) = true → a.signed.contains cust = false →
                custodianSigns ((l.drop 3472).take 97) ((l.drop 3569).take 1952) (ascii "KX8112 EPO") m ((l.drop 64).take 96) ((l.drop 160).take 3309) = true →
                (signed.length < p.quorum → ends .epochAdvanceSign { s with dev := { d with epochAdv := some { a with signed := signed } } } 0
                  [BitVec.ofNat 8 signed.length, BitVec.ofNat 8 p.quorum, 0, BitVec.ofNat 8 e])
                ∧ (p.quorum ≤ signed.length → ∃ t : State, ends .epochAdvanceSign t 0
                    [BitVec.ofNat 8 signed.length, BitVec.ofNat 8 p.quorum, 1, BitVec.ofNat 8 (e + 1)]
                  ∧ t.dev.epochAdv = none ∧ t.dev.fuses.epoch = e + 1 ∧ ∀ k, t.bench k = (s.bench k).newEpoch (e + 1))))
    ∧ (runsSub 3 → (l.length ≠ 4 → ends .epochAdvanceCancel s 2 []) ∧ (l.length = 4 → d.epochAdv = none → ends .epochAdvanceCancel s 3 [])
        ∧ (l.length = 4 → d.epochAdv ≠ none → ends .epochAdvanceCancel { s with dev := { d with epochAdv := none } } 0 []))
    ∧ (∀ a p, d.epochAdv = some a → prof = some p →
        (p.timeout * 1000000 ≤ d.elapsed - a.since → exec .epochAdvanceTimeout s = .next { s with dev := { d with epochAdv := none } })
        ∧ (d.elapsed - a.since < p.timeout * 1000000 → exec .epochAdvanceTimeout s = .next s))
    ∧ (d.epochAdv = none → exec .epochAdvanceTimeout s = .next s)

/-- Chapter 14, R713, R714 and chapter 15, R722 to R725, R747: staging and the lifecycle. Every lifecycle request but NONCE uses the nonce up. -/
def Obligations.StagingAndLifecycle : Prop :=
  ∀ (s : State),
    let d := s.dev
    let f := d.fuses
    let l := d.mbx.request
    let num (o n : Nat) : Nat := leNat ((l.drop o).take n)
    let ends (i : Instr) (t : State) (r : Nat) (resp : List Byte) : Prop := exec i s = .next (t.mbxEnd r resp)
    let runs (op : Nat) : Prop := d.mbx.busy = true ∧ d.mbx.op.toNat = op ∧ d.dmcRuns = true
    let runsSub (sub : Nat) : Prop := runs 0x40 ∧ (d.mbx.req.get 0 0).toNat = sub
    let spent : State := { s with dev := { d with nonce := none } }
    let formed (target len : Nat) : Prop := l.length = len ∧ num 1 1 = target ∧ num 2 2 = 0
    let fresh : Prop := d.nonce = some ((l.drop 4).take 32) ∧ (l.drop 36).take 16 = serial
    let stages (t : Device) : State := { s with dev := t }
    (runs 0x10 → (l.length ≠ 8 → ends .stageBegin s 2 [])
      ∧ (l.length = 8 → 2 < num 0 1 ∨ d.staging ≠ none ∨ (∃ i, d.committed = some i ∧ i.slot.toNat = num 0 1) → ends .stageBegin s 3 [])
      ∧ (l.length = 8 → num 0 1 ≤ 2 → d.staging = none → (∀ i, d.committed = some i → i.slot.toNat ≠ num 0 1) →
          ends .stageBegin (stages { d with
            flash := d.flash.filter fun e => e.1 < num 0 1 * 0x1000000 || (num 0 1 + 1) * 0x1000000 ≤ e.1
            staging := some { slot := num 0 1, len := num 4 4, header := List.replicate 128 0 } }) 0 []))
    ∧ (runs 0x11 → (d.staging = none → ends .stageWrite s 3 [])
      ∧ ∀ g, d.staging = some g → let o := num 0 8; let data := l.drop 8
          (l.length < 8 ∨ min g.len 0x1000000 < o + data.length → ends .stageWrite s 2 [])
          ∧ (8 ≤ l.length → o + data.length ≤ min g.len 0x1000000 →
              let head := (g.header.take o ++ data.take (128 - o) ++ g.header.drop (o + (data.take (128 - o)).length)).take 128
              ends .stageWrite (stages { d with
                staging := some (if o < 128 then { g with header := head } else g)
                flash := (data.drop (128 - o)).zipIdx.foldl (fun (t : Table Byte) e => Table.set 0xFF t (g.slot * 0x1000000 + max o 128 + e.2) e.1) d.flash }) 0 []))
    ∧ (runs 0x12 → ∀ reads writes : Bool, (d.staging = none → ends (.stageFinish reads writes) s 3 [])
      ∧ ∀ g, d.staging = some g →
          let check := d.checkImage { flash := d.flash, base := g.slot * 0x1000000, header := some g.header }
          let v := if reads = false ∨ (check = 0 ∧ writes = false) then 1 else check
          let erased := d.flash.filter fun e => e.1 < g.slot * 0x1000000 || (g.slot + 1) * 0x1000000 ≤ e.1
          (l ≠ [] → ends (.stageFinish reads writes) s 2 [])
          ∧ (l = [] → v ≠ 0 → ends (.stageFinish reads writes) (stages { d with flash := erased, staging := none }) 0 [BitVec.ofNat 8 v])
          ∧ (l = [] → v = 0 → ends (.stageFinish reads writes) (stages { d with
              flash := programFlash d.flash (g.slot * 0x1000000) g.header, staging := none }) 0 [0]))
    ∧ (runsSub 1 → (l.length < 4 ∨ num 1 1 ≠ 0 ∨ num 2 2 ≠ 0 → ends .lifecycleNonce s 3 [])
      ∧ (4 ≤ l.length → num 1 1 = 0 → num 2 2 = 0 → ∃ (t : State) (n : List Byte), exec .lifecycleNonce s = .next (t.mbxEnd 0 (n ++ serial)) ∧ n.length = 32
          ∧ t.dev.nonce = some n ∧ t.dev.fuses = f ∧ t.benches = s.benches))
    ∧ (∀ i sub, (i, sub) ∈ [(Instr.lifecycleAdvance, 2), (.lifecycleConfirm, 3), (.lifecycleDebugcred, 4), (.tamperClear, 5)] → runsSub sub →
        ∃ t : State, exec i s = .next t ∧ t.dev.nonce = none)
    ∧ (runsSub 2 → (4 ≤ f.lifecycle → ends .lifecycleAdvance spent 3 [])
      ∧ (f.lifecycle < 4 → ¬formed (f.lifecycle + 1) (if f.lifecycle = 1 then 292 else 7464) → ends .lifecycleAdvance spent 3 [])
      ∧ (f.lifecycle < 4 → formed (f.lifecycle + 1) (if f.lifecycle = 1 then 292 else 7464) → (¬fresh → ends .lifecycleAdvance spent 4 [])
        ∧ (fresh → f.lifecycle ≠ 1 → f.signerOk (f.lifecycle ≠ 2) l 52 = false → ends .lifecycleAdvance spent 4 [])
        ∧ (fresh → f.lifecycle ≠ 1 → f.signerOk (f.lifecycle ≠ 2) l 52 = true → d.dbg.level = 0 → ∃ t : State, ends .lifecycleAdvance t 0 []
            ∧ t.dev.fuses.lifecycle = f.lifecycle + 1
            ∧ (∃ time, t.dev.fuses.log = f.log ++ [{ id := 1, value := BitVec.ofNat 8 (f.lifecycle + 1), time := time }]
                ∧ (f.lifecycle ≠ 2 → time = s.taiSeconds))
            ∧ (d.softDue = none → t.dev.softDue = some (d.elapsed + 1000))
            ∧ (f.lifecycle = 2 → t.dev.advanceDigest = sha384 l ∧ ∀ k, (t.bench k).vault.current = none ∧ (t.bench k).vault.zeroised = true)
            ∧ (f.lifecycle ≠ 2 → t.benches = s.benches))
        ∧ (fresh → f.lifecycle = 1 → digestSet ((l.drop 52).take 48) = true → digestSet ((l.drop 244).take 48) = true →
            let c : Confirm := { digests := [(l.drop 52).take 48, (l.drop 100).take 48, (l.drop 148).take 48, (l.drop 196).take 48, (l.drop 244).take 48]
                                 code := (sha384 l).take 8, since := d.elapsed }
            ends .lifecycleAdvance { s with dev := { d with nonce := none, confirm := some c } } 0 ((sha384 l).take 8))
        ∧ (fresh → f.lifecycle = 1 → digestSet ((l.drop 52).take 48) = false ∨ digestSet ((l.drop 244).take 48) = false → ends .lifecycleAdvance spent 3 [])))
    ∧ (runsSub 3 → let off : State := { s with dev := { d with nonce := none, confirm := none } }
      (¬formed 0 60 → ends .lifecycleConfirm off 3 []) ∧ (formed 0 60 → ¬fresh → ends .lifecycleConfirm off 4 [])
      ∧ (formed 0 60 → fresh → d.confirm = none → ends .lifecycleConfirm off 3 [])
      ∧ ∀ c, formed 0 60 → fresh → d.confirm = some c →
          (f.lifecycle ≠ 1 ∨ 10000000 < d.elapsed - c.since → ends .lifecycleConfirm off 3 [])
          ∧ (f.lifecycle = 1 → d.elapsed - c.since ≤ 10000000 → (l.drop 52).take 8 ≠ c.code → ends .lifecycleConfirm off 4 [])
          ∧ (f.lifecycle = 1 → d.elapsed - c.since ≤ 10000000 → (l.drop 52).take 8 = c.code → d.dbg.level = 0 → ∃ t : State, ends .lifecycleConfirm t 0 []
              ∧ t.dev.fuses.lifecycle = 2 ∧ t.dev.confirm = none ∧ t.dev.fuses.creds[0] = c.digests.getD 4 []
              ∧ (∀ k : Fin 4, digestSet (c.digests.getD k.val []) = true → t.dev.fuses.roots[k] = c.digests.getD k.val [])
              ∧ (d.softDue = none → t.dev.softDue = some (d.elapsed + 1000))))
    ∧ (runsSub 4 → (f.lifecycle ≠ 2 → ends .lifecycleDebugcred spent 3 [])
      ∧ (f.lifecycle = 2 → (¬formed 0 7512 → ends .lifecycleDebugcred spent 3 []) ∧ (formed 0 7512 → ¬fresh → ends .lifecycleDebugcred spent 4 [])
        ∧ (formed 0 7512 → fresh → (f.signerOk false l 100 = false → ends .lifecycleDebugcred spent 4 [])
          ∧ (f.signerOk false l 100 = true → 4 ≤ f.debugcred → ends .lifecycleDebugcred spent 3 [])
          ∧ (f.signerOk false l 100 = true → f.debugcred < 4 → ∃ t : State, ends .lifecycleDebugcred t 0 [] ∧ t.dev.fuses.debugcred = f.debugcred + 1
              ∧ t.dev.fuses.creds.toList.getD (f.debugcred + 1) [] = (l.drop 52).take 48 ∧ t.benches = s.benches))))
    ∧ (runsSub 5 → (f.lifecycle = 0 → ends .tamperClear spent 3 [])
      ∧ (f.lifecycle ≠ 0 → (¬formed 0 7464 → ends .tamperClear spent 3 []) ∧ (formed 0 7464 → ¬fresh → ends .tamperClear spent 4 [])
        ∧ (formed 0 7464 → fresh → (f.signerOk (f.lifecycle ≠ 2) l 52 = false → ends .tamperClear spent 4 [])
          ∧ (f.signerOk (f.lifecycle ≠ 2) l 52 = true → d.tamper.live ≠ 0 → ends .tamperClear spent 3 [])
          ∧ (f.signerOk (f.lifecycle ≠ 2) l 52 = true → d.tamper.live = 0 → ∃ t : State, ends .tamperClear t 0 []
              ∧ t.dev.tamper = { d.tamper with tampered := false, cause := 0 } ∧ ∀ k, t.bench k = { s.bench k with jrn := { (s.bench k).jrn with tamper := none } }))))

/-- Chapter 14, R674 to R689 and chapter 16, R771, R772, R774: the sources of the device-level resets, their causes, and what such a reset
leaves: the fuses, the flash, the tamper circuits and the clock stay, every bench is reset with BRSTCAUSE DEVICE (2), and release begins
anew. -/
def Obligations.DeviceResets : Prop :=
  ∀ (s : State) (armed : Bool),
    let d := s.dev
    let inPor : Prop := d.phase = .por ∨ d.phase = .aonWait
    let begins : Phase := if d.resetN then .fuse else .pinHold
    (∀ cause aon, (inPor → s.deviceReset cause aon = s)
      ∧ (¬inPor → let t := s.deviceReset cause aon
          t.pending = s.pending ∧ t.dev.phase = (if aon = true ∨ d.phase = .aonLost then .aonLost else begins) ∧ t.dev.cause = cause
          ∧ t.dev.restarts.toNat = (if d.committed ≠ none ∨ d.restarts = 8 then d.restarts.toNat else (d.restarts + 1).toNat)
          ∧ t.dev.committed = none ∧ t.dev.link = none ∧ t.dev.mbx = Mailbox.zero ∧ t.dev.holdReq = 0 ∧ t.dev.softDue = none ∧ t.dev.dbg.level = 0
          ∧ t.dev.fuses = d.fuses ∧ t.dev.flash = d.flash ∧ t.dev.tamper = d.tamper ∧ t.dev.elapsed = d.elapsed ∧ t.dev.pwrok = d.pwrok
          ∧ ∀ k, let B := s.bench k; let C := t.bench k
              C.rst.released = false ∧ C.rst.cause = 2 ∧ C.rst.devCause = cause ∧ C.rst.due = none ∧ C.hostUp = false
              ∧ C.cores = Vector.replicate 17 Core.zero ∧ C.mem.tags = [] ∧ C.time.elapsed = B.time.elapsed ∧ C.time.sec = B.time.sec
              ∧ C.rst.count.toNat = min (B.rst.count.toNat + 1) 0xFFFF ∧ C.vault.bbEpoch = B.vault.bbEpoch ∧ C.vault.current = B.vault.current))
    ∧ (d.resetN = true → exec .resetNPulse s = .next (State.deviceReset { s with dev := { d with resetN := false } } 2 false))
    ∧ (d.resetN = false → exec .resetNPulse s = .next s
        ∧ exec .resetNRise s = .next { s with dev := { d with resetN := true, phase := if d.phase = .pinHold then .fuse else d.phase } })
    ∧ (d.resetN = true → exec .resetNRise s = .next s)
    ∧ (d.dmcRuns = true → exec .deviceWatchdogExpiry s = .next (s.deviceReset 3 false) ∧ exec .dmcLockup s = .next (s.deviceReset 8 false)
        ∧ (d.softDue = none → exec .deviceSoftReset s = .next (s.deviceReset 4 false))
        ∧ ∀ t, d.softDue = some t → (t ≤ d.elapsed → exec .deviceSoftReset s = .next (s.deviceReset 4 false))
            ∧ (d.elapsed < t → exec .deviceSoftReset s = .next s))
    ∧ (d.dmcRuns = false → ∀ i ∈ [Instr.deviceWatchdogExpiry, .dmcLockup, .deviceSoftReset], exec i s = .next s)
    ∧ (d.phyUp = true → exec (.hostClockLoss true) s = .next (s.deviceReset 6 false))
    ∧ (armed = false ∨ d.phyUp = false → exec (.hostClockLoss armed) s = .next s)
    ∧ (d.phase ≠ .aonLost → exec .aonClockLoss s = .next (s.deviceReset 7 true) ∧ exec .aonClockRecovery s = .next s)
    ∧ (d.phase = .aonLost → exec .aonClockLoss s = .next s ∧ exec .aonClockRecovery s = .next { s with dev := { d with phase := begins } })
    ∧ (d.pwrok = true → ∀ i ph, (i, ph) ∈ [(Instr.powerOnReset, Phase.por), (.brownOut, .aonWait)] → ∃ t, exec i s = .next t ∧ t.pending = s.pending
        ∧ t.dev.phase = ph ∧ t.dev.pwrok = (ph == .aonWait) ∧ t.dev.cause = 1 ∧ t.dev.restarts = 0 ∧ t.dev.committed = none ∧ t.dev.dbg.level = 0
        ∧ t.dev.fuses = d.fuses ∧ t.dev.flash = d.flash ∧ t.dev.tamper = d.tamper
        ∧ ∀ k, let B := s.bench k; let C := t.bench k
            C.rst.released = false ∧ C.rst.cause = 1 ∧ C.rst.count = 0 ∧ C.mem = Mem.zero ∧ C.cores = Vector.replicate 17 Core.zero
            ∧ C.time = TimeState.zero ∧ C.vault.slots = [] ∧ C.vault.current = B.vault.current ∧ C.vault.bbEpoch = B.vault.bbEpoch
            ∧ C.jrn.nextSeq = 0 ∧ C.jrn.genesis = false)
    ∧ (d.pwrok = false → exec .powerOnReset s = .next s ∧ exec .brownOut s = .next s ∧ exec .pwrokRise s = .next { s with dev := { d with pwrok := true, phase := .aonWait } })
    ∧ (d.pwrok = true → exec .pwrokRise s = .next s)
    ∧ (d.phase = .aonWait → exec .aonDomainValid s = .next { s with dev := { d with phase := begins } })
    ∧ (d.phase ≠ .aonWait → exec .aonDomainValid s = .next s)

/-- Chapter 01, R29 and chapter 14, R675 to R677, R681 to R691, R719: the sources of the bench-level resets, and what a bench reset clears and
keeps. -/
def Obligations.BenchResets : Prop :=
  ∀ (s : State) (b : BenchNo) (w : Writer) (i : Fin 40) (v : Word) (lost : List (BitVec 34)),
    let B := s.bench b
    let I := B.idleExit
    let stops (C : Bench) (l : List (Nat × Nat)) : Prop := C.rst.fllLost = l ∧ ∀ k : CoreNo,
      (C.core k).clockStopped = ((l.any fun e => e.1 = k.val) || (decide (k.val < 16) && l.any fun e => e.1 = 17 + k.val / 4))
    (B.rst.clockOk = true → s.dev.phase ≠ .por → s.dev.phase ≠ .aonWait → ∃ C : Bench, exec (.benchClockLoss b lost) s = s.gives b (Bench.requestReset C 0x14 0)
      ∧ C.rst = { B.rst with clockOk := false } ∧ C.time.source = 0 ∧ C.time.quality = 7 ∧ C.time.todValid = false ∧ C.time.holdover = false
      ∧ C.time.sec = B.time.sec ∧ C.time.ns = B.time.ns ∧ C.time.elapsed = B.time.elapsed
      ∧ (B.mem.wf = true → ∀ a, B.alive = false ∨ (∀ n ∈ lost, a / 64 ≠ n.toNat) → C.mem.byte a = B.mem.byte a))
    ∧ (B.rst.clockOk = false → exec (.benchClockLoss b lost) s = .next s)
    ∧ exec (.benchClockRecovery b) s = s.gives b { B with rst := { B.rst with clockOk := true } }
    ∧ (B.alive = true → (B.rst.fllLost.any fun e => e.1 = i.val) = false → ∃ C, exec (.fllLockLoss b i) s = s.gives b C
        ∧ stops C (B.rst.fllLost ++ [(i.val, B.time.elapsed)]))
    ∧ (B.alive = true → (B.rst.fllLost.any fun e => e.1 = i.val) = true → exec (.fllLockLoss b i) s = .next s)
    ∧ (∃ C, exec (.fllRelock b i) s = s.gives b (if B.running then C.hqGo.connsGo else C) ∧ stops C (B.rst.fllLost.filter fun e => e.1 ≠ i.val))
    ∧ (B.alive = true →
        ((∃ e ∈ B.rst.fllLost, 1000 ≤ B.time.elapsed - e.2) → exec (.fllRelockTimeout b) s = s.gives b (Bench.requestReset { B with time := B.time.clockFailed } 0x14 0))
        ∧ ((∀ e ∈ B.rst.fllLost, B.time.elapsed - e.2 < 1000) → exec (.fllRelockTimeout b) s = .next s)
        ∧ (B.rst.firstFetch = true → B.rst.wdogTimeout ≠ 0 → B.rst.wdogTimeout.toNat * 1000 ≤ B.rst.wdogCount →
            exec (.benchWatchdogExpiry b) s = s.gives b (B.requestReset 0x11 0))
        ∧ (B.rst.firstFetch = false ∨ B.rst.wdogTimeout = 0 ∨ B.rst.wdogCount < B.rst.wdogTimeout.toNat * 1000 →
            exec (.benchWatchdogExpiry b) s = .next s))
    ∧ (B.accessOk w 0x44 .w = true → (v = 0xA5 → w.mid = midBsc → exec (.wdkickWrite b w v) s = s.gives b { I with rst := { I.rst with wdogCount := 0 } })
        ∧ (v ≠ 0xA5 ∨ w.mid ≠ midBsc → exec (.wdkickWrite b w v) s = s.gives b I))
    ∧ (B.accessOk w 0x18 .w = true → (v.toNat % 256 = 0xA5 → exec (.rstreqWrite b w v) s = s.gives b (I.requestReset 0x12 0))
        ∧ (v.toNat % 256 ≠ 0xA5 → exec (.rstreqWrite b w v) s = s.gives b I))
    ∧ (B.rst.due = none → exec (.benchResetEntry b) s = .next s)
    ∧ (∀ c, B.rst.due = some c →
        let Q := if B.rst.released then B.quench else B
        ∃ C, exec (.benchResetEntry b) s = s.gives b C
          ∧ C.rst.released = false ∧ C.rst.due = none ∧ C.rst.cause = c.cause ∧ C.rst.softsrc = c.softsrc ∧ C.rst.wblost = !B.rst.clockOk
          ∧ C.rst.dramKept = true ∧ C.rst.count.toNat = min (Q.rst.count.toNat + 1) 0xFFFF ∧ C.rst.firstFetch = false
          ∧ C.cores = Vector.replicate 17 Core.zero ∧ C.mem.bytes = Q.mem.bytes ∧ C.mem.tags = [] ∧ C.mem.poison = Q.mem.poison
          ∧ C.jrn.nextSeq = Q.jrn.nextSeq ∧ C.jrn.chain = Q.jrn.chain ∧ C.jrn.jid = Q.jrn.jid ∧ C.jrn.recoverDue = Q.jrn.genesis
          ∧ C.time.elapsed = Q.time.elapsed ∧ C.time.sec = Q.time.sec ∧ C.time.ns = Q.time.ns ∧ C.ctl.lockinfo = Q.ctl.lockinfo
          ∧ C.vault.current = Q.vault.current ∧ C.vault.bbEpoch = Q.vault.bbEpoch ∧ C.pwr.effective = 0 ∧ C.pwr.requested = 0
          ∧ C.sched.tasks = [] ∧ C.net.conns = [] ∧ C.maf = mafBoot none ∧ C.trans.pending = [])
    ∧ (∀ (C : Bench) (x y : RstCause), let rank (c : Byte) : Nat := ([0x14, 0x15, 0x11, 0x13, 0x12] : List Byte).idxOf c
        (C.rst.due = none → (C.requestReset x.cause x.softsrc).rst.due = some x)
        ∧ (C.rst.due = some y → (C.requestReset x.cause x.softsrc).rst.due = if rank y.cause ≤ rank x.cause then some y else some x))

/-- Chapter 14, R692 to R708, R711, R715, R716 and chapter 09, R448: the steps of the release sequence, in their order. A step whose turn has
not come changes nothing. -/
def Obligations.ReleaseSequence : Prop :=
  ∀ (s : State) (rs : Vector Byte 16) (ok : BitVec 3) (b : BenchNo) (fails : BitVec 14),
    let d := s.dev
    let B := s.bench b
    let dev (i : Instr) (e : Device) : Prop := exec i s = .next { s with dev := e }
    (d.phase = .fuse → (d.fuses.logMissing.lifecycle ≠ 1 ∨ digestSet (d.fuses.roots[0]) = false) →
      dev .fuseSense { d with phase := .dmc, fuses := d.fuses.logMissing })
    ∧ (d.phase = .fuse → d.fuses.lifecycle = 1 → digestSet (d.fuses.roots[0]) = true → ∃ t, exec .fuseSense s = .next t ∧ t.dev.phase = .dmc
        ∧ t.dev.fuses.lifecycle = 2 ∧ t.dev.fuses.roots = d.fuses.roots ∧ t.benches = s.benches)
    ∧ (d.phase = .dmc → d.dmcStopped = false → ∃ t, exec .dmcRelease s = .next t ∧ t.dev.phase = .bootcfg ∧ t.dev.pkg.adapting = true
        ∧ t.dev.pkg.mv = (if d.pkg.mv = 0 then 800 else d.pkg.mv) ∧ t.dev.fuses = d.fuses
        ∧ ∀ k, let v := (s.bench k).vault; let u := (t.bench k).vault
            (v.bbEpoch.toNat = d.fuses.epoch → t.bench k = s.bench k)
            ∧ (v.bbEpoch.toNat ≠ d.fuses.epoch → u.current = none ∧ u.previous = none ∧ u.bbEpoch = BitVec.ofNat 7 d.fuses.epoch))
    ∧ (d.phase = .bootcfg → d.dmcStopped = false →
        let code := (takeCode rs).1
        let c : BitVec 4 := if d.restarts = 8 then 15 else code
        let e : Device := { d with code := code, ambig := (takeCode rs).2 }
        (c = 14 → dev (.bootcfgSampling rs) { e with phase := .dmcHold, dmcStopped := true })
        ∧ (c ≠ 14 → dev (.bootcfgSampling rs) { e with phase := .loading, holdReq := codeHold c }))
    ∧ (d.phase = .loading → d.dmcStopped = false → ∃ e, dev (.optionLoading ok) e
        ∧ (∀ img, e.staged = some img → e.phase = .loaded ∧ ∃ n ∈ d.slotOrder, ok.getLsbD n = true ∧ d.checkImage (d.slotSrc n) = 0
            ∧ img = parseImage (d.slotSrc n) (BitVec.ofNat 2 n) ((d.slotSrc n).recs.getD []))
        ∧ (e.staged = none → e.phase = .phy ∧ e.ceiling = { rate := 0, lanes := 1 } ∧ ∀ n ∈ d.slotOrder, ok.getLsbD n = false ∨ d.checkImage (d.slotSrc n) ≠ 0))
    ∧ (∀ img, d.phase = .loaded → d.dmcStopped = false → d.staged = some img → ∃ t, exec .imageCommit s = .next t ∧ t.benches = s.benches
        ∧ t.dev.phase = .phy ∧ t.dev.committed = some img ∧ t.dev.staged = none ∧ t.dev.slot = img.slot ∧ t.dev.restarts = 0
        ∧ t.dev.fuses.rootslot = (if img.rootfwd = true ∧ img.root.toNat ≤ 3 then max d.fuses.rootslot img.root.toNat else d.fuses.rootslot)
        ∧ t.dev.fuses.rollback = (if img.rollfwd = true then max d.fuses.rollback img.version.toNat else d.fuses.rollback)
        ∧ t.dev.fuses.lifecycle = d.fuses.lifecycle ∧ t.dev.fuses.epoch = d.fuses.epoch)
    ∧ (d.phase = .phy → dev .hostPhyRelease { d with phase := .pcie, phyUp := true })
    ∧ (d.phase = .pcie → dev .pcieControllerRelease { d with phase := .benches 0, pcieUp := true })
    ∧ (∀ n, d.phase = .benches n → b.val ≤ n.val →
        let e : Device := if n.val = b.val then { d with phase := .benches b.succ } else d
        let free : Prop := d.held b = false ∧ B.rst.due = none ∧ B.rst.clockOk = true ∧ d.dmcStopped = false
        (¬free → dev (.benchResetRelease b) e)
        ∧ ∀ img, free → d.committed = some img →
            (B.rst.released = false → exec (.benchResetRelease b) s = .next { s.setBench b (B.release img img.benches[b] d.fuses.epoch) with dev := e })
            ∧ (B.rst.released = true → B.pwr.effective = 3 → B.pwr.requested = 0 →
                exec (.benchResetRelease b) s = .next { s.setBench b (Bench.raise (B.leaveOff.release img img.benches[b] d.fuses.epoch) 835) with dev := e })
            ∧ (B.rst.released = true → B.pwr.effective ≠ 3 ∨ B.pwr.requested ≠ 0 → dev (.benchResetRelease b) e))
    ∧ (∀ img sup, img.benches[b].sup = some sup →
        let C := B.release img img.benches[b] d.fuses.epoch
        C.rst.released = true ∧ C.rst.entry = 0x1000000000 + sup.offset + sup.entry ∧ C.ctl.place = img.place ∧ C.ctl.divto = img.benches[b].divto
        ∧ C.ctl.holdLimit = img.benches[b].holdLimit ∧ C.ctl.epoch = BitVec.ofNat 7 d.fuses.epoch ∧ C.rst.wdogTimeout = img.benches[b].wdog
        ∧ C.maf.rules0 = (mafBoot img.benches[b].maf).rules0)
    ∧ (B.alive = true →
        (B.rst.tagClearDone = false → ∃ C, exec (.tagClearComplete b fails) s = s.gives b C ∧ C.rst.tagClearDone = true
          ∧ ∀ u : UnitNo, 1 ≤ u.val → u.val ≤ 13 → (C.eng u).katOk = !fails.getLsbD u.val ∧ (C.eng u).katFail = fails.getLsbD u.val)
        ∧ (B.rst.tagClearDone = true → exec (.tagClearComplete b fails) s = .next s)
        ∧ (B.rst.tagClearDone = true → B.rst.firstFetch = false → ∃ C, exec (.supervisorFirstFetch b) s = s.gives b C ∧ C.rst.firstFetch = true
            ∧ C.rst.wdogCount = 0 ∧ (C.core bsc).cur = some 7 ∧ (C.bank bsc 7).pcc = Cap.rootPcc (BitVec.ofNat 64 B.rst.entry)
            ∧ (C.bank bsc 7).getC 3 = Cap.rootData ∧ (C.bank bsc 7).getC 4 = Cap.rootSeal)
        ∧ (B.rst.tagClearDone = false ∨ B.rst.firstFetch = true → exec (.supervisorFirstFetch b) s = .next s))
    ∧ (∀ i ph, (i, ph) ∈ [(Instr.fuseSense, Phase.fuse), (.dmcRelease, .dmc), (.bootcfgSampling rs, .bootcfg), (.optionLoading ok, .loading), (.imageCommit, .loaded),
          (.hostPhyRelease, .phy), (.pcieControllerRelease, .pcie)] → d.phase ≠ ph → exec i s = .next s)

/-- Chapter 15, R726 to R730, R734, R735, R743: the TAP's instructions, the boundary-scan instructions, the challenge and the response, and
how a debug session begins and ends. Before the fuses have been sensed the TAP does nothing. -/
def Obligations.TapAndSessions : Prop :=
  ∀ (s : State) (resp : List Byte) (ir : Byte),
    let d := s.dev
    let g := d.dbg
    let boundary (c : Byte) : Prop := c = 3 ∨ c = 4 ∨ c = 5
    let loads : State := { s with dev := { d with dbg := { g with ir := ir } } }
    (d.sensed = false → ∀ i ∈ [Instr.bypass, .idcode, .samplePreload, .extest, .clamp, .highz, .dbgChal, .dbgResp resp, .dbgClose, .testLogicReset,
        .regRd 0 0, .memWr 0 0 0, .coreHalt 0 0, .stateRd 0 0], exec i s = .next s)
    ∧ (g.ir = ir ∨ (¬boundary g.ir ∧ ¬boundary ir) → s.tapIr ir = loads)
    ∧ (¬boundary g.ir → boundary ir → let t := s.tapIr ir
        t.dev.dmcStopped = true ∧ t.dev.holdReq = 0xFF ∧ t.dev.tamper = d.tamper ∧ ∀ k, t.bench k = (s.bench k).requestReset 0x13 0)
    ∧ (boundary g.ir → ¬boundary ir → s.tapIr ir = loads.deviceReset 5 false)
    ∧ (d.sensed = true →
        exec .bypass s = .next ((s.tapIr 0xFF).emit (.tap 1 0))
        ∧ exec .idcode s = .next ((s.tapIr 1).emit (.tap 32 ((s.tapIr 1).dev.devid.toNat / 2 ^ 12 % 16 * 2 ^ 28 + 0x8112 * 2 ^ 12 + 1)))
        ∧ exec .samplePreload s = .next (s.tapIr 2) ∧ exec .extest s = .next (s.tapIr 3) ∧ exec .clamp s = .next (s.tapIr 4)
        ∧ exec .highz s = .next (s.tapIr 5)
        ∧ (let t := s.tapIr 0x10; ∃ (n : List Byte) (u : State), exec .dbgChal s = .next u ∧ n.length = 32 ∧ u.dev.dbg = { t.dev.dbg with nonce := some n }
            ∧ u.benches = t.benches ∧ u.dev.out = t.dev.out ++ [.tap 512 (leNat (n ++ serial ++ [BitVec.ofNat 8 t.dev.fuses.lifecycle,
                BitVec.ofNat 8 (t.dbgstat.toNat % 4), BitVec.ofNat 8 t.dev.fuses.debugcred] ++ List.replicate 13 0))])
        ∧ exec .dbgClose s = .next (s.tapIr 0x13).endSession ∧ exec .testLogicReset s = .next (s.tapIr 1).endSession
        ∧ (resp.length = 5518 → let t := s.tapIr 0x11
            let h := t.dev.dbg
            let fresh : Prop := h.nonce = some ((resp.drop 4).take 32)
            let n := min (h.fails.toNat + 1) 15
            let fails (u : State) : Prop := exec (.dbgResp resp) s = .next u ∧ u.dev.dbg.level = h.level ∧ u.dev.dbg.fails.toNat = n
              ∧ u.dev.dbg.lockout = (h.lockout || decide (8 ≤ n)) ∧ u.benches = t.benches
            let level := (resp.headD 0).toNat
            let bench : BenchNo := Fin.ofNat 8 (resp.getD 1 0).toNat
            (h.lockout = true ∨ ¬fresh → ∃ u, fails u ∧ u.dev.dbg.nonce = h.nonce)
            ∧ (h.lockout = false → fresh → t.dev.responseOk resp = none → ∃ u, fails u ∧ u.dev.dbg.nonce = none)
            ∧ (∀ c, h.lockout = false → fresh → t.dev.responseOk resp = some c → h.level = 0 → ∃ u, exec (.dbgResp resp) s = .next u
                ∧ u.dev.dbg = { h with nonce := none, level := BitVec.ofNat 2 level, bench := bench, serhafa := c
                                       validUntil := t.dev.elapsed + leNat ((resp.drop 2).take 2) * 1000000 }
                ∧ ∀ k, let B := if level = 2 ∧ k = bench then (t.bench k).haltGrant else t.bench k
                    u.bench k = if B.alive then B.raise 837 else B)
            ∧ ((resp.drop 36).take 16 ≠ serial ∨ level = 0 ∨ 3 < level ∨ leNat ((resp.drop 2).take 2) = 0
                ∨ (level = 2 ∧ t.dev.fuses.lifecycle = 3) ∨ (level = 3 ∧ t.dev.fuses.lifecycle ≠ 0 ∧ t.dev.fuses.lifecycle ≠ 4)
                ∨ (2 ≤ level ∧ t.dev.tamper.tampered = true) ∨ (level = 2 ∧ 8 ≤ (resp.getD 1 0).toNat) ∨ (level = 2 ∧ t.dev.held bench = true)
                ∨ (level ≠ 2 ∧ resp.getD 1 0 ≠ 0) → t.dev.responseOk resp = none)))
    ∧ (g.level ≠ 0 → g.validUntil ≤ d.elapsed → exec .debugValidityExpiry s = .next s.endSession)
    ∧ (g.level = 0 ∨ d.elapsed < g.validUntil → exec .debugValidityExpiry s = .next s)
    ∧ (g.level = 0 → s.endSession = s)
    ∧ (g.level ≠ 0 → let c := s.closeSession
        c.dev.dbg = { g with level := 0, bench := 0, serhafa := false, validUntil := 0 }
        ∧ (∀ k, let B := s.bench k; let C := if B.alive then B.raise 837 else B
            c.bench k = if k = g.bench then { C with pwr := { C.pwr with halt := false } } else C)
        ∧ (g.level = 1 → s.endSession = c)
        ∧ (g.level = 2 → s.endSession = c.setBench g.bench ((c.bench g.bench).requestReset 0x13 0))
        ∧ (g.level = 3 → s.endSession = c.deviceReset 5 false))
    ∧ (∀ B : Bench, let C := B.haltGrant
        C.pwr.halt = true ∧ C.vault.current = none ∧ C.vault.previous = none ∧ C.vault.zeroised = true ∧ C.vault.ceremony = none
        ∧ (2 ≤ B.pwr.effective.toNat → C.pwr.requested = 0))

/-- Chapter 15, R731 to R733, R743: the commands of DBG_ACCESS. Each captures the result of the one before. Without a session every command is
denied; OBSERVE reads the listed registers and nothing else; HALT on its bench and FULL on every powered bench read and write registers,
memory and, on a halted core, the core's state. -/
def Obligations.DebugAccess : Prop :=
  ∀ (s : State) (target : Byte) (addr : BitVec 48) (v : Word) (b : BenchNo) (k : CoreNo) (bk : BankNo) (r : Reg), s.dev.sensed = true →
    let p := s.tapIr 0x12
    let t := p.emit (.tap 104 (p.dev.dbg.status.toNat * 2 ^ 32 + p.dev.dbg.data.toNat))
    let g := p.dev.dbg
    let a := addr.toNat
    let off := a - 0x2000000000
    let here : Byte := BitVec.ofNat 8 b.val
    let B := p.bench b
    let I := B.idleExit
    let off' : Prop := B.alive = false ∨ B.pwr.effective = 3
    let result (i : Instr) (st : BitVec 2) (w : Word) (u : State) : Prop :=
      exec i s = .next { u with dev := { u.dev with dbg := { u.dev.dbg with status := st, data := w } } }
    let reaches : Prop := p.reach b = .halt ∨ p.reach b = .full
    let on (C : Bench) : State := t.setBench b C
    (g.level = 0 → ∀ i ∈ [Instr.regRd target addr, .regWr target addr v, .memRd target addr, .memWr target addr v, .coreHalt target addr,
        .coreRun target addr, .coreStep target addr, .stateRd target addr, .stateWr target addr v], result i 1 0 t)
    ∧ (g.level = 3 → ¬off' → p.reach b = .full)
    ∧ (g.level = 2 → g.bench = b → ¬off' → B.asleep = false → p.reach b = .halt)
    ∧ (g.level = 1 ∨ (g.level = 2 ∧ (p.bench g.bench).asleep = false ∧ g.bench ≠ b) → p.reach b = if B.alive = false ∨ B.pwr.effective = 3 then .observeOn else .observe)
    ∧ (p.reach b = .observe →
        (observable off = true → 0x2000000000 ≤ a → paType a = .register → a % 4 = 0 → off ≠ 0x310000 →
          result (.regRd here addr) 0 (B.regRead .dmc off).1 t)
        ∧ (observable off = false → 0x2000000000 ≤ a → paType a = .register → a % 4 = 0 → result (.regRd here addr) 1 0 t)
        ∧ ∀ i ∈ [Instr.regWr here addr v, .memRd here addr, .memWr here addr v, .coreHalt here addr, .coreRun here addr, .coreStep here addr,
            .stateRd here addr, .stateWr here addr v], result i 1 0 t)
    ∧ (reaches →
        (paType a = .register → a % 4 = 0 →
          result (.regRd here addr) 0 (I.regRead .dmc off).1 (on (I.regRead .dmc off).2) ∧ result (.regWr here addr v) 0 0 (on (I.regWrite .dmc off v)))
        ∧ (paType a ≠ .register ∨ a % 4 ≠ 0 → result (.regRd here addr) 3 0 t ∧ result (.regWr here addr v) 3 0 t)
        ∧ (∀ l C, I.unitRead midDmc 0 a 4 = ((l, none), C) → result (.memRd here addr) 0 (BitVec.ofNat 32 (leNat l)) (on C))
        ∧ (∀ l e C, I.unitRead midDmc 0 a 4 = ((l, some e), C) → result (.memRd here addr) 3 0 (on C))
        ∧ result (.memWr here addr v) 0 0 (on (I.unitWrite midDmc 0 a (leBytes 4 v.toNat)))
        ∧ (a % 32 = k.val →
            result (.coreHalt here addr) 0 0 (on (I.setCore k { I.core k with dbgHalted := true, stepOne := false }))
            ∧ result (.coreRun here addr) 0 0 (on (I.setCore k { I.core k with dbgHalted := false, stepOne := false }))
            ∧ ((I.core k).dbgHalted = true → result (.coreStep here addr) 0 0 (on (I.setCore k { I.core k with stepOne := true })))
            ∧ ((I.core k).dbgHalted = false → result (.coreStep here addr) 2 0 (on I)))
        ∧ (17 ≤ a % 32 → ∀ i ∈ [Instr.coreHalt here addr, .coreRun here addr, .coreStep here addr, .stateRd here addr, .stateWr here addr v], result i 3 0 (on I))
        ∧ (a % 32 = k.val → a / 32 % 8 = bk.val → (k ≠ bsc ∨ bk = 0 ∨ bk = 7) →
            (a / 256 % 65536 = r.val →
              ((I.core k).dbgHalted = false → result (.stateRd here addr) 2 0 (on I) ∧ result (.stateWr here addr v) 2 0 (on I))
              ∧ ((I.core k).dbgHalted = true → result (.stateRd here addr) 0 ((I.bank k bk).getX r) (on I)
                  ∧ result (.stateWr here addr v) 0 0 (on (I.modBank k bk (·.setX r v)))))
            ∧ ((I.core k).dbgHalted = true → a / 256 % 65536 = 0x104 + 8 * r.val →
                let c := (I.bank k bk).getC r
                result (.stateRd here addr) 0 (if c.tag then 1 else 0) (on I)
                ∧ result (.stateWr here addr v) 0 0 (on (I.modBank k bk (·.setC r (if v.getLsbD 0 then c else { c with tag := false })))))
            ∧ ((I.core k).dbgHalted = true → a / 256 % 65536 = 0x204 →
                result (.stateRd here addr) 0 (if (I.bank k bk).pcc.tag then 1 else 0) (on I))))
    ∧ (target = 0xFF → g.level = 3 → a % 4 = 0 → a < 0x10000 → result (.regRd target addr) 0 (t.pf0Read a) t ∧ result (.regWr target addr v) 0 0 (t.pf0Write a v))
    ∧ (target = 0xFF → g.level = 1 → (pf0Observable a = true → result (.regRd target addr) 0 (t.pf0Read a) t)
        ∧ (pf0Observable a = false → result (.regRd target addr) 1 0 t) ∧ result (.regWr target addr v) 1 0 t)

/-- Chapter 15, R736 to R742 and R756: a bench's power states and its parked cores. REQUESTED takes RUN, NAP and OFF alone and not NAP or OFF
while HALT is in force; NAP and OFF are entered at the quiescent point; an access or IDLE_EXIT returns an idle bench to RUN. -/
def Obligations.PowerStates : Prop :=
  ∀ (s : State) (b : BenchNo) (w : Writer) (v : Word) (k : CoreNo),
    let B := s.bench b
    let I := B.idleExit
    let p := B.pwr
    let run : Bench := { B with pwr := { p with effective := 0 } }
    let quiet : Prop := ((B.ustate 0).effective = 0 ∨ (B.ustate 0).effective = 1) ∧ B.strandsIdle = true ∧ B.rake.op = none ∧ p.halt = false
    let mayWrite : Prop := B.accessOk w 0x500000 .w = true ∨ (B.alive = true ∧ B.asleep = true ∧ w = .dmc ∧ B.mafAllows w.mid 0x2000500000 .w = true)
    let r : BitVec 4 := v.extractLsb' 0 4
    let q := I.pwr
    (mayWrite →
      (r = 0 ∨ r = 2 ∨ r = 3 → r ≠ q.requested → q.halt = false ∨ r = 0 → exec (.pwrStateWrite b w v) s = s.gives b { I with
        pwr := { q with requested := r, since := B.time.elapsed, diverged := q.diverged && !decide (r = q.effective), passed := false } })
      ∧ (r = 1 ∨ 3 < r.toNat ∨ r = q.requested ∨ (q.halt = true ∧ r ≠ 0) → exec (.pwrStateWrite b w v) s = s.gives b I))
    ∧ (B.reaches w = false → B.alive = false ∨ B.asleep = false ∨ w ≠ .dmc → exec (.pwrStateWrite b w v) s = .next s)
    ∧ (B.alive = true →
        (p.effective = 0 → B.strandsIdle = true → (∀ u, (B.eng u).job = none) → B.dmaIdle = true → p.halt = false →
          exec (.idleEntry b) s = s.gives b { B with pwr := { p with effective := 1 } })
        ∧ (p.effective ≠ 0 ∨ B.strandsIdle = false ∨ (∃ u, (B.eng u).job ≠ none) ∨ B.dmaIdle = false ∨ p.halt = true → exec (.idleEntry b) s = .next s)
        ∧ (p.effective = 1 → exec (.idleExit b) s = s.gives b run) ∧ (p.effective ≠ 1 → exec (.idleExit b) s = .next s)
        ∧ (∀ i e, (i, e) ∈ [(Instr.napEntry b, (2 : BitVec 4)), (.offEntry b, 3)] →
            (p.requested = e → p.effective ≠ e → quiet → ∃ C, exec i s = s.gives b C ∧ C.pwr.effective = e ∧ C.pwr.diverged = false
              ∧ C.pwr.changes = p.changes + 1 ∧ C.vault.ceremony = none ∧ (B.vault.ceremony = none → C.mem = B.mem ∧ C.cores = B.cores))
            ∧ (p.requested ≠ e ∨ p.effective = e ∨ ¬quiet → exec i s = .next s))
        ∧ (p.effective = 2 → p.requested = 0 → ∃ C D : Bench, exec (.napWake b) s = s.gives b C ∧ C = D.hqGo ∧ D.pwr.effective = 0 ∧ D.pwr.diverged = false
            ∧ D.pwr.changes = p.changes + 1)
        ∧ (p.effective ≠ 2 → exec (.napWake b) s = .next s)
        ∧ (B.ctl.divto.toNat * 1000 ≤ B.time.elapsed - p.since → p.requested ≠ p.effective → ¬(p.requested = 0 ∧ p.effective = 1) → p.passed = false →
            ∃ n : Half, n.toNat = min (B.ctl.divCount.toNat + 1) 0xFFFF ∧ exec (.divergenceTimeout b 22) s = s.gives b
              (Bench.raise { B with pwr := { p with diverged := true, passed := true }, ctl := { B.ctl with divUnit := 22, divCount := n } } 831)))
    ∧ (B.accessOk w 0x50000C .w = true → ∀ m : Half,
        (m ≠ 0xFFFF → ∃ C, exec (.parkWrite b w m) s = s.gives b C ∧ ∀ n : CoreNo, C.core n =
          if n.val < 16 then { I.core n with parked := m.getLsbD n.val, gated := (I.core n).gated && m.getLsbD n.val } else I.core n)
        ∧ (m = 0xFFFF → exec (.parkWrite b w m) s = s.gives b I))
    ∧ (B.memoryRuns = true →
        let c := B.core k
        (c.parked = false ∨ c.gated = true ∨ k = bsc ∨ c.cur ≠ none ∨ c.escActive = true ∨ c.halted = true ∨ B.readyBanks k ≠ [] ∨ B.gateable k = false →
          exec (.corePowerGating b k) s = .next s)
        ∧ (c.parked = true → c.gated = false → k ≠ bsc → c.cur = none → c.escActive = false → c.halted = false → B.readyBanks k = [] →
            (∀ n : BankNo, n ≠ 0 → (B.bank k n).task = none) → exec (.corePowerGating b k) s = s.gives b (B.setCore k { c with gated := true })))

/-- Chapter 15, R750 to R755, R757 and chapter 16, R768: the bench's frequency and what bounds it, and VDD_CORE. -/
def Obligations.FrequencyAndVoltage : Prop :=
  ∀ (s : State) (b : BenchNo) (lat : List (Fin 384 × Half)) (tj : Byte) (amps : Half) (watts : BitVec 10) (mv : BitVec 12) (limits : Vector (BitVec 7) 8),
    let B := s.bench b
    let p := B.pwr
    let g := s.dev.pkg
    let ceil := min p.ceil.toNat (min p.thermalCeil (min p.currentCeil (min p.capCeil p.marginCeil)))
    let now := min p.freq ceil
    let of (i : Nat) : Nat := ((lat.find? fun e => e.1.val = i).map (·.2.toNat)).getD 0
    let target (i : Nat) : Nat := (B.reg (0x500100 + 4 * i)).toNat % 65536
    let freq (n : Nat) : Prop := exec (.frequencySelection b lat) s = s.gives b { B with pwr := { p with freq := n } }
    (B.alive = true →
      ((∀ i < 384, target i = 0) → freq ceil)
      ∧ ((∃ i < 384, target i ≠ 0 ∧ target i < of i) → freq ceil)
      ∧ ((∃ i < 384, target i ≠ 0) → (∀ i < 384, target i ≠ 0 → of i * 2 < target i) → freq (min (max (now - 1) p.floor.toNat) ceil))
      ∧ ((∃ i < 384, target i ≠ 0 ∧ target i ≤ of i * 2) → (∀ i < 384, target i ≠ 0 → of i ≤ target i) → freq now)
      ∧ (p.clamped = true → p.pressed = false → p.calmSince + 1000 ≤ B.time.elapsed → exec (.policyRelease b) s = s.gives b
          (Bench.raise { B with pwr := { p with clamped := false, clThermal := false, clCurrent := false, clMargin := false } } 833))
      ∧ (p.clamped = false ∨ p.pressed = true ∨ B.time.elapsed < p.calmSince + 1000 → exec (.policyRelease b) s = .next s)
      ∧ (let c := min p.thermalCeil p.ceil.toNat
         ∃ C D : Bench, exec (.thermalThrottleStep b tj) s = s.gives b C ∧ C = D.clampUpdate false ∧ D.pwr.tj = tj
          ∧ D.pwr.tjmax = (if p.tjmax.toInt < tj.toInt then tj else p.tjmax)
          ∧ (100 ≤ tj.toInt → D.pwr.thermalCeil = max 1 (c - 4) ∧ D.pwr.throttling = true)
          ∧ (tj.toInt ≤ 97 → p.throttling = true → if p.ceil.toNat ≤ c + 1 then D.pwr.thermalCeil = 80 ∧ D.pwr.throttling = false
              else D.pwr.thermalCeil = c + 1 ∧ D.pwr.throttling = true)
          ∧ ((97 < tj.toInt ∧ tj.toInt < 100) ∨ (tj.toInt ≤ 97 ∧ p.throttling = false) → D.pwr.thermalCeil = p.thermalCeil ∧ D.pwr.throttling = p.throttling)))
    ∧ (∀ D : Bench, D.pwr.clamped = false → (D.pwr.thermalCeil < D.pwr.floor.toNat ∨ D.pwr.currentCeil < D.pwr.floor.toNat) → ∃ C : Bench,
        D.clampUpdate false = C.raise 832 ∧ C.pwr.clamped = true ∧ C.pwr.freq = D.pwr.freq
        ∧ C.pwr.clThermal = (D.pwr.clThermal || decide (D.pwr.thermalCeil < D.pwr.floor.toNat)))
    ∧ (185 < amps.toNat → ∃ t, exec (.currentLimitStep amps) s = .next t ∧ t.dev.pkg = { g with ilimit := true, calmSince := s.dev.elapsed }
        ∧ ∀ k, (s.bench k).alive = true → (t.bench k).pwr.currentCeil = max 1 (min (s.bench k).pwr.currentCeil (s.bench k).pwr.ceil.toNat - 4))
    ∧ (170 ≤ amps.toNat → amps.toNat ≤ 185 → exec (.currentLimitStep amps) s = .next { s with dev := { s.dev with pkg := { g with calmSince := s.dev.elapsed } } })
    ∧ (amps.toNat < 170 → g.ilimit = true → 1000 ≤ s.dev.elapsed - g.calmSince → ∃ t, exec (.currentLimitStep amps) s = .next t
        ∧ t.dev.pkg = { g with ilimit := false } ∧ ∀ k, (t.bench k).pwr.currentCeil = 80)
    ∧ (amps.toNat < 170 → g.ilimit = false ∨ s.dev.elapsed - g.calmSince < 1000 → exec (.currentLimitStep amps) s = .next s)
    ∧ (let over' : Prop := g.pcap ≠ 0 ∧ g.pcap.toNat < watts.toNat
       ∃ t, exec (.powerCapStep watts) s = .next t ∧ t.dev.pkg.watts = watts ∧ t.dev.pkg.pcap = g.pcap
        ∧ (t.dev.pkg.capUnmet = true ↔ over' ∧ ∀ k, (s.bench k).alive = false ∨ (s.bench k).asleep = true
            ∨ min (s.bench k).pwr.freq (s.bench k).pwr.ceiling ≤ (s.bench k).pwr.floor.toNat)
        ∧ (over' → ∀ k, (s.bench k).alive = true → let q := (s.bench k).pwr
            (t.bench k).pwr.capCeil = max q.floor.toNat (min q.capCeil q.ceil.toNat - 1))
        ∧ (g.pcap = 0 ∨ watts.toNat * 100 ≤ g.pcap.toNat * 95 → ∀ k, let q := (s.bench k).pwr; let c := min q.capCeil q.ceil.toNat
            (t.bench k).pwr.capCeil = if q.ceil.toNat ≤ c + 1 then 80 else c + 1)
        ∧ (g.pcap ≠ 0 → watts.toNat ≤ g.pcap.toNat → g.pcap.toNat * 95 < watts.toNat * 100 → ∀ k, (t.bench k).pwr.capCeil = (s.bench k).pwr.capCeil))
    ∧ (g.adapting = true →
        (let goal := max 650 (min 850 mv.toNat)
         let new := max (g.mv.toNat - 5) (min (g.mv.toNat + 5) goal)
         ∃ t, exec (.avsAdjustment mv limits) s = .next t ∧ t.dev.pkg = { g with mv := BitVec.ofNat 12 new }
          ∧ t.dev.out = (if new = g.mv.toNat then s.dev.out else s.dev.out ++ [.avs new])
          ∧ ∀ k : BenchNo, (t.bench k).pwr.marginCeil = if (s.bench k).alive then limits[k].toNat else (s.bench k).pwr.marginCeil)
        ∧ ∃ t, exec (.avsbusTimeout limits) s = .next t ∧ t.dev.pkg = { g with mv := 850, adapting := false } ∧ t.dev.out = s.dev.out ++ [.avs 850]
          ∧ ∀ k : BenchNo, (s.bench k).alive = true → (t.bench k).pwr.marginCeil = limits[k].toNat)
    ∧ (g.adapting = false → exec (.avsAdjustment mv limits) s = .next s ∧ exec (.avsbusTimeout limits) s = .next s)

/-- Chapter 15, R744 to R749, R753, R760, R761 and chapter 16, R775, R791: the tamper response, THERMTRIP and the supply of the tamper
circuits. -/
def Obligations.TamperAndThermtrip : Prop :=
  ∀ (s : State) (pair src : Fin 4) (any : Fin 8) (to' : Bool),
    let d := s.dev
    let t := d.tamper
    let trips (i : Instr) (n : Fin 8) : Prop :=
      let bit : Byte := BitVec.ofNat 8 (2 ^ n.val)
      ∃ u, exec i s = .next u ∧ u.dev.tamper.live = (t.live ||| bit) ∧ u.pending = s.pending ∧ u.dev.tamper.tampered = true
        ∧ u.dev.tamper.cause = (t.cause ||| bit)
        ∧ ((t.tampered = true ∧ t.cause.getLsbD n.val = true) → u.dev.tamper.count = t.count ∧ u.dev.tamper.onbatt = t.onbatt
            ∧ ∀ k, (u.bench k).vault = (s.bench k).vault)
        ∧ (¬(t.tampered = true ∧ t.cause.getLsbD n.val = true) →
            u.dev.tamper.count.toNat = min (t.count.toNat + 1) 0xFF ∧ u.dev.tamper.onbatt = t.onVbat ∧ u.dev.dbg.level = 0
            ∧ (∀ k, (u.bench k).vault.current = none ∧ (u.bench k).vault.previous = none ∧ (u.bench k).vault.bbEpoch = 0
                ∧ (u.bench k).jrn.tamperRec = false ∧ (u.bench k).jrn.tamper = some u.dev.tamper.word)
            ∧ (d.pwrok = true → t.onVbat = false → ∀ k, (u.bench k).vault.zeroised = true)
            ∧ (d.pwrok = true → t.onVbat = false → u.dev.phase ≠ .por → u.dev.phase ≠ .aonWait → u.dev.softDue = some u.dev.elapsed))
    (t.mesh.getLsbD pair.val = true → trips (.meshTrip pair) ⟨pair.val, by omega⟩)
    ∧ (t.mesh.getLsbD pair.val = false → exec (.meshTrip pair) s = .next s)
    ∧ (src ≠ 0 ∨ d.pwrok = true → trips (.sensorTrip src) ⟨4 + src.val, by omega⟩)
    ∧ (d.pwrok = false → exec (.sensorTrip 0) s = .next s)
    ∧ (∃ u, exec (.tamperSourceRestore any) s = .next u ∧ u.dev = { d with tamper := { t with live := t.live &&& ~~~(BitVec.ofNat 8 (2 ^ any.val)) } })
    ∧ exec (.vbatChangeover to') s = .next { s with dev := { d with tamper := { t with onVbat := to' } } }
    ∧ (t.onVbat = false → exec .vbatLoss s = .next s)
    ∧ (t.onVbat = true → ∃ u, exec .vbatLoss s = .next u ∧ u.dev = { d with tamper := { Tamper.zero with onVbat := true } }
        ∧ ∀ k, let v := (s.bench k).vault; let j := (s.bench k).jrn
            u.bench k = { s.bench k with vault := { v with current := none, previous := none, bbEpoch := 0 }, jrn := { j with tamper := none, tamperRec := false } })
    ∧ (d.phase = .por ∨ d.phase = .aonWait → exec .thermtrip s = .next s)
    ∧ (d.phase ≠ .por → d.phase ≠ .aonWait → ∃ u, exec .thermtrip s = .next u ∧ u.dev.phase = .por ∧ u.dev.link = none ∧ u.dev.pkg.thermtrip = true
        ∧ u.dev.dbg.level = 0 ∧ u.dev.out = d.out ++ [.thermtrip] ∧ ∀ k, (u.bench k).rst.released = false ∧ (u.bench k).hostUp = false)

/-- A step takes the command at the front of the queue and runs it with the rest of the queue; with no command waiting a microsecond passes on
the always-on clock and, in every bench whose reference clock runs, on the bench's (log 2). -/
def Obligations.StepRunsFrontCommand : Prop :=
  (∀ (s : State) (c : Instr) (rest : List Instr), s.pending = c :: rest → step s = exec c { s with pending := rest })
  ∧ (∀ s : State, s.pending = [] → ∃ t, step s = .next t ∧ t.pending = []
      ∧ (s.dev.phase = .por ∨ s.dev.phase = .aonWait → t = s)
      ∧ (s.dev.phase ≠ .por → s.dev.phase ≠ .aonWait → t.dev = { s.dev with elapsed := s.dev.elapsed + 1 }
          ∧ ∀ b, let T := (s.bench b).time
            let N := (s.bench b).nextTime
            (t.bench b).time = (if (s.bench b).rst.clockOk then N else T)
            ∧ (t.bench b).cores = (s.bench b).cores ∧ (t.bench b).mem = (s.bench b).mem
            ∧ (T.freq = 0 ∨ (s.bench b).timeSrc = 0 → T.sub < 2 ^ 48 → T.ahead = 0 → T.part < 256000 → N.elapsed = T.elapsed + 1 ∧ N.part = T.part)))

/-- No command stops the machine: each answers a next state, and leaves the queue of waiting commands as it was. -/
def Obligations.EveryCommandGoesOn : Prop :=
  ∀ (i : Instr) (s : State), ∃ t, exec i s = .next t ∧ t.pending = s.pending

/-- The machine before its first power-on: held in POR with cause POR, no configuration committed, every bench in reset and every unit of it
DISABLED, and the registers at the reset values that their tables give (chapters 01 to 15). -/
def Obligations.ResetState : Prop :=
  let s := State.reset
  s.pending = [] ∧ s.dev.phase = .por ∧ s.dev.cause = 1 ∧ s.dev.committed = none ∧ s.dev.bootstat = 0x60 ∧ s.dev.legal
  ∧ ∀ b : BenchNo, let B := s.bench b
      let reads (l : List (Nat × Word)) : Prop := ∀ e ∈ l, (B.regRead .dmc e.1).1 = e.2
      B.tablesOk ∧ B.rst.released = false ∧ B.alive = false ∧ B.mem.tags = [] ∧ B.vault.slots = [] ∧ B.jrn.nextSeq = 0 ∧ B.time.value.extractLsb' 48 48 = 0
      ∧ (∀ u, (B.ustate u).requested = 0 ∧ (B.ustate u).effective = 0)
      ∧ reads [(0x00, BitVec.ofNat 32 b.val), (0x20, 10), (0x40, 5000), (0x10, 1), (0x500004, 5), (0x500008, 0x5020), (0x40380C, 0), (0x403808, 0x853C00C8)]

/-- Chapter 03, R121, R122 and chapter 05, R95, R230, R382: what comes before an instruction, for every instruction of the catalogue. Without
a strand that executes nothing happens; a deliverable event trap comes first, then a strand switch that is due; then the fetch checks of
PCC in their order (a sealed PCC's place among them is this model's choice, log 75), with the address in ETVAL; a fetch that the filter denies
executes as a no-op, and RCV clears; and an instruction whose guard is false
only lets PCC advance. An instruction that waits does so before its fetch in this model, and is not part of the last clauses. -/
def Obligations.InstructionFetch : Prop :=
  ∀ (s : State) (i : Instr) (x : Exec), i.exec? = some x →
    let B := s.bench x.bench
    let P := B.prepare x.core
    (B.executing x.core = none → exec i s = .next s)
    ∧ ∀ b, B.executing x.core = some b →
      (∀ eb n, B.eventDue x.core = some (eb, n) → exec i s = s.gives x.bench (B.eventTrap x.core eb n))
      ∧ (B.eventDue x.core = none → B.switchDue x.core = true → exec i s = s.gives x.bench (B.switchStrand x.core))
      ∧ (B.eventDue x.core = none → B.switchDue x.core = false → i.mayWait = false →
          let pcc := (P.bank x.core b).pcc
          let a := pcc.cursor.toNat
          let traps (c : Cause) : Prop := exec i s = s.gives x.bench (P.takeTrap x.core b { cause := c, etval := pcc.cursor })
          let inside : Prop := pcc.base ≤ a ∧ a + 4 ≤ pcc.top
          (pcc.tag = false → traps .capTag)
          ∧ (pcc.tag = true → pcc.otype ≠ 0 → traps .capSeal)
          ∧ (pcc.tag = true → pcc.otype = 0 → pcc.has permEX = false → traps .nxFetch)
          ∧ (pcc.tag = true → pcc.otype = 0 → pcc.has permEX = true → ¬inside → traps .capBounds)
          ∧ (pcc.tag = true → pcc.otype = 0 → pcc.has permEX = true → inside → P.plainMemory x.core b a 4 .x → x.guard.holds (P.bank x.core b) = false →
              exec i s = s.gives x.bench ((P.modBank x.core b fun t => { t with rcv := false }).retire x.core b none))
          ∧ (pcc.tag = true → pcc.otype = 0 → pcc.has permEX = true → inside → slice (P.bank x.core b).atp.toNat 17 16 = 0 → paType a = .normal →
              P.mafAllows (midCore x.core) a .x = false →
              exec i s = s.gives x.bench
                (((P.denied (midCore x.core) (P.origin x.core b) a 4 kindFetch).modBank x.core b fun t => { t with rcv := false }).retire x.core b none)))

/-- A command of a bench leaves every other bench as it was, and of the device at most the step of the release sequence and the outputs; and
what it does depends on nothing but that bench and the device (R20, R21). -/
def Obligations.BenchIsolation : Prop :=
  ∀ (i : Instr) (b : BenchNo), i.bench? = some b →
    (∀ s t, exec i s = .next t → t.dev = { s.dev with phase := t.dev.phase, out := t.dev.out })
    ∧ (∀ s t, exec i s = .next t → ∀ c, c ≠ b → t.bench c = s.bench c)
    ∧ (∀ s u t v, s.dev = u.dev → s.bench b = u.bench b → exec i s = .next t → exec i u = .next v → t.bench b = v.bench b ∧ t.dev = v.dev)

/-- Chapter 15, R715, R716: fuses are programmed one way. Whatever a step does, no counter falls and the fuse log only grows. -/
def Obligations.FuseCountersOnlyRise : Prop :=
  ∀ (s t : State), step s = .next t → (∀ id, s.dev.fuses.counter id ≤ t.dev.fuses.counter id) ∧ ∃ l, t.dev.fuses.log = s.dev.fuses.log ++ l

/-- Every step keeps the device's state legal. -/
def Obligations.DeviceLegalKept : Prop :=
  ∀ (s t : State), s.dev.legal → step s = .next t → t.dev.legal
end

