-- ==== Sys2Proof/Laws/Instr.lean ====
section
/-!
SUPPORT. Laws/Instr.lean: what an instruction does, said once: where a core begins it (Bench.begins), its outcome is that of its body on
the fetched bench.
-/

namespace Sys2Proof.Machine

/-- An instruction that a core begins finishes its body from the fetched bench. -/
theorem Bench.instr_of_begins {B B' : Bench} {x : Exec} {b : BankNo} (word : Word) (body : Strand → M (Option Cap))
    (h : B.begins x = some (b, B')) :
    B.instr x word body = B'.finish x.core b (body { core := x.core, bank := b, word := word }) := by
  unfold Bench.begins at h
  unfold Bench.instr Bench.runWord
  split at h
  · cases h
  · rename_i b0 hb
    split at h
    · cases h
    · rename_i hd
      simp only [Bool.or_eq_true, not_or, Bool.not_eq_true, Option.isSome_eq_false_iff, Option.isNone_iff_eq_none] at hd
      simp only [hb, hd.1, hd.2]
      simp only [Bool.false_eq_true, if_false]
      have hf : ∀ a Bp, fetchAt { core := x.core, bank := b0, word := word } a Bp = fetchAt { core := x.core, bank := b0, word := 0 } a Bp :=
        fun _ _ => rfl
      rw [hf]
      dsimp only at h
      split at h
      · rename_i B1 hB1
        rw [hB1]
        simp only at h ⊢
        split at h
        · rename_i hg
          simp only [Option.some.injEq, Prod.mk.injEq] at h
          obtain ⟨rfl, rfl⟩ := h
          unfold Bench.finish guarded
          simp only [M.mod, M.bank, bind, EStateM.bind, hg, if_true]
        · cases h
      · cases h

/-- The command of an instruction that its core begins. -/
theorem State.instr_of_begins {s : State} {B' : Bench} {x : Exec} {b : BankNo} (word : Word) (body : Strand → M (Option Cap))
    (h : (s.bench x.bench).begins x = some (b, B')) :
    s.instr x word body = .next (s.setBench x.bench (B'.finish x.core b (body { core := x.core, bank := b, word := word }))) := by
  unfold State.instr State.onBench
  dsimp only
  rw [Bench.instr_of_begins word body h]

/-- A body that only computes completes with PCC advanced. -/
theorem Bench.finish_plain (B : Bench) (σ : Strand) (f : Bank → Bank) :
    B.finish σ.core σ.bank (plain f σ) = B.completes σ.core σ.bank f := rfl

/-- The command of an instruction that only computes. -/
theorem State.instr_plain {s : State} {B' : Bench} {x : Exec} {b : BankNo} (word : Word) (f : Bank → Bank)
    (h : (s.bench x.bench).begins x = some (b, B')) :
    s.instr x word (plain f) = .next (s.setBench x.bench (B'.completes x.core b f)) := by
  rw [State.instr_of_begins word _ h]
  rfl

end Sys2Proof.Machine
end

