-- ==== Sys2Proof/Laws/Mem.lean ====
section
/-!
SUPPORT. Laws/Mem.lean: tables, sorted lists and bench memory: a read after a write, every other place left alone, and the canonical
form, which every operation of memory keeps.
-/

namespace Sys2Proof.Machine

/-! ## Tables -/

section Table
variable {α : Type}

/-- The canonical form as a fact about all entries: indices rise, no entry is the default. -/
theorem Table.wf_iff [DecidableEq α] (d : α) (t : Table α) :
    Table.wf d t = true ↔ t.Pairwise (fun a b => a.1 < b.1) ∧ ∀ e ∈ t, e.2 ≠ d := by
  induction t with
  | nil => simp [Table.wf]
  | cons e t ih =>
    obtain ⟨i, v⟩ := e
    cases t with
    | nil => simp [Table.wf]
    | cons f t =>
      obtain ⟨j, w⟩ := f
      simp only [Table.wf, Bool.and_eq_true, decide_eq_true_eq, ih, List.pairwise_cons, List.mem_cons]
      constructor
      · rintro ⟨⟨hv, hij⟩, ⟨h1, h2⟩, h3⟩
        refine ⟨⟨?_, h1, h2⟩, ?_⟩
        · rintro e (rfl | he)
          · exact hij
          · exact Nat.lt_trans hij (h1 e he)
        · rintro e (rfl | he)
          · exact hv
          · exact h3 e he
      · rintro ⟨⟨h0, h1, h2⟩, h3⟩
        exact ⟨⟨h3 _ (Or.inl rfl), h0 _ (Or.inl rfl)⟩, ⟨h1, h2⟩, fun e he => h3 e (Or.inr he)⟩

/-- Below the first index a rising table holds nothing. -/
theorem Table.get_low (d : α) (t : Table α) (j : Nat) (h : ∀ e ∈ t, j < e.1) : Table.get d t j = d := by
  cases t with
  | nil => rfl
  | cons e t =>
    have := h e (by simp)
    simp only [Table.get]
    rw [if_neg (by omega), if_pos this]

theorem Table.get_erase (d : α) (t : Table α) (i j : Nat) (h : t.Pairwise (fun a b => a.1 < b.1)) :
    Table.get d (Table.erase t i) j = if j = i then d else Table.get d t j := by
  induction t with
  | nil => simp [Table.erase, Table.get]
  | cons e t ih =>
    obtain ⟨n, v⟩ := e
    rw [List.pairwise_cons] at h
    simp only [Table.erase]
    split
    · rename_i hi
      subst hi
      by_cases hj : j = i
      · subst hj
        rw [if_pos rfl, Table.get_low d t j h.1]
      · rw [if_neg hj]
        simp only [Table.get, if_neg hj]
        split
        · rename_i hl
          exact Table.get_low d t j fun e he => Nat.lt_trans hl (h.1 e he)
        · rfl
    · rename_i hne
      split
      · rename_i hlt
        by_cases hj : j = i
        · subst hj
          rw [if_pos rfl]
          simp only [Table.get, if_neg hne, if_pos hlt]
        · rw [if_neg hj]
      · simp only [Table.get, ih h.2]
        by_cases hj : j = i
        · subst hj
          simp only [if_neg hne]
          simp
        · simp only [if_neg hj]

theorem Table.get_insert (d : α) (t : Table α) (i j : Nat) (v : α) (h : t.Pairwise (fun a b => a.1 < b.1)) :
    Table.get d (Table.insert t i v) j = if j = i then v else Table.get d t j := by
  induction t with
  | nil =>
    simp only [Table.insert, Table.get]
    split
    · rfl
    · split <;> rfl
  | cons e t ih =>
    obtain ⟨n, w⟩ := e
    rw [List.pairwise_cons] at h
    simp only [Table.insert]
    split
    · rename_i hi
      subst hi
      simp only [Table.get]
      split <;> rfl
    · rename_i hne
      split
      · rename_i hlt
        simp only [Table.get]
        by_cases hj : j = i
        · simp [hj]
        · simp only [if_neg hj]
          split
          · rename_i hl
            rw [if_neg (by omega), if_pos (by omega)]
          · rfl
      · simp only [Table.get, ih h.2]
        by_cases hj : j = i
        · subst hj
          rw [if_neg hne, if_neg (by omega), if_pos rfl]
          simp
        · simp only [if_neg hj]

theorem Table.mem_erase {t : Table α} {i : Nat} {e : Nat × α} (h : e ∈ Table.erase t i) : e ∈ t := by
  induction t with
  | nil => simp [Table.erase] at h
  | cons f t ih =>
    obtain ⟨n, v⟩ := f
    simp only [Table.erase] at h
    split at h
    · exact List.mem_cons_of_mem _ h
    · split at h
      · exact h
      · rcases List.mem_cons.mp h with rfl | h
        · exact List.mem_cons_self ..
        · exact List.mem_cons_of_mem _ (ih h)

theorem Table.mem_insert {t : Table α} {i : Nat} {v : α} {e : Nat × α} (h : e ∈ Table.insert t i v) : e = (i, v) ∨ e ∈ t := by
  induction t with
  | nil => simpa [Table.insert] using h
  | cons f t ih =>
    obtain ⟨n, w⟩ := f
    simp only [Table.insert] at h
    split at h
    · rcases List.mem_cons.mp h with h | h
      · exact .inl h
      · exact .inr (List.mem_cons_of_mem _ h)
    · split at h
      · rcases List.mem_cons.mp h with h | h
        · exact .inl h
        · exact .inr h
      · rcases List.mem_cons.mp h with rfl | h
        · exact .inr (List.mem_cons_self ..)
        · rcases ih h with h | h
          · exact .inl h
          · exact .inr (List.mem_cons_of_mem _ h)

theorem Table.pairwise_erase {t : Table α} {i : Nat} (h : t.Pairwise (fun a b => a.1 < b.1)) :
    (Table.erase t i).Pairwise (fun a b => a.1 < b.1) := by
  induction t with
  | nil => simp [Table.erase]
  | cons f t ih =>
    obtain ⟨n, v⟩ := f
    rw [List.pairwise_cons] at h
    simp only [Table.erase]
    split
    · exact h.2
    · split
      · exact List.pairwise_cons.mpr h
      · exact List.pairwise_cons.mpr ⟨fun e he => h.1 e (Table.mem_erase he), ih h.2⟩

theorem Table.pairwise_insert {t : Table α} {i : Nat} {v : α} (h : t.Pairwise (fun a b => a.1 < b.1)) :
    (Table.insert t i v).Pairwise (fun a b => a.1 < b.1) := by
  induction t with
  | nil => simp [Table.insert]
  | cons f t ih =>
    obtain ⟨n, w⟩ := f
    have h' := List.pairwise_cons.mp h
    simp only [Table.insert]
    split
    · rename_i hi
      subst hi
      exact List.pairwise_cons.mpr h'
    · split
      · rename_i hlt
        refine List.pairwise_cons.mpr ⟨?_, h⟩
        intro e he
        rcases List.mem_cons.mp he with rfl | he
        · exact hlt
        · exact Nat.lt_trans hlt (h'.1 e he)
      · refine List.pairwise_cons.mpr ⟨?_, ih h'.2⟩
        intro e he
        rcases Table.mem_insert he with rfl | he
        · simp only; omega
        · exact h'.1 e he

variable [DecidableEq α]

/-- A read after a write: the value written, every other index as it was. -/
theorem Table.get_set (d : α) {t : Table α} (i j : Nat) (v : α) (h : Table.wf d t = true) :
    Table.get d (Table.set d t i v) j = if j = i then v else Table.get d t j := by
  have h := ((Table.wf_iff d t).mp h).1
  unfold Table.set
  split
  · rename_i hv
    rw [Table.get_erase d t i j h, hv]
  · rw [Table.get_insert d t i j v h]

/-- A write keeps the canonical form. -/
theorem Table.wf_set {d : α} {t : Table α} {i : Nat} {v : α} (h : Table.wf d t = true) : Table.wf d (Table.set d t i v) = true := by
  rw [Table.wf_iff] at h ⊢
  unfold Table.set
  split
  · exact ⟨Table.pairwise_erase h.1, fun e he => h.2 e (Table.mem_erase he)⟩
  · rename_i hv
    refine ⟨Table.pairwise_insert h.1, ?_⟩
    intro e he
    rcases Table.mem_insert he with rfl | he
    · exact hv
    · exact h.2 e he

end Table

/-! ## Sorted lists -/

theorem setWf_iff (l : List Nat) : setWf l = true ↔ l.Pairwise (· < ·) := by
  induction l with
  | nil => simp [setWf]
  | cons i l ih =>
    cases l with
    | nil => simp [setWf]
    | cons j l =>
      simp only [setWf, Bool.and_eq_true, decide_eq_true_eq, ih, List.pairwise_cons, List.mem_cons]
      constructor
      · rintro ⟨hij, h1, h2⟩
        refine ⟨?_, h1, h2⟩
        rintro k (rfl | hk)
        · exact hij
        · exact Nat.lt_trans hij (h1 k hk)
      · rintro ⟨h0, h1, h2⟩
        exact ⟨h0 j (Or.inl rfl), h1, h2⟩

theorem mem_setInsert {l : List Nat} {i k : Nat} : k ∈ setInsert l i ↔ k = i ∨ k ∈ l := by
  induction l with
  | nil => simp [setInsert]
  | cons j l ih =>
    simp only [setInsert]
    split
    · rename_i h
      subst h
      simp
    · split
      · simp
      · simp only [List.mem_cons, ih]
        constructor
        · rintro (h | h | h)
          · exact .inr (.inl h)
          · exact .inl h
          · exact .inr (.inr h)
        · rintro (h | h | h)
          · exact .inr (.inl h)
          · exact .inl h
          · exact .inr (.inr h)

theorem setWf_setInsert {l : List Nat} {i : Nat} (h : setWf l = true) : setWf (setInsert l i) = true := by
  rw [setWf_iff] at h ⊢
  induction l with
  | nil => simp [setInsert]
  | cons j l ih =>
    have h' := List.pairwise_cons.mp h
    simp only [setInsert]
    split
    · exact h
    · split
      · rename_i hlt
        refine List.pairwise_cons.mpr ⟨?_, h⟩
        intro k hk
        rcases List.mem_cons.mp hk with rfl | hk
        · exact hlt
        · exact Nat.lt_trans hlt (h'.1 k hk)
      · refine List.pairwise_cons.mpr ⟨?_, ih h'.2⟩
        intro k hk
        rcases mem_setInsert.mp hk with rfl | hk
        · omega
        · exact h'.1 k hk

theorem setWf_filter {l : List Nat} {p : Nat → Bool} (h : setWf l = true) : setWf (l.filter p) = true := by
  rw [setWf_iff] at h ⊢
  exact h.filter p

/-! ## Bytes -/

theorem Mem.bytes_wf {m : Mem} (h : m.wf = true) : Table.wf (0 : Byte) m.bytes = true := by
  simp only [Mem.wf, Bool.and_eq_true] at h
  exact h.1.1.1

theorem Mem.byte_setByte {m : Mem} (h : Table.wf (0 : Byte) m.bytes = true) (a i : Nat) (v : Byte) :
    (m.setByte a v).byte i = if i = a then v else m.byte i := Table.get_set (0 : Byte) a i v h

theorem Mem.write_bytes_wf {m : Mem} (h : Table.wf (0 : Byte) m.bytes = true) (a : Nat) (l : List Byte) :
    Table.wf (0 : Byte) (m.write a l).bytes = true := by
  induction l generalizing m a with
  | nil => exact h
  | cons v l ih => exact ih (m := m.setByte a v) (Table.wf_set h) (a + 1)

/-- A write changes the bytes it names and no other. -/
theorem Mem.byte_write {m : Mem} (h : Table.wf (0 : Byte) m.bytes = true) (a i : Nat) (l : List Byte) :
    (m.write a l).byte i = if a ≤ i ∧ i < a + l.length then l.getD (i - a) 0 else m.byte i := by
  induction l generalizing m a with
  | nil => simp only [Mem.write, List.length_nil]; rw [if_neg (by omega)]
  | cons v l ih =>
    simp only [Mem.write, List.length_cons]
    rw [ih (m := m.setByte a v) (Table.wf_set h) (a + 1), Mem.byte_setByte h]
    by_cases h1 : i = a
    · subst h1
      rw [if_neg (by omega), if_pos rfl, if_pos (by omega)]
      simp
    · by_cases h2 : a + 1 ≤ i ∧ i < a + 1 + l.length
      · rw [if_pos h2, if_pos (by omega)]
        obtain ⟨n, hn⟩ : ∃ n, i - a = n + 1 := ⟨i - a - 1, by omega⟩
        rw [show i - (a + 1) = n by omega, hn]
        simp
      · rw [if_neg h2, if_neg h1, if_neg (by omega)]

/-- A write changes nothing but bytes. -/
theorem Mem.write_rest (m : Mem) (a : Nat) (l : List Byte) : m.write a l = { m with bytes := (m.write a l).bytes } := by
  induction l generalizing m a with
  | nil => rfl
  | cons v l ih =>
    simp only [Mem.write]
    rw [ih (m.setByte a v) (a + 1)]
    rfl

theorem Mem.length_read (m : Mem) (a n : Nat) : (m.read a n).length = n := by
  induction n generalizing a with
  | zero => rfl
  | succ n ih => simp [Mem.read, ih]

theorem Mem.read_append (m : Mem) (a i j : Nat) : m.read a i ++ m.read (a + i) j = m.read a (i + j) := by
  induction i generalizing a with
  | zero => simp [Mem.read]
  | succ i ih =>
    rw [show i + 1 + j = (i + j) + 1 by omega]
    simp only [Mem.read, List.cons_append]
    rw [← ih (a + 1), show a + (i + 1) = a + 1 + i by omega]

/-! ## Tags -/

@[simp] theorem Mem.tag_clearTags (m : Mem) (a n g : Nat) :
    (m.clearTags a n).tag g = (m.tag g && !(decide (0 < n) && decide (a / 16 ≤ g ∧ g ≤ (a + n - 1) / 16))) := by
  unfold Mem.clearTags
  by_cases hn : n = 0
  · simp [hn]
  · have : 0 < n := by omega
    rw [if_neg hn, Bool.eq_iff_iff]
    simp only [Mem.tag, List.contains_iff_mem, List.mem_filter, Bool.or_eq_true, decide_eq_true_eq, this, decide_true, Bool.true_and,
      Bool.and_eq_true, Bool.not_eq_true', decide_eq_false_iff_not, not_and, Nat.not_le]
    constructor
    · rintro ⟨h1, h2 | h2⟩
      · exact ⟨h1, fun h => absurd h (by omega)⟩
      · exact ⟨h1, fun _ => h2⟩
    · rintro ⟨h1, h2⟩
      refine ⟨h1, ?_⟩
      by_cases h : a / 16 ≤ g
      · exact .inr (h2 h)
      · exact .inl (by omega)

@[simp] theorem Mem.tag_write (m : Mem) (a g : Nat) (l : List Byte) : (m.write a l).tag g = m.tag g := by
  rw [Mem.write_rest]
  rfl

theorem Mem.tag_setTag (m : Mem) (g n : Nat) : (m.setTag g).tag n = (m.tag n || decide (n = g)) := by
  rw [Bool.eq_iff_iff]
  simp only [Mem.tag, Mem.setTag, List.contains_iff_mem, mem_setInsert, Bool.or_eq_true, decide_eq_true_eq]
  exact or_comm

/-! ## Every memory operation keeps the canonical form -/

theorem Mem.wf_iff (m : Mem) : m.wf = true ↔
    Table.wf (0 : Byte) m.bytes = true ∧ setWf m.tags = true ∧ setWf m.poison = true ∧ setWf m.summary = true := by
  simp only [Mem.wf, Bool.and_eq_true]
  exact ⟨fun ⟨⟨⟨a, b⟩, c⟩, d⟩ => ⟨a, b, c, d⟩, fun ⟨a, b, c, d⟩ => ⟨⟨⟨a, b⟩, c⟩, d⟩⟩

theorem Mem.wf_setByte {m : Mem} (h : m.wf = true) (a : Nat) (v : Byte) : (m.setByte a v).wf = true := by
  rw [Mem.wf_iff] at h ⊢
  exact ⟨Table.wf_set h.1, h.2⟩

theorem Mem.wf_write {m : Mem} (h : m.wf = true) (a : Nat) (l : List Byte) : (m.write a l).wf = true := by
  induction l generalizing m a with
  | nil => exact h
  | cons v l ih => exact ih (Mem.wf_setByte h a v) (a + 1)

theorem Mem.wf_setTag {m : Mem} (h : m.wf = true) (g : Nat) : (m.setTag g).wf = true := by
  rw [Mem.wf_iff] at h ⊢
  exact ⟨h.1, setWf_setInsert h.2.1, h.2.2.1, setWf_setInsert h.2.2.2⟩

theorem Mem.wf_clearTag {m : Mem} (h : m.wf = true) (g : Nat) : (m.clearTag g).wf = true := by
  rw [Mem.wf_iff] at h ⊢
  exact ⟨h.1, setWf_filter h.2.1, h.2.2⟩

theorem Mem.wf_clearTags {m : Mem} (h : m.wf = true) (a n : Nat) : (m.clearTags a n).wf = true := by
  unfold Mem.clearTags
  split
  · exact h
  · rw [Mem.wf_iff] at h ⊢
    exact ⟨h.1, setWf_filter h.2.1, h.2.2⟩

theorem Mem.wf_cover {m : Mem} (h : m.wf = true) (mid pa n : Nat) : (m.cover mid pa n).wf = true := by
  unfold Mem.cover
  dsimp only
  split
  · exact h
  · split
    · exact h
    · split
      · rw [Mem.wf_iff] at h ⊢
        exact ⟨h.1, h.2.1, setWf_filter h.2.2.1, h.2.2.2⟩
      · exact h

@[simp] theorem Bench.setEv_mem (B : Bench) (n : Nat) (e : EvStat) : (B.setEv n e).mem = B.mem := rfl
@[simp] theorem Bench.setTask_mem (B : Bench) (n : Nat) (t : Task) : (B.setTask n t).mem = B.mem := rfl
@[simp] theorem Bench.pend_mem (B : Bench) (n : Nat) : (B.pend n).mem = B.mem := rfl
@[simp] theorem Bench.clearPending_mem (B : Bench) (n : Nat) : (B.clearPending n).mem = B.mem := rfl
@[simp] theorem Bench.countDelivery_mem (B : Bench) (n : Nat) : (B.countDelivery n).mem = B.mem := by
  unfold Bench.countDelivery
  dsimp only
  split
  · rfl
  · split <;> rfl
@[simp] theorem Bench.wake_mem (B : Bench) (t : Nat) : (B.wake t).mem = B.mem := by
  unfold Bench.wake
  dsimp only
  split <;> rfl
@[simp] theorem Bench.deliver_mem (B : Bench) (n : Nat) : (B.deliver n).mem = B.mem := by
  unfold Bench.deliver
  dsimp only
  split
  · rfl
  · split
    · rfl
    · split <;> simp
    · split
      · simp
      · split <;> simp
    · rfl
@[simp] theorem Bench.wakeUp_mem (B : Bench) : B.wakeUp.mem = B.mem := by
  unfold Bench.wakeUp
  split <;> rfl
/-- An event changes no memory. -/
@[simp] theorem Bench.raise_mem (B : Bench) (n : Nat) : (B.raise n).mem = B.mem := by
  unfold Bench.raise
  split
  · simp
  · split
    · simp
    · split <;> simp

@[simp] theorem Bench.countCorrected_mem (B : Bench) : B.countCorrected.mem = B.mem := by
  unfold Bench.countCorrected
  dsimp only
  split
  · simp
  · rfl

theorem Bench.correct_mem_wf {B : Bench} (h : B.mem.wf = true) (line : Nat) : (B.correct line).mem.wf = true := by
  unfold Bench.correct
  rw [Bench.countCorrected_mem]
  exact h

theorem Bench.correctTag_mem_wf {B : Bench} (h : B.mem.wf = true) (t : Nat) : (B.correctTag t).mem.wf = true := by
  unfold Bench.correctTag
  rw [Bench.countCorrected_mem]
  exact h

theorem Bench.poisonLine_mem_wf {B : Bench} (h : B.mem.wf = true) (mid : Nat) (walk : Bool) (line : Nat) :
    (B.poisonLine mid walk line).mem.wf = true := by
  unfold Bench.poisonLine
  apply Mem.wf_clearTags
  rw [Mem.wf_iff] at h ⊢
  exact ⟨h.1, h.2.1, setWf_setInsert h.2.2.1, h.2.2.2⟩

theorem Bench.tagDamage_mem_wf {B : Bench} (h : B.mem.wf = true) (t : Nat) : (B.tagDamage t).mem.wf = true := by
  unfold Bench.tagDamage
  apply Mem.wf_clearTags
  exact h

/-- A record entering the ring keeps the canonical form. -/
theorem Bench.putRecord_mem_wf {B : Bench} (h : B.mem.wf = true) (l : List Byte) : (B.putRecord l).mem.wf = true := by
  unfold Bench.putRecord
  dsimp only
  split
  · exact h
  · split <;> simp only [Bench.raise_mem] <;> exact Mem.wf_clearTags (Mem.wf_write h _ _) _ _

/-- A step of a bench that may be taken keeps what both of its cases keep. -/
theorem Bench.ite_mem_wf {B C : Bench} (p : Bool) (hB : B.mem.wf = true) (hC : B.mem.wf = true → C.mem.wf = true) :
    (if p then C else B).mem.wf = true := by
  cases p
  · exact hB
  · exact hC hB

theorem Bench.recordAt_mem_wf (n : Nat) : ∀ {B : Bench} (_ : B.mem.wf = true) (mid : Nat) (org : Word) (l : List Byte),
    (B.recordAt mid org n l).mem.wf = true := by
  induction n with
  | zero => exact fun h _ _ _ => Bench.putRecord_mem_wf h _
  | succ n ih =>
    intro B h mid org l
    unfold Bench.recordAt
    split
    · exact Bench.putRecord_mem_wf h _
    · dsimp only
      refine Bench.ite_mem_wf _ (Bench.ite_mem_wf _ (Bench.ite_mem_wf _ (Bench.ite_mem_wf _ (Bench.putRecord_mem_wf h _) ?_) ?_) ?_) ?_
      · exact fun k => Bench.correctTag_mem_wf k _
      · exact fun k => Bench.correct_mem_wf k _
      · intro k
        rw [Bench.raise_mem]
        exact ih (Bench.tagDamage_mem_wf k _) ..
      · intro k
        rw [Bench.raise_mem]
        exact ih (Bench.poisonLine_mem_wf k ..) ..

theorem Bench.violation_mem_wf {B : Bench} (h : B.mem.wf = true) (org : Word) (line mid kind : Nat) (u : Bool) (gen : Nat) (mask : Dword) :
    (B.violation org line mid kind u gen mask).mem.wf = true := Bench.recordAt_mem_wf _ h ..

theorem Bench.denied_mem_wf {B : Bench} (h : B.mem.wf = true) (mid : Nat) (org : Word) (pa n kind : Nat) :
    (B.denied mid org pa n kind).mem.wf = true := Bench.violation_mem_wf h ..

theorem Bench.detect_mem_wf {B : Bench} (h : B.mem.wf = true) (mid : Nat) (org : Word) (walk : Bool) (line : Nat) :
    (B.detect mid org walk line).mem.wf = true := by
  unfold Bench.detect
  rw [Bench.raise_mem]
  exact Bench.violation_mem_wf (Bench.poisonLine_mem_wf h ..) ..

theorem Bench.tagError_mem_wf {B : Bench} (h : B.mem.wf = true) (t : Nat) : (B.tagError t).mem.wf = true := by
  unfold Bench.tagError
  rw [Bench.raise_mem]
  exact Bench.violation_mem_wf (Bench.tagDamage_mem_wf h _) ..

theorem Bench.checkLine_mem_wf {B : Bench} (h : B.mem.wf = true) (mid : Nat) (org : Word) (walk : Bool) (pa : Nat) :
    (B.checkLine mid org walk pa).2.mem.wf = true :=
  Bench.ite_mem_wf _ (Bench.ite_mem_wf _ (Bench.ite_mem_wf _ (Bench.ite_mem_wf _ h fun k => Bench.correctTag_mem_wf k _)
    fun k => Bench.tagError_mem_wf k _) fun k => Bench.correct_mem_wf k _) fun k => Bench.detect_mem_wf k ..

/-- A write of Normal memory keeps the canonical form. -/
theorem Bench.writeNormal_mem_wf {B : Bench} (h : B.mem.wf = true) (mid : Nat) (org : Word) (pa : Nat) (l : List Byte) :
    (B.writeNormal mid org pa l).mem.wf = true := by
  unfold Bench.writeNormal
  dsimp only
  split
  · apply Mem.wf_clearTags
    apply Mem.wf_write
    rw [Mem.wf_iff] at h ⊢
    exact ⟨h.1, h.2.1, setWf_filter h.2.2.1, h.2.2.2⟩
  · apply Mem.wf_cover
    apply Mem.wf_clearTags
    exact Mem.wf_write (Bench.checkLine_mem_wf h ..) _ _

@[simp] theorem Bench.emit_mem (B : Bench) (o : Output) : (B.emit o).mem = B.mem := rfl

theorem Bench.hwinRefused_mem_wf {B : Bench} (h : B.mem.wf = true) (mid : Nat) (org : Word) (pa n kind : Nat) :
    (B.hwinRefused mid org pa n kind).mem.wf = true := by
  unfold Bench.hwinRefused
  simp only [Bench.raise_mem]
  exact Bench.violation_mem_wf h ..

theorem drawBytes_mem (n : Nat) (B : Bench) : (drawBytes n B).2.mem = B.mem := by
  induction n generalizing B with
  | zero => rfl
  | succ n ih => exact ih { B with freeCtr := B.freeCtr + 1 }

theorem Bench.hostRead_mem_wf {B : Bench} (h : B.mem.wf = true) (mid : Nat) (org : Word) (pa n kind : Nat) :
    (B.hostRead mid org pa n kind).2.mem.wf = true := by
  unfold Bench.hostRead
  split
  · exact Bench.hwinRefused_mem_wf h ..
  · split
    · simp only [Bench.raise_mem]
      exact h
    · rw [drawBytes_mem]
      exact h

theorem Bench.hostWrite_mem_wf {B : Bench} (h : B.mem.wf = true) (mid : Nat) (org : Word) (pa : Nat) (l : List Byte) :
    (B.hostWrite mid org pa l).mem.wf = true := by
  unfold Bench.hostWrite
  split
  · exact Bench.hwinRefused_mem_wf h ..
  · split
    · simp only [Bench.raise_mem]
      exact h
    · exact h

/-- A read of one part keeps the canonical form. -/
theorem Bench.readPart_mem_wf {B : Bench} (h : B.mem.wf = true) (mid : Nat) (org : Word) (pa n kind : Nat) (need : Right) :
    (B.readPart mid org pa n kind need).2.mem.wf = true := by
  unfold Bench.readPart
  split
  · exact Bench.denied_mem_wf h ..
  · split
    · have := Bench.checkLine_mem_wf h mid org (kind = kindWalk) pa
      dsimp only
      split <;> exact this
    · exact Bench.hostRead_mem_wf h ..
    · exact h

/-- A write of one part keeps the canonical form. -/
theorem Bench.writePart_mem_wf {B : Bench} (h : B.mem.wf = true) (mid : Nat) (org : Word) (pa : Nat) (l : List Byte) :
    (B.writePart mid org pa l).mem.wf = true := by
  unfold Bench.writePart
  split
  · exact Bench.denied_mem_wf h ..
  · split
    · exact Bench.writeNormal_mem_wf h ..
    · exact Bench.hostWrite_mem_wf h ..
    · exact h

/-- A write of a granule with its tag keeps the canonical form. -/
theorem Bench.writeGranule_mem_wf {B : Bench} (h : B.mem.wf = true) (mid : Nat) (org : Word) (pa : Nat) (c : Cap) :
    (B.writeGranule mid org pa c).mem.wf = true := by
  unfold Bench.writeGranule
  dsimp only
  split
  · exact Bench.writePart_mem_wf h ..
  · split
    · exact Bench.denied_mem_wf h ..
    · split
      · exact Bench.violation_mem_wf (Bench.writePart_mem_wf h ..) ..
      · split
        · split
          · exact Bench.writeNormal_mem_wf h ..
          · exact Mem.wf_setTag (Bench.writeNormal_mem_wf h ..) _
        · exact Bench.writePart_mem_wf h ..

/-- A unit's read keeps the canonical form. -/
theorem Bench.unitRead_mem_wf {B : Bench} (h : B.mem.wf = true) (mid : Nat) (org : Word) (pa n : Nat) :
    (B.unitRead mid org pa n).2.mem.wf = true := by
  unfold Bench.unitRead
  generalize hl : splitLines pa n = l
  clear hl
  suffices H : ∀ (acc : (List Byte × Option Nat) × Bench), acc.2.mem.wf = true → (l.foldl (fun acc p =>
      let (r, B) := acc.2.readPart mid org p.1 p.2 kindRead .r
      let bad := if acc.1.2.isNone && r.bad then some acc.1.1.length else acc.1.2
      ((acc.1.1 ++ r.bytes, bad), B)) acc).2.mem.wf = true from H _ h
  intro acc ha
  induction l generalizing acc with
  | nil => exact ha
  | cons p l ih => exact ih _ (Bench.readPart_mem_wf ha ..)

/-- A unit's write keeps the canonical form. -/
theorem Bench.unitWrite_mem_wf {B : Bench} (h : B.mem.wf = true) (mid : Nat) (org : Word) (pa : Nat) (l : List Byte) :
    (B.unitWrite mid org pa l).mem.wf = true := by
  unfold Bench.unitWrite
  generalize splitLines pa l.length = ps
  suffices H : ∀ (acc : List Byte × Bench), acc.2.mem.wf = true → (ps.foldl (fun acc p =>
      (acc.1.drop p.2, acc.2.writePart mid org p.1 (acc.1.take p.2))) acc).2.mem.wf = true from H _ h
  intro acc ha
  induction ps generalizing acc with
  | nil => exact ha
  | cons p ps ih => exact ih _ (Bench.writePart_mem_wf ha ..)

end Sys2Proof.Machine
end

