-- ==== Sys2Proof/Laws/Access.lean ====
section
/-!
SUPPORT. Laws/Access.lean: what an access to plain memory does, said once (R87, R178, R184), and that the instruction's word plays no
part in an access.
-/

namespace Sys2Proof.Machine

/-- An intact line is read as it is. -/
theorem Bench.checkLine_intact {B : Bench} {mid : Nat} {org : Word} {walk : Bool} {pa : Nat}
    (h1 : pa / 64 ∉ B.mem.poison) (h2 : pa / 64 ∉ B.mem.latent) (h3 : pa / 64 ∉ B.mem.weak) (h4 : pa / 8192 ∉ B.mem.tagLatent)
    (h5 : pa / 8192 ∉ B.mem.tagWeak) :
    B.checkLine mid org walk pa = (false, B) := by
  simp [Bench.checkLine, h1, h2, h3, h4, h5]

/-- A capability that authorises an aligned access passes its check (R87). -/
theorem Cap.check_of_authorises {c : Cap} {perms : List Nat} {ea : Dword} {n align : Nat} {cause : Cause} {also : Bool}
    (h : c.authorises perms ea.toNat n) (ha : ea.toNat % align = 0) (hs : also = true) :
    c.checkAccess ea n perms align cause also = .ok () := by
  obtain ⟨h1, h2, h3, h4, h5⟩ := h
  have hp : c.hasAll perms = true := by simpa [Cap.hasAll] using h3
  simp [Cap.checkAccess, Cap.sealed?, h1, h2, hp, ha, hs, Nat.not_lt.mpr h4, Nat.not_lt.mpr h5]

theorem paType_lt {a : Nat} (h : paType a = .normal) : a < 2 ^ 40 := by
  unfold paType at h
  split at h
  · omega
  · split at h
    · rename_i hh; simp at hh; omega
    · split at h
      · cases h
      · split at h <;> cases h

/-- The page checks of an access to plain memory pass with the physical address equal to the virtual one (R326). -/
theorem Bench.pageCheck_plain {B : Bench} {x : Xctx} {a : Nat} {k : Access} (hm : x.mode = 0) (ha : paType a = .normal) :
    B.pageCheck x a k = (.ok ⟨a, true, decide (k = .fetch), none, []⟩, B) := by
  have : a < 1099511627776 := paType_lt ha
  simp [Bench.pageCheck, canonical, hm, this, offCheck, ha]

/-- The parts of an access that ends within `unit` bytes of where it starts, or crosses one multiple of `unit`. -/
theorem xlate_plain {B : Bench} {σ : Strand} {a n : Nat} {need : Right} {kind : Access} (h : B.plainMemory σ.core σ.bank a n need)
    (hn : 0 < n) (hn2 : n ≤ 16) :
    M.xlate σ a n kind 16 false false B =
      .ok (if a % 16 + n ≤ 16 then [{ va := a, pa := a, len := n, caps := true, upper := false }]
           else [{ va := a, pa := a, len := 16 - a % 16, caps := true, upper := false },
                 { va := a + (16 - a % 16), pa := a + (16 - a % 16), len := n - (16 - a % 16), caps := true, upper := true }]) B := by
  obtain ⟨hm, hp⟩ := h
  have hmode : ∀ sys, (B.xctx σ.core σ.bank sys).mode = 0 := fun _ => hm
  by_cases hc : a % 16 + n ≤ 16
  · have hs : splitAt 16 (n / 16 + 2) a n = [(a, n)] := by
      have : min n (16 - a % 16) = n := by omega
      simp [splitAt, this, Nat.ne_of_gt hn]
    rw [if_pos hc]
    have ha := (hp a (by omega) (by omega)).1
    simp only [M.xlate, M.bench, bind, EStateM.bind, hs, pageChecks, Bench.pageCheck_plain (hmode _) ha, pure, EStateM.pure,
      pageCommits, Bench.pageCommit, List.isEmpty_nil, if_true]
  · have h1 : min n (16 - a % 16) = 16 - a % 16 := by omega
    have h2 : (a + (16 - a % 16)) % 16 = 0 := by omega
    have h3 : min (n - (16 - a % 16)) 16 = n - (16 - a % 16) := by omega
    have h4 : n - (16 - a % 16) ≠ 0 := by omega
    have hs : splitAt 16 (n / 16 + 2) a n = [(a, 16 - a % 16), (a + (16 - a % 16), n - (16 - a % 16))] := by
      cases hq : n / 16 <;> simp [splitAt, h1, h2, h3, h4, Nat.ne_of_gt hn]
    rw [if_neg hc]
    have ha := (hp a (by omega) (by omega)).1
    have hb := (hp (a + (16 - a % 16)) (by omega) (by omega)).1
    simp only [M.xlate, M.bench, bind, EStateM.bind, hs, pageChecks, Bench.pageCheck_plain (hmode _) ha,
      Bench.pageCheck_plain (hmode _) hb, pure, EStateM.pure, pageCommits, Bench.pageCommit, List.isEmpty_nil, if_true]

theorem readPart_plain {B : Bench} {σ : Strand} {p : Part} {kind : Nat} {need : Right} {word onLast : Bool}
    (h : paType p.pa = .normal) (hm : B.mafAllows (midCore σ.core) p.pa need = true)
    (h1 : p.pa / 64 ∉ B.mem.poison) (h2 : p.pa / 64 ∉ B.mem.latent) (h3 : p.pa / 64 ∉ B.mem.weak) (h4 : p.pa / 8192 ∉ B.mem.tagLatent)
    (h5 : p.pa / 8192 ∉ B.mem.tagWeak) :
    M.readPart σ p kind need word onLast B = .ok (B.mem.read p.pa p.len, B.mem.tag (p.pa / 16)) B := by
  simp [M.readPart, h, Bench.readPart, hm, Bench.checkLine_intact h1 h2 h3 h4 h5]

/-- The parts that `xlate` gives for plain memory read as its bytes. -/
theorem readParts_plain {B : Bench} {σ : Strand} {a n kind : Nat} {need : Right} {word onLast : Bool}
    (h : B.plainMemory σ.core σ.bank a n need) (hn : 0 < n) :
    ∃ t, M.readParts σ kind need word onLast
      (if a % 16 + n ≤ 16 then [{ va := a, pa := a, len := n, caps := true, upper := false }]
       else [{ va := a, pa := a, len := 16 - a % 16, caps := true, upper := false },
             { va := a + (16 - a % 16), pa := a + (16 - a % 16), len := n - (16 - a % 16), caps := true, upper := true }]) B
      = .ok (B.mem.read a n, t) B ∧ (a % 16 + n ≤ 16 → t = B.mem.tag (a / 16)) := by
  obtain ⟨hm, hp⟩ := h
  obtain ⟨h0, h1, h2, h3, h4, h5, h6⟩ := hp a (by omega) (by omega)
  split
  · refine ⟨B.mem.tag (a / 16), ?_, fun _ => rfl⟩
    simp only [M.readParts, bind, EStateM.bind, pure, EStateM.pure]
    rw [readPart_plain (p := ⟨a, a, n, true, false⟩) h0 h1 h2 h3 h4 h5 h6]
    simp
  · rename_i hs
    obtain ⟨g0, g1, g2, g3, g4, g5, g6⟩ := hp (a + (16 - a % 16)) (by omega) (by omega)
    refine ⟨B.mem.tag (a / 16), ?_, fun _ => rfl⟩
    simp only [M.readParts, bind, EStateM.bind, pure, EStateM.pure]
    rw [readPart_plain (p := ⟨a, a, 16 - a % 16, true, false⟩) h0 h1 h2 h3 h4 h5 h6]
    simp only
    rw [readPart_plain (p := ⟨a + (16 - a % 16), a + (16 - a % 16), n - (16 - a % 16), true, true⟩) g0 g1 g2 g3 g4 g5 g6]
    simp only [List.append_nil, Mem.read_append]
    congr 3; omega

/-- A load of plain memory returns its bytes and changes nothing. -/
theorem load_plain {B : Bench} {σ : Strand} {c : Cap} {ea : Dword} {n : Nat} (h : B.plainMemory σ.core σ.bank ea.toNat n .r)
    (hc : c.authorises [permLD] ea.toNat n) (hn : 0 < n) (hn2 : n ≤ 16) :
    M.load σ c ea n B = .ok (B.mem.read ea.toNat n) B := by
  obtain ⟨t, ht, -⟩ := readParts_plain (kind := kindRead) (word := isWordAccess ea.toNat n) (onLast := false) h hn
  simp only [M.load, bind, EStateM.bind, Cap.check_of_authorises hc (Nat.mod_one _) rfl, M.ofExcept, pure, EStateM.pure,
    xlate_plain h hn hn2, ht]

/-- A capability load of plain memory. -/
theorem loadCap_plain {B : Bench} {σ : Strand} {c : Cap} {ea : Dword} (h : B.plainMemory σ.core σ.bank ea.toNat 16 .r)
    (hc : c.authorises [permLD] ea.toNat 16) (ha : ea.toNat % 16 = 0) :
    M.loadCap σ c ea B = .ok (c.loaded (B.filtered (capOf (B.mem.read ea.toNat 16) (B.mem.tag (ea.toNat / 16)))) true) B := by
  obtain ⟨t, ht, ht2⟩ := readParts_plain (kind := kindRead) (word := false) (onLast := false) h (by decide)
  rw [if_pos (by omega)] at ht
  rw [ht2 (by omega)] at ht
  have hx := xlate_plain (kind := .capLoad) h (by decide) (by decide)
  rw [if_pos (by omega)] at hx
  simp only [M.loadCap, bind, EStateM.bind, Cap.check_of_authorises hc ha rfl, M.ofExcept, pure, EStateM.pure,
    hx, ht, M.bench, List.all_cons, List.all_nil, Bool.and_self]

/-! ## The word plays no part in an access: only the strand's core and bank do -/

section Word
variable {σ τ : Strand} (hc : σ.core = τ.core) (hb : σ.bank = τ.bank)
include hc hb

theorem xlate_word (ea n : Nat) (kind : Access) (unit : Nat) (asSys onLast : Bool) :
    M.xlate σ ea n kind unit asSys onLast = M.xlate τ ea n kind unit asSys onLast := by
  unfold M.xlate
  rw [hc, hb]

theorem readPart_word (p : Part) (kind : Nat) (need : Right) (word onLast : Bool) :
    M.readPart σ p kind need word onLast = M.readPart τ p kind need word onLast := by
  unfold M.readPart
  rw [hc, hb]

theorem writePart_word (p : Part) (l : List Byte) (word : Bool) : M.writePart σ p l word = M.writePart τ p l word := by
  unfold M.writePart
  rw [hc, hb]

theorem readParts_word (kind : Nat) (need : Right) (word onLast : Bool) (ps : List Part) :
    M.readParts σ kind need word onLast ps = M.readParts τ kind need word onLast ps := by
  induction ps with
  | nil => rfl
  | cons p t ih => simp only [M.readParts, ih, readPart_word hc hb]

theorem writeParts_word (word : Bool) (ps : List Part) (l : List Byte) : M.writeParts σ word ps l = M.writeParts τ word ps l := by
  induction ps generalizing l with
  | nil => rfl
  | cons p t ih => simp only [M.writeParts, ih, writePart_word hc hb]

/-- A load does not depend on the instruction's word. -/
theorem load_word (c : Cap) (ea : Dword) (n : Nat) : M.load σ c ea n = M.load τ c ea n := by
  simp only [M.load, readParts_word hc hb, xlate_word hc hb]

/-- A store does not depend on the instruction's word. -/
theorem store_word (c : Cap) (ea : Dword) (l : List Byte) : M.store σ c ea l = M.store τ c ea l := by
  simp only [M.store, writeParts_word hc hb, xlate_word hc hb]

/-- A capability load does not depend on the instruction's word. -/
theorem loadCap_word (c : Cap) (ea : Dword) : M.loadCap σ c ea = M.loadCap τ c ea := by
  simp only [M.loadCap, readParts_word hc hb, xlate_word hc hb]

/-- A capability store does not depend on the instruction's word. -/
theorem storeCap_word (c : Cap) (ea : Dword) (v : Cap) : M.storeCap σ c ea v = M.storeCap τ c ea v := by
  simp only [M.storeCap, xlate_word hc hb]
  rw [hc, hb]

end Word

/-! ## Stores -/

/-- A data write of one part of plain memory. -/
theorem writePart_plain {B : Bench} {σ : Strand} {p : Part} {l : List Byte} {word : Bool}
    (h : paType p.pa = .normal) (hm : B.mafAllows (midCore σ.core) p.pa .w = true) (hl : l.length ≤ 16)
    (h1 : p.pa / 64 ∉ B.mem.poison) (h2 : p.pa / 64 ∉ B.mem.latent) (h3 : p.pa / 64 ∉ B.mem.weak) (h4 : p.pa / 8192 ∉ B.mem.tagLatent)
    (h5 : p.pa / 8192 ∉ B.mem.tagWeak) :
    M.writePart σ p l word B = .ok () (B.withMem ((B.mem.write p.pa l).clearTags p.pa l.length)) := by
  have hn : l.length ≠ 64 := by omega
  have hcov : ((B.mem.write p.pa l).clearTags p.pa l.length).cover (midCore σ.core) p.pa l.length
      = (B.mem.write p.pa l).clearTags p.pa l.length := by
    have : ((B.mem.write p.pa l).clearTags p.pa l.length).poison = B.mem.poison := by
      unfold Mem.clearTags
      rw [Mem.write_rest]
      split <;> rfl
    unfold Mem.cover
    simp [this, h1]
  simp [M.writePart, M.mod, h, Bench.writePart, hm, Bench.writeNormal, hn, Bench.checkLine_intact h1 h2 h3 h4 h5, hcov, Bench.withMem]

/-- A data write of bytes, tags of the granules touched cleared. -/
theorem Mem.storedAt_write {m : Mem} (h : m.wf = true) (a : Nat) (l : List Byte) (hl : 0 < l.length) :
    m.storedAt ((m.write a l).clearTags a l.length) a l := by
  have hb : ((m.write a l).clearTags a l.length).bytes = (m.write a l).bytes := by
    unfold Mem.clearTags; split <;> rfl
  refine ⟨?_, ?_, ?_⟩
  · intro i
    show Table.get _ _ i = _
    rw [hb]
    exact Mem.byte_write (Mem.bytes_wf h) a i l
  · intro g
    simp [hl]
  · unfold Mem.clearTags
    rw [Mem.write_rest]
    split <;> rfl

/-- Two adjoining data writes are one. -/
theorem Mem.storedAt_two {m : Mem} (h : m.wf = true) (a : Nat) (l r : List Byte) (hl : 0 < l.length) (hr : 0 < r.length)
    (hg : (a + l.length) % 16 = 0) :
    m.storedAt (((((m.write a l).clearTags a l.length)).write (a + l.length) r).clearTags (a + l.length) r.length) a (l ++ r) := by
  have h1 := Mem.storedAt_write h a l hl
  have hw : ((m.write a l).clearTags a l.length).wf = true := Mem.wf_clearTags (Mem.wf_write h _ _) _ _
  have h2 := Mem.storedAt_write hw (a + l.length) r hr
  refine ⟨?_, ?_, ?_⟩
  · intro i
    rw [h2.1 i, h1.1 i]
    simp only [List.length_append]
    by_cases hi : a + l.length ≤ i ∧ i < a + l.length + r.length
    · rw [if_pos hi, if_pos (by omega), List.getD_eq_getElem?_getD, List.getD_eq_getElem?_getD, List.getElem?_append_right (by omega)]
      congr 2; omega
    · rw [if_neg hi]
      by_cases hj : a ≤ i ∧ i < a + l.length
      · rw [if_pos hj, if_pos (by omega), List.getD_eq_getElem?_getD, List.getD_eq_getElem?_getD,
          List.getElem?_append_left (by omega)]
      · rw [if_neg hj, if_neg (by omega)]
  · intro g
    rw [h2.2.1 g, h1.2.1 g, List.length_append, Bool.and_assoc]
    congr 1
    rw [Bool.eq_iff_iff]
    simp only [Bool.and_eq_true, Bool.not_eq_true', decide_eq_false_iff_not, not_and, Nat.not_le]
    constructor
    · rintro ⟨p, q⟩ hh
      by_cases hx : (a + l.length) / 16 ≤ g
      · have := q hx; omega
      · have := p hh; omega
    · intro p
      exact ⟨fun hh => by have := p hh; omega, fun hh => by have := p (by omega); omega⟩
  · rw [h2.2.2]
    rw [h1.2.2]

/-- A store to plain memory stores its bytes and changes nothing else. -/
theorem store_plain {B : Bench} {σ : Strand} {c : Cap} {ea : Dword} {l : List Byte} (hw : B.mem.wf = true)
    (h : B.plainMemory σ.core σ.bank ea.toNat l.length .w) (hc : c.authorises [permST] ea.toNat l.length) (hn : 0 < l.length)
    (hn2 : l.length ≤ 16) :
    ∃ m, B.mem.storedAt m ea.toNat l ∧ M.store σ c ea l B = .ok () (B.withMem m) := by
  generalize ha : ea.toNat = a at *
  have hx := xlate_plain (kind := .store) h hn hn2
  obtain ⟨hm, hp⟩ := h
  obtain ⟨h0, h1, h2, h3, h4, h5, h6⟩ := hp a (by omega) (by omega)
  have hck : c.checkAccess ea l.length [permST] 1 .misaligned = .ok () := Cap.check_of_authorises (ha ▸ hc) (Nat.mod_one _) rfl
  simp only [M.store, bind, EStateM.bind, hck, M.ofExcept, pure, EStateM.pure, ha, hx]
  split
  · refine ⟨_, Mem.storedAt_write hw a l hn, ?_⟩
    simp only [M.writeParts, bind, EStateM.bind, List.take_length, pure, EStateM.pure]
    rw [writePart_plain (p := ⟨a, a, l.length, true, false⟩) h0 h1 hn2 h2 h3 h4 h5 h6]
  · rename_i hs
    have e1 : (l.take (16 - a % 16)).length = 16 - a % 16 := by rw [List.length_take]; omega
    have e2 : (l.drop (16 - a % 16)).length = l.length - (16 - a % 16) := List.length_drop ..
    obtain ⟨g0, g1, g2, g3, g4, g5, g6⟩ := hp (a + (16 - a % 16)) (by omega) (by omega)
    refine ⟨((((B.mem.write a (l.take (16 - a % 16))).clearTags a (l.take (16 - a % 16)).length)).write (a + (16 - a % 16))
      (l.drop (16 - a % 16))).clearTags (a + (16 - a % 16)) (l.drop (16 - a % 16)).length, ?_, ?_⟩
    rotate_left
    · simp only [M.writeParts, bind, EStateM.bind, pure, EStateM.pure]
      rw [writePart_plain (p := ⟨a, a, 16 - a % 16, true, false⟩) h0 h1 (by omega) h2 h3 h4 h5 h6]
      simp only
      have keep : ∀ m : Mem, (∃ bs ts, m = { B.mem with bytes := bs, tags := ts }) →
          M.writePart σ ⟨a + (16 - a % 16), a + (16 - a % 16), l.length - (16 - a % 16), true, true⟩
            ((l.drop (16 - a % 16)).take (l.length - (16 - a % 16))) (isWordAccess a l.length) (B.withMem m)
          = .ok () (B.withMem ((m.write (a + (16 - a % 16)) (l.drop (16 - a % 16))).clearTags (a + (16 - a % 16)) (l.drop (16 - a % 16)).length)) := by
        rintro m ⟨bs, ts, rfl⟩
        rw [show (l.drop (16 - a % 16)).take (l.length - (16 - a % 16)) = l.drop (16 - a % 16) by rw [← e2, List.take_length]]
        exact writePart_plain (p := ⟨a + (16 - a % 16), a + (16 - a % 16), l.length - (16 - a % 16), true, true⟩) (B := B.withMem _)
          g0 g1 (by omega) g2 g3 g4 g5 g6
      rw [keep]
      exact ⟨_, _, (Mem.storedAt_write hw a (l.take (16 - a % 16)) (by omega)).2.2⟩
    · have := Mem.storedAt_two hw a (l.take (16 - a % 16)) (l.drop (16 - a % 16)) (by omega) (by omega) (by rw [e1]; omega)
      rw [List.take_append_drop, e1] at this
      rw [e1]
      exact this

end Sys2Proof.Machine
end

