-- ==== Sys2Proof/Laws/Exec.lean ====
section
/-!
SUPPORT. Laws/Exec.lean: the meaning that exec gives each command, one equation for each row of the table.
-/

namespace Sys2Proof.Machine

theorem exec_add (x : Exec) (rd rs1 rs2 : Reg) (s : State) : exec (.add x rd rs1 rs2) s = execAdd x rd rs1 rs2 s := rfl
theorem exec_sub (x : Exec) (rd rs1 rs2 : Reg) (s : State) : exec (.sub x rd rs1 rs2) s = execSub x rd rs1 rs2 s := rfl
theorem exec_and (x : Exec) (rd rs1 rs2 : Reg) (s : State) : exec (.and x rd rs1 rs2) s = execAnd x rd rs1 rs2 s := rfl
theorem exec_or (x : Exec) (rd rs1 rs2 : Reg) (s : State) : exec (.or x rd rs1 rs2) s = execOr x rd rs1 rs2 s := rfl
theorem exec_xor (x : Exec) (rd rs1 rs2 : Reg) (s : State) : exec (.xor x rd rs1 rs2) s = execXor x rd rs1 rs2 s := rfl
theorem exec_andn (x : Exec) (rd rs1 rs2 : Reg) (s : State) : exec (.andn x rd rs1 rs2) s = execAndn x rd rs1 rs2 s := rfl
theorem exec_orn (x : Exec) (rd rs1 rs2 : Reg) (s : State) : exec (.orn x rd rs1 rs2) s = execOrn x rd rs1 rs2 s := rfl
theorem exec_xnor (x : Exec) (rd rs1 rs2 : Reg) (s : State) : exec (.xnor x rd rs1 rs2) s = execXnor x rd rs1 rs2 s := rfl
theorem exec_sll (x : Exec) (rd rs1 rs2 : Reg) (s : State) : exec (.sll x rd rs1 rs2) s = execSll x rd rs1 rs2 s := rfl
theorem exec_srl (x : Exec) (rd rs1 rs2 : Reg) (s : State) : exec (.srl x rd rs1 rs2) s = execSrl x rd rs1 rs2 s := rfl
theorem exec_sra (x : Exec) (rd rs1 rs2 : Reg) (s : State) : exec (.sra x rd rs1 rs2) s = execSra x rd rs1 rs2 s := rfl
theorem exec_rol (x : Exec) (rd rs1 rs2 : Reg) (s : State) : exec (.rol x rd rs1 rs2) s = execRol x rd rs1 rs2 s := rfl
theorem exec_ror (x : Exec) (rd rs1 rs2 : Reg) (s : State) : exec (.ror x rd rs1 rs2) s = execRor x rd rs1 rs2 s := rfl
theorem exec_min (x : Exec) (rd rs1 rs2 : Reg) (s : State) : exec (.min x rd rs1 rs2) s = execMin x rd rs1 rs2 s := rfl
theorem exec_max (x : Exec) (rd rs1 rs2 : Reg) (s : State) : exec (.max x rd rs1 rs2) s = execMax x rd rs1 rs2 s := rfl
theorem exec_minu (x : Exec) (rd rs1 rs2 : Reg) (s : State) : exec (.minu x rd rs1 rs2) s = execMinu x rd rs1 rs2 s := rfl
theorem exec_maxu (x : Exec) (rd rs1 rs2 : Reg) (s : State) : exec (.maxu x rd rs1 rs2) s = execMaxu x rd rs1 rs2 s := rfl
theorem exec_clz (x : Exec) (rd rs1 : Reg) (s : State) : exec (.clz x rd rs1) s = execClz x rd rs1 s := rfl
theorem exec_ctz (x : Exec) (rd rs1 : Reg) (s : State) : exec (.ctz x rd rs1) s = execCtz x rd rs1 s := rfl
theorem exec_popc (x : Exec) (rd rs1 : Reg) (s : State) : exec (.popc x rd rs1) s = execPopc x rd rs1 s := rfl
theorem exec_sextb (x : Exec) (rd rs1 : Reg) (s : State) : exec (.sextb x rd rs1) s = execSextb x rd rs1 s := rfl
theorem exec_sexth (x : Exec) (rd rs1 : Reg) (s : State) : exec (.sexth x rd rs1) s = execSexth x rd rs1 s := rfl
theorem exec_zexth (x : Exec) (rd rs1 : Reg) (s : State) : exec (.zexth x rd rs1) s = execZexth x rd rs1 s := rfl
theorem exec_bswap (x : Exec) (rd rs1 : Reg) (s : State) : exec (.bswap x rd rs1) s = execBswap x rd rs1 s := rfl
theorem exec_mul (x : Exec) (rd rs1 rs2 : Reg) (s : State) : exec (.mul x rd rs1 rs2) s = execMul x rd rs1 rs2 s := rfl
theorem exec_mulh (x : Exec) (rd rs1 rs2 : Reg) (s : State) : exec (.mulh x rd rs1 rs2) s = execMulh x rd rs1 rs2 s := rfl
theorem exec_mulhu (x : Exec) (rd rs1 rs2 : Reg) (s : State) : exec (.mulhu x rd rs1 rs2) s = execMulhu x rd rs1 rs2 s := rfl
theorem exec_mulhsu (x : Exec) (rd rs1 rs2 : Reg) (s : State) : exec (.mulhsu x rd rs1 rs2) s = execMulhsu x rd rs1 rs2 s := rfl
theorem exec_div (x : Exec) (rd rs1 rs2 : Reg) (s : State) : exec (.div x rd rs1 rs2) s = execDiv x rd rs1 rs2 s := rfl
theorem exec_divu (x : Exec) (rd rs1 rs2 : Reg) (s : State) : exec (.divu x rd rs1 rs2) s = execDivu x rd rs1 rs2 s := rfl
theorem exec_rem (x : Exec) (rd rs1 rs2 : Reg) (s : State) : exec (.rem x rd rs1 rs2) s = execRem x rd rs1 rs2 s := rfl
theorem exec_remu (x : Exec) (rd rs1 rs2 : Reg) (s : State) : exec (.remu x rd rs1 rs2) s = execRemu x rd rs1 rs2 s := rfl
theorem exec_addi (x : Exec) (rd rs1 : Reg) (imm : BitVec 11) (s : State) : exec (.addi x rd rs1 imm) s = execAddi x rd rs1 imm s := rfl
theorem exec_andi (x : Exec) (rd rs1 : Reg) (imm : BitVec 11) (s : State) : exec (.andi x rd rs1 imm) s = execAndi x rd rs1 imm s := rfl
theorem exec_ori (x : Exec) (rd rs1 : Reg) (imm : BitVec 11) (s : State) : exec (.ori x rd rs1 imm) s = execOri x rd rs1 imm s := rfl
theorem exec_xori (x : Exec) (rd rs1 : Reg) (imm : BitVec 11) (s : State) : exec (.xori x rd rs1 imm) s = execXori x rd rs1 imm s := rfl
theorem exec_slli (x : Exec) (rd rs1 : Reg) (sh : BitVec 5) (s : State) : exec (.slli x rd rs1 sh) s = execSlli x rd rs1 sh s := rfl
theorem exec_srli (x : Exec) (rd rs1 : Reg) (sh : BitVec 5) (s : State) : exec (.srli x rd rs1 sh) s = execSrli x rd rs1 sh s := rfl
theorem exec_srai (x : Exec) (rd rs1 : Reg) (sh : BitVec 5) (s : State) : exec (.srai x rd rs1 sh) s = execSrai x rd rs1 sh s := rfl
theorem exec_rori (x : Exec) (rd rs1 : Reg) (sh : BitVec 5) (s : State) : exec (.rori x rd rs1 sh) s = execRori x rd rs1 sh s := rfl
theorem exec_lui (x : Exec) (rd : Reg) (imm : BitVec 16) (s : State) : exec (.lui x rd imm) s = execLui x rd imm s := rfl
theorem exec_lil (x : Exec) (rd : Reg) (imm : BitVec 16) (s : State) : exec (.lil x rd imm) s = execLil x rd imm s := rfl
theorem exec_mac (x : Exec) (rd rs1 rs2 : Reg) (s : State) : exec (.mac x rd rs1 rs2) s = execMac x rd rs1 rs2 s := rfl
theorem exec_macbPi (x : Exec) (rd cs1 rs2 : Reg) (s : State) : exec (.macbPi x rd cs1 rs2) s = execMacbPi x rd cs1 rs2 s := rfl
theorem exec_crcb (x : Exec) (poly : Fin 3) (rd rs1 : Reg) (s : State) : exec (.crcb x poly rd rs1) s = execCrcb x poly rd rs1 s := rfl
theorem exec_crcw (x : Exec) (poly : Fin 3) (rd rs1 : Reg) (s : State) : exec (.crcw x poly rd rs1) s = execCrcw x poly rd rs1 s := rfl
theorem exec_crcbPi (x : Exec) (poly : Fin 3) (rd cs1 : Reg) (s : State) : exec (.crcbPi x poly rd cs1) s = execCrcbPi x poly rd cs1 s := rfl
theorem exec_lb (x : Exec) (rd cs1 : Reg) (imm : BitVec 11) (s : State) : exec (.lb x rd cs1 imm) s = execLb x rd cs1 imm s := rfl
theorem exec_lbu (x : Exec) (rd cs1 : Reg) (imm : BitVec 11) (s : State) : exec (.lbu x rd cs1 imm) s = execLbu x rd cs1 imm s := rfl
theorem exec_lh (x : Exec) (rd cs1 : Reg) (imm : BitVec 11) (s : State) : exec (.lh x rd cs1 imm) s = execLh x rd cs1 imm s := rfl
theorem exec_lhu (x : Exec) (rd cs1 : Reg) (imm : BitVec 11) (s : State) : exec (.lhu x rd cs1 imm) s = execLhu x rd cs1 imm s := rfl
theorem exec_lw (x : Exec) (rd cs1 : Reg) (imm : BitVec 11) (s : State) : exec (.lw x rd cs1 imm) s = execLw x rd cs1 imm s := rfl
theorem exec_sb (x : Exec) (rs2 cs1 : Reg) (imm : BitVec 11) (s : State) : exec (.sb x rs2 cs1 imm) s = execSb x rs2 cs1 imm s := rfl
theorem exec_sh (x : Exec) (rs2 cs1 : Reg) (imm : BitVec 11) (s : State) : exec (.sh x rs2 cs1 imm) s = execSh x rs2 cs1 imm s := rfl
theorem exec_sw (x : Exec) (rs2 cs1 : Reg) (imm : BitVec 11) (s : State) : exec (.sw x rs2 cs1 imm) s = execSw x rs2 cs1 imm s := rfl
theorem exec_clc (x : Exec) (cd cs1 : Reg) (imm : BitVec 11) (s : State) : exec (.clc x cd cs1 imm) s = execClc x cd cs1 imm s := rfl
theorem exec_csc (x : Exec) (cs2 cs1 : Reg) (imm : BitVec 11) (s : State) : exec (.csc x cs2 cs1 imm) s = execCsc x cs2 cs1 imm s := rfl
theorem exec_dld (x : Exec) (dd cs1 : Reg) (imm : BitVec 11) (s : State) : exec (.dld x dd cs1 imm) s = execDld x dd cs1 imm s := rfl
theorem exec_dst (x : Exec) (ds2 cs1 : Reg) (imm : BitVec 11) (s : State) : exec (.dst x ds2 cs1 imm) s = execDst x ds2 cs1 imm s := rfl
theorem exec_lbPi (x : Exec) (down : Bool) (rd cs1 : Reg) (s : State) : exec (.lbPi x down rd cs1) s = execLbPi x down rd cs1 s := rfl
theorem exec_lbuPi (x : Exec) (down : Bool) (rd cs1 : Reg) (s : State) : exec (.lbuPi x down rd cs1) s = execLbuPi x down rd cs1 s := rfl
theorem exec_lhPi (x : Exec) (down : Bool) (rd cs1 : Reg) (s : State) : exec (.lhPi x down rd cs1) s = execLhPi x down rd cs1 s := rfl
theorem exec_lhuPi (x : Exec) (down : Bool) (rd cs1 : Reg) (s : State) : exec (.lhuPi x down rd cs1) s = execLhuPi x down rd cs1 s := rfl
theorem exec_lwPi (x : Exec) (down : Bool) (rd cs1 : Reg) (s : State) : exec (.lwPi x down rd cs1) s = execLwPi x down rd cs1 s := rfl
theorem exec_clcPi (x : Exec) (down : Bool) (cd cs1 : Reg) (s : State) : exec (.clcPi x down cd cs1) s = execClcPi x down cd cs1 s := rfl
theorem exec_dldPi (x : Exec) (down : Bool) (dd cs1 : Reg) (s : State) : exec (.dldPi x down dd cs1) s = execDldPi x down dd cs1 s := rfl
theorem exec_sbPi (x : Exec) (down : Bool) (rs2 cs1 : Reg) (s : State) : exec (.sbPi x down rs2 cs1) s = execSbPi x down rs2 cs1 s := rfl
theorem exec_shPi (x : Exec) (down : Bool) (rs2 cs1 : Reg) (s : State) : exec (.shPi x down rs2 cs1) s = execShPi x down rs2 cs1 s := rfl
theorem exec_swPi (x : Exec) (down : Bool) (rs2 cs1 : Reg) (s : State) : exec (.swPi x down rs2 cs1) s = execSwPi x down rs2 cs1 s := rfl
theorem exec_cscPi (x : Exec) (down : Bool) (cs2 cs1 : Reg) (s : State) : exec (.cscPi x down cs2 cs1) s = execCscPi x down cs2 cs1 s := rfl
theorem exec_dstPi (x : Exec) (down : Bool) (ds2 cs1 : Reg) (s : State) : exec (.dstPi x down ds2 cs1) s = execDstPi x down ds2 cs1 s := rfl
theorem exec_fillB (x : Exec) (down : Bool) (cs1 rs2 : Reg) (s : State) : exec (.fillB x down cs1 rs2) s = execFillB x down cs1 rs2 s := rfl
theorem exec_fillH (x : Exec) (down : Bool) (cs1 rs2 : Reg) (s : State) : exec (.fillH x down cs1 rs2) s = execFillH x down cs1 rs2 s := rfl
theorem exec_fillW (x : Exec) (down : Bool) (cs1 rs2 : Reg) (s : State) : exec (.fillW x down cs1 rs2) s = execFillW x down cs1 rs2 s := rfl
theorem exec_fillG (x : Exec) (down : Bool) (cs1 rs2 : Reg) (s : State) : exec (.fillG x down cs1 rs2) s = execFillG x down cs1 rs2 s := rfl
theorem exec_amoswapW (x : Exec) (aq rl : Bool) (rd rs2 cs1 : Reg) (s : State) : exec (.amoswapW x aq rl rd rs2 cs1) s = execAmoswapW x aq rl rd rs2 cs1 s := rfl
theorem exec_amocasW (x : Exec) (aq rl : Bool) (rd rs2 cs1 : Reg) (s : State) : exec (.amocasW x aq rl rd rs2 cs1) s = execAmocasW x aq rl rd rs2 cs1 s := rfl
theorem exec_amoaddW (x : Exec) (aq rl : Bool) (rd rs2 cs1 : Reg) (s : State) : exec (.amoaddW x aq rl rd rs2 cs1) s = execAmoaddW x aq rl rd rs2 cs1 s := rfl
theorem exec_amoorW (x : Exec) (aq rl : Bool) (rd rs2 cs1 : Reg) (s : State) : exec (.amoorW x aq rl rd rs2 cs1) s = execAmoorW x aq rl rd rs2 cs1 s := rfl
theorem exec_amoandW (x : Exec) (aq rl : Bool) (rd rs2 cs1 : Reg) (s : State) : exec (.amoandW x aq rl rd rs2 cs1) s = execAmoandW x aq rl rd rs2 cs1 s := rfl
theorem exec_amocasC (x : Exec) (aq rl : Bool) (cd cs2 cs1 : Reg) (s : State) : exec (.amocasC x aq rl cd cs2 cs1) s = execAmocasC x aq rl cd cs2 cs1 s := rfl
theorem exec_cmov (x : Exec) (cd cs1 : Reg) (s : State) : exec (.cmov x cd cs1) s = execCmov x cd cs1 s := rfl
theorem exec_cclrtag (x : Exec) (cd cs1 : Reg) (s : State) : exec (.cclrtag x cd cs1) s = execCclrtag x cd cs1 s := rfl
theorem exec_csetcl (x : Exec) (cd cs1 rs2 : Reg) (s : State) : exec (.csetcl x cd cs1 rs2) s = execCsetcl x cd cs1 rs2 s := rfl
theorem exec_cinc (x : Exec) (cd cs1 rs2 : Reg) (s : State) : exec (.cinc x cd cs1 rs2) s = execCinc x cd cs1 rs2 s := rfl
theorem exec_cinch (x : Exec) (cd cs1 rs2 : Reg) (s : State) : exec (.cinch x cd cs1 rs2) s = execCinch x cd cs1 rs2 s := rfl
theorem exec_csetb (x : Exec) (cd cs1 rs2 : Reg) (s : State) : exec (.csetb x cd cs1 rs2) s = execCsetb x cd cs1 rs2 s := rfl
theorem exec_csetb4k (x : Exec) (cd cs1 rs2 : Reg) (s : State) : exec (.csetb4k x cd cs1 rs2) s = execCsetb4k x cd cs1 rs2 s := rfl
theorem exec_csetbx (x : Exec) (cd cs1 rs2 : Reg) (s : State) : exec (.csetbx x cd cs1 rs2) s = execCsetbx x cd cs1 rs2 s := rfl
theorem exec_candp (x : Exec) (cd cs1 rs2 : Reg) (s : State) : exec (.candp x cd cs1 rs2) s = execCandp x cd cs1 rs2 s := rfl
theorem exec_cseal (x : Exec) (cd cs1 cs2 : Reg) (s : State) : exec (.cseal x cd cs1 cs2) s = execCseal x cd cs1 cs2 s := rfl
theorem exec_cunseal (x : Exec) (cd cs1 cs2 : Reg) (s : State) : exec (.cunseal x cd cs1 cs2) s = execCunseal x cd cs1 cs2 s := rfl
theorem exec_cgate (x : Exec) (cd cs1 : Reg) (s : State) : exec (.cgate x cd cs1) s = execCgate x cd cs1 s := rfl
theorem exec_cgetpcc (x : Exec) (cd : Reg) (s : State) : exec (.cgetpcc x cd) s = execCgetpcc x cd s := rfl
theorem exec_cgbasel (x : Exec) (rd cs1 : Reg) (s : State) : exec (.cgbasel x rd cs1) s = execCgbasel x rd cs1 s := rfl
theorem exec_cgbaseh (x : Exec) (rd cs1 : Reg) (s : State) : exec (.cgbaseh x rd cs1) s = execCgbaseh x rd cs1 s := rfl
theorem exec_cgtopl (x : Exec) (rd cs1 : Reg) (s : State) : exec (.cgtopl x rd cs1) s = execCgtopl x rd cs1 s := rfl
theorem exec_cgtoph (x : Exec) (rd cs1 : Reg) (s : State) : exec (.cgtoph x rd cs1) s = execCgtoph x rd cs1 s := rfl
theorem exec_cgtopx (x : Exec) (rd cs1 : Reg) (s : State) : exec (.cgtopx x rd cs1) s = execCgtopx x rd cs1 s := rfl
theorem exec_cglenl (x : Exec) (rd cs1 : Reg) (s : State) : exec (.cglenl x rd cs1) s = execCglenl x rd cs1 s := rfl
theorem exec_cglenh (x : Exec) (rd cs1 : Reg) (s : State) : exec (.cglenh x rd cs1) s = execCglenh x rd cs1 s := rfl
theorem exec_cgcurl (x : Exec) (rd cs1 : Reg) (s : State) : exec (.cgcurl x rd cs1) s = execCgcurl x rd cs1 s := rfl
theorem exec_cgcurh (x : Exec) (rd cs1 : Reg) (s : State) : exec (.cgcurh x rd cs1) s = execCgcurh x rd cs1 s := rfl
theorem exec_cgperm (x : Exec) (rd cs1 : Reg) (s : State) : exec (.cgperm x rd cs1) s = execCgperm x rd cs1 s := rfl
theorem exec_cgtype (x : Exec) (rd cs1 : Reg) (s : State) : exec (.cgtype x rd cs1) s = execCgtype x rd cs1 s := rfl
theorem exec_cgtag (x : Exec) (rd cs1 : Reg) (s : State) : exec (.cgtag x rd cs1) s = execCgtag x rd cs1 s := rfl
theorem exec_cgexp (x : Exec) (rd cs1 : Reg) (s : State) : exec (.cgexp x rd cs1) s = execCgexp x rd cs1 s := rfl
theorem exec_crrl (x : Exec) (rd rs1 : Reg) (s : State) : exec (.crrl x rd rs1) s = execCrrl x rd rs1 s := rfl
theorem exec_cram (x : Exec) (rd rs1 : Reg) (s : State) : exec (.cram x rd rs1) s = execCram x rd rs1 s := rfl
theorem exec_cinci (x : Exec) (cd cs1 : Reg) (imm : BitVec 11) (s : State) : exec (.cinci x cd cs1 imm) s = execCinci x cd cs1 imm s := rfl
theorem exec_csetbi (x : Exec) (cd cs1 : Reg) (imm : BitVec 11) (s : State) : exec (.csetbi x cd cs1 imm) s = execCsetbi x cd cs1 imm s := rfl
theorem exec_j (x : Exec) (off : BitVec 21) (s : State) : exec (.j x off) s = execJ x off s := rfl
theorem exec_jal (x : Exec) (off : BitVec 21) (s : State) : exec (.jal x off) s = execJal x off s := rfl
theorem exec_jr (x : Exec) (cs1 : Reg) (s : State) : exec (.jr x cs1) s = execJr x cs1 s := rfl
theorem exec_jalr (x : Exec) (cs1 : Reg) (s : State) : exec (.jalr x cs1) s = execJalr x cs1 s := rfl
theorem exec_ret (x : Exec) (cs1 : Reg) (s : State) : exec (.ret x cs1) s = execRet x cs1 s := rfl
theorem exec_rete (x : Exec) (s : State) : exec (.rete x) s = execRete x s := rfl
theorem exec_enter (x : Exec) (n : Fin 8) (s : State) : exec (.enter x n) s = execEnter x n s := rfl
theorem exec_cmpEq (x : Exec) (pd rs1 rs2 : Reg) (s : State) : exec (.cmpEq x pd rs1 rs2) s = execCmpEq x pd rs1 rs2 s := rfl
theorem exec_cmpNe (x : Exec) (pd rs1 rs2 : Reg) (s : State) : exec (.cmpNe x pd rs1 rs2) s = execCmpNe x pd rs1 rs2 s := rfl
theorem exec_cmpLt (x : Exec) (pd rs1 rs2 : Reg) (s : State) : exec (.cmpLt x pd rs1 rs2) s = execCmpLt x pd rs1 rs2 s := rfl
theorem exec_cmpLtu (x : Exec) (pd rs1 rs2 : Reg) (s : State) : exec (.cmpLtu x pd rs1 rs2) s = execCmpLtu x pd rs1 rs2 s := rfl
theorem exec_cmpGe (x : Exec) (pd rs1 rs2 : Reg) (s : State) : exec (.cmpGe x pd rs1 rs2) s = execCmpGe x pd rs1 rs2 s := rfl
theorem exec_cmpGeu (x : Exec) (pd rs1 rs2 : Reg) (s : State) : exec (.cmpGeu x pd rs1 rs2) s = execCmpGeu x pd rs1 rs2 s := rfl
theorem exec_cmpTst (x : Exec) (pd rs1 rs2 : Reg) (s : State) : exec (.cmpTst x pd rs1 rs2) s = execCmpTst x pd rs1 rs2 s := rfl
theorem exec_cmpTstz (x : Exec) (pd rs1 rs2 : Reg) (s : State) : exec (.cmpTstz x pd rs1 rs2) s = execCmpTstz x pd rs1 rs2 s := rfl
theorem exec_cmpeqi (x : Exec) (pd rs1 : Reg) (imm : BitVec 11) (s : State) : exec (.cmpeqi x pd rs1 imm) s = execCmpeqi x pd rs1 imm s := rfl
theorem exec_cmplti (x : Exec) (pd rs1 : Reg) (imm : BitVec 11) (s : State) : exec (.cmplti x pd rs1 imm) s = execCmplti x pd rs1 imm s := rfl
theorem exec_cmpltui (x : Exec) (pd rs1 : Reg) (imm : BitVec 11) (s : State) : exec (.cmpltui x pd rs1 imm) s = execCmpltui x pd rs1 imm s := rfl
theorem exec_predicateAnd (x : Exec) (neg : Bool) (pd ps1 ps2 : Reg) (s : State) : exec (.predicateAnd x neg pd ps1 ps2) s = execPredicateAnd x neg pd ps1 ps2 s := rfl
theorem exec_predicateOr (x : Exec) (neg : Bool) (pd ps1 ps2 : Reg) (s : State) : exec (.predicateOr x neg pd ps1 ps2) s = execPredicateOr x neg pd ps1 ps2 s := rfl
theorem exec_predicateXor (x : Exec) (neg : Bool) (pd ps1 ps2 : Reg) (s : State) : exec (.predicateXor x neg pd ps1 ps2) s = execPredicateXor x neg pd ps1 ps2 s := rfl
theorem exec_predicateAndNot (x : Exec) (neg : Bool) (pd ps1 ps2 : Reg) (s : State) : exec (.predicateAndNot x neg pd ps1 ps2) s = execPredicateAndNot x neg pd ps1 ps2 s := rfl
theorem exec_pset (x : Exec) (pd : Reg) (s : State) : exec (.pset x pd) s = execPset x pd s := rfl
theorem exec_pclr (x : Exec) (pd : Reg) (s : State) : exec (.pclr x pd) s = execPclr x pd s := rfl
theorem exec_prd (x : Exec) (rd : Reg) (s : State) : exec (.prd x rd) s = execPrd x rd s := rfl
theorem exec_pwr (x : Exec) (rs1 : Reg) (s : State) : exec (.pwr x rs1) s = execPwr x rs1 s := rfl
theorem exec_cmpbEqPi (x : Exec) (down : Bool) (pd cs1 rs2 : Reg) (s : State) : exec (.cmpbEqPi x down pd cs1 rs2) s = execCmpbEqPi x down pd cs1 rs2 s := rfl
theorem exec_cmpbNePi (x : Exec) (down : Bool) (pd cs1 rs2 : Reg) (s : State) : exec (.cmpbNePi x down pd cs1 rs2) s = execCmpbNePi x down pd cs1 rs2 s := rfl
theorem exec_cmpbLtuPi (x : Exec) (down : Bool) (pd cs1 rs2 : Reg) (s : State) : exec (.cmpbLtuPi x down pd cs1 rs2) s = execCmpbLtuPi x down pd cs1 rs2 s := rfl
theorem exec_cmpbGeuPi (x : Exec) (down : Bool) (pd cs1 rs2 : Reg) (s : State) : exec (.cmpbGeuPi x down pd cs1 rs2) s = execCmpbGeuPi x down pd cs1 rs2 s := rfl
theorem exec_ceqx (x : Exec) (pd cs1 cs2 : Reg) (s : State) : exec (.ceqx x pd cs1 cs2) s = execCeqx x pd cs1 cs2 s := rfl
theorem exec_ctsub (x : Exec) (pd cs1 cs2 : Reg) (s : State) : exec (.ctsub x pd cs1 cs2) s = execCtsub x pd cs1 cs2 s := rfl
theorem exec_sysrd (x : Exec) (rd : Reg) (n : BitVec 11) (s : State) : exec (.sysrd x rd n) s = execSysrd x rd n s := rfl
theorem exec_syswr (x : Exec) (rd : Reg) (n : BitVec 11) (s : State) : exec (.syswr x rd n) s = execSyswr x rd n s := rfl
theorem exec_csysrd (x : Exec) (cd : Reg) (n : BitVec 11) (s : State) : exec (.csysrd x cd n) s = execCsysrd x cd n s := rfl
theorem exec_csyswr (x : Exec) (cd : Reg) (n : BitVec 11) (s : State) : exec (.csyswr x cd n) s = execCsyswr x cd n s := rfl
theorem exec_escLockWrite (x : Exec) (rd : Reg) (s : State) : exec (.escLockWrite x rd) s = execEscLockWrite x rd s := rfl
theorem exec_fence (x : Exec) (pred succ : BitVec 3) (s : State) : exec (.fence x pred succ) s = execFence x pred succ s := rfl
theorem exec_fenceI (x : Exec) (s : State) : exec (.fenceI x) s = execFenceI x s := rfl
theorem exec_fenceT (x : Exec) (s : State) : exec (.fenceT x) s = execFenceT x s := rfl
theorem exec_tlbiAll (x : Exec) (bcast : Bool) (s : State) : exec (.tlbiAll x bcast) s = execTlbiAll x bcast s := rfl
theorem exec_tlbiAsid (x : Exec) (bcast : Bool) (rs1 : Reg) (s : State) : exec (.tlbiAsid x bcast rs1) s = execTlbiAsid x bcast rs1 s := rfl
theorem exec_tlbiVa (x : Exec) (bcast : Bool) (rs1 rs2 : Reg) (s : State) : exec (.tlbiVa x bcast rs1 rs2) s = execTlbiVa x bcast rs1 rs2 s := rfl
theorem exec_tlbiVaAsid (x : Exec) (bcast : Bool) (rs1 rs2 : Reg) (s : State) : exec (.tlbiVaAsid x bcast rs1 rs2) s = execTlbiVaAsid x bcast rs1 rs2 s := rfl
theorem exec_tlbiBCompletion (b : BenchNo) (s : State) : exec (.tlbiBCompletion b) s = execTlbiBCompletion b s := rfl
theorem exec_hold (x : Exec) (n : BitVec 12) (s : State) : exec (.hold x n) s = execHold x n s := rfl
theorem exec_release (x : Exec) (s : State) : exec (.release x) s = execRelease x s := rfl
theorem exec_holdExpiry (b : BenchNo) (k : CoreNo) (s : State) : exec (.holdExpiry b k) s = execHoldExpiry b k s := rfl
theorem exec_brx (x : Exec) (rd rs1 : Reg) (s : State) : exec (.brx x rd rs1) s = execBrx x rd rs1 s := rfl
theorem exec_bwx (x : Exec) (rd rs1 : Reg) (s : State) : exec (.bwx x rd rs1) s = execBwx x rd rs1 s := rfl
theorem exec_brc (x : Exec) (cd cs1 : Reg) (s : State) : exec (.brc x cd cs1) s = execBrc x cd cs1 s := rfl
theorem exec_bwc (x : Exec) (cd cs1 : Reg) (s : State) : exec (.bwc x cd cs1) s = execBwc x cd cs1 s := rfl
theorem exec_brd (x : Exec) (dd ds1 : Reg) (s : State) : exec (.brd x dd ds1) s = execBrd x dd ds1 s := rfl
theorem exec_bwd (x : Exec) (dd ds1 : Reg) (s : State) : exec (.bwd x dd ds1) s = execBwd x dd ds1 s := rfl
theorem exec_brs (x : Exec) (rd sel : Reg) (s : State) : exec (.brs x rd sel) s = execBrs x rd sel s := rfl
theorem exec_bws (x : Exec) (sel rs1 : Reg) (s : State) : exec (.bws x sel rs1) s = execBws x sel rs1 s := rfl
theorem exec_brpcc (x : Exec) (cd : Reg) (s : State) : exec (.brpcc x cd) s = execBrpcc x cd s := rfl
theorem exec_bwpcc (x : Exec) (cs1 : Reg) (s : State) : exec (.bwpcc x cs1) s = execBwpcc x cs1 s := rfl
theorem exec_savel (x : Exec) (s : State) : exec (.savel x) s = execSavel x s := rfl
theorem exec_saveu (x : Exec) (s : State) : exec (.saveu x) s = execSaveu x s := rfl
theorem exec_loadl (x : Exec) (s : State) : exec (.loadl x) s = execLoadl x s := rfl
theorem exec_loadu (x : Exec) (s : State) : exec (.loadu x) s = execLoadu x s := rfl
theorem exec_sev (x : Exec) (n : BitVec 6) (s : State) : exec (.sev x n) s = execSev x n s := rfl
theorem exec_wait (x : Exec) (s : State) : exec (.wait x) s = execWait x s := rfl
theorem exec_yield (x : Exec) (s : State) : exec (.yield x) s = execYield x s := rfl
theorem exec_eret (x : Exec) (s : State) : exec (.eret x) s = execEret x s := rfl
theorem exec_rep (b : BenchNo) (k : CoreNo) (count : BitVec 6) (w : Word) (s : State) : exec (.rep b k count w) s = execRep b k count w s := rfl
theorem exec_repi (b : BenchNo) (k : CoreNo) (rs1 : Reg) (w : Word) (s : State) : exec (.repi b k rs1 w) s = execRepi b k rs1 w s := rfl
theorem exec_dadd (x : Exec) (rm : BitVec 3) (dd ds1 ds2 : Reg) (s : State) : exec (.dadd x rm dd ds1 ds2) s = execDadd x rm dd ds1 ds2 s := rfl
theorem exec_dsub (x : Exec) (rm : BitVec 3) (dd ds1 ds2 : Reg) (s : State) : exec (.dsub x rm dd ds1 ds2) s = execDsub x rm dd ds1 ds2 s := rfl
theorem exec_dmul (x : Exec) (rm : BitVec 3) (dd ds1 ds2 : Reg) (s : State) : exec (.dmul x rm dd ds1 ds2) s = execDmul x rm dd ds1 ds2 s := rfl
theorem exec_ddiv (x : Exec) (rm : BitVec 3) (dd ds1 ds2 : Reg) (s : State) : exec (.ddiv x rm dd ds1 ds2) s = execDdiv x rm dd ds1 ds2 s := rfl
theorem exec_dqua (x : Exec) (rm : BitVec 3) (dd ds1 ds2 : Reg) (s : State) : exec (.dqua x rm dd ds1 ds2) s = execDqua x rm dd ds1 ds2 s := rfl
theorem exec_dtfx (x : Exec) (rm : BitVec 3) (rk ds1 : Reg) (sc : BitVec 5) (s : State) : exec (.dtfx x rm rk ds1 sc) s = execDtfx x rm rk ds1 sc s := rfl
theorem exec_dtbcd (x : Exec) (rm : BitVec 3) (rk ds1 : Reg) (sc : BitVec 5) (s : State) : exec (.dtbcd x rm rk ds1 sc) s = execDtbcd x rm rk ds1 sc s := rfl
theorem exec_dceq (x : Exec) (pd ds1 ds2 : Reg) (s : State) : exec (.dceq x pd ds1 ds2) s = execDceq x pd ds1 ds2 s := rfl
theorem exec_dclt (x : Exec) (pd ds1 ds2 : Reg) (s : State) : exec (.dclt x pd ds1 ds2) s = execDclt x pd ds1 ds2 s := rfl
theorem exec_dcle (x : Exec) (pd ds1 ds2 : Reg) (s : State) : exec (.dcle x pd ds1 ds2) s = execDcle x pd ds1 ds2 s := rfl
theorem exec_dcun (x : Exec) (pd ds1 ds2 : Reg) (s : State) : exec (.dcun x pd ds1 ds2) s = execDcun x pd ds1 ds2 s := rfl
theorem exec_dffx (x : Exec) (dd rk : Reg) (sc : BitVec 5) (s : State) : exec (.dffx x dd rk sc) s = execDffx x dd rk sc s := rfl
theorem exec_dtfxe (x : Exec) (rk ds1 : Reg) (sc : BitVec 5) (s : State) : exec (.dtfxe x rk ds1 sc) s = execDtfxe x rk ds1 sc s := rfl
theorem exec_dfbcd (x : Exec) (dd rk : Reg) (sc : BitVec 5) (s : State) : exec (.dfbcd x dd rk sc) s = execDfbcd x dd rk sc s := rfl
theorem exec_dmov (x : Exec) (dd ds1 : Reg) (s : State) : exec (.dmov x dd ds1) s = execDmov x dd ds1 s := rfl
theorem exec_dneg (x : Exec) (dd ds1 : Reg) (s : State) : exec (.dneg x dd ds1) s = execDneg x dd ds1 s := rfl
theorem exec_dabs (x : Exec) (dd ds1 : Reg) (s : State) : exec (.dabs x dd ds1) s = execDabs x dd ds1 s := rfl
theorem exec_dcsrr (x : Exec) (rd : Reg) (s : State) : exec (.dcsrr x rd) s = execDcsrr x rd s := rfl
theorem exec_dcsrw (x : Exec) (rs1 : Reg) (s : State) : exec (.dcsrw x rs1) s = execDcsrw x rs1 s := rfl
theorem exec_dmfx (x : Exec) (rd ds1 : Reg) (i0 : Fin 4) (s : State) : exec (.dmfx x rd ds1 i0) s = execDmfx x rd ds1 i0 s := rfl
theorem exec_dmtx (x : Exec) (dd rs1 : Reg) (i0 : Fin 4) (s : State) : exec (.dmtx x dd rs1 i0) s = execDmtx x dd rs1 i0 s := rfl
theorem exec_esub (x : Exec) (rd cs1 rs2 : Reg) (s : State) : exec (.esub x rd cs1 rs2) s = execEsub x rd cs1 rs2 s := rfl
theorem exec_epoll (x : Exec) (rd cs1 rs2 : Reg) (s : State) : exec (.epoll x rd cs1 rs2) s = execEpoll x rd cs1 rs2 s := rfl
theorem exec_ckpush (x : Exec) (cs1 rs2 : Reg) (s : State) : exec (.ckpush x cs1 rs2) s = execCkpush x cs1 rs2 s := rfl
theorem exec_ckpop (x : Exec) (rd cs1 rs2 : Reg) (s : State) : exec (.ckpop x rd cs1 rs2) s = execCkpop x rd cs1 rs2 s := rfl
theorem exec_clpush (x : Exec) (cs1 rs2 : Reg) (s : State) : exec (.clpush x cs1 rs2) s = execClpush x cs1 rs2 s := rfl
theorem exec_clpop (x : Exec) (rd cs1 rs2 : Reg) (s : State) : exec (.clpop x rd cs1 rs2) s = execClpop x rd cs1 rs2 s := rfl
theorem exec_jpush (x : Exec) (cs1 : Reg) (s : State) : exec (.jpush x cs1) s = execJpush x cs1 s := rfl
theorem exec_japp (x : Exec) (rd cs1 rs2 : Reg) (s : State) : exec (.japp x rd cs1 rs2) s = execJapp x rd cs1 rs2 s := rfl
theorem exec_trd (x : Exec) (rd : Reg) (s : State) : exec (.trd x rd) s = execTrd x rd s := rfl
theorem exec_trdc (x : Exec) (cs1 : Reg) (s : State) : exec (.trdc x cs1) s = execTrdc x cs1 s := rfl
theorem exec_strandSwitch (b : BenchNo) (k : CoreNo) (s : State) : exec (.strandSwitch b k) s = execStrandSwitch b k s := rfl
theorem exec_eventOccurrence (b : BenchNo) (src : Fin 1024) (lvl : Bool) (s : State) : exec (.eventOccurrence b src lvl) s = execEventOccurrence b src lvl s := rfl
theorem exec_eventTrapDelivery (b : BenchNo) (k : CoreNo) (s : State) : exec (.eventTrapDelivery b k) s = execEventTrapDelivery b k s := rfl
theorem exec_bscTrapDelivery (b : BenchNo) (s : State) : exec (.bscTrapDelivery b) s = execBscTrapDelivery b s := rfl
theorem exec_stormWindowRollover (b : BenchNo) (s : State) : exec (.stormWindowRollover b) s = execStormWindowRollover b s := rfl
theorem exec_evstatMaskedClear (b : BenchNo) (w : Writer) (src : Fin 1024) (count : Half) (s : State) : exec (.evstatMaskedClear b w src count) s = execEvstatMaskedClear b w src count s := rfl
theorem exec_taskStart (b : BenchNo) (w : Writer) (t : Fin 4096) (s : State) : exec (.taskStart b w t) s = execTaskStart b w t s := rfl
theorem exec_taskStop (b : BenchNo) (w : Writer) (t : Fin 4096) (s : State) : exec (.taskStop b w t) s = execTaskStop b w t s := rfl
theorem exec_taskWake (b : BenchNo) (w : Writer) (t : Fin 4096) (s : State) : exec (.taskWake b w t) s = execTaskWake b w t s := rfl
theorem exec_taskFree (b : BenchNo) (w : Writer) (t : Fin 4096) (s : State) : exec (.taskFree b w t) s = execTaskFree b w t s := rfl
theorem exec_taskPlacement (b : BenchNo) (s : State) : exec (.taskPlacement b) s = execTaskPlacement b s := rfl
theorem exec_taskLoad (b : BenchNo) (k : CoreNo) (s : State) : exec (.taskLoad b k) s = execTaskLoad b k s := rfl
theorem exec_shootdownDoorbell (b : BenchNo) (w : Writer) (cores : Half) (s : State) : exec (.shootdownDoorbell b w cores) s = execShootdownDoorbell b w cores s := rfl
theorem exec_shootdownAck (b : BenchNo) (w : Writer) (cores : Half) (s : State) : exec (.shootdownAck b w cores) s = execShootdownAck b w cores s := rfl
theorem exec_etuInvalidate (b : BenchNo) (w : Writer) (scope : BitVec 2) (s : State) : exec (.etuInvalidate b w scope) s = execEtuInvalidate b w scope s := rfl
theorem exec_etuInvalidateDone (b : BenchNo) (s : State) : exec (.etuInvalidateDone b) s = execEtuInvalidateDone b s := rfl
theorem exec_mafSwap (b : BenchNo) (w : Writer) (s : State) : exec (.mafSwap b w) s = execMafSwap b w s := rfl
theorem exec_mafSwapCheckEnd (b : BenchNo) (outstanding : Bool) (s : State) : exec (.mafSwapCheckEnd b outstanding) s = execMafSwapCheckEnd b outstanding s := rfl
theorem exec_mafDrainEnd (b : BenchNo) (s : State) : exec (.mafDrainEnd b) s = execMafDrainEnd b s := rfl
theorem exec_rakeSweep (b : BenchNo) (w : Writer) (s : State) : exec (.rakeSweep b w) s = execRakeSweep b w s := rfl
theorem exec_rakeAbort (b : BenchNo) (w : Writer) (s : State) : exec (.rakeAbort b w) s = execRakeAbort b w s := rfl
theorem exec_rakeTagclear (b : BenchNo) (w : Writer) (s : State) : exec (.rakeTagclear b w) s = execRakeTagclear b w s := rfl
theorem exec_rakeTagcount (b : BenchNo) (w : Writer) (s : State) : exec (.rakeTagcount b w) s = execRakeTagcount b w s := rfl
theorem exec_rakeCommandEnd (b : BenchNo) (reached : BitVec 34) (s : State) : exec (.rakeCommandEnd b reached) s = execRakeCommandEnd b reached s := rfl
theorem exec_scrubRead (b : BenchNo) (found : LineState) (s : State) : exec (.scrubRead b found) s = execScrubRead b found s := rfl
theorem exec_scrubPassEnd (b : BenchNo) (s : State) : exec (.scrubPassEnd b) s = execScrubPassEnd b s := rfl
theorem exec_vaultInfo (b : BenchNo) (w : Writer) (s : State) : exec (.vaultInfo b w) s = execVaultInfo b w s := rfl
theorem exec_vaultDelete (b : BenchNo) (w : Writer) (s : State) : exec (.vaultDelete b w) s = execVaultDelete b w s := rfl
theorem exec_vaultRevoke (b : BenchNo) (w : Writer) (s : State) : exec (.vaultRevoke b w) s = execVaultRevoke b w s := rfl
theorem exec_vaultPin (b : BenchNo) (w : Writer) (s : State) : exec (.vaultPin b w) s = execVaultPin b w s := rfl
theorem exec_vaultUnpin (b : BenchNo) (w : Writer) (s : State) : exec (.vaultUnpin b w) s = execVaultUnpin b w s := rfl
theorem exec_vaultPurge (b : BenchNo) (w : Writer) (s : State) : exec (.vaultPurge b w) s = execVaultPurge b w s := rfl
theorem exec_vaultAbort (b : BenchNo) (w : Writer) (s : State) : exec (.vaultAbort b w) s = execVaultAbort b w s := rfl
theorem exec_vaultForgetPrevious (b : BenchNo) (w : Writer) (s : State) : exec (.vaultForgetPrevious b w) s = execVaultForgetPrevious b w s := rfl
theorem exec_vaultCommandEnd (b : BenchNo) (s : State) : exec (.vaultCommandEnd b) s = execVaultCommandEnd b s := rfl
theorem exec_cerOpen (s : State) : exec .cerOpen s = execCerOpen s := rfl
theorem exec_cerShare (s : State) : exec .cerShare s = execCerShare s := rfl
theorem exec_cerAbort (s : State) : exec .cerAbort s = execCerAbort s := rfl
theorem exec_ceremonyTimeout (b : BenchNo) (s : State) : exec (.ceremonyTimeout b) s = execCeremonyTimeout b s := rfl
theorem exec_epochAdvanceOpen (s : State) : exec .epochAdvanceOpen s = execEpochAdvanceOpen s := rfl
theorem exec_epochAdvanceSign (s : State) : exec .epochAdvanceSign s = execEpochAdvanceSign s := rfl
theorem exec_epochAdvanceCancel (s : State) : exec .epochAdvanceCancel s = execEpochAdvanceCancel s := rfl
theorem exec_epochAdvanceTimeout (s : State) : exec .epochAdvanceTimeout s = execEpochAdvanceTimeout s := rfl
theorem exec_pkeSign (b : BenchNo) (n : Fin 4) (s : State) : exec (.pkeSign b n) s = execPkeSign b n s := rfl
theorem exec_pkeVerify (b : BenchNo) (n : Fin 4) (s : State) : exec (.pkeVerify b n) s = execPkeVerify b n s := rfl
theorem exec_rsaCrtSign (b : BenchNo) (n : Fin 4) (s : State) : exec (.rsaCrtSign b n) s = execRsaCrtSign b n s := rfl
theorem exec_rsaVerify (b : BenchNo) (n : Fin 4) (s : State) : exec (.rsaVerify b n) s = execRsaVerify b n s := rfl
theorem exec_keyAgreement (b : BenchNo) (n : Fin 4) (s : State) : exec (.keyAgreement b n) s = execKeyAgreement b n s := rfl
theorem exec_ephemeralKeyAgreement (b : BenchNo) (n : Fin 4) (s : State) : exec (.ephemeralKeyAgreement b n) s = execEphemeralKeyAgreement b n s := rfl
theorem exec_pkePublicKeyDerivation (b : BenchNo) (n : Fin 4) (s : State) : exec (.pkePublicKeyDerivation b n) s = execPkePublicKeyDerivation b n s := rfl
theorem exec_mlDsaSign (b : BenchNo) (n : Fin 2) (s : State) : exec (.mlDsaSign b n) s = execMlDsaSign b n s := rfl
theorem exec_mlDsaVerify (b : BenchNo) (n : Fin 2) (s : State) : exec (.mlDsaVerify b n) s = execMlDsaVerify b n s := rfl
theorem exec_mlKemEncapsulate (b : BenchNo) (n : Fin 2) (s : State) : exec (.mlKemEncapsulate b n) s = execMlKemEncapsulate b n s := rfl
theorem exec_mlKemDecapsulate (b : BenchNo) (n : Fin 2) (s : State) : exec (.mlKemDecapsulate b n) s = execMlKemDecapsulate b n s := rfl
theorem exec_lkePublicKeyDerivation (b : BenchNo) (n : Fin 2) (s : State) : exec (.lkePublicKeyDerivation b n) s = execLkePublicKeyDerivation b n s := rfl
theorem exec_encrypt (b : BenchNo) (n : Fin 4) (s : State) : exec (.encrypt b n) s = execEncrypt b n s := rfl
theorem exec_decrypt (b : BenchNo) (n : Fin 4) (s : State) : exec (.decrypt b n) s = execDecrypt b n s := rfl
theorem exec_macGenerate (b : BenchNo) (n : Fin 4) (s : State) : exec (.macGenerate b n) s = execMacGenerate b n s := rfl
theorem exec_macVerify (b : BenchNo) (n : Fin 4) (s : State) : exec (.macVerify b n) s = execMacVerify b n s := rfl
theorem exec_pinTranslate (b : BenchNo) (n : Fin 4) (s : State) : exec (.pinTranslate b n) s = execPinTranslate b n s := rfl
theorem exec_pinReformat (b : BenchNo) (n : Fin 4) (s : State) : exec (.pinReformat b n) s = execPinReformat b n s := rfl
theorem exec_pinCompare (b : BenchNo) (n : Fin 4) (s : State) : exec (.pinCompare b n) s = execPinCompare b n s := rfl
theorem exec_arqcVerify (b : BenchNo) (n : Fin 4) (s : State) : exec (.arqcVerify b n) s = execArqcVerify b n s := rfl
theorem exec_keyLoad (b : BenchNo) (n : Fin 4) (s : State) : exec (.keyLoad b n) s = execKeyLoad b n s := rfl
theorem exec_keyGenerate (b : BenchNo) (n : Fin 4) (s : State) : exec (.keyGenerate b n) s = execKeyGenerate b n s := rfl
theorem exec_keyTrust (b : BenchNo) (n : Fin 4) (s : State) : exec (.keyTrust b n) s = execKeyTrust b n s := rfl
theorem exec_keyRewrap (b : BenchNo) (n : Fin 4) (s : State) : exec (.keyRewrap b n) s = execKeyRewrap b n s := rfl
theorem exec_deriveEmv (b : BenchNo) (n : Fin 4) (s : State) : exec (.deriveEmv b n) s = execDeriveEmv b n s := rfl
theorem exec_deriveDukpt (b : BenchNo) (n : Fin 4) (s : State) : exec (.deriveDukpt b n) s = execDeriveDukpt b n s := rfl
theorem exec_deriveKdf (b : BenchNo) (n : Fin 4) (s : State) : exec (.deriveKdf b n) s = execDeriveKdf b n s := rfl
theorem exec_keyImport (b : BenchNo) (n : Fin 4) (s : State) : exec (.keyImport b n) s = execKeyImport b n s := rfl
theorem exec_keyExport (b : BenchNo) (n : Fin 4) (s : State) : exec (.keyExport b n) s = execKeyExport b n s := rfl
theorem exec_hash (b : BenchNo) (n : Fin 2) (s : State) : exec (.hash b n) s = execHash b n s := rfl
theorem exec_drbgGenerate (b : BenchNo) (s : State) : exec (.drbgGenerate b) s = execDrbgGenerate b s := rfl
theorem exec_drbgReseed (b : BenchNo) (s : State) : exec (.drbgReseed b) s = execDrbgReseed b s := rfl
theorem exec_drbgReseedDue (b : BenchNo) (s : State) : exec (.drbgReseedDue b) s = execDrbgReseedDue b s := rfl
theorem exec_entropySourceFailure (b : BenchNo) (second : Bool) (s : State) : exec (.entropySourceFailure b second) s = execEntropySourceFailure b second s := rfl
theorem exec_cut (b : BenchNo) (n : Fin 2) (s : State) : exec (.cut b n) s = execCut b n s := rfl
theorem exec_cutStream (b : BenchNo) (n : Fin 2) (s : State) : exec (.cutStream b n) s = execCutStream b n s := rfl
theorem exec_assemble (b : BenchNo) (n : Fin 2) (s : State) : exec (.assemble b n) s = execAssemble b n s := rfl
theorem exec_assembleStream (b : BenchNo) (n : Fin 2) (s : State) : exec (.assembleStream b n) s = execAssembleStream b n s := rfl
theorem exec_streamStall (b : BenchNo) (n : Fin 4) (s : State) : exec (.streamStall b n) s = execStreamStall b n s := rfl
theorem exec_jobCompletion (b : BenchNo) (n : Fin 17) (s : State) : exec (.jobCompletion b n) s = execJobCompletion b n s := rfl
theorem exec_ringEnable (b : BenchNo) (w : Writer) (n : Fin 17) (ring : Fin 4) (depth prio : BitVec 2) (s : State) : exec (.ringEnable b w n ring depth prio) s = execRingEnable b w n ring depth prio s := rfl
theorem exec_ringDisable (b : BenchNo) (w : Writer) (n : Fin 17) (ring : Fin 4) (s : State) : exec (.ringDisable b w n ring) s = execRingDisable b w n ring s := rfl
theorem exec_tokenExpiry (b : BenchNo) (n : Fin 17) (i0 : Fin 32) (s : State) : exec (.tokenExpiry b n i0) s = execTokenExpiry b n i0 s := rfl
theorem exec_patLoad (b : BenchNo) (w : Writer) (s : State) : exec (.patLoad b w) s = execPatLoad b w s := rfl
theorem exec_patLoadEnd (b : BenchNo) (s : State) : exec (.patLoadEnd b) s = execPatLoadEnd b s := rfl
theorem exec_patSwap (b : BenchNo) (w : Writer) (s : State) : exec (.patSwap b w) s = execPatSwap b w s := rfl
theorem exec_patSwapCheckEnd (b : BenchNo) (s : State) : exec (.patSwapCheckEnd b) s = execPatSwapCheckEnd b s := rfl
theorem exec_patDrainEnd (b : BenchNo) (s : State) : exec (.patDrainEnd b) s = execPatDrainEnd b s := rfl
theorem exec_ustateWriteRequested (b : BenchNo) (w : Writer) (u : Fin 544) (v : BitVec 4) (s : State) : exec (.ustateWriteRequested b w u v) s = execUstateWriteRequested b w u v s := rfl
theorem exec_ustateForce (b : BenchNo) (w : Writer) (u : Fin 544) (s : State) : exec (.ustateForce b w u) s = execUstateForce b w u s := rfl
theorem exec_forcedResetCompletion (b : BenchNo) (u : Fin 544) (katFails : Bool) (s : State) : exec (.forcedResetCompletion b u katFails) s = execForcedResetCompletion b u katFails s := rfl
theorem exec_unitQuiescentPoint (b : BenchNo) (u : Fin 544) (s : State) : exec (.unitQuiescentPoint b u) s = execUnitQuiescentPoint b u s := rfl
theorem exec_divergenceTimeout (b : BenchNo) (u : Fin 544) (s : State) : exec (.divergenceTimeout b u) s = execDivergenceTimeout b u s := rfl
theorem exec_journalRecoveryEnd (b : BenchNo) (s : State) : exec (.journalRecoveryEnd b) s = execJournalRecoveryEnd b s := rfl
theorem exec_receivedRecord (b : BenchNo) (s : State) : exec (.receivedRecord b) s = execReceivedRecord b s := rfl
theorem exec_itemTimeout (b : BenchNo) (i0 : BitVec 19) (s : State) : exec (.itemTimeout b i0) s = execItemTimeout b i0 s := rfl
theorem exec_checkpointRecord (b : BenchNo) (s : State) : exec (.checkpointRecord b) s = execCheckpointRecord b s := rfl
theorem exec_signatureEntryWrite (b : BenchNo) (s : State) : exec (.signatureEntryWrite b) s = execSignatureEntryWrite b s := rfl
theorem exec_dedupSweep (b : BenchNo) (s : State) : exec (.dedupSweep b) s = execDedupSweep b s := rfl
theorem exec_hostMirrorWrite (b : BenchNo) (s : State) : exec (.hostMirrorWrite b) s = execHostMirrorWrite b s := rfl
theorem exec_hackWrite (b : BenchNo) (w : Writer) (hi : Bool) (v : Word) (s : State) : exec (.hackWrite b w hi v) s = execHackWrite b w hi v s := rfl
theorem exec_swrelWrite (b : BenchNo) (w : Writer) (hi : Bool) (v : Word) (s : State) : exec (.swrelWrite b w hi v) s = execSwrelWrite b w hi v s := rfl
theorem exec_journalLoRead (b : BenchNo) (w : Writer) (r : Fin 8) (s : State) : exec (.journalLoRead b w r) s = execJournalLoRead b w r s := rfl
theorem exec_partnerSend (b : BenchNo) (s : State) : exec (.partnerSend b) s = execPartnerSend b s := rfl
theorem exec_partnerRetransmitTimeout (b : BenchNo) (s : State) : exec (.partnerRetransmitTimeout b) s = execPartnerRetransmitTimeout b s := rfl
theorem exec_servoMeasurement (b : BenchNo) (p : Bool) (off : BitVec 64) (announce : Option (Half × BitVec 48)) (s : State) : exec (.servoMeasurement b p off announce) s = execServoMeasurement b p off announce s := rfl
theorem exec_ptpMessageTransmit (b : BenchNo) (p : Bool) (kind : BitVec 4) (s : State) : exec (.ptpMessageTransmit b p kind) s = execPtpMessageTransmit b p kind s := rfl
theorem exec_holdoverEntry (b : BenchNo) (other : Option (BitVec 64)) (s : State) : exec (.holdoverEntry b other) s = execHoldoverEntry b other s := rfl
theorem exec_timeSetWrite (b : BenchNo) (w : Writer) (v : Word) (s : State) : exec (.timeSetWrite b w v) s = execTimeSetWrite b w v s := rfl
theorem exec_timeNow0Read (b : BenchNo) (w : Writer) (s : State) : exec (.timeNow0Read b w) s = execTimeNow0Read b w s := rfl
theorem exec_ppsInputEdge (b : BenchNo) (sub : BitVec 18) (s : State) : exec (.ppsInputEdge b sub) s = execPpsInputEdge b sub s := rfl
theorem exec_secondBoundary (b : BenchNo) (s : State) : exec (.secondBoundary b) s = execSecondBoundary b s := rfl
theorem exec_ppsOutputFall (b : BenchNo) (s : State) : exec (.ppsOutputFall b) s = execPpsOutputFall b s := rfl
theorem exec_latencyCalibration (b : BenchNo) (p : Bool) (s : State) : exec (.latencyCalibration b p) s = execLatencyCalibration b p s := rfl
theorem exec_benchTimerExpiry (b : BenchNo) (i0 : Fin 64) (s : State) : exec (.benchTimerExpiry b i0) s = execBenchTimerExpiry b i0 s := rfl
theorem exec_timerWrite (b : BenchNo) (w : Writer) (i0 : Fin 64) (v : Word) (s : State) : exec (.timerWrite b w i0 v) s = execTimerWrite b w i0 v s := rfl
theorem exec_linkChange (b : BenchNo) (p : Bool) (up : Bool) (rate : BitVec 3) (anDone : Bool) (s : State) : exec (.linkChange b p up rate anDone) s = execLinkChange b p up rate anDone s := rfl
theorem exec_frameReceive (b : BenchNo) (p : Bool) (frame : List Byte) (fcsOk : Bool) (s : State) : exec (.frameReceive b p frame fcsOk) s = execFrameReceive b p frame fcsOk s := rfl
theorem exec_tlsRecordDecryptEnd (b : BenchNo) (n : Fin 4) (s : State) : exec (.tlsRecordDecryptEnd b n) s = execTlsRecordDecryptEnd b n s := rfl
theorem exec_rxQueueDelivery (b : BenchNo) (q : Fin 128) (s : State) : exec (.rxQueueDelivery b q) s = execRxQueueDelivery b q s := rfl
theorem exec_tcpRetransmitTimeout (b : BenchNo) (conn : Fin 16384) (s : State) : exec (.tcpRetransmitTimeout b conn) s = execTcpRetransmitTimeout b conn s := rfl
theorem exec_tcpKeepaliveExpiry (b : BenchNo) (conn : Fin 16384) (s : State) : exec (.tcpKeepaliveExpiry b conn) s = execTcpKeepaliveExpiry b conn s := rfl
theorem exec_delayedAckExpiry (b : BenchNo) (conn : Fin 16384) (s : State) : exec (.delayedAckExpiry b conn) s = execDelayedAckExpiry b conn s := rfl
theorem exec_timeWaitExpiry (b : BenchNo) (conn : Fin 16384) (s : State) : exec (.timeWaitExpiry b conn) s = execTimeWaitExpiry b conn s := rfl
theorem exec_txqTailWrite (b : BenchNo) (w : Writer) (q : Fin 128) (v : Word) (s : State) : exec (.txqTailWrite b w q v) s = execTxqTailWrite b w q v s := rfl
theorem exec_txSend (b : BenchNo) (q : Fin 128) (s : State) : exec (.txSend b q) s = execTxSend b q s := rfl
theorem exec_txRaw (b : BenchNo) (q : Fin 128) (s : State) : exec (.txRaw b q) s = execTxRaw b q s := rfl
theorem exec_txTlsRaw (b : BenchNo) (q : Fin 128) (s : State) : exec (.txTlsRaw b q) s = execTxTlsRaw b q s := rfl
theorem exec_txUdp (b : BenchNo) (q : Fin 128) (s : State) : exec (.txUdp b q) s = execTxUdp b q s := rfl
theorem exec_txFrame (b : BenchNo) (q : Fin 128) (s : State) : exec (.txFrame b q) s = execTxFrame b q s := rfl
theorem exec_txConnect (b : BenchNo) (q : Fin 128) (s : State) : exec (.txConnect b q) s = execTxConnect b q s := rfl
theorem exec_txClose (b : BenchNo) (q : Fin 128) (s : State) : exec (.txClose b q) s = execTxClose b q s := rfl
theorem exec_txAbort (b : BenchNo) (q : Fin 128) (s : State) : exec (.txAbort b q) s = execTxAbort b q s := rfl
theorem exec_txSetkey (b : BenchNo) (q : Fin 128) (s : State) : exec (.txSetkey b q) s = execTxSetkey b q s := rfl
theorem exec_txContinue (b : BenchNo) (q : Fin 128) (s : State) : exec (.txContinue b q) s = execTxContinue b q s := rfl
theorem exec_sqDoorbell (b : BenchNo) (n : Fin 256) (v : Word) (s : State) : exec (.sqDoorbell b n v) s = execSqDoorbell b n v s := rfl
theorem exec_cstailWrite (b : BenchNo) (w : Writer) (n : Fin 256) (v : Word) (s : State) : exec (.cstailWrite b w n v) s = execCstailWrite b w n v s := rfl
theorem exec_completionDescriptor (b : BenchNo) (n : Fin 256) (s : State) : exec (.completionDescriptor b n) s = execCompletionDescriptor b n s := rfl
theorem exec_functionLevelReset (f : Fin 9) (s : State) : exec (.functionLevelReset f) s = execFunctionLevelReset f s := rfl
theorem exec_hostPerst (low : Bool) (s : State) : exec (.hostPerst low) s = execHostPerst low s := rfl
theorem exec_hostLinkChange (up : Bool) (rate : Fin 6) (lanes : Fin 17) (s : State) : exec (.hostLinkChange up rate lanes) s = execHostLinkChange up rate lanes s := rfl
theorem exec_hostWindowTimeout (b : BenchNo) (s : State) : exec (.hostWindowTimeout b) s = execHostWindowTimeout b s := rfl
theorem exec_spdmGetVersion (msg : List Byte) (s : State) : exec (.spdmGetVersion msg) s = execSpdmGetVersion msg s := rfl
theorem exec_spdmGetCapabilities (msg : List Byte) (s : State) : exec (.spdmGetCapabilities msg) s = execSpdmGetCapabilities msg s := rfl
theorem exec_spdmNegotiateAlgorithms (msg : List Byte) (s : State) : exec (.spdmNegotiateAlgorithms msg) s = execSpdmNegotiateAlgorithms msg s := rfl
theorem exec_spdmGetDigests (msg : List Byte) (s : State) : exec (.spdmGetDigests msg) s = execSpdmGetDigests msg s := rfl
theorem exec_spdmGetCertificate (msg : List Byte) (s : State) : exec (.spdmGetCertificate msg) s = execSpdmGetCertificate msg s := rfl
theorem exec_spdmChallenge (msg : List Byte) (s : State) : exec (.spdmChallenge msg) s = execSpdmChallenge msg s := rfl
theorem exec_spdmGetMeasurements (msg : List Byte) (s : State) : exec (.spdmGetMeasurements msg) s = execSpdmGetMeasurements msg s := rfl
theorem exec_spdmKeyExchange (msg : List Byte) (s : State) : exec (.spdmKeyExchange msg) s = execSpdmKeyExchange msg s := rfl
theorem exec_spdmFinish (msg : List Byte) (s : State) : exec (.spdmFinish msg) s = execSpdmFinish msg s := rfl
theorem exec_spdmKeyUpdate (msg : List Byte) (s : State) : exec (.spdmKeyUpdate msg) s = execSpdmKeyUpdate msg s := rfl
theorem exec_spdmHeartbeat (msg : List Byte) (s : State) : exec (.spdmHeartbeat msg) s = execSpdmHeartbeat msg s := rfl
theorem exec_spdmEndSession (msg : List Byte) (s : State) : exec (.spdmEndSession msg) s = execSpdmEndSession msg s := rfl
theorem exec_getInfo (s : State) : exec .getInfo s = execGetInfo s := rfl
theorem exec_benchReset (s : State) : exec .benchReset s = execBenchReset s := rfl
theorem exec_benchHold (s : State) : exec .benchHold s = execBenchHold s := rfl
theorem exec_benchRelease (s : State) : exec .benchRelease s = execBenchRelease s := rfl
theorem exec_deviceReset (s : State) : exec .deviceReset s = execDeviceReset s := rfl
theorem exec_deviceSoftReset (s : State) : exec .deviceSoftReset s = execDeviceSoftReset s := rfl
theorem exec_stageBegin (s : State) : exec .stageBegin s = execStageBegin s := rfl
theorem exec_stageWrite (s : State) : exec .stageWrite s = execStageWrite s := rfl
theorem exec_stageFinish (reads writes : Bool) (s : State) : exec (.stageFinish reads writes) s = execStageFinish reads writes s := rfl
theorem exec_fuseReport (s : State) : exec .fuseReport s = execFuseReport s := rfl
theorem exec_attestPq (s : State) : exec .attestPq s = execAttestPq s := rfl
theorem exec_lifecycleNonce (s : State) : exec .lifecycleNonce s = execLifecycleNonce s := rfl
theorem exec_lifecycleAdvance (s : State) : exec .lifecycleAdvance s = execLifecycleAdvance s := rfl
theorem exec_lifecycleConfirm (s : State) : exec .lifecycleConfirm s = execLifecycleConfirm s := rfl
theorem exec_lifecycleDebugcred (s : State) : exec .lifecycleDebugcred s = execLifecycleDebugcred s := rfl
theorem exec_tamperClear (s : State) : exec .tamperClear s = execTamperClear s := rfl
theorem exec_rmaReport (s : State) : exec .rmaReport s = execRmaReport s := rfl
theorem exec_pwrokRise (s : State) : exec .pwrokRise s = execPwrokRise s := rfl
theorem exec_aonDomainValid (s : State) : exec .aonDomainValid s = execAonDomainValid s := rfl
theorem exec_powerOnReset (s : State) : exec .powerOnReset s = execPowerOnReset s := rfl
theorem exec_brownOut (s : State) : exec .brownOut s = execBrownOut s := rfl
theorem exec_resetNPulse (s : State) : exec .resetNPulse s = execResetNPulse s := rfl
theorem exec_resetNRise (s : State) : exec .resetNRise s = execResetNRise s := rfl
theorem exec_deviceWatchdogExpiry (s : State) : exec .deviceWatchdogExpiry s = execDeviceWatchdogExpiry s := rfl
theorem exec_hostClockLoss (armed : Bool) (s : State) : exec (.hostClockLoss armed) s = execHostClockLoss armed s := rfl
theorem exec_aonClockLoss (s : State) : exec .aonClockLoss s = execAonClockLoss s := rfl
theorem exec_aonClockRecovery (s : State) : exec .aonClockRecovery s = execAonClockRecovery s := rfl
theorem exec_dmcLockup (s : State) : exec .dmcLockup s = execDmcLockup s := rfl
theorem exec_benchClockLoss (b : BenchNo) (lost : List (BitVec 34)) (s : State) : exec (.benchClockLoss b lost) s = execBenchClockLoss b lost s := rfl
theorem exec_benchClockRecovery (b : BenchNo) (s : State) : exec (.benchClockRecovery b) s = execBenchClockRecovery b s := rfl
theorem exec_fllLockLoss (b : BenchNo) (i0 : Fin 40) (s : State) : exec (.fllLockLoss b i0) s = execFllLockLoss b i0 s := rfl
theorem exec_fllRelock (b : BenchNo) (i0 : Fin 40) (s : State) : exec (.fllRelock b i0) s = execFllRelock b i0 s := rfl
theorem exec_fllRelockTimeout (b : BenchNo) (s : State) : exec (.fllRelockTimeout b) s = execFllRelockTimeout b s := rfl
theorem exec_benchWatchdogExpiry (b : BenchNo) (s : State) : exec (.benchWatchdogExpiry b) s = execBenchWatchdogExpiry b s := rfl
theorem exec_wdkickWrite (b : BenchNo) (w : Writer) (v : Word) (s : State) : exec (.wdkickWrite b w v) s = execWdkickWrite b w v s := rfl
theorem exec_rstreqWrite (b : BenchNo) (w : Writer) (v : Word) (s : State) : exec (.rstreqWrite b w v) s = execRstreqWrite b w v s := rfl
theorem exec_benchResetEntry (b : BenchNo) (s : State) : exec (.benchResetEntry b) s = execBenchResetEntry b s := rfl
theorem exec_fuseSense (s : State) : exec .fuseSense s = execFuseSense s := rfl
theorem exec_dmcRelease (s : State) : exec .dmcRelease s = execDmcRelease s := rfl
theorem exec_bootcfgSampling (rs : Vector Byte 16) (s : State) : exec (.bootcfgSampling rs) s = execBootcfgSampling rs s := rfl
theorem exec_optionLoading (ok : BitVec 3) (s : State) : exec (.optionLoading ok) s = execOptionLoading ok s := rfl
theorem exec_imageCommit (s : State) : exec .imageCommit s = execImageCommit s := rfl
theorem exec_hostPhyRelease (s : State) : exec .hostPhyRelease s = execHostPhyRelease s := rfl
theorem exec_pcieControllerRelease (s : State) : exec .pcieControllerRelease s = execPcieControllerRelease s := rfl
theorem exec_benchResetRelease (b : BenchNo) (s : State) : exec (.benchResetRelease b) s = execBenchResetRelease b s := rfl
theorem exec_tagClearComplete (b : BenchNo) (fails : BitVec 14) (s : State) : exec (.tagClearComplete b fails) s = execTagClearComplete b fails s := rfl
theorem exec_supervisorFirstFetch (b : BenchNo) (s : State) : exec (.supervisorFirstFetch b) s = execSupervisorFirstFetch b s := rfl
theorem exec_bypass (s : State) : exec .bypass s = execBypass s := rfl
theorem exec_idcode (s : State) : exec .idcode s = execIdcode s := rfl
theorem exec_samplePreload (s : State) : exec .samplePreload s = execSamplePreload s := rfl
theorem exec_extest (s : State) : exec .extest s = execExtest s := rfl
theorem exec_clamp (s : State) : exec .clamp s = execClamp s := rfl
theorem exec_highz (s : State) : exec .highz s = execHighz s := rfl
theorem exec_dbgChal (s : State) : exec .dbgChal s = execDbgChal s := rfl
theorem exec_dbgResp (resp : List Byte) (s : State) : exec (.dbgResp resp) s = execDbgResp resp s := rfl
theorem exec_dbgClose (s : State) : exec .dbgClose s = execDbgClose s := rfl
theorem exec_testLogicReset (s : State) : exec .testLogicReset s = execTestLogicReset s := rfl
theorem exec_debugValidityExpiry (s : State) : exec .debugValidityExpiry s = execDebugValidityExpiry s := rfl
theorem exec_regRd (target : Byte) (addr : BitVec 48) (s : State) : exec (.regRd target addr) s = execRegRd target addr s := rfl
theorem exec_regWr (target : Byte) (addr : BitVec 48) (v : Word) (s : State) : exec (.regWr target addr v) s = execRegWr target addr v s := rfl
theorem exec_memRd (target : Byte) (addr : BitVec 48) (s : State) : exec (.memRd target addr) s = execMemRd target addr s := rfl
theorem exec_memWr (target : Byte) (addr : BitVec 48) (v : Word) (s : State) : exec (.memWr target addr v) s = execMemWr target addr v s := rfl
theorem exec_coreHalt (target : Byte) (addr : BitVec 48) (s : State) : exec (.coreHalt target addr) s = execCoreHalt target addr s := rfl
theorem exec_coreRun (target : Byte) (addr : BitVec 48) (s : State) : exec (.coreRun target addr) s = execCoreRun target addr s := rfl
theorem exec_coreStep (target : Byte) (addr : BitVec 48) (s : State) : exec (.coreStep target addr) s = execCoreStep target addr s := rfl
theorem exec_stateRd (target : Byte) (addr : BitVec 48) (s : State) : exec (.stateRd target addr) s = execStateRd target addr s := rfl
theorem exec_stateWr (target : Byte) (addr : BitVec 48) (v : Word) (s : State) : exec (.stateWr target addr v) s = execStateWr target addr v s := rfl
theorem exec_pwrStateWrite (b : BenchNo) (w : Writer) (v : Word) (s : State) : exec (.pwrStateWrite b w v) s = execPwrStateWrite b w v s := rfl
theorem exec_idleEntry (b : BenchNo) (s : State) : exec (.idleEntry b) s = execIdleEntry b s := rfl
theorem exec_idleExit (b : BenchNo) (s : State) : exec (.idleExit b) s = execIdleExit b s := rfl
theorem exec_napEntry (b : BenchNo) (s : State) : exec (.napEntry b) s = execNapEntry b s := rfl
theorem exec_offEntry (b : BenchNo) (s : State) : exec (.offEntry b) s = execOffEntry b s := rfl
theorem exec_napWake (b : BenchNo) (s : State) : exec (.napWake b) s = execNapWake b s := rfl
theorem exec_frequencySelection (b : BenchNo) (lat : List (Fin 384 × Half)) (s : State) : exec (.frequencySelection b lat) s = execFrequencySelection b lat s := rfl
theorem exec_policyRelease (b : BenchNo) (s : State) : exec (.policyRelease b) s = execPolicyRelease b s := rfl
theorem exec_avsAdjustment (mv : BitVec 12) (limits : Vector (BitVec 7) 8) (s : State) : exec (.avsAdjustment mv limits) s = execAvsAdjustment mv limits s := rfl
theorem exec_avsbusTimeout (limits : Vector (BitVec 7) 8) (s : State) : exec (.avsbusTimeout limits) s = execAvsbusTimeout limits s := rfl
theorem exec_thermalThrottleStep (b : BenchNo) (tj : Byte) (s : State) : exec (.thermalThrottleStep b tj) s = execThermalThrottleStep b tj s := rfl
theorem exec_thermtrip (s : State) : exec .thermtrip s = execThermtrip s := rfl
theorem exec_currentLimitStep (amps : Half) (s : State) : exec (.currentLimitStep amps) s = execCurrentLimitStep amps s := rfl
theorem exec_powerCapStep (watts : BitVec 10) (s : State) : exec (.powerCapStep watts) s = execPowerCapStep watts s := rfl
theorem exec_parkWrite (b : BenchNo) (w : Writer) (v : Half) (s : State) : exec (.parkWrite b w v) s = execParkWrite b w v s := rfl
theorem exec_corePowerGating (b : BenchNo) (k : CoreNo) (s : State) : exec (.corePowerGating b k) s = execCorePowerGating b k s := rfl
theorem exec_meshTrip (pair : Fin 4) (s : State) : exec (.meshTrip pair) s = execMeshTrip pair s := rfl
theorem exec_sensorTrip (src : Fin 4) (s : State) : exec (.sensorTrip src) s = execSensorTrip src s := rfl
theorem exec_vbatChangeover (toVbat : Bool) (s : State) : exec (.vbatChangeover toVbat) s = execVbatChangeover toVbat s := rfl
theorem exec_vbatLoss (s : State) : exec .vbatLoss s = execVbatLoss s := rfl
theorem exec_registerWrite (t : RegTarget) (off : BitVec 37) (v : Word) (s : State) : exec (.registerWrite t off v) s = execRegisterWrite t off v s := rfl
theorem exec_hostInboundAccess (b : BenchNo) (addr : BitVec 37) (acc : HostAccess) (s : State) : exec (.hostInboundAccess b addr acc) s = execHostInboundAccess b addr acc s := rfl
theorem exec_undefinedEncoding (b : BenchNo) (k : CoreNo) (word : Word) (s : State) : exec (.undefinedEncoding b k word) s = execUndefinedEncoding b k word s := rfl
theorem exec_tamperSourceRestore (src : Fin 8) (s : State) : exec (.tamperSourceRestore src) s = execTamperSourceRestore src s := rfl

end Sys2Proof.Machine
end

