-- ==== Sys2Proof/Laws/Jobs.lean ====
section
/-!
SUPPORT. Laws/Jobs.lean: what a unit does with operands that are plain memory and with a handle that its role accepts, said once
(R365 to R367, R420, R473, R474).
-/

namespace Sys2Proof.Machine

/-- A computation whose first part succeeds goes on from there. -/
theorem J.bind_ok {α β : Type} {x : J α} {f : α → J β} {B C : Bench} {a : α} (h : x B = .ok a C) : (x >>= f) B = f a C := by
  simp only [bind, EStateM.bind, h]

/-- A check of a header that holds. -/
theorem J.guardBad_ok {ok : Bool} {d : Nat} {B : Bench} (h : ok = true) : J.guardBad ok d B = .ok () B := by
  simp only [J.guardBad, h, if_true]
  rfl

/-! ## Translation and reading of operands -/

theorem Bench.plainFor_mono {B : Bench} {mid a n a' n' : Nat} {need : Right} (h : B.plainFor mid a n need) (h1 : a ≤ a')
    (h2 : a' + n' ≤ a + n) : B.plainFor mid a' n' need :=
  fun i hi hj => h i (by omega) (by omega)

/-- Every page of plain memory translates to itself. -/
theorem etuPages_plain {B : Bench} {x : Xctx} {k : Access} (hm : x.mode = 0) :
    ∀ (fuel off a n : Nat), (∀ i, a ≤ i → i < a + n → paType i = .normal) →
      B.etuPages x k off (splitAt 4096 fuel a n) = ((splitAt 4096 fuel a n, none), B) := by
  intro fuel
  induction fuel with
  | zero => intros; rfl
  | succ fuel ih =>
    intro off a n h
    unfold splitAt
    split
    · rfl
    · rename_i hn
      have hp := Bench.pageCheck_plain (B := B) (k := k) hm (h a (by omega) (by omega))
      have := ih (off + min n (4096 - a % 4096)) (a + min n (4096 - a % 4096)) (n - min n (4096 - a % 4096))
        (fun i h1 h2 => h i (by omega) (by omega))
      simp [Bench.etuPages, hp, Bench.pageCommit, this]

/-- The pieces that a translation with translation off gives. -/
abbrev pages (a n : Nat) : List (Nat × Nat) := splitAt 4096 (n / 4096 + 2) a n

theorem etu_plain {B : Bench} {x : Xctx} {k : Access} {a n : Nat} {mid : Nat} {need : Right} (hm : x.mode = 0)
    (h : B.plainFor mid a n need) : B.etu x k a n = ((pages a n, none), B) :=
  etuPages_plain hm _ _ _ _ fun i h1 h2 => (h i h1 h2).1

/-- A part of plain memory is read as it is. -/
theorem Bench.readPart_plain {B : Bench} {mid : Nat} {org : Word} {a n m kind : Nat} {need : Right} (h : B.plainFor mid a n need) (hn : 0 < n) :
    B.readPart mid org a m kind need = (⟨B.mem.read a m, B.mem.tag (a / 16), false⟩, B) := by
  obtain ⟨h0, h1, h2, h3, h4, h5, h6⟩ := h a (Nat.le_refl a) (by omega)
  simp [Bench.readPart, h1, h0, Bench.checkLine_intact h2 h3 h4 h5 h6]

/-- One line of a unit's read. -/
def readStep (mid : Nat) (org : Word) (acc : (List Byte × Option Nat) × Bench) (p : Nat × Nat) : (List Byte × Option Nat) × Bench :=
  let (r, B) := acc.2.readPart mid org p.1 p.2 kindRead .r
  let bad := if acc.1.2.isNone && r.bad then some acc.1.1.length else acc.1.2
  ((acc.1.1 ++ r.bytes, bad), B)

theorem readLines_plain {B : Bench} {mid : Nat} {org : Word} :
    ∀ (fuel a n : Nat) (acc : List Byte), n = 0 ∨ n + a % 64 ≤ 64 * fuel → B.plainFor mid a n .r →
      (splitAt 64 fuel a n).foldl (readStep mid org) ((acc, none), B) = ((acc ++ B.mem.read a n, none), B) := by
  intro fuel
  induction fuel with
  | zero =>
    intro a n acc h _
    obtain rfl : n = 0 := by omega
    simp [splitAt, Mem.read]
  | succ fuel ih =>
    intro a n acc hf h
    unfold splitAt
    split
    · rename_i h0; subst h0; simp [Mem.read]
    · rename_i hn
      have h1 : readStep mid org ((acc, none), B) (a, min n (64 - a % 64)) = ((acc ++ B.mem.read a (min n (64 - a % 64)), none), B) := by
        simp [readStep, Bench.readPart_plain h (Nat.pos_of_ne_zero hn)]
      rw [List.foldl_cons, h1, ih _ _ _ (by
        by_cases hx : n ≤ 64 - a % 64
        · left; omega
        · have : (a + min n (64 - a % 64)) % 64 = 0 := by omega
          omega) (Bench.plainFor_mono h (by omega) (by omega))]
      rw [List.append_assoc, Mem.read_append]
      congr 4; omega

theorem unitRead_plain {B : Bench} {mid : Nat} {org : Word} {a n : Nat} (h : B.plainFor mid a n .r) :
    B.unitRead mid org a n = ((B.mem.read a n, none), B) := by
  have := readLines_plain (org := org) (n / 64 + 2) a n [] (by omega) h
  rw [List.nil_append] at this
  exact this

theorem readPages_plain {B : Bench} {mid : Nat} {org : Word} :
    ∀ (fuel a n : Nat), n = 0 ∨ n + a % 4096 ≤ 4096 * fuel → B.plainFor mid a n .r →
      B.etuRead mid org (splitAt 4096 fuel a n) = ((B.mem.read a n, none), B) := by
  intro fuel
  induction fuel with
  | zero =>
    intro a n h _
    obtain rfl : n = 0 := by omega
    simp [splitAt, Mem.read, Bench.etuRead]
  | succ fuel ih =>
    intro a n hf h
    unfold splitAt
    split
    · rename_i h0; subst h0; simp [Mem.read, Bench.etuRead]
    · rename_i hn
      have h1 := ih (a + min n (4096 - a % 4096)) (n - min n (4096 - a % 4096)) (by
        by_cases hx : n ≤ 4096 - a % 4096
        · left; omega
        · have : (a + min n (4096 - a % 4096)) % 4096 = 0 := by omega
          omega) (Bench.plainFor_mono h (by omega) (by omega))
      simp only [Bench.etuRead, unitRead_plain (Bench.plainFor_mono h (Nat.le_refl a) (by omega) : B.plainFor mid a (min n (4096 - a % 4096)) .r), h1]
      rw [Mem.read_append]
      simp only [Option.map_none]
      congr 3; omega

theorem etuRead_plain {B : Bench} {mid : Nat} {org : Word} {a n : Nat} (h : B.plainFor mid a n .r) :
    B.etuRead mid org (pages a n) = ((B.mem.read a n, none), B) := readPages_plain _ _ _ (by omega) h

/-! ## Handles -/

/-- A key that a role accepts passes every check of R420. -/
theorem validate_accepts {B : Bench} {h : Cap} {role : KeyRole} {sys special : Bool} {k : KeyCopy}
    (a : B.acceptsKey h role sys special k) : B.validate h role sys false special = .ok k.slot := by
  obtain ⟨h1, h2, h3, h4, h5, h6, h7, h8, h9, h10, h11, h12, h13, h14, h15, h16, h17, h18⟩ := a
  have hc : k.cls < 256 := by
    simp only [classDefined, Bool.or_eq_true, Bool.and_eq_true, decide_eq_true_eq, beq_iff_eq] at h9
    omega
  have hg : (B.slot k.slot).gen.toNat < 2 ^ 16 := (B.slot k.slot).gen.isLt
  have e1 : h.cursor.toNat % 16384 = k.slot := by omega
  have e2 : h.cursor.toNat / 16384 = (B.slot k.slot).gen.toNat := by omega
  have e3 : h.otype.toNat % 256 = k.cls := by omega
  have n1 : ¬ h.otype.toNat < 0xF000 := by omega
  have n2 : ¬ 0xF0FF < h.otype.toNat := by omega
  have n3 : ¬ 2 ^ 30 ≤ h.cursor.toNat := by omega
  have n4 : h.cursor.toNat < 1073741824 := by omega
  have hs : B.handleSlot h = .ok k.slot := by
    simp [Bench.handleSlot, h1, h3, n1, n2, h4, h5, h6, n3, n4, e1, e2, e3, h9, h10, h11]
  have hm : (role.modes.isEmpty || role.modes.any fun c => c.toNat = hdrMode k.header) = true := by
    rcases h15 with h | ⟨c, hc, he⟩
    · simp [h]
    · simp only [Bool.or_eq_true, List.any_eq_true, decide_eq_true_eq]; exact .inr ⟨c, hc, he⟩
  have hcls : role.classes.contains k.cls = true := by simpa using h14
  have hck : (k.cls = 0x1C || k.cls = 0x1D) = true → special = true ∧ sys = true := fun h => h18 (by simpa using h)
  unfold Bench.validate
  simp only [hs, ← h12, h11, hcls, hm, h16]
  cases special <;> cases sys <;> simp_all

/-- What a job keeps of the bench while it checks and reads its operands: all but the vault's use counts, the DRBG and the free values
taken. -/
def Bench.sameBut (B D : Bench) : Prop :=
  ∃ u sl d f, D = { B with vault := { B.vault with uses := u, slots := sl }, drbg := d, freeCtr := f }
    ∧ (Table.wf Slot.zero B.vault.slots = true →
        Table.wf Slot.zero sl = true ∧ ∀ i, ∃ n, sl.get Slot.zero i = { B.slot i with used := n })

theorem Bench.sameBut_refl (B : Bench) : B.sameBut B :=
  ⟨B.vault.uses, B.vault.slots, B.drbg, B.freeCtr, rfl, fun h => ⟨h, fun i => ⟨(B.slot i).used, rfl⟩⟩⟩

theorem Bench.sameBut_trans {B C D : Bench} (h : B.sameBut C) (g : C.sameBut D) : B.sameBut D := by
  obtain ⟨u, sl, d, f, rfl, h⟩ := h
  obtain ⟨u', sl', d', f', rfl, g⟩ := g
  refine ⟨u', sl', d', f', rfl, fun w => ?_⟩
  obtain ⟨w1, h⟩ := h w
  obtain ⟨w2, g⟩ := g w1
  refine ⟨w2, fun i => ?_⟩
  obtain ⟨n, hn⟩ := h i
  obtain ⟨m, hm⟩ := g i
  refine ⟨m, ?_⟩
  rw [hm]
  show { Table.get Slot.zero sl i with used := m } = _
  rw [hn]

theorem Bench.sameBut_touch (B : Bench) (s : Nat) : B.sameBut (B.touch s) := by
  refine ⟨B.vault.uses + 1, B.vault.slots.set Slot.zero s { B.slot s with used := B.vault.uses + 1 }, B.drbg, B.freeCtr, rfl, fun w => ?_⟩
  refine ⟨Table.wf_set w, fun i => ?_⟩
  rw [Table.get_set _ _ _ _ w]
  split
  · rename_i h; subst h; exact ⟨_, rfl⟩
  · exact ⟨(B.slot i).used, rfl⟩

/-- The checks of a handle do not see what a job changes of the bench. -/
theorem Bench.sameBut_accepts {B D : Bench} {h : Cap} {role : KeyRole} {sys special : Bool} {k : KeyCopy} (hd : B.sameBut D)
    (w : Table.wf Slot.zero B.vault.slots = true) (a : B.acceptsKey h role sys special k) : D.acceptsKey h role sys special k := by
  obtain ⟨u, sl, d, f, rfl, hs⟩ := hd
  have key : ∀ i, ∃ n, Bench.slot { B with vault := { B.vault with uses := u, slots := sl }, drbg := d, freeCtr := f } i = { B.slot i with used := n } :=
    (hs w).2
  have hdata : ∀ i, (Bench.slot { B with vault := { B.vault with uses := u, slots := sl }, drbg := d, freeCtr := f } i).data = (B.slot i).data :=
    fun i => by obtain ⟨n, h⟩ := key i; rw [h]
  have hrun : ∀ i, (Bench.slot { B with vault := { B.vault with uses := u, slots := sl }, drbg := d, freeCtr := f } i).run = (B.slot i).run :=
    fun i => by obtain ⟨n, h⟩ := key i; rw [h]
  have hh : Bench.keyHeader { B with vault := { B.vault with uses := u, slots := sl }, drbg := d, freeCtr := f } k.slot = B.keyHeader k.slot := by
    simp only [Bench.keyHeader, hdata]
  have hv : Bench.keyValue { B with vault := { B.vault with uses := u, slots := sl }, drbg := d, freeCtr := f } k.slot = B.keyValue k.slot := by
    simp only [Bench.keyValue, Bench.runSlots, hdata, hrun, hh]
  obtain ⟨n, hk⟩ := key k.slot
  unfold Bench.acceptsKey at a ⊢
  rw [hk, hh, hv]
  exact a

/-! ## The checks of a whole-job operation -/

/-- What an operand asks of memory does not see what a job changes of the bench; a handle does not either where the vault's table is in its
form. -/
theorem JC.meets_same {j : JC} {B D : Bench} {i : Nat} {role : OpRole} {k : Option KeyCopy} (hd : B.sameBut D)
    (w : k = none ∨ Table.wf Slot.zero B.vault.slots = true) (h : j.meets B i role k) : j.meets D i role k := by
  cases k with
  | none => obtain ⟨u, sl, d, f, rfl, -⟩ := hd; cases role <;> exact h
  | some k =>
    have w := w.resolve_left (by simp)
    cases role <;> first | exact Bench.sameBut_accepts hd w h | exact h

theorem checkHandle_meets {j : JC} {B : Bench} {i : Nat} {role : OpRole} {k : Option KeyCopy} (hu : j.unit = false)
    (h : j.meets B i role k) : ∃ v, J.checkHandle j i role B = .ok k { B with vault := v } ∧ B.sameBut { B with vault := v } := by
  cases k with
  | none =>
    refine ⟨B.vault, ?_, B.sameBut_refl⟩
    cases role <;> first
      | rfl
      | exact h.elim
      | (simp only [JC.meets] at h; simp [J.checkHandle, h.1, h.2, pure, EStateM.pure])
  | some k =>
    have go : ∀ (r : KeyRole) (sp : Bool), B.acceptsKey (j.opnd i) r j.sub.sys sp k →
        ∃ v, J.checkHandle j i (.handle r sp) B = .ok (some k) { B with vault := v } ∧ B.sameBut { B with vault := v } := by
      intro r sp a
      refine ⟨(B.touch k.slot).vault, ?_, B.sameBut_touch _⟩
      simp only [J.checkHandle, J.bench, bind, EStateM.bind, hu, validate_accepts a, J.mod, pure, EStateM.pure]
      obtain ⟨-, -, -, -, -, -, -, -, -, -, h11, h12, h13, -⟩ := a
      rw [h11, ← h12, ← h13]
      rfl
    cases role with
    | handle r sp => exact go r sp h
    | handleOpt r =>
      obtain ⟨D, hD, hs⟩ := go r false h
      refine ⟨D, ?_, hs⟩
      have ht : (j.opnd i).tag = true := h.1
      simp only [J.checkHandle, ht, Bool.not_true, Bool.false_and, Bool.false_eq_true, if_false] at hD ⊢
      exact hD
    | _ => exact h.elim

theorem checkOperand_meets {j : JC} {B : Bench} {i : Nat} {role : OpRole} {k : Option KeyCopy} (h : j.meets B i role k) :
    J.checkOperand j i role B = .ok () B := by
  have go : ∀ (perms : List Nat) (n : Nat), (j.opnd i).authorises perms (j.opnd i).cursor.toNat n →
      J.checkCap (j.opnd i) i n perms B = .ok () B := by
    intro perms n ⟨h1, h2, h3, h4, h5⟩
    have hp : (j.opnd i).hasAll perms = true := by simpa [Cap.hasAll] using h3
    simp [J.checkCap, Cap.sealed?, h1, h2, hp, Nat.not_lt.mpr h4, Nat.not_lt.mpr h5, pure, EStateM.pure]
  cases k with
  | some k => cases role <;> first | rfl | exact h.elim
  | none =>
    cases role with
    | zero => simp only [JC.meets] at h; simp [J.checkOperand, h.1, h.2, pure, EStateM.pure]
    | handle => exact h.elim
    | handleOpt => rfl
    | rd n => exact go _ _ h.1
    | wr n => exact go _ _ h.1
    | rw n => exact go _ _ h.1
    | hd n =>
      obtain ⟨⟨h1, h2, h3, h4, h5⟩, h6, -⟩ := h
      have hp : (j.opnd i).hasAll [permLD, permST, permSTC] = true := by simpa [Cap.hasAll] using h3
      simp [J.checkOperand, hdFit, Cap.sealed?, h1, h2, hp, h4, h5, h6, pure, EStateM.pure]
    | later => rfl

/-- The pages that check 5 translates for reading. -/
def JC.readPages (j : JC) (i : Nat) : OpRole → List (Nat × Nat)
  | .rd n | .rw n | .hd n => pages (j.opnd i).cursor.toNat n
  | _ => []
/-- The input that an operand gives. -/
def JC.input (j : JC) (B : Bench) (i : Nat) : OpRole → List Byte
  | .rd n | .rw n | .hd n => j.bytesAt B i n
  | _ => []

theorem translate_plain {j : JC} {B : Bench} {i n mid : Nat} {k : Access} {va : Nat} {need : Right} (hm : j.sub.mode = 0)
    (h : B.plainFor mid va n need) : J.translate j i k va n B = .ok (pages va n) B := by
  have : B.etu j.xctx k va n = ((pages va n, none), B) := etu_plain hm h
  simp only [J.translate, this]

theorem fetchOperand_meets {j : JC} {B : Bench} {i : Nat} {role : OpRole} {k : Option KeyCopy} (hm : j.sub.mode = 0)
    (h : j.meets B i role k) : J.fetchOperand j i role B = .ok (j.readPages i role) B := by
  cases k with
  | some k => cases role <;> first | rfl | exact h.elim
  | none =>
    cases role with
    | zero => rfl
    | handle => exact h.elim
    | handleOpt => rfl
    | rd n => exact translate_plain hm h.2
    | wr n => simp only [J.fetchOperand, bind, EStateM.bind, translate_plain hm h.2, pure, EStateM.pure, JC.readPages]
    | rw n => simp only [J.fetchOperand, bind, EStateM.bind, translate_plain hm h.2.1, JC.readPages]
    | hd n =>
      have h16 := Bench.plainFor_mono h.2.2 (Nat.le_refl _) (n' := 16) (by omega)
      have hn := Bench.plainFor_mono h.2.2 (Nat.le_refl _) (n' := n) (by omega)
      simp only [J.fetchOperand, bind, EStateM.bind, translate_plain hm h16, translate_plain hm hn, JC.readPages]
    | later => rfl

theorem readPieces_meets {j : JC} {B : Bench} {i : Nat} {role : OpRole} {k : Option KeyCopy} (h : j.meets B i role k) :
    J.readPieces j i (j.readPages i role) B = .ok (j.input B i role) B := by
  have go : ∀ n, B.plainFor j.mid (j.opnd i).cursor.toNat n .r →
      J.readPieces j i (pages (j.opnd i).cursor.toNat n) B = .ok (j.bytesAt B i n) B := by
    intro n h
    simp only [J.readPieces, etuRead_plain h, JC.bytesAt]
  cases k with
  | some k => cases role <;> first | rfl | exact h.elim
  | none =>
    cases role with
    | handle => exact h.elim
    | rd n => exact go n h.2
    | rw n => exact go n h.2.1
    | hd n => exact go n (Bench.plainFor_mono h.2.2 (Nat.le_refl _) (by omega))
    | _ => rfl

/-! ## Random draws -/

/-- What a draw of free bytes gives depends on how many were taken before. -/
def freeBytes (id : BenchNo) : Nat → Nat → List Byte
  | 0, _ => []
  | n + 1, c => Config.freeByte (c * 16 + id.val) :: freeBytes id n (c + 1)

theorem drawBytes_eq (n : Nat) (B : Bench) : drawBytes n B = (freeBytes B.ctl.id n B.freeCtr, { B with freeCtr := B.freeCtr + n }) := by
  induction n generalizing B with
  | zero => rfl
  | succ n ih =>
    have := ih { B with freeCtr := B.freeCtr + 1 }
    simp only [drawBytes, bind, StateT.bind, drawByte, Bench.drawIndex, this, pure, StateT.pure, freeBytes]
    congr 2
    omega

/-- A draw that the DRBG serves gives bytes and changes the DRBG and the number of free values taken. -/
theorem drbgDraw_live {B : Bench} (n : Nat) (h : B.drbg.live = true) :
    ∃ l d f, B.drbgDraw n = (some l, { B with drbg := d, freeCtr := f }) := by
  unfold Bench.drbgDraw
  rw [if_neg (by simp [h])]
  by_cases hr : (B.drbg.reseedDue || B.drbgLimit) = true
  · rw [if_pos hr]
    simp only [Bench.drbgReseed, drawBytes_eq]
    exact ⟨_, _, _, rfl⟩
  · rw [if_neg hr]
    exact ⟨_, _, _, rfl⟩

/-- A draw does not see the vault. -/
theorem drbgDraw_vault (B : Bench) (v : Vault) (n : Nat) :
    Bench.drbgDraw { B with vault := v } n = ((B.drbgDraw n).1, { (B.drbgDraw n).2 with vault := v }) := by
  unfold Bench.drbgDraw
  have e : Bench.drbgLimit { B with vault := v } = B.drbgLimit := rfl
  by_cases h : B.drbg.live = true
  · simp only [h, e, Bool.not_true, Bool.false_eq_true, if_false]
    by_cases hr : (B.drbg.reseedDue || B.drbgLimit) = true
    · simp only [hr, if_true, Bench.drbgReseed, drawBytes_eq]
    · simp only [hr, Bool.false_eq_true, if_false]
  · simp only [h, Bool.not_false, if_true]

/-- A draw does not see the units. -/
theorem drbgDraw_engs (B : Bench) (v : Vector Eng 18) (n : Nat) :
    Bench.drbgDraw { B with engs := v } n = ((B.drbgDraw n).1, { (B.drbgDraw n).2 with engs := v }) := by
  unfold Bench.drbgDraw
  have e : Bench.drbgLimit { B with engs := v } = B.drbgLimit := rfl
  by_cases h : B.drbg.live = true
  · simp only [h, e, Bool.not_true, Bool.false_eq_true, if_false]
    by_cases hr : (B.drbg.reseedDue || B.drbgLimit) = true
    · simp only [hr, if_true, Bench.drbgReseed, drawBytes_eq]
    · simp only [hr, Bool.false_eq_true, if_false]
  · simp only [h, Bool.not_false, if_true]

/-- What is drawn at check 6. -/
theorem random_serves {B : Bench} {n : Nat} (h : B.serves n) (v : Vault) :
    ∃ d f, J.random n { B with vault := v } = .ok (B.drawn n) { B with vault := v, drbg := d, freeCtr := f }
      ∧ (n = 0 → d = B.drbg ∧ f = B.freeCtr) := by
  unfold J.random Bench.drawn
  split
  · exact ⟨B.drbg, B.freeCtr, rfl, fun _ => ⟨rfl, rfl⟩⟩
  · rename_i hn
    obtain ⟨l, d, f, e⟩ := drbgDraw_live n (h.resolve_left hn)
    refine ⟨d, f, ?_, fun h => absurd h hn⟩
    simp only [drbgDraw_vault, e, Option.getD_some]

/-- The checks and the reading of a whole-job operation whose operands are what their roles ask for: the keys named, the bytes of memory
and the random bytes; nothing else of the bench changes than the vault's use counts, the DRBG and the free values taken. -/
theorem whole_meets {j : JC} {B : Bench} {ra rb rc : OpRole} {ka kb kc : Option KeyCopy} {draw : Nat} (hu : j.unit = false)
    (hr : j.resume = false) (hm : j.sub.mode = 0) (ha : j.meets B 0 ra ka) (hb : j.meets B 1 rb kb) (hc : j.meets B 2 rc kc)
    (hd : B.serves draw) (w : (kb = none ∧ kc = none) ∨ Table.wf Slot.zero B.vault.slots = true) :
    ∃ D, J.whole j ra rb rc draw B = .ok { ka := ka, kb := kb, kc := kc, a := j.input B 0 ra, b := j.input B 1 rb
                                           c := j.input B 2 rc, r := B.drawn draw } D ∧ B.sameBut D
      ∧ (draw = 0 → D.drbg = B.drbg ∧ D.freeCtr = B.freeCtr) := by
  obtain ⟨v1, e1, s1⟩ := checkHandle_meets hu ha
  have hb1 := JC.meets_same s1 (w.imp (·.1) id) hb
  obtain ⟨v2, e2, s2⟩ := checkHandle_meets hu hb1
  have s12 := Bench.sameBut_trans s1 s2
  have hc2 := JC.meets_same s12 (w.imp (·.2) id) hc
  obtain ⟨v3, e3, s3⟩ := checkHandle_meets hu hc2
  have s13 := Bench.sameBut_trans s12 s3
  -- memory operands do not see the vault
  have mem : ∀ (i : Nat) (r : OpRole) (k : Option KeyCopy), j.meets B i r k → ∀ C, B.sameBut C →
      J.checkOperand j i r C = .ok () C ∧ J.fetchOperand j i r C = .ok (j.readPages i r) C
        ∧ J.readPieces j i (j.readPages i r) C = .ok (j.input B i r) C := by
    intro i r k h C hC
    cases k with
    | some k => cases r <;> first | exact ⟨rfl, rfl, rfl⟩ | exact h.elim
    | none =>
      have h' := JC.meets_same hC (.inl rfl) h
      refine ⟨checkOperand_meets h', fetchOperand_meets hm h', ?_⟩
      rw [readPieces_meets h']
      obtain ⟨u, sl, d, f, rfl, -⟩ := hC
      rfl
  obtain ⟨d, f, e, hz⟩ := random_serves hd v3
  have sd : B.sameBut { B with vault := v3, drbg := d, freeCtr := f } :=
    Bench.sameBut_trans s13 ⟨v3.uses, v3.slots, d, f, rfl, fun w => ⟨w, fun i => ⟨_, rfl⟩⟩⟩
  refine ⟨{ B with vault := v3, drbg := d, freeCtr := f }, ?_, sd, hz⟩
  obtain ⟨a1, a2, -⟩ := mem 0 ra ka ha _ s13
  obtain ⟨b1, b2, -⟩ := mem 1 rb kb hb _ s13
  obtain ⟨c1, c2, -⟩ := mem 2 rc kc hc _ s13
  obtain ⟨-, -, a3⟩ := mem 0 ra ka ha _ sd
  obtain ⟨-, -, b3⟩ := mem 1 rb kb hb _ sd
  obtain ⟨-, -, c3⟩ := mem 2 rc kc hc _ sd
  simp only at e1 e2 e3
  simp only [J.whole, bind, EStateM.bind, e1, e2, e3, a1, b1, c1, hr, Bool.false_eq_true, if_false, a2, b2, c2, e, a3, b3, c3, pure, EStateM.pure]

/-! ## Streaming operands -/

theorem streamIn_plain {j : JC} {B : Bench} {va n : Nat} (hm : j.sub.mode = 0) (h : B.plainFor j.mid va n .r) :
    J.streamIn j va 0 n B = .ok (B.mem.read va n, none) B := by
  have h' : B.plainFor j.mid (va + 0) (n - 0) .r := h
  have e : B.etu j.xctx .load (va + 0) (n - 0) = ((pages (va + 0) (n - 0), none), B) := etu_plain hm h'
  simp only [J.streamIn, e, etuRead_plain h', Option.map_none]
  rfl

theorem streamOut_plain {j : JC} {B : Bench} {va n : Nat} (hm : j.sub.mode = 0) (h : B.plainFor j.mid va n .w) :
    J.streamOut j va 0 n B = .ok (pages va n, none) B := by
  have h' : B.plainFor j.mid (va + 0) (n - 0) .w := h
  have e : B.etu j.xctx .store (va + 0) (n - 0) = ((pages (va + 0) (n - 0), none), B) := etu_plain hm h'
  simp only [J.streamOut, e, Option.map_none]
  rfl

theorem prelude_plain {j : JC} {B : Bench} {i n : Nat} {seen param : List Byte} (hm : j.sub.mode = 0)
    (h : B.plainFor j.mid (j.opnd i).cursor.toNat n .r) : J.prelude j i n seen param B = .ok (j.bytesAt B i n) B := by
  simp only [J.prelude, bind, EStateM.bind, streamIn_plain hm h, pure, EStateM.pure, JC.bytesAt]

/-- A streaming job that resumes none and meets no fault reads all its data and places all its output. -/
theorem stream_plain {j : JC} {B : Bench} {base n tail : Nat} {unit outLen : Nat → Nat} (hm : j.sub.mode = 0) (h0 : outLen 0 = 0)
    (hb : B.plainFor j.mid ((j.opnd 1).cursor.toNat + base) n .r) (hc : B.plainFor j.mid (j.opnd 2).cursor.toNat (outLen n + tail) .w) :
    J.stream j base n [] unit outLen tail B =
      .ok { data := B.mem.read ((j.opnd 1).cursor.toNat + base) n, done := n
            outs := pages (j.opnd 2).cursor.toNat (outLen n + tail), stop := none } B := by
  have e := streamOut_plain hm hc
  simp only [J.stream, bind, EStateM.bind, List.length_nil, streamIn_plain hm hb, List.nil_append, Option.isNone_none, if_true, h0, e,
    pure, EStateM.pure, Option.map_none]
  congr 2
  rw [List.take_of_length_le (Nat.le_of_eq (Mem.length_read ..))]

/-! ## A unit takes its next descriptor -/

/-- The bench after the descriptor has left its ring. -/
def Bench.takesFrom (B : Bench) (u : UnitNo) (r : Fin 4) : Bench :=
  (B.setRing u r { B.ring u r with subs := (B.ring u r).subs.tail }).modEng u fun e => { e with lastRing := r.val }

/-- A descriptor that a unit takes, whose operation is the command's, is in flight with the completion that its computation gives. -/
theorem engBegin_takes {B : Bench} {u : UnitNo} {r : Fin 4} {q : Sub} {sel : Nat → Nat → Bool} {run : JC → Option UnitJob → J Finish}
    {uses : JC → Finish → Bench → List Nat} {f : Finish} (ho : B.offers u r q) (hs : sel (jobOf u q).op (jobOf u q).var = true)
    (hr : ∃ D, run (jobOf u q) none (B.takesFrom u r) = .ok f D ∨ run (jobOf u q) none (B.takesFrom u r) = .error f D) :
    ∃ J, ((B.engBegin u sel run uses).eng u).job = some J ∧ J.ring = some r ∧ J.sub = q ∧ J.unit = none ∧ J.fin = f := by
  obtain ⟨-, h2, h3, h4, h5, h6, h7⟩ := ho
  obtain ⟨D, hD⟩ := hr
  have hs' : (!sel (JC.op { u := u, sub := q, unit := false }) (JC.var { u := u, sub := q, unit := false })) = false := by
    rw [Bool.not_eq_false']; exact hs
  have hn : (B.takesFrom u r).tokenNamed { u := u, sub := q, unit := false } = none := by
    have : JC.resume { u := u, sub := q, unit := false } = false := h6
    simp [Bench.tokenNamed, this]
  unfold Bench.engBegin
  simp only [h2, h3, h4, Option.isSome_none, Bool.not_true, Bool.or_false, Bool.false_eq_true, if_false, hs']
  refine ⟨{ ring := some r, sub := q, unit := none, uses := uses (jobOf u q) f D, base := 0, set := D.pat.active.ident, fin := f }, ?_⟩
  simp only [jobOf, Bench.takesFrom] at hD hn ⊢
  rcases hD with hD | hD <;> simp only [hD, hn, Job.resumed, Bench.setEng, Bench.eng] <;> simp

theorem takesFrom_engs (B : Bench) (u : UnitNo) (r : Fin 4) : B.takesFrom u r = { B with engs := (B.takesFrom u r).engs } := rfl

/-- What a job draws does not see that its descriptor has left the ring. -/
theorem takesFrom_drawn (B : Bench) (u : UnitNo) (r : Fin 4) (n : Nat) : (B.takesFrom u r).drawn n = B.drawn n := by
  rw [takesFrom_engs]
  simp only [Bench.drawn, drbgDraw_engs]

/-- A command whose meaning is the begin of a job takes the descriptor that its unit offers. -/
theorem takesJob_of {s : State} {b : BenchNo} {i : Instr} {u : UnitNo} {r : Fin 4} {q : Sub} {sel : Nat → Nat → Bool}
    {run : JC → Option UnitJob → J Finish} {uses : JC → Finish → Bench → List Nat} {f : Finish} (ho : (s.bench b).offers u r q)
    (he : exec i s = s.onUnit b u.val fun B => B.engBegin u sel run uses) (hs : sel (jobOf u q).op (jobOf u q).var = true)
    (hr : ∃ D, run (jobOf u q) none ((s.bench b).takesFrom u r) = .ok f D ∨ run (jobOf u q) none ((s.bench b).takesFrom u r) = .error f D) :
    s.takesJob b i u r q f := by
  obtain ⟨J, hJ⟩ := engBegin_takes (uses := uses) ho hs hr
  refine ⟨_, J, ?_, hJ⟩
  rw [he]
  simp only [State.onUnit, State.onBench, ho.1, if_true, State.gives]

/-- The result of a whole-job operation of a descriptor that a unit takes. -/
theorem whole_takes {u : UnitNo} {r : Fin 4} {q : Sub} {B : Bench} {ra rb rc : OpRole} {ka kb kc : Option KeyCopy} {draw : Nat}
    (ho : B.offers u r q) (ha : (jobOf u q).meets B 0 ra ka) (hb : (jobOf u q).meets B 1 rb kb) (hc : (jobOf u q).meets B 2 rc kc)
    (hd : B.serves draw) (w : (kb = none ∧ kc = none) ∨ Table.wf Slot.zero B.vault.slots = true) :
    ∃ D, J.whole (jobOf u q) ra rb rc draw (B.takesFrom u r)
        = .ok { ka := ka, kb := kb, kc := kc, a := (jobOf u q).input B 0 ra, b := (jobOf u q).input B 1 rb
                c := (jobOf u q).input B 2 rc, r := B.drawn draw } D
      ∧ (B.takesFrom u r).sameBut D ∧ (draw = 0 → D.drbg = B.drbg ∧ D.freeCtr = B.freeCtr) := by
  obtain ⟨D, h1, h2, h3⟩ := whole_meets (B := B.takesFrom u r) (draw := draw) rfl ho.2.2.2.2.2.1 ho.2.2.2.2.1 ha hb hc hd w
  rw [takesFrom_drawn] at h1
  exact ⟨D, h1, h2, h3⟩

end Sys2Proof.Machine
end

