-- ==== Sys2Proof/Laws/KeyWrap.lean ====
section
/-!
SUPPORT. Laws/KeyWrap.lean: deciphering undoes AES, and what key wrap with padding wrapped it unwraps (SP 800-38F); a record that the
device writes, and a key block that it exports, open to what was put into them (R429 to R431, R453, R454).
-/

namespace Sys2Proof.Machine

/-! ## Bytes -/

theorem forall_byte {P : Byte → Prop} (h : ∀ n : Fin 256, P (BitVec.ofFin n)) (x : Byte) : P x := h x.toFin

theorem length_xorBytes (a b : List Byte) : (xorBytes a b).length = min a.length b.length := List.length_zipWith
theorem xorBytes_cancel : ∀ {a b : List Byte}, a.length ≤ b.length → xorBytes (xorBytes a b) b = a
  | [], _, _ => by simp [xorBytes]
  | x :: a, [], h => absurd h (by simp)
  | x :: a, y :: b, h => by
    have := xorBytes_cancel (a := a) (b := b) (by simpa using h)
    simp only [xorBytes, List.zipWith_cons_cons, List.cons.injEq] at *
    exact ⟨by rw [BitVec.xor_assoc, BitVec.xor_self, BitVec.xor_zero], this⟩

theorem length_leBytes : ∀ n v : Nat, (leBytes n v).length = n
  | 0, _ => rfl
  | n + 1, v => by simp [leBytes, length_leBytes n]
theorem length_beBytes (n v : Nat) : (beBytes n v).length = n := by simp [beBytes, length_leBytes]
theorem leNat_leBytes : ∀ n v : Nat, v < 256 ^ n → leNat (leBytes n v) = v
  | 0, v, h => by simp [leNat, leBytes] at *; omega
  | n + 1, v, h => by
    have := leNat_leBytes n (v / 256) (by rw [Nat.pow_succ] at h; omega)
    simp only [leBytes, leNat, this, BitVec.toNat_ofNat]
    omega
theorem beNat_beBytes {n v : Nat} (h : v < 256 ^ n) : beNat (beBytes n v) = v := by simp [beNat, beBytes, leNat_leBytes n v h]

theorem length_chunks (n : Nat) : ∀ (k : Nat) (l : List Byte), (chunks n k l).length = k
  | 0, _ => rfl
  | k + 1, l => by simp [chunks, length_chunks n k]
theorem chunk_length {n : Nat} : ∀ {k : Nat} {l : List Byte}, l.length = n * k → ∀ b ∈ chunks n k l, b.length = n
  | 0, _, _, b, hb => absurd hb (by simp [chunks])
  | k + 1, l, h, b, hb => by
    rw [Nat.mul_succ] at h
    simp only [chunks, List.mem_cons] at hb
    rcases hb with rfl | hb
    · simp; omega
    · exact chunk_length (k := k) (by simp; omega) b hb
theorem chunks_flatten {n : Nat} : ∀ (l : List (List Byte)), (∀ b ∈ l, b.length = n) → chunks n l.length l.flatten = l
  | [], _ => rfl
  | x :: l, h => by
    have hx : x.length = n := h x (by simp)
    simp [chunks, ← hx, List.flatten_cons]
    rw [hx]
    exact chunks_flatten l fun b hb => h b (by simp [hb])
theorem flatten_chunks {n : Nat} : ∀ {k : Nat} {l : List Byte}, l.length = n * k → (chunks n k l).flatten = l
  | 0, l, h => by simp at h; simp [chunks, h]
  | k + 1, l, h => by
    rw [Nat.mul_succ] at h
    simp [chunks, flatten_chunks (n := n) (k := k) (l := l.drop n) (by simp; omega)]
theorem length_flatten_of {n : Nat} : ∀ {l : List (List Byte)}, (∀ b ∈ l, b.length = n) → l.flatten.length = n * l.length
  | [], _ => by simp
  | x :: l, h => by
    rw [List.flatten_cons, List.length_append, h x (by simp), length_flatten_of fun b hb => h b (by simp [hb]), List.length_cons, Nat.mul_succ, Nat.add_comm]
theorem blocksOf_flatten {n : Nat} (hn : 0 < n) {l : List (List Byte)} (h : ∀ b ∈ l, b.length = n) : blocksOf n l.flatten = l := by
  unfold blocksOf
  rw [length_flatten_of h, show (n * l.length + n - 1) / n = l.length by
    rw [Nat.add_sub_assoc hn, Nat.mul_add_div hn, Nat.div_eq_of_lt (by omega), Nat.add_zero]]
  exact chunks_flatten l h
theorem blocksOf_mul {n k : Nat} (hn : 0 < n) {l : List Byte} (h : l.length = n * k) : blocksOf n l = chunks n k l := by
  unfold blocksOf
  rw [h, Nat.add_sub_assoc hn, Nat.mul_add_div hn, Nat.div_eq_of_lt (by omega), Nat.add_zero]

/-! ## AES -/

theorem xtime_xor (x y : Byte) : xtime (x ^^^ y) = xtime x ^^^ xtime y := by
  have e : ∀ b c : Bool, (if (b ^^ c) = true then (0x1B : Byte) else 0) = (if b = true then 0x1B else 0) ^^^ (if c = true then 0x1B else 0) := by decide
  simp only [xtime, BitVec.getLsbD_xor, e, BitVec.shiftLeft_xor_distrib]
  ac_rfl
/-- Multiplication bit by bit of the second factor. -/
def sel (c : Bool) (v : Byte) : Byte := bif c then v else 0
def gmulSel (a b : Byte) : Byte :=
  let a1 := xtime a; let a2 := xtime a1; let a3 := xtime a2; let a4 := xtime a3; let a5 := xtime a4; let a6 := xtime a5; let a7 := xtime a6
  sel (b.getLsbD 0) a ^^^ sel (b.getLsbD 1) a1 ^^^ sel (b.getLsbD 2) a2 ^^^ sel (b.getLsbD 3) a3 ^^^ sel (b.getLsbD 4) a4
    ^^^ sel (b.getLsbD 5) a5 ^^^ sel (b.getLsbD 6) a6 ^^^ sel (b.getLsbD 7) a7
theorem gmul_eq (a b : Byte) : gmul a b = gmulSel a b := by
  have e (c : Bool) (p v : Byte) : (if c = true then p ^^^ v else p) = p ^^^ sel c v := by cases c <;> simp [sel]
  simp [gmul, gmulSel, List.range, List.range.loop, e]
theorem gmul_1 (x : Byte) : gmul 1 x = x := by rw [gmul_eq]; exact forall_byte (P := fun x => gmulSel 1 x = x) (by decide +kernel) x
theorem gmul_2 (x : Byte) : gmul 2 x = xtime x := by rw [gmul_eq]; exact forall_byte (P := fun x => gmulSel 2 x = xtime x) (by decide +kernel) x
theorem gmul_3 (x : Byte) : gmul 3 x = xtime x ^^^ x := by
  rw [gmul_eq]; exact forall_byte (P := fun x => gmulSel 3 x = xtime x ^^^ x) (by decide +kernel) x
theorem gmul_14 (x : Byte) : gmul 14 x = xtime (xtime (xtime x)) ^^^ (xtime (xtime x) ^^^ xtime x) := by
  rw [gmul_eq]; exact forall_byte (P := fun x => gmulSel 14 x = xtime (xtime (xtime x)) ^^^ (xtime (xtime x) ^^^ xtime x)) (by decide +kernel) x
theorem gmul_11 (x : Byte) : gmul 11 x = xtime (xtime (xtime x)) ^^^ (xtime x ^^^ x) := by
  rw [gmul_eq]; exact forall_byte (P := fun x => gmulSel 11 x = xtime (xtime (xtime x)) ^^^ (xtime x ^^^ x)) (by decide +kernel) x
theorem gmul_13 (x : Byte) : gmul 13 x = xtime (xtime (xtime x)) ^^^ (xtime (xtime x) ^^^ x) := by
  rw [gmul_eq]; exact forall_byte (P := fun x => gmulSel 13 x = xtime (xtime (xtime x)) ^^^ (xtime (xtime x) ^^^ x)) (by decide +kernel) x
theorem gmul_9 (x : Byte) : gmul 9 x = xtime (xtime (xtime x)) ^^^ x := by
  rw [gmul_eq]; exact forall_byte (P := fun x => gmulSel 9 x = xtime (xtime (xtime x)) ^^^ x) (by decide +kernel) x
/-- Each factor of the inverse matrix distributes over a sum of four. -/
theorem gmul_inv_xor {c : Byte} (h : c ∈ [(14 : Byte), 11, 13, 9]) (x y : Byte) : gmul c (x ^^^ y) = gmul c x ^^^ gmul c y := by
  simp only [List.mem_cons, List.not_mem_nil, or_false] at h
  rcases h with rfl | rfl | rfl | rfl <;> simp only [gmul_14, gmul_11, gmul_13, gmul_9, xtime_xor] <;> ac_rfl
/-- The product of the two matrices, entry by entry. -/
theorem mix_entries (x : Byte) :
    (gmul 14 (gmul 2 x) ^^^ gmul 11 x ^^^ gmul 13 x ^^^ gmul 9 (gmul 3 x) = x)
    ∧ (gmul 14 (gmul 3 x) ^^^ gmul 11 (gmul 2 x) ^^^ gmul 13 x ^^^ gmul 9 x = 0)
    ∧ (gmul 14 x ^^^ gmul 11 (gmul 3 x) ^^^ gmul 13 (gmul 2 x) ^^^ gmul 9 x = 0)
    ∧ (gmul 14 x ^^^ gmul 11 x ^^^ gmul 13 (gmul 3 x) ^^^ gmul 9 (gmul 2 x) = 0) := by
  simp only [gmul_14, gmul_11, gmul_13, gmul_9, gmul_2, gmul_3, xtime_xor]
  generalize xtime (xtime (xtime (xtime x))) = x4
  generalize xtime (xtime (xtime x)) = x3
  generalize xtime (xtime x) = x2
  generalize xtime x = x1
  refine ⟨?_, ?_, ?_, ?_⟩ <;> ext i <;> simp only [BitVec.getElem_xor] <;>
    cases x4[i] <;> cases x3[i] <;> cases x2[i] <;> cases x1[i] <;> cases x[i] <;> simp
/-- One row of the inverse matrix on a mixed column. -/
theorem invMix_row (a b c d : Byte) :
    gmul 14 (gmul 2 a ^^^ gmul 3 b ^^^ c ^^^ d) ^^^ gmul 11 (a ^^^ gmul 2 b ^^^ gmul 3 c ^^^ d) ^^^ gmul 13 (a ^^^ b ^^^ gmul 2 c ^^^ gmul 3 d)
      ^^^ gmul 9 (gmul 3 a ^^^ b ^^^ c ^^^ gmul 2 d) = a := by
  have m (k : Byte) (h : k ∈ [(14 : Byte), 11, 13, 9]) (w x y z : Byte) : gmul k (w ^^^ x ^^^ y ^^^ z) = gmul k w ^^^ gmul k x ^^^ gmul k y ^^^ gmul k z := by
    rw [gmul_inv_xor h, gmul_inv_xor h, gmul_inv_xor h]
  rw [m 14 (by decide), m 11 (by decide), m 13 (by decide), m 9 (by decide)]
  have r : ∀ a0 a1 a2 a3 b0 b1 b2 b3 c0 c1 c2 c3 d0 d1 d2 d3 : Byte,
      (a0 ^^^ b0 ^^^ c0 ^^^ d0) ^^^ (a1 ^^^ b1 ^^^ c1 ^^^ d1) ^^^ (a2 ^^^ b2 ^^^ c2 ^^^ d2) ^^^ (a3 ^^^ b3 ^^^ c3 ^^^ d3)
        = (a0 ^^^ a1 ^^^ a2 ^^^ a3) ^^^ (b0 ^^^ b1 ^^^ b2 ^^^ b3) ^^^ (c0 ^^^ c1 ^^^ c2 ^^^ c3) ^^^ (d0 ^^^ d1 ^^^ d2 ^^^ d3) := by
    intros; ac_rfl
  rw [r, (mix_entries a).1, (mix_entries b).2.1, (mix_entries c).2.2.1, (mix_entries d).2.2.2]
  simp

/-- The four rows on a column, in the order in which a mixed column lists them. -/
theorem invMix_column (a b c d : Byte) :
    let w := gmul 2 a ^^^ gmul 3 b ^^^ c ^^^ d
    let x := a ^^^ gmul 2 b ^^^ gmul 3 c ^^^ d
    let y := a ^^^ b ^^^ gmul 2 c ^^^ gmul 3 d
    let z := gmul 3 a ^^^ b ^^^ c ^^^ gmul 2 d
    gmul 14 w ^^^ gmul 11 x ^^^ gmul 13 y ^^^ gmul 9 z = a ∧ gmul 9 w ^^^ gmul 14 x ^^^ gmul 11 y ^^^ gmul 13 z = b
    ∧ gmul 13 w ^^^ gmul 9 x ^^^ gmul 14 y ^^^ gmul 11 z = c ∧ gmul 11 w ^^^ gmul 13 x ^^^ gmul 9 y ^^^ gmul 14 z = d := by
  intro w x y z
  refine ⟨invMix_row a b c d, (Eq.trans ?_ (invMix_row b c d a)), (Eq.trans ?_ (invMix_row c d a b)), (Eq.trans ?_ (invMix_row d a b c))⟩
  · rw [show gmul 2 b ^^^ gmul 3 c ^^^ d ^^^ a = x by simp only [x]; ac_rfl, show b ^^^ gmul 2 c ^^^ gmul 3 d ^^^ a = y by simp only [y]; ac_rfl,
      show b ^^^ c ^^^ gmul 2 d ^^^ gmul 3 a = z by simp only [z]; ac_rfl, show gmul 3 b ^^^ c ^^^ d ^^^ gmul 2 a = w by simp only [w]; ac_rfl]
    ac_rfl
  · rw [show gmul 2 c ^^^ gmul 3 d ^^^ a ^^^ b = y by simp only [y]; ac_rfl, show c ^^^ gmul 2 d ^^^ gmul 3 a ^^^ b = z by simp only [z]; ac_rfl,
      show c ^^^ d ^^^ gmul 2 a ^^^ gmul 3 b = w by simp only [w]; ac_rfl, show gmul 3 c ^^^ d ^^^ a ^^^ gmul 2 b = x by simp only [x]; ac_rfl]
    ac_rfl
  · rw [show gmul 2 d ^^^ gmul 3 a ^^^ b ^^^ c = z by simp only [z]; ac_rfl, show d ^^^ gmul 2 a ^^^ gmul 3 b ^^^ c = w by simp only [w]; ac_rfl,
      show d ^^^ a ^^^ gmul 2 b ^^^ gmul 3 c = x by simp only [x]; ac_rfl, show gmul 3 d ^^^ a ^^^ b ^^^ gmul 2 c = y by simp only [y]; ac_rfl]
    ac_rfl

theorem length_mixWith (m s : List Byte) : (mixWith m s).length = 16 := by simp [mixWith]
theorem invMix_mix : ∀ {s : List Byte}, s.length = 16 → invMixColumns (mixColumns s) = s
  | [a0, a1, a2, a3, a4, a5, a6, a7, a8, a9, a10, a11, a12, a13, a14, a15], _ => by
    have z : ∀ x : Byte, 0 ^^^ x = x := fun x => BitVec.zero_xor
    simp only [mixColumns, invMixColumns, mixWith, List.range, List.range.loop, List.map_cons, List.map_nil, List.foldl_cons, List.foldl_nil,
      Nat.reduceMod, Nat.reduceDiv, Nat.reduceAdd, Nat.reduceSub, Nat.reduceMul, List.getD_cons_zero, List.getD_cons_succ, gmul_1, z,
      (invMix_column _ _ _ _).1, (invMix_column _ _ _ _).2.1, (invMix_column _ _ _ _).2.2.1, (invMix_column _ _ _ _).2.2.2]

/-- The inverses, listed. -/
def ginvSel (a : Byte) : Byte :=
  let a2 := gmulSel a a
  let a3 := gmulSel a2 a
  let b := gmulSel a3 a3
  let a12 := gmulSel b b
  let a14 := gmulSel a12 a2
  let a15 := gmulSel a12 a3
  let c := gmulSel a15 a15
  let c := gmulSel c c
  let c := gmulSel c c
  let c := gmulSel c c
  gmulSel c a14

def invTable : Nat := 0x1c411acda07d9cdd8c0346683438235bb31e505de3d74e08adcf0ec6ebd60db16b90f89dd5c48b94eae2dbc563ae077ae6acfc1b045327a90fe4d4daa32f280b5786bcbd3d768ea571787511ef1fe00c62d2e7ce4a12c8264865b88fc32e7cfb9a89dcf9889f142a72848ad86d326adea4b902f7d9959e9b56be7396807f7e838281faa106d070b63cbab5108597b7793b219333df9147f44336a649d3af5e161761ec51f0223e18bf87244cca055ced09e9255413ab64a769f5312d6737fe1d1959bb776f2035f2426639f36c92452cc2a2443015980ac1c9a84d55f15a6e3ab2ee40ffccfd3f585f602b994baab474c7e5e1b0c0294fe8d17b52cbf68d0100
def invAt (x : Byte) : Byte := BitVec.ofNat 8 (invTable >>> (8 * x.toNat))
theorem ginv_eq (x : Byte) : ginv x = invAt x := by
  have e : ginv x = ginvSel x := by simp [ginv, ginvSel, List.range, List.range.loop, gmul_eq]
  rw [e]; exact forall_byte (P := fun x => ginvSel x = invAt x) (by decide +kernel) x
theorem ginv_ginv (x : Byte) : ginv (ginv x) = x := by
  rw [ginv_eq, ginv_eq]; exact forall_byte (P := fun x => invAt (invAt x) = x) (by decide +kernel) x
theorem affine_inverse : ∀ x : Byte,
    (let y := x ^^^ x.rotateLeft 1 ^^^ x.rotateLeft 2 ^^^ x.rotateLeft 3 ^^^ x.rotateLeft 4 ^^^ 0x63
     y.rotateLeft 1 ^^^ y.rotateLeft 3 ^^^ y.rotateLeft 6 ^^^ 0x05) = x := forall_byte (by decide +kernel)
theorem getD_table (f : Byte → Byte) (x : Byte) (n : Nat) (h : x.toNat < n) :
    ((List.range n).map fun i => f (BitVec.ofNat 8 i)).toArray.getD x.toNat 0 = f x := by
  simp [Array.getD, h]
theorem invSbox_sbox (x : Byte) : invSbox (sbox x) = x := by
  have e1 (y : Byte) : invSbox y = aesInvSub y := by rw [invSbox, invSboxTable, getD_table aesInvSub y 256 y.isLt]
  rw [e1, sbox, sboxTable, getD_table aesSub x 256 x.isLt, aesInvSub, aesSub]
  exact (congrArg ginv (affine_inverse (ginv x))).trans (ginv_ginv x)
theorem length_shiftRows (s : List Byte) : (shiftRows s).length = 16 := by simp [shiftRows]
theorem invShift_shift : ∀ {s : List Byte}, s.length = 16 → invShiftRows (shiftRows s) = s
  | [_, _, _, _, _, _, _, _, _, _, _, _, _, _, _, _], _ => rfl
theorem invSub_sub {s : List Byte} (h : s.length = 16) : (invShiftRows (shiftRows (s.map sbox))).map invSbox = s := by
  rw [invShift_shift (by simp [h]), List.map_map]
  simp [Function.comp_def, invSbox_sbox]

/-- The state after the rounds with the keys `t`, the last round apart. -/
def aesFull (t : List (List Byte)) (s : List Byte) : List Byte := t.foldl (fun s k => xorBytes (mixColumns (shiftRows (s.map sbox))) k) s
theorem length_aesFull {t : List (List Byte)} (h : ∀ k ∈ t, k.length = 16) {s : List Byte} (hs : s.length = 16) : (aesFull t s).length = 16 := by
  induction t generalizing s with
  | nil => exact hs
  | cons k t ih =>
    exact ih (fun x hx => h x (by simp [hx])) (by rw [length_xorBytes, h k (by simp), mixColumns, length_mixWith]; rfl)
theorem aesRounds_append : ∀ (t : List (List Byte)) (k s : List Byte), aesRounds (t ++ [k]) s = xorBytes (shiftRows ((aesFull t s).map sbox)) k
  | [], _, _ => rfl
  | [_], _, _ => rfl
  | _ :: b :: t, k, _ => aesRounds_append (b :: t) k _
theorem aesInvRounds_reverse {k0 : List Byte} {s : List Byte} (hs : s.length = 16) (t : List (List Byte)) (h : ∀ k ∈ t, k.length = 16) :
    aesInvRounds (t ++ [k0]) (shiftRows ((aesFull t.reverse s).map sbox)) = xorBytes s k0 := by
  induction t with
  | nil => show xorBytes ((invShiftRows (shiftRows (s.map sbox))).map invSbox) k0 = _; rw [invSub_sub hs]
  | cons k t ih =>
    have hr : ∀ x ∈ t.reverse, x.length = 16 := fun x hx => h x (by simp at hx; simp [hx])
    have e : aesFull (k :: t).reverse s = xorBytes (mixColumns (shiftRows ((aesFull t.reverse s).map sbox))) k := by simp [aesFull]
    have l : (aesFull (k :: t).reverse s).length = 16 := length_aesFull (fun x hx => h x (List.mem_reverse.1 hx)) hs
    have g : aesInvRounds ((k :: t) ++ [k0]) (shiftRows ((aesFull (k :: t).reverse s).map sbox))
        = aesInvRounds (t ++ [k0]) (invMixColumns (xorBytes ((invShiftRows (shiftRows ((aesFull (k :: t).reverse s).map sbox))).map invSbox) k)) := by
      cases t <;> rfl
    rw [g, invSub_sub l, e, xorBytes_cancel (by rw [mixColumns, length_mixWith, h k (by simp)] <;> exact Nat.le_refl _),
      invMix_mix (length_shiftRows _), ih fun x hx => h x (by simp [hx])]
/-- The round keys: at least two, of 16 bytes each. -/
def KeysOk (key : List Byte) : Prop := ∃ a t b, aesKeys key = a :: (t ++ [b]) ∧ ∀ k ∈ aesKeys key, k.length = 16
theorem length_aesEnc {key : List Byte} (hk : KeysOk key) {s : List Byte} : (aesEnc key s).length = 16 := by
  obtain ⟨a, t, b, e, h⟩ := hk
  rw [aesEnc, e]
  show (aesRounds (t ++ [b]) _).length = 16
  rw [aesRounds_append, length_xorBytes, length_shiftRows, h b (by simp [e])]; rfl
/-- Deciphering undoes AES. -/
theorem aesDec_aesEnc {key : List Byte} (hk : KeysOk key) {s : List Byte} (hs : s.length = 16) : aesDec key (aesEnc key s) = s := by
  have hl := length_aesEnc hk (s := s)
  obtain ⟨a, t, b, e, h⟩ := hk
  have hp : ∀ l : List Byte, l.length = 16 → padTo 16 l = l := fun l hl => by simp [padTo, hl]
  have hx : (xorBytes s a).length = 16 := by rw [length_xorBytes, hs, h a (by simp [e])]; rfl
  have ha : aesEnc key s = aesRounds (t ++ [b]) (xorBytes s a) := by rw [aesEnc, e]; simp [hp s hs]
  have hr : (aesKeys key).reverse = b :: (t.reverse ++ [a]) := by rw [e]; simp
  rw [aesDec, hr]
  show aesInvRounds (t.reverse ++ [a]) (xorBytes (padTo 16 (aesEnc key s)) b) = s
  rw [hp _ hl, ha, aesRounds_append, xorBytes_cancel (by rw [length_shiftRows, h b (by simp [e])] <;> exact Nat.le_refl _)]
  have g := aesInvRounds_reverse (k0 := a) hx t.reverse fun k hk => h k (by simp at hk; simp [e, hk])
  rw [List.reverse_reverse] at g
  rw [g, xorBytes_cancel (by rw [hs, h a (by simp [e])] <;> exact Nat.le_refl _)]

/-! ## The key schedule -/

theorem aesExpand_words (nk : Nat) (hn : 0 < nk) : ∀ (k i : Nat) (rc : Byte) (w : List (List Byte)), nk ≤ w.length → (∀ x ∈ w, x.length = 4) →
    (aesExpand nk k i rc w).length = w.length + k ∧ ∀ x ∈ aesExpand nk k i rc w, x.length = 4
  | 0, _, _, w, _, h => ⟨rfl, h⟩
  | k + 1, i, rc, w, hw, h => by
    have ht : (w.headD []).length = 4 := by
      cases w with
      | nil => simp at hw; omega
      | cons a w => exact h a (by simp)
    have hg : (w.getD (nk - 1) []).length = 4 := by
      rw [List.getD_eq_getElem?_getD, List.getElem?_eq_getElem (by omega)]; exact h _ (List.getElem_mem _)
    have step (t : List Byte) (rc' : Byte) (hl : t.length = 4) :
        (aesExpand nk k (i + 1) rc' (xorBytes (w.getD (nk - 1) []) t :: w)).length = w.length + (k + 1)
        ∧ ∀ x ∈ aesExpand nk k (i + 1) rc' (xorBytes (w.getD (nk - 1) []) t :: w), x.length = 4 := by
      have := aesExpand_words nk hn k (i + 1) rc' (xorBytes (w.getD (nk - 1) []) t :: w) (by simp; omega) (by
        intro x hx
        rcases List.mem_cons.1 hx with rfl | hx
        · rw [length_xorBytes, hg, hl]; rfl
        · exact h x hx)
      exact ⟨by rw [this.1]; simp; omega, this.2⟩
    rw [aesExpand]
    split
    rename_i t rc' e
    refine step t rc' ?_
    split at e
    · cases e; rw [length_xorBytes]; simp only [List.length_map, List.length_append, List.length_drop, List.length_take, ht]; rfl
    · split at e <;> cases e
      · rw [List.length_map, ht]
      · exact ht

/-- A key of `nk` words gives `nk` + 7 round keys of 16 bytes each. -/
theorem keysOk_of {key : List Byte} {nk : Nat} (hn : 0 < nk) (h : key.length = 4 * nk) : KeysOk key := by
  have hb : blocksOf 4 key = chunks 4 nk key := blocksOf_mul (by decide) h
  have hw : ∀ x ∈ (blocksOf 4 key).reverse, x.length = 4 := by
    rw [hb]
    intro x hx
    exact chunk_length h x (List.mem_reverse.1 hx)
  have hl : (blocksOf 4 key).reverse.length = nk := by rw [hb, List.length_reverse, length_chunks]
  have g := aesExpand_words nk hn (4 * (nk + 7) - nk) nk 1 _ (by omega) hw
  have e : aesKeys key = blocksOf 16 (aesExpand nk (4 * (nk + 7) - nk) nk 1 (blocksOf 4 key).reverse).reverse.flatten := by
    unfold aesKeys; rw [h, Nat.mul_div_cancel_left _ (by decide)]
  have f : (aesExpand nk (4 * (nk + 7) - nk) nk 1 (blocksOf 4 key).reverse).reverse.flatten.length = 16 * (nk + 7) := by
    rw [length_flatten_of fun b hb => g.2 b (List.mem_reverse.1 hb), List.length_reverse, g.1, hl]; omega
  rw [blocksOf_mul (by decide) f] at e
  have len : (aesKeys key).length = nk + 7 := by rw [e, length_chunks]
  have all : ∀ k ∈ aesKeys key, k.length = 16 := by rw [e]; exact chunk_length f
  match hk : aesKeys key with
  | [] => rw [hk] at len; simp at len
  | a :: l =>
    have hn : l ≠ [] := by rintro rfl; rw [hk] at len; simp at len
    exact ⟨a, l.dropLast, l.getLast hn, by rw [List.dropLast_concat_getLast hn, hk], all⟩
theorem keysOk_32 {key : List Byte} (h : key.length = 32) : KeysOk key := keysOk_of (nk := 8) (by decide) h

/-! ## Key wrap -/

/-- A pass of the unwrapping over a list cut in two. -/
theorem kwUnpass_append (d : List Byte → List Byte) : ∀ (t : Nat) (a : List Byte) (xs ys : List (List Byte)),
    kwUnpass d t a (xs ++ ys) =
      ((kwUnpass d (t - xs.length) (kwUnpass d t a xs).1 ys).1, (kwUnpass d t a xs).2 ++ (kwUnpass d (t - xs.length) (kwUnpass d t a xs).1 ys).2)
  | t, a, [], ys => by simp [kwUnpass]
  | t, a, x :: xs, ys => by
    simp only [List.cons_append, kwUnpass, kwUnpass_append d (t - 1) _ xs ys, List.length_cons]
    rw [show t - 1 - xs.length = t - (xs.length + 1) by omega]

/-- Blocks of 8 bytes, under a cipher that keeps 16 bytes 16. -/
theorem kwPass_ok {e : List Byte → List Byte} (he : ∀ s, (e s).length = 16) : ∀ (t : Nat) (a : List Byte) (rs : List (List Byte)), a.length = 8 →
    (∀ r ∈ rs, r.length = 8) → (kwPass e t a rs).1.length = 8 ∧ (kwPass e t a rs).2.length = rs.length ∧ ∀ r ∈ (kwPass e t a rs).2, r.length = 8
  | t, a, [], ha, _ => ⟨ha, rfl, nofun⟩
  | t, a, r :: rs, ha, h => by
    have l1 : (kwStep e t a r).1.length = 8 := by simp [kwStep, length_xorBytes, length_beBytes, he]
    have l2 : (kwStep e t a r).2.length = 8 := by simp [kwStep, he]
    have g := kwPass_ok he (t + 1) (kwStep e t a r).1 rs l1 fun x hx => h x (by simp [hx])
    refine ⟨g.1, by simp [kwPass, g.2.1], ?_⟩
    intro x hx
    rcases List.mem_cons.1 hx with rfl | hx
    · exact l2
    · exact g.2.2 x hx

/-- A pass of the unwrapping undoes one of the wrapping. -/
theorem kwUnpass_kwPass {e d : List Byte → List Byte} (he : ∀ s, (e s).length = 16) (hd : ∀ s, s.length = 16 → d (e s) = s) :
    ∀ (t : Nat) (a : List Byte) (rs : List (List Byte)), a.length = 8 → (∀ r ∈ rs, r.length = 8) →
    kwUnpass d (t + rs.length - 1) (kwPass e t a rs).1 (kwPass e t a rs).2.reverse = (a, rs.reverse)
  | t, a, [], _, _ => rfl
  | t, a, r :: rs, ha, h => by
    have hr : r.length = 8 := h r (by simp)
    have l1 : (kwStep e t a r).1.length = 8 := by simp [kwStep, length_xorBytes, length_beBytes, he]
    have hrs : ∀ x ∈ rs, x.length = 8 := fun x hx => h x (by simp [hx])
    have g := kwUnpass_kwPass he hd (t + 1) (kwStep e t a r).1 rs l1 hrs
    have n := (kwPass_ok he (t + 1) (kwStep e t a r).1 rs l1 hrs).2.1
    have p : kwPass e t a (r :: rs) = ((kwPass e (t + 1) (kwStep e t a r).1 rs).1, (kwStep e t a r).2 :: (kwPass e (t + 1) (kwStep e t a r).1 rs).2) := rfl
    rw [p]
    simp only [List.reverse_cons, kwUnpass_append, List.length_reverse, n, List.length_cons]
    rw [show t + (rs.length + 1) - 1 = t + 1 + rs.length - 1 by omega, g]
    have c : d (xorBytes (kwStep e t a r).1 (beBytes 8 t) ++ (kwStep e t a r).2) = a ++ r := by
      simp only [kwStep]
      rw [xorBytes_cancel (by simp [length_beBytes, Nat.min_le_left]), List.take_append_drop, hd _ (by simp [ha, hr])]
    rw [show t + 1 + rs.length - 1 - rs.length = t by omega]
    simp only [kwUnpass, c, List.take_left' ha, List.drop_left' ha]

/-- The six passes undone. -/
theorem kwUnwrap_kwWrap {e d : List Byte → List Byte} (he : ∀ s, (e s).length = 16) (hd : ∀ s, s.length = 16 → d (e s) = s) {a : List Byte}
    {rs : List (List Byte)} (ha : a.length = 8) (h : ∀ r ∈ rs, r.length = 8) :
    kwUnwrap d (kwWrap e a rs) = (a, rs.flatten) ∧ (kwWrap e a rs).length = 8 + 8 * rs.length := by
  let P (t : Nat) (p : List Byte × List (List Byte)) : List Byte × List (List Byte) := kwPass e (t * rs.length + 1) p.1 p.2
  let ok (p : List Byte × List (List Byte)) : Prop := p.1.length = 8 ∧ p.2.length = rs.length ∧ ∀ r ∈ p.2, r.length = 8
  have hok : ∀ t p, ok p → ok (P t p) := fun t p hp => by
    have g := kwPass_ok he (t * rs.length + 1) p.1 p.2 hp.1 hp.2.2
    exact ⟨g.1, g.2.1.trans hp.2.1, g.2.2⟩
  have k0 : ok (a, rs) := ⟨ha, rfl, h⟩
  have hu : ∀ t p, ok p → (kwUnpass d ((t + 1) * rs.length) (P t p).1 (P t p).2.reverse).1 = p.1
      ∧ (kwUnpass d ((t + 1) * rs.length) (P t p).1 (P t p).2.reverse).2.reverse = p.2 := fun t p hp => by
    have g := kwUnpass_kwPass he hd (t * rs.length + 1) p.1 p.2 hp.1 hp.2.2
    rw [hp.2.1, show t * rs.length + 1 + rs.length - 1 = (t + 1) * rs.length by rw [Nat.succ_mul]; omega] at g
    rw [g]
    simp
  have k1 := hok 0 _ k0
  have k2 := hok 1 _ k1
  have k3 := hok 2 _ k2
  have k4 := hok 3 _ k3
  have k5 := hok 4 _ k4
  have k6 := hok 5 _ k5
  have w : kwWrap e a rs = (P 5 (P 4 (P 3 (P 2 (P 1 (P 0 (a, rs))))))).1 ++ (P 5 (P 4 (P 3 (P 2 (P 1 (P 0 (a, rs))))))).2.flatten := rfl
  generalize hp1 : P 0 (a, rs) = p1 at *
  generalize hp2 : P 1 p1 = p2 at *
  generalize hp3 : P 2 p2 = p3 at *
  generalize hp4 : P 3 p3 = p4 at *
  generalize hp5 : P 4 p4 = p5 at *
  generalize hp6 : P 5 p5 = p6 at *
  have u6 := hp6 ▸ hu 5 p5 k5
  have u5 := hp5 ▸ hu 4 p4 k4
  have u4 := hp4 ▸ hu 3 p3 k3
  have u3 := hp3 ▸ hu 2 p2 k2
  have u2 := hp2 ▸ hu 1 p1 k1
  have u1 := hp1 ▸ hu 0 (a, rs) k0
  have b : blocksOf 8 (kwWrap e a rs) = p6.1 :: p6.2 := by
    rw [w, show p6.1 ++ p6.2.flatten = (p6.1 :: p6.2).flatten from rfl]
    exact blocksOf_flatten (by decide) fun x hx => by
      rcases List.mem_cons.1 hx with rfl | hx
      · exact k6.1
      · exact k6.2.2 x hx
  refine ⟨?_, by rw [w, List.length_append, k6.1, length_flatten_of k6.2.2, k6.2.1]⟩
  unfold kwUnwrap
  simp only [b, List.tail_cons, List.headD_cons, k6.2.1, List.range, List.range.loop, List.reverse_cons, List.reverse_nil, List.nil_append, List.cons_append,
    List.foldl_cons, List.foldl_nil, u6.1, u6.2, u5.1, u5.2, u4.1, u4.2, u3.1, u3.2, u2.1, u2.2, u1.1, u1.2]

theorem kwp_ok {key p : List Byte} (hk : KeysOk key) (h1 : 8 < p.length) (h2 : p.length < 2 ^ 32) :
    kwpUnwrap key (kwpWrap key p) = some p ∧ (kwpWrap key p).length = (p.length + 7) / 8 * 8 + 8 := by
  have hl : (padTo ((p.length + 7) / 8 * 8) p).length = 8 * ((p.length + 7) / 8) := by simp [padTo]; omega
  have g := kwUnwrap_kwWrap (e := aesEnc key) (d := aesDec key) (fun _ => length_aesEnc hk) (fun _ hs => aesDec_aesEnc hk hs)
    (a := [0xA6, 0x59, 0x59, 0xA6] ++ beBytes 4 p.length) (rs := chunks 8 ((p.length + 7) / 8) (padTo ((p.length + 7) / 8 * 8) p))
    (by simp [length_beBytes]) (chunk_length hl)
  rw [flatten_chunks hl, length_chunks] at g
  have w : kwpWrap key p = kwWrap (aesEnc key) ([0xA6, 0x59, 0x59, 0xA6] ++ beBytes 4 p.length)
      (chunks 8 ((p.length + 7) / 8) (padTo ((p.length + 7) / 8 * 8) p)) := by
    unfold kwpWrap
    rw [if_neg (by rw [hl]; omega), blocksOf_mul (by decide) hl]
  have n : beNat (([0xA6, 0x59, 0x59, 0xA6] ++ beBytes 4 p.length).drop 4) = p.length := beNat_beBytes (n := 4) (by omega)
  refine ⟨?_, by rw [w, g.2]; omega⟩
  have u : kwpUnwrap key (kwpWrap key p) = (let aq := kwUnwrap (aesDec key) (kwpWrap key p)
      let n := beNat (aq.1.drop 4)
      if aq.1.take 4 = [0xA6, 0x59, 0x59, 0xA6] && aq.2.length < n + 8 && n ≤ aq.2.length && (aq.2.drop n).all (· = 0) then some (aq.2.take n) else none) := by
    unfold kwpUnwrap
    rw [if_neg (by rw [w, g.2]; omega)]
  rw [u, w, g.1]
  simp only [n]
  have z : ((padTo ((p.length + 7) / 8 * 8) p).drop p.length).all (· = 0) = true := by simp [padTo]
  have t : (padTo ((p.length + 7) / 8 * 8) p).take p.length = p := by simp [padTo]
  rw [z, t, if_pos]
  simp [hl]
  omega

/-! ## Records -/

theorem length_cmac {key : List Byte} (hk : KeysOk key) (msg : List Byte) : (cmac (aesEnc key) 16 msg).length = 16 := by
  simp only [cmac, List.foldl_append, List.foldl_cons, List.foldl_nil, length_aesEnc hk]
theorem length_kdf_32 {prf : List Byte → List Byte} (h : ∀ m, (prf m).length = 16) (input : List Byte) : (kdfCounter prf input 32).length = 32 := by
  simp [kdfCounter, h, List.range, List.range.loop]
theorem keysOk_record {bmk : List Byte} (h : bmk.length = 32) (epoch : Nat) : KeysOk (recordKey bmk epoch) :=
  keysOk_32 (length_kdf_32 (fun _ => length_cmac (keysOk_32 h) _) _)

/-- A record that the device writes under a bench master key: its length; and under that key and epoch it opens to class, header and
value (R429 to R431). -/
theorem length_makeRecord {bmk : List Byte} (hb : bmk.length = 32) (epoch cls : Nat) {header value : List Byte} (hh : header.length = 32)
    (hv : value.length ≤ 2016) : (makeRecord bmk epoch cls header value).length = recordLen value.length := by
  have hc : (checkValue bmk).length = 5 := by simp [checkValue, length_cmac (keysOk_32 hb)]
  have hd : (recordHead (recordLen value.length) epoch cls bmk header).length = 48 := by
    simp [recordHead, length_leBytes, hc, hh, zeros]
  have g := kwp_ok (keysOk_record hb epoch) (p := recordHead (recordLen value.length) epoch cls bmk header ++ value)
    (by simp [hd]; omega) (by simp [hd]; omega)
  have e : (makeRecord bmk epoch cls header value).length = max (recordLen value.length) (48 + recordW value.length) := by
    rw [makeRecord, padTo, List.length_append, List.length_replicate, List.length_append, g.2, hd, List.length_append, hd]
    simp only [recordW]
    omega
  rw [e, recordLen]
  omega
theorem openRecord_makeRecord {B : Bench} {bmk : List Byte} (hb : bmk.length = 32) (hB : B.vault.current = some bmk) {cls : Nat} {header value : List Byte}
    (hc : classDefined cls = true) (hc' : cls < 256) (hh : header.length = 32) (hn : hdrLength header = value.length) (h1 : 1 ≤ value.length)
    (h2 : value.length ≤ 2016) : B.openRecord (makeRecord bmk B.ctl.epoch.toNat cls header value) = .ok (cls, header, value, false) := by
  have hk : (checkValue bmk).length = 5 := by simp [checkValue, length_cmac (keysOk_32 hb)]
  have len := length_makeRecord hb B.ctl.epoch.toNat cls hh h2
  generalize hH : recordHead (recordLen value.length) B.ctl.epoch.toNat cls bmk header = H
  have hd : H.length = 48 := by simp [← hH, recordHead, length_leBytes, hk, hh, zeros]
  have g := kwp_ok (keysOk_record hb B.ctl.epoch.toNat) (p := H ++ value) (by simp [hd]; omega) (by simp [hd]; omega)
  have hw : (kwpWrap (recordKey bmk B.ctl.epoch.toNat) (H ++ value)).length = recordW value.length := by
    rw [g.2]; simp [hd, recordW]
  obtain ⟨T, hr⟩ : ∃ T, makeRecord bmk B.ctl.epoch.toNat cls header value = H ++ (kwpWrap (recordKey bmk B.ctl.epoch.toNat) (H ++ value) ++ T) :=
    ⟨List.replicate _ 0, by rw [makeRecord, hH, padTo, List.append_assoc]⟩
  have hrl : recordLen value.length < 65536 ∧ 144 ≤ recordLen value.length ∧ recordLen value.length ≤ 2128 ∧ recordLen value.length % 16 = 0 := by
    simp only [recordLen, recordW]; omega
  generalize hR : makeRecord bmk B.ctl.epoch.toNat cls header value = R at *
  obtain ⟨c, hc4⟩ : ∃ c, (checkValue bmk).take 4 = c := ⟨_, rfl⟩
  have lc : c.length = 4 := by simp [← hc4, hk]
  have hH' : H = leBytes 2 1 ++ (leBytes 2 (recordLen value.length) ++ ([BitVec.ofNat 8 B.ctl.epoch.toNat] ++ ([BitVec.ofNat 8 cls] ++ ([0, 0] ++ (c
      ++ (zeros 4 ++ header)))))) := by rw [← hH, ← hc4, recordHead]; simp
  have at_ {l : List Byte} {n : Nat} (m : Nat) (p t : List Byte) (h : R = p ++ (l ++ t)) (hp : p.length = m) (hl : l.length = n) : (R.drop m).take n = l := by
    rw [h, List.drop_left' hp, List.take_left' hl]
  have t0 : R.take 2 = leBytes 2 1 := at_ 0 [] _ (by rw [hr, hH']; simp only [List.append_assoc, List.nil_append]; rfl) rfl rfl
  have t2 : (R.drop 2).take 2 = leBytes 2 (recordLen value.length) :=
    at_ 2 (leBytes 2 1) _ (by rw [hr, hH']; simp only [List.append_assoc]; rfl) rfl rfl
  have t4 : R.getD 4 0 = BitVec.ofNat 8 B.ctl.epoch.toNat := by rw [hr, hH']; simp [leBytes]
  have t5 : R.getD 5 0 = BitVec.ofNat 8 cls := by rw [hr, hH']; simp [leBytes]
  have t8 : (R.drop 8).take 4 = c := at_ 8
    (leBytes 2 1 ++ leBytes 2 (recordLen value.length) ++ [BitVec.ofNat 8 B.ctl.epoch.toNat] ++ [BitVec.ofNat 8 cls] ++ [0, 0]) _
    (by rw [hr, hH']; simp only [List.append_assoc]; rfl) rfl lc
  have t16 : (R.drop 16).take 32 = header := at_ 16
    (leBytes 2 1 ++ leBytes 2 (recordLen value.length) ++ [BitVec.ofNat 8 B.ctl.epoch.toNat] ++ [BitVec.ofNat 8 cls] ++ [0, 0] ++ c ++ zeros 4) _
    (by rw [hr, hH']; simp only [List.append_assoc]; rfl) (by simp [length_leBytes, lc, zeros]) hh
  have t48 : (R.drop 48).take (recordW value.length) = kwpWrap (recordKey bmk B.ctl.epoch.toNat) (H ++ value) := at_ 48 H T hr hd hw
  have tH : R.take 48 = H := by rw [hr, List.take_left' hd]
  have e0 : (BitVec.ofNat 8 B.ctl.epoch.toNat).toNat = B.ctl.epoch.toNat := by have := B.ctl.epoch.isLt; simp; omega
  have e1 : (BitVec.ofNat 8 cls).toNat = cls := by simp; omega
  have e2 : leNat (leBytes 2 (recordLen value.length)) = recordLen value.length := leNat_leBytes 2 _ (by omega)
  unfold Bench.openRecord
  rw [hB]
  simp only [t0, t2, t4, t5, t8, t16, hn, e0, e1, e2, hc4, t48, tH, len, hc]
  rw [if_neg (by have : value ≠ [] := by rintro rfl; simp at h1
                 simp [leNat, leBytes, this]; omega), if_neg (by simp)]
  simp only [if_true, g.1]
  rw [if_pos (by simp [hd, List.take_left' hd])]
  simp [List.drop_left' hd]

/-! ## Key blocks -/

theorem hexBytes_toHex : ∀ l : List Byte, hexBytes (toHex l) = some l
  | [] => rfl
  | b :: l => by
    have d : ∀ n : Fin 256, hexDigit (BitVec.ofNat 8 (if n.val / 16 < 10 then 0x30 + n.val / 16 else 0x37 + n.val / 16)) = some (n.val / 16)
        ∧ hexDigit (BitVec.ofNat 8 (if n.val % 16 < 10 then 0x30 + n.val % 16 else 0x37 + n.val % 16)) = some (n.val % 16) := by decide +kernel
    have g := d ⟨b.toNat, b.isLt⟩
    have t : toHex (b :: l) = BitVec.ofNat 8 (if b.toNat / 16 < 10 then 0x30 + b.toNat / 16 else 0x37 + b.toNat / 16)
        :: BitVec.ofNat 8 (if b.toNat % 16 < 10 then 0x30 + b.toNat % 16 else 0x37 + b.toNat % 16) :: toHex l := rfl
    rw [t, hexBytes, hexBytes_toHex l, g.1, g.2]
    simp only [Option.some.injEq, List.cons.injEq, and_true]
    rw [show b.toNat / 16 * 16 + b.toNat % 16 = b.toNat by omega, BitVec.ofNat_toNat, BitVec.setWidth_eq]
theorem length_toHex : ∀ l : List Byte, (toHex l).length = 2 * l.length
  | [] => rfl
  | b :: l => by
    have : toHex (b :: l) = [b.toNat / 16, b.toNat % 16].map (fun n => BitVec.ofNat 8 (if n < 10 then 0x30 + n else 0x37 + n)) ++ toHex l := rfl
    rw [this, List.length_append, length_toHex l]; simp; omega

/-- CBC undone, block by block. -/
theorem cbc_ok {key : List Byte} (hk : KeysOk key) : ∀ {iv : List Byte} {bs : List (List Byte)}, iv.length = 16 → (∀ b ∈ bs, b.length = 16) →
    (cbcEnc (aesEnc key) iv bs).length = 16 * bs.length
    ∧ cbcDec (aesDec key) iv (chunks 16 bs.length (cbcEnc (aesEnc key) iv bs)) = bs.flatten
  | _, [], _, _ => ⟨rfl, rfl⟩
  | iv, b :: bs, hi, h => by
    have hb := h b (by simp)
    have hx : (xorBytes b iv).length = 16 := by rw [length_xorBytes, hb, hi]; rfl
    have he := length_aesEnc hk (s := xorBytes b iv)
    have g := cbc_ok hk (iv := aesEnc key (xorBytes b iv)) (bs := bs) he fun x hx => h x (by simp [hx])
    have e : cbcEnc (aesEnc key) iv (b :: bs) = aesEnc key (xorBytes b iv) ++ cbcEnc (aesEnc key) (aesEnc key (xorBytes b iv)) bs := rfl
    refine ⟨by rw [e, List.length_append, he, g.1, List.length_cons]; omega, ?_⟩
    rw [e, List.length_cons, chunks, List.take_left' he, List.drop_left' he]
    show xorBytes (aesDec key (aesEnc key (xorBytes b iv))) iv ++ cbcDec (aesDec key) (aesEnc key (xorBytes b iv)) _ = _
    rw [aesDec_aesEnc hk hx, xorBytes_cancel (by omega), g.2, List.flatten_cons]

theorem length_kbDerive {k : List Byte} {nk : Nat} (hn : 0 < nk) (hn' : nk ≤ 16) (hk : k.length = 4 * nk) (use : Nat) :
    (kbDerive true k use).length = 4 * nk := by
  simp only [kbDerive, if_true, List.range, List.range.loop, List.flatMap_cons, List.flatMap_nil, List.length_take, List.length_append, length_cmac (keysOk_of hn hk)]
  simp; omega

/-- A key block of the AES method made as EXPORT makes it opens to its header and the key it holds (R453, R454). -/
theorem openBlock_ok {k head plain : List Byte} {nk m : Nat} (hn : 0 < nk) (hn' : nk ≤ 16) (hk : k.length = 4 * nk) (hm : 0 < m)
    (hp : plain.length = 16 * m) (hh : head.length = 16) (hv : head.headD 0 = 0x44) (hl : decDigits ((head.drop 1).take 4) = some (48 + 32 * m))
    (ho : decDigits ((head.drop 12).take 2) = some 0) (hc : 2 + beNat (plain.take 2) / 8 ≤ plain.length) :
    let mac := cmac (aesEnc (kbDerive true k 1)) 16 (head ++ plain)
    openBlock true k (head ++ (toHex (cbcEnc (aesEnc (kbDerive true k 0)) mac (blocksOf 16 plain)) ++ toHex mac))
      = .ok (head, (plain.drop 2).take (beNat (plain.take 2) / 8)) := by
  intro mac
  have k0 : KeysOk (kbDerive true k 0) := keysOk_of hn (length_kbDerive hn hn' hk 0)
  have k1 : KeysOk (kbDerive true k 1) := keysOk_of hn (length_kbDerive hn hn' hk 1)
  have lm : mac.length = 16 := length_cmac k1 _
  have bl : blocksOf 16 plain = chunks 16 m plain := blocksOf_mul (by decide) hp
  have g := cbc_ok k0 lm (bs := blocksOf 16 plain) (by rw [bl]; exact chunk_length hp)
  rw [bl, length_chunks, flatten_chunks hp] at g
  rw [bl]
  generalize hct : cbcEnc (aesEnc (kbDerive true k 0)) mac (chunks 16 m plain) = ct at g
  have lct : ct.length = 16 * m := g.1
  have bct : blocksOf 16 ct = chunks 16 m ct := blocksOf_mul (by decide) lct
  generalize hX : toHex ct ++ toHex mac = X
  have lX : X.length = 32 * m + 32 := by rw [← hX, List.length_append, length_toHex, length_toHex, lm, lct]; omega
  have d1 : ((head ++ X).drop 1).take 4 = (head.drop 1).take 4 := by
    rw [List.drop_append_of_le_length (by omega), List.take_append_of_le_length (by simp; omega)]
  have d12 : ((head ++ X).drop 12).take 2 = (head.drop 12).take 2 := by
    rw [List.drop_append_of_le_length (by omega), List.take_append_of_le_length (by simp; omega)]
  have d16 : (head ++ X).drop 16 = X := List.drop_left' hh
  have hv' : (head ++ X).headD 0 = 0x44 := by
    cases head with
    | nil => simp at hh
    | cons a t => exact hv
  have lb : (head ++ X).length = 48 + 32 * m := by rw [List.length_append, hh, lX]; omega
  have t1 : X.take (X.length - 32) = toHex ct := by rw [← hX]; exact List.take_left' (by simp [length_toHex, lm])
  have t2 : X.drop (X.length - 32) = toHex mac := by rw [← hX]; exact List.drop_left' (by simp [length_toHex, lm])
  have th : (head ++ X).take 16 = head := List.take_left' hh
  unfold openBlock
  simp only [if_true, d1, d12, hl, ho, d16, hv', lb, skipOptional, Nat.reduceMul, t1, t2, hexBytes_toHex]
  have ne : ct ≠ [] := by rintro rfl; simp at lct; omega
  rw [if_neg (by simp), if_neg (by rw [lX]; simp [lct, ne]; omega)]
  have th' : (head ++ X).take (48 + 32 * m - X.length) = head := by rw [lX, show 48 + 32 * m - (32 * m + 32) = 16 by omega, th]
  rw [bct, g.2, th', if_neg (by simp [mac]), if_neg (by omega), th]

end Sys2Proof.Machine
end

