-- ==== Sys2Proof/Laws/MemKept.lean ====
section
/-!
SUPPORT. Laws/MemKept.lean: resets and sweeps keep the canonical form of memory, and the machine starts with it.
-/

namespace Sys2Proof.Machine

theorem Mem.wf_zero : Mem.zero.wf = true := rfl

theorem Mem.wf_reset {m : Mem} (h : m.wf = true) : m.reset.wf = true := by
  rw [Mem.wf_iff] at h ⊢
  exact ⟨h.1, rfl, h.2.2.1, rfl⟩

theorem Mem.wf_dramLost {m : Mem} (h : m.wf = true) : m.dramLost.wf = true := by
  rw [Mem.wf_iff] at h ⊢
  refine ⟨?_, h.2.1, setWf_filter h.2.2.1, h.2.2.2⟩
  have hb := (Table.wf_iff 0 m.bytes).mp h.1
  exact (Table.wf_iff 0 _).mpr ⟨hb.1.filter _, fun e he => hb.2 e (List.mem_filter.mp he).1⟩

/-- What keeps the canonical form at each step of a list keeps it over the list. -/
theorem Bench.foldl_mem_wf {α : Type} {f : Bench → α → Bench} (hf : ∀ (B : Bench) (a : α), B.mem.wf = true → (f B a).mem.wf = true)
    (l : List α) : ∀ {B : Bench}, B.mem.wf = true → (l.foldl f B).mem.wf = true := by
  induction l with
  | nil => exact fun h => h
  | cons a l ih => exact fun h => ih (hf _ a h)

theorem Bench.mem_rakeTagRead_wf {B : Bench} (h : B.mem.wf = true) (f : Nat → Bool) : (B.rakeTagRead f).mem.wf = true :=
  Bench.foldl_mem_wf (fun _ t k => Bench.tagError_mem_wf k t) _ (Bench.foldl_mem_wf (fun _ t k => Bench.correctTag_mem_wf k t) _ h)

theorem Bench.mem_rakeRead_wf {B : Bench} (h : B.mem.wf = true) (ls : List Nat) : (B.rakeRead ls).mem.wf = true :=
  Bench.foldl_mem_wf (fun _ _ k => Bench.checkLine_mem_wf k ..) _ h

theorem Bench.mem_sweepMemory_wf {B : Bench} (h : B.mem.wf = true) (f page : Nat → Bool) : (B.sweepMemory f page).mem.wf = true := by
  have k := (Mem.wf_iff _).mp (Bench.mem_rakeRead_wf
    (Bench.mem_rakeTagRead_wf h fun l => f l && B.mem.summary.contains (l / 64))
    ((((B.rakeTagRead fun l => f l && B.mem.summary.contains (l / 64)).mem.tags.map (· / 4)).filter f).eraseDups))
  exact (Mem.wf_iff _).mpr ⟨k.1, setWf_filter k.2.1, k.2.2.1, setWf_filter k.2.2.2⟩

theorem Bench.mem_tagClear_wf {B : Bench} (h : B.mem.wf = true) (f page : Nat → Bool) : (B.tagClear f page).mem.wf = true := by
  have k := (Mem.wf_iff _).mp h
  exact (Mem.wf_iff _).mpr ⟨k.1, setWf_filter k.2.1, k.2.2.1, setWf_filter k.2.2.2⟩

/-- Every bench starts with memory in canonical form: nothing is listed. -/
theorem State.mem_reset_wf (b : BenchNo) : (State.reset.benches[b]).mem.wf = true := by
  simp only [State.reset, Fin.getElem_fin, Vector.getElem_ofFn]
  rfl

end Sys2Proof.Machine
end

