-- ==== Sys2Proof/Laws/SaveArea.lean ====
section
/-!
SUPPORT. Laws/SaveArea.lean: what a save and a load of half a bank do with a save area that is plain memory, said once (R208, R290 to R294).
-/

namespace Sys2Proof.Machine

/-- A computation of an instruction whose first part succeeds goes on from there. -/
theorem M.bind_ok {α β : Type} {x : M α} {f : α → M β} {B C : Bench} {a : α} (h : x B = .ok a C) : (x >>= f) B = f a C := by
  simp only [bind, EStateM.bind, h]

/-! ## Granules in memory -/

theorem length_granules (l : List Cap) : (l.flatMap fun c => leBytes 16 c.bits.toNat).length = 16 * l.length := by
  induction l with
  | nil => rfl
  | cons c t ih =>
    rw [List.flatMap_cons, List.length_append, ih, List.length_cons]
    simp [leBytes]
    omega

/-- Memory without a granule more. -/
theorem Mem.savedAt_nil (m : Mem) (a : Nat) : m.savedAt m a [] := by
  refine ⟨fun i => ?_, fun g => ?_, fun p => ?_, rfl⟩
  · rw [if_neg (by simp)]
  · rw [if_neg (by simp)]
  · simp [Cap.null]

/-- Two adjoining runs of granules, in either order, are one. -/
theorem Mem.savedAt_join {m m1 m2 : Mem} {a : Nat} {l r : List Cap} (ha : a % 16 = 0)
    (h : (m.savedAt m1 a l ∧ m1.savedAt m2 (a + 16 * l.length) r) ∨ (m.savedAt m1 (a + 16 * l.length) r ∧ m1.savedAt m2 a l)) :
    m.savedAt m2 a (l ++ r) := by
  have hd : (a + 16 * l.length) / 16 = a / 16 + l.length := by omega
  have hl := length_granules l
  have byteL : ∀ i, a ≤ i → i < a + 16 * l.length →
      ((l ++ r).flatMap fun c => leBytes 16 c.bits.toNat).getD (i - a) 0 = (l.flatMap fun c => leBytes 16 c.bits.toNat).getD (i - a) 0 := by
    intro i h1 h2
    rw [List.flatMap_append, List.getD_eq_getElem?_getD, List.getD_eq_getElem?_getD, List.getElem?_append_left (by omega)]
  have byteR : ∀ i, a + 16 * l.length ≤ i →
      ((l ++ r).flatMap fun c => leBytes 16 c.bits.toNat).getD (i - a) 0
        = (r.flatMap fun c => leBytes 16 c.bits.toNat).getD (i - (a + 16 * l.length)) 0 := by
    intro i h1
    rw [List.flatMap_append, List.getD_eq_getElem?_getD, List.getD_eq_getElem?_getD, List.getElem?_append_right (by omega), hl]
    congr 2; omega
  have tagL : ∀ g, g < l.length → (l ++ r).getD g Cap.null = l.getD g Cap.null := by
    intro g h1
    rw [List.getD_eq_getElem?_getD, List.getD_eq_getElem?_getD, List.getElem?_append_left h1]
  have tagR : ∀ g, l.length ≤ g → (l ++ r).getD g Cap.null = r.getD (g - l.length) Cap.null := by
    intro g h1
    rw [List.getD_eq_getElem?_getD, List.getD_eq_getElem?_getD, List.getElem?_append_right h1]
  have sum : ∀ p, (∃ i, ((l ++ r).getD i Cap.null).tag = true ∧ (a / 16 + i) / 256 = p)
      ↔ (∃ i, (l.getD i Cap.null).tag = true ∧ (a / 16 + i) / 256 = p)
        ∨ ∃ i, (r.getD i Cap.null).tag = true ∧ (a / 16 + l.length + i) / 256 = p := by
    intro p
    constructor
    · rintro ⟨i, h1, h2⟩
      by_cases hi : i < l.length
      · rw [tagL i hi] at h1; exact .inl ⟨i, h1, h2⟩
      · rw [tagR i (by omega)] at h1; exact .inr ⟨i - l.length, h1, by rw [← h2]; congr 1; omega⟩
    · rintro (⟨i, h1, h2⟩ | ⟨i, h1, h2⟩)
      · have hi : i < l.length := by
          rcases Nat.lt_or_ge i l.length with h | h
          · exact h
          · rw [List.getD_eq_getElem?_getD, List.getElem?_eq_none h] at h1; simp [Cap.null] at h1
        exact ⟨i, by rw [tagL i hi]; exact h1, h2⟩
      · exact ⟨l.length + i, by rw [tagR _ (by omega), Nat.add_sub_cancel_left]; exact h1, by rw [← h2]; congr 1; omega⟩
  have len : (l ++ r).length = l.length + r.length := List.length_append
  rcases h with ⟨h1, h2⟩ | ⟨h1, h2⟩ <;> refine ⟨fun i => ?_, fun g => ?_, fun p => ?_, ?_⟩
  · rw [h2.1 i, h1.1 i, len]
    by_cases hi : a + 16 * l.length ≤ i ∧ i < a + 16 * l.length + 16 * r.length
    · rw [if_pos hi, if_pos (by omega), byteR i hi.1]
    · rw [if_neg hi]
      by_cases hj : a ≤ i ∧ i < a + 16 * l.length
      · rw [if_pos hj, if_pos (by omega), byteL i hj.1 hj.2]
      · rw [if_neg hj, if_neg (by omega)]
  · rw [h2.2.1 g, h1.2.1 g, hd, len]
    by_cases hi : a / 16 + l.length ≤ g ∧ g < a / 16 + l.length + r.length
    · rw [if_pos hi, if_pos (by omega), tagR _ (by omega)]; congr 2; omega
    · rw [if_neg hi]
      by_cases hj : a / 16 ≤ g ∧ g < a / 16 + l.length
      · rw [if_pos hj, if_pos (by omega), tagL _ (by omega)]
      · rw [if_neg hj, if_neg (by omega)]
  · rw [h2.2.2.1 p, h1.2.2.1 p, hd, sum p, or_assoc]
  · rw [h2.2.2.2, h1.2.2.2]
  · rw [h2.1 i, h1.1 i, len]
    by_cases hj : a ≤ i ∧ i < a + 16 * l.length
    · rw [if_pos hj, if_pos (by omega), byteL i hj.1 hj.2]
    · rw [if_neg hj]
      by_cases hi : a + 16 * l.length ≤ i ∧ i < a + 16 * l.length + 16 * r.length
      · rw [if_pos hi, if_pos (by omega), byteR i hi.1]
      · rw [if_neg hi, if_neg (by omega)]
  · rw [h2.2.1 g, h1.2.1 g, hd, len]
    by_cases hj : a / 16 ≤ g ∧ g < a / 16 + l.length
    · rw [if_pos hj, if_pos (by omega), tagL _ (by omega)]
    · rw [if_neg hj]
      by_cases hi : a / 16 + l.length ≤ g ∧ g < a / 16 + l.length + r.length
      · rw [if_pos hi, if_pos (by omega), tagR _ (by omega)]; congr 2; omega
      · rw [if_neg hi, if_neg (by omega)]
  · rw [h2.2.2.1 p, h1.2.2.1 p, hd, sum p, or_assoc]
    exact or_congr_right or_comm
  · rw [h2.2.2.2, h1.2.2.2]

/-- What a save of granules keeps of the memory's form. -/
theorem Bench.plainFor_withMem {B : Bench} {m : Mem} {mid a n : Nat} {need : Right}
    (hm : m = { B.mem with bytes := m.bytes, tags := m.tags, summary := m.summary }) (h : B.plainFor mid a n need) :
    (B.withMem m).plainFor mid a n need := by
  intro i h1 h2
  obtain ⟨g1, g2, g3, g4, g5, g6, g7⟩ := h i h1 h2
  rw [hm]
  exact ⟨g1, g2, g3, g4, g5, g6, g7⟩

/-- A granule written to plain memory, tag and all. -/
theorem writeGranule_plain {B : Bench} {mid : Nat} {org : Word} {a : Nat} {c : Cap} (hw : B.mem.wf = true) (ha : a % 16 = 0)
    (h : B.plainFor mid a 16 .w) (ht : B.mafTagw mid a = true) :
    ∃ m, B.mem.savedAt m a [c] ∧ B.writeGranule mid org a c = B.withMem m ∧ m.wf = true := by
  obtain ⟨h0, h1, h2, h3, h4, h5, h6⟩ := h a (Nat.le_refl a) (by omega)
  have hl : (leBytes 16 c.bits.toNat).length = 16 := by simp [leBytes]
  have hcov : ((B.mem.write a (leBytes 16 c.bits.toNat)).clearTags a 16).cover mid a 16
      = (B.mem.write a (leBytes 16 c.bits.toNat)).clearTags a 16 := by
    have : ((B.mem.write a (leBytes 16 c.bits.toNat)).clearTags a 16).poison = B.mem.poison := by
      unfold Mem.clearTags
      rw [Mem.write_rest]
      split <;> rfl
    unfold Mem.cover
    simp [this, h2]
  have hn : B.writeNormal mid org a (leBytes 16 c.bits.toNat)
      = B.withMem ((B.mem.write a (leBytes 16 c.bits.toNat)).clearTags a 16) := by
    simp [Bench.writeNormal, hl, Bench.checkLine_intact h2 h3 h4 h5 h6, hcov, Bench.withMem]
  have st := Mem.storedAt_write hw a (leBytes 16 c.bits.toNat) (by omega)
  rw [hl] at st
  have hwf : ((B.mem.write a (leBytes 16 c.bits.toNat)).clearTags a 16).wf = true := Mem.wf_clearTags (Mem.wf_write hw _ _) _ _
  generalize (B.mem.write a (leBytes 16 c.bits.toNat)).clearTags a 16 = m at st hn hwf
  obtain ⟨s1, s2, s3⟩ := st
  rw [hl] at s1 s2
  have eb : ([c].flatMap fun c => leBytes 16 c.bits.toNat) = leBytes 16 c.bits.toNat := by simp
  have ed : (a + 16 - 1) / 16 = a / 16 := by omega
  cases hc : c.tag with
  | false =>
    refine ⟨m, ⟨fun i => ?_, fun g => ?_, fun p => ?_, ?_⟩, ?_, hwf⟩
    · rw [s1 i, eb]; rfl
    · rw [s2 g, ed]
      by_cases hg : g = a / 16
      · subst hg; simp [hc]
      · have : ¬ (a / 16 ≤ g ∧ g ≤ a / 16) := by omega
        have : ¬ (a / 16 ≤ g ∧ g < a / 16 + 1) := by omega
        simp [*]
    · rw [s3]
      constructor
      · exact .inl
      · rintro (h | ⟨i, h, -⟩)
        · exact h
        · cases i <;> simp [hc, Cap.null] at h
    · rw [s3]
    · simp [Bench.writeGranule, hc, Bench.writePart, h1, h0, hn]
  | true =>
    refine ⟨m.setTag (a / 16), ⟨fun i => ?_, fun g => ?_, fun p => ?_, ?_⟩, ?_, Mem.wf_setTag hwf _⟩
    · show m.byte i = _
      rw [s1 i, eb]; rfl
    · rw [Mem.tag_setTag, s2 g, ed]
      by_cases hg : g = a / 16
      · subst hg; simp [hc]
      · have : ¬ (a / 16 ≤ g ∧ g ≤ a / 16) := by omega
        have : ¬ (a / 16 ≤ g ∧ g < a / 16 + 1) := by omega
        simp [*]
    · show p ∈ setInsert m.summary (a / 16 / 256) ↔ _
      rw [mem_setInsert, show m.summary = B.mem.summary by rw [s3]]
      constructor
      · rintro (h | h)
        · exact .inr ⟨0, by simp [hc], h.symm⟩
        · exact .inl h
      · rintro (h | ⟨i, h, hi⟩)
        · exact .inr h
        · cases i with
          | zero => exact .inl hi.symm
          | succ i => simp [Cap.null] at h
    · show ({ m with tags := _, summary := _ } : Mem) = _
      rw [s3]; rfl
    · have e : ((if (!decide (mid = midRake)) = true then !B.mafTagw mid a else false) = true) = False := by simp [ht]
      simp [Bench.writeGranule, hc, h1, ht, h0, Bench.checkLine_intact h2 h3 h4 h5 h6, hn, Bench.withMem]

/-- Granules written to plain memory one after another. -/
theorem writeGranules_plain {mid : Nat} {org : Word} : ∀ (l : List Cap) {B : Bench} {a : Nat}, B.mem.wf = true → a % 16 = 0 →
    B.plainFor mid a (16 * l.length) .w → (∀ i, a ≤ i → i < a + 16 * l.length → B.mafTagw mid i = true) →
    ∃ m, B.mem.savedAt m a l ∧ B.writeGranules mid org a l = B.withMem m ∧ m.wf = true := by
  intro l
  induction l with
  | nil => intro B a hw _ _ _; exact ⟨B.mem, Mem.savedAt_nil _ _, rfl, hw⟩
  | cons c t ih =>
    intro B a hw ha h ht
    simp only [List.length_cons] at h ht
    obtain ⟨m1, s1, e1, w1⟩ := writeGranule_plain (org := org) (c := c) hw ha (Bench.plainFor_mono h (Nat.le_refl _) (by omega))
      (ht a (Nat.le_refl _) (by omega))
    obtain ⟨m2, s2, e2, w2⟩ := ih (B := B.withMem m1) (a := a + 16) w1 (by omega)
      (Bench.plainFor_mono (Bench.plainFor_withMem s1.2.2.2 h) (by omega) (by omega)) (fun i h1 h2 => ht i (by omega) (by omega))
    refine ⟨m2, Mem.savedAt_join (l := [c]) ha (.inl ⟨s1, s2⟩), ?_, w2⟩
    simp only [Bench.writeGranules, e1, e2]
    rfl

/-! ## Reading a granule -/

theorem readGranule_plain {B : Bench} {mid : Nat} {org : Word} {a : Nat} (h : B.plainFor mid a 16 .r) :
    readGranule mid org a B = .ok (B.mem.capAt a) B := by
  simp [readGranule, Bench.readPart_plain h (by omega), Mem.capAt]

theorem filtered_idle {B : Bench} (h : B.rake.op ≠ some .sweep) (c : Cap) : B.filtered c = c := by
  simp [Bench.filtered, h]

theorem readCap_plain {B : Bench} {mid : Nat} {org : Word} {a : Nat} (hs : B.rake.op ≠ some .sweep) (h : B.plainFor mid a 16 .r) :
    readCap mid org a B = .ok (B.mem.capAt a) B := by
  simp only [readCap, bind, EStateM.bind, readGranule_plain h, M.bench, pure, EStateM.pure, filtered_idle hs]

theorem readGranules_plain {B : Bench} {mid : Nat} {org : Word} (hs : B.rake.op ≠ some .sweep) :
    ∀ (n a : Nat), B.plainFor mid a (16 * n) .r →
      readGranules mid org a n B = .ok ((List.range n).map fun i => B.mem.capAt (a + 16 * i)) B := by
  intro n
  induction n with
  | zero => intros; rfl
  | succ n ih =>
    intro a h
    have h1 : B.plainFor mid a 16 .r := Bench.plainFor_mono h (Nat.le_refl _) (by omega)
    have h2 := ih (a + 16) (Bench.plainFor_mono h (by omega) (by omega))
    simp only [readGranules, bind, EStateM.bind, readCap_plain hs h1, h2, pure, EStateM.pure]
    congr 1
    rw [List.range_succ_eq_map, List.map_cons, List.map_map]
    congr 1
    apply List.map_congr_left
    intro i _
    simp only [Function.comp]
    congr 1; omega

/-- A save area passes the checks of R287 and R288. -/
theorem areaBase_area {B D : Bench} {k : CoreNo} {a : Cap} (h : B.saveArea k a) : areaBase a D = .ok a.base D := by
  obtain ⟨h1, h2, h3, h4, h5, h6, h7, -⟩ := h
  have hp : a.hasAll [permLD, permST, permLDC, permSTC] = true := by simpa [Cap.hasAll] using h6
  have hn := (h7 a.base (Nat.le_refl _) (by omega)).1
  simp [areaBase, h1, h2, h3, h4, h5, hp, hn, pure, EStateM.pure]

/-! ## Saves and loads -/

theorem Bank.length_lowerHalf (s : Bank) : s.lowerHalf.length = 38 := by
  simp [Bank.lowerHalf, Bank.cRange]
theorem Bank.length_upperHalf (s : Bank) : s.upperHalf.length = 38 := by
  simp [Bank.upperHalf, Bank.cRange]

/-- A core that can save a half saves it. -/
theorem saveHalf_plain {B : Bench} {k : CoreNo} {b : BankNo} {upper : Bool} {org : Word} (h : B.canSave k) :
    ∃ C, B.savesHalf k b upper C ∧ saveHalf k b upper org B = .ok () C := by
  obtain ⟨hf, ha, hs, hw⟩ := h
  have hsrc : saveSource k B = .ok (if (B.core k).safree.tag then (B.core k).safree else (B.core k).saemerg, !(B.core k).safree.tag) B := by
    unfold saveSource
    cases ht : (B.core k).safree.tag with
    | true => simp [ht]
    | false =>
      have := hf.resolve_left (by simp [ht])
      simp [ht, this]
  unfold Bench.savesHalf
  dsimp only
  generalize hx : (if (B.core k).safree.tag = true then (B.core k).safree else (B.core k).saemerg) = a at *
  have hbase := areaBase_area (D := B) ha
  obtain ⟨-, -, -, -, h16, -, hr, hwr, htw⟩ := ha
  generalize hh : (if upper = true then (B.bank k b).upperHalf else (B.bank k b).lowerHalf) = half
  have hlen : half.length = 38 := by rw [← hh]; split <;> simp [Bank.length_lowerHalf, Bank.length_upperHalf]
  obtain ⟨m1, s1, e1, w1⟩ := writeGranules_plain (org := org)
    (saveHeader upper (B.bank k b).task (B.origin k b) ((B.core k).saves + 1) :: half) (B := B) (a := a.base + 16) hw (by omega)
    (Bench.plainFor_mono hwr (by omega) (by simp only [List.length_cons, hlen]; omega))
    (fun i h1 h2 => htw i (by omega) (by simp only [List.length_cons, hlen] at h2; omega))
  obtain ⟨m2, s2, e2, w2⟩ := writeGranule_plain (B := B.withMem m1) (org := org) (c := (B.bank k b).sachain) w1 h16
    (Bench.plainFor_mono (Bench.plainFor_withMem s1.2.2.2 hwr) (Nat.le_refl _) (by omega)) (htw _ (Nat.le_refl _) (by omega))
  have s12 := Mem.savedAt_join (l := [(B.bank k b).sachain]) h16 (.inr ⟨by rw [List.length_singleton, Nat.mul_one]; exact s1, s2⟩)
  refine ⟨_, ⟨m2, s12, rfl⟩, ?_⟩
  have hc := readCap_plain (org := org) hs (Bench.plainFor_mono hr (Nat.le_refl _) (by omega) : B.plainFor (midCore k) a.base 16 .r)
  refine (M.bind_ok hsrc).trans ?_
  refine (M.bind_ok hbase).trans ?_
  refine (M.bind_ok hc).trans ?_
  refine (M.bind_ok (show M.bench B = .ok B B from rfl)).trans ?_
  simp only [hh, e1, e2, M.put]
  cases (B.core k).safree.tag <;> rfl

/-- A core that can load a half loads it. -/
theorem loadHalf_plain {B : Bench} {k : CoreNo} {b : BankNo} {upper : Bool} {org : Word} (h : B.canLoad k b upper) :
    ∃ C, B.loadsHalf k b upper C ∧ loadHalf k b upper org B = .ok () C := by
  obtain ⟨ha, hh, hs, hw⟩ := h
  unfold Bench.loadsHalf
  dsimp only
  generalize hx : (B.bank k b).sachain = a at *
  have hbase := areaBase_area (D := B) ha
  obtain ⟨-, -, -, -, h16, -, hr, hwr, htw⟩ := ha
  have r1 := readGranule_plain (org := org) (Bench.plainFor_mono hr (by omega) (by omega) : B.plainFor (midCore k) (a.base + 16) 16 .r)
  have r2 := readGranules_plain (org := org) hs (if upper then 37 else 21) (a.base + 32)
    (Bench.plainFor_mono hr (by omega) (by split <;> omega))
  have r3 := readCap_plain (org := org) hs (Bench.plainFor_mono hr (Nat.le_refl _) (by omega) : B.plainFor (midCore k) a.base 16 .r)
  have hne : (((B.mem.capAt (a.base + 16)).word 0).getLsbD 0 != upper) = false := by rw [hh]; simp
  generalize hg : (List.range (if upper = true then 37 else 21)).map (fun i => B.mem.capAt (a.base + 32 + 16 * i)) = g at *
  have hcore : ∀ f, ((B.modBank k b f).core k).saemerg = (B.core k).saemerg ∧ ((B.modBank k b f).core k).safree = (B.core k).safree := by
    intro f
    simp [Bench.modBank, Bench.setBank, Bench.modCore, Bench.setCore, Bench.core, Core.setBank]
  have pre : ∀ r, (∀ D, D = B.modBank k b (fun s => { (if upper = true then s.restoreUpper g else s.restoreLower g) with sachain := B.mem.capAt a.base }) →
      (if (D.core k).saemerg.tag && (D.core k).saemerg.base = a.base then M.put (D.setCore k { D.core k with emergBusy := false })
       else do
        let D := D.writeGranule (midCore k) org a.base (D.core k).safree
        M.put (D.modCore k fun c => { c with safree := a })) B = r) → loadHalf k b upper org B = r := by
    intro r hr
    refine (M.bind_ok (show M.bench B = .ok B B from rfl)).trans ?_
    rw [hx]
    refine (M.bind_ok hbase).trans ?_
    refine (M.bind_ok r1).trans ?_
    rw [hne]
    rw [if_neg (by simp)]
    refine (M.bind_ok r2).trans ?_
    refine (M.bind_ok r3).trans ?_
    refine (M.bind_ok (show M.bench B = .ok B B from rfl)).trans ?_
    exact hr _ rfl
  by_cases he : (B.core k).saemerg.tag = true ∧ (B.core k).saemerg.base = a.base
  · refine ⟨_, ⟨fun _ => rfl, fun h => absurd he h⟩, pre _ ?_⟩
    rintro D rfl
    rw [(hcore _).1, he.1, he.2]
    simp only [decide_true, Bool.and_self, if_true]
    rfl
  · generalize (fun s : Bank => ({ (if upper = true then s.restoreUpper g else s.restoreLower g) with sachain := B.mem.capAt a.base } : Bank)) = f at pre
    obtain ⟨m, s1, e1, -⟩ := writeGranule_plain (B := B.modBank k b f) (org := org) (a := a.base) (c := (B.core k).safree) hw h16
      (Bench.plainFor_mono hwr (Nat.le_refl _) (by omega)) (htw _ (Nat.le_refl _) (by omega))
    refine ⟨_, ⟨fun h => absurd h he, fun _ => ⟨m, s1, rfl⟩⟩, pre _ ?_⟩
    rintro D rfl
    have hb : ((B.core k).saemerg.tag && decide ((B.core k).saemerg.base = a.base)) = false := by
      rw [Bool.eq_false_iff]; simpa using he
    rw [(hcore f).1, hb]
    simp only [Bool.false_eq_true, if_false, (hcore f).2, e1]
    rfl

end Sys2Proof.Machine
end

