-- ==== Sys2Proof/Laws/State.lean ====
section
/-!
SUPPORT. Laws/State.lean: what each update of the state leaves alone, one lemma for each update and field, and what it reads back where it
wrote; each true by unfolding the one update. A proof rewrites with these and opens no record update.
-/

namespace Sys2Proof.Machine

/-! ## The machine and its benches -/

@[simp] theorem State.setBench_pending (s : State) (b : BenchNo) (B : Bench) : (s.setBench b B).pending = s.pending := rfl
@[simp] theorem State.setBench_dev (s : State) (b : BenchNo) (B : Bench) : (s.setBench b B).dev = s.dev := rfl
@[simp] theorem State.bench_setBench_self (s : State) (b : BenchNo) (B : Bench) : (s.setBench b B).bench b = B := by
  simp [State.setBench, State.bench]
theorem State.bench_setBench (s : State) (b c : BenchNo) (B : Bench) : (s.setBench b B).bench c = if c = b then B else s.bench c := by
  simp only [State.setBench, State.bench, Fin.getElem_fin, Vector.getElem_set, Fin.val_inj, eq_comm]
@[simp] theorem State.bench_setBench_ne {s : State} {b c : BenchNo} {B : Bench} (h : c ≠ b) : (s.setBench b B).bench c = s.bench c := by
  rw [State.bench_setBench, if_neg h]
@[simp] theorem State.bench_pending (s : State) (l : List Instr) (b : BenchNo) : ({ s with pending := l } : State).bench b = s.bench b := rfl
@[simp] theorem State.bench_dev (s : State) (d : Device) (b : BenchNo) : ({ s with dev := d } : State).bench b = s.bench b := rfl
@[simp] theorem State.bench_allBenches (s : State) (f : Bench → Bench) (b : BenchNo) : (s.allBenches f).bench b = f (s.bench b) := by
  simp [State.allBenches, State.bench]
@[simp] theorem State.allBenches_pending (s : State) (f : Bench → Bench) : (s.allBenches f).pending = s.pending := rfl
@[simp] theorem State.allBenches_dev (s : State) (f : Bench → Bench) : (s.allBenches f).dev = s.dev := rfl

/-! ## Cores and banks -/

@[simp] theorem Bench.core_setCore_self (B : Bench) (k : CoreNo) (c : Core) : (B.setCore k c).core k = c := by simp [Bench.setCore, Bench.core]
theorem Bench.core_setCore (B : Bench) (k j : CoreNo) (c : Core) : (B.setCore k c).core j = if j = k then c else B.core j := by
  simp only [Bench.setCore, Bench.core, Fin.getElem_fin, Vector.getElem_set, Fin.val_inj, eq_comm]
@[simp] theorem Bench.core_setCore_ne {B : Bench} {k j : CoreNo} {c : Core} (h : j ≠ k) : (B.setCore k c).core j = B.core j := by
  rw [Bench.core_setCore, if_neg h]
@[simp] theorem Bench.core_modCore_self (B : Bench) (k : CoreNo) (f : Core → Core) : (B.modCore k f).core k = f (B.core k) :=
  Bench.core_setCore_self ..
@[simp] theorem Bench.core_modCore_ne {B : Bench} {k j : CoreNo} {f : Core → Core} (h : j ≠ k) : (B.modCore k f).core j = B.core j :=
  Bench.core_setCore_ne h
@[simp] theorem Core.bank_setBank_self (c : Core) (b : BankNo) (v : Bank) : (c.setBank b v).bank b = v := by simp [Core.setBank, Core.bank]
theorem Core.bank_setBank (c : Core) (b d : BankNo) (v : Bank) : (c.setBank b v).bank d = if d = b then v else c.bank d := by
  simp only [Core.setBank, Core.bank, Fin.getElem_fin, Vector.getElem_set, Fin.val_inj, eq_comm]
@[simp] theorem Core.bank_setBank_ne {c : Core} {b d : BankNo} {v : Bank} (h : d ≠ b) : (c.setBank b v).bank d = c.bank d := by
  rw [Core.bank_setBank, if_neg h]
@[simp] theorem Bench.bank_setBank_self (B : Bench) (k : CoreNo) (b : BankNo) (v : Bank) : (B.setBank k b v).bank k b = v := by
  simp [Bench.setBank, Bench.bank]
@[simp] theorem Bench.bank_modBank_self (B : Bench) (k : CoreNo) (b : BankNo) (f : Bank → Bank) : (B.modBank k b f).bank k b = f (B.bank k b) :=
  Bench.bank_setBank_self ..
@[simp] theorem Bench.bank_setBank_core_ne {B : Bench} {k j : CoreNo} {b d : BankNo} {v : Bank} (h : j ≠ k) :
    (B.setBank k b v).bank j d = B.bank j d := by simp [Bench.setBank, Bench.bank, h]
@[simp] theorem Bench.bank_setBank_ne {B : Bench} {k : CoreNo} {b d : BankNo} {v : Bank} (h : d ≠ b) :
    (B.setBank k b v).bank k d = B.bank k d := by simp [Bench.setBank, Bench.bank, h]
@[simp] theorem Bench.bank_modBank_core_ne {B : Bench} {k j : CoreNo} {b d : BankNo} {f : Bank → Bank} (h : j ≠ k) :
    (B.modBank k b f).bank j d = B.bank j d := Bench.bank_setBank_core_ne h
@[simp] theorem Bench.bank_modBank_ne {B : Bench} {k : CoreNo} {b d : BankNo} {f : Bank → Bank} (h : d ≠ b) :
    (B.modBank k b f).bank k d = B.bank k d := Bench.bank_setBank_ne h
@[simp] theorem Bench.modBank_id (B : Bench) (k : CoreNo) (b : BankNo) : B.modBank k b id = B := by
  have h : (B.core k).setBank b ((B.core k).bank b) = B.core k := by simp [Core.setBank, Core.bank]
  show B.setCore k ((B.core k).setBank b ((B.core k).bank b)) = B
  rw [h]
  simp [Bench.setCore, Bench.core]
@[simp] theorem Bench.modCore_id (B : Bench) (k : CoreNo) : B.modCore k id = B := by simp [Bench.modCore, Bench.setCore, Bench.core]

@[simp] theorem Core.setBank_cur (c : Core) (b : BankNo) (v : Bank) : (c.setBank b v).cur = c.cur := rfl
@[simp] theorem Core.setBank_lastBank (c : Core) (b : BankNo) (v : Bank) : (c.setBank b v).lastBank = c.lastBank := rfl
@[simp] theorem Core.setBank_lastPlace (c : Core) (b : BankNo) (v : Bank) : (c.setBank b v).lastPlace = c.lastPlace := rfl
@[simp] theorem Core.setBank_waiting (c : Core) (b : BankNo) (v : Bank) : (c.setBank b v).waiting = c.waiting := rfl
@[simp] theorem Core.setBank_halted (c : Core) (b : BankNo) (v : Bank) : (c.setBank b v).halted = c.halted := rfl
@[simp] theorem Core.setBank_dbgHalted (c : Core) (b : BankNo) (v : Bank) : (c.setBank b v).dbgHalted = c.dbgHalted := rfl
@[simp] theorem Core.setBank_stepOne (c : Core) (b : BankNo) (v : Bank) : (c.setBank b v).stepOne = c.stepOne := rfl
@[simp] theorem Core.setBank_cycle (c : Core) (b : BankNo) (v : Bank) : (c.setBank b v).cycle = c.cycle := rfl
@[simp] theorem Core.setBank_escCause (c : Core) (b : BankNo) (v : Bank) : (c.setBank b v).escCause = c.escCause := rfl
@[simp] theorem Core.setBank_escLock (c : Core) (b : BankNo) (v : Bank) : (c.setBank b v).escLock = c.escLock := rfl
@[simp] theorem Core.setBank_escLockWritten (c : Core) (b : BankNo) (v : Bank) : (c.setBank b v).escLockWritten = c.escLockWritten := rfl
@[simp] theorem Core.setBank_escPcc (c : Core) (b : BankNo) (v : Bank) : (c.setBank b v).escPcc = c.escPcc := rfl
@[simp] theorem Core.setBank_escCsp (c : Core) (b : BankNo) (v : Bank) : (c.setBank b v).escCsp = c.escCsp := rfl
@[simp] theorem Core.setBank_bankwin (c : Core) (b : BankNo) (v : Bank) : (c.setBank b v).bankwin = c.bankwin := rfl
@[simp] theorem Core.setBank_safree (c : Core) (b : BankNo) (v : Bank) : (c.setBank b v).safree = c.safree := rfl
@[simp] theorem Core.setBank_saemerg (c : Core) (b : BankNo) (v : Bank) : (c.setBank b v).saemerg = c.saemerg := rfl
@[simp] theorem Core.setBank_saemergWritten (c : Core) (b : BankNo) (v : Bank) : (c.setBank b v).saemergWritten = c.saemergWritten := rfl
@[simp] theorem Core.setBank_saves (c : Core) (b : BankNo) (v : Bank) : (c.setBank b v).saves = c.saves := rfl
@[simp] theorem Core.setBank_emergBusy (c : Core) (b : BankNo) (v : Bank) : (c.setBank b v).emergBusy = c.emergBusy := rfl
@[simp] theorem Core.setBank_hold (c : Core) (b : BankNo) (v : Bank) : (c.setBank b v).hold = c.hold := rfl
@[simp] theorem Core.setBank_holdExpired (c : Core) (b : BankNo) (v : Bank) : (c.setBank b v).holdExpired = c.holdExpired := rfl
@[simp] theorem Core.setBank_itlb (c : Core) (b : BankNo) (v : Bank) : (c.setBank b v).itlb = c.itlb := rfl
@[simp] theorem Core.setBank_dtlb (c : Core) (b : BankNo) (v : Bank) : (c.setBank b v).dtlb = c.dtlb := rfl
@[simp] theorem Core.setBank_tlb (c : Core) (b : BankNo) (v : Bank) : (c.setBank b v).tlb = c.tlb := rfl
@[simp] theorem Core.setBank_tlbFlushDue (c : Core) (b : BankNo) (v : Bank) : (c.setBank b v).tlbFlushDue = c.tlbFlushDue := rfl
@[simp] theorem Core.setBank_placing (c : Core) (b : BankNo) (v : Bank) : (c.setBank b v).placing = c.placing := rfl
@[simp] theorem Core.setBank_repBusy (c : Core) (b : BankNo) (v : Bank) : (c.setBank b v).repBusy = c.repBusy := rfl
@[simp] theorem Core.setBank_clockStopped (c : Core) (b : BankNo) (v : Bank) : (c.setBank b v).clockStopped = c.clockStopped := rfl
@[simp] theorem Core.setBank_gated (c : Core) (b : BankNo) (v : Bank) : (c.setBank b v).gated = c.gated := rfl
@[simp] theorem Core.setBank_parked (c : Core) (b : BankNo) (v : Bank) : (c.setBank b v).parked = c.parked := rfl

/-! ## Registers of a bank -/

theorem Bank.getX_setX (t : Bank) (r q : Reg) (v : Word) : (t.setX r v).getX q = if q = r ∧ r ≠ 0 then v else t.getX q := by
  unfold Bank.setX Bank.getX
  by_cases hr : r = 0
  · simp [hr]
  · by_cases hq : q = 0
    · subst hq
      have : ¬(0 : Reg) = r := fun h => hr h.symm
      simp [this]
    · simp only [hr, hq, if_false, ne_eq, not_false_eq_true, and_true, Fin.getElem_fin, Vector.getElem_set, Fin.val_inj]
      simp only [eq_comm]
@[simp] theorem Bank.getX_zero (t : Bank) : t.getX 0 = 0 := rfl
@[simp] theorem Bank.setX_zero (t : Bank) (v : Word) : t.setX 0 v = t := rfl
theorem Bank.getC_setC (t : Bank) (r q : Reg) (v : Cap) : (t.setC r v).getC q = if q = r ∧ r ≠ 0 then v else t.getC q := by
  unfold Bank.setC Bank.getC
  by_cases hr : r = 0
  · simp [hr]
  · by_cases hq : q = 0
    · subst hq
      have : ¬(0 : Reg) = r := fun h => hr h.symm
      simp [this]
    · simp only [hr, hq, if_false, ne_eq, not_false_eq_true, and_true, Fin.getElem_fin, Vector.getElem_set, Fin.val_inj]
      simp only [eq_comm]
@[simp] theorem Bank.getC_zero (t : Bank) : t.getC 0 = Cap.null := rfl
@[simp] theorem Bank.setC_zero (t : Bank) (v : Cap) : t.setC 0 v = t := rfl
theorem Bank.getP_setP (t : Bank) (r q : Fin 8) (v : Bool) : (t.setP r v).getP q = if q = r ∧ r ≠ 0 then v else t.getP q := by
  unfold Bank.setP Bank.getP
  by_cases hr : r = 0
  · simp [hr]
  · by_cases hq : q = 0
    · subst hq
      have : ¬(0 : Fin 8) = r := fun h => hr h.symm
      simp [this]
    · simp only [hr, hq, if_false, ne_eq, not_false_eq_true, and_true, Fin.getElem_fin, Vector.getElem_set, Fin.val_inj]
      simp only [eq_comm]
@[simp] theorem Bank.getP_zero (t : Bank) : t.getP 0 = true := rfl
@[simp] theorem Bank.setP_zero (t : Bank) (v : Bool) : t.setP 0 v = t := rfl
theorem Bank.getD_setD (t : Bank) (r q : Fin 16) (v : Quad) : (t.setD r v).getD q = if q = r then v else t.getD q := by
  simp only [Bank.setD, Bank.getD, Fin.getElem_fin, Vector.getElem_set, Fin.val_inj, eq_comm]

@[simp] theorem Bank.setX_c (t : Bank) (r : Reg) (v : Word) : (t.setX r v).c = t.c := by unfold Bank.setX; split <;> rfl
@[simp] theorem Bank.setX_pcc (t : Bank) (r : Reg) (v : Word) : (t.setX r v).pcc = t.pcc := by unfold Bank.setX; split <;> rfl
@[simp] theorem Bank.setX_p (t : Bank) (r : Reg) (v : Word) : (t.setX r v).p = t.p := by unfold Bank.setX; split <;> rfl
@[simp] theorem Bank.setX_rc (t : Bank) (r : Reg) (v : Word) : (t.setX r v).rc = t.rc := by unfold Bank.setX; split <;> rfl
@[simp] theorem Bank.setX_rcv (t : Bank) (r : Reg) (v : Word) : (t.setX r v).rcv = t.rcv := by unfold Bank.setX; split <;> rfl
@[simp] theorem Bank.setX_d (t : Bank) (r : Reg) (v : Word) : (t.setX r v).d = t.d := by unfold Bank.setX; split <;> rfl
@[simp] theorem Bank.setX_dcsr (t : Bank) (r : Reg) (v : Word) : (t.setX r v).dcsr = t.dcsr := by unfold Bank.setX; split <;> rfl
@[simp] theorem Bank.setX_staging (t : Bank) (r : Reg) (v : Word) : (t.setX r v).staging = t.staging := by unfold Bank.setX; split <;> rfl
@[simp] theorem Bank.setX_pushes (t : Bank) (r : Reg) (v : Word) : (t.setX r v).pushes = t.pushes := by unfold Bank.setX; split <;> rfl
@[simp] theorem Bank.setX_ecause (t : Bank) (r : Reg) (v : Word) : (t.setX r v).ecause = t.ecause := by unfold Bank.setX; split <;> rfl
@[simp] theorem Bank.setX_etval (t : Bank) (r : Reg) (v : Word) : (t.setX r v).etval = t.etval := by unfold Bank.setX; split <;> rfl
@[simp] theorem Bank.setX_estat (t : Bank) (r : Reg) (v : Word) : (t.setX r v).estat = t.estat := by unfold Bank.setX; split <;> rfl
@[simp] theorem Bank.setX_atp (t : Bank) (r : Reg) (v : Word) : (t.setX r v).atp = t.atp := by unfold Bank.setX; split <;> rfl
@[simp] theorem Bank.setX_atpRoot (t : Bank) (r : Reg) (v : Word) : (t.setX r v).atpRoot = t.atpRoot := by unfold Bank.setX; split <;> rfl
@[simp] theorem Bank.setX_trapEntry (t : Bank) (r : Reg) (v : Word) : (t.setX r v).trapEntry = t.trapEntry := by unfold Bank.setX; split <;> rfl
@[simp] theorem Bank.setX_epcc (t : Bank) (r : Reg) (v : Word) : (t.setX r v).epcc = t.epcc := by unfold Bank.setX; split <;> rfl
@[simp] theorem Bank.setX_sachain (t : Bank) (r : Reg) (v : Word) : (t.setX r v).sachain = t.sachain := by unfold Bank.setX; split <;> rfl
@[simp] theorem Bank.setX_last (t : Bank) (r : Reg) (v : Word) : (t.setX r v).last = t.last := by unfold Bank.setX; split <;> rfl
@[simp] theorem Bank.setX_entry (t : Bank) (r : Reg) (v : Word) : (t.setX r v).entry = t.entry := by unfold Bank.setX; split <;> rfl
@[simp] theorem Bank.setX_entryCsp (t : Bank) (r : Reg) (v : Word) : (t.setX r v).entryCsp = t.entryCsp := by unfold Bank.setX; split <;> rfl
@[simp] theorem Bank.setX_instret (t : Bank) (r : Reg) (v : Word) : (t.setX r v).instret = t.instret := by unfold Bank.setX; split <;> rfl
@[simp] theorem Bank.setX_task (t : Bank) (r : Reg) (v : Word) : (t.setX r v).task = t.task := by unfold Bank.setX; split <;> rfl
@[simp] theorem Bank.setC_x (t : Bank) (r : Reg) (v : Cap) : (t.setC r v).x = t.x := by unfold Bank.setC; split <;> rfl
@[simp] theorem Bank.setC_pcc (t : Bank) (r : Reg) (v : Cap) : (t.setC r v).pcc = t.pcc := by unfold Bank.setC; split <;> rfl
@[simp] theorem Bank.setC_p (t : Bank) (r : Reg) (v : Cap) : (t.setC r v).p = t.p := by unfold Bank.setC; split <;> rfl
@[simp] theorem Bank.setC_rc (t : Bank) (r : Reg) (v : Cap) : (t.setC r v).rc = t.rc := by unfold Bank.setC; split <;> rfl
@[simp] theorem Bank.setC_rcv (t : Bank) (r : Reg) (v : Cap) : (t.setC r v).rcv = t.rcv := by unfold Bank.setC; split <;> rfl
@[simp] theorem Bank.setC_d (t : Bank) (r : Reg) (v : Cap) : (t.setC r v).d = t.d := by unfold Bank.setC; split <;> rfl
@[simp] theorem Bank.setC_dcsr (t : Bank) (r : Reg) (v : Cap) : (t.setC r v).dcsr = t.dcsr := by unfold Bank.setC; split <;> rfl
@[simp] theorem Bank.setC_staging (t : Bank) (r : Reg) (v : Cap) : (t.setC r v).staging = t.staging := by unfold Bank.setC; split <;> rfl
@[simp] theorem Bank.setC_pushes (t : Bank) (r : Reg) (v : Cap) : (t.setC r v).pushes = t.pushes := by unfold Bank.setC; split <;> rfl
@[simp] theorem Bank.setC_ecause (t : Bank) (r : Reg) (v : Cap) : (t.setC r v).ecause = t.ecause := by unfold Bank.setC; split <;> rfl
@[simp] theorem Bank.setC_etval (t : Bank) (r : Reg) (v : Cap) : (t.setC r v).etval = t.etval := by unfold Bank.setC; split <;> rfl
@[simp] theorem Bank.setC_estat (t : Bank) (r : Reg) (v : Cap) : (t.setC r v).estat = t.estat := by unfold Bank.setC; split <;> rfl
@[simp] theorem Bank.setC_atp (t : Bank) (r : Reg) (v : Cap) : (t.setC r v).atp = t.atp := by unfold Bank.setC; split <;> rfl
@[simp] theorem Bank.setC_atpRoot (t : Bank) (r : Reg) (v : Cap) : (t.setC r v).atpRoot = t.atpRoot := by unfold Bank.setC; split <;> rfl
@[simp] theorem Bank.setC_trapEntry (t : Bank) (r : Reg) (v : Cap) : (t.setC r v).trapEntry = t.trapEntry := by unfold Bank.setC; split <;> rfl
@[simp] theorem Bank.setC_epcc (t : Bank) (r : Reg) (v : Cap) : (t.setC r v).epcc = t.epcc := by unfold Bank.setC; split <;> rfl
@[simp] theorem Bank.setC_sachain (t : Bank) (r : Reg) (v : Cap) : (t.setC r v).sachain = t.sachain := by unfold Bank.setC; split <;> rfl
@[simp] theorem Bank.setC_last (t : Bank) (r : Reg) (v : Cap) : (t.setC r v).last = t.last := by unfold Bank.setC; split <;> rfl
@[simp] theorem Bank.setC_entry (t : Bank) (r : Reg) (v : Cap) : (t.setC r v).entry = t.entry := by unfold Bank.setC; split <;> rfl
@[simp] theorem Bank.setC_entryCsp (t : Bank) (r : Reg) (v : Cap) : (t.setC r v).entryCsp = t.entryCsp := by unfold Bank.setC; split <;> rfl
@[simp] theorem Bank.setC_instret (t : Bank) (r : Reg) (v : Cap) : (t.setC r v).instret = t.instret := by unfold Bank.setC; split <;> rfl
@[simp] theorem Bank.setC_task (t : Bank) (r : Reg) (v : Cap) : (t.setC r v).task = t.task := by unfold Bank.setC; split <;> rfl
@[simp] theorem Bank.setP_x (t : Bank) (r : Fin 8) (v : Bool) : (t.setP r v).x = t.x := by unfold Bank.setP; split <;> rfl
@[simp] theorem Bank.setP_c (t : Bank) (r : Fin 8) (v : Bool) : (t.setP r v).c = t.c := by unfold Bank.setP; split <;> rfl
@[simp] theorem Bank.setP_pcc (t : Bank) (r : Fin 8) (v : Bool) : (t.setP r v).pcc = t.pcc := by unfold Bank.setP; split <;> rfl
@[simp] theorem Bank.setP_rc (t : Bank) (r : Fin 8) (v : Bool) : (t.setP r v).rc = t.rc := by unfold Bank.setP; split <;> rfl
@[simp] theorem Bank.setP_rcv (t : Bank) (r : Fin 8) (v : Bool) : (t.setP r v).rcv = t.rcv := by unfold Bank.setP; split <;> rfl
@[simp] theorem Bank.setP_d (t : Bank) (r : Fin 8) (v : Bool) : (t.setP r v).d = t.d := by unfold Bank.setP; split <;> rfl
@[simp] theorem Bank.setP_dcsr (t : Bank) (r : Fin 8) (v : Bool) : (t.setP r v).dcsr = t.dcsr := by unfold Bank.setP; split <;> rfl
@[simp] theorem Bank.setP_staging (t : Bank) (r : Fin 8) (v : Bool) : (t.setP r v).staging = t.staging := by unfold Bank.setP; split <;> rfl
@[simp] theorem Bank.setP_pushes (t : Bank) (r : Fin 8) (v : Bool) : (t.setP r v).pushes = t.pushes := by unfold Bank.setP; split <;> rfl
@[simp] theorem Bank.setP_ecause (t : Bank) (r : Fin 8) (v : Bool) : (t.setP r v).ecause = t.ecause := by unfold Bank.setP; split <;> rfl
@[simp] theorem Bank.setP_etval (t : Bank) (r : Fin 8) (v : Bool) : (t.setP r v).etval = t.etval := by unfold Bank.setP; split <;> rfl
@[simp] theorem Bank.setP_estat (t : Bank) (r : Fin 8) (v : Bool) : (t.setP r v).estat = t.estat := by unfold Bank.setP; split <;> rfl
@[simp] theorem Bank.setP_atp (t : Bank) (r : Fin 8) (v : Bool) : (t.setP r v).atp = t.atp := by unfold Bank.setP; split <;> rfl
@[simp] theorem Bank.setP_atpRoot (t : Bank) (r : Fin 8) (v : Bool) : (t.setP r v).atpRoot = t.atpRoot := by unfold Bank.setP; split <;> rfl
@[simp] theorem Bank.setP_trapEntry (t : Bank) (r : Fin 8) (v : Bool) : (t.setP r v).trapEntry = t.trapEntry := by unfold Bank.setP; split <;> rfl
@[simp] theorem Bank.setP_epcc (t : Bank) (r : Fin 8) (v : Bool) : (t.setP r v).epcc = t.epcc := by unfold Bank.setP; split <;> rfl
@[simp] theorem Bank.setP_sachain (t : Bank) (r : Fin 8) (v : Bool) : (t.setP r v).sachain = t.sachain := by unfold Bank.setP; split <;> rfl
@[simp] theorem Bank.setP_last (t : Bank) (r : Fin 8) (v : Bool) : (t.setP r v).last = t.last := by unfold Bank.setP; split <;> rfl
@[simp] theorem Bank.setP_entry (t : Bank) (r : Fin 8) (v : Bool) : (t.setP r v).entry = t.entry := by unfold Bank.setP; split <;> rfl
@[simp] theorem Bank.setP_entryCsp (t : Bank) (r : Fin 8) (v : Bool) : (t.setP r v).entryCsp = t.entryCsp := by unfold Bank.setP; split <;> rfl
@[simp] theorem Bank.setP_instret (t : Bank) (r : Fin 8) (v : Bool) : (t.setP r v).instret = t.instret := by unfold Bank.setP; split <;> rfl
@[simp] theorem Bank.setP_task (t : Bank) (r : Fin 8) (v : Bool) : (t.setP r v).task = t.task := by unfold Bank.setP; split <;> rfl
@[simp] theorem Bank.setD_x (t : Bank) (r : Fin 16) (v : Quad) : (t.setD r v).x = t.x := rfl
@[simp] theorem Bank.setD_c (t : Bank) (r : Fin 16) (v : Quad) : (t.setD r v).c = t.c := rfl
@[simp] theorem Bank.setD_pcc (t : Bank) (r : Fin 16) (v : Quad) : (t.setD r v).pcc = t.pcc := rfl
@[simp] theorem Bank.setD_p (t : Bank) (r : Fin 16) (v : Quad) : (t.setD r v).p = t.p := rfl
@[simp] theorem Bank.setD_rc (t : Bank) (r : Fin 16) (v : Quad) : (t.setD r v).rc = t.rc := rfl
@[simp] theorem Bank.setD_rcv (t : Bank) (r : Fin 16) (v : Quad) : (t.setD r v).rcv = t.rcv := rfl
@[simp] theorem Bank.setD_dcsr (t : Bank) (r : Fin 16) (v : Quad) : (t.setD r v).dcsr = t.dcsr := rfl
@[simp] theorem Bank.setD_staging (t : Bank) (r : Fin 16) (v : Quad) : (t.setD r v).staging = t.staging := rfl
@[simp] theorem Bank.setD_pushes (t : Bank) (r : Fin 16) (v : Quad) : (t.setD r v).pushes = t.pushes := rfl
@[simp] theorem Bank.setD_ecause (t : Bank) (r : Fin 16) (v : Quad) : (t.setD r v).ecause = t.ecause := rfl
@[simp] theorem Bank.setD_etval (t : Bank) (r : Fin 16) (v : Quad) : (t.setD r v).etval = t.etval := rfl
@[simp] theorem Bank.setD_estat (t : Bank) (r : Fin 16) (v : Quad) : (t.setD r v).estat = t.estat := rfl
@[simp] theorem Bank.setD_atp (t : Bank) (r : Fin 16) (v : Quad) : (t.setD r v).atp = t.atp := rfl
@[simp] theorem Bank.setD_atpRoot (t : Bank) (r : Fin 16) (v : Quad) : (t.setD r v).atpRoot = t.atpRoot := rfl
@[simp] theorem Bank.setD_trapEntry (t : Bank) (r : Fin 16) (v : Quad) : (t.setD r v).trapEntry = t.trapEntry := rfl
@[simp] theorem Bank.setD_epcc (t : Bank) (r : Fin 16) (v : Quad) : (t.setD r v).epcc = t.epcc := rfl
@[simp] theorem Bank.setD_sachain (t : Bank) (r : Fin 16) (v : Quad) : (t.setD r v).sachain = t.sachain := rfl
@[simp] theorem Bank.setD_last (t : Bank) (r : Fin 16) (v : Quad) : (t.setD r v).last = t.last := rfl
@[simp] theorem Bank.setD_entry (t : Bank) (r : Fin 16) (v : Quad) : (t.setD r v).entry = t.entry := rfl
@[simp] theorem Bank.setD_entryCsp (t : Bank) (r : Fin 16) (v : Quad) : (t.setD r v).entryCsp = t.entryCsp := rfl
@[simp] theorem Bank.setD_instret (t : Bank) (r : Fin 16) (v : Quad) : (t.setD r v).instret = t.instret := rfl
@[simp] theorem Bank.setD_task (t : Bank) (r : Fin 16) (v : Quad) : (t.setD r v).task = t.task := rfl
@[simp] theorem Bank.getX_setC (t : Bank) (q : Reg) (r : Reg) (v : Cap) : (t.setC r v).getX q = t.getX q := by simp [Bank.getX]
@[simp] theorem Bank.getX_setP (t : Bank) (q : Reg) (r : Fin 8) (v : Bool) : (t.setP r v).getX q = t.getX q := by simp [Bank.getX]
@[simp] theorem Bank.getC_setX (t : Bank) (q : Reg) (r : Reg) (v : Word) : (t.setX r v).getC q = t.getC q := by simp [Bank.getC]
@[simp] theorem Bank.getC_setP (t : Bank) (q : Reg) (r : Fin 8) (v : Bool) : (t.setP r v).getC q = t.getC q := by simp [Bank.getC]
@[simp] theorem Bank.getP_setX (t : Bank) (q : Fin 8) (r : Reg) (v : Word) : (t.setX r v).getP q = t.getP q := by simp [Bank.getP]
@[simp] theorem Bank.getP_setC (t : Bank) (q : Fin 8) (r : Reg) (v : Cap) : (t.setC r v).getP q = t.getP q := by simp [Bank.getP]

/-! ## Updates of a bench -/

@[simp] theorem Bench.setCore_ctl (B : Bench) (k : CoreNo) (c : Core) : (B.setCore k c).ctl = B.ctl := rfl
@[simp] theorem Bench.setCore_sched (B : Bench) (k : CoreNo) (c : Core) : (B.setCore k c).sched = B.sched := rfl
@[simp] theorem Bench.setCore_trans (B : Bench) (k : CoreNo) (c : Core) : (B.setCore k c).trans = B.trans := rfl
@[simp] theorem Bench.setCore_mem (B : Bench) (k : CoreNo) (c : Core) : (B.setCore k c).mem = B.mem := rfl
@[simp] theorem Bench.setCore_memErr (B : Bench) (k : CoreNo) (c : Core) : (B.setCore k c).memErr = B.memErr := rfl
@[simp] theorem Bench.setCore_maf (B : Bench) (k : CoreNo) (c : Core) : (B.setCore k c).maf = B.maf := rfl
@[simp] theorem Bench.setCore_rake (B : Bench) (k : CoreNo) (c : Core) : (B.setCore k c).rake = B.rake := rfl
@[simp] theorem Bench.setCore_vault (B : Bench) (k : CoreNo) (c : Core) : (B.setCore k c).vault = B.vault := rfl
@[simp] theorem Bench.setCore_engs (B : Bench) (k : CoreNo) (c : Core) : (B.setCore k c).engs = B.engs := rfl
@[simp] theorem Bench.setCore_drbg (B : Bench) (k : CoreNo) (c : Core) : (B.setCore k c).drbg = B.drbg := rfl
@[simp] theorem Bench.setCore_pat (B : Bench) (k : CoreNo) (c : Core) : (B.setCore k c).pat = B.pat := rfl
@[simp] theorem Bench.setCore_streams (B : Bench) (k : CoreNo) (c : Core) : (B.setCore k c).streams = B.streams := rfl
@[simp] theorem Bench.setCore_jrn (B : Bench) (k : CoreNo) (c : Core) : (B.setCore k c).jrn = B.jrn := rfl
@[simp] theorem Bench.setCore_net (B : Bench) (k : CoreNo) (c : Core) : (B.setCore k c).net = B.net := rfl
@[simp] theorem Bench.setCore_hq (B : Bench) (k : CoreNo) (c : Core) : (B.setCore k c).hq = B.hq := rfl
@[simp] theorem Bench.setCore_time (B : Bench) (k : CoreNo) (c : Core) : (B.setCore k c).time = B.time := rfl
@[simp] theorem Bench.setCore_regs (B : Bench) (k : CoreNo) (c : Core) : (B.setCore k c).regs = B.regs := rfl
@[simp] theorem Bench.setCore_rst (B : Bench) (k : CoreNo) (c : Core) : (B.setCore k c).rst = B.rst := rfl
@[simp] theorem Bench.setCore_pwr (B : Bench) (k : CoreNo) (c : Core) : (B.setCore k c).pwr = B.pwr := rfl
@[simp] theorem Bench.setCore_hostUp (B : Bench) (k : CoreNo) (c : Core) : (B.setCore k c).hostUp = B.hostUp := rfl
@[simp] theorem Bench.setCore_hwin (B : Bench) (k : CoreNo) (c : Core) : (B.setCore k c).hwin = B.hwin := rfl
@[simp] theorem Bench.setCore_freeCtr (B : Bench) (k : CoreNo) (c : Core) : (B.setCore k c).freeCtr = B.freeCtr := rfl
@[simp] theorem Bench.setCore_out (B : Bench) (k : CoreNo) (c : Core) : (B.setCore k c).out = B.out := rfl
@[simp] theorem Bench.modCore_ctl (B : Bench) (k : CoreNo) (f : Core → Core) : (B.modCore k f).ctl = B.ctl := rfl
@[simp] theorem Bench.modCore_sched (B : Bench) (k : CoreNo) (f : Core → Core) : (B.modCore k f).sched = B.sched := rfl
@[simp] theorem Bench.modCore_trans (B : Bench) (k : CoreNo) (f : Core → Core) : (B.modCore k f).trans = B.trans := rfl
@[simp] theorem Bench.modCore_mem (B : Bench) (k : CoreNo) (f : Core → Core) : (B.modCore k f).mem = B.mem := rfl
@[simp] theorem Bench.modCore_memErr (B : Bench) (k : CoreNo) (f : Core → Core) : (B.modCore k f).memErr = B.memErr := rfl
@[simp] theorem Bench.modCore_maf (B : Bench) (k : CoreNo) (f : Core → Core) : (B.modCore k f).maf = B.maf := rfl
@[simp] theorem Bench.modCore_rake (B : Bench) (k : CoreNo) (f : Core → Core) : (B.modCore k f).rake = B.rake := rfl
@[simp] theorem Bench.modCore_vault (B : Bench) (k : CoreNo) (f : Core → Core) : (B.modCore k f).vault = B.vault := rfl
@[simp] theorem Bench.modCore_engs (B : Bench) (k : CoreNo) (f : Core → Core) : (B.modCore k f).engs = B.engs := rfl
@[simp] theorem Bench.modCore_drbg (B : Bench) (k : CoreNo) (f : Core → Core) : (B.modCore k f).drbg = B.drbg := rfl
@[simp] theorem Bench.modCore_pat (B : Bench) (k : CoreNo) (f : Core → Core) : (B.modCore k f).pat = B.pat := rfl
@[simp] theorem Bench.modCore_streams (B : Bench) (k : CoreNo) (f : Core → Core) : (B.modCore k f).streams = B.streams := rfl
@[simp] theorem Bench.modCore_jrn (B : Bench) (k : CoreNo) (f : Core → Core) : (B.modCore k f).jrn = B.jrn := rfl
@[simp] theorem Bench.modCore_net (B : Bench) (k : CoreNo) (f : Core → Core) : (B.modCore k f).net = B.net := rfl
@[simp] theorem Bench.modCore_hq (B : Bench) (k : CoreNo) (f : Core → Core) : (B.modCore k f).hq = B.hq := rfl
@[simp] theorem Bench.modCore_time (B : Bench) (k : CoreNo) (f : Core → Core) : (B.modCore k f).time = B.time := rfl
@[simp] theorem Bench.modCore_regs (B : Bench) (k : CoreNo) (f : Core → Core) : (B.modCore k f).regs = B.regs := rfl
@[simp] theorem Bench.modCore_rst (B : Bench) (k : CoreNo) (f : Core → Core) : (B.modCore k f).rst = B.rst := rfl
@[simp] theorem Bench.modCore_pwr (B : Bench) (k : CoreNo) (f : Core → Core) : (B.modCore k f).pwr = B.pwr := rfl
@[simp] theorem Bench.modCore_hostUp (B : Bench) (k : CoreNo) (f : Core → Core) : (B.modCore k f).hostUp = B.hostUp := rfl
@[simp] theorem Bench.modCore_hwin (B : Bench) (k : CoreNo) (f : Core → Core) : (B.modCore k f).hwin = B.hwin := rfl
@[simp] theorem Bench.modCore_freeCtr (B : Bench) (k : CoreNo) (f : Core → Core) : (B.modCore k f).freeCtr = B.freeCtr := rfl
@[simp] theorem Bench.modCore_out (B : Bench) (k : CoreNo) (f : Core → Core) : (B.modCore k f).out = B.out := rfl
@[simp] theorem Bench.setBank_ctl (B : Bench) (k : CoreNo) (b : BankNo) (v : Bank) : (B.setBank k b v).ctl = B.ctl := rfl
@[simp] theorem Bench.setBank_sched (B : Bench) (k : CoreNo) (b : BankNo) (v : Bank) : (B.setBank k b v).sched = B.sched := rfl
@[simp] theorem Bench.setBank_trans (B : Bench) (k : CoreNo) (b : BankNo) (v : Bank) : (B.setBank k b v).trans = B.trans := rfl
@[simp] theorem Bench.setBank_mem (B : Bench) (k : CoreNo) (b : BankNo) (v : Bank) : (B.setBank k b v).mem = B.mem := rfl
@[simp] theorem Bench.setBank_memErr (B : Bench) (k : CoreNo) (b : BankNo) (v : Bank) : (B.setBank k b v).memErr = B.memErr := rfl
@[simp] theorem Bench.setBank_maf (B : Bench) (k : CoreNo) (b : BankNo) (v : Bank) : (B.setBank k b v).maf = B.maf := rfl
@[simp] theorem Bench.setBank_rake (B : Bench) (k : CoreNo) (b : BankNo) (v : Bank) : (B.setBank k b v).rake = B.rake := rfl
@[simp] theorem Bench.setBank_vault (B : Bench) (k : CoreNo) (b : BankNo) (v : Bank) : (B.setBank k b v).vault = B.vault := rfl
@[simp] theorem Bench.setBank_engs (B : Bench) (k : CoreNo) (b : BankNo) (v : Bank) : (B.setBank k b v).engs = B.engs := rfl
@[simp] theorem Bench.setBank_drbg (B : Bench) (k : CoreNo) (b : BankNo) (v : Bank) : (B.setBank k b v).drbg = B.drbg := rfl
@[simp] theorem Bench.setBank_pat (B : Bench) (k : CoreNo) (b : BankNo) (v : Bank) : (B.setBank k b v).pat = B.pat := rfl
@[simp] theorem Bench.setBank_streams (B : Bench) (k : CoreNo) (b : BankNo) (v : Bank) : (B.setBank k b v).streams = B.streams := rfl
@[simp] theorem Bench.setBank_jrn (B : Bench) (k : CoreNo) (b : BankNo) (v : Bank) : (B.setBank k b v).jrn = B.jrn := rfl
@[simp] theorem Bench.setBank_net (B : Bench) (k : CoreNo) (b : BankNo) (v : Bank) : (B.setBank k b v).net = B.net := rfl
@[simp] theorem Bench.setBank_hq (B : Bench) (k : CoreNo) (b : BankNo) (v : Bank) : (B.setBank k b v).hq = B.hq := rfl
@[simp] theorem Bench.setBank_time (B : Bench) (k : CoreNo) (b : BankNo) (v : Bank) : (B.setBank k b v).time = B.time := rfl
@[simp] theorem Bench.setBank_regs (B : Bench) (k : CoreNo) (b : BankNo) (v : Bank) : (B.setBank k b v).regs = B.regs := rfl
@[simp] theorem Bench.setBank_rst (B : Bench) (k : CoreNo) (b : BankNo) (v : Bank) : (B.setBank k b v).rst = B.rst := rfl
@[simp] theorem Bench.setBank_pwr (B : Bench) (k : CoreNo) (b : BankNo) (v : Bank) : (B.setBank k b v).pwr = B.pwr := rfl
@[simp] theorem Bench.setBank_hostUp (B : Bench) (k : CoreNo) (b : BankNo) (v : Bank) : (B.setBank k b v).hostUp = B.hostUp := rfl
@[simp] theorem Bench.setBank_hwin (B : Bench) (k : CoreNo) (b : BankNo) (v : Bank) : (B.setBank k b v).hwin = B.hwin := rfl
@[simp] theorem Bench.setBank_freeCtr (B : Bench) (k : CoreNo) (b : BankNo) (v : Bank) : (B.setBank k b v).freeCtr = B.freeCtr := rfl
@[simp] theorem Bench.setBank_out (B : Bench) (k : CoreNo) (b : BankNo) (v : Bank) : (B.setBank k b v).out = B.out := rfl
@[simp] theorem Bench.modBank_ctl (B : Bench) (k : CoreNo) (b : BankNo) (f : Bank → Bank) : (B.modBank k b f).ctl = B.ctl := rfl
@[simp] theorem Bench.modBank_sched (B : Bench) (k : CoreNo) (b : BankNo) (f : Bank → Bank) : (B.modBank k b f).sched = B.sched := rfl
@[simp] theorem Bench.modBank_trans (B : Bench) (k : CoreNo) (b : BankNo) (f : Bank → Bank) : (B.modBank k b f).trans = B.trans := rfl
@[simp] theorem Bench.modBank_mem (B : Bench) (k : CoreNo) (b : BankNo) (f : Bank → Bank) : (B.modBank k b f).mem = B.mem := rfl
@[simp] theorem Bench.modBank_memErr (B : Bench) (k : CoreNo) (b : BankNo) (f : Bank → Bank) : (B.modBank k b f).memErr = B.memErr := rfl
@[simp] theorem Bench.modBank_maf (B : Bench) (k : CoreNo) (b : BankNo) (f : Bank → Bank) : (B.modBank k b f).maf = B.maf := rfl
@[simp] theorem Bench.modBank_rake (B : Bench) (k : CoreNo) (b : BankNo) (f : Bank → Bank) : (B.modBank k b f).rake = B.rake := rfl
@[simp] theorem Bench.modBank_vault (B : Bench) (k : CoreNo) (b : BankNo) (f : Bank → Bank) : (B.modBank k b f).vault = B.vault := rfl
@[simp] theorem Bench.modBank_engs (B : Bench) (k : CoreNo) (b : BankNo) (f : Bank → Bank) : (B.modBank k b f).engs = B.engs := rfl
@[simp] theorem Bench.modBank_drbg (B : Bench) (k : CoreNo) (b : BankNo) (f : Bank → Bank) : (B.modBank k b f).drbg = B.drbg := rfl
@[simp] theorem Bench.modBank_pat (B : Bench) (k : CoreNo) (b : BankNo) (f : Bank → Bank) : (B.modBank k b f).pat = B.pat := rfl
@[simp] theorem Bench.modBank_streams (B : Bench) (k : CoreNo) (b : BankNo) (f : Bank → Bank) : (B.modBank k b f).streams = B.streams := rfl
@[simp] theorem Bench.modBank_jrn (B : Bench) (k : CoreNo) (b : BankNo) (f : Bank → Bank) : (B.modBank k b f).jrn = B.jrn := rfl
@[simp] theorem Bench.modBank_net (B : Bench) (k : CoreNo) (b : BankNo) (f : Bank → Bank) : (B.modBank k b f).net = B.net := rfl
@[simp] theorem Bench.modBank_hq (B : Bench) (k : CoreNo) (b : BankNo) (f : Bank → Bank) : (B.modBank k b f).hq = B.hq := rfl
@[simp] theorem Bench.modBank_time (B : Bench) (k : CoreNo) (b : BankNo) (f : Bank → Bank) : (B.modBank k b f).time = B.time := rfl
@[simp] theorem Bench.modBank_regs (B : Bench) (k : CoreNo) (b : BankNo) (f : Bank → Bank) : (B.modBank k b f).regs = B.regs := rfl
@[simp] theorem Bench.modBank_rst (B : Bench) (k : CoreNo) (b : BankNo) (f : Bank → Bank) : (B.modBank k b f).rst = B.rst := rfl
@[simp] theorem Bench.modBank_pwr (B : Bench) (k : CoreNo) (b : BankNo) (f : Bank → Bank) : (B.modBank k b f).pwr = B.pwr := rfl
@[simp] theorem Bench.modBank_hostUp (B : Bench) (k : CoreNo) (b : BankNo) (f : Bank → Bank) : (B.modBank k b f).hostUp = B.hostUp := rfl
@[simp] theorem Bench.modBank_hwin (B : Bench) (k : CoreNo) (b : BankNo) (f : Bank → Bank) : (B.modBank k b f).hwin = B.hwin := rfl
@[simp] theorem Bench.modBank_freeCtr (B : Bench) (k : CoreNo) (b : BankNo) (f : Bank → Bank) : (B.modBank k b f).freeCtr = B.freeCtr := rfl
@[simp] theorem Bench.modBank_out (B : Bench) (k : CoreNo) (b : BankNo) (f : Bank → Bank) : (B.modBank k b f).out = B.out := rfl
@[simp] theorem Bench.setEv_ctl (B : Bench) (n : Nat) (e : EvStat) : (B.setEv n e).ctl = B.ctl := rfl
@[simp] theorem Bench.setEv_cores (B : Bench) (n : Nat) (e : EvStat) : (B.setEv n e).cores = B.cores := rfl
@[simp] theorem Bench.setEv_trans (B : Bench) (n : Nat) (e : EvStat) : (B.setEv n e).trans = B.trans := rfl
@[simp] theorem Bench.setEv_memErr (B : Bench) (n : Nat) (e : EvStat) : (B.setEv n e).memErr = B.memErr := rfl
@[simp] theorem Bench.setEv_maf (B : Bench) (n : Nat) (e : EvStat) : (B.setEv n e).maf = B.maf := rfl
@[simp] theorem Bench.setEv_rake (B : Bench) (n : Nat) (e : EvStat) : (B.setEv n e).rake = B.rake := rfl
@[simp] theorem Bench.setEv_vault (B : Bench) (n : Nat) (e : EvStat) : (B.setEv n e).vault = B.vault := rfl
@[simp] theorem Bench.setEv_engs (B : Bench) (n : Nat) (e : EvStat) : (B.setEv n e).engs = B.engs := rfl
@[simp] theorem Bench.setEv_drbg (B : Bench) (n : Nat) (e : EvStat) : (B.setEv n e).drbg = B.drbg := rfl
@[simp] theorem Bench.setEv_pat (B : Bench) (n : Nat) (e : EvStat) : (B.setEv n e).pat = B.pat := rfl
@[simp] theorem Bench.setEv_streams (B : Bench) (n : Nat) (e : EvStat) : (B.setEv n e).streams = B.streams := rfl
@[simp] theorem Bench.setEv_jrn (B : Bench) (n : Nat) (e : EvStat) : (B.setEv n e).jrn = B.jrn := rfl
@[simp] theorem Bench.setEv_net (B : Bench) (n : Nat) (e : EvStat) : (B.setEv n e).net = B.net := rfl
@[simp] theorem Bench.setEv_hq (B : Bench) (n : Nat) (e : EvStat) : (B.setEv n e).hq = B.hq := rfl
@[simp] theorem Bench.setEv_time (B : Bench) (n : Nat) (e : EvStat) : (B.setEv n e).time = B.time := rfl
@[simp] theorem Bench.setEv_regs (B : Bench) (n : Nat) (e : EvStat) : (B.setEv n e).regs = B.regs := rfl
@[simp] theorem Bench.setEv_rst (B : Bench) (n : Nat) (e : EvStat) : (B.setEv n e).rst = B.rst := rfl
@[simp] theorem Bench.setEv_pwr (B : Bench) (n : Nat) (e : EvStat) : (B.setEv n e).pwr = B.pwr := rfl
@[simp] theorem Bench.setEv_hostUp (B : Bench) (n : Nat) (e : EvStat) : (B.setEv n e).hostUp = B.hostUp := rfl
@[simp] theorem Bench.setEv_hwin (B : Bench) (n : Nat) (e : EvStat) : (B.setEv n e).hwin = B.hwin := rfl
@[simp] theorem Bench.setEv_freeCtr (B : Bench) (n : Nat) (e : EvStat) : (B.setEv n e).freeCtr = B.freeCtr := rfl
@[simp] theorem Bench.setEv_out (B : Bench) (n : Nat) (e : EvStat) : (B.setEv n e).out = B.out := rfl
@[simp] theorem Bench.setTask_ctl (B : Bench) (n : Nat) (t : Task) : (B.setTask n t).ctl = B.ctl := rfl
@[simp] theorem Bench.setTask_cores (B : Bench) (n : Nat) (t : Task) : (B.setTask n t).cores = B.cores := rfl
@[simp] theorem Bench.setTask_trans (B : Bench) (n : Nat) (t : Task) : (B.setTask n t).trans = B.trans := rfl
@[simp] theorem Bench.setTask_memErr (B : Bench) (n : Nat) (t : Task) : (B.setTask n t).memErr = B.memErr := rfl
@[simp] theorem Bench.setTask_maf (B : Bench) (n : Nat) (t : Task) : (B.setTask n t).maf = B.maf := rfl
@[simp] theorem Bench.setTask_rake (B : Bench) (n : Nat) (t : Task) : (B.setTask n t).rake = B.rake := rfl
@[simp] theorem Bench.setTask_vault (B : Bench) (n : Nat) (t : Task) : (B.setTask n t).vault = B.vault := rfl
@[simp] theorem Bench.setTask_engs (B : Bench) (n : Nat) (t : Task) : (B.setTask n t).engs = B.engs := rfl
@[simp] theorem Bench.setTask_drbg (B : Bench) (n : Nat) (t : Task) : (B.setTask n t).drbg = B.drbg := rfl
@[simp] theorem Bench.setTask_pat (B : Bench) (n : Nat) (t : Task) : (B.setTask n t).pat = B.pat := rfl
@[simp] theorem Bench.setTask_streams (B : Bench) (n : Nat) (t : Task) : (B.setTask n t).streams = B.streams := rfl
@[simp] theorem Bench.setTask_jrn (B : Bench) (n : Nat) (t : Task) : (B.setTask n t).jrn = B.jrn := rfl
@[simp] theorem Bench.setTask_net (B : Bench) (n : Nat) (t : Task) : (B.setTask n t).net = B.net := rfl
@[simp] theorem Bench.setTask_hq (B : Bench) (n : Nat) (t : Task) : (B.setTask n t).hq = B.hq := rfl
@[simp] theorem Bench.setTask_time (B : Bench) (n : Nat) (t : Task) : (B.setTask n t).time = B.time := rfl
@[simp] theorem Bench.setTask_regs (B : Bench) (n : Nat) (t : Task) : (B.setTask n t).regs = B.regs := rfl
@[simp] theorem Bench.setTask_rst (B : Bench) (n : Nat) (t : Task) : (B.setTask n t).rst = B.rst := rfl
@[simp] theorem Bench.setTask_pwr (B : Bench) (n : Nat) (t : Task) : (B.setTask n t).pwr = B.pwr := rfl
@[simp] theorem Bench.setTask_hostUp (B : Bench) (n : Nat) (t : Task) : (B.setTask n t).hostUp = B.hostUp := rfl
@[simp] theorem Bench.setTask_hwin (B : Bench) (n : Nat) (t : Task) : (B.setTask n t).hwin = B.hwin := rfl
@[simp] theorem Bench.setTask_freeCtr (B : Bench) (n : Nat) (t : Task) : (B.setTask n t).freeCtr = B.freeCtr := rfl
@[simp] theorem Bench.setTask_out (B : Bench) (n : Nat) (t : Task) : (B.setTask n t).out = B.out := rfl
@[simp] theorem Bench.setUState_cores (B : Bench) (u : Nat) (v : UState) : (B.setUState u v).cores = B.cores := rfl
@[simp] theorem Bench.setUState_sched (B : Bench) (u : Nat) (v : UState) : (B.setUState u v).sched = B.sched := rfl
@[simp] theorem Bench.setUState_trans (B : Bench) (u : Nat) (v : UState) : (B.setUState u v).trans = B.trans := rfl
@[simp] theorem Bench.setUState_mem (B : Bench) (u : Nat) (v : UState) : (B.setUState u v).mem = B.mem := rfl
@[simp] theorem Bench.setUState_memErr (B : Bench) (u : Nat) (v : UState) : (B.setUState u v).memErr = B.memErr := rfl
@[simp] theorem Bench.setUState_maf (B : Bench) (u : Nat) (v : UState) : (B.setUState u v).maf = B.maf := rfl
@[simp] theorem Bench.setUState_rake (B : Bench) (u : Nat) (v : UState) : (B.setUState u v).rake = B.rake := rfl
@[simp] theorem Bench.setUState_vault (B : Bench) (u : Nat) (v : UState) : (B.setUState u v).vault = B.vault := rfl
@[simp] theorem Bench.setUState_engs (B : Bench) (u : Nat) (v : UState) : (B.setUState u v).engs = B.engs := rfl
@[simp] theorem Bench.setUState_drbg (B : Bench) (u : Nat) (v : UState) : (B.setUState u v).drbg = B.drbg := rfl
@[simp] theorem Bench.setUState_pat (B : Bench) (u : Nat) (v : UState) : (B.setUState u v).pat = B.pat := rfl
@[simp] theorem Bench.setUState_streams (B : Bench) (u : Nat) (v : UState) : (B.setUState u v).streams = B.streams := rfl
@[simp] theorem Bench.setUState_jrn (B : Bench) (u : Nat) (v : UState) : (B.setUState u v).jrn = B.jrn := rfl
@[simp] theorem Bench.setUState_net (B : Bench) (u : Nat) (v : UState) : (B.setUState u v).net = B.net := rfl
@[simp] theorem Bench.setUState_hq (B : Bench) (u : Nat) (v : UState) : (B.setUState u v).hq = B.hq := rfl
@[simp] theorem Bench.setUState_time (B : Bench) (u : Nat) (v : UState) : (B.setUState u v).time = B.time := rfl
@[simp] theorem Bench.setUState_regs (B : Bench) (u : Nat) (v : UState) : (B.setUState u v).regs = B.regs := rfl
@[simp] theorem Bench.setUState_rst (B : Bench) (u : Nat) (v : UState) : (B.setUState u v).rst = B.rst := rfl
@[simp] theorem Bench.setUState_pwr (B : Bench) (u : Nat) (v : UState) : (B.setUState u v).pwr = B.pwr := rfl
@[simp] theorem Bench.setUState_hostUp (B : Bench) (u : Nat) (v : UState) : (B.setUState u v).hostUp = B.hostUp := rfl
@[simp] theorem Bench.setUState_hwin (B : Bench) (u : Nat) (v : UState) : (B.setUState u v).hwin = B.hwin := rfl
@[simp] theorem Bench.setUState_freeCtr (B : Bench) (u : Nat) (v : UState) : (B.setUState u v).freeCtr = B.freeCtr := rfl
@[simp] theorem Bench.setUState_out (B : Bench) (u : Nat) (v : UState) : (B.setUState u v).out = B.out := rfl
@[simp] theorem Bench.emit_ctl (B : Bench) (o : Output) : (B.emit o).ctl = B.ctl := rfl
@[simp] theorem Bench.emit_cores (B : Bench) (o : Output) : (B.emit o).cores = B.cores := rfl
@[simp] theorem Bench.emit_sched (B : Bench) (o : Output) : (B.emit o).sched = B.sched := rfl
@[simp] theorem Bench.emit_trans (B : Bench) (o : Output) : (B.emit o).trans = B.trans := rfl
@[simp] theorem Bench.emit_memErr (B : Bench) (o : Output) : (B.emit o).memErr = B.memErr := rfl
@[simp] theorem Bench.emit_maf (B : Bench) (o : Output) : (B.emit o).maf = B.maf := rfl
@[simp] theorem Bench.emit_rake (B : Bench) (o : Output) : (B.emit o).rake = B.rake := rfl
@[simp] theorem Bench.emit_vault (B : Bench) (o : Output) : (B.emit o).vault = B.vault := rfl
@[simp] theorem Bench.emit_engs (B : Bench) (o : Output) : (B.emit o).engs = B.engs := rfl
@[simp] theorem Bench.emit_drbg (B : Bench) (o : Output) : (B.emit o).drbg = B.drbg := rfl
@[simp] theorem Bench.emit_pat (B : Bench) (o : Output) : (B.emit o).pat = B.pat := rfl
@[simp] theorem Bench.emit_streams (B : Bench) (o : Output) : (B.emit o).streams = B.streams := rfl
@[simp] theorem Bench.emit_jrn (B : Bench) (o : Output) : (B.emit o).jrn = B.jrn := rfl
@[simp] theorem Bench.emit_net (B : Bench) (o : Output) : (B.emit o).net = B.net := rfl
@[simp] theorem Bench.emit_hq (B : Bench) (o : Output) : (B.emit o).hq = B.hq := rfl
@[simp] theorem Bench.emit_time (B : Bench) (o : Output) : (B.emit o).time = B.time := rfl
@[simp] theorem Bench.emit_regs (B : Bench) (o : Output) : (B.emit o).regs = B.regs := rfl
@[simp] theorem Bench.emit_rst (B : Bench) (o : Output) : (B.emit o).rst = B.rst := rfl
@[simp] theorem Bench.emit_pwr (B : Bench) (o : Output) : (B.emit o).pwr = B.pwr := rfl
@[simp] theorem Bench.emit_hostUp (B : Bench) (o : Output) : (B.emit o).hostUp = B.hostUp := rfl
@[simp] theorem Bench.emit_hwin (B : Bench) (o : Output) : (B.emit o).hwin = B.hwin := rfl
@[simp] theorem Bench.emit_freeCtr (B : Bench) (o : Output) : (B.emit o).freeCtr = B.freeCtr := rfl
@[simp] theorem Bench.pend_ctl (B : Bench) (n : Nat) : (B.pend n).ctl = B.ctl := rfl
@[simp] theorem Bench.pend_cores (B : Bench) (n : Nat) : (B.pend n).cores = B.cores := rfl
@[simp] theorem Bench.pend_trans (B : Bench) (n : Nat) : (B.pend n).trans = B.trans := rfl
@[simp] theorem Bench.pend_memErr (B : Bench) (n : Nat) : (B.pend n).memErr = B.memErr := rfl
@[simp] theorem Bench.pend_maf (B : Bench) (n : Nat) : (B.pend n).maf = B.maf := rfl
@[simp] theorem Bench.pend_rake (B : Bench) (n : Nat) : (B.pend n).rake = B.rake := rfl
@[simp] theorem Bench.pend_vault (B : Bench) (n : Nat) : (B.pend n).vault = B.vault := rfl
@[simp] theorem Bench.pend_engs (B : Bench) (n : Nat) : (B.pend n).engs = B.engs := rfl
@[simp] theorem Bench.pend_drbg (B : Bench) (n : Nat) : (B.pend n).drbg = B.drbg := rfl
@[simp] theorem Bench.pend_pat (B : Bench) (n : Nat) : (B.pend n).pat = B.pat := rfl
@[simp] theorem Bench.pend_streams (B : Bench) (n : Nat) : (B.pend n).streams = B.streams := rfl
@[simp] theorem Bench.pend_jrn (B : Bench) (n : Nat) : (B.pend n).jrn = B.jrn := rfl
@[simp] theorem Bench.pend_net (B : Bench) (n : Nat) : (B.pend n).net = B.net := rfl
@[simp] theorem Bench.pend_hq (B : Bench) (n : Nat) : (B.pend n).hq = B.hq := rfl
@[simp] theorem Bench.pend_time (B : Bench) (n : Nat) : (B.pend n).time = B.time := rfl
@[simp] theorem Bench.pend_regs (B : Bench) (n : Nat) : (B.pend n).regs = B.regs := rfl
@[simp] theorem Bench.pend_rst (B : Bench) (n : Nat) : (B.pend n).rst = B.rst := rfl
@[simp] theorem Bench.pend_pwr (B : Bench) (n : Nat) : (B.pend n).pwr = B.pwr := rfl
@[simp] theorem Bench.pend_hostUp (B : Bench) (n : Nat) : (B.pend n).hostUp = B.hostUp := rfl
@[simp] theorem Bench.pend_hwin (B : Bench) (n : Nat) : (B.pend n).hwin = B.hwin := rfl
@[simp] theorem Bench.pend_freeCtr (B : Bench) (n : Nat) : (B.pend n).freeCtr = B.freeCtr := rfl
@[simp] theorem Bench.pend_out (B : Bench) (n : Nat) : (B.pend n).out = B.out := rfl
@[simp] theorem Bench.clearPending_ctl (B : Bench) (n : Nat) : (B.clearPending n).ctl = B.ctl := rfl
@[simp] theorem Bench.clearPending_cores (B : Bench) (n : Nat) : (B.clearPending n).cores = B.cores := rfl
@[simp] theorem Bench.clearPending_trans (B : Bench) (n : Nat) : (B.clearPending n).trans = B.trans := rfl
@[simp] theorem Bench.clearPending_memErr (B : Bench) (n : Nat) : (B.clearPending n).memErr = B.memErr := rfl
@[simp] theorem Bench.clearPending_maf (B : Bench) (n : Nat) : (B.clearPending n).maf = B.maf := rfl
@[simp] theorem Bench.clearPending_rake (B : Bench) (n : Nat) : (B.clearPending n).rake = B.rake := rfl
@[simp] theorem Bench.clearPending_vault (B : Bench) (n : Nat) : (B.clearPending n).vault = B.vault := rfl
@[simp] theorem Bench.clearPending_engs (B : Bench) (n : Nat) : (B.clearPending n).engs = B.engs := rfl
@[simp] theorem Bench.clearPending_drbg (B : Bench) (n : Nat) : (B.clearPending n).drbg = B.drbg := rfl
@[simp] theorem Bench.clearPending_pat (B : Bench) (n : Nat) : (B.clearPending n).pat = B.pat := rfl
@[simp] theorem Bench.clearPending_streams (B : Bench) (n : Nat) : (B.clearPending n).streams = B.streams := rfl
@[simp] theorem Bench.clearPending_jrn (B : Bench) (n : Nat) : (B.clearPending n).jrn = B.jrn := rfl
@[simp] theorem Bench.clearPending_net (B : Bench) (n : Nat) : (B.clearPending n).net = B.net := rfl
@[simp] theorem Bench.clearPending_hq (B : Bench) (n : Nat) : (B.clearPending n).hq = B.hq := rfl
@[simp] theorem Bench.clearPending_time (B : Bench) (n : Nat) : (B.clearPending n).time = B.time := rfl
@[simp] theorem Bench.clearPending_regs (B : Bench) (n : Nat) : (B.clearPending n).regs = B.regs := rfl
@[simp] theorem Bench.clearPending_rst (B : Bench) (n : Nat) : (B.clearPending n).rst = B.rst := rfl
@[simp] theorem Bench.clearPending_pwr (B : Bench) (n : Nat) : (B.clearPending n).pwr = B.pwr := rfl
@[simp] theorem Bench.clearPending_hostUp (B : Bench) (n : Nat) : (B.clearPending n).hostUp = B.hostUp := rfl
@[simp] theorem Bench.clearPending_hwin (B : Bench) (n : Nat) : (B.clearPending n).hwin = B.hwin := rfl
@[simp] theorem Bench.clearPending_freeCtr (B : Bench) (n : Nat) : (B.clearPending n).freeCtr = B.freeCtr := rfl
@[simp] theorem Bench.clearPending_out (B : Bench) (n : Nat) : (B.clearPending n).out = B.out := rfl

theorem Bench.countDelivery_frame (B : Bench) (n : Nat) : B.countDelivery n = { B with sched := (B.countDelivery n).sched } := by
  unfold Bench.countDelivery
  simp only
  split
  · rfl
  · split <;> rfl
theorem Bench.wake_frame (B : Bench) (t : Nat) : B.wake t = { B with sched := (B.wake t).sched } := by
  unfold Bench.wake
  simp only
  split <;> rfl
theorem Bench.deliver_frame (B : Bench) (n : Nat) : B.deliver n = { B with sched := (B.deliver n).sched } := by
  unfold Bench.deliver
  simp only
  split
  · rfl
  · split
    · rfl
    · split
      · rw [Bench.countDelivery_frame, Bench.clearPending, Bench.setEv, Bench.wake_frame]
      · rfl
    · split
      · rfl
      · split <;> rfl
    · rfl
theorem Bench.wakeUp_frame (B : Bench) : B.wakeUp = { B with pwr := B.wakeUp.pwr } := by
  unfold Bench.wakeUp
  split <;> rfl
/-- All that an occurrence of an event source can do: the scheduler's state, and REQUESTED of PWR.STATE where it wakes the bench. -/
theorem Bench.raise_frame (B : Bench) (n : Nat) : B.raise n = { B with sched := (B.raise n).sched, pwr := (B.raise n).pwr } := by
  unfold Bench.raise
  split
  · rw [Bench.deliver_frame]; rfl
  · split
    · rw [Bench.wakeUp_frame]; rfl
    · split <;> rfl

@[simp] theorem Bench.countDelivery_ctl (B : Bench) (n : Nat) : (B.countDelivery n).ctl = B.ctl := by rw [Bench.countDelivery_frame]
@[simp] theorem Bench.countDelivery_cores (B : Bench) (n : Nat) : (B.countDelivery n).cores = B.cores := by rw [Bench.countDelivery_frame]
@[simp] theorem Bench.countDelivery_trans (B : Bench) (n : Nat) : (B.countDelivery n).trans = B.trans := by rw [Bench.countDelivery_frame]
@[simp] theorem Bench.countDelivery_memErr (B : Bench) (n : Nat) : (B.countDelivery n).memErr = B.memErr := by rw [Bench.countDelivery_frame]
@[simp] theorem Bench.countDelivery_maf (B : Bench) (n : Nat) : (B.countDelivery n).maf = B.maf := by rw [Bench.countDelivery_frame]
@[simp] theorem Bench.countDelivery_rake (B : Bench) (n : Nat) : (B.countDelivery n).rake = B.rake := by rw [Bench.countDelivery_frame]
@[simp] theorem Bench.countDelivery_vault (B : Bench) (n : Nat) : (B.countDelivery n).vault = B.vault := by rw [Bench.countDelivery_frame]
@[simp] theorem Bench.countDelivery_engs (B : Bench) (n : Nat) : (B.countDelivery n).engs = B.engs := by rw [Bench.countDelivery_frame]
@[simp] theorem Bench.countDelivery_drbg (B : Bench) (n : Nat) : (B.countDelivery n).drbg = B.drbg := by rw [Bench.countDelivery_frame]
@[simp] theorem Bench.countDelivery_pat (B : Bench) (n : Nat) : (B.countDelivery n).pat = B.pat := by rw [Bench.countDelivery_frame]
@[simp] theorem Bench.countDelivery_streams (B : Bench) (n : Nat) : (B.countDelivery n).streams = B.streams := by rw [Bench.countDelivery_frame]
@[simp] theorem Bench.countDelivery_jrn (B : Bench) (n : Nat) : (B.countDelivery n).jrn = B.jrn := by rw [Bench.countDelivery_frame]
@[simp] theorem Bench.countDelivery_net (B : Bench) (n : Nat) : (B.countDelivery n).net = B.net := by rw [Bench.countDelivery_frame]
@[simp] theorem Bench.countDelivery_hq (B : Bench) (n : Nat) : (B.countDelivery n).hq = B.hq := by rw [Bench.countDelivery_frame]
@[simp] theorem Bench.countDelivery_time (B : Bench) (n : Nat) : (B.countDelivery n).time = B.time := by rw [Bench.countDelivery_frame]
@[simp] theorem Bench.countDelivery_regs (B : Bench) (n : Nat) : (B.countDelivery n).regs = B.regs := by rw [Bench.countDelivery_frame]
@[simp] theorem Bench.countDelivery_rst (B : Bench) (n : Nat) : (B.countDelivery n).rst = B.rst := by rw [Bench.countDelivery_frame]
@[simp] theorem Bench.countDelivery_pwr (B : Bench) (n : Nat) : (B.countDelivery n).pwr = B.pwr := by rw [Bench.countDelivery_frame]
@[simp] theorem Bench.countDelivery_hostUp (B : Bench) (n : Nat) : (B.countDelivery n).hostUp = B.hostUp := by rw [Bench.countDelivery_frame]
@[simp] theorem Bench.countDelivery_hwin (B : Bench) (n : Nat) : (B.countDelivery n).hwin = B.hwin := by rw [Bench.countDelivery_frame]
@[simp] theorem Bench.countDelivery_freeCtr (B : Bench) (n : Nat) : (B.countDelivery n).freeCtr = B.freeCtr := by rw [Bench.countDelivery_frame]
@[simp] theorem Bench.countDelivery_out (B : Bench) (n : Nat) : (B.countDelivery n).out = B.out := by rw [Bench.countDelivery_frame]
@[simp] theorem Bench.wake_ctl (B : Bench) (t : Nat) : (B.wake t).ctl = B.ctl := by rw [Bench.wake_frame]
@[simp] theorem Bench.wake_cores (B : Bench) (t : Nat) : (B.wake t).cores = B.cores := by rw [Bench.wake_frame]
@[simp] theorem Bench.wake_trans (B : Bench) (t : Nat) : (B.wake t).trans = B.trans := by rw [Bench.wake_frame]
@[simp] theorem Bench.wake_memErr (B : Bench) (t : Nat) : (B.wake t).memErr = B.memErr := by rw [Bench.wake_frame]
@[simp] theorem Bench.wake_maf (B : Bench) (t : Nat) : (B.wake t).maf = B.maf := by rw [Bench.wake_frame]
@[simp] theorem Bench.wake_rake (B : Bench) (t : Nat) : (B.wake t).rake = B.rake := by rw [Bench.wake_frame]
@[simp] theorem Bench.wake_vault (B : Bench) (t : Nat) : (B.wake t).vault = B.vault := by rw [Bench.wake_frame]
@[simp] theorem Bench.wake_engs (B : Bench) (t : Nat) : (B.wake t).engs = B.engs := by rw [Bench.wake_frame]
@[simp] theorem Bench.wake_drbg (B : Bench) (t : Nat) : (B.wake t).drbg = B.drbg := by rw [Bench.wake_frame]
@[simp] theorem Bench.wake_pat (B : Bench) (t : Nat) : (B.wake t).pat = B.pat := by rw [Bench.wake_frame]
@[simp] theorem Bench.wake_streams (B : Bench) (t : Nat) : (B.wake t).streams = B.streams := by rw [Bench.wake_frame]
@[simp] theorem Bench.wake_jrn (B : Bench) (t : Nat) : (B.wake t).jrn = B.jrn := by rw [Bench.wake_frame]
@[simp] theorem Bench.wake_net (B : Bench) (t : Nat) : (B.wake t).net = B.net := by rw [Bench.wake_frame]
@[simp] theorem Bench.wake_hq (B : Bench) (t : Nat) : (B.wake t).hq = B.hq := by rw [Bench.wake_frame]
@[simp] theorem Bench.wake_time (B : Bench) (t : Nat) : (B.wake t).time = B.time := by rw [Bench.wake_frame]
@[simp] theorem Bench.wake_regs (B : Bench) (t : Nat) : (B.wake t).regs = B.regs := by rw [Bench.wake_frame]
@[simp] theorem Bench.wake_rst (B : Bench) (t : Nat) : (B.wake t).rst = B.rst := by rw [Bench.wake_frame]
@[simp] theorem Bench.wake_pwr (B : Bench) (t : Nat) : (B.wake t).pwr = B.pwr := by rw [Bench.wake_frame]
@[simp] theorem Bench.wake_hostUp (B : Bench) (t : Nat) : (B.wake t).hostUp = B.hostUp := by rw [Bench.wake_frame]
@[simp] theorem Bench.wake_hwin (B : Bench) (t : Nat) : (B.wake t).hwin = B.hwin := by rw [Bench.wake_frame]
@[simp] theorem Bench.wake_freeCtr (B : Bench) (t : Nat) : (B.wake t).freeCtr = B.freeCtr := by rw [Bench.wake_frame]
@[simp] theorem Bench.wake_out (B : Bench) (t : Nat) : (B.wake t).out = B.out := by rw [Bench.wake_frame]
@[simp] theorem Bench.deliver_ctl (B : Bench) (n : Nat) : (B.deliver n).ctl = B.ctl := by rw [Bench.deliver_frame]
@[simp] theorem Bench.deliver_cores (B : Bench) (n : Nat) : (B.deliver n).cores = B.cores := by rw [Bench.deliver_frame]
@[simp] theorem Bench.deliver_trans (B : Bench) (n : Nat) : (B.deliver n).trans = B.trans := by rw [Bench.deliver_frame]
@[simp] theorem Bench.deliver_memErr (B : Bench) (n : Nat) : (B.deliver n).memErr = B.memErr := by rw [Bench.deliver_frame]
@[simp] theorem Bench.deliver_maf (B : Bench) (n : Nat) : (B.deliver n).maf = B.maf := by rw [Bench.deliver_frame]
@[simp] theorem Bench.deliver_rake (B : Bench) (n : Nat) : (B.deliver n).rake = B.rake := by rw [Bench.deliver_frame]
@[simp] theorem Bench.deliver_vault (B : Bench) (n : Nat) : (B.deliver n).vault = B.vault := by rw [Bench.deliver_frame]
@[simp] theorem Bench.deliver_engs (B : Bench) (n : Nat) : (B.deliver n).engs = B.engs := by rw [Bench.deliver_frame]
@[simp] theorem Bench.deliver_drbg (B : Bench) (n : Nat) : (B.deliver n).drbg = B.drbg := by rw [Bench.deliver_frame]
@[simp] theorem Bench.deliver_pat (B : Bench) (n : Nat) : (B.deliver n).pat = B.pat := by rw [Bench.deliver_frame]
@[simp] theorem Bench.deliver_streams (B : Bench) (n : Nat) : (B.deliver n).streams = B.streams := by rw [Bench.deliver_frame]
@[simp] theorem Bench.deliver_jrn (B : Bench) (n : Nat) : (B.deliver n).jrn = B.jrn := by rw [Bench.deliver_frame]
@[simp] theorem Bench.deliver_net (B : Bench) (n : Nat) : (B.deliver n).net = B.net := by rw [Bench.deliver_frame]
@[simp] theorem Bench.deliver_hq (B : Bench) (n : Nat) : (B.deliver n).hq = B.hq := by rw [Bench.deliver_frame]
@[simp] theorem Bench.deliver_time (B : Bench) (n : Nat) : (B.deliver n).time = B.time := by rw [Bench.deliver_frame]
@[simp] theorem Bench.deliver_regs (B : Bench) (n : Nat) : (B.deliver n).regs = B.regs := by rw [Bench.deliver_frame]
@[simp] theorem Bench.deliver_rst (B : Bench) (n : Nat) : (B.deliver n).rst = B.rst := by rw [Bench.deliver_frame]
@[simp] theorem Bench.deliver_pwr (B : Bench) (n : Nat) : (B.deliver n).pwr = B.pwr := by rw [Bench.deliver_frame]
@[simp] theorem Bench.deliver_hostUp (B : Bench) (n : Nat) : (B.deliver n).hostUp = B.hostUp := by rw [Bench.deliver_frame]
@[simp] theorem Bench.deliver_hwin (B : Bench) (n : Nat) : (B.deliver n).hwin = B.hwin := by rw [Bench.deliver_frame]
@[simp] theorem Bench.deliver_freeCtr (B : Bench) (n : Nat) : (B.deliver n).freeCtr = B.freeCtr := by rw [Bench.deliver_frame]
@[simp] theorem Bench.deliver_out (B : Bench) (n : Nat) : (B.deliver n).out = B.out := by rw [Bench.deliver_frame]
@[simp] theorem Bench.wakeUp_ctl (B : Bench) : (B.wakeUp).ctl = B.ctl := by rw [Bench.wakeUp_frame]
@[simp] theorem Bench.wakeUp_cores (B : Bench) : (B.wakeUp).cores = B.cores := by rw [Bench.wakeUp_frame]
@[simp] theorem Bench.wakeUp_sched (B : Bench) : (B.wakeUp).sched = B.sched := by rw [Bench.wakeUp_frame]
@[simp] theorem Bench.wakeUp_trans (B : Bench) : (B.wakeUp).trans = B.trans := by rw [Bench.wakeUp_frame]
@[simp] theorem Bench.wakeUp_memErr (B : Bench) : (B.wakeUp).memErr = B.memErr := by rw [Bench.wakeUp_frame]
@[simp] theorem Bench.wakeUp_maf (B : Bench) : (B.wakeUp).maf = B.maf := by rw [Bench.wakeUp_frame]
@[simp] theorem Bench.wakeUp_rake (B : Bench) : (B.wakeUp).rake = B.rake := by rw [Bench.wakeUp_frame]
@[simp] theorem Bench.wakeUp_vault (B : Bench) : (B.wakeUp).vault = B.vault := by rw [Bench.wakeUp_frame]
@[simp] theorem Bench.wakeUp_engs (B : Bench) : (B.wakeUp).engs = B.engs := by rw [Bench.wakeUp_frame]
@[simp] theorem Bench.wakeUp_drbg (B : Bench) : (B.wakeUp).drbg = B.drbg := by rw [Bench.wakeUp_frame]
@[simp] theorem Bench.wakeUp_pat (B : Bench) : (B.wakeUp).pat = B.pat := by rw [Bench.wakeUp_frame]
@[simp] theorem Bench.wakeUp_streams (B : Bench) : (B.wakeUp).streams = B.streams := by rw [Bench.wakeUp_frame]
@[simp] theorem Bench.wakeUp_jrn (B : Bench) : (B.wakeUp).jrn = B.jrn := by rw [Bench.wakeUp_frame]
@[simp] theorem Bench.wakeUp_net (B : Bench) : (B.wakeUp).net = B.net := by rw [Bench.wakeUp_frame]
@[simp] theorem Bench.wakeUp_hq (B : Bench) : (B.wakeUp).hq = B.hq := by rw [Bench.wakeUp_frame]
@[simp] theorem Bench.wakeUp_time (B : Bench) : (B.wakeUp).time = B.time := by rw [Bench.wakeUp_frame]
@[simp] theorem Bench.wakeUp_regs (B : Bench) : (B.wakeUp).regs = B.regs := by rw [Bench.wakeUp_frame]
@[simp] theorem Bench.wakeUp_rst (B : Bench) : (B.wakeUp).rst = B.rst := by rw [Bench.wakeUp_frame]
@[simp] theorem Bench.wakeUp_hostUp (B : Bench) : (B.wakeUp).hostUp = B.hostUp := by rw [Bench.wakeUp_frame]
@[simp] theorem Bench.wakeUp_hwin (B : Bench) : (B.wakeUp).hwin = B.hwin := by rw [Bench.wakeUp_frame]
@[simp] theorem Bench.wakeUp_freeCtr (B : Bench) : (B.wakeUp).freeCtr = B.freeCtr := by rw [Bench.wakeUp_frame]
@[simp] theorem Bench.wakeUp_out (B : Bench) : (B.wakeUp).out = B.out := by rw [Bench.wakeUp_frame]
@[simp] theorem Bench.raise_ctl (B : Bench) (n : Nat) : (B.raise n).ctl = B.ctl := by rw [Bench.raise_frame]
@[simp] theorem Bench.raise_cores (B : Bench) (n : Nat) : (B.raise n).cores = B.cores := by rw [Bench.raise_frame]
@[simp] theorem Bench.raise_trans (B : Bench) (n : Nat) : (B.raise n).trans = B.trans := by rw [Bench.raise_frame]
@[simp] theorem Bench.raise_memErr (B : Bench) (n : Nat) : (B.raise n).memErr = B.memErr := by rw [Bench.raise_frame]
@[simp] theorem Bench.raise_maf (B : Bench) (n : Nat) : (B.raise n).maf = B.maf := by rw [Bench.raise_frame]
@[simp] theorem Bench.raise_rake (B : Bench) (n : Nat) : (B.raise n).rake = B.rake := by rw [Bench.raise_frame]
@[simp] theorem Bench.raise_vault (B : Bench) (n : Nat) : (B.raise n).vault = B.vault := by rw [Bench.raise_frame]
@[simp] theorem Bench.raise_engs (B : Bench) (n : Nat) : (B.raise n).engs = B.engs := by rw [Bench.raise_frame]
@[simp] theorem Bench.raise_drbg (B : Bench) (n : Nat) : (B.raise n).drbg = B.drbg := by rw [Bench.raise_frame]
@[simp] theorem Bench.raise_pat (B : Bench) (n : Nat) : (B.raise n).pat = B.pat := by rw [Bench.raise_frame]
@[simp] theorem Bench.raise_streams (B : Bench) (n : Nat) : (B.raise n).streams = B.streams := by rw [Bench.raise_frame]
@[simp] theorem Bench.raise_jrn (B : Bench) (n : Nat) : (B.raise n).jrn = B.jrn := by rw [Bench.raise_frame]
@[simp] theorem Bench.raise_net (B : Bench) (n : Nat) : (B.raise n).net = B.net := by rw [Bench.raise_frame]
@[simp] theorem Bench.raise_hq (B : Bench) (n : Nat) : (B.raise n).hq = B.hq := by rw [Bench.raise_frame]
@[simp] theorem Bench.raise_time (B : Bench) (n : Nat) : (B.raise n).time = B.time := by rw [Bench.raise_frame]
@[simp] theorem Bench.raise_regs (B : Bench) (n : Nat) : (B.raise n).regs = B.regs := by rw [Bench.raise_frame]
@[simp] theorem Bench.raise_rst (B : Bench) (n : Nat) : (B.raise n).rst = B.rst := by rw [Bench.raise_frame]
@[simp] theorem Bench.raise_hostUp (B : Bench) (n : Nat) : (B.raise n).hostUp = B.hostUp := by rw [Bench.raise_frame]
@[simp] theorem Bench.raise_hwin (B : Bench) (n : Nat) : (B.raise n).hwin = B.hwin := by rw [Bench.raise_frame]
@[simp] theorem Bench.raise_freeCtr (B : Bench) (n : Nat) : (B.raise n).freeCtr = B.freeCtr := by rw [Bench.raise_frame]
@[simp] theorem Bench.raise_out (B : Bench) (n : Nat) : (B.raise n).out = B.out := by rw [Bench.raise_frame]

end Sys2Proof.Machine
end

