-- ==== Sys2Proof/WellFormed.lean ====
section
/-!
DEFINITION. WellFormed.lean: what the types of the operands leave to check: a command of the table that the outside can send.
-/

namespace Sys2Proof

open Sys2Proof.Machine

/-- A word that no instruction and no prefix has (R121, R123, R130). -/
def wordUndefined (w : Word) : Bool :=
  match wGuard w with
  | none => !prefixDefined w
  | some _ => !wordDefined w

/-- An access lies within BAR2, 128 GiB (R653), as one request: at most 4,096 bytes to read, 512 to write (R652). -/
def Machine.HostAccess.wf (addr : BitVec 37) : HostAccess → Bool
  | .read n => decide (1 ≤ n.toNat ∧ n.toNat ≤ 4096 ∧ addr.toNat + n.toNat ≤ 2 ^ 37)
  | .write bytes => decide (1 ≤ bytes.length ∧ bytes.length ≤ 512 ∧ addr.toNat + bytes.length ≤ 2 ^ 37)

/-- The command's operands are ones that the spec admits. -/
def Instr.wf : Instr → Bool
  | .add .. => true
  | .sub .. => true
  | .and .. => true
  | .or .. => true
  | .xor .. => true
  | .andn .. => true
  | .orn .. => true
  | .xnor .. => true
  | .sll .. => true
  | .srl .. => true
  | .sra .. => true
  | .rol .. => true
  | .ror .. => true
  | .min .. => true
  | .max .. => true
  | .minu .. => true
  | .maxu .. => true
  | .clz .. => true
  | .ctz .. => true
  | .popc .. => true
  | .sextb .. => true
  | .sexth .. => true
  | .zexth .. => true
  | .bswap .. => true
  | .mul .. => true
  | .mulh .. => true
  | .mulhu .. => true
  | .mulhsu .. => true
  | .div .. => true
  | .divu .. => true
  | .rem .. => true
  | .remu .. => true
  | .addi .. => true
  | .andi .. => true
  | .ori .. => true
  | .xori .. => true
  | .slli .. => true
  | .srli .. => true
  | .srai .. => true
  | .rori .. => true
  | .lui .. => true
  | .lil .. => true
  | .mac .. => true
  | .macbPi .. => true
  | .crcb .. => true
  | .crcw .. => true
  | .crcbPi .. => true
  | .lb .. => true
  | .lbu .. => true
  | .lh .. => true
  | .lhu .. => true
  | .lw .. => true
  | .sb .. => true
  | .sh .. => true
  | .sw .. => true
  | .clc .. => true
  | .csc .. => true
  | .dld .. => true
  | .dst .. => true
  | .lbPi .. => true
  | .lbuPi .. => true
  | .lhPi .. => true
  | .lhuPi .. => true
  | .lwPi .. => true
  | .clcPi .. => true
  | .dldPi .. => true
  | .sbPi .. => true
  | .shPi .. => true
  | .swPi .. => true
  | .cscPi .. => true
  | .dstPi .. => true
  | .fillB .. => true
  | .fillH .. => true
  | .fillW .. => true
  | .fillG .. => true
  | .amoswapW .. => true
  | .amocasW .. => true
  | .amoaddW .. => true
  | .amoorW .. => true
  | .amoandW .. => true
  | .amocasC .. => true
  | .cmov .. => true
  | .cclrtag .. => true
  | .csetcl .. => true
  | .cinc .. => true
  | .cinch .. => true
  | .csetb .. => true
  | .csetb4k .. => true
  | .csetbx .. => true
  | .candp .. => true
  | .cseal .. => true
  | .cunseal .. => true
  | .cgate .. => true
  | .cgetpcc .. => true
  | .cgbasel .. => true
  | .cgbaseh .. => true
  | .cgtopl .. => true
  | .cgtoph .. => true
  | .cgtopx .. => true
  | .cglenl .. => true
  | .cglenh .. => true
  | .cgcurl .. => true
  | .cgcurh .. => true
  | .cgperm .. => true
  | .cgtype .. => true
  | .cgtag .. => true
  | .cgexp .. => true
  | .crrl .. => true
  | .cram .. => true
  | .cinci .. => true
  | .csetbi .. => true
  | .j .. => true
  | .jal .. => true
  | .jr .. => true
  | .jalr .. => true
  | .ret .. => true
  | .rete .. => true
  | .enter .. => true
  | .cmpEq .. => true
  | .cmpNe .. => true
  | .cmpLt .. => true
  | .cmpLtu .. => true
  | .cmpGe .. => true
  | .cmpGeu .. => true
  | .cmpTst .. => true
  | .cmpTstz .. => true
  | .cmpeqi .. => true
  | .cmplti .. => true
  | .cmpltui .. => true
  | .predicateAnd .. => true
  | .predicateOr .. => true
  | .predicateXor .. => true
  | .predicateAndNot .. => true
  | .pset .. => true
  | .pclr .. => true
  | .prd .. => true
  | .pwr .. => true
  | .cmpbEqPi .. => true
  | .cmpbNePi .. => true
  | .cmpbLtuPi .. => true
  | .cmpbGeuPi .. => true
  | .ceqx .. => true
  | .ctsub .. => true
  | .sysrd .. => true
  | .syswr .. => true
  | .csysrd .. => true
  | .csyswr .. => true
  | .escLockWrite .. => true
  | .fence .. => true
  | .fenceI .. => true
  | .fenceT .. => true
  | .tlbiAll .. => true
  | .tlbiAsid .. => true
  | .tlbiVa .. => true
  | .tlbiVaAsid .. => true
  | .tlbiBCompletion .. => true
  | .hold .. => true
  | .release .. => true
  | .holdExpiry .. => true
  | .brx .. => true
  | .bwx .. => true
  | .brc .. => true
  | .bwc .. => true
  | .brd .. => true
  | .bwd .. => true
  | .brs .. => true
  | .bws .. => true
  | .brpcc .. => true
  | .bwpcc .. => true
  | .savel .. => true
  | .saveu .. => true
  | .loadl .. => true
  | .loadu .. => true
  | .sev .. => true
  | .wait .. => true
  | .yield .. => true
  | .eret .. => true
  | .rep .. => true
  | .repi .. => true
  | .dadd .. => true
  | .dsub .. => true
  | .dmul .. => true
  | .ddiv .. => true
  | .dqua .. => true
  | .dtfx .. => true
  | .dtbcd .. => true
  | .dceq .. => true
  | .dclt .. => true
  | .dcle .. => true
  | .dcun .. => true
  | .dffx .. => true
  | .dtfxe .. => true
  | .dfbcd .. => true
  | .dmov .. => true
  | .dneg .. => true
  | .dabs .. => true
  | .dcsrr .. => true
  | .dcsrw .. => true
  | .dmfx .. => true
  | .dmtx .. => true
  | .esub .. => true
  | .epoll .. => true
  | .ckpush .. => true
  | .ckpop .. => true
  | .clpush .. => true
  | .clpop .. => true
  | .jpush .. => true
  | .japp .. => true
  | .trd .. => true
  | .trdc .. => true
  | .strandSwitch .. => true
  | .eventOccurrence .. => true
  | .eventTrapDelivery .. => true
  | .bscTrapDelivery .. => true
  | .stormWindowRollover .. => true
  | .evstatMaskedClear .. => true
  | .taskStart .. => true
  | .taskStop .. => true
  | .taskWake .. => true
  | .taskFree .. => true
  | .taskPlacement .. => true
  | .taskLoad .. => true
  | .shootdownDoorbell .. => true
  | .shootdownAck .. => true
  | .etuInvalidate .. => true
  | .etuInvalidateDone .. => true
  | .mafSwap .. => true
  | .mafSwapCheckEnd .. => true
  | .mafDrainEnd .. => true
  | .rakeSweep .. => true
  | .rakeAbort .. => true
  | .rakeTagclear .. => true
  | .rakeTagcount .. => true
  | .rakeCommandEnd .. => true
  | .scrubRead .. => true
  | .scrubPassEnd .. => true
  | .vaultInfo .. => true
  | .vaultDelete .. => true
  | .vaultRevoke .. => true
  | .vaultPin .. => true
  | .vaultUnpin .. => true
  | .vaultPurge .. => true
  | .vaultAbort .. => true
  | .vaultForgetPrevious .. => true
  | .vaultCommandEnd .. => true
  | .cerOpen => true
  | .cerShare => true
  | .cerAbort => true
  | .ceremonyTimeout .. => true
  | .epochAdvanceOpen => true
  | .epochAdvanceSign => true
  | .epochAdvanceCancel => true
  | .epochAdvanceTimeout => true
  | .pkeSign .. => true
  | .pkeVerify .. => true
  | .rsaCrtSign .. => true
  | .rsaVerify .. => true
  | .keyAgreement .. => true
  | .ephemeralKeyAgreement .. => true
  | .pkePublicKeyDerivation .. => true
  | .mlDsaSign .. => true
  | .mlDsaVerify .. => true
  | .mlKemEncapsulate .. => true
  | .mlKemDecapsulate .. => true
  | .lkePublicKeyDerivation .. => true
  | .encrypt .. => true
  | .decrypt .. => true
  | .macGenerate .. => true
  | .macVerify .. => true
  | .pinTranslate .. => true
  | .pinReformat .. => true
  | .pinCompare .. => true
  | .arqcVerify .. => true
  | .keyLoad .. => true
  | .keyGenerate .. => true
  | .keyTrust .. => true
  | .keyRewrap .. => true
  | .deriveEmv .. => true
  | .deriveDukpt .. => true
  | .deriveKdf .. => true
  | .keyImport .. => true
  | .keyExport .. => true
  | .hash .. => true
  | .drbgGenerate .. => true
  | .drbgReseed .. => true
  | .drbgReseedDue .. => true
  | .entropySourceFailure .. => true
  | .cut .. => true
  | .cutStream .. => true
  | .assemble .. => true
  | .assembleStream .. => true
  | .streamStall .. => true
  | .jobCompletion .. => true
  | .ringEnable .. => true
  | .ringDisable .. => true
  | .tokenExpiry .. => true
  | .patLoad .. => true
  | .patLoadEnd .. => true
  | .patSwap .. => true
  | .patSwapCheckEnd .. => true
  | .patDrainEnd .. => true
  | .ustateWriteRequested .. => true
  | .ustateForce .. => true
  | .forcedResetCompletion .. => true
  | .unitQuiescentPoint .. => true
  | .divergenceTimeout .. => true
  | .journalRecoveryEnd .. => true
  | .receivedRecord .. => true
  | .itemTimeout .. => true
  | .checkpointRecord .. => true
  | .signatureEntryWrite .. => true
  | .dedupSweep .. => true
  | .hostMirrorWrite .. => true
  | .hackWrite .. => true
  | .swrelWrite .. => true
  | .journalLoRead .. => true
  | .partnerSend .. => true
  | .partnerRetransmitTimeout .. => true
  | .servoMeasurement .. => true
  | .ptpMessageTransmit .. => true
  | .holdoverEntry .. => true
  | .timeSetWrite .. => true
  | .timeNow0Read .. => true
  | .ppsInputEdge .. => true
  | .secondBoundary .. => true
  | .ppsOutputFall .. => true
  | .latencyCalibration .. => true
  | .benchTimerExpiry .. => true
  | .timerWrite .. => true
  | .linkChange .. => true
  | .frameReceive .. => true
  | .tlsRecordDecryptEnd .. => true
  | .rxQueueDelivery .. => true
  | .tcpRetransmitTimeout .. => true
  | .tcpKeepaliveExpiry .. => true
  | .delayedAckExpiry .. => true
  | .timeWaitExpiry .. => true
  | .txqTailWrite .. => true
  | .txSend .. => true
  | .txRaw .. => true
  | .txTlsRaw .. => true
  | .txUdp .. => true
  | .txFrame .. => true
  | .txConnect .. => true
  | .txClose .. => true
  | .txAbort .. => true
  | .txSetkey .. => true
  | .txContinue .. => true
  | .sqDoorbell .. => true
  | .cstailWrite .. => true
  | .completionDescriptor .. => true
  | .functionLevelReset .. => true
  | .hostPerst .. => true
  | .hostLinkChange _ _ lanes => [1, 2, 4, 8, 16].contains lanes.val
  | .hostWindowTimeout .. => true
  | .spdmGetVersion .. => true
  | .spdmGetCapabilities .. => true
  | .spdmNegotiateAlgorithms .. => true
  | .spdmGetDigests .. => true
  | .spdmGetCertificate .. => true
  | .spdmChallenge .. => true
  | .spdmGetMeasurements .. => true
  | .spdmKeyExchange .. => true
  | .spdmFinish .. => true
  | .spdmKeyUpdate .. => true
  | .spdmHeartbeat .. => true
  | .spdmEndSession .. => true
  | .getInfo => true
  | .benchReset => true
  | .benchHold => true
  | .benchRelease => true
  | .deviceReset => true
  | .deviceSoftReset => true
  | .stageBegin => true
  | .stageWrite => true
  | .stageFinish .. => true
  | .fuseReport => true
  | .attestPq => true
  | .lifecycleNonce => true
  | .lifecycleAdvance => true
  | .lifecycleConfirm => true
  | .lifecycleDebugcred => true
  | .tamperClear => true
  | .rmaReport => true
  | .pwrokRise => true
  | .aonDomainValid => true
  | .powerOnReset => true
  | .brownOut => true
  | .resetNPulse => true
  | .resetNRise => true
  | .deviceWatchdogExpiry => true
  | .hostClockLoss .. => true
  | .aonClockLoss => true
  | .aonClockRecovery => true
  | .dmcLockup => true
  | .benchClockLoss _ lost => lost.all fun l => decide (paType (l.toNat * 64) = .normal)
  | .benchClockRecovery .. => true
  | .fllLockLoss .. => true
  | .fllRelock .. => true
  | .fllRelockTimeout .. => true
  | .benchWatchdogExpiry .. => true
  | .wdkickWrite .. => true
  | .rstreqWrite .. => true
  | .benchResetEntry .. => true
  | .fuseSense => true
  | .dmcRelease => true
  | .bootcfgSampling .. => true
  | .optionLoading .. => true
  | .imageCommit => true
  | .hostPhyRelease => true
  | .pcieControllerRelease => true
  | .benchResetRelease .. => true
  | .tagClearComplete .. => true
  | .supervisorFirstFetch .. => true
  | .bypass => true
  | .idcode => true
  | .samplePreload => true
  | .extest => true
  | .clamp => true
  | .highz => true
  | .dbgChal => true
  | .dbgResp resp => decide (resp.length = 5518)
  | .dbgClose => true
  | .testLogicReset => true
  | .debugValidityExpiry => true
  | .regRd .. => true
  | .regWr .. => true
  | .memRd .. => true
  | .memWr .. => true
  | .coreHalt .. => true
  | .coreRun .. => true
  | .coreStep .. => true
  | .stateRd .. => true
  | .stateWr .. => true
  | .pwrStateWrite .. => true
  | .idleEntry .. => true
  | .idleExit .. => true
  | .napEntry .. => true
  | .offEntry .. => true
  | .napWake .. => true
  | .frequencySelection _ lat => lat.map (·.1) |>.Nodup |> decide
  | .policyRelease .. => true
  | .avsAdjustment .. => true
  | .avsbusTimeout .. => true
  | .thermalThrottleStep .. => true
  | .thermtrip => true
  | .currentLimitStep .. => true
  | .powerCapStep .. => true
  | .parkWrite .. => true
  | .corePowerGating .. => true
  | .meshTrip .. => true
  | .sensorTrip .. => true
  | .vbatChangeover .. => true
  | .vbatLoss => true
  | .registerWrite .. => true
  | .hostInboundAccess _ addr acc => acc.wf addr
  | .undefinedEncoding _ _ word => wordUndefined word
  | .tamperSourceRestore .. => true

end Sys2Proof
end

