-- ==== Sys2Proof/Tests/Slice0.lean ====
section
/-!
SUPPORT. Tests/Slice0.lean: tests on small states: ill-formed commands, words written out from the spec's encodings, results of single
commands, and for each statement a state that meets its hypotheses.

A statement's witness stands in `witness_<Name>`, or `witness_<Name>_<part>` where it has several parts, its clauses in their order. A signature
that verifies takes longer to evaluate than a test may, and SERIAL and the device's keys are free values (opaque in Config), so that a clause
whose hypothesis says that a signature verifies, or that names SERIAL's bytes, has no fixed state here; its other hypotheses are met beside it.
-/

namespace Sys2Proof.Tests
set_option maxRecDepth 8000
set_option Elab.async false
open Sys2Proof Sys2Proof.Machine

def freeRule : MafRule := { w0 := 0, w1 := 0x0FFFFFFF, w2 := 0x800F0000 }
def live : Bench :=
  { Bench.zero 0 with maf := { mafBoot none with rules0 := [(0, freeRule)] }
                      rst := { Rst.zero with released := true, tagClearDone := true, firstFetch := true } }
def dataCap (a : Dword) : Cap := Cap.root 0xFB3B 27 0 0x8000000000 a
def strandBank : Bank :=
  { Bank.zero with pcc := Cap.rootPcc 0x1000000000, c := Bank.zero.c.set 1 (dataCap 0x1000001000)
                   x := (Bank.zero.x.set 2 7).set 3 0xFFFFFFFE }
/-- The supervisor core executes bank 7, changed by `f`. -/
def onBsc (f : Bank → Bank) : Bench :=
  { live with cores := live.cores.set 16 { Core.zero with cur := some 7, banks := Core.zero.banks.set 7 (f strandBank) } }
/-- Core 0 executes bank 1, changed by `f`, with task 20. -/
def onQuad (f : Bank → Bank) : Bench :=
  { live with
    cores := live.cores.set 0 { Core.zero with cur := some 1, banks := Core.zero.banks.set 1 (f { strandBank with task := some 20 }) }
    sched := { live.sched with tasks := [(20, { Task.zero with state := .running, at? := some (0, 1) })] } }
def xb (g : Guard) : Exec := { bench := 0, core := 16, guard := g }
def xq (g : Guard) : Exec := { bench := 0, core := 0, guard := g }
def always : Guard := .ifp 0
def begun (x : Exec) (B : Bench) : BankNo × Bench := (B.begins x).getD (0, B)

theorem begins_begun {x : Exec} {B : Bench} (h : (B.begins x).isSome = true) : B.begins x = some (begun x B) := by
  unfold begun
  cases hb : B.begins x with
  | none => simp [hb] at h
  | some v => rfl

def world (B : Bench) : State := { pending := [], dev := Device.zero, benches := (Vector.ofFn Bench.zero).set 0 B }

theorem world_bench (B : Bench) : (world B).bench 0 = B := by simp [world, State.bench]

def plainForB (B : Bench) (mid a n : Nat) (need : Right) : Bool :=
  (List.range n).all fun j => let i := a + j
    decide (paType i = .normal) && B.mafAllows mid i need && !B.mem.poison.contains (i / 64) && !B.mem.latent.contains (i / 64)
      && !B.mem.weak.contains (i / 64) && !B.mem.tagLatent.contains (i / 8192) && !B.mem.tagWeak.contains (i / 8192)
theorem plainFor_of {B : Bench} {mid a n : Nat} {need : Right} (h : plainForB B mid a n need = true) : B.plainFor mid a n need := by
  simp only [plainForB, Bool.and_eq_true, List.all_eq_true, decide_eq_true_eq, Bool.not_eq_true', List.mem_range] at h
  intro i h1 h2
  have g := h (i - a) (by omega)
  rw [Nat.add_sub_cancel' h1] at g
  obtain ⟨⟨⟨⟨⟨⟨p1, p2⟩, p3⟩, p4⟩, p5⟩, p6⟩, p7⟩ := g
  refine ⟨p1, p2, ?_, ?_, ?_, ?_, ?_⟩ <;> intro hc <;> simp_all
def plainB (B : Bench) (k : CoreNo) (b : BankNo) (a n : Nat) (need : Right) : Bool :=
  decide (slice (B.bank k b).atp.toNat 17 16 = 0) && plainForB B (midCore k) a n need
theorem plain_of {B : Bench} {k : CoreNo} {b : BankNo} {a n : Nat} {need : Right} (h : plainB B k b a n need = true) :
    B.plainMemory k b a n need := by
  simp only [plainB, Bool.and_eq_true, decide_eq_true_eq] at h
  exact ⟨h.1, plainFor_of h.2⟩
def authB (c : Cap) (perms : List Nat) (a n : Nat) : Bool :=
  c.tag && decide (c.otype = 0) && perms.all c.has && decide (c.base ≤ a) && decide (a + n ≤ c.top)
theorem auth_of {c : Cap} {perms : List Nat} {a n : Nat} (h : authB c perms a n = true) : c.authorises perms a n := by
  simp only [authB, Bool.and_eq_true, List.all_eq_true, decide_eq_true_eq] at h
  exact ⟨h.1.1.1.1, h.1.1.1.2, h.1.1.2, h.1.2, h.2⟩

/-! ## Ill-formed commands -/

theorem test_ill_hostLinkChange : (Instr.hostLinkChange true 0 3).wf = false ∧ (Instr.hostLinkChange true 0 16).wf = true := by decide +kernel
/-- A line of the register space cannot hold a byte of memory. -/
theorem test_ill_benchClockLoss : (Instr.benchClockLoss 0 [0x80000000]).wf = false ∧ (Instr.benchClockLoss 0 [0x40000000]).wf = true := by decide +kernel
theorem test_ill_dbgResp : (Instr.dbgResp (zeros 5517)).wf = false ∧ (Instr.dbgResp (zeros 5518)).wf = true := by decide +kernel
theorem test_ill_frequencySelection :
    (Instr.frequencySelection 0 [(383, 10), (383, 11)]).wf = false ∧ (Instr.frequencySelection 0 [(383, 10), (0, 11)]).wf = true := by decide +kernel
theorem test_ill_hostInboundAccess :
    (∀ n ∈ [0, 4097], (Instr.hostInboundAccess 0 0 (.read n)).wf = false) ∧ (Instr.hostInboundAccess 0 0 (.read 4096)).wf = true
    ∧ (Instr.hostInboundAccess 0 0 (.write [])).wf = false ∧ (Instr.hostInboundAccess 0 0 (.write (zeros 513))).wf = false
    ∧ (Instr.hostInboundAccess 0 0x1FFFFFFFFF (.write [0, 0])).wf = false ∧ (Instr.hostInboundAccess 0 0x1FFFFFFFFF (.write [0])).wf = true := by
  decide +kernel
/-- ADD is a defined word; major 0x0A is none (R181). -/
theorem test_ill_undefinedEncoding : (Instr.undefinedEncoding 0 0 0).wf = false ∧ (Instr.undefinedEncoding 0 0 0x01400000).wf = true := by decide +kernel

/-! ## Words of the instruction set, field by field: guard, major, the format's fields (R118, R121) -/

/-- ADD x4, x2, x3; MIN under p3; BSWAP under not p2 (R179). -/
theorem test_word_integer :
    encR (.ifp 0) 0x00 4 2 3 0x00 = 0b0000_0000000_00100_00010_00011_000000 ∧ encR (.ifp 3) 0x00 4 2 3 0x0D = 0b0011_0000000_00100_00010_00011_001101
    ∧ encR (.ifnot 1) 0x00 31 2 0 0x17 = 0b1010_0000000_11111_00010_00000_010111 := by decide +kernel
/-- ADDI x1, x2, -1; LUI x9, 0x8001; J -4 (R181, R118). -/
theorem test_word_formats :
    encI (.ifp 0) 0x01 1 2 0x7FF = 0b0000_0000001_00001_00010_11111111111 ∧ encU (.ifp 0) 0x06 9 0x8001 = 0b0000_0000110_01001_1000000000000001
    ∧ encJ (.ifp 0) 0x30 0x1FFFFF = 0b0000_0110000_111111111111111111111 := by decide +kernel
/-- MAC, CRCW with CRC-32C and LBU.PD are read back; the guard 0b1000 is the prefix space, and code 3 is no polynomial (R121, R182, R183). -/
theorem test_word_repeats :
    wRepeat 0b0000_0001000_00100_00010_00011_000000 = some (.ifp 0, .mac 4 2 3)
    ∧ wRepeat 0b0000_0001001_00100_00010_00000_010001 = some (.ifp 0, .crcw 1 4 2)
    ∧ wRepeat 0b0010_0011100_00100_00010_00000_100001 = some (.ifp 2, .load .lbu true 4 2)
    ∧ wRepeat 0b1000_0001000_00100_00010_00011_000000 = none ∧ wRepeat 0b0000_0001001_00100_00010_00000_010011 = none := by decide +kernel
/-- ADD and REMU are defined, a unary form with rs2 of 1, function 0x20 and major 0x0A are not (R179, R181). -/
theorem test_word_defined :
    wordDefined 0b0000_0000000_00100_00010_00011_000000 = true ∧ wordDefined 0b0000_0000000_00100_00010_00011_011111 = true
    ∧ wordDefined 0b0000_0000000_00100_00010_00001_010001 = false ∧ wordDefined 0b0000_0000000_00100_00010_00011_100000 = false
    ∧ wordDefined 0b0000_0001010_00000_00000_00000_000000 = false := by decide +kernel

/-! ## Results of single commands -/

/-- Register `r` of the supervisor core's strand after the command, with x2 = `a` and x3 = `b`, x5 and p0 as at reset. -/
def after (i : Exec → Instr) (a b : Word) (r : Reg) : Word :=
  match exec (i (xb always)) (world (onBsc fun k => { k with x := (k.x.set 2 a).set 3 b })) with
  | .next s => ((s.bench 0).bank 16 7).getX r
  | _ => 0
/-- R180: a zero divisor and the one overflow. -/
theorem test_division :
    after (.div · 4 2 3) 7 0 4 = 0xFFFFFFFF ∧ after (.rem · 4 2 3) 7 0 4 = 7 ∧ after (.div · 4 2 3) 0x80000000 0xFFFFFFFF 4 = 0x80000000
    ∧ after (.rem · 4 2 3) 0x80000000 0xFFFFFFFF 4 = 0 ∧ after (.div · 4 2 3) 0xFFFFFFF9 2 4 = 0xFFFFFFFD ∧ after (.rem · 4 2 3) 0xFFFFFFF9 2 4 = 0xFFFFFFFF := by
  decide +kernel
theorem test_multiplication :
    after (.mulh · 4 2 3) 0xFFFFFFFF 0xFFFFFFFF 4 = 0 ∧ after (.mulhu · 4 2 3) 0xFFFFFFFF 0xFFFFFFFF 4 = 0xFFFFFFFE
    ∧ after (.mulhsu · 4 2 3) 0xFFFFFFFF 0xFFFFFFFF 4 = 0xFFFFFFFF ∧ after (.mul · 4 2 3) 0xFFFFFFFF 0xFFFFFFFF 4 = 1 := by decide +kernel
theorem test_shifts :
    after (.sra · 4 2 3) 0x80000000 33 4 = 0xC0000000 ∧ after (.srl · 4 2 3) 0x80000000 33 4 = 0x40000000 ∧ after (.rol · 4 2 3) 0x80000001 1 4 = 3
    ∧ after (.ror · 4 2 3) 0x80000001 1 4 = 0xC0000000 ∧ after (.srai · 4 2 31) 0x80000000 0 4 = 0xFFFFFFFF := by decide +kernel
theorem test_unary :
    after (.clz · 4 2) 0 0 4 = 32 ∧ after (.ctz · 4 2) 8 0 4 = 3 ∧ after (.popc · 4 2) 0xF0F0F0F0 0 4 = 16 ∧ after (.bswap · 4 2) 0x01020304 0 4 = 0x04030201
    ∧ after (.sextb · 4 2) 0x80 0 4 = 0xFFFFFF80 ∧ after (.zexth · 4 2) 0xFFFF8000 0 4 = 0x8000 := by decide +kernel
/-- LUI and LIL form a constant (R181); x0 discards a write (R176). -/
theorem test_constants :
    after (.lui · 4 0x8001) 0 0 4 = 0x80010000 ∧ after (.lil · 2 0x1234) 0xABCD5678 0 2 = 0xABCD1234 ∧ after (.addi · 4 2 0x7FF) 0 0 4 = 0xFFFFFFFF
    ∧ after (.add · 0 2 3) 1 1 0 = 0 := by decide +kernel

/-- The state after one zero byte of CRC-32 and of CRC-32C: the complement of their check values (R183). -/
theorem test_crc : after (.crcb · 0 2 3) 0xFFFFFFFF 0 2 = 0x2DFD1072 ∧ after (.crcb · 1 2 3) 0xFFFFFFFF 0 2 = 0xAD82ACAE := by decide +kernel
/-- The release begins: PWROK, then the always-on domain, then the fuses (R692, R771, R772). -/
theorem test_powerOn :
    (match exec .pwrokRise State.reset with | .next s => decide (s.dev.phase = .aonWait ∧ s.dev.pwrok = true) | _ => false) = true
    ∧ (match exec .pwrokRise State.reset with
       | .next s => (match exec .aonDomainValid s with | .next t => decide (t.dev.phase = .fuse) | _ => false)
       | _ => false) = true := by decide +kernel
/-- SHA-384 of "abc" (FIPS 180-4), its first eight bytes. -/
theorem test_sha384 : (sha384 [0x61, 0x62, 0x63]).take 8 = [0xcb, 0x00, 0x75, 0x3f, 0x45, 0xa3, 0x5e, 0x8b] := by decide +kernel

/-- FIPS 197, C.1. -/
theorem test_aes :
    aesEnc ((List.range 16).map (BitVec.ofNat 8)) ((List.range 16).map fun i => BitVec.ofNat 8 (17 * i)) =
      [0x69, 0xc4, 0xe0, 0xd8, 0x6a, 0x7b, 0x04, 0x30, 0xd8, 0xcd, 0xb7, 0x80, 0x70, 0xb4, 0xc5, 0x5a] := by decide +kernel

/-- RFC 8439, 2.3.2: the first eight bytes. -/
theorem test_chacha :
    (chachaBlock ((List.range 32).map (BitVec.ofNat 8)) [0, 0, 0, 9, 0, 0, 0, 0x4a, 0, 0, 0, 0] 1).take 8 = [0x10, 0xf1, 0xe7, 0xe4, 0xd1, 0x3b, 0x59, 0x15] := by decide +kernel

/-- FIPS 202: SHA3-256 of nothing, its first eight bytes. -/
theorem test_sha3 : (sha3 32 []).take 8 = [0xa7, 0xff, 0xc6, 0xf8, 0xbf, 0x1e, 0xd7, 0x66] := by decide +kernel

/-! ## The hypotheses of the statements -/

def starts (x : Exec) (B : Bench) : Bool := (B.begins x).isSome
def own (x : Exec) (B : Bench) : Bank := (begun x B).2.bank x.core (begun x B).1
def withC (c : Cap) : Bench := onBsc fun k => { k with c := k.c.set 1 c }
def with2C (c d : Cap) : Bench := onBsc fun k => { k with c := (k.c.set 1 c).set 2 d }
def bsc0 : Exec := xb always
def ran {α : Type} (m : M α) (B : Bench) : Bool :=
  match m B with
  | .ok _ _ => true
  | .error _ _ => false
theorem ran_ok {α : Type} {m : M α} {B : Bench} (h : ran m B = true) : ∃ v C, m B = .ok v C := by
  unfold ran at h
  cases hm : m B with
  | ok v C => exact ⟨v, C, rfl⟩
  | error e C => simp [hm] at h

theorem witness_IntegerResults : starts bsc0 (onBsc id) = true ∧ starts (xq (.ifnot 6)) (onQuad id) = true := by decide +kernel

/-- Loads of 1, 2, 4 and 16 bytes, the last granule within the capability's bounds among them. -/
theorem witness_LoadResults :
    (let B := withC (dataCap 0x1000001000); let p := begun bsc0 B; let c := (own bsc0 B).getC 1
     starts bsc0 B = true ∧ (c.authorises [permLD] 0x1000001000 1 ∧ p.2.plainMemory 16 p.1 0x1000001000 1 .r)
       ∧ (c.authorises [permLD] 0x1000001000 2 ∧ p.2.plainMemory 16 p.1 0x1000001000 2 .r)
       ∧ (c.authorises [permLD] 0x1000001000 4 ∧ p.2.plainMemory 16 p.1 0x1000001000 4 .r)
       ∧ ∀ n ∈ [1, 2, 4, 16], ran (M.load (strandOf 16 p.1) c c.cursor n) p.2 = true)
    ∧ (let B := withC (Cap.rootPcc 0x1000FFFFF0); let p := begun bsc0 B; let c := (own bsc0 B).getC 1
       starts bsc0 B = true ∧ c.top = 0x1001000000 ∧ c.authorises [permLD] c.cursor.toNat 16 ∧ p.2.plainMemory 16 p.1 c.cursor.toNat 16 .r
         ∧ ran (M.loadCap (strandOf 16 p.1) c c.cursor) p.2 = true) :=
  ⟨⟨by decide +kernel, ⟨auth_of (by decide +kernel), plain_of (by decide +kernel)⟩, ⟨auth_of (by decide +kernel), plain_of (by decide +kernel)⟩,
    ⟨auth_of (by decide +kernel), plain_of (by decide +kernel)⟩, by decide +kernel⟩,
   by decide +kernel, by decide +kernel, auth_of (by decide +kernel), plain_of (by decide +kernel), by decide +kernel⟩

theorem witness_StoreResults :
    let B := with2C (dataCap 0x1000001000) Cap.null
    let T := with2C (dataCap 0x1000001000) (dataCap 0)
    let p := begun bsc0 B
    let q := begun bsc0 T
    let c := (own bsc0 B).getC 1
    starts bsc0 B = true ∧ p.2.mem.wf = true ∧ c.authorises [permST] 0x1000001000 16 ∧ p.2.plainMemory 16 p.1 0x1000001000 16 .w
      ∧ (own bsc0 B).getC 2 = Cap.null
      ∧ starts bsc0 T = true ∧ q.2.mem.wf = true ∧ ((own bsc0 T).getC 1).authorises [permST, permSTC] 0x1000001000 16
      ∧ q.2.plainMemory 16 q.1 0x1000001000 16 .w
      ∧ (((own bsc0 T).getC 2).has permGL = true ∧ ((own bsc0 T).getC 2).tag = true ∧ q.2.mafTagw (midCore 16) 0x1000001000 = true)
      ∧ (∀ l ∈ [[7], [7, 0], [7, 0, 0, 0], zeros 16], ran (M.store (strandOf 16 p.1) c c.cursor l) p.2 = true)
      ∧ ran (M.storeCap (strandOf 16 q.1) c c.cursor ((own bsc0 T).getC 2)) q.2 = true :=
  ⟨by decide +kernel, by decide +kernel, auth_of (by decide +kernel), plain_of (by decide +kernel), by decide +kernel, by decide +kernel,
    by decide +kernel, auth_of (by decide +kernel), plain_of (by decide +kernel), by decide +kernel, by decide +kernel, by decide +kernel⟩

/-- The word in memory is 0: it equals x0 and not x2; the granule equals c0's and not c1's. -/
theorem witness_AtomicResults :
    let B := onBsc id
    let p := begun bsc0 B
    let c := (own bsc0 B).getC 1
    starts bsc0 B = true ∧ p.2.mem.wf = true ∧ c.authorises [permLD, permST] c.cursor.toNat 4 ∧ c.cursor.toNat % 16 = 0
      ∧ p.2.plainMemory 16 p.1 c.cursor.toNat 4 .rw ∧ c.authorises [permLD, permST] c.cursor.toNat 16 ∧ p.2.plainMemory 16 p.1 c.cursor.toNat 16 .rw
      ∧ (List.range 4).map (fun i => p.2.mem.byte (c.cursor.toNat + i)) = zeros 4 ∧ (own bsc0 B).getX 0 = 0 ∧ (own bsc0 B).getX 2 ≠ 0
      ∧ c.storeAllowed Cap.null = true ∧ p.2.mem.tag (c.cursor.toNat / 16) = false ∧ leNat (p.2.mem.read c.cursor.toNat 16) = 0
      ∧ (own bsc0 B).getC 0 = { tag := false, bits := 0 } ∧ (own bsc0 B).getC 1 ≠ { tag := false, bits := 0 } :=
  ⟨by decide +kernel, by decide +kernel, auth_of (by decide +kernel), by decide +kernel, plain_of (by decide +kernel), auth_of (by decide +kernel),
    plain_of (by decide +kernel), by decide +kernel⟩

/-- The four checks, the last one byte beyond the top. -/
theorem witness_AccessCheckFaults :
    (∀ c ∈ [Cap.null, (dataCap 0).withOtype 0x20, Cap.rootSeal, Cap.rootPcc 0x1000FFFFFD], starts bsc0 (withC c) = true ∧ (own bsc0 (withC c)).getC 1 = c)
    ∧ Cap.null.tag = false ∧ (dataCap 0).tag = true ∧ ((dataCap 0).withOtype 0x20).otype ≠ 0
    ∧ (Cap.rootSeal.tag = true ∧ Cap.rootSeal.otype = 0 ∧ Cap.rootSeal.has permLD = false ∧ Cap.rootSeal.has permST = false)
    ∧ (let c := Cap.rootPcc 0x1000FFFFFD
       c.tag = true ∧ c.otype = 0 ∧ c.has permLD = true ∧ c.top + 1 = c.cursor.toNat + 4 ∧ c.base ≤ c.cursor.toNat) := by decide +kernel

theorem witness_CursorAndFieldOperations :
    (∀ c ∈ [Cap.null, dataCap 0, (dataCap 0).withOtype 0x20], starts bsc0 (withC c) = true ∧ (own bsc0 (withC c)).getC 1 = c)
    ∧ Cap.null.tag = false ∧ (dataCap 0).otype = 0 ∧ (dataCap 0).tag = true ∧ ((dataCap 0).withOtype 0x20).otype ≠ 0 := by decide +kernel

/-- Bounds set at an exact length, and refused where the source does not contain them; the sealing types at the ends of their range. -/
theorem witness_CapabilityDerivation :
    let c := dataCap 0x1000001000
    let seal' (a : Dword) : Cap := Cap.rootSeal.withCursor a
    let gate := Cap.rootPcc 0x1000FFFFFC
    (starts bsc0 (with2C c (seal' 0x100)) = true ∧ (own bsc0 (with2C c (seal' 0x100))).getC 1 = c ∧ (own bsc0 (with2C c (seal' 0x100))).getC 2 = seal' 0x100)
    ∧ c.tag = true ∧ c.otype = 0 ∧ (c.setBounds 7 false).isSome = true ∧ (c.setBounds (7 * 4096) false).isSome = true ∧ (c.setBounds 7 true).isSome = true
    ∧ (∀ n ∈ [0x10, 0x100, 0xEFFF], let a := seal' (BitVec.ofNat 64 n)
        a.tag = true ∧ a.otype = 0 ∧ a.has permSEAL = true ∧ a.has permUNSEAL = true ∧ a.cursor.toNat = n ∧ a.base ≤ n ∧ n < a.top)
    ∧ (gate.has permEX = true ∧ gate.cursor.toNat % 4 = 0 ∧ gate.base ≤ gate.cursor.toNat ∧ gate.cursor.toNat + 4 = gate.top)
    ∧ ((c.withOtype 0x100).tag = true ∧ (c.withOtype 0x100).otype = 0x100)
    ∧ ((Cap.rootPcc 0x1000FFFFFF).setBounds 7 false = none ∧ (Cap.rootPcc 0x1000FFFFFF).setBounds 7 true = none
        ∧ (Cap.rootPcc 0x1000FFFFFF).setBounds (7 * 4096) false = none)
    ∧ (c.has permEX = false ∧ (Cap.rootPcc 0x1000000002).cursor.toNat % 4 ≠ 0
        ∧ (Cap.rootPcc 0x1001000000).top < (Cap.rootPcc 0x1001000000).cursor.toNat + 4 ∧ (Cap.rootPcc 0x1001000000).tag = true)
    ∧ (c.has permSEAL = false ∧ (seal' 0xF000).top = 0xF000 ∧ (seal' 0xF000).tag = true ∧ (seal' 0xF).base ≤ 0xF
        ∧ otypeSealable 0xF = false) := by decide +kernel

theorem witness_PredicateResults :
    starts bsc0 (onBsc id) = true ∧ 8 ≤ (8 : Reg).val ∧ 8 ≤ (31 : Reg).val ∧ 16 ≤ (16 : Reg).val := by decide +kernel

theorem witness_JumpsEntriesAndReturns :
    let gate := (Cap.rootPcc 0x1000000100).withOtype 1
    let back := (Cap.rootPcc 0x1000000100).withOtype 2
    let off (B : Bench) : Bench := { B with ctl := { B.ctl with lastEnforce := false } }
    let g := off (withC gate)
    let f (k : Bank) : Bank := { k with entry := k.entry.set 7 gate, entryCsp := k.entryCsp.set 7 (dataCap 0x1000001000), estat := 3 }
    let e := off <| onBsc fun k => { f k with c := (k.c.set 1 back).set 30 Cap.null, epcc := Cap.rootPcc 0x1000000100 }
    starts bsc0 g = true ∧ starts bsc0 e = true
    ∧ (let k := own bsc0 g
       k.pcc.base ≤ k.pcc.cursor.toNat + 4 ∧ k.pcc.cursor.toNat + 4 + 4 ≤ k.pcc.top ∧ (begun bsc0 g).2.ctl.lastEnforce = false
       ∧ k.pcc.cursor.toNat - 4 < k.pcc.base ∧ (k.getC 1).tag = true ∧ (k.getC 1).otype = 1 ∧ (k.getC 1).cursor.toNat % 4 = 0)
    ∧ (let k := own bsc0 e
       (begun bsc0 e).2.ctl.lastEnforce = false ∧ k.entry[7].tag = true ∧ k.entry[7].otype = 1 ∧ k.entry[7].cursor.toNat % 4 = 0
       ∧ k.entryCsp[7].tag = true ∧ k.entryCsp[7].otype = 0 ∧ k.entryCsp[7].cursor.toNat % 16 = 0
       ∧ (k.getC 1).tag = true ∧ (k.getC 1).otype = 2 ∧ (k.getC 1).cursor.toNat % 4 = 0 ∧ (k.getC 30).tag = false
       ∧ k.pcc.has permSYS = true ∧ ((begun bsc0 e).2.core 16).escActive = false ∧ k.epcc.tag = true ∧ k.epcc.otype = 0 ∧ k.epcc.cursor.toNat % 4 = 0) := by
  decide +kernel

def enforced (f : Bank → Bank) : Bench := { onBsc f with ctl := { (onBsc f).ctl with lastEnforce := true } }
/-- The Last: untagged, without room for a push, with one entry that is 0 and one that names the target, and full to its top. -/
theorem witness_LastResults :
    let lasts (o : Nat) (pc l : Cap) : Bench := enforced fun k => { k with c := k.c.set 1 (pc.withOtype (BitVec.ofNat 16 o)), last := l }
    let pc := Cap.rootPcc 0x1000000100
    let l (a : Dword) : Cap := (Cap.rootPcc a).withOtype 0x10
    (∀ o ∈ [0, 1, 2], ∀ w ∈ [Cap.null, l 0x1000000007, l 0x1000000008, l 0x1000FFFFF8, l 0x1000FFFFF9], starts bsc0 (lasts o pc w) = true
      ∧ (begun bsc0 (lasts o pc w)).2.ctl.lastEnforce = true ∧ ((own bsc0 (lasts o pc w)).getC 1).otype.toNat = o ∧ (own bsc0 (lasts o pc w)).last = w)
    ∧ pc.tag = true ∧ pc.cursor.toNat % 4 = 0
    ∧ Cap.null.tag = false ∧ ((l 0x1000000007).tag = true ∧ (l 0x1000000007).cursor.toNat < (l 0x1000000007).base + 8)
    ∧ ((l 0x1000000008).base + 8 ≤ (l 0x1000000008).cursor.toNat ∧ (l 0x1000FFFFF8).cursor.toNat + 8 = (l 0x1000FFFFF8).top
        ∧ (l 0x1000FFFFF9).top < (l 0x1000FFFFF9).cursor.toNat + 8 ∧ (l 0x1000FFFFF9).tag = true)
    ∧ (let B := lasts 2 pc (l 0x1000FFFFF8); let p := begun bsc0 B
       p.2.plainMemory 16 p.1 0x1000FFFFF8 8 .r ∧ leNat (p.2.mem.read 0x1000FFFFF8 8) ≠ pc.cursor.toNat
       ∧ p.2.mem.wf = true ∧ p.2.plainMemory 16 p.1 0x1000000000 8 .w)
    ∧ leNat ((begun bsc0 (lasts 2 (pc.withCursor 0) (l 0x1000FFFFF8))).2.mem.read 0x1000FFFFF8 8) = (pc.withCursor 0).cursor.toNat :=
  ⟨by decide +kernel, by decide +kernel, by decide +kernel, by decide +kernel, by decide +kernel, by decide +kernel,
    ⟨plain_of (by decide +kernel), by decide +kernel, by decide +kernel, plain_of (by decide +kernel)⟩, by decide +kernel⟩

def plainPcc : Bench := onBsc fun k => { k with pcc := k.pcc.withPerm 0x0005 }
theorem witness_SystemRegisters :
    starts bsc0 (onBsc id) = true ∧ (own bsc0 (onBsc id)).pcc.has permSYS = true ∧ starts bsc0 plainPcc = true
    ∧ (own bsc0 plainPcc).pcc.has permSYS = false ∧ xSysListed 0x010 = true ∧ xSysListed 0x7FF = false := by decide +kernel

theorem witness_CapabilitySystemRegisters :
    let pc := Cap.rootPcc 0x1000000100
    let sp := (Cap.rootPcc 0x1000000200).withPerm 0x001B
    let lst := (dataCap 0x1000001000).withOtype 0x10
    let core (B : Bench) (f : Core → Core) : Bench := B.modCore 16 f
    let locks := core (onBsc fun k => { k with x := k.x.set 2 1 }) fun c => { c with escPcc := pc, escCsp := sp }
    (∀ c ∈ [pc, sp, lst, Cap.null], starts bsc0 (withC c) = true ∧ (own bsc0 (withC c)).getC 1 = c)
    ∧ ((begun bsc0 (withC pc)).2.core 16).saemergWritten = false ∧ ((begun bsc0 (withC pc)).2.core 16).escLock = false
    ∧ (∀ f : Core → Core, f ∈ [fun c => { c with saemergWritten := true }, fun c => { c with escLock := true }, fun c => { c with escLockWritten := true }] →
        starts bsc0 (core (onBsc id) f) = true)
    ∧ (pc.tag = true ∧ pc.otype = 0 ∧ pc.cursor.toNat % 4 = 0 ∧ pc.base ≤ pc.cursor.toNat ∧ pc.cursor.toNat + 4 ≤ pc.top ∧ 0x1000000000 ≤ pc.base
        ∧ pc.top ≤ 0x1001000000 ∧ pc.hasAll [permLD, permEX, permSYS, permBANK] = true)
    ∧ (sp.tag = true ∧ sp.otype = 0 ∧ sp.cursor.toNat % 16 = 0 ∧ sp.base + 512 = sp.cursor.toNat ∧ sp.cursor.toNat ≤ sp.top ∧ 0x1000000000 ≤ sp.base
        ∧ sp.top ≤ 0x1001000000 ∧ sp.hasAll [permLD, permST, permLDC, permSTC] = true ∧ sp.has permGL = false)
    ∧ (lst.otype = 0x0010 ∧ lst.hasAll [permLD, permST] = true ∧ lst.cursor.toNat % 8 = 0 ∧ lst.base ≤ lst.cursor.toNat ∧ lst.cursor.toNat ≤ lst.top)
    ∧ (starts bsc0 locks = true ∧ ((own bsc0 locks).getX 2).getLsbD 0 = true ∧ (escPccCheck ((begun bsc0 locks).2.core 16).escPcc).toBool = true
        ∧ (escCspCheck ((begun bsc0 locks).2.core 16).escCsp).toBool = true)
    ∧ (escPccCheck Cap.null).toBool = false := by decide +kernel

def pendingB (l : List Broadcast) (B : Bench) : Bench := { B with trans := { B.trans with pending := l } }
/-- A broadcast of the strand's own, and none. -/
theorem witness_FencesAndBroadcasts :
    let B := onBsc id
    let W := pendingB [{ core := 16, bank := 7, scope := .all }] B
    starts bsc0 B = true ∧ B.trans.pending = [] ∧ (own bsc0 B).pcc.has permSYS = true
    ∧ starts bsc0 W = true ∧ (begun bsc0 W).1 = 7 ∧ (W.trans.pending.map fun p => (p.core, p.bank)) = [(16, 7)]
    ∧ ((W.modCore 0 fun c => { c with clockStopped := true }).core 0).clockStopped = true := by decide +kernel

theorem witness_HoldsWaitsAndEvents :
    let B := { onBsc id with ctl := { (onBsc id).ctl with holdLimit := 100 } }
    let H := B.modCore 16 fun c => { c with hold := some 5 }
    let trap (f : Bank → Bench) : Bench := f { strandBank with estat := 1 }
    let task (t : Task) (B : Bench) : Bench := { B with sched := { B.sched with tasks := [(20, t)] } }
    let run : Task := { Task.zero with state := .running, at? := some (0, 1) }
    let q := xq always
    starts bsc0 B = true ∧ (own bsc0 B).pcc.has permSYS = true ∧ ((begun bsc0 B).2.core 16).hold = none ∧ (own bsc0 B).inTrap = false
    ∧ (begun bsc0 B).2.ctl.holdLimit.toNat = 100
    ∧ starts bsc0 H = true ∧ ((begun bsc0 H).2.core 16).hold ≠ none ∧ (H.core 16).clockStopped = false
    ∧ ((H.modCore 16 fun c => { c with clockStopped := true }).core 16).hold ≠ none
    ∧ starts bsc0 plainPcc = true ∧ (own bsc0 plainPcc).pcc.has permSYS = false
    ∧ (own bsc0 (trap fun k => onBsc fun _ => k)).inTrap = true ∧ starts bsc0 (trap fun k => onBsc fun _ => k) = true
    ∧ (∀ t ∈ [run, { run with wake := true }], starts q (task t (onQuad id)) = true ∧ (own q (task t (onQuad id))).task = some 20
        ∧ (own q (task t (onQuad id))).inTrap = false ∧ ((begun q (task t (onQuad id))).2.task 20) = t ∧ (begun q (task t (onQuad id))).2.trapPending 20 = false)
    ∧ (let B := task { run with stopDue := true } ((onQuad fun k => { k with estat := 0 }).modCore 0 fun c => { c with hold := some 3 })
       starts q B = true ∧ ((begun q B).2.task 20).stopDue = true) := by decide +kernel

def window (b w : BankNo) (f : Bench → Bench) : Bench :=
  f ((onQuad id).modCore 0 fun c => { c with bankwin := w, banks := c.banks.set b.val { c.bank b with pcc := Cap.rootPcc 0x1000000000 } })
/-- The window names another bank (also bank 0, at the end of its range), the strand's own, or one that the scheduler loads. -/
theorem witness_BankWindowMoves :
    let q := xq always
    (∀ w ∈ [(0 : BankNo), 2, 7], starts q (window 1 w id) = true ∧ (begun q (window 1 w id)).1 = 1 ∧ (own q (window 1 w id)).pcc.has permSYS = true
      ∧ (own q (window 1 w id)).pcc.has permBANK = true ∧ ((begun q (window 1 w id)).2.core 0).bankwin = w ∧ (window 1 w id).windowWaits 0 1 = false)
    ∧ (starts bsc0 (onBsc id) = true ∧ ((begun bsc0 (onBsc id)).2.core 16).bankwin = 0) := by decide +kernel

def areaCap (a : Dword) : Cap := (((dataCap a).setBounds 640 true).getD Cap.null).withOtype otSave
def withArea : Bench → Bench := fun B => B.modCore 0 fun c => { c with safree := areaCap 0x1000002000 }
def afterSave (upper : Bool) : Bench :=
  match saveHalf 0 2 upper 0 (window 1 2 withArea) with
  | .ok _ B => B
  | .error _ B => B
theorem witness_SaveAndLoad :
    let q := xq always
    let p := begun q (window 1 2 withArea)
    (starts q (window 1 2 withArea) = true ∧ p.1 = 1 ∧ (p.2.core 0).bankwin = 2 ∧ (window 1 2 withArea).windowWaits 0 1 = false)
    ∧ (∀ up ∈ [false, true], ran (saveHalf 0 2 up (p.2.origin 0 1)) p.2 = true
        ∧ starts q (afterSave up) = true ∧ ran (loadHalf 0 2 up (p.2.origin 0 1)) (begun q (afterSave up)).2 = true)
    ∧ (∀ w ∈ [(0 : BankNo), 1], starts q (window 1 w id) = true ∧ ((begun q (window 1 w id)).2.core 0).bankwin = w) := by decide +kernel

def startsP (k : CoreNo) (B : Bench) : Bool := (B.beginsPrefix k).isSome
def begunP (k : CoreNo) (B : Bench) : BankNo × Bench := (B.beginsPrefix k).getD (0, B)
/-- A prefix that begins, and one that goes on with 3 iterations left; no event and no switch is due; a word that is not eligible; and a
byte store through an untagged capability. -/
theorem witness_RepeatPrefixes :
    let B := onBsc id
    let R := onBsc fun k => { k with rc := 3, rcv := true }
    let U := withC Cap.null
    startsP 16 B = true ∧ ((begunP 16 B).2.bank 16 7).rcv = false ∧ (begunP 16 B).2.eventDue 16 = none ∧ (begunP 16 B).2.switchDue 16 = false
    ∧ startsP 16 R = true ∧ ((begunP 16 R).2.bank 16 7).rcv = true
    ∧ wRepeat (encR always 0x00 1 2 3 0) = none
    ∧ startsP 16 U = true ∧ ((begunP 16 U).2.bank 16 7).rcv = false ∧ always.holds ((begunP 16 U).2.bank 16 7) = true
    ∧ (((begunP 16 U).2.bank 16 7).getC 1).tag = false := by decide +kernel

/-- Undefined words at the ends of each range of major opcodes. -/
theorem witness_EncodingSpace :
    starts bsc0 (onBsc id) = true
    ∧ ∀ m ∈ [0x4F, 0x50, 0x6F, 0x70, 0x77, 0x78, 0x7B, 0x7C, 0x7F],
        wGuard (encR always m 31 31 31 63) = some always ∧ wordDefined (encR always m 31 31 31 63) = false
          ∧ ((encR always m 31 31 31 63).extractLsb' 21 7).toNat = m := by decide +kernel

theorem witness_DecimalEncodingRoundTrip :
    0 < 10 ^ 34 ∧ 10 ^ 34 - 1 < 10 ^ 34 ∧ (-6176 : Int) ≤ -6176 ∧ (6111 : Int) ≤ 6111 := by decide +kernel

/-- Operands 7 and 1 with exponent 0; a division by zero with its trap enabled; and no trap enabled. -/
theorem witness_DecimalFormsAndMoves :
    let B := onBsc fun k => { k with d := (k.d.set 1 (Dec.fin false 7 0).encode).set 2 (Dec.fin false 1 0).encode }
    let Z := onBsc fun k => { k with d := (k.d.set 1 (Dec.fin false 7 0).encode).set 2 (Dec.fin false 0 0).encode, dcsr := 0x20000 }
    let k := own bsc0 B
    let z := own bsc0 Z
    starts bsc0 B = true ∧ k.dcsr.extractLsb' 16 5 = 0 ∧ Dec.decode (k.getD 1) = .fin false 7 0 ∧ Dec.decode (k.getD 2) = .fin false 1 0
    ∧ (decAdd 0 false (k.getD 1) (k.getD 2)).2.signals &&& 0 = 0
    ∧ starts bsc0 Z = true ∧ (decDiv 0 (z.getD 1) (z.getD 2)).2.signals &&& z.dcsr.extractLsb' 16 5 ≠ 0
    ∧ (decAdd 0 false (z.getD 1) (z.getD 2)).2.signals &&& z.dcsr.extractLsb' 16 5 = 0 := by decide +kernel

def dmc : Writer := .dmc
def serve (u : Nat) (B : Bench) : Bench := B.setUState u { UState.zero with requested := 2, effective := 2 }
def asleepIn (v : BitVec 4) (req : BitVec 4) (B : Bench) : Bench := { B with pwr := { B.pwr with effective := v, requested := req } }
/-- Source `n` bound to task 20 with mode `m` and LIMIT `lim`; task 20 is `t`. -/
def bound (n m lim : Nat) (t : Task) (B : Bench) : Bench :=
  Bench.setTask { B with sched := { B.sched with bind := B.sched.bind.set 0 n (BitVec.ofNat 32 (m + 20 * 4 + lim * 2 ^ 16)) } } 20 t
def taskIn (st : TaskState) : Task := { Task.zero with state := st }

/-- Source 704 under each mode and each state of its task, masked, and source 5 while the bench sleeps; a source with a LIMIT at its last
delivery but one and at its last; event traps of a quad core and of the supervisor core, with TRAP_ENTRY usable and not. -/
theorem witness_EventsStormsAndTraps :
    let ev : EvStat := { EvStat.zero with pending := true }
    (∀ m ∈ [0, 1, 2, 3], ∀ st ∈ [TaskState.empty, .waiting, .ready, .running], let P := (bound 704 m 0 (taskIn st) live).setEv 704 ev
      P.alive = true ∧ P.asleep = false ∧ (P.ev 704).pending = true ∧ (P.ev 704).masked = false ∧ P.bindTask 704 = 20 ∧ (P.task 20).state = st
        ∧ P.bindMode 704 = [BindMode.none, .wake, .trap, .bsc].getD m .none)
    ∧ ((live.setEv 704 { ev with masked := true }).ev 704).masked = true
    ∧ (∀ v ∈ [2, 3], (asleepIn (BitVec.ofNat 4 v) 2 live).alive = true ∧ (asleepIn (BitVec.ofNat 4 v) 2 live).asleep = true ∧ (asleepIn (BitVec.ofNat 4 v) 2 live).wakeOn 5 = true
        ∧ (asleepIn (BitVec.ofNat 4 v) 2 live).wakeOn 704 = false ∧ (asleepIn (BitVec.ofNat 4 v) 2 live).pwr.effective = BitVec.ofNat 4 v
        ∧ (asleepIn (BitVec.ofNat 4 v) 0 live).pwr.requested = 0)
    ∧ (let B := (bound 704 1 5 Task.zero live).setEv 704 { ev with window := 3 }
       B.bindLimit 704 = 5 ∧ (B.ev 704).window + 1 + 1 = B.bindLimit 704 ∧ (bound 704 1 0 Task.zero live).bindLimit 704 = 0)
    ∧ (live.accessOk dmc (0x12000 + 4 * 1023) .w = true ∧ live.mem.wf = true ∧ Table.wf EvStat.zero live.sched.evstat = true ∧ live.time.elapsed % 1000 = 0
        ∧ ({ live with time := { live.time with elapsed := 999 } } : Bench).time.elapsed % 1000 ≠ 0)
    ∧ (∀ e ∈ [Cap.rootPcc 0x1000000100, Cap.null],
        let Q := (bound 704 2 0 { taskIn .running with at? := some (0, 1) } (onQuad fun k => { k with trapEntry := e })).setEv 704 ev
        let S := (bound 704 3 0 Task.zero (onBsc fun k => { k with trapEntry := e })).setEv 704 ev
        Q.eventDue 0 = some (1, 704) ∧ (Q.executing 0).isSome = true ∧ ((Q.core 0).bank 1).trapUsable = e.tag
        ∧ S.eventDue 16 = some (7, 704) ∧ S.coresRun = true ∧ (S.core 16).halted = false ∧ (S.core 16).clockStopped = false
        ∧ (S.core 16).dbgHalted = false ∧ ((S.core 16).bank 7).trapUsable = e.tag) := by decide +kernel

/-- A bench whose TCB table has an entry for task 20, with the first word `ctl` and the save area `chain`. -/
def tcbBench (ctl : Nat) (chain : Cap) (B : Bench) : Bench :=
  let B : Bench := { B with sched := { B.sched with tcbHi := 0x10 } }
  let t : Cap := (((dataCap 0x1000003000).setBounds 64 true).getD Cap.null).withOtype otTcb
  B.writeGranules midBsc 0 0x1000003000 [wordGranule [BitVec.ofNat 32 ctl, 0x007F0001, 20, 0], Cap.null, chain] |>.writeGranule midBsc 0 (0x1000000000 + 16 * 20) t
def withTcb : Cap → Bench → Bench := tcbBench 0
def tcbRead (B : Bench) (mid : Nat) : Bool := match (B.readTcb mid 0 20).1 with
  | .ok _ => true
  | .error _ => false

theorem witness_TaskCommands :
    (∀ st ∈ [TaskState.empty, .waiting, .ready, .running, .stopped, .faulted],
      (live.setTask 20 (taskIn st)).accessOk dmc 0x1000C .w = true ∧ ((live.setTask 20 (taskIn st)).task 20).state = st)
    ∧ tcbRead (withTcb Cap.null live) midBsc = true ∧ tcbRead live midBsc = false
    ∧ ((live.setTask 20 { taskIn .stopped with at? := some (0, 1) }).task 20).at? = some (0, 1) := by decide +kernel

def unlocked (B : Bench) : Bench := (B.modCore 16 fun c => { c with escLock := true }).modCore 0 fun c => { c with escLock := true }
/-- Core 0 with task 21, READY and of priority 3, in bank 2. -/
def two (cur : Option BankNo) (t : Task) (B : Bench) : Bench :=
  (((unlocked B).modCore 0 fun c => { c with cur := cur, banks := c.banks.set 2 { c.bank 2 with task := some 21 } }).setTask 20 t).setTask 21
    { taskIn .ready with at? := some (0, 2), prio := 3 }
theorem witness_PlacementAndSwitches :
    let run : Task := { taskIn .running with at? := some (0, 1) }
    let q := onQuad id
    (∀ B ∈ [two none Task.zero live, two (some 1) run q, two (some 1) { run with stopDue := true } q], B.coresRun = true ∧ (B.core 0).clockStopped = false
      ∧ (B.core 0).gated = false ∧ B.switchTarget 0 = some 2 ∧ (B.bank 0 2).task = some 21)
    ∧ (let B := (unlocked q).setTask 20 { run with stopDue := true }
       (B.core 0).switchAllowed = true ∧ (B.core 0).cur = some 1 ∧ (B.bank 0 1).task = some 20 ∧ B.switchTarget 0 = none)
    ∧ live.switchDue 0 = false
    ∧ (let B := (unlocked live).setTask 20 { taskIn .ready with cores := 1, banks := 0x7F }
       B.unitRuns 0 = true ∧ B.rst.firstFetch = true ∧ B.placeNext = some (20, 0, 1) ∧ (B.bank 0 1).task = none ∧ live.placeNext = none)
    ∧ (let B := (withTcb (areaCap 0x1000002000) (afterSave false)).setTask 20 { taskIn .ready with cores := 1, banks := 0x7F }
       let B := B.modCore 0 fun c => { c with placing := some { task := 20, bank := 3 } }
       B.unitRuns 0 = true ∧ (B.core 0).clockStopped = false ∧ (B.task 20).state = .ready ∧ (B.bank 0 3).task = none
       ∧ tcbRead (B.modCore 0 fun c => { c with placing := none }) (midCore 0) = true
       ∧ (match (B.modCore 0 fun c => { c with placing := none }).readTcb (midCore 0) (B.origin 0 3) 20 with
          | (.ok t, D) => ran (loadHalves 0 3 t) ((D.setTask 20 ((D.task 20).withTcb t)).modBank 0 3 fun r =>
              { r with sachain := t.chain, staging := [], pushes := 0 })
          | _ => false) = true)
    ∧ (live.core 0).placing = none := by decide +kernel

def maf (f : Maf → Maf) (B : Bench) : Bench := { B with maf := f B.maf }
theorem witness_TranslationAndFilter :
    let b := onBsc id
    let w : Writer := .core 16
    let lap : Table MafRule := [(0, freeRule), (1, freeRule)]
    (∀ off ∈ [0x40000, 0x40004, 0x40018], live.accessOk dmc off .w = true) ∧ live.trans.etuBusy = false
    ∧ b.accessOk w 0x20000 .w = true ∧ w.mid = midBsc ∧ b.maf.checking = false ∧ b.maf.drained = true
    ∧ (maf (fun m => { m with drained := false }) b).accessOk w 0x20000 .w = true
    ∧ live.unitRuns 0 = true ∧ (maf (fun m => { m with checking := true }) live).maf.checking = true
    ∧ mafCheck live.maf.staged = none ∧ (mafCheck lap).isSome = true ∧ Table.wf MafRule.zero lap = true := by decide +kernel

def raked (f : Rake → Rake) : Bench := { live with rake := f live.rake }
/-- A set in order, one that is not, the longest range and an empty one; each command in progress; a clean memory and a scrubber
that reads, and one that is at its end. -/
theorem witness_RakeAndScrubber :
    live.accessOk dmc 0x30000 .w = true ∧ live.rake.op = none ∧ (let B := (raked fun r => { r with setOff := 0, setCnt := 1 }).unitWrite midDmc 0 0x1000000000 (leBytes 8 4 ++ leBytes 8 5)
       B.accessOk dmc 0x30000 .w = true ∧ B.rake.op = none ∧ (readSet 1 0x1000000000 B).1 = [(4, 5)]) ∧ setValid [(4, 5)] = true
    ∧ (readSet 1 0x1000000000 live).1 = [(0, 0)] ∧ setValid [(0, 0)] = false
    ∧ rangeOk 0 0x3D8000 = true ∧ rangeOk 0 0 = false ∧ rangeOk 1 0x3D8000 = false
    ∧ (∀ op ∈ [RakeOp.sweep, .tagclear, .tagcount], let B := raked fun r => { r with op := some op, state := 2 }
        B.unitRuns 0 = true ∧ B.rake.op = some op ∧ B.rake.abort = false ∧ B.rake.waitFor = [] ∧ B.accessOk dmc 0x30000 .w = true)
    ∧ (live.mem.poison = [] ∧ live.mem.latent = [] ∧ live.mem.weak = [] ∧ live.mem.tagLatent = [] ∧ live.mem.tagWeak = [])
    ∧ (let B := { live with memErr := { live.memErr with scrubPeriod := 1 } }
       B.unitRuns 0 = true ∧ B.memErr.scrubPeriod ≠ 0 ∧ B.memErr.scrubPage ≠ 0x1001000)
    ∧ ({ live with memErr := { live.memErr with scrubPage := 0x1001000 } } : Bench).unitRuns 0 = true := by decide +kernel

def keySlot : Slot := { Slot.zero with occ := true, gen := 1, data := zeros 128 }
def vaulted (op : Nat) (k : Slot) : Bench :=
  Bench.setSlot { live with vault := { live.vault with cmd := some { op := BitVec.ofNat 4 op, arg := 16383, origin := 0 } } } 16383 k
theorem witness_VaultCommands :
    live.accessOk dmc 0x10000C .w = true ∧ live.vault.cmd = none
    ∧ (∀ op ∈ [1, 2, 3, 4, 5, 6, 7, 8], ∀ k ∈ [Slot.zero, keySlot, { keySlot with gen := 0xFFFF }], let B := vaulted op k
        B.unitRuns 0 = true ∧ B.slot 16383 = k ∧ B.jrnRoom (B.vaultRecords { op := BitVec.ofNat 4 op, arg := 16383, origin := 0 }) = true)
    ∧ Slot.zero.first = false ∧ keySlot.first = true ∧ keySlot.run = 0 ∧ keySlot.gen ≠ 0xFFFF
    ∧ (vaulted 2 keySlot).ckLocked 16383 = false ∧ (serve 18 (vaulted 2 { keySlot with cls := 0x1C })).ckLocked 16383 = true
    ∧ (vaulted 6 Slot.zero).purgeList 16383 = [] := by decide +kernel

def sub0 (op var : Nat) : Sub :=
  { desc := BitVec.ofNat 8 op :: BitVec.ofNat 8 var :: zeros 62, tags := 0, seq := 0, origin := 0, mode := 0, asid := 0, root := 0, sys := false
    core := 0, bank := 1, task := none }
/-- Unit `u` serves and holds a descriptor in ring `r`. -/
def queued (u : UnitNo) (r : Fin 4) (q : Sub) : Bench :=
  (serve u.val live).setRing u r { Ring.zero with en := true, subs := [q], outstanding := 1 }
theorem witness_JobsBegin :
    ∀ p ∈ [((1 : UnitNo), 1, 0), (4, 7, 0), (5, 5, 0), (6, 1, 0), (7, 0x22, 0), (10, 0x20, 10), (11, 1, 0), (12, 1, 0), (13, 2, 0), (14, 1, 0), (15, 2, 0), (16, 1, 0), (17, 2, 0)],
      let q := sub0 p.2.1 p.2.2
      let B := queued p.1 3 q
      B.unitRuns p.1.val = true ∧ B.serving p.1.val = true ∧ (B.eng p.1).job = none ∧ (match (B.eng p.1).next with | some (.ring r d) => decide (r = 3 ∧ d = q) | _ => false) = true
        ∧ (q.desc.getD 0 0).toNat = p.2.1 ∧ (q.desc.getD 1 0).toNat = p.2.2 := by decide +kernel

/-! ## The hypotheses of the statements on jobs -/

/-- Every master may access working SRAM, and no error lies in memory. -/
def cleanB (B : Bench) : Bool :=
  decide (B.maf = live.maf) && B.rst.firstFetch && B.mem.poison.isEmpty && B.mem.latent.isEmpty && B.mem.weak.isEmpty && B.mem.tagLatent.isEmpty
    && B.mem.tagWeak.isEmpty
theorem plainFor_sram {B : Bench} (h : cleanB B = true) {a n : Nat} (h0 : 0x1000000000 ≤ a) (h1 : a + n ≤ 0x1001000000) (mid : Nat) (need : Right)
    (hx : need ≠ .x) : B.plainFor mid a n need := by
  simp only [cleanB, Bool.and_eq_true, List.isEmpty_iff, decide_eq_true_eq] at h
  obtain ⟨⟨⟨⟨⟨⟨hm, hf⟩, p1⟩, p2⟩, p3⟩, p4⟩, p5⟩ := h
  intro i hi hj
  have ht : paType i = .normal := by
    have g : (decide (0x1000000000 ≤ i) && decide (i < 0x1001000000)) = true := by simp; omega
    unfold paType; rw [if_pos g]; exact ite_self _
  have hb : inMafBlock i = false := by simp [inMafBlock]; omega
  have ha : live.maf.active = [(0, freeRule)] := by decide +kernel
  have hw : freeRule.hits mid i = true := by
    have e : freeRule.en = true ∧ freeRule.base = 0 ∧ freeRule.limit = 0x0FFFFFFF ∧ freeRule.midm = 0 := by decide +kernel
    simp only [MafRule.hits, e.1, e.2.1, e.2.2.1, e.2.2.2, Nat.and_zero, beq_self_eq_true, Bool.true_and, Bool.and_true, Nat.zero_le, decide_true]
    exact decide_eq_true (by omega)
  have hg : freeRule.grants need = true := by cases need <;> first | decide +kernel | exact absurd rfl hx
  refine ⟨ht, ?_, ?_, ?_, ?_, ?_, ?_⟩
  · simp only [Bench.mafAllows, ht, hf, hb, hm, Maf.match?, ha, List.find?_cons, hw, Option.map_some]
    simp [hg]
  all_goals simp [p1, p2, p3, p4, p5]
def memB (c : Cap) (perms : List Nat) (n : Nat) : Bool :=
  authB c perms c.cursor.toNat n && decide (0x1000000000 ≤ c.cursor.toNat) && decide (c.cursor.toNat + n ≤ 0x1001000000)
theorem mem_of {B : Bench} (hB : cleanB B = true) {c : Cap} {perms : List Nat} {n : Nat} (h : memB c perms n = true) (mid : Nat) :
    c.authorises perms c.cursor.toNat n ∧ B.plainFor mid c.cursor.toNat n .r ∧ B.plainFor mid c.cursor.toNat n .w := by
  simp only [memB, Bool.and_eq_true, decide_eq_true_eq] at h
  exact ⟨auth_of h.1.1, plainFor_sram hB h.1.2 h.2 mid .r nofun, plainFor_sram hB h.1.2 h.2 mid .w nofun⟩
def keyB (B : Bench) (h : Cap) (r : KeyRole) (sys special : Bool) (k : KeyCopy) : Bool :=
  let v := B.slot k.slot
  h.tag && decide (h.otype.toNat = 0xF000 + k.cls ∧ h.has permKEY = true ∧ h.exp = 0 ∧ h.baseM = 0 ∧ h.topM = 0
    ∧ k.slot < 2 ^ 14 ∧ h.cursor.toNat = k.slot + 2 ^ 14 * v.gen.toNat ∧ classDefined k.cls = true
    ∧ v.first = true ∧ v.cls.toNat = k.cls ∧ k.header = B.keyHeader k.slot ∧ k.value = B.keyValue k.slot
    ∧ k.cls ∈ r.classes ∧ (r.modes = [] ∨ r.modes.any (fun c => c.toNat == hdrMode k.header) = true) ∧ r.fits k.header = true
    ∧ (hdrSysOnly k.header = true → sys = true) ∧ (k.cls = 0x1C ∨ k.cls = 0x1D → special = true ∧ sys = true))
/-- What an operand's role asks for, evaluated. -/
def meetsB (j : JC) (B : Bench) (i : Nat) (role : OpRole) (k : Option KeyCopy) : Bool :=
  let c := j.opnd i
  match role, k with
  | .zero, none => !c.tag && decide (c.bits = 0)
  | .handle r special, some k => keyB B c r j.sub.sys special k
  | .handleOpt r, some k => keyB B c r j.sub.sys false k
  | .handleOpt _, none => !c.tag && decide (c.bits = 0)
  | .rd n, none => memB c [permLD] n
  | .wr n, none => memB c [permST] n
  | .rw n, none => memB c [permLD, permST] n
  | .hd n, none => memB c [permLD, permST, permSTC] (max 16 n) && decide (c.cursor.toNat % 16 = 0)
  | _, _ => false
theorem meets_of {j : JC} {B : Bench} (hB : cleanB B = true) {i : Nat} {role : OpRole} {k : Option KeyCopy} (h : meetsB j B i role k = true) :
    j.meets B i role k := by
  have hk : ∀ {c r s t k}, keyB B c r s t k = true → B.acceptsKey c r s t k := fun h => by
    simp only [keyB, Bool.and_eq_true, decide_eq_true_eq, List.any_eq_true, beq_iff_eq] at h; exact h
  have hz : ∀ {c : Cap}, (!c.tag && decide (c.bits = 0)) = true → c.tag = false ∧ c.bits = 0 := by simp
  cases role <;> cases k <;> first
    | exact hk h
    | exact hz h
    | (have g := mem_of hB h j.mid; exact ⟨g.1, g.2.1⟩)
    | (have g := mem_of hB h j.mid; exact ⟨g.1, g.2.2⟩)
    | exact mem_of hB h j.mid
    | (simp only [meetsB, Bool.and_eq_true, decide_eq_true_eq] at h; have g := mem_of hB h.1 j.mid; exact ⟨g.1, h.2, g.2.1⟩)
    | exact absurd h (by simp [meetsB])
def offersB (B : Bench) (u : UnitNo) (r : Fin 4) (q : Sub) : Bool :=
  B.unitRuns u.val && B.serving u.val && (B.eng u).job.isNone
    && (match (B.eng u).next with
        | some (.ring r' q') => decide (r' = r ∧ q' = q)
        | _ => false)
    && decide (q.mode = 0) && !(jobOf u q).resume && decide ((jobOf u q).token = 0)
theorem offers_of {B : Bench} {u : UnitNo} {r : Fin 4} {q : Sub} (h : offersB B u r q = true) : B.offers u r q := by
  simp only [offersB, Bool.and_eq_true, Option.isNone_iff_eq_none, decide_eq_true_eq, Bool.not_eq_true'] at h
  obtain ⟨⟨⟨⟨⟨⟨h1, h2⟩, h3⟩, h4⟩, h5⟩, h6⟩, h7⟩ := h
  refine ⟨h1, h2, h3, ?_, h5, h6, h7⟩
  split at h4
  · rename_i e; simp only [decide_eq_true_eq] at h4; rw [e, h4.1, h4.2]
  · exact absurd h4 (by simp)

/-- A job's operands, each with its role and the key it names. -/
abbrev Roles := List (Nat × OpRole × Option KeyCopy)
/-- The unit is offered the descriptor, and its operands meet their roles. -/
def jobB (B : Bench) (u : UnitNo) (q : Sub) (l : Roles) : Bool :=
  cleanB B && offersB B u 3 q && l.all fun p => meetsB (jobOf u q) B p.1 p.2.1 p.2.2
def JobOffered (B : Bench) (u : UnitNo) (q : Sub) (l : Roles) : Prop :=
  B.offers u 3 q ∧ ∀ p ∈ l, (jobOf u q).meets B p.1 p.2.1 p.2.2
theorem job_of {B : Bench} {u : UnitNo} {q : Sub} {l : Roles} (h : jobB B u q l = true) : JobOffered B u q l := by
  simp only [jobB, Bool.and_eq_true, List.all_eq_true] at h
  exact ⟨offers_of h.1.2, fun p hp => meets_of h.1.1 (h.2 p hp)⟩

/-- A descriptor: OP, VAR, FLAGS, LEN, AUX and the three operands. -/
def subOf (op var flags len aux : Nat) (a b c : Cap) : Sub :=
  { sub0 0 0 with
    desc := [BitVec.ofNat 8 op, BitVec.ofNat 8 var, BitVec.ofNat 8 flags, 0] ++ leBytes 4 len ++ leBytes 4 aux ++ zeros 4
      ++ leBytes 16 a.bits.toNat ++ leBytes 16 b.bits.toNat ++ leBytes 16 c.bits.toNat
    tags := (if a.tag then 2 else 0) ||| (if b.tag then 4 else 0) ||| (if c.tag then 8 else 0) }
/-- A header: usage, algorithm, mode, detail, length. -/
def hdrOf (usage : String) (alg mode : Char) (detail len : Nat) : List Byte :=
  ascii usage ++ [BitVec.ofNat 8 alg.toNat, BitVec.ofNat 8 mode.toNat] ++ ascii "00" ++ [0x53, BitVec.ofNat 8 detail] ++ leBytes 4 len ++ zeros 20
def handleOf (cls slot : Nat) : Cap := Cap.make true 0x0400 (BitVec.ofNat 16 (0xF000 + cls)) 0 0 0 (BitVec.ofNat 64 (slot + 2 ^ 14))
def keyOf (slot cls : Nat) (h v : List Byte) : KeyCopy := { slot := slot, cls := cls, header := h, value := v }
/-- The key in the vault: its first slot, and as many more as its value takes. -/
def stored (k : KeyCopy) (B : Bench) : Bench :=
  let l := k.header ++ k.value
  let n := (l.length + 127) / 128
  (List.range n).foldl (fun B i => B.setSlot (k.slot + i) { Slot.zero with
    occ := true, gen := 1, ext := decide (i ≠ 0), run := if i = 0 then BitVec.ofNat 4 (n - 1) else 0, cls := BitVec.ofNat 8 k.cls
    data := padTo 128 ((l.drop (128 * i)).take 128) }) B
def inMem (a : Nat) (l : List Byte) (B : Bench) : Bench := B.withMem (B.mem.write a l)
/-- The DRBG serves, with a state whose draws are cheap to evaluate. -/
def random (B : Bench) : Bench := { B with drbg := { B.drbg with inst := true, v := List.replicate 16 0xFF } }
def pA : Nat := 0x1000001000
def pB : Nat := 0x1000002000
def pC : Nat := 0x1000004000
def at' (a : Nat) : Cap := dataCap (BitVec.ofNat 64 a)

/-- The answer is a value that `p` holds of. -/
def okWith {ε α : Type} (e : Except ε α) (p : α → Bool) : Bool :=
  match e with
  | .ok v => p v
  | .error _ => false

def edKey : KeyCopy := keyOf 5 0x10 (hdrOf "S0" 'E' 'S' 0x13 32) (zeros 32)
def ecKey (cls : Nat) (usage : String) (mode : Char) : KeyCopy := keyOf 5 cls (hdrOf usage 'E' mode 0x10 32) (beBytes 32 1)
/-- The base point of P-256, the public key of 1. -/
def basePoint : List Byte := match p256.g with
  | some (x, y) => 4 :: beBytes 32 x ++ beBytes 32 y
  | none => []
def trustKey (usage : String) (alg : Char) (detail : Nat) (cls : Nat) (pub : List Byte) : KeyCopy := keyOf 6 cls (hdrOf usage alg 'V' detail 48) (sha384 pub)
/-- Private keys of which every part is 1: the modulus is 1, so that its powers are cheap to evaluate. -/
def rsaKey : KeyCopy := keyOf 5 0x13 (hdrOf "S0" 'R' 'S' 0x18 644) ((List.replicate 5 (zeros 127 ++ [1])).flatten ++ beBytes 4 1)
def rsaPub : List Byte := [0x80] ++ zeros 254 ++ [1] ++ beBytes 4 3
def pkeRoleOf (v : Nat) (cls : List Nat) (modes : List Char) : KeyRole := { classes := cls, modes := modes, fits := pkeFits v }
/-- OP, VAR, FLAGS, LEN and AUX of a job. -/
def JC.head (j : JC) : List Nat := [j.op, j.var, j.byte 2, j.len, j.aux]

/-- PKE: Ed25519 and P-256 with the greatest and the least length; the public key alone and with its trusted digest; both RSA paddings;
agreements with the base point. -/
theorem witness_JobsBegin_pke :
    (let q := subOf 1 4 0 65536 0 (handleOf 0x10 5) (at' pB) (at' 0x1000020000)
     JobOffered (stored edKey (queued 1 3 q)) 1 q [(0, .handle (pkeRoleOf 4 [0x10, 0x1D] ['S']) false, some edKey), (1, .rd 65536, none), (2, .wr 64, none)]
     ∧ JC.head (jobOf 1 q) = [1, 4, 0, 65536, 0])
    ∧ (let k := ecKey 0x10 "S0" 'S'
       let q := subOf 1 1 0 0 0 (handleOf 0x10 5) (at' pB) (at' pC)
       let B := random (stored k (queued 4 3 q))
       JobOffered B 4 q [(0, .handle (pkeRoleOf 1 [0x10, 0x1D] ['S']) false, some k), (1, .rd 0, none), (2, .wr 64, none)]
       ∧ JC.head (jobOf 4 q) = [1, 1, 0, 0, 0] ∧ B.drbg.live = true
       ∧ (p256.sign (beNat k.value) (1 + beNat (B.drawn 40) % (p256.n - 1)) (pkeHash 1 ((jobOf 4 q).bytesAt B 1 0))).isSome = true)
    ∧ (let q := subOf 2 4 0 0 0 Cap.null (at' pB) (at' pC)
       let B := inMem pC (leBytes 32 1) (queued 1 3 q)
       JobOffered B 1 q [(0, .handleOpt (pkeRoleOf 4 [0x11] ['V']), none), (1, .rd 0, none), (2, .rd 96, none)]
       ∧ JC.head (jobOf 1 q) = [2, 4, 0, 0, 0] ∧ (edDecode (((jobOf 1 q).bytesAt B 2 96).take 32)).isSome = true)
    ∧ (let k := trustKey "S0" 'E' 0x10 0x11 basePoint
       let q := subOf 2 1 0 0 0 (handleOf 0x11 6) (at' pB) (at' pC)
       let B := stored k (inMem pC basePoint (queued 1 3 q))
       JobOffered B 1 q [(0, .handleOpt (pkeRoleOf 1 [0x11] ['V']), some k), (1, .rd 0, none), (2, .rd 129, none)]
       ∧ JC.head (jobOf 1 q) = [2, 1, 0, 0, 0] ∧ k.value = sha384 (((jobOf 1 q).bytesAt B 2 129).take 65)
       ∧ (p256.decode (((jobOf 1 q).bytesAt B 2 129).take 65)).isSome = true)
    ∧ (let q := subOf 3 8 0 0 0 (handleOf 0x13 5) (at' pB) (at' pC)
       let B := stored rsaKey (queued 1 3 q)
       let j := jobOf 1 q
       JobOffered B 1 q [(0, .handle (pkeRoleOf 8 [0x13] ['S']) false, some rsaKey), (1, .rd 0, none), (2, .wr 256, none)]
       ∧ JC.head j = [3, 8, 0, 0, 0] ∧ rsaParts 8 rsaKey.value = [1, 1, 1, 1, 1, 1]
       ∧ (let m := beNat (rsaEncode j ((rsaHash 0).1 (j.bytesAt B 1 0)) (B.drawn 0))
          powMod 32 (rsaCrt 1024 1 1 1 1 1 m) 1 (1 * 1) = m % (1 * 1)))
    ∧ (let q := subOf 4 8 0 0 9 Cap.null (at' pB) (at' pC)
       let B := inMem pC rsaPub (queued 1 3 q)
       let pub := ((jobOf 1 q).bytesAt B 2 516).take 260
       JobOffered B 1 q [(0, .handleOpt (pkeRoleOf 8 [0x11] ['V']), none), (1, .rd 0, none), (2, .rd 516, none)]
       ∧ JC.head (jobOf 1 q) = [4, 8, 0, 0, 9] ∧ rsaKeyOk 256 (beNat (pub.take 256)) (beNat (pub.drop 256)) = true)
    ∧ (let k := ecKey 0x12 "K3" 'N'
       let q := subOf 5 1 0 0 0 (handleOf 0x12 5) (at' pB) (at' pC)
       let B := stored k (inMem pB basePoint (queued 1 3 q))
       let peer := (jobOf 1 q).bytesAt B 1 65
       JobOffered B 1 q [(0, .handle (pkeRoleOf 1 [0x12] ['N', 'X']) false, some k), (1, .rd 65, none), (2, .wr 32, none)]
       ∧ JC.head (jobOf 1 q) = [5, 1, 0, 0, 0] ∧ (p256.decode peer).isSome = true ∧ (p256.mul (beNat k.value) (p256.decode peer)).isSome = true)
    ∧ (let q := subOf 6 1 0 0 0 Cap.null (at' pB) (at' pC)
       let B := random (inMem pB basePoint (queued 1 3 q))
       let peer := (jobOf 1 q).bytesAt B 1 65
       JobOffered B 1 q [(0, .zero, none), (1, .rd 65, none), (2, .wr 97, none)]
       ∧ JC.head (jobOf 1 q) = [6, 1, 0, 0, 0] ∧ B.drbg.live = true ∧ (p256.decode peer).isSome = true
       ∧ (p256.mul (beNat (beBytes 32 (1 + beNat (B.drawn 40) % (p256.n - 1)))) (p256.decode peer)).isSome = true)
    ∧ (let k := ecKey 0x12 "K3" 'N'
       let q := subOf 7 1 0 0 0 (handleOf 0x12 5) Cap.null (at' pC)
       JobOffered (stored k (queued 1 3 q)) 1 q [(0, .handle (publicRole (pkeFits 1)) true, some k), (1, .zero, none), (2, .wr 65, none)]
       ∧ JC.head (jobOf 1 q) = [7, 1, 0, 0, 0]) := by
  refine ⟨⟨job_of ?_, ?_⟩, ⟨job_of ?_, ?_⟩, ⟨job_of ?_, ?_⟩, ⟨job_of ?_, ?_⟩, ⟨job_of ?_, ?_⟩, ⟨job_of ?_, ?_⟩, ⟨job_of ?_, ?_⟩, ⟨job_of ?_, ?_⟩,
    ⟨job_of ?_, ?_⟩⟩ <;> decide +kernel

def lkeKey (cls : Nat) (usage : String) (mode : Char) (detail : Nat) : KeyCopy := keyOf 5 cls (hdrOf usage (Char.ofNat 0) mode detail 32) (zeros 32)
def lkeRole (v : Nat) (cls : List Nat) (mode : Char) : KeyRole := { classes := cls, modes := [mode], fits := lkeFits v }
/-- LKE: a context of the greatest length, a verification with the public key alone, ML-KEM with a key of zeros; HSE: a digest and an
extendable output of the greatest length; the DRBG. -/
theorem witness_JobsBegin_lattice :
    (let k := lkeKey 0x14 "0S" 'S' 0x20
     let q := subOf 1 1 0 3 255 (handleOf 0x14 5) (at' pB) (at' pC)
     let B := random (stored k (queued 5 3 q))
     JobOffered B 5 q [(0, .handle (lkeRole 1 [0x14, 0x1C] 'S') false, some k), (1, .rd 258, none), (2, .wr (dsaSigLen (lkeDetail 1)), none)]
     ∧ JC.head (jobOf 5 q) = [1, 1, 0, 3, 255] ∧ B.drbg.live = true ∧ lkeDsa 1 = true)
    ∧ (let q := subOf 2 3 0 0 0 Cap.null (at' pB) (at' pC)
       JobOffered (queued 6 3 q) 6 q [(0, .handleOpt (lkeRole 3 [0x15] 'V'), none), (1, .rd 0, none),
         (2, .rd (dsaKeyLen (lkeDetail 3) + dsaSigLen (lkeDetail 3)), none)]
       ∧ JC.head (jobOf 6 q) = [2, 3, 0, 0, 0] ∧ lkeDsa 3 = true)
    ∧ (let q := subOf 3 0x11 0 0 0 Cap.null (at' pB) (at' pC)
       let B := random (queued 5 3 q)
       JobOffered B 5 q [(0, .zero, none), (1, .rd (kemKeyLen (lkeDetail 0x11)), none), (2, .wr (kemCtLen (lkeDetail 0x11) + 32), none)]
       ∧ JC.head (jobOf 5 q) = [3, 0x11, 0, 0, 0] ∧ B.drbg.live = true ∧ lkeKem 0x11 = true
       ∧ mlkemKeyOk (lkeDetail 0x11) ((jobOf 5 q).bytesAt B 1 (kemKeyLen (lkeDetail 0x11))) = true)
    ∧ (let k := lkeKey 0x16 "0K" 'D' 0x26
       let q := subOf 4 0x13 0 0 0 (handleOf 0x16 5) (at' pB) (at' pC)
       JobOffered (stored k (queued 5 3 q)) 5 q [(0, .handle (lkeRole 0x13 [0x16] 'D') false, some k), (1, .rd (kemCtLen (lkeDetail 0x13)), none),
         (2, .wr 32, none)]
       ∧ JC.head (jobOf 5 q) = [4, 0x13, 0, 0, 0] ∧ lkeKem 0x13 = true)
    ∧ (let k := lkeKey 0x14 "0S" 'S' 0x21
       let q := subOf 5 2 0 0 0 (handleOf 0x14 5) Cap.null (at' pC)
       JobOffered (stored k (queued 5 3 q)) 5 q [(0, .handle (publicRole (lkeFits 2)) true, some k), (1, .zero, none), (2, .wr 1952, none)]
       ∧ JC.head (jobOf 5 q) = [5, 2, 0, 0, 0] ∧ lkeDsa 2 = true ∧ dsaKeyLen (lkeDetail 2) = 1952)
    ∧ (∀ e ∈ [(1, 0, 3), (0x21, 4096, 0)], let q := subOf 1 e.1 0 e.2.2 e.2.1 Cap.null (at' pB) (at' pC)
       jobB (queued 12 3 q) 12 q [(0, .zero, none), (1, .rd e.2.2, none), (2, .wr (hseLen (jobOf 12 q)), none)] = true
       ∧ JC.head (jobOf 12 q) = [1, e.1, 0, e.2.2, e.2.1] ∧ hseDefined e.1 = true) := by
  refine ⟨⟨job_of ?_, ?_⟩, ⟨job_of ?_, ?_⟩, ⟨job_of ?_, ?_⟩, ⟨job_of ?_, ?_⟩, ⟨job_of ?_, ?_⟩, ?_⟩ <;> decide +kernel

theorem witness_RingsAndDrbg_jobs :
    (∀ aux ∈ [0, 1], ∀ len ∈ [1, 65536], let q := subOf 1 0 0 len aux Cap.null Cap.null (at' pC); let B := random (queued 13 3 q)
      jobB B 13 q [(0, .zero, none), (1, .zero, none), (2, .wr len, none)] = true ∧ JC.head (jobOf 13 q) = [1, 0, 0, len, aux] ∧ B.drbg.live = true)
    ∧ (let q := subOf 2 0 0 0 0 Cap.null Cap.null Cap.null; let B := random (queued 13 3 q)
       JobOffered B 13 q [(0, .zero, none), (1, .zero, none), (2, .zero, none)] ∧ JC.head (jobOf 13 q) = [2, 0, 0, 0, 0] ∧ B.drbg.live = true) := by
  refine ⟨?_, job_of ?_, ?_⟩ <;> decide +kernel

def dataKey (alg : Char) (detail n : Nat) : KeyCopy := keyOf 5 0x08 (hdrOf "D0" alg 'B' detail n) (zeros n)
def macKey : KeyCopy := keyOf 5 0x05 (hdrOf "M3" 'T' 'C' 1 16) (zeros 16)
/-- Ciphers: one block of AES and of TDES under a key of the vault, AES-GCM under a clear key with the tag that fits and with another, and
ChaCha20-Poly1305; MACs of the least and the full length, one that fits and one that does not. -/
theorem witness_JobSubmission_ciphers :
    (∀ op ∈ [1, 2], ∀ v ∈ [1, 3], ∀ e ∈ [('A', 3, 16), ('T', 2, 24)], let k := dataKey e.1 e.2.1 e.2.2
       let q := subOf op v 0 16 0 (handleOf 8 5) (at' pB) (at' pC)
       jobB (stored k (queued 7 3 q)) 7 q [(0, .handle (skeRole (jobOf 7 q)) false, some k), (1, .rd 80, none), (2, .wr 16, none)] = true
       ∧ JC.head (jobOf 7 q) = [op, v, 0, 16, 0] ∧ 16 % (CipherKey.block { alg := algOf k.header, key := k.value }) = 0)
    ∧ (let q (op : Nat) := subOf op 4 2 0 (16 * 2 ^ 16) (at' pA) (at' pB) (at' pC)
       let key : CipherKey := { alg := 'A', key := zeros 16 }
       let tag := aeadTag (jobOf 10 (q 2)) key (zeros 64) [] []
       let B (op : Nat) := queued 10 3 (q op)
       let F := inMem (pB + 16) tag (B 2)
       JobOffered (B 1) 10 (q 1) [(0, .rd 16, none), (1, .rd 64, none), (2, .wr 16, none)]
       ∧ (∀ E ∈ [B 2, F], JobOffered E 10 (q 2) [(0, .rd 16, none), (1, .rd 64, none), (2, .wr 0, none)])
       ∧ (∀ op ∈ [1, 2], JC.head (jobOf 10 (q op)) = [op, 4, 2, 0, 16 * 2 ^ 16] ∧ clearLenOk (jobOf 10 (q op)) 16 = true
           ∧ clearAlg (jobOf 10 (q op)) = 'A' ∧ (jobOf 10 (q op)).bytesAt (B op) 0 16 = key.key)
       ∧ (((jobOf 10 (q 2)).bytesAt (B 2) 1 64).drop 16).take 16 = zeros 16 ∧ (((jobOf 10 (q 2)).bytesAt F 1 64).drop 16).take 16 = tag ∧ tag ≠ zeros 16)
    ∧ (let q := subOf 1 5 2 3 (32 * 2 ^ 16 + 2) (at' pA) (at' pB) (at' pC)
       JobOffered (queued 7 3 q) 7 q [(0, .rd 32, none), (1, .rd 67, none), (2, .wr 17, none)]
       ∧ JC.head (jobOf 7 q) = [1, 5, 2, 3, 32 * 2 ^ 16 + 2] ∧ clearLenOk (jobOf 7 q) 32 = true ∧ (jobOf 7 q).clearKey = true)
    ∧ (∀ n ∈ [4, 8], let q := subOf 3 1 0 0 (n * 2 ^ 24) (handleOf 5 5) (at' pB) (at' pC)
       jobB (stored macKey (queued 7 3 q)) 7 q [(0, .handle (skeRole (jobOf 7 q)) false, some macKey), (1, .rd 64, none), (2, .wr n, none)] = true
       ∧ JC.head (jobOf 7 q) = [3, 1, 0, 0, n * 2 ^ 24] ∧ macFull 1 8 = 8)
    ∧ (let q := subOf 4 1 0 8 (8 * 2 ^ 24) (handleOf 5 5) (at' pB) Cap.null
       let j := jobOf 7 q
       let mac := macOf j { alg := 'T', key := macKey.value } (zeros 8)
       let B := stored macKey (queued 7 3 q)
       let F := inMem (pB + 16) mac B
       (∀ E ∈ [B, F], JobOffered E 7 q [(0, .handle (skeRole j) false, some macKey), (1, .rd 72, none), (2, .zero, none)])
       ∧ JC.head j = [4, 1, 0, 8, 8 * 2 ^ 24] ∧ ((j.bytesAt B 1 64).drop 16).take 8 ≠ mac.take 8 ∧ ((j.bytesAt F 1 64).drop 16).take 8 = mac.take 8) := by
  refine ⟨?_, ⟨job_of ?_, fun E hE => job_of ?_, ?_, ?_⟩, ⟨job_of ?_, ?_⟩, ?_, fun E hE => job_of ?_, ?_⟩
  rotate_left 2
  · simp only [List.mem_cons, List.not_mem_nil, or_false] at hE
    rcases hE with rfl | rfl <;> decide +kernel
  rotate_left 5
  · simp only [List.mem_cons, List.not_mem_nil, or_false] at hE
    rcases hE with rfl | rfl <;> decide +kernel
  all_goals decide +kernel

def pinKey (s : Nat) (alg mode : Char) (detail : Nat) : KeyCopy := keyOf s 4 (hdrOf "P0" alg mode detail 16) (zeros 16)
/-- The fields of a PIN job's block: formats, PANLEN 12, twelve digits, and the two PIN blocks. -/
def pinFields (s d : Nat) (src dst : List Byte) : List Byte :=
  [BitVec.ofNat 8 s, BitVec.ofNat 8 d, 0, 12] ++ List.replicate 6 0x11 ++ List.replicate 4 0xFF ++ zeros 18 ++ src ++ dst
def pan12 : List Nat := List.replicate 12 1
/-- PIN jobs between formats 0 and 4 and within 0, the compare of two blocks that hold one PIN, and an ARQC with one byte of data. -/
theorem witness_JobSubmission_pins :
    (let ka := pinKey 5 'T' 'D' 1
     let kb := pinKey 6 'A' 'E' 3
     let q := subOf 0x10 0 0 64 0 (handleOf 4 5) (handleOf 4 6) (at' pC)
     let src := pinEncipher 0 ka.value pan12 [1, 2, 3, 4] []
     let B := random (inMem pC (pinFields 0 4 src (zeros 16)) (stored ka (stored kb (queued 7 3 q))))
     JobOffered B 7 q [(0, .handle { classes := [0x04], modes := ['B', 'D'] } false, some ka),
       (1, .handle { classes := [0x04], modes := ['B', 'E'] } false, some kb), (2, .rw 64, none)]
     ∧ JC.head (jobOf 7 q) = [0x10, 0, 0, 64, 0] ∧ Table.wf Slot.zero B.vault.slots = true ∧ B.drbg.live = true
     ∧ (jobOf 7 q).bytesAt B 2 64 = pinFields 0 4 src (zeros 16) ∧ pinDecipher 0 ka.value pan12 src = some [1, 2, 3, 4] ∧ src.drop 8 = zeros 8
     ∧ pinAlgOk 0 ka = true ∧ pinAlgOk 4 kb = true ∧ pinMoveOk (B.eng 7).pinpol 0 4 = true)
    ∧ (let k := pinKey 5 'T' 'B' 1
       let src := pinEncipher 0 k.value pan12 [1, 2, 3, 4] []
       let q (op : Nat) := subOf op 0 0 64 0 (handleOf 4 5) (if op = 0x11 then Cap.null else handleOf 4 5) (at' pC)
       let B (op : Nat) := inMem pC (pinFields 0 0 src (if op = 0x11 then zeros 16 else src)) (stored k (queued 7 3 (q op)))
       JobOffered (B 0x11) 7 (q 0x11) [(0, .handle { classes := [0x04], modes := ['B'] } false, some k), (1, .zero, none), (2, .rw 64, none)]
       ∧ JobOffered (B 0x12) 7 (q 0x12) [(0, .handle { classes := [0x04], modes := ['B', 'D'] } false, some k),
           (1, .handle { classes := [0x04], modes := ['B', 'D'] } false, some k), (2, .rd 64, none)]
       ∧ (∀ op ∈ [0x11, 0x12], JC.head (jobOf 7 (q op)) = [op, 0, 0, 64, 0] ∧ Table.wf Slot.zero (B op).vault.slots = true)
       ∧ ((jobOf 7 (q 0x12)).bytesAt (B 0x12) 2 64).drop 32 = src ++ src ∧ (pinDecipher 0 k.value pan12 src).isSome = true ∧ pinAlgOk 0 k = true
       ∧ pinMoveOk ((B 0x11).eng 7).pinpol 0 0 = true)
    ∧ (let k := keyOf 5 6 (hdrOf "E0" 'A' 'X' 3 16) (zeros 16)
       let q := subOf 0x18 0 0 49 0 (handleOf 6 5) Cap.null (at' pC)
       let f : List Byte := List.replicate 6 0x11 ++ List.replicate 4 0xFF ++ [12, 0x99, 0, 1, 3, 1] ++ zeros 33
       let B := inMem pC f (stored k (queued 7 3 q))
       JobOffered B 7 q [(0, .handle { classes := [0x06], modes := ['X'] } false, some k), (1, .zero, none), (2, .rw 49, none)]
       ∧ JC.head (jobOf 7 q) = [0x18, 0, 0, 49, 0] ∧ (jobOf 7 q).bytesAt B 2 49 = f) := by
  refine ⟨⟨job_of ?_, ?_⟩, ⟨job_of ?_, job_of ?_, ?_⟩, job_of ?_, ?_⟩ <;> decide +kernel

def withBmk (B : Bench) : Bench := { B with vault := { B.vault with current := some (zeros 32) } }
def hmacKey : KeyCopy := keyOf 5 5 (hdrOf "M7" 'H' 'C' 8 1) [7]
/-- LOAD of a record of the least length, and REWRAP with room for the greatest. -/
theorem witness_VaultCommands_records :
    (let q := subOf 0x20 1 0 144 0xFFFF (at' pA) (at' pB) Cap.null
     let B := withBmk (queued 7 3 q)
     JobOffered B 7 q [(0, .rd 144, none), (1, .hd 16, none), (2, .zero, none)] ∧ JC.head (jobOf 7 q) = [0x20, 1, 0, 144, 0xFFFF]
     ∧ (makeRecord (zeros 32) 0 5 hmacKey.header [7]).length = 144
     ∧ B.openRecord (makeRecord (zeros 32) 0 5 hmacKey.header [7]) = .ok (5, hmacKey.header, [7], false))
    ∧ (let q := subOf 0x20 4 0 0 0 (handleOf 5 5) Cap.null (at' pC)
       let B := stored hmacKey (withBmk (queued 7 3 q))
       JobOffered B 7 q [(0, .handle { classes := classRows.map (·.cls), modes := [] } true, some hmacKey), (1, .zero, none), (2, .wr 144, none)]
       ∧ JC.head (jobOf 7 q) = [0x20, 4, 0, 0, 0] ∧ B.vault.current = some (zeros 32)
       ∧ max 144 (makeRecord (zeros 32) 0 5 hmacKey.header hmacKey.value).length = 144) := by
  have l : (makeRecord (zeros 32) 0 5 hmacKey.header [7]).length = 144 := length_makeRecord (by decide) 0 5 (by decide +kernel) (by decide)
  refine ⟨⟨job_of ?_, ?_, l, openRecord_makeRecord (B := withBmk (queued 7 3 _)) (by decide) rfl rfl (by decide) ?_ ?_ (by decide) (by decide)⟩,
    job_of ?_, ?_, ?_, by rw [show hmacKey.value = [7] from rfl, l]; rfl⟩ <;> decide +kernel

/-- A template for a form that places a key, with the reserved 16 bytes before it. -/
def template (h data : List Byte) : List Byte := zeros 16 ++ h ++ data
def fitted (classes : ClassRow → Bool) (h : List Byte) (cls : Nat) : Bool := okWith (fitClass (classRows.filter classes) h) fun r => r.cls == cls
def kdk (cls : Nat) (usage : String) (alg : Char) (detail n : Nat) : KeyCopy := keyOf 5 cls (hdrOf usage alg 'X' detail n) (zeros n)
def derived (alg : Char) (detail n : Nat) : List Byte := hdrOf "D0" alg 'B' detail n
/-- GENERATE of an AES key; TRUST of a P-256 key and of the shortest; the derivations under EMV, DUKPT of both methods and the KDF. -/
theorem witness_VaultCommands_keys :
    (let l := template (hdrOf "D0" 'A' 'B' 3 0) []
     let q := subOf 0x20 2 0 48 (8 * 2 ^ 16) Cap.null (at' pB) (at' pC)
     let B := withBmk (random (inMem pB l (queued 7 3 q)))
     JobOffered B 7 q [(0, .zero, none), (1, .hd 48, none), (2, .wr (recordLen 16), none)] ∧ JC.head (jobOf 7 q) = [0x20, 2, 0, 48, 8 * 2 ^ 16]
     ∧ (jobOf 7 q).bytesAt B 1 48 = l ∧ templateOk (l.drop 16) = true ∧ fitted (fun r => r.cls = 8 && r.generate) (l.drop 16) 8 = true
     ∧ B.drbg.live = true ∧ B.vault.current = some (zeros 32) ∧ detailLen (hdrDetail (l.drop 16)) = 16)
    ∧ (∀ e ∈ [(0x10, basePoint), (0x13, leBytes 32 1)], let l := template (hdrOf "S0" 'E' 'V' e.1 0) e.2
       let q := { subOf 0x20 3 0 l.length 0 Cap.null (at' pB) (at' pC) with sys := true }
       let B := withBmk (inMem pB l (queued 7 3 q))
       jobB B 7 q [(0, .zero, none), (1, .hd l.length, none), (2, .wr (recordLen 48), none)] = true ∧ JC.head (jobOf 7 q) = [0x20, 3, 0, l.length, 0]
       ∧ (jobOf 7 q).bytesAt B 1 l.length = l ∧ templateOk ((l.drop 16).take 32) = true
       ∧ fitted (fun r => r.cls = 0x11 || r.cls = 0x15) ((l.drop 16).take 32) 0x11 = true
       ∧ l.length = 48 + publicLen e.1 ∧ publicOk e.1 (l.drop 48) = true)
    ∧ (let k := kdk 6 "E0" 'T' 1 16
       let data : List Byte := List.replicate 6 0x11 ++ List.replicate 4 0xFF ++ [12, 0, 0, 1]
       let l := template (derived 'T' 1 16) data
       let q := subOf 0x20 8 0 62 0xFFFF (handleOf 6 5) (at' pB) Cap.null
       let B := stored k (inMem pB l (queued 7 3 q))
       JobOffered B 7 q [(0, .handle { classes := [6, 7], modes := ['X'] } false, some k), (1, .hd 62, none), (2, .zero, none)]
       ∧ JC.head (jobOf 7 q) = [0x20, 8, 0, 62, 0xFFFF] ∧ (jobOf 7 q).bytesAt B 1 62 = l ∧ templateOk (derived 'T' 1 16) = true
       ∧ fitted (fun r => [5, 8].contains r.cls) (derived 'T' 1 16) 8 = true
       ∧ (emvSession false (emvMaster false k.value pan12 0) [0, 1]).length = k.value.length)
    ∧ (∀ e ∈ [('A', 3, 16), ('T', 1, 16)], ∀ c ∈ [2, 3], let k := kdk c (if c = 2 then "B0" else "B1") e.1 e.2.1 e.2.2
       let l := template (derived e.1 e.2.1 e.2.2) (zeros 8 ++ [0, 1, 0, 1])
       let q := subOf 0x20 9 0 60 0 (handleOf c 5) (at' pB) Cap.null
       let B := stored k (inMem pB l (queued 7 3 q))
       jobB B 7 q [(0, .handle { classes := [2, 3], modes := ['X'] } false, some k), (1, .hd 60, none), (2, .zero, none)] = true
       ∧ JC.head (jobOf 7 q) = [0x20, 9, 0, 60, 0] ∧ (jobOf 7 q).bytesAt B 1 60 = l ∧ templateOk (derived e.1 e.2.1 e.2.2) = true
       ∧ fitted (fun r => [4, 5, 8].contains r.cls) (derived e.1 e.2.1 e.2.2) 8 = true
       ∧ dukptCounterOk (decide (algOf k.header = 'A')) (zeros 8 ++ [0, 1, 0, 1]) = true)
    ∧ (∀ n ∈ [49, 304], let k := keyOf 5 9 (hdrOf "0D" (Char.ofNat 0) 'X' 5 32) (zeros 32)
       let q := subOf 0x20 10 0 n 0 (handleOf 9 5) (at' pB) Cap.null
       let B := stored k (inMem pB (template (derived 'A' 5 32) [1]) (queued 7 3 q))
       jobB B 7 q [(0, .handle { classes := [9], modes := ['X'] } false, some k), (1, .hd n, none), (2, .zero, none)] = true
       ∧ JC.head (jobOf 7 q) = [0x20, 10, 0, n, 0] ∧ (((jobOf 7 q).bytesAt B 1 n).drop 16).take 32 = derived 'A' 5 32
       ∧ templateOk (derived 'A' 5 32) = true ∧ fitted (fun r => [1, 2, 3, 4, 5, 6, 7, 8, 9].contains r.cls) (derived 'A' 5 32) 8 = true) := by
  refine ⟨⟨job_of ?_, ?_⟩, ?_, ⟨job_of ?_, ?_⟩, ?_, ?_⟩ <;> decide +kernel

theorem read_inMem (a : Nat) : ∀ (l : List Byte) {B : Bench}, B.mem.wf = true → (inMem a l B).mem.read a l.length = l := by
  have h : ∀ (l : List Byte) (a : Nat) {m : Mem}, m.wf = true → (m.write a l).read a l.length = l := by
    intro l
    induction l with
    | nil => intros; rfl
    | cons v t ih =>
      intro a m hm
      have w := Mem.wf_setByte hm a v
      simp only [Mem.write, List.length_cons, Mem.read, ih (a + 1) w, List.cons.injEq, and_true]
      rw [Mem.byte_write (Mem.bytes_wf w), if_neg (by omega), Mem.byte_setByte (Mem.bytes_wf hm), if_pos rfl]
  exact fun l _ hB => h l a hB

theorem jobB_inMem (a : Nat) (l : List Byte) (B : Bench) (u : UnitNo) (q : Sub) (r : Roles) : jobB (inMem a l B) u q r = jobB B u q r := by
  unfold inMem
  rw [Mem.write_rest]
  rfl

def blockHead : List Byte := ascii "D0112D0AB00S0000"
def blockPlain : List Byte := beBytes 2 128 ++ zeros 30
/-- A key block of the AES method that holds the AES key of 16 zeros, for a key encryption key of zeros. -/
def block0 : List Byte :=
  let mac := cmac (aesEnc (kbDerive true (zeros 16) 1)) 16 (blockHead ++ blockPlain)
  blockHead ++ (toHex (cbcEnc (aesEnc (kbDerive true (zeros 16) 0)) mac (blocksOf 16 blockPlain)) ++ toHex mac)
theorem block0_opens : openBlock true (zeros 16) block0 = .ok (blockHead, zeros 16) :=
  openBlock_ok (nk := 4) (m := 2) (by decide) (by decide) (by decide) (by decide) (by decide) (by decide +kernel) (by decide +kernel)
    (by decide +kernel) (by decide +kernel) (by decide +kernel)
theorem length_block0 : block0.length = 112 := by
  have k (use : Nat) : KeysOk (kbDerive true (zeros 16) use) := keysOk_of (nk := 4) (by decide) (length_kbDerive (by decide) (by decide) (by decide) use)
  have b : ∀ x ∈ blocksOf 16 blockPlain, x.length = 16 := by decide +kernel
  have g := (cbc_ok (k 0) (iv := cmac (aesEnc (kbDerive true (zeros 16) 1)) 16 (blockHead ++ blockPlain)) (length_cmac (k 1) _) b).1
  simp only [block0, List.length_append, length_toHex, length_cmac (k 1), g]
  decide +kernel

def kbpk : KeyCopy := keyOf 5 1 (hdrOf "K1" 'A' 'B' 3 16) (zeros 16)
def block1 : List Byte := zeros 28 ++ leBytes 2 112 ++ zeros 18 ++ block0
/-- IMPORT of that block, and EXPORT of the same key. -/
theorem witness_VaultCommands_blocks :
    (let q := subOf 0x21 0 0 160 0 (handleOf 1 5) (at' pB) (at' pC)
     let B := inMem pB block1 (withBmk (stored kbpk (queued 7 3 q)))
     JobOffered B 7 q [(0, .handle { classes := [1], modes := ['B', 'D'] } false, some kbpk), (1, .hd 160, none), (2, .wr (recordLen 16), none)]
     ∧ JC.head (jobOf 7 q) = [0x21, 0, 0, 160, 0] ∧ (jobOf 7 q).bytesAt B 1 160 = block1 ∧ leNat ((block1.drop 28).take 2) = 160 - 48
     ∧ block1.drop 48 = block0 ∧ openBlock (algOf kbpk.header = 'A') kbpk.value block0 = .ok (blockHead, zeros 16)
     ∧ importValue (Char.ofNat (blockHead.getD 7 0).toNat) (zeros 16) = some (3, zeros 16) ∧ B.vault.current = some (zeros 32)
     ∧ fitted (fun r => r.imports) (ascii "D0AB00" ++ [0x53, 3] ++ zeros 24) 8 = true)
    ∧ (let x := keyOf 6 8 (hdrOf "D0" 'A' 'B' 3 16) (zeros 16)
       let q := subOf 0x22 0 0 0 0 (handleOf 1 5) (handleOf 8 6) (at' pC)
       let B := let E := random (stored kbpk (stored x (queued 7 3 q))); { E with vault := { E.vault with ctrl := 2 } }
       JobOffered B 7 q [(0, .handle { classes := [1], modes := ['B', 'E'] } false, some kbpk),
         (1, .handle { classes := (classRows.filter fun r => r.imports).map (·.cls), modes := [] } false, some x), (2, .wr 112, none)]
       ∧ JC.head (jobOf 7 q) = [0x22, 0, 0, 0, 0] ∧ Table.wf Slot.zero B.vault.slots = true ∧ B.drbg.live = true
       ∧ Char.ofNat (hdrExport x.header) = 'S' ∧ B.vault.ctrl.getLsbD 1 = true
       ∧ strength (hdrDetail x.header) x.value.length ≤ strength (hdrDetail kbpk.header) kbpk.value.length) := by
  have l : block1.length = 160 := by simp only [block1, List.length_append, length_block0]; rfl
  refine ⟨⟨job_of ?_, ?_, ?_, ?_, ?_, ?_, ?_, ?_⟩, job_of ?_, ?_⟩
  · rw [jobB_inMem]; decide +kernel
  · decide +kernel
  · exact l ▸ read_inMem pB block1 (by decide +kernel)
  · exact congrArg leNat (by rw [block1, List.append_assoc, List.append_assoc, List.drop_left' (by decide), List.take_left' (by decide)] : (block1.drop 28).take 2 = leBytes 2 112)
  · exact List.drop_left' (by decide)
  · exact block0_opens
  all_goals decide +kernel

theorem tagw_sram {B : Bench} (h : cleanB B = true) {i mid : Nat} (hm : mid ≤ 0x10) (h1 : i < 0x1001000000) : B.mafTagw mid i = true := by
  simp only [cleanB, Bool.and_eq_true, decide_eq_true_eq] at h
  have ha : live.maf.active = [(0, freeRule)] := by decide +kernel
  have e : freeRule.en = true ∧ freeRule.base = 0 ∧ freeRule.limit = 0x0FFFFFFF ∧ freeRule.midm = 0 ∧ freeRule.tagw = true := by decide +kernel
  have hw : freeRule.hits mid i = true := by
    simp only [MafRule.hits, e.1, e.2.1, e.2.2.1, e.2.2.2.1, Nat.and_zero, beq_self_eq_true, Bool.true_and, Bool.and_true, Nat.zero_le, decide_true]
    exact decide_eq_true (by omega)
  simp [Bench.mafTagw, Maf.match?, h.1.1.1.1.1.1, ha, hw, e.2.2.2.2, hm]
def areaB (B : Bench) (a : Cap) : Bool :=
  cleanB B && decide (a.tag = true ∧ a.otype = otSave ∧ a.length = 640 ∧ a.cursor.toNat = a.base ∧ a.base % 16 = 0
    ∧ (∀ p ∈ [permLD, permST, permLDC, permSTC], a.has p = true) ∧ 0x1000000000 ≤ a.base ∧ a.base + 640 ≤ 0x1001000000)
theorem area_of {B : Bench} {k : CoreNo} {a : Cap} (h : areaB B a = true) : B.saveArea k a := by
  simp only [areaB, Bool.and_eq_true, decide_eq_true_eq] at h
  obtain ⟨hB, h1, h2, h3, h4, h5, h6, h7, h8⟩ := h
  have hm : midCore k ≤ 0x10 := by have := k.isLt; unfold midCore; omega
  exact ⟨h1, h2, h3, h4, h5, h6, plainFor_sram hB h7 h8 _ .r nofun, plainFor_sram hB h7 h8 _ .w nofun,
    fun i _ hi => tagw_sram hB hm (by omega)⟩
def saveB (B : Bench) (k : CoreNo) : Bool :=
  let t := B.core k
  (t.safree.tag || !t.emergBusy) && areaB B (if t.safree.tag then t.safree else t.saemerg) && decide (B.rake.op ≠ some .sweep) && B.mem.wf
theorem save_of {B : Bench} {k : CoreNo} (h : saveB B k = true) : B.canSave k := by
  simp only [saveB, Bool.and_eq_true, Bool.or_eq_true, Bool.not_eq_true', decide_eq_true_eq] at h
  exact ⟨h.1.1.1, area_of h.1.1.2, h.1.2, h.2⟩
def loadB (B : Bench) (k : CoreNo) (b : BankNo) (upper : Bool) : Bool :=
  let a := (B.bank k b).sachain
  areaB B a && decide (((B.mem.capAt (a.base + 16)).word 0).getLsbD 0 = upper) && decide (B.rake.op ≠ some .sweep) && B.mem.wf
theorem load_of {B : Bench} {k : CoreNo} {b : BankNo} {u : Bool} (h : loadB B k b u = true) : B.canLoad k b u := by
  simp only [loadB, Bool.and_eq_true, decide_eq_true_eq] at h
  exact ⟨area_of h.1.1.1, h.1.1.2, h.1.2, h.2⟩

/-- With no free area, the emergency area. -/
def emergency : Bench → Bench := fun B => B.modCore 0 fun c => { c with safree := Cap.null, saemerg := areaCap 0x1000005000 }
/-- A save with SAFREE and one with the emergency area, and a load of each half. -/
theorem witness_SaveAndLoad_areas :
    let q := xq always
    (∀ f ∈ [withArea, emergency], starts q (window 1 2 f) = true) ∧ (begun q (window 1 2 withArea)).2.canSave 0 ∧ (begun q (window 1 2 emergency)).2.canSave 0
    ∧ (starts q (afterSave false) = true ∧ (begun q (afterSave false)).2.canLoad 0 2 false)
    ∧ (starts q (afterSave true) = true ∧ (begun q (afterSave true)).2.canLoad 0 2 true) := by
  refine ⟨?_, save_of ?_, save_of ?_, ⟨?_, load_of ?_⟩, ?_, load_of ?_⟩ <;> decide +kernel

/-- Task 20 READY with core 0 to be placed on bank 3, its TCB's words `ctl` and its chain `a`. -/
def placed (ctl : Nat) (a : Cap) (B : Bench) : Bench :=
  (tcbBench ctl a B).setTask 20 { taskIn .ready with cores := 1, banks := 0x7F }
/-- Both halves of bank 2 saved: the lower with SAFREE, then the upper in the emergency area. -/
def bothSaved : Bench :=
  match saveHalf 0 2 true 0 (emergency (afterSave false)) with
  | .ok _ B => B
  | .error _ B => B
/-- The bench on which a load of bank 3 begins with the TCB `t`. -/
def loading (t : Tcb) (B : Bench) : Bench :=
  (B.setTask 20 ((B.task 20).withTcb t)).modBank 0 3 fun r => { r with sachain := t.chain, staging := [], pushes := 0 }
theorem witness_PlacementAndSwitches_loads :
    (∀ e ∈ [(0, areaCap 0x1000002000, afterSave false), (8, areaCap 0x1000005000, bothSaved)], let C := placed e.1 e.2.1 e.2.2
       let tab := C.sched.tcbTable + 16 * 20
       let g := C.mem.capAt tab
       C.memoryRuns = true ∧ (C.core 0).clockStopped = false ∧ (C.core 0).hold = none ∧ (C.core 0).escActive = false ∧ (C.task 20).state = .ready
       ∧ (C.bank 0 3).task = none ∧ C.rake.op = none ∧ tcbEntryCheck g = none
       ∧ (cleanB C && decide (0x1000000000 ≤ tab ∧ tab + 16 ≤ 0x1001000000 ∧ 0x1000000000 ≤ g.base ∧ g.base + 48 ≤ 0x1001000000)) = true
       ∧ okWith (tcbOf 20 g.base (C.mem.capAt g.base) (C.mem.capAt (g.base + 16)) (C.mem.capAt (g.base + 32))) (fun t =>
           t.upper == decide (e.1 = 8) && (if t.upper then loadB (loading t C) 0 3 true else loadB ((loading t C).modBank 0 3 Bank.clearUpper) 0 3 false)) = true)
    ∧ (∀ t E, okWith (tcbOf 20 0x1000003000 ((placed 8 (areaCap 0x1000005000) bothSaved).mem.capAt 0x1000003000) Cap.null (areaCap 0x1000005000)) (· == t) = true →
        (loading t (placed 8 (areaCap 0x1000005000) bothSaved)).loadsHalf 0 3 true E → E.canLoad 0 3 false) := by
  refine ⟨by decide +kernel, fun t E ht h => ?_⟩
  obtain rfl : t = { prio := 0, upper := true, pin := false, cores := 1, banks := 0x7F, atp := 0, atpRoot := 0, chain := areaCap 0x1000005000
                     base := 0x1000003000 } := by
    have e : okWith (tcbOf 20 0x1000003000 ((placed 8 (areaCap 0x1000005000) bothSaved).mem.capAt 0x1000003000) Cap.null (areaCap 0x1000005000))
        (· == { prio := 0, upper := true, pin := false, cores := 1, banks := 0x7F, atp := 0, atpRoot := 0, chain := areaCap 0x1000005000
                base := 0x1000003000 }) = true := by decide +kernel
    revert ht e
    cases tcbOf 20 0x1000003000 ((placed 8 (areaCap 0x1000005000) bothSaved).mem.capAt 0x1000003000) Cap.null (areaCap 0x1000005000) with
    | ok v => intro h1 h2; simp only [okWith, beq_iff_eq] at h1 h2; rw [← h1, h2]
    | error _ => exact fun h1 _ => absurd h1 nofun
  have c := h.1 (by decide +kernel)
  rw [c]
  exact load_of (by decide +kernel)

/-! ## The hypotheses of the statements on units, the journal, time and the device -/

def fin0 : Finish :=
  { status := 1, detail := 0, opnd := 3, prev := false, progress := 0, result := 0, writes := [], plan := none, record := none, suspend := none
    param := [], events := [], sig := [], keyid := [], wait := false }
def job0 : Job := { ring := some 3, sub := sub0 1 0, unit := none, uses := [], base := 0, set := 0, fin := fin0 }
def working (u : UnitNo) (j : Job) : Bench := live.modEng u fun e => { e with job := some j }
def token0 : Token := { desc := [], sub := sub0 1 0, seen := [], param := [], progress := 0, since := 0, set := 0 }
def stream0 (ph : StreamPhase) : MsgStream :=
  { unit := 14, ring := 3, pos := 0, core := 16, bank := 7, task := none, phase := ph, var := 0, want := 256, data := [], taken := 0, out := zeros 16
    popped := 0, since := 0, image := [] }
theorem witness_JobsComplete :
    (zeros 4).length = 4
    ∧ (∀ u ∈ [(1 : UnitNo), 13, 17], (working u job0).unitRuns u.val = true ∧ ((working u job0).eng u).job = some job0 ∧ (working u job0).net.tlsDone = [])
    ∧ ((working 1 { job0 with fin := { fin0 with suspend := some [] } }).eng 1).freeToken = some 0
    ∧ (let j := { job0 with ring := none, unit := some (.tls 3 false 2 [] [] [] []) }
       (working 10 j).unitRuns 10 = true ∧ ((working 10 j).eng 10).job = some j)
    ∧ (let B := live.modEng 17 fun e => { e with tokens := [(31, token0)], tokttl := 1 }
       B.unitRuns 17 = true ∧ (B.eng 17).tokens.find? (fun t => t.1 = 31) = some (31, token0) ∧ B.time.elapsed - 0 < (B.eng 17).tokttl.toNat * 1000
       ∧ (let C := { B with time := { B.time with elapsed := 1000 } }; (C.eng 17).tokttl.toNat * 1000 ≤ C.time.elapsed - 0))
    ∧ (let B := { working 14 { job0 with fin := { fin0 with wait := true } } with streams := [stream0 .begun]
                                                                                  time := { live.time with elapsed := 65535 } }
       B.unitRuns 14 = true ∧ (B.streams.find? (fun t => t.unit = 14 && t.phase == .begun)).isSome = true ∧ bitsOf (B.reg 0x200020) 15 0 ≤ B.time.elapsed - 0) := by
  decide +kernel

/-- A ring of the highest PRIO that comes first after the one that won last; a ring of a DISABLED unit, enabled and not; the DRBG at its two
limits; a source that works beside one that works or not. -/
theorem witness_RingsAndDrbg :
    (let e := (queued 1 3 (sub0 1 0)).eng 1
     e.unitQ = [] ∧ e.lastRing < 4 ∧ e.rings[(3 : Fin 4)].subs ≠ [] ∧ ∀ k : Fin 4, e.rings[k].subs ≠ [] → e.rings[k].prio ≤ e.rings[(3 : Fin 4)].prio)
    ∧ ((live.eng 1).unitQ = [] ∧ ∀ r : Fin 4, (live.eng 1).rings[r].subs = [])
    ∧ (∀ u ∈ [(1 : UnitNo), 17], live.accessOk dmc (ringCfgReg u 3) .w = true ∧ live.configurable u.val = true ∧ (live.ring u 3).en = false
        ∧ ((live.setRing u 3 { Ring.zero with en := true }).ring u 3).en = true ∧ (serve u.val live).configurable u.val = false)
    ∧ live.unitRuns 13 = true
    ∧ (let d : Drbg := { live.drbg with inst := true, src0 := true, src1 := true, requests := 65536 }
       d.inst = true ∧ 65536 ≤ d.requests ∧ (if false then d.src1 else d.src0) = true)
    ∧ ({ live.drbg with src0 := true } : Drbg).src1 = false := by decide +kernel

def pat (f : Pat → Pat) (B : Bench) : Bench := { B with pat := f B.pat }
def set0 : PatSet := { image := [1] ++ zeros 19 ++ [64] ++ zeros 43, srclen := 64, usable := true, ident := 0 }
/-- The supervisor core's command with the store idle, drained and not, and busy; an image with nothing in it passes the checks, none does
not; a set that has drained. -/
theorem witness_PatternStore :
    let b := onBsc id
    (b.accessOk (.core 16) 0x210000 .w = true ∧ (Writer.core 16).mid = midBsc ∧ b.pat.busy = none ∧ b.pat.drained = true)
    ∧ (pat (fun p => { p with drained := false }) b).pat.drained = false
    ∧ (live.accessOk dmc 0x210000 .w = true ∧ dmc.mid ≠ midBsc)
    ∧ live.unitRuns 14 = true ∧ (pat (fun p => { p with busy := some (.load 0 64) }) live).pat.busy = some (.load 0 64)
    ∧ setCheck (pat (fun p => { p with busy := some .swap, bank1 := set0 }) live).pat.staged = none ∧ (setCheck { set0 with usable := false }).isSome = true
    ∧ (pat (fun p => { p with drained := false }) live).pat.old = [] := by decide +kernel

/-- One pattern, two rules (the first of opcode `opc`, source `src`, conversion `conv` and argument `arg`, target 0x9A; the second ends),
one profile of BER-TLV, and a constant of two bytes. -/
def image1 (conv src arg : Nat) : List Byte :=
  leBytes 2 1 ++ zeros 6 ++ leBytes 2 1 ++ leBytes 2 1 ++ leBytes 2 2 ++ leBytes 2 0 ++ leBytes 4 2 ++ zeros 44
    ++ leBytes 2 0 ++ leBytes 2 2 ++ zeros 12
    ++ [1, BitVec.ofNat 8 conv, 0, 0] ++ leBytes 4 src ++ leBytes 4 0x9A ++ leBytes 4 arg ++ zeros 16
    ++ [2] ++ zeros 4095 ++ [0xAB, 0xCD]
def withImage (i : List Byte) (B : Bench) : Bench := pat (fun p => { p with bank0 := { set0 with image := i }, bank1 := { set0 with image := i } }) B
def waiting0 (u pos var want : Nat) : MsgStream :=
  { stream0 .waiting with unit := u, pos := BitVec.ofNat 16 pos, core := 0, bank := 1, task := none, var := var, want := want, out := [] }
def desc0 : List Byte := leBytes 4 0x1000005A ++ leBytes 4 4 ++ leBytes 2 2 ++ zeros 6
/-- CUT and CUT_STREAM of a primitive object, ASSEMBLE of a constant and of a copied element, and ASSEMBLE_STREAM. -/
theorem witness_PatternStore_jobs :
    (let q := subOf 1 0 0 3 0 (at' pA) Cap.null (at' pC)
     let B := withImage (image1 0 0 0) (inMem pA [0x5A, 1, 7] (queued 14 3 q))
     let j := jobOf 14 q
     let i := B.pat.active.image
     JobOffered B 14 q [(0, .rd 3, none), (1, .zero, none), (2, .wr 16, none)] ∧ JC.head j = [1, 0, 0, 3, 0]
     ∧ j.bytesAt B 0 3 = (0x5A : Byte) :: BitVec.ofNat 8 1 :: [7] ∧ 0 < setNprof i ∧ profMode (profileOf i 0) = 2
     ∧ (let c := cutMessage i 0 (j.bytesAt B 0 3) 3 (min 4095 (((j.opnd 2).top - (j.opnd 2).cursor.toNat) / 16))
        c.error.isNone = true ∧ 16 * c.descs.length = 16))
    ∧ (let q := subOf 2 0 0 3 0 Cap.null Cap.null Cap.null
       let B := { withImage (image1 0 0 0) (queued 15 3 q) with streams := [waiting0 15 0 0 3] }
       JobOffered B 15 q [(0, .zero, none), (1, .zero, none), (2, .zero, none)] ∧ JC.head (jobOf 15 q) = [2, 0, 0, 3, 0]
       ∧ 0 < setNprof B.pat.active.image ∧ (waiting0 15 0 0 3).of 15 3 q = true)
    ∧ (∀ e ∈ [(8, 0, 2 * 2 ^ 16), (0, 0x1000005A, 0)], let q := subOf 1 0 0 16 1 (at' pA) (at' pB) (at' pC)
       let B := withImage (image1 e.1 e.2.1 e.2.2) (inMem pB desc0 (queued 16 3 q))
       let i := B.pat.active.image
       let p := patternOf i 0
       let r (k : Nat) := ruleOf i (patFirst p + k)
       jobB B 16 q [(0, .rd 0, none), (1, .rd 16, none), (2, .wr 4, none)] = true ∧ JC.head (jobOf 16 q) = [1, 0, 0, 16, 1] ∧ (jobOf 16 q).asmCount = 1
       ∧ 0 < setNpat i ∧ profMode (profileOf i (patDst p)) = 2 ∧ patNrules p = 2 ∧ rOpc (r 0) = 1 ∧ rEach (r 0) = false ∧ rOpc (r 1) = 0
       ∧ rConv (r 0) = e.1 ∧ rSrc (r 0) = e.2.1 ∧ poolOf i 0 2 = [0xAB, 0xCD] ∧ (berObject (berTag (rDst (r 0))) [0xAB, 0xCD]).length = 4
       ∧ (let d := InDesc.of ((jobOf 16 q).bytesAt B 1 16)
          d.fid = 0x1000005A ∧ d.offset = 4 ∧ d.length = 2 ∧ d.flags.testBit 3 = false ∧ plainForB B (jobOf 16 q).mid (pA + 4) 2 .r = true))
    ∧ (∀ b ∈ [(Cap.null, 0), (at' pB, 0), (at' pB, 16)], let q := subOf 2 0 0 b.2 1 (at' pA) b.1 Cap.null
       let B := { withImage (image1 0 0 0) (queued 17 3 q) with streams := [waiting0 17 0 0 16] }
       jobB B 17 q [(0, .rd 0, none), if b.1.tag then (1, .rd b.2, none) else (1, .zero, none), (2, .zero, none)] = true
       ∧ JC.head (jobOf 17 q) = [2, 0, 0, b.2, 1] ∧ (jobOf 17 q).asmCount = 1 ∧ (waiting0 17 0 0 16).of 17 3 q = true) := by
  refine ⟨⟨job_of ?_, ?_⟩, ⟨job_of ?_, ?_⟩, ?_, ?_⟩ <;> decide +kernel

def ust (u : Nat) (r e : BitVec 4) (f : UState → UState) (B : Bench) : Bench := B.setUState u (f { UState.zero with requested := r, effective := e })
theorem witness_UnitStates :
    let late (B : Bench) : Bench := { B with time := { B.time with elapsed := 10000 } }
    (∀ u ∈ [0, 1, 18, 21, 32, 287, 543], live.accessOk dmc (0x1000 + 4 * u) .w = true ∧ live.unitRuns u = true ∧ live.alive = true)
    ∧ ({ live with hostUp := true } : Bench).hostReaches = true
    ∧ (∀ u ∈ [1, 32], ((ust u 2 1 (fun s => { s with diverged := true }) live).ustate u).diverged = true ∧ (ust u 2 1 id live).unitQuiet u = true
        ∧ (live.modEng 1 fun e => { e with katOk := true }).unitRuns u = true)
    ∧ ((ust 0 2 1 (fun s => { s with diverged := true }) live).ustate 0).forcing = false ∧ (ust 0 1 2 id live).benchQuiet = true
    ∧ (let B := ust 1 2 1 id (live.modEng 1 fun e => { e with katOk := true })
       (B.ustate 1).requested ≠ (B.ustate 1).effective ∧ (B.eng (Fin.ofNat 18 1)).katFail = false ∧ (B.eng (Fin.ofNat 18 1)).katOk = true)
    ∧ (working 1 job0).unitQuiet 1 = false
    ∧ (∀ u ∈ [1, 13, 14, 543], ((ust u 2 1 (fun s => { s with forcing := true }) live).ustate u).forcing = true)
    ∧ (let B := late (ust 21 2 1 id live)
       B.alive = true ∧ (B.ustate 21).passed = false ∧ B.ctl.divto.toNat * 1000 = B.time.elapsed - (B.ustate 21).since
       ∧ live.time.elapsed - 0 < live.ctl.divto.toNat * 1000
       ∧ ((ust 21 2 1 (fun s => { s with passed := true }) live).ustate 21).passed = true) := by decide +kernel

def jrn (f : Journal → Journal) (B : Bench) : Bench := { B with jrn := f B.jrn }
def req0 : Request := { reqid := 1, tenant := 0, tin := 0, path := 0, queue := 32, addr := 0, len := 0, token := 0 }
def openItem : Item := { Item.zero with state := .opened, reqid := 1 }
def held0 : HeldRecord := { type := 0x23, status := 0, origin := 0, tenant := 0, tin := 0, data := [] }
theorem witness_JournalWork :
    let at' (t : Nat) (B : Bench) : Bench := { B with time := { B.time with elapsed := t } }
    let it := live.setItem 0x3FFFF openItem
    let ck : SigResult := { status := 0, detail := 0, sig := [], keyid := [] }
    let cfg (v : Word) (B : Bench) : Bench := B.setReg 0x300004 v
    (zeros 32).length = 32 ∧ live.unitRuns 18 = true
    ∧ (let B := jrn (fun j => { j with recovering := true }) live
       B.jrn.recovering = true ∧ B.tamperDue = none ∧ B.jrnRoom 1 = true
       ∧ (jrn (fun j => { j with held := List.replicate 16 held0 }) B).jrnRoom 1 = false)
    ∧ live.jrn.recovering = false
    ∧ (let B := jrn (fun j => { j with waiting := [{ req := req0, item := 0x3FFFF, dup := none, digest := some none }] }) it
       (B.jrn.waiting.find? (fun a => a.digest.isSome)).isSome = true ∧ B.openCount < B.jrnFree ∧ (B.item 0x3FFFF).state = .opened ∧ B.jrn.deliveries = []
       ∧ (let C := jrn (fun j => { j with nextSeq := 16384 }) (cfg 0x10 live); C.jrnFree ≤ C.openCount))
    ∧ (let B := at' (bitsOf (it.reg 0x300020) 15 0 * 1000) it
       bitsOf (B.reg 0x300020) 15 0 * 1000 ≤ B.time.elapsed - (B.item 0x3FFFF).since ∧ 0 < bitsOf (B.reg 0x300020) 15 0)
    ∧ (let B := jrn (fun j => { j with genesis := true, sinceCk := 4096 }) live
       B.ckDue = true ∧ B.openCount < B.jrnFree ∧ B.jrn.cks = [] ∧ B.jrn.sigSeq = [] ∧ B.jrn.held = [] ∧ B.time.setDue = [] ∧ B.jrn.partnerDue = none ∧ live.ckDue = false)
    ∧ (jrn (fun j => { j with cks := [{ k := 0, seq := 0, record := [], ecdsa := some ck, mldsa := some ck }] }) live).jrn.cks.length = 1
    ∧ (let B := jrn (fun j => { j with nextSeq := 1 }) { cfg 0x10 live with hostUp := true }
       B.hmode ≠ 0 ∧ B.hostUp = true ∧ B.jrn.mirrorSeq < B.jrn.nextSeq ∧ live.hmode = 0)
    ∧ (let B := jrn (fun j => { j with genesis := true, nextSeq := 1 }) (serve 20 (((cfg 0x40 live).setReg 0x404004 0x80000).setReg 0x400408 0))
       let B : Bench := { B with net := { B.net with port0 := { B.net.port0 with up := true } } }
       B.pmode ≠ 0 ∧ B.pPort = false ∧ (B.peer false B.pPeer).en = true ∧ B.portRuns false = true ∧ B.jrn.genesis = true
       ∧ min (B.jrn.nextSeq - B.jrn.sendSeq) ((B.udpRoom false (B.peer false B.pPeer).v6 - 32) / 128) = 1
       ∧ (let C := at' B.pTimeout (jrn (fun j => { j with sendSeq := 1 }) B)
          C.jrn.pack < C.jrn.sendSeq ∧ C.pTimeout ≤ C.time.elapsed - C.jrn.ackTime ∧ C.jrn.timeouts < 15 ∧ C.jrnRoom 1 = true ∧ C.jrn.partner ≠ 3 ∧ B.jrn.sendSigs = []
          ∧ (jrn (fun j => { j with held := List.replicate 16 held0, timeouts := 15 }) C).jrnRoom 1 = false))
    ∧ live.pmode = 0
    ∧ (∀ off ∈ [0x300068, 0x30006C, 0x300070, 0x300074], live.accessOk dmc off .w = true)
    ∧ (∀ r ∈ [0, 7], live.accessOk dmc (0x300050 + 8 * r) .r = true)
    ∧ (jrn (fun j => { j with loDue := [(0x300068, 1), (0x300070, 1)], nextSeq := 1 }) live).jrn.loDue.lookup 0x300070 = some 1
    ∧ ({ live with hostUp := true } : Bench).hostReaches = true := by decide +kernel

def timed (cfg : Word) (f : TimeState → TimeState) : Bench := { live.setReg 0x310010 cfg with time := f live.time }
/-- PTP on port 1; a message in one and in two steps; a source lost with and without another port; a PPS edge on the second, repeated, and
off it; a second due; a pulse at its end; a step that waits for the journal; timer 63 at its time; TIME.SET2 with the largest number of nanoseconds. -/
theorem witness_BenchTime :
    let p := serve 21 (serve 19 (timed 0x81 id))
    (p.unitRuns 19 = true ∧ p.serving 19 = true ∧ p.ptpPort true = true ∧ p.timeSrc = 1 ∧ live.timeSrc = 0 ∧ p.ptpPort false = false)
    ∧ (p.serving 21 = true ∧ p.ptpSends 0 = true ∧ p.ptpSends 1 = true ∧ (p.reg 0x310010).getLsbD 16 = false
        ∧ (serve 21 (serve 19 (timed 0x10081 id))).ptpSends 0 = true ∧ ((timed 0x10081 id).reg 0x310010).getLsbD 16 = true)
    ∧ (let B := timed 0xC1 fun t => { t with source := 1 }
       B.timeRuns = true ∧ B.timeSrc ≠ 0 ∧ B.time.holdover = false ∧ B.time.source ≠ 0 ∧ B.ptpPort (!B.time.port) = true ∧ ((25600 : BitVec 64)).toInt.natAbs = 25600)
    ∧ (let B := live.setReg 0x310030 0x1000000
       (B.reg 0x310030).getLsbD 24 = true ∧ B.timeSrc ≠ 2 ∧ B.time.units = 0 ∧ B.time.ppsSecond ≠ some 0 ∧ (live.reg 0x310030).getLsbD 24 = false)
    ∧ (timed 0 fun t => { t with ppsSecond := some 0 }).time.ppsSecond = some 0
    ∧ (timed 0 fun t => { t with secondDue := true }).time.secondDue = true ∧ live.time.secondDue = false
    ∧ (let B := timed 0 fun t => { t with ppsOut := true, elapsed := 0xFFFFF }
       B.time.ppsOut = true ∧ bitsOf (B.reg 0x310034) 19 0 ≤ B.time.elapsed - B.time.ppsOutSince)
    ∧ (let B := timed 0 fun t => { t with timers := t.timers.set 63 { Timer.zero with run := true, due := 9 }, elapsed := 9 }
       B.time.timers[63].run = true ∧ B.time.timers[63].due ≤ B.time.elapsed ∧ live.time.timers[63].run = false)
    ∧ live.jrnRoom 1 = true ∧ live.time.setDue = [] ∧ live.time.ns < 1000000000
    ∧ (jrn (fun j => { j with held := List.replicate 16 held0 }) live).jrnRoom 1 = false
    ∧ (live.accessOk dmc 0x310040 .w = true ∧ live.accessOk dmc 0x310000 .r = true ∧ live.accessOk dmc (0x310100 + 4 * 63) .w = true)
    ∧ (∀ n ∈ [999999999, 1000000000],
        let t := (timed 0 fun t => { t with set0 := BitVec.ofNat 32 (n * 2 ^ 18), set1 := BitVec.ofNat 32 (n / 2 ^ 14) }).time
        (((0 : Word) ++ t.set1 ++ t.set0 : BitVec 96).extractLsb' 18 30).toNat = n) := by decide +kernel

/-- Port 0 is up and serves; MTU 1,500; its address 10.0.0.1 is enabled. -/
def netted : Bench :=
  let B := serve 20 (((live.setReg 0x400004 1500).setReg 0x400018 1).setReg 0x400020 0x0100000A)
  { B with net := { B.net with port0 := { B.net.port0 with up := true } } }
def frame (dst : List Byte) (type : List Byte) (l : List Byte) : List Byte := dst ++ zeros 6 ++ type ++ l
def rx0 : RxEntry :=
  { token := 0, port := false, kind := 0, status := 0, conn := 0, addr := some 0x1000004000, bytes := [], len := 0, item := 0, flags := 0, reason := 0
    id := 0, ready := true }
def ip0 : List Byte := [0x45, 0, 0, 20, 0, 0, 0, 0, 0, 0] ++ [0xBA, 0xEB] ++ zeros 8
/-- A link that is as it was and one that changes; frames to a port that does not run, with a type of no use, a bad length, to the PTP address,
an ARP request for the own address, an IPv4 packet, well formed and not; a ready entry at the head of a queue that serves. -/
theorem witness_FramesAndReceiveQueues :
    let own' := (netted.port false).mac
    let arp := [0, 1, 8, 0, 6, 4, 0, 1] ++ zeros 6 ++ zeros 4 ++ zeros 6 ++ [10, 0, 0, 1]
    let reads (f : List Byte) : Bool := match netted.readEth false f with
      | some e => netted.accepts false e && decide (e.payload.length ≤ max 46 (netted.mtu false))
      | none => false
    (live.alive = true ∧ live.asleep = false ∧ live.islandOk 37 = true ∧ live.islandOk 38 = true ∧ (live.port true).up = false)
    ∧ netted.unitRuns 20 = true ∧ netted.portRuns false = true ∧ live.portRuns false = false ∧ netted.idleExit.portRuns false = true
    ∧ netted.readEth false (zeros 13) = none ∧ (netted.readEth false (frame own' [8, 0] (zeros 1501))).isSome = true
    ∧ (∀ f ∈ [frame own' [8, 0] ip0, frame own' [8, 6] arp, frame own' [0x12, 0x34] [], frame [0x01, 0x1B, 0x19, 0, 0, 0] [8, 0] []], reads f = true)
    ∧ (netted.arpAnswer false arp).isSome = true ∧ (netted.reg 0x400014).getLsbD 7 = false
    ∧ (netted.readIp false false ip0).isSome = true ∧ (netted.readIp false false (zeros 20)).isSome = false
    ∧ netted.net.conns = []
    ∧ (let C := serve (288 + 127) (live.setRxq 127 { Rxq.zero with fifo := [rx0] })
       (C.rxq 127).fifo = [rx0] ∧ C.serving (288 + 127) = true ∧ C.rxFull 127 = false) := by decide +kernel

def conn0 : Conn :=
  { prof := 0, port := false, v6 := false, laddr := zeros 4, raddr := zeros 4, lport := 49152, rport := 80, rmac := zeros 6, state := .established
    iss := 0, una := 0, nxt := 0, sndBuf := [], fin := false, finSent := false, wnd := 0, sscale := 0, rscale := 0, mss := 536, sackOk := false
    tsOk := false, tsRecent := 0, cwnd := 536, ssthresh := 536, dupAcks := 0, recover := none, rtt := none, rto := 1000, timing := none
    timer := some 0, retries := 0, rcvNxt := 0, rcvBuf := [], ooo := [], rcvd := 0, arrivals := [], finRcvd := false, ackDue := some 0, lastRx := 0
    probes := 0, waitSince := 0, part := none, rkey := none, wkey := none, hold := false, plain := [], plainTin := 0, rxJob := none, kl := false
    recs := [], txq := none, told := false }
def connected (c : Conn) (t : Nat) : Bench := Bench.setConn { (live.setReg 0x400004 1500) with time := { live.time with elapsed := t } } 16383 c
/-- Connection 16383 of every state whose timers the rules name, with its timers at their ends. -/
theorem witness_TcpTimers :
    (∀ c ∈ [{ conn0 with nxt := 1 }, { conn0 with state := .synSent }, { conn0 with state := .synRcvd, retries := 15 }, { conn0 with state := .timeWait },
        { conn0 with retries := 15, probes := 15, finSent := true }],
      (connected c 1000).unitRuns 20 = true ∧ (connected c 1000).conn 16383 = some c ∧ c.rto ≤ (connected c 1000).time.elapsed - 0)
    ∧ ({ conn0 with nxt := 1 } : Conn).flight ≠ 0 ∧ live.dataRetry ≤ 15 ∧ 0 < live.dataRetry ∧ 0 < live.synRetry ∧ live.synRetry ≤ 15
    ∧ (connected conn0 0).conn 0 = none ∧ (connected conn0 999).time.elapsed - 0 < conn0.rto
    ∧ (let B := Bench.setReg (connected conn0 1000000) 0x403010 0x10000
       B.pfKeepalive 0 * 1000000 * (conn0.probes + 1) ≤ B.time.elapsed - conn0.lastRx ∧ B.pfKeepalive 0 ≠ 0)
    ∧ (connected conn0 200).time.elapsed - 0 = 200 ∧ live.timeWaitUs ≤ (connected conn0 (live.timeWaitUs)).time.elapsed := by decide +kernel

/-- The descriptor `op` for connection 16383 or peer 0 in queue 127, whose unit serves. -/
def txDesc (op : Nat) (conn len : Nat) : TxCur :=
  { desc := zeros 8 ++ leBytes 4 len ++ leBytes 2 conn ++ [BitVec.ofNat 8 op, 0] ++ zeros 16, bad := false, gate := 0, open' := true, started := false }
def sending (d : TxCur) (B : Bench) : Bench := serve (416 + 127) (B.setTxq 127 { Txq.zero with cur := some d })
theorem witness_TransmitQueues :
    let B (op conn len : Nat) : Bench := sending (txDesc op conn len) (connected conn0 0)
    let tls (B : Bench) : Bench := B.setReg 0x403000 0x40
    (∀ op ∈ [1, 2, 3, 4, 5, 6, 7, 8, 9, 10], let F := (B op 16383 7).txFetch 127; let d := txDesc op 16383 7
      (B op 16383 7).unitRuns 20 = true ∧ (F.txq 127).cur = some d ∧ F.serving (416 + 127) = true ∧ d.op = op ∧ d.jgate = false ∧ d.formed = true
      ∧ F.conn d.conn = some conn0 ∧ (B op 0 7).conn 0 = none)
    ∧ live.accessOk dmc (0x402008 + 0x20 * 127) .w = true
    ∧ ({ txDesc 1 0 0 with desc := List.replicate 32 1 } : TxCur).formed = false
    ∧ (let F := ((B 1 16383 7).setReg 0x403004 0x00480000).txFetch 127
       F.pfTls 0 = false ∧ 7 ≤ F.pfMaxmsg 0 ∧ 7 ≤ frameMax (F.pfFraming 0) ∧ F.txRoom conn0 7 = true ∧ (F.txData false (txDesc 1 16383 7)).1.isSome = true)
    ∧ (B 1 16383 7).pfMaxmsg 0 < 7 ∧ (tls (B 3 16383 7)).pfTls 0 = true ∧ ((tls (B 3 16383 7)).txFetch 127).txRoom conn0 (7 + 22) = true
    ∧ (let F := ((B 4 0 7).setReg 0x404004 0x80000).txFetch 127
       (F.peer false 0).en = true ∧ 7 ≤ F.udpRoom false (F.peer false 0).v6 ∧ ((B 4 0 7).peer false 0).en = false)
    ∧ (14 ≤ (txDesc 5 0 14).len ∧ (txDesc 5 0 14).len ≤ (B 5 0 14).mtu false + 14
        ∧ ((B 5 0 14).txData false (txDesc 5 0 14)).1.map (·.length) = some 14)
    ∧ (let F := ((((B 6 0 0).setReg 0x403000 0x401).setReg 0x404004 0x80000).setReg 0x400018 1).txFetch 127
       F.pfEn 0 = true ∧ F.pfPorts 0 false = true ∧ (F.peer false 0).en = true ∧ (F.peer false 0).v6 = F.pfV6 0
       ∧ F.ipEnabled false (F.pfV6 0) (F.pfAddr 0) = true ∧ F.freeConn = some 0)
    ∧ (let l := [0, 2, 0, 0] ++ List.replicate 44 1 ++ zeros 16
       leNat ((l.drop 2).take 2) = 0 ∧ leNat ((l.drop 48).take 16) = 0 ∧ (l.getD 1 0).toNat = 2 ∧ l.getD 0 0 = 0) := by decide +kernel

theorem witness_TransmitQueues_connect (B : Bench) (h : B.net.conns = []) (p : Bool) (l r : List Byte) (n : Nat) :
    (B.localPort p l r n).1.isSome = true := by
  simp [Bench.localPort, drawWord, h, List.find?_isSome]
  exact ⟨0, by omega⟩

def engaged (f : Ring → Ring) (st : BitVec 4) (B : Bench) : Bench :=
  Bench.setRing (B.setUState 1 { UState.zero with requested := st, effective := st }) 1 3 (f { Ring.zero with en := true, base := 0x1000006000 })
def jobBank (w : Nat) (k : Bank) : Bank := { k with x := k.x.set 2 (BitVec.ofNat 32 w) }
theorem witness_JobSubmission :
    let W := 1 + 65536 * 3
    let B (f : Ring → Ring) (st : BitVec 4) : Bench := engaged f st (onBsc (jobBank W))
    let p := begun bsc0 (B id 2)
    let c := (own bsc0 (B id 2)).getC 1
    (starts bsc0 (B id 2) = true ∧ c.authorises [permLD, permLDC, permENG] c.cursor.toNat 64 ∧ c.cursor.toNat % 64 = 0
      ∧ p.2.plainMemory 16 p.1 c.cursor.toNat 64 .r ∧ c.authorises [permST, permENG] c.cursor.toNat 16 ∧ p.2.plainMemory 16 p.1 c.cursor.toNat 16 .w)
    ∧ ((own bsc0 (B id 2)).getX 2 = BitVec.ofNat 32 W ∧ (p.2.ring 1 3).en = true ∧ p.2.serving 1 = true ∧ (p.2.ring 1 3).outstanding = 0
      ∧ (∀ i < 4, p.2.mem.tag (c.cursor.toNat / 16 + i) = false) ∧ p.2.mem.wf = true ∧ (p.2.eng 1).unread 3 = 0)
    ∧ (∀ w ∈ [0, 18, 1024, 2 ^ 18 + 1], starts bsc0 (onBsc (jobBank w)) = true ∧ ((own bsc0 (onBsc (jobBank w))).getX 2).toNat = w)
    ∧ ((begun bsc0 (B id 1)).2.serving 1 = false ∧ (begun bsc0 (onBsc (jobBank W))).2.ring 1 3 = Ring.zero)
    ∧ ((begun bsc0 (B (fun g => { g with outstanding := 8 }) 2)).2.ring 1 3).outstanding = 8
    ∧ (let q := (begun bsc0 (B (fun g => { g with outstanding := 1 }) 2)).2
       (q.eng 1).unread 3 ≠ 0 ∧ (q.unitRead (unitMid 1) 0 0x1000006000 16).1.1.length = 16)
    ∧ (let S := onBsc (jobBank (14 + 65536 * 3))
       starts bsc0 S = true ∧ (begun bsc0 S).2.streamRoom 14 16 7 none = true ∧ (begun bsc0 S).2.serving 14 = false) := by
  refine ⟨⟨by decide +kernel, auth_of (by decide +kernel), by decide +kernel, plain_of (by decide +kernel), auth_of (by decide +kernel),
    plain_of (by decide +kernel)⟩, by decide +kernel⟩

/-- A strand without a stream, and with one in each phase, its input full or with room, its output empty or not. -/
theorem witness_MessageStreams :
    let on (l : List MsgStream) : Bench := { onBsc (jobBank 14) with streams := l }
    let B (ph : StreamPhase) : Bench := on [stream0 ph]
    (starts bsc0 (on []) = true ∧ (on []).findStream 14 16 7 none = none ∧ (begun bsc0 (on [])).2.findStream 14 16 7 none = none)
    ∧ (∀ ph ∈ [StreamPhase.waiting, .begun, .done, .failed, .closed], starts bsc0 (B ph) = true ∧ (B ph).findStream 14 16 7 none = some (stream0 ph)
        ∧ (begun bsc0 (B ph)).2.findStream 14 16 7 none = some (stream0 ph) ∧ (own bsc0 (B ph)).getX 2 = BitVec.ofNat 32 14
        ∧ ((B ph).bank 16 7).getX 2 = BitVec.ofNat 32 14 ∧ (B ph).executing 16 = some 7 ∧ always.holds ((B ph).bank 16 7) = true)
    ∧ ((stream0 .begun).data.length - 0 + min 16 ((stream0 .begun).want - 0) ≤ 256)
    ∧ (let t := { stream0 .begun with data := List.replicate 256 0, want := 300 }; ¬(t.data.length - t.taken + min 16 (t.want - t.data.length) ≤ 256))
    ∧ ((stream0 .done).out.drop 0).take 16 ≠ [] ∧ (stream0 .done).popped + 1024 > (stream0 .done).out.length ∧ ((begun bsc0 (B .done)).2.eng 14).job = none
    ∧ (∃ c : Cap, c = (own bsc0 (B .done)).getC 1 ∧ c.authorises [permLD, permENG] c.cursor.toNat 16 ∧ c.authorises [permST, permENG] c.cursor.toNat 16
        ∧ (begun bsc0 (B .done)).2.plainMemory 16 7 c.cursor.toNat 16 .r
        ∧ (begun bsc0 (B .done)).2.plainMemory 16 7 c.cursor.toNat 16 .w ∧ (begun bsc0 (B .done)).2.mem.wf = true) := by
  refine ⟨by decide +kernel, by decide +kernel, by decide +kernel, by decide +kernel, by decide +kernel, by decide +kernel, by decide +kernel, _, rfl,
    auth_of (by decide +kernel), auth_of (by decide +kernel), plain_of (by decide +kernel), plain_of (by decide +kernel), by decide +kernel⟩

/-- Type 2 with its two granules, for an item that is open or not; type 6; a journal that is DISABLED; wrong type and count; a capability that
is untagged, sealed, or without JRN; TRD to x29 and to x30. -/
theorem witness_JournalAndTimeInstructions :
    let bk (w n : Nat) (c : Cap) : Bench := serve 18 (onBsc fun k =>
      { k with x := k.x.set 2 (BitVec.ofNat 32 w), pushes := n, c := k.c.set 1 c })
    let cap := dataCap 0x1000001000
    let B := (bk (5 + 2 * 2 ^ 18) 2 cap).setItem 5 openItem
    (∀ c ∈ [cap, Cap.null, cap.withOtype 0x10, cap.withPerm 0x0003], starts bsc0 (bk 0 0 c) = true ∧ (own bsc0 (bk 0 0 c)).getC 1 = c)
    ∧ (cap.tag = true ∧ cap.otype = 0 ∧ cap.has permJRN = true ∧ (cap.withPerm 0x0003).has permJRN = false ∧ (cap.withOtype 0x10).otype ≠ 0)
    ∧ (cap.authorises [permLD, permJRN] 0x1000001000 16 ∧ cap.authorises [permST] 0x1000001000 16
        ∧ (begun bsc0 B).2.plainMemory 16 (begun bsc0 B).1 0x1000001000 16 .r ∧ (begun bsc0 B).2.plainMemory 16 (begun bsc0 B).1 0x1000001000 16 .w)
    ∧ (starts bsc0 B = true ∧ ((begun bsc0 B).2.ustate 18).effective ≠ 0 ∧ ((own bsc0 B).getX 2).toNat % 2 ^ 18 = 5
        ∧ ((own bsc0 B).getX 2).toNat / 2 ^ 18 % 256 = 2 ∧ (own bsc0 B).pushes = 2 ∧ ((begun bsc0 B).2.item 5).state = .opened
        ∧ Table.wf Item.zero (begun bsc0 B).2.jrn.items = true)
    ∧ ((begun bsc0 (bk (5 + 2 * 2 ^ 18) 2 cap)).2.item 5).state = .free
    ∧ (let N := jrn (fun j => { j with genesis := true }) (bk (6 * 2 ^ 18) 2 cap)
       starts bsc0 N = true ∧ (begun bsc0 N).2.openCount + (begun bsc0 N).2.jrnRsv < (begun bsc0 N).2.jrnFree - 1 ∧ (begun bsc0 N).2.jrn.held = [])
    ∧ (let F := (bk (6 * 2 ^ 18) 2 cap).setReg 0x300024 0xFFFF
       (begun bsc0 F).2.jrnFree - 1 ≤ (begun bsc0 F).2.openCount + (begun bsc0 F).2.jrnRsv)
    ∧ ((begun bsc0 (onBsc id)).2.ustate 18).effective = 0 ∧ (29 : Reg).val ≤ 29 ∧ 29 < (30 : Reg).val := by
  refine ⟨by decide +kernel, by decide +kernel, ⟨auth_of (by decide +kernel), auth_of (by decide +kernel), plain_of (by decide +kernel), plain_of (by decide +kernel)⟩,
    by decide +kernel⟩

def hosted : Bench := { live with hostUp := true }
def withHqp (f : Hqp → Hqp) (B : Bench) : Bench := B.setHqp 255 (f (B.hqp 255))
/-- A doorbell awake and asleep; a completion descriptor for a slot that is outstanding and for one that is not, with a gate that has passed
and one that has not; a function-level reset with the link up and down. -/
theorem witness_HostQueues :
    let d (gate : Nat) : CsDesc := { desc := zeros 12 ++ [7, 0, 0, BitVec.ofNat 8 gate] ++ zeros 16, gate := gate }
    let B (g : Nat) (o : List (Nat × Word)) : Bench := serve (32 + 255) (withHqp (fun q => { q with desc := some (d g), out := o, cqhi := 0x300 }) hosted)
    (hosted.alive = true ∧ hosted.hostUp = true ∧ hosted.asleep = false ∧ (asleepIn 2 2 hosted).asleep = true ∧ live.hostUp = false)
    ∧ (hosted.idleExit.serving (32 + 255) = false ∧ Table.wf Hqp.zero hosted.hq.pairs = true)
    ∧ live.accessOk dmc (0x408018 + 0x40 * 255) .w = true
    ∧ (∀ g ∈ [0, 1], ∀ o ∈ [[], [(7, (9 : Word))]], (B g o).unitRuns 0 = true ∧ ((B g o).hqp 255).devq = [] ∧ ((B g o).hqp 255).desc = some (d g)
        ∧ (B g o).serving (32 + 255) = true ∧ (B g o).hostUp = true ∧ ((B g o).hqp 255).cqRoom = true)
    ∧ (leNat (((d 1).desc.drop 15).take 1) % 2 = 1 ∧ (B 1 []).durSeq < (d 1).gate ∧ leNat (((d 0).desc.drop 15).take 1) % 2 = 0
        ∧ leNat (((d 0).desc.drop 12).take 2) = 7 ∧ ((B 0 []).hqp 255).out.lookup 7 = none ∧ (((B 0 [(7, 9)]).hqp 255).out.lookup 7).isSome = true)
    ∧ ((((B 0 [(7, 9)]).setHqp 255 { (B 0 [(7, 9)]).hqp 255 with desc := none }).unitRead midHost 0 0 0).1.2 = none) := by decide +kernel

def devWith (f : Device → Device) (B : Bench) : State := { world B with dev := f Device.zero }
def linkUp (d : Device) : Device :=
  { d with phase := .benches 8, phyUp := true, pcieUp := true, link := some { rate := 0, lanes := 1 }, ceiling := { rate := 5, lanes := 16 } }
def image0 : Image :=
  let b : BenchCfg := { enforce := 0, holdLimit := 100, divto := 10, wdog := 0, sup := some { offset := 0, entry := 0, code := [0] }, maf := none, pat := none, macs := none, pins := 0 }
  { slot := 0, bootseq := 1, version := 128, root := 3, rollfwd := true, rootfwd := true, place := 0, enabled := 0xFF, ids := 0, link := none
    profile := some { quorum := 2, timeout := 10, custodians := [{ ecdsa := [], mldsa := [] }] }, policy := none, benches := Vector.replicate 8 b, fwDigest := [], digest := [] }
def committed (d : Device) : Device := { linkUp d with committed := some image0 }
theorem witness_HostPortAndRegisterWrites :
    let s := devWith committed hosted
    let off := devWith (fun d => { committed d with link := none }) hosted
    (s.dev.perst = false ∧ (devWith (fun d => { committed d with perst := true }) hosted).dev.perst = true ∧ s.dev.link ≠ none ∧ off.dev.link = none)
    ∧ (off.dev.phyUp = true ∧ off.dev.pcieUp = true ∧ off.dev.perst = false ∧ Device.zero.phyUp = false)
    ∧ ((s.bench 0).alive = true ∧ (s.bench 0).hostUp = true ∧ (s.bench 0).asleep = false ∧ s.dev.held 0 = false
        ∧ (devWith (fun d => { committed d with holdReq := 1 }) hosted).dev.held 0 = true)
    ∧ ((0x5 : BitVec 37).toNat % 4 ≠ 0 ∧ (0x14 : BitVec 37).toNat % 4 = 0 ∧ (s.bench 0).accessOk dmc 0x14 .w = true ∧ (s.bench 1).reaches dmc = false) := by
  decide +kernel

def session0 (established : Bool) : SpdmSession :=
  { id := 1, established := established, updating := false, handshake := zeros 48, reqSecret := zeros 48, rspSecret := zeros 48, th := [] }
def spdm0 (phase : SpdmPhase) (c : Option SpdmSession) : Spdm := { Spdm.zero with phase := phase, keyed := true, session := c }
/-- A request: VERSION 1.3, its code, and the rest. -/
def req13 (code : Byte) (l : List Byte) : List Byte := [0x13, code] ++ l
/-- Each state that the clauses name, and a request of each form that is answered and of one that is not. How long the certificate chain
is, is a free value, so that the offset of a GET_CERTIFICATE within it has a hypothesis that no fixed value can show. -/
theorem witness_SpdmResponder :
    let s (p : Spdm) := devWith (fun d => { committed d with spdm := p }) live
    let num (m : List Byte) (i n : Nat) : Nat := leNat ((m.drop i).take n)
    (∀ p ∈ [Spdm.zero, spdm0 .version none, spdm0 .capabilities none, spdm0 .algorithms none, { spdm0 .algorithms none with keyed := false },
        spdm0 .algorithms (some (session0 false)), spdm0 .algorithms (some (session0 true)),
        spdm0 .algorithms (some { session0 true with updating := true })],
      (s p).dev.link ≠ none ∧ (s p).dev.dmcRuns = true ∧ (s p).dev.spdm = p)
    ∧ (∀ code ∈ [0xE1, 0xE3, 0x81, 0x82, 0x83, 0xE0, 0xE4, 0xE5, 0xE9, 0xE8, 0xEC].map (BitVec.ofNat 8),
        let m := req13 code [0, 0]
        4 ≤ m.length ∧ m.getD 1 0 = code ∧ m.getD 0 0 = 0x13 ∧ m.length ≠ 20 ∧ m.length ≠ 8 ∧ m.length ≠ 44)
    ∧ (let m := req13 0xE1 (zeros 10 ++ leBytes 4 42 ++ leBytes 4 42); m.length = 20 ∧ num m 12 4 = 42 ∧ num m 16 4 = 42)
    ∧ (let m := req13 0xE3 ([1, 0] ++ leBytes 2 36 ++ [0, 0] ++ leBytes 4 0x80 ++ leBytes 4 2 ++ zeros 16 ++ [2, 0x20] ++ leBytes 2 0x10)
       spdmAlgs (num m 2 1) (m.drop 32) = some [(2, 0x10)] ∧ 32 ≤ m.length ∧ num m 4 2 = m.length ∧ (num m 8 4).testBit 7 = true
       ∧ (num m 12 4).testBit 1 = true ∧ spdmAlgs 1 [] = none)
    ∧ (req13 0x83 (zeros 42)).length = 44 ∧ (req13 0xE0 ([1, 1] ++ zeros 41)).length = 45 ∧ (req13 0xE0 ([0, 0xFF] ++ zeros 8)).length = 12
    ∧ (let m := req13 0xE4 (zeros 38 ++ beBytes 48 p384.gx ++ beBytes 48 p384.gy ++ [0, 0])
       m.length = 138 + num m 136 2 ∧ (p384.decode (4 :: (m.drop 40).take 96)).isSome = true
       ∧ (p384.decode (4 :: zeros 96)).isNone = true)
    ∧ (let c := session0 false
       let h := [0x13, 0xE5, 0, 0]
       let m := h ++ hmac384 (spdmExpand c.reqSecret "finished" []) (sha384 (c.th ++ h))
       m.length = 52 ∧ (m.drop 4).take 48 = hmac384 (spdmExpand c.reqSecret "finished" []) (sha384 (c.th ++ m.take 4))
       ∧ (h ++ zeros 48).length = 52 ∧ zeros 48 ≠ hmac384 (spdmExpand c.reqSecret "finished" []) (sha384 (c.th ++ h))) := by decide +kernel

def commanded (op : Nat) (l : List Byte) (f : Device → Device) : State :=
  devWith (fun d => f { committed d with mbx :=
    { Mailbox.zero with op := BitVec.ofNat 8 op, busy := true, len := BitVec.ofNat 16 l.length, req := (Mem.zero.write 0 l).bytes } }) live
theorem witness_MailboxReportsAndResets :
    (∀ l ∈ [[], [1], [1, 0], [1, 8], [2, 7], [3, 0], [0x10, 0], zeros 32],
      let s := commanded 0x02 l id
      s.dev.mbx.busy = true ∧ s.dev.mbx.op.toNat = 2 ∧ s.dev.dmcRuns = true ∧ s.dev.mbx.request = l ∧ (s.dev.mbx.req.get 0 0).toNat = (l.headD 0).toNat)
    ∧ (world live).dev.mbx.busy = false ∧ (commanded 1 [] id).dev.softDue = none ∧ (commanded 0x30 (zeros 32) id).dev.mbx.request.length = 32
    ∧ (let d := (commanded 2 [3, 0] fun d => { d with holdReq := 1 }).dev
       d.held 0 = true ∧ d.enabled.getLsbD 0 = true ∧ d.fuses.lifecycle ≠ 3 ∧ (commanded 2 [3, 0] id).dev.held 0 = false)
    ∧ (commanded 0x41 [] fun d => { d with fuses := { d.fuses with lifecycle := 3 } }).dev.fuses.lifecycle = 3 := by decide +kernel

def ceremony0 : Ceremony := { nonce := zeros 32, check := none, xPriv := zeros 32, kemSeed := zeros 64, since := 0, shares := [] }
def vaultOf (f : Vault → Vault) (B : Bench) : Bench := { B with vault := f B.vault }
/-- CER_OPEN on a bench that can open one and on benches that cannot; CER_SHARE and CER_ABORT with a ceremony and without one; a ceremony and
an epoch advance at their limits. A custodian's signature takes longer to verify than a test may, so that the clauses about a share that passes
and about an epoch signature are met but for it. -/
theorem witness_CeremoniesAndEpochs :
    let s := commanded 0x20 (zeros 48) id
    let ready : Bench := { live with drbg := { live.drbg with inst := true } }
    let adv : EpochAdvance := { nonce := zeros 32, signed := [], since := 0 }
    (s.dev.mbx.busy = true ∧ s.dev.mbx.op.toNat = 0x20 ∧ s.dev.dmcRuns = true ∧ s.dev.mbx.request.length = 48 ∧ (s.dev.mbx.request.headD 0).toNat = 0
      ∧ s.dev.held 0 = false ∧ (s.dev.committed.bind (·.profile)).isSome = true ∧ (s.bench 0).alive = true ∧ (s.bench 0).jrnRoom 2 = true
      ∧ s.dev.tamper.tampered = false)
    ∧ (Device.zero.committed.bind (·.profile) = none ∧ (commanded 0x20 (zeros 47) id).dev.mbx.request.length ≠ 48)
    ∧ (ready.idleExit.vault.ceremony = none ∧ ready.idleExit.vault.previous = none ∧ ready.idleExit.running = true ∧ ready.idleExit.drbg.inst = true
        ∧ ready.idleExit.drbg.error = false ∧ live.idleExit.drbg.inst = false)
    ∧ (commanded 0x21 (zeros 6681) id).dev.mbx.request.length = 6681 ∧ (commanded 0x22 (zeros 4) id).dev.mbx.request.length = 4
    ∧ (vaultOf (fun v => { v with ceremony := some ceremony0 }) live).vault.ceremony = some ceremony0 ∧ live.vault.ceremony = none
    ∧ (({ live with time := { live.time with elapsed := 10000000 } } : Bench).time.elapsed - 0 = ((some image0).bind (·.profile)).elim 0 (·.timeout) * 1000000)
    ∧ (let d := (commanded 0x23 [2, 0, 0, 0] fun d => { d with epochAdv := some adv, fuses := { d.fuses with epoch := 63 } }).dev
       d.epochAdv = some adv ∧ (d.mbx.req.get 0 0).toNat = 2 ∧ d.mbx.request.length = 4 ∧ d.fuses.epoch < 64)
    ∧ (commanded 0x23 (2 :: zeros 5523) id).dev.mbx.request.length = 5524 ∧ (commanded 0x23 [1, 0, 0, 0] id).dev.epochAdv = none
    ∧ (let B := jrn (fun j => { j with held := List.replicate 16 { type := 0, status := 0, origin := 0, tenant := 0, tin := 0, data := [] } }) live
       B.alive = true ∧ B.jrnRoom 1 = false)
    ∧ ((image0.profile.map (·.timeout)) = some 10 ∧ Device.zero.epochAdv = none) := by decide +kernel

/-- The requests of staging and of the lifecycle, with a nonce that is outstanding, and a fresh request once SERIAL (a free value) stands in
it. A lifecycle request's signature takes longer to verify than a test may. -/
theorem witness_StagingAndLifecycle :
    let stg : Staging := { slot := 2, len := 256, header := zeros 128 }
    let lc (n : Nat) (d : Device) : Device := { d with fuses := { d.fuses with lifecycle := n } }
    ((commanded 0x10 [2, 0, 0, 0, 0, 1, 0, 0] id).dev.mbx.request = [2, 0, 0, 0, 0, 1, 0, 0] ∧ (commanded 0x10 [0] id).dev.committed.map (·.slot) = some 0
      ∧ (commanded 0x10 [2] id).dev.staging = none)
    ∧ (let d := (commanded 0x11 [126, 0, 0, 0, 0, 0, 0, 0, 1, 2, 3, 4] fun d => { d with staging := some stg }).dev
       d.staging = some stg ∧ d.mbx.request.length = 12 ∧ 126 + 4 ≤ min stg.len 0x1000000)
    ∧ ((commanded 0x12 [] fun d => { d with staging := some stg }).dev.checkImage { flash := [], base := 0x2000000, header := some (zeros 128) } ≠ 0)
    ∧ (∀ sub ∈ [1, 2, 3, 4, 5], ((commanded 0x40 [BitVec.ofNat 8 sub, 0, 0, 0] id).dev.mbx.req.get 0 0).toNat = sub)
    ∧ (∀ n ∈ [0, 1, 2, 3, 4], (commanded 0x40 [2, 0, 0, 0] (lc n)).dev.fuses.lifecycle = n)
    ∧ digestSet (zeros 48) = false ∧ digestSet (List.replicate 48 1) = true := by decide +kernel

theorem witness_StagingAndLifecycle_lengths :
    ∀ p ∈ [(2, 1, 7464), (2, 2, 292), (2, 3, 7464), (3, 0, 60), (4, 0, 7512), (5, 0, 7464)],
      let l := [BitVec.ofNat 8 p.1, BitVec.ofNat 8 p.2.1, 0, 0] ++ zeros (p.2.2 - 4)
      l.length = p.2.2 ∧ leNat ((l.drop 1).take 1) = p.2.1 ∧ leNat ((l.drop 2).take 2) = 0 ∧ (l.drop 4).take 32 = zeros 32 := by decide +kernel

theorem witness_StagingAndLifecycle_fresh :
    ∀ (sub target : Nat) (rest : List Byte), serial.length = 16 →
      let l := [BitVec.ofNat 8 sub, BitVec.ofNat 8 target, 0, 0] ++ zeros 32 ++ serial ++ rest
      (l.drop 4).take 32 = zeros 32 ∧ (l.drop 36).take 16 = serial := by
  intro sub target rest h
  simp [zeros, h]

def at_ (p : Phase) (f : Device → Device) (B : Bench) : State := devWith (fun d => { f (committed d) with phase := p }) B
def rsts (f : Rst → Rst) (B : Bench) : Bench := { B with rst := f B.rst }
def pwrs (f : Pwr → Pwr) (B : Bench) : Bench := { B with pwr := f B.pwr }
theorem witness_DeviceResets :
    ((at_ .por id live).dev.phase = .por ∧ (at_ .fuse id live).dev.phase ≠ .por ∧ (at_ .fuse id live).dev.phase ≠ .aonWait)
    ∧ (∀ r ∈ [true, false], (at_ .fuse (fun d => { d with resetN := r }) live).dev.resetN = r ∧ (at_ .fuse (fun d => { d with pwrok := r }) live).dev.pwrok = r)
    ∧ (∀ r ∈ [none, some 0, some 9], let d := (at_ (.benches 8) (fun d => { d with softDue := r, elapsed := 9 }) live).dev
        d.dmcRuns = true ∧ d.softDue = r ∧ 0 ≤ d.elapsed ∧ 9 ≤ d.elapsed)
    ∧ (let d := (at_ (.benches 8) (fun d => { d with softDue := some 10, elapsed := 9 }) live).dev; d.softDue = some 10 ∧ d.elapsed < 10)
    ∧ (Device.zero.dmcRuns = false ∧ Device.zero.phyUp = false ∧ (at_ .phy id live).dev.phyUp = true)
    ∧ ((at_ .aonLost id live).dev.phase = .aonLost ∧ (at_ .aonWait id live).dev.phase = .aonWait)
    ∧ ((at_ .fuse (fun d => { d with restarts := 8 }) live).dev.restarts = 8 ∧ Device.zero.committed = none) := by decide +kernel

/-- Every source of a bench reset, at its limit and just before it; the request that stands and the one that comes. -/
theorem witness_BenchResets :
    let lost (t : Nat) : Bench := rsts (fun r => { r with fllLost := [(39, 5)] }) { live with time := { live.time with elapsed := 5 + t } }
    let dog (n : Nat) : Bench := rsts (fun r => { r with wdogTimeout := 1, wdogCount := n }) live
    let a := at_ (.benches 8) id live
    (a.dev.phase ≠ .por ∧ a.dev.phase ≠ .aonWait ∧ (a.bench 0).rst.clockOk = live.rst.clockOk)
    ∧ ((rsts (fun r => { r with clockOk := true }) live).rst.clockOk = true ∧ (rsts (fun r => { r with clockOk := false }) live).rst.clockOk = false)
    ∧ (live.alive = true ∧ (live.rst.fllLost.any fun e => e.1 = 39) = false ∧ ((lost 0).rst.fllLost.any fun e => e.1 = 39) = true ∧ (lost 0).alive = true)
    ∧ ((∃ e ∈ (lost 1000).rst.fllLost, 1000 ≤ (lost 1000).time.elapsed - e.2) ∧ ∀ e ∈ (lost 999).rst.fllLost, (lost 999).time.elapsed - e.2 < 1000)
    ∧ ((dog 1000).rst.firstFetch = true ∧ (dog 1000).rst.wdogTimeout ≠ 0 ∧ (dog 1000).rst.wdogTimeout.toNat * 1000 ≤ (dog 1000).rst.wdogCount
        ∧ (dog 999).rst.wdogCount < (dog 999).rst.wdogTimeout.toNat * 1000)
    ∧ (live.accessOk dmc 0x44 .w = true ∧ dmc.mid ≠ midBsc ∧ (onBsc id).accessOk (.core 16) 0x44 .w = true ∧ (Writer.core 16).mid = midBsc
        ∧ live.accessOk dmc 0x18 .w = true)
    ∧ (∀ c : RstCause, (rsts (fun r => { r with due := some c }) live).rst.due = some c) ∧ live.rst.due = none := by
  refine ⟨by decide +kernel, by decide +kernel, by decide +kernel, by decide +kernel, by decide +kernel, by decide +kernel, fun _ => rfl, by decide +kernel⟩

/-- Each step's turn: RECOVERY and a slot that loads at the option loading, an image that is committed, benches that are free, held, released
and OFF. -/
theorem witness_ReleaseSequence :
    let fused (n : Nat) (r : List Byte) : Device := (at_ .fuse (fun d => { d with fuses := { d.fuses with lifecycle := n, roots := d.fuses.roots.set 0 r } }) live).dev
    let free (f : Bench → Bench) : State := at_ (.benches 0) id (f (rsts (fun r => { r with clockOk := true }) live))
    ((fused 0 []).phase = .fuse ∧ (fused 0 []).fuses.logMissing.lifecycle ≠ 1 ∧ digestSet ((fused 1 []).fuses.roots[0]) = false)
    ∧ ((fused 1 (List.replicate 48 1)).fuses.lifecycle = 1 ∧ digestSet ((fused 1 (List.replicate 48 1)).fuses.roots[0]) = true)
    ∧ (∀ p ∈ [Phase.dmc, .bootcfg, .loading, .loaded], (at_ p id live).dev.phase = p ∧ (at_ p id live).dev.dmcStopped = false)
    ∧ ((at_ .loaded (fun d => { d with staged := some image0 }) live).dev.staged = some image0)
    ∧ (live.vault.bbEpoch.toNat = Device.zero.fuses.epoch ∧ (vaultOf (fun v => { v with bbEpoch := 3 }) live).vault.bbEpoch.toNat ≠ Device.zero.fuses.epoch)
    ∧ ((takeCode (Vector.replicate 16 14)).1 = 1 ∧ (takeCode (Vector.replicate 16 230)).1 = 14 ∧ (at_ .bootcfg (fun d => { d with restarts := 8 }) live).dev.restarts = 8)
    ∧ (let s := free (rsts fun r => { r with released := false })
       s.dev.held 0 = false ∧ (s.bench 0).rst.due = none ∧ (s.bench 0).rst.clockOk = true ∧ s.dev.dmcStopped = false ∧ s.dev.committed = some image0
       ∧ (s.bench 0).rst.released = false ∧ (0 : Fin 8).val ≤ (0 : Fin 9).val ∧ s.dev.phase = .benches 0)
    ∧ (let s := free (pwrs fun p => { p with effective := 3 })
       (s.bench 0).rst.released = true ∧ (s.bench 0).pwr.effective = 3 ∧ (s.bench 0).pwr.requested = 0)
    ∧ (let s := free (pwrs fun p => { p with effective := 3, requested := 3 }); (s.bench 0).rst.released = true ∧ (s.bench 0).pwr.requested ≠ 0)
    ∧ (image0.benches[(0 : Fin 8)].sup.isSome = true)
    ∧ (live.alive = true ∧ live.rst.tagClearDone = true ∧ live.rst.firstFetch = true
        ∧ (let B := rsts (fun r => { r with tagClearDone := false, firstFetch := false }) live; B.alive = true ∧ B.rst.tagClearDone = false)
        ∧ (let B := rsts (fun r => { r with firstFetch := false }) live; B.alive = true ∧ B.rst.tagClearDone = true ∧ B.rst.firstFetch = false)) := by decide +kernel

def dbgs (f : Debug → Debug) (B : Bench) : State := at_ (.benches 8) (fun d => { d with dbg := f d.dbg }) B
/-- The TAP before and after the fuses are sensed, in and out of a boundary-scan instruction, a response that is fresh and one that is not, and
each level of a session with time left and with none. A response's signature takes longer to verify than a test may. -/
theorem witness_TapAndSessions :
    (Device.zero.sensed = false ∧ (dbgs id live).dev.sensed = true)
    ∧ (∀ i ∈ [0, 1, 3, 4, 5, 0x11, 0xFF], (dbgs (fun g => { g with ir := BitVec.ofNat 8 i }) live).dev.dbg.ir = BitVec.ofNat 8 i)
    ∧ (zeros 5518).length = 5518
    ∧ (let t := (dbgs (fun g => { g with nonce := some (zeros 32), ir := 0x11 }) live).tapIr 0x11
       t.dev.dbg.nonce = some (((zeros 5518).drop 4).take 32) ∧ t.dev.dbg.lockout = false ∧ t.dev.dbg.level = 0
       ∧ ((zeros 5518).headD 0).toNat = 0)
    ∧ (let t := (dbgs (fun g => { g with nonce := none, fails := 7 }) live).tapIr 0x11
       t.dev.dbg.nonce ≠ some (((zeros 5518).drop 4).take 32) ∧ min (t.dev.dbg.fails.toNat + 1) 15 = 8)
    ∧ ((dbgs (fun g => { g with lockout := true, fails := 15 }) live).tapIr 0x11).dev.dbg.lockout = true
    ∧ (∀ n ∈ [1, 2, 3], let d := (dbgs (fun g => { g with level := BitVec.ofNat 2 n, validUntil := 5 }) live).dev
        d.dbg.level ≠ 0 ∧ d.elapsed < d.dbg.validUntil
        ∧ (dbgs (fun g => { g with level := BitVec.ofNat 2 n }) live).dev.dbg.validUntil ≤ (dbgs (fun g => { g with level := BitVec.ofNat 2 n }) live).dev.elapsed)
    ∧ (dbgs id live).dev.dbg.level = 0 := by decide +kernel

theorem witness_DebugAccess :
    let s (n : Nat) (B : Bench) : State := (dbgs (fun g => { g with level := BitVec.ofNat 2 n, ir := 0x12 }) B).tapIr 0x12
    let h := live.modCore 16 fun c => { c with dbgHalted := true }
    ((s 0 live).dev.dbg.level = 0 ∧ (s 3 live).dev.dbg.level = 3 ∧ (s 2 live).dev.dbg.level = 2 ∧ (s 1 live).dev.dbg.level = 1 ∧ (s 2 live).dev.dbg.bench = 0)
    ∧ (dbgs id live).dev.sensed = true ∧ live.alive = true ∧ live.pwr.effective ≠ 3 ∧ live.asleep = false ∧ (Bench.zero 0).alive = false
    ∧ ((s 1 live).reach 0 = .observe ∧ (s 2 live).reach 0 = .halt ∧ (s 3 live).reach 0 = .full ∧ (s 1 live).reach 1 = .observeOn)
    ∧ (observable 0x10 = true ∧ observable 0x44 = false ∧ (0x2000000000 : Nat) ≤ 0x2000000010 ∧ paType 0x2000000010 = .register ∧ paType 0x1000000000 ≠ .register)
    ∧ ((live.idleExit.unitRead midDmc 0 0x1000000000 4).1.2 = none ∧ ((Bench.idleExit { live with mem := { live.mem with poison := [0x40000000] } }).unitRead midDmc 0 0x1000000000 4 |>.1.2.isSome) = true)
    ∧ ((h.idleExit.core 16).dbgHalted = true ∧ (live.idleExit.core 16).dbgHalted = false)
    ∧ ((0x10 : BitVec 48).toNat % 32 = bsc.val ∧ (0x1F : BitVec 48).toNat % 32 = 31)
    ∧ ((0x01F00 + 0x10 : BitVec 48).toNat % 32 = bsc.val ∧ (0x01F10 : BitVec 48).toNat / 32 % 8 = 0 ∧ (0x01F10 : BitVec 48).toNat / 256 % 65536 = 31)
    ∧ ((0x10CF0 : BitVec 48).toNat % 32 = 16 ∧ (0x10CF0 : BitVec 48).toNat / 32 % 8 = 7 ∧ (0x10CF0 : BitVec 48).toNat / 256 % 65536 = 0x104 + 8 * 1)
    ∧ (0x20410 : BitVec 48).toNat / 256 % 65536 = 0x204
    ∧ (pf0Observable 0x60 = true ∧ pf0Observable 0 = false ∧ 0x60 % 4 = 0 ∧ 0x60 < 0x10000) := by decide +kernel

def restful (B : Bench) : Bench := B.modCore 16 fun c => { c with waiting := true }
theorem witness_PowerStates :
    let idle (v : Nat) : Bench := restful (asleepIn (BitVec.ofNat 4 v) 0 live)
    let divto (n : Nat) : Bench := { asleepIn 0 2 live with time := { live.time with elapsed := n } }
    let j := working 13 job0
    (live.accessOk dmc 0x500000 .w = true ∧ (idle 1).accessOk dmc 0x500000 .w = true
      ∧ (∀ v ∈ [2, 3], (idle v).alive = true ∧ (idle v).asleep = true ∧ (idle v).mafAllows dmc.mid 0x2000500000 .w = true ∧ (idle v).reaches dmc = false))
    ∧ ((pwrs (fun p => { p with halt := true, requested := 2 }) live).idleExit.pwr.halt = true ∧ live.idleExit.pwr.requested = 0 ∧ live.idleExit.pwr.halt = false
        ∧ (pwrs (fun p => { p with requested := 2 }) live).idleExit.pwr.requested = 2)
    ∧ ((Bench.zero 0).reaches dmc = false ∧ (Bench.zero 0).alive = false ∧ live.reaches (.core 3) = false ∧ live.asleep = false)
    ∧ ((idle 0).pwr.effective = 0 ∧ (idle 0).strandsIdle = true ∧ (∀ u, ((idle 0).eng u).job = none) ∧ (idle 0).pwr.halt = false ∧ live.strandsIdle = false
        ∧ (j.eng 13).job ≠ none ∧ (idle 1).pwr.effective = 1)
    ∧ (∀ e ∈ [2, 3], let B := pwrs (fun p => { p with requested := BitVec.ofNat 4 e }) (idle 0)
        B.pwr.requested = BitVec.ofNat 4 e ∧ B.pwr.effective ≠ BitVec.ofNat 4 e ∧ (B.ustate 0).effective = 0 ∧ B.strandsIdle = true ∧ B.rake.op = none
        ∧ B.pwr.halt = false ∧ B.vault.ceremony = none ∧ (serve 0 B).strandsIdle = true ∧ ((serve 0 B).ustate 0).effective ≠ 0)
    ∧ ((asleepIn 2 0 live).pwr.effective = 2 ∧ (asleepIn 2 0 live).pwr.requested = 0)
    ∧ ((divto 10000).ctl.divto.toNat * 1000 ≤ (divto 10000).time.elapsed - (divto 10000).pwr.since ∧ (divto 0).pwr.requested ≠ (divto 0).pwr.effective
        ∧ (divto 0).pwr.diverged = false ∧ (divto 0).alive = true)
    ∧ live.accessOk dmc 0x50000C .w = true
    ∧ (let B := live.modCore 15 fun c => { c with parked := true }
       B.unitRuns 0 = true ∧ (B.core 15).parked = true ∧ (B.core 15).gated = false ∧ (15 : CoreNo) ≠ bsc ∧ (B.core 15).cur = none ∧ (B.core 15).escActive = false
       ∧ (B.core 15).halted = false ∧ B.readyBanks 15 = [] ∧ (∀ n : BankNo, n ≠ 0 → (B.bank 15 n).task = none) ∧ (live.core 15).parked = false) := by
  decide +kernel

/-- The latency targets: none, missed, met with room, met with none, at the last of the 384 places; a clamp that may end and one that may not;
each band of temperature, current, power and voltage at its edges. -/
theorem witness_FrequencyAndVoltage :
    let aim (n : Nat) : Bench := live.setReg (0x500100 + 4 * 383) (BitVec.ofNat 32 n)
    let target (B : Bench) (i : Nat) : Nat := (B.reg (0x500100 + 4 * i)).toNat % 65536
    let lat : List (Fin 384 × Half) := [(383, 10)]
    let of (i : Nat) : Nat := ((lat.find? fun e => e.1.val = i).map (·.2.toNat)).getD 0
    let g (f : PkgPower → PkgPower) : PkgPower := (at_ (.benches 8) (fun d => { d with pkg := f d.pkg, elapsed := 1000 }) live).dev.pkg
    (∀ i < 384, target live i = 0)
    ∧ (target (aim 9) 383 ≠ 0 ∧ target (aim 9) 383 < of 383)
    ∧ (target (aim 21) 383 ≠ 0 ∧ ∀ i < 384, target (aim 21) i ≠ 0 → of i * 2 < target (aim 21) i)
    ∧ (target (aim 20) 383 ≠ 0 ∧ target (aim 20) 383 ≤ of 383 * 2 ∧ ∀ i < 384, target (aim 20) i ≠ 0 → of i ≤ target (aim 20) i)
    ∧ (let B := pwrs (fun p => { p with clamped := true }) { live with time := { live.time with elapsed := 1000 } }
       B.alive = true ∧ B.pwr.clamped = true ∧ B.pwr.pressed = false ∧ B.pwr.calmSince + 1000 ≤ B.time.elapsed ∧ live.time.elapsed < live.pwr.calmSince + 1000)
    ∧ (live.pwr.clamped = false ∧ (100 : Byte).toInt = 100 ∧ (97 : Byte).toInt = 97 ∧ (98 : Byte).toInt < 100 ∧ (0xFF : Byte).toInt = -1)
    ∧ ((pwrs (fun p => { p with throttling := true }) live).pwr.throttling = true ∧ live.pwr.throttling = false)
    ∧ (let D := pwrs (fun p => { p with thermalCeil := 4 }) live; D.pwr.clamped = false ∧ D.pwr.thermalCeil < D.pwr.floor.toNat)
    ∧ ((g fun p => { p with ilimit := true }).ilimit = true ∧ 1000 ≤ 1000 - (g id).calmSince ∧ (g id).ilimit = false ∧ 185 < (186 : Half).toNat ∧ (169 : Half).toNat < 170)
    ∧ (let p := g fun p => { p with pcap := 100 }
       p.pcap ≠ 0 ∧ p.pcap.toNat < (101 : BitVec 10).toNat ∧ (95 : BitVec 10).toNat * 100 ≤ p.pcap.toNat * 95 ∧ p.pcap.toNat * 95 < (96 : BitVec 10).toNat * 100)
    ∧ ((g fun p => { p with adapting := true }).adapting = true ∧ (g id).adapting = false) := by decide +kernel

theorem witness_TamperAndThermtrip :
    let tam (f : Tamper → Tamper) (f' : Device → Device) : Device := (at_ .dmc (fun d => { f' d with tamper := f d.tamper }) live).dev
    let t0 := tam (fun t => { t with mesh := 8 }) fun d => { d with pwrok := true }
    let t1 := tam (fun t => { t with tampered := true, cause := 0x80, onVbat := true }) id
    (t0.tamper.mesh.getLsbD 3 = true ∧ t0.tamper.mesh.getLsbD 0 = false ∧ t0.pwrok = true ∧ t1.pwrok = false)
    ∧ (t1.tamper.tampered = true ∧ t1.tamper.cause.getLsbD (4 + 3) = true ∧ t0.tamper.tampered = false ∧ t0.tamper.onVbat = false ∧ t1.tamper.onVbat = true)
    ∧ (t0.phase ≠ .por ∧ t0.phase ≠ .aonWait ∧ Device.zero.phase = .por) := by decide +kernel

theorem witness_StepRunsFrontCommand :
    ({ State.reset with pending := [.pwrokRise] } : State).pending = .pwrokRise :: [] ∧ State.reset.pending = [] ∧ State.reset.dev.phase = .por
    ∧ ((at_ .dmc id live).pending = [] ∧ (at_ .dmc id live).dev.phase ≠ .por ∧ (at_ .dmc id live).dev.phase ≠ .aonWait) := by decide +kernel

/-- Each outcome before the fetch, and each fault of the fetch: PCC untagged, without EX, one byte short, and denied by the filter. -/
theorem witness_InstructionFetch :
    let i (g : Guard) : Instr := .add (xb g) 1 2 3
    let p (c : Cap) : Bench := onBsc fun k => { k with pcc := c }
    let ok (c : Cap) : Bool := ((p c).executing 16 == some 7) && ((p c).eventDue 16).isNone && !(p c).switchDue 16
    let pcc (c : Cap) : Cap := (((p c).prepare 16).bank 16 7).pcc
    ((∀ g, (i g).exec? = some (xb g)) ∧ (∀ g, (i g).mayWait = false) ∧ live.executing 16 = none)
    ∧ (let B := (bound 704 3 0 Task.zero (onBsc id)).setEv 704 { EvStat.zero with pending := true }; B.executing 16 = some 7 ∧ B.eventDue 16 = some (7, 704))
    ∧ (let B := (unlocked (onQuad id)).setTask 20 { taskIn .running with at? := some (0, 1), stopDue := true }
       B.executing 0 = some 1 ∧ B.eventDue 0 = none ∧ B.switchDue 0 = true)
    ∧ (∀ c ∈ [Cap.null, dataCap 0x1000000000, Cap.rootPcc 0x1000FFFFFD, Cap.rootPcc 0x1000000000], ok c = true ∧ pcc c = c)
    ∧ (Cap.null.tag = false ∧ (dataCap 0x1000000000).tag = true ∧ (dataCap 0x1000000000).has permEX = false)
    ∧ (let c := Cap.rootPcc 0x1000FFFFFD; c.tag = true ∧ c.has permEX = true ∧ ¬(c.base ≤ c.cursor.toNat ∧ c.cursor.toNat + 4 ≤ c.top))
    ∧ (let c := Cap.rootPcc 0x1000000000; c.tag = true ∧ c.has permEX = true ∧ c.base ≤ c.cursor.toNat ∧ c.cursor.toNat + 4 ≤ c.top
        ∧ plainB ((p c).prepare 16) 16 7 c.cursor.toNat 4 .x = true ∧ (Guard.ifnot 0).holds (((p c).prepare 16).bank 16 7) = true
        ∧ (Guard.ifp 3).holds (((p c).prepare 16).bank 16 7) = false
        ∧ slice (((p c).prepare 16).bank 16 7).atp.toNat 17 16 = 0 ∧ paType c.cursor.toNat = .normal
        ∧ (maf (fun m => { m with rules0 := [] }) (p c)).executing 16 = some 7
        ∧ ((maf (fun m => { m with rules0 := [] }) (p c)).prepare 16).mafAllows (midCore 16) c.cursor.toNat .x = false) := by
  refine ⟨⟨fun _ => rfl, fun _ => rfl, by decide +kernel⟩, by decide +kernel, by decide +kernel, by decide +kernel, by decide +kernel, by decide +kernel, by decide +kernel⟩

theorem witness_BenchIsolation :
    (Instr.add (xb always) 1 2 3).bench? = some 0
    ∧ (let s := at_ (.benches 8) id live; let u : State := { s with benches := s.benches.set 7 live }; s.dev = u.dev ∧ s.bench 0 = u.bench 0 ∧ s.bench 7 ≠ u.bench 7) := by
  decide +kernel

/-- A step that goes on, with an empty queue and with a command in front (also for the statement that the device's state stays legal). -/
theorem witness_FuseCountersOnlyRise :
    (match step State.reset with | .next _ => true | _ => false) = true
    ∧ (match step { State.reset with pending := [.pwrokRise] } with | .next t => decide (t.dev.phase = .aonWait) | _ => false) = true := by decide +kernel

theorem witness_DeviceLegalKept : State.reset.dev.legal ∧ (at_ (.benches 8) id live).dev.legal := by
  unfold Device.legal
  decide +kernel

end Sys2Proof.Tests
end

/-!
SUPPORT. What a step does: with a command at the front of the queue, that command's meaning; with none, the microsecond that passes on the
device's always-on clock and in each bench (R569, R610, R682, R772).
-/

namespace Sys2Proof.Machine

/-! ## The step -/

theorem step_of_pending_cons {s : State} {c : Instr} {rest : List Instr} (h : s.pending = c :: rest) :
    step s = exec c { s with pending := rest } := by
  simp only [step, h]
theorem step_of_pending_nil {s : State} (h : s.pending = []) : step s = .next s.tick := by
  simp only [step, h]

/-! ## A microsecond of the device -/

@[simp] theorem Device.inPor_iff (d : Device) : d.inPor ↔ d.phase = .por ∨ d.phase = .aonWait := by
  simp [Device.inPor]

theorem State.tick_of_inPor {s : State} (h : s.dev.inPor) : s.tick = s := if_pos h
theorem State.tick_of_not_inPor {s : State} (h : ¬s.dev.inPor) :
    s.tick = ({ s with dev := { s.dev with elapsed := s.dev.elapsed + 1 } } : State).allBenches Bench.tick := if_neg h

@[simp] theorem State.tick_pending (s : State) : s.tick.pending = s.pending := by
  by_cases h : s.dev.inPor
  · rw [State.tick_of_inPor h]
  · rw [State.tick_of_not_inPor h, State.allBenches_pending]
theorem State.tick_dev {s : State} (h : ¬s.dev.inPor) : s.tick.dev = { s.dev with elapsed := s.dev.elapsed + 1 } := by
  rw [State.tick_of_not_inPor h, State.allBenches_dev]
theorem State.bench_tick {s : State} (h : ¬s.dev.inPor) (b : BenchNo) : s.tick.bench b = (s.bench b).tick := by
  rw [State.tick_of_not_inPor h, State.bench_allBenches, State.bench_dev]

/-! ## A microsecond of a bench -/

@[simp] theorem Bench.setTime_time (B : Bench) (t : TimeState) : (B.setTime t).time = t := by unfold Bench.setTime; split <;> rfl
@[simp] theorem Bench.setTime_cores (B : Bench) (t : TimeState) : (B.setTime t).cores = B.cores := by unfold Bench.setTime; split <;> rfl
@[simp] theorem Bench.setTime_mem (B : Bench) (t : TimeState) : (B.setTime t).mem = B.mem := by unfold Bench.setTime; split <;> rfl

@[simp] theorem Bench.tick_time (B : Bench) : B.tick.time = if B.rst.clockOk then B.nextTime else B.time := by
  unfold Bench.tick; split <;> simp
@[simp] theorem Bench.tick_cores (B : Bench) : B.tick.cores = B.cores := by unfold Bench.tick; split <;> simp
@[simp] theorem Bench.tick_mem (B : Bench) : B.tick.mem = B.mem := by unfold Bench.tick; split <;> simp

/-! ## The whole microseconds that bench time counts -/

/-- At the nominal rate a microsecond of the reference clock is the 256,000 units of 1/256 ns that make one of bench time (R571). -/
theorem TimeState.tick_eq_advance {t : TimeState} (hfreq : t.freq = 0) (hsub : t.sub < 2 ^ 48) (hahead : t.ahead = 0) :
    t.tick = { t.advance 256000 with sub := t.sub, ahead := 0 } := by
  have hfreq0 : t.freq.toInt = 0 := by simp [hfreq]
  have htotal : (256000 * (2 ^ 48 + t.freq.toInt)).toNat + t.sub = 256000 * 2 ^ 48 + t.sub := by rw [hfreq0]; rfl
  have hdiv : (256000 * 2 ^ 48 + t.sub) / 2 ^ 48 = 256000 := by omega
  have hmod : (256000 * 2 ^ 48 + t.sub) % 2 ^ 48 = t.sub := by omega
  simp only [TimeState.tick, htotal, hdiv, hmod, hahead]
  rfl

theorem TimeState.advance_microsecond_elapsed {t : TimeState} (hpart : t.part < 256000) : (t.advance 256000).elapsed = t.elapsed + 1 := by
  show t.elapsed + (t.part + 256000) / 256000 = t.elapsed + 1
  omega
theorem TimeState.advance_microsecond_part {t : TimeState} (hpart : t.part < 256000) : (t.advance 256000).part = t.part := by
  show (t.part + 256000) % 256000 = t.part
  omega

theorem TimeState.tick_elapsed_part {t : TimeState} (hfreq : t.freq = 0) (hsub : t.sub < 2 ^ 48) (hahead : t.ahead = 0) (hpart : t.part < 256000) :
    t.tick.elapsed = t.elapsed + 1 ∧ t.tick.part = t.part := by
  rw [TimeState.tick_eq_advance hfreq hsub hahead]
  exact ⟨TimeState.advance_microsecond_elapsed hpart, TimeState.advance_microsecond_part hpart⟩

/-- Free-running, bench time ignores the frequency estimate (R603), so that both hypotheses on the rate give the nominal one. -/
theorem Bench.nextTime_elapsed_part {B : Bench} (hrate : B.time.freq = 0 ∨ B.timeSrc = 0) (hsub : B.time.sub < 2 ^ 48) (hahead : B.time.ahead = 0)
    (hpart : B.time.part < 256000) : B.nextTime.elapsed = B.time.elapsed + 1 ∧ B.nextTime.part = B.time.part := by
  unfold Bench.nextTime
  split
  case isTrue => exact TimeState.tick_elapsed_part (t := { B.time with freq := 0 }) rfl hsub hahead hpart
  case isFalse hsrc => exact TimeState.tick_elapsed_part (hrate.resolve_right hsrc) hsub hahead hpart

/-- Settles O54: the step is cut by its queue; with none waiting, the microsecond is the device's and each bench's own. -/
theorem stepRunsFrontCommand : Obligations.StepRunsFrontCommand := by
  unfold Obligations.StepRunsFrontCommand
  refine ⟨fun _ _ _ => step_of_pending_cons, fun s hnil => ⟨s.tick, step_of_pending_nil hnil, ?_, ?_, ?_⟩⟩
  · rw [State.tick_pending, hnil]
  · exact fun hpor => State.tick_of_inPor (s.dev.inPor_iff.mpr hpor)
  · intro hpor hwait
    have hrun : ¬s.dev.inPor := by simp [hpor, hwait]
    refine ⟨State.tick_dev hrun, fun b => ?_⟩
    rw [State.bench_tick hrun]
    exact ⟨Bench.tick_time _, Bench.tick_cores _, Bench.tick_mem _,
      fun hrate hsub hahead hpart => Bench.nextTime_elapsed_part hrate hsub hahead hpart⟩

end Sys2Proof.Machine

/-!
SUPPORT. Which commands act on one bench: such a command's outcome is that bench's new state, the step of the release sequence and the outputs,
each a function of the bench and the device alone (R20, R21).
-/

namespace Sys2Proof.Machine

@[simp] theorem State.setBench_bench (s : State) (b : BenchNo) : s.setBench b (s.bench b) = s := by
  simp [State.setBench, State.bench]

/-! ## What a command of one bench may do -/

/-- All that a command of a bench may change: the bench, the step of the release sequence and what leaves the device. -/
structure BenchEffect where
  bench : Bench
  phase : Phase
  out : List DevOutput

def State.withEffect (s : State) (b : BenchNo) (e : BenchEffect) : State :=
  { s.setBench b e.bench with dev := { s.dev with phase := e.phase, out := e.out } }

/-- The command acts on bench `b` alone, and what it does there is a function of the bench and the device. -/
def Confined (b : BenchNo) (f : State → Out) : Prop :=
  ∃ effect : Device → Bench → BenchEffect, ∀ s, f s = .next (s.withEffect b (effect s.dev (s.bench b)))

@[simp] theorem State.withEffect_dev (s : State) (b : BenchNo) (e : BenchEffect) :
    (s.withEffect b e).dev = { s.dev with phase := e.phase, out := e.out } := rfl
@[simp] theorem State.bench_withEffect_self (s : State) (b : BenchNo) (e : BenchEffect) : (s.withEffect b e).bench b = e.bench :=
  State.bench_setBench_self ..
@[simp] theorem State.bench_withEffect_ne {s : State} {b c : BenchNo} {e : BenchEffect} (h : c ≠ b) :
    (s.withEffect b e).bench c = s.bench c := State.bench_setBench_ne h

theorem State.withEffect_none (s : State) (b : BenchNo) : s.withEffect b ⟨s.bench b, s.dev.phase, s.dev.out⟩ = s :=
  State.setBench_bench s b

section
variable {b : BenchNo} {f g : State → Out}

theorem Confined.dev_eq (h : Confined b f) {s t : State} (ht : f s = .next t) :
    t.dev = { s.dev with phase := t.dev.phase, out := t.dev.out } := by
  obtain ⟨effect, hf⟩ := h
  obtain rfl : s.withEffect b (effect s.dev (s.bench b)) = t := by simpa [hf] using ht
  rfl

theorem Confined.bench_ne (h : Confined b f) {s t : State} (ht : f s = .next t) {c : BenchNo} (hc : c ≠ b) : t.bench c = s.bench c := by
  obtain ⟨effect, hf⟩ := h
  obtain rfl : s.withEffect b (effect s.dev (s.bench b)) = t := by simpa [hf] using ht
  exact State.bench_withEffect_ne hc

theorem Confined.determined (h : Confined b f) {s u t v : State} (hdev : s.dev = u.dev) (hbench : s.bench b = u.bench b)
    (ht : f s = .next t) (hv : f u = .next v) : t.bench b = v.bench b ∧ t.dev = v.dev := by
  obtain ⟨effect, hf⟩ := h
  obtain rfl : s.withEffect b (effect s.dev (s.bench b)) = t := by simpa [hf] using ht
  obtain rfl : u.withEffect b (effect u.dev (u.bench b)) = v := by simpa [hf] using hv
  simp [hdev, hbench]

/-! ## How the commands are built -/

theorem Confined.stays : Confined b fun s => .next s :=
  ⟨fun d B => ⟨B, d.phase, d.out⟩, fun s => by rw [State.withEffect_none]⟩

/-- A command that gives bench `b` a state which two machines with the same device and the same bench `b` agree on. -/
theorem Confined.of_gives {after : State → Bench} (hf : ∀ s, f s = s.gives b (after s))
    (hafter : ∀ s t : State, s.dev = t.dev → s.bench b = t.bench b → after s = after t) : Confined b f := by
  refine ⟨fun d B => ⟨after { pending := [], dev := d, benches := Vector.replicate 8 B }, d.phase, d.out⟩, fun s => ?_⟩
  rw [hf s, hafter s { pending := [], dev := s.dev, benches := Vector.replicate 8 (s.bench b) } rfl (by simp [State.bench])]
  rfl

theorem Confined.onBench (F : Bench → Bench) : Confined b fun s => s.onBench b F :=
  .of_gives (fun _ => rfl) fun _ _ _ hb => by rw [hb]

theorem Confined.emit (o : DevOutput) : Confined b fun s => .next (s.emit o) :=
  ⟨fun d B => ⟨B, d.phase, d.out ++ [o]⟩, fun s => by simp [State.withEffect, State.emit]⟩

theorem Confined.ite {c : Prop} [Decidable c] (hf : Confined b f) (hg : Confined b g) : Confined b fun s => if c then f s else g s := by
  split <;> assumption

/-- A command whose condition reads the device and bench `b` alone. -/
theorem Confined.cond (c : Device → Bench → Bool) (hf : Confined b f) (hg : Confined b g) :
    Confined b fun s => if c s.dev (s.bench b) then f s else g s := by
  obtain ⟨F, hF⟩ := hf
  obtain ⟨G, hG⟩ := hg
  refine ⟨fun d B => if c d B then F d B else G d B, fun s => ?_⟩
  cases hc : c s.dev (s.bench b) <;> simp [hc, hF, hG]

end

/-! ## The commands with more than one form -/

theorem State.bus_confined (b : BenchNo) (w : Writer) (off : Nat) (v : Word) : Confined b fun s => s.bus b w off v := .onBench _

theorem State.ustateBus_confined (b : BenchNo) (w : Writer) (u : Fin 544) (v : Word) : Confined b fun s => s.ustateBus b w u v :=
  .ite (.onBench _) (State.bus_confined ..)

theorem execHackWrite_confined (b : BenchNo) (w : Writer) (hi : Bool) (v : Word) : Confined b (execHackWrite b w hi v) :=
  .ite (.onBench _) (State.bus_confined ..)

theorem execHostInboundAccess_confined (b : BenchNo) (addr : BitVec 37) (acc : HostAccess) : Confined b (execHostInboundAccess b addr acc) := by
  refine .cond (fun d _ => d.link.isNone) .stays ?_
  cases acc with
  | read n =>
    refine .cond (fun d B => !(B.alive && !B.asleep && !d.held b)) (.emit _)
      ⟨fun d B =>
        let r := B.idleExit.unitRead midHost 0 addr.toNat (min n.toNat (2 ^ 37 - addr.toNat))
        ⟨r.2, d.phase, d.out ++ [.hostRead r.1.1 r.1.2.isSome]⟩, fun _ => rfl⟩
  | write l =>
    exact .cond (fun d B => !(B.alive && !B.asleep && !d.held b)) .stays
      (.onBench fun B => B.idleExit.unitWrite midHost 0 addr.toNat (l.take (2 ^ 37 - addr.toNat)))

theorem execRegisterWrite_bench_confined (b : BenchNo) (w : Writer) (off : BitVec 37) (v : Word) :
    Confined b (execRegisterWrite (.bench b w) off v) := .ite .stays (State.bus_confined ..)

theorem execRegisterWrite_host_confined (b : BenchNo) (off : BitVec 37) (v : Word) : Confined b (execRegisterWrite (.host b) off v) :=
  .ite .stays (.cond (fun d _ => d.link.isNone || d.held b) .stays (.onBench _))

/-! ## The release of a bench -/

/-- Bench `B` as its release leaves it: released from reset, released on leaving OFF, or as it was (R693, R740). -/
def Device.releasedBench (d : Device) (b : BenchNo) (B : Bench) : Bench :=
  match d.committed with
  | none => B
  | some img =>
    if !(!d.held b && B.rst.due.isNone && B.rst.clockOk && d.dmcRuns) then B
    else if !B.rst.released then B.release img img.benches[b] d.fuses.epoch
    else if B.pwr.effective = 3 && B.pwr.requested = 0 then (B.leaveOff.release img img.benches[b] d.fuses.epoch).raise 835
    else B

theorem State.releaseBench_eq (s : State) (b : BenchNo) : s.releaseBench b = s.setBench b (s.dev.releasedBench b (s.bench b)) := by
  unfold Device.releasedBench State.releaseBench State.releasable
  cases s.dev.committed with
  | none => rw [State.setBench_bench]
  | some img =>
    dsimp only
    simp only [apply_ite (s.setBench b), State.setBench_bench]

/-- The command BENCH_RESET_RELEASE: the step passes where it is the bench's turn, and a bench whose step has passed is released where
it may be (R693). -/
def Device.releaseEffect (d : Device) (b : BenchNo) (B : Bench) : BenchEffect :=
  match d.phase with
  | .benches n =>
    if n.val = b.val then
      let phase := Phase.benches ⟨b.val + 1, by omega⟩
      ⟨{ d with phase := phase }.releasedBench b B, phase, d.out⟩
    else ⟨if b.val < n.val then d.releasedBench b B else B, d.phase, d.out⟩
  | _ => ⟨B, d.phase, d.out⟩

theorem Device.releaseEffect_of_not_benches {d : Device} {b : BenchNo} {B : Bench} (h : ∀ n, d.phase ≠ .benches n) :
    d.releaseEffect b B = ⟨B, d.phase, d.out⟩ := by
  unfold Device.releaseEffect
  split
  · exact absurd ‹_› (h _)
  · rfl

theorem execBenchResetRelease_eq (b : BenchNo) (s : State) :
    execBenchResetRelease b s = .next (s.withEffect b (s.dev.releaseEffect b (s.bench b))) := by
  unfold execBenchResetRelease
  split
  case h_1 n hn =>
    simp only [Device.releaseEffect, hn]
    by_cases hturn : n.val = b.val
    · simp only [hturn, if_true, State.releaseBench_eq]
      rfl
    · simp only [hturn, if_false, State.releaseBench_eq]
      split
      · rw [← hn]; rfl
      · rw [← hn, State.withEffect_none]
  case h_2 hn => rw [Device.releaseEffect_of_not_benches hn, State.withEffect_none]

theorem execBenchResetRelease_confined (b : BenchNo) : Confined b (execBenchResetRelease b) :=
  ⟨fun d B => d.releaseEffect b B, execBenchResetRelease_eq b⟩

/-! ## Every command -/

/-- The device's commands name no bench. A bench's command is one computation on it, of which two also read the device; the forms above are
the rest. -/
theorem exec_confined {i : Instr} {b : BenchNo} (h : i.bench? = some b) : Confined b (exec i) := by
  cases i with
  | cerOpen | cerShare | cerAbort | epochAdvanceOpen | epochAdvanceSign | epochAdvanceCancel | epochAdvanceTimeout | functionLevelReset
  | hostPerst | hostLinkChange | spdmGetVersion | spdmGetCapabilities | spdmNegotiateAlgorithms | spdmGetDigests | spdmGetCertificate
  | spdmChallenge | spdmGetMeasurements | spdmKeyExchange | spdmFinish | spdmKeyUpdate | spdmHeartbeat | spdmEndSession | getInfo
  | benchReset | benchHold | benchRelease | deviceReset | deviceSoftReset | stageBegin | stageWrite | stageFinish | fuseReport | attestPq
  | lifecycleNonce | lifecycleAdvance | lifecycleConfirm | lifecycleDebugcred | tamperClear | rmaReport | pwrokRise | aonDomainValid
  | powerOnReset | brownOut | resetNPulse | resetNRise | deviceWatchdogExpiry | hostClockLoss | aonClockLoss | aonClockRecovery | dmcLockup
  | fuseSense | dmcRelease | bootcfgSampling | optionLoading | imageCommit | hostPhyRelease | pcieControllerRelease | bypass | idcode
  | samplePreload | extest | clamp | highz | dbgChal | dbgResp | dbgClose | testLogicReset | debugValidityExpiry | regRd | regWr | memRd
  | memWr | coreHalt | coreRun | coreStep | stateRd | stateWr | avsAdjustment | avsbusTimeout | thermtrip | currentLimitStep | powerCapStep
  | meshTrip | sensorTrip | vbatChangeover | vbatLoss | tamperSourceRestore => cases h
  | ceremonyTimeout | benchClockLoss => cases h; exact .of_gives (fun _ => rfl) fun _ _ hd hb => by rw [hd, hb]
  | ustateWriteRequested | ustateForce => cases h; exact State.ustateBus_confined ..
  | hackWrite => cases h; exact execHackWrite_confined ..
  | hostInboundAccess => cases h; exact execHostInboundAccess_confined ..
  | benchResetRelease => cases h; exact execBenchResetRelease_confined _
  | registerWrite t =>
    cases t with
    | bench => cases h; exact execRegisterWrite_bench_confined ..
    | host => cases h; exact execRegisterWrite_host_confined ..
    | pf0 => cases h
  | _ => cases h; exact .of_gives (fun _ => rfl) fun _ _ _ hb => by rw [hb]

/-- Settles O58: every command of a bench is confined to it. -/
theorem benchIsolation : Obligations.BenchIsolation := by
  unfold Obligations.BenchIsolation
  intro i b hi
  have hc := exec_confined hi
  exact ⟨fun _ _ => hc.dev_eq, fun _ _ ht _ => hc.bench_ne ht, fun _ _ _ _ => hc.determined⟩

end Sys2Proof.Machine

/-!
SUPPORT. Commands under the condition on which they act: work of a bench that lives, of a unit that runs, a register write that the
interconnect carries; each is then the bench's own computation. An access returns an idle bench to RUN (R737) and changes nothing else first.
-/

namespace Sys2Proof.Machine

section
variable {s : State} {b : BenchNo} {f : Bench → Bench}

theorem State.gives_bench (s : State) (b : BenchNo) : s.gives b (s.bench b) = .next s := by rw [State.gives, State.setBench_bench]
theorem State.onBench_eq_gives : s.onBench b f = s.gives b (f (s.bench b)) := rfl
theorem State.onAlive_of_alive (h : (s.bench b).alive = true) : s.onAlive b f = s.gives b (f (s.bench b)) := by
  simp only [State.onAlive, State.onBench_eq_gives, h, if_true]
theorem State.onUnit_of_unitRuns {u : Nat} (h : (s.bench b).unitRuns u = true) : s.onUnit b u f = s.gives b (f (s.bench b)) := by
  simp only [State.onUnit, State.onBench_eq_gives, h, if_true]

theorem Bench.accessOk_iff (B : Bench) (w : Writer) (off : Nat) (need : Right) :
    B.accessOk w off need = true ↔ B.reaches w = true ∧ B.idleExit.mafAllows w.mid (0x2000000000 + off) need = true := by
  rw [Bench.accessOk, Bool.and_eq_true]
theorem Bench.busWrite_of_mafAllows {B : Bench} {w : Writer} {off : Nat} (v : Word)
    (h : B.mafAllows w.mid (0x2000000000 + off) .w = true) : B.busWrite w off v = B.regWrite w off v := by
  unfold Bench.busWrite
  simp only [h, if_true]

/-- A register write that the writer can make and the filter grants. -/
theorem State.bus_of_accessOk {w : Writer} {off : Nat} (v : Word) (h : (s.bench b).accessOk w off .w = true) :
    s.bus b w off v = s.gives b ((s.bench b).idleExit.regWrite w off v) := by
  obtain ⟨hreach, hgrant⟩ := (Bench.accessOk_iff ..).mp h
  simp only [State.bus, State.onBench_eq_gives, hreach, if_true]
  rw [Bench.busWrite_of_mafAllows v hgrant]

end

/-! ## Counts that saturate -/

theorem sat16_toNat (h : Half) : (sat16 h).toNat = min (h.toNat + 1) 0xFFFF := by
  have := h.isLt
  unfold sat16
  split
  case isTrue hmax => simp [hmax]
  case isFalse hne =>
    have hne : h.toNat ≠ 0xFFFF := fun e => hne (BitVec.eq_of_toNat_eq e)
    simp [BitVec.toNat_add]
    omega

/-! ## Return from IDLE -/

@[simp] theorem Bench.idleExit_ctl (B : Bench) : B.idleExit.ctl = B.ctl := by unfold Bench.idleExit; split <;> rfl
@[simp] theorem Bench.idleExit_time (B : Bench) : B.idleExit.time = B.time := by unfold Bench.idleExit; split <;> rfl
@[simp] theorem Bench.idleExit_ustate (B : Bench) (u : Nat) : B.idleExit.ustate u = B.ustate u := by simp only [Bench.ustate, Bench.idleExit_ctl]

/-! ## Writes to the control and state block -/

theorem Bench.regWrite_ctl (B : Bench) (w : Writer) {off : Nat} (v : Word) (h : off < 0x10000) : B.regWrite w off v = B.ctlWrite w off v :=
  if_pos h
theorem Bench.regWrite_rstreq (B : Bench) (w : Writer) (v : Word) :
    B.regWrite w 0x18 v = if v.toNat % 256 = 0xA5 then B.requestReset 0x12 0 else B := by
  have hkey : v.extractLsb' 0 8 = 0xA5 ↔ v.toNat % 256 = 0xA5 := by simp [← BitVec.toNat_inj]
  rw [Bench.regWrite_ctl _ _ _ (by decide), Bench.ctlWrite, if_pos rfl]
  simp only [hkey]
theorem Bench.regWrite_wdkick (B : Bench) (w : Writer) (v : Word) : B.regWrite w 0x44 v = B.wdogKick w v := by
  rw [Bench.regWrite_ctl _ _ _ (by decide)]
  rfl
theorem Bench.regWrite_ustate (B : Bench) (w : Writer) {u : Nat} (v : Word) (hu : u < 544) :
    B.regWrite w (0x1000 + 4 * u) v = B.ustateWrite u v := by
  rw [Bench.regWrite_ctl _ _ _ (by omega), Bench.ctlWrite]
  have h18 : ¬0x1000 + 4 * u = 0x18 := by omega
  have h38 : ¬0x1000 + 4 * u = 0x38 := by omega
  have h40 : ¬0x1000 + 4 * u = 0x40 := by omega
  have h44 : ¬0x1000 + 4 * u = 0x44 := by omega
  have hin : 0x1000 ≤ 0x1000 + 4 * u ∧ 0x1000 + 4 * u < 0x1880 := by omega
  simp [h18, h38, h40, h44, hin]

/-- `w` can write BENCH.USTATE[u]: over the interconnect, or the host in its own view of the bench (R654, R665). -/
def Bench.ustateAccess (B : Bench) (w : Writer) (u : Fin 544) : Prop :=
  (w ≠ .host ∧ B.accessOk w (0x1000 + 4 * u.val) .w = true)
    ∨ (w = .host ∧ B.hostReaches = true ∧ (u.val = 0 ∨ (32 ≤ u.val ∧ u.val < 288)))

theorem State.ustateBus_of_access {s : State} {b : BenchNo} {w : Writer} {u : Fin 544} (v : Word) (h : (s.bench b).ustateAccess w u) :
    s.ustateBus b w u v = s.gives b ((s.bench b).idleExit.ustateWrite u.val v) := by
  unfold State.ustateBus
  obtain ⟨hw, hok⟩ | ⟨hw, hreach, hview⟩ := h
  · rw [if_neg hw, State.bus_of_accessOk v hok, Bench.regWrite_ustate _ _ _ u.isLt]
  · have hview : hostUnit u.val = true := by simpa [hostUnit] using hview
    simp [hw, State.onBench_eq_gives, hreach, hview]

end Sys2Proof.Machine

/-!
SUPPORT. What each operation on a unit's state register does, one lemma for each case (R38 to R56, R736), and the statement made of them.
-/

namespace Sys2Proof.Machine

theorem unitExists_iff (u : Nat) : unitExists u = true ↔ u ≤ 21 ∨ (32 ≤ u ∧ u < 544) := by simp [unitExists]
/-! The state codes as the statements write them (R42). -/
theorem eq_stDisabled_iff (v : BitVec 4) : v = stDisabled ↔ v = 0 := .rfl
theorem eq_stQuiesced_iff (v : BitVec 4) : v = stQuiesced ↔ v = 1 := .rfl
theorem eq_stServing_iff (v : BitVec 4) : v = stServing ↔ v = 2 := .rfl
theorem eq_stIsolated_iff (v : BitVec 4) : v = stIsolated ↔ v = 3 := .rfl

theorem stateOk_iff (u : Nat) (v : BitVec 4) : stateOk u v = true ↔ v.toNat ≤ 2 ∨ (v = 3 ∧ u = 0) := by
  simp [stateOk, eq_stIsolated_iff]

section
variable {B : Bench} {u : Nat}

/-! ## A write of REQUESTED -/

theorem Bench.ustateWrite_requested (B : Bench) (u : Nat) (v : BitVec 4) : B.ustateWrite u (v.zeroExtend 32) = B.requestState u v := by
  have hforce : (v.zeroExtend 32).getLsbD 17 = false := by simp
  have hcode : (v.zeroExtend 32).truncate 4 = v := by ext; simp
  rw [Bench.ustateWrite, hforce, hcode]
  rfl

theorem Bench.requestState_accepted {v : BitVec 4} (hu : unitExists u = true) (hv : stateOk u v = true) (hne : v ≠ (B.ustate u).requested) :
    B.requestState u v =
      let k := B.ustate u
      let C := B.setUState u { k with
        requested := v, since := B.time.elapsed, passed := false, diverged := k.diverged && (k.forcing || v ≠ k.effective) }
      let D := if u = 18 then C.jrnRequest else C
      if v = k.effective then D.unitChanged u v else D := by
  rw [Bench.requestState, if_neg (by simp [hu, hv, hne])]

theorem Bench.requestState_refused {v : BitVec 4} (h : stateOk u v = false ∨ v = (B.ustate u).requested) : B.requestState u v = B := by
  rw [Bench.requestState, if_pos (by obtain h | h := h <;> simp [h])]

/-! ## A force -/

theorem Bench.ustateWrite_force (B : Bench) (u : Nat) : B.ustateWrite u 0x20000 = B.forceState u := rfl

theorem Bench.forceState_none (h : (B.ustate u).diverged = false ∨ (B.ustate u).forcing = true ∨ u = 18 ∨ u = 19) : B.forceState u = B := by
  rw [Bench.forceState, if_pos (by obtain h | h | h | h := h <;> simp [h])]

theorem Bench.forceState_of_diverged (hu : unitExists u = true) (hdiv : (B.ustate u).diverged = true) (hforce : (B.ustate u).forcing = false)
    (h18 : u ≠ 18) (h19 : u ≠ 19) :
    B.forceState u = if u = 0 then B.requestReset 0x12 1 else (B.setUState u { B.ustate u with forcing := true }).unitReset u := by
  rw [Bench.forceState, if_neg (by simp [hu, hdiv, hforce, h18, h19])]

/-! ## The quiescent point -/

/-- The unit is where a change may take effect (R44 to R46). -/
def Bench.atQuiescentPoint (B : Bench) (u : Nat) : Bool :=
  ((B.ustate u).requested = stServing && ((B.ustate u).effective = stDisabled || (B.ustate u).effective = stQuiesced))
    || (if u = 0 then B.benchQuiet else B.unitQuiet u)

theorem Bench.quiescentPoint_of_request (hu : unitExists u = true) (hne : (B.ustate u).requested ≠ (B.ustate u).effective)
    (hforce : (B.ustate u).forcing = false) (h18 : u ≠ 18) :
    B.quiescentPoint u =
      if B.atQuiescentPoint u && B.stateFit u (B.ustate u).requested then (B.changeState u).unitChanged u (B.ustate u).effective else B := by
  rw [Bench.quiescentPoint, if_neg (by simp [hu, hne, hforce])]
  simp only [h18, decide_false, Bool.false_and, Bool.false_eq_true, if_false]
  rfl

theorem Bench.atQuiescentPoint_iff (B : Bench) (u : Nat) :
    B.atQuiescentPoint u = true ↔
      ((B.ustate u).requested = 2 ∧ ((B.ustate u).effective = 0 ∨ (B.ustate u).effective = 1)) ∨ (u = 0 ∧ B.benchQuiet = true)
        ∨ (u ≠ 0 ∧ B.unitQuiet u = true) := by
  by_cases h : u = 0 <;> simp [Bench.atQuiescentPoint, h, eq_stServing_iff, eq_stDisabled_iff, eq_stQuiesced_iff]

/-- Only an engine's known-answer tests, or the journal's recovery, keep a unit from a state. -/
theorem Bench.stateFit_iff_kat (h18 : u ≠ 18) (v : BitVec 4) :
    B.stateFit u v = true ↔
      (1 ≤ u → u ≤ 13 → v = 0 ∨ ((B.eng (Fin.ofNat 18 u)).katFail = false ∧ (v = 2 → (B.eng (Fin.ofNat 18 u)).katOk = true))) := by
  unfold Bench.stateFit
  by_cases h : 1 ≤ u ∧ u ≤ 13
  · simp [h, eq_stServing_iff, eq_stDisabled_iff, Decidable.imp_iff_not_or]
  · have : (decide (1 ≤ u) && decide (u ≤ 13)) = false := by simpa using h
    rw [if_neg (by simp [this]), if_neg h18]
    exact iff_of_true rfl fun h1 h13 => absurd ⟨h1, h13⟩ h

theorem Bench.unitQuiet_of_engine (h1 : 1 ≤ u) (h17 : u ≤ 17) : B.unitQuiet u = (B.eng (Fin.ofNat 18 u)).job.isNone := by
  rw [Bench.unitQuiet, if_neg (by omega), if_pos (by omega)]

theorem Bench.unitChanged_of_engine (h1 : 1 ≤ u) (h17 : u ≤ 17) (B : Bench) (was : BitVec 4) : B.unitChanged u was = B := by
  have h0 : ¬u = 0 := by omega
  have h19 : ¬u = 19 := by omega
  have h32 : ¬32 ≤ u := by omega
  have h288 : ¬288 ≤ u := by omega
  have h416 : ¬416 ≤ u := by omega
  simp [Bench.unitChanged, h0, h19, h32, h288, h416]

/-! ## The end of a forced reset (R52, R515) -/

@[simp] theorem Bench.eng_modEng_self (B : Bench) (n : UnitNo) (f : Eng → Eng) : (B.modEng n f).eng n = f (B.eng n) := by
  simp [Bench.modEng, Bench.setEng, Bench.eng]
@[simp] theorem Bench.raise_eng (B : Bench) (e : Nat) (n : UnitNo) : (B.raise e).eng n = B.eng n := by simp only [Bench.eng, Bench.raise_engs]

theorem Bench.ite_engs {c : Prop} [Decidable c] {C D : Bench} {v : Vector Eng 18} (hC : C.engs = v) (hD : D.engs = v) :
    (if c then C else D).engs = v := by
  split <;> assumption
@[simp] theorem Bench.sourceFails_engs (B : Bench) (second : Bool) : (B.sourceFails second).engs = B.engs := by
  unfold Bench.sourceFails
  exact Bench.ite_engs rfl (Bench.ite_engs (Bench.raise_engs ..) ((Bench.raise_engs ..).trans (Bench.raise_engs ..)))
theorem drawBytes_engs (n : Nat) (B : Bench) : (drawBytes n B).2.engs = B.engs := by rw [drawBytes_eq]
theorem drawSamples_engs (B : Bench) : (drawSamples B).2.engs = B.engs := by
  have h := drawBytes_engs 128 B
  unfold drawSamples
  generalize drawBytes 128 B = p at h ⊢
  exact h
@[simp] theorem Bench.startSource_engs (B : Bench) (second : Bool) : (B.startSource second).engs = B.engs := by
  have h := drawSamples_engs B
  unfold Bench.startSource
  generalize drawSamples B = p at h ⊢
  dsimp only
  split
  · exact h
  · rw [Bench.sourceFails_engs, h]
@[simp] theorem Bench.drbgInstantiate_engs (B : Bench) : B.drbgInstantiate.engs = B.engs := by
  unfold Bench.drbgInstantiate
  dsimp only
  split
  · simp only [Bench.startSource_engs]
  · simp only [drawBytes_eq, Bench.startSource_engs]
@[simp] theorem Bench.drbgInstantiate_eng (B : Bench) (n : UnitNo) : B.drbgInstantiate.eng n = B.eng n := by
  simp only [Bench.eng, Bench.drbgInstantiate_engs]

@[simp] theorem Bench.engKat_eng_self (B : Bench) (n : UnitNo) (fails : Bool) :
    (B.engKat n fails).eng n = { B.eng n with katOk := !fails, katFail := fails } := by
  unfold Bench.engKat
  split <;> simp

/-- The unit as its forced reset leaves it, before EFFECTIVE takes a value: an engine has run its tests, the DRBG is instantiated. -/
def Bench.forcedResetMade (B : Bench) (u : Nat) (katFails : Bool) : Bench :=
  let C := B.setUState u { B.ustate u with forcing := false }
  let D := if 1 ≤ u && u ≤ 13 then C.engKat (Fin.ofNat 18 u) katFails else C
  if u = 13 then D.drbgInstantiate else D

theorem Bench.forcedDone_of_forcing (h : (B.ustate u).forcing = true) (katFails : Bool) :
    B.forcedDone u katFails =
      let D := B.forcedResetMade u katFails
      if !D.stateFit u (B.ustate u).requested then
        if (B.ustate u).effective = stDisabled then D
        else (D.setUState u { D.ustate u with effective := stDisabled, changes := (D.ustate u).changes + 1 }).raise 830
      else (D.changeState u).unitChanged u (B.ustate u).effective := by
  rw [Bench.forcedDone, if_neg (by simp [h])]
  rfl

theorem Bench.forcedResetMade_of_not_engine (h : 14 ≤ u) (katFails : Bool) :
    B.forcedResetMade u katFails = B.setUState u { B.ustate u with forcing := false } := by
  have hu : ¬u ≤ 13 := by omega
  have h13 : ¬u = 13 := by omega
  simp [Bench.forcedResetMade, hu, h13]

theorem Bench.forcedResetMade_of_engine (h1 : 1 ≤ u) (h13 : u ≤ 13) (katFails : Bool) :
    B.forcedResetMade u katFails =
      let D := (B.setUState u { B.ustate u with forcing := false }).engKat (Fin.ofNat 18 u) katFails
      if u = 13 then D.drbgInstantiate else D := by
  rw [Bench.forcedResetMade]
  simp only [h1, h13, decide_true, Bool.and_self, if_true]

/-- After its tests an engine may take a state other than DISABLED only where it passed them. -/
theorem Bench.stateFit_forcedResetMade (h1 : 1 ≤ u) (h13 : u ≤ 13) (katFails : Bool) (v : BitVec 4) :
    (B.forcedResetMade u katFails).stateFit u v = true ↔ v = 0 ∨ katFails = false := by
  have heng : ((B.forcedResetMade u katFails).eng (Fin.ofNat 18 u)).katOk = !katFails
      ∧ ((B.forcedResetMade u katFails).eng (Fin.ofNat 18 u)).katFail = katFails := by
    rw [Bench.forcedResetMade_of_engine h1 h13]
    dsimp only
    split
    · simp only [Bench.drbgInstantiate_eng, Bench.engKat_eng_self, and_self]
    · simp only [Bench.engKat_eng_self, and_self]
  rw [Bench.stateFit_iff_kat (by omega)]
  simp only [h1, h13, heng, true_imp_iff]
  cases katFails <;> simp

/-! ## The divergence timer (R48) -/

/-- The timer of unit `u` has run past its limit, and for the first time since it started. -/
def Bench.divergesNow (B : Bench) (u : Nat) : Prop :=
  (B.ustate u).requested ≠ (B.ustate u).effective ∧ (B.ustate u).passed = false
    ∧ B.ctl.divto.toNat * 1000 ≤ B.time.elapsed - (B.ustate u).since

theorem Bench.divergence_now (hu : unitExists u = true) (h : B.divergesNow u) :
    B.divergence u = (B.setUState u { B.ustate u with diverged := true, passed := true }).divergeNote u := by
  obtain ⟨hne, hpassed, hpast⟩ := h
  have h22 : u ≠ 22 := fun e => by simp [e, unitExists] at hu
  rw [Bench.divergence, if_neg h22, if_neg (by simp [hu, hne, hpassed, hpast])]

theorem Bench.divergence_none (h22 : u ≠ 22) (h : ¬B.divergesNow u) : B.divergence u = B := by
  rw [Bench.divergence, if_neg h22]
  refine if_pos (Decidable.byContradiction fun hc => ?_)
  simp only [Bool.or_eq_true, not_or, Bool.not_eq_true', Bool.not_eq_true, Bool.not_eq_false, decide_eq_true_eq] at hc
  obtain ⟨⟨⟨-, hne⟩, hpassed⟩, hpast⟩ := hc
  exact h ⟨hne, hpassed, hpast⟩

end

/-! ## The commands -/

theorem Bench.changeState_eq (B : Bench) (u : Nat) :
    B.changeState u =
      let k := B.ustate u
      let R := (B.setUState u { k with effective := k.requested, changes := k.changes + 1, diverged := false, passed := false }).raise 830
      if u = 0 then R.msix 258 else if 32 ≤ u ∧ u < 288 then R.msix 256 else R := by
  simp only [Bench.changeState, Bool.and_eq_true, decide_eq_true_eq]

section
variable {s : State} {b : BenchNo} {w : Writer} {u : Fin 544}

theorem exec_ustateWriteRequested_of_access (v : BitVec 4) (h : (s.bench b).ustateAccess w u) :
    exec (.ustateWriteRequested b w u v) s = s.gives b ((s.bench b).idleExit.requestState u.val v) := by
  rw [exec_ustateWriteRequested, execUstateWriteRequested, State.ustateBus_of_access _ h, Bench.ustateWrite_requested]

theorem exec_ustateForce_of_access (h : (s.bench b).ustateAccess w u) :
    exec (.ustateForce b w u) s = s.gives b ((s.bench b).idleExit.forceState u.val) := by
  rw [exec_ustateForce, execUstateForce, State.ustateBus_of_access _ h, Bench.ustateWrite_force]

theorem exec_unitQuiescentPoint_of_unitRuns (h : (s.bench b).unitRuns u.val = true) :
    exec (.unitQuiescentPoint b u) s = s.gives b ((s.bench b).quiescentPoint u.val) :=
  State.onUnit_of_unitRuns (f := fun B => B.quiescentPoint u.val) h

theorem exec_forcedResetCompletion_of_unitRuns (fails : Bool) (h : (s.bench b).unitRuns u.val = true) :
    exec (.forcedResetCompletion b u fails) s = s.gives b ((s.bench b).forcedDone u.val fails) :=
  State.onUnit_of_unitRuns (f := fun B => B.forcedDone u.val fails) h

theorem exec_divergenceTimeout_of_alive (h : (s.bench b).alive = true) :
    exec (.divergenceTimeout b u) s = s.gives b ((s.bench b).divergence u.val) :=
  State.onAlive_of_alive (f := fun B => B.divergence u.val) h

end

/-- Settles O31: each command is the operation on the unit's state register that its condition lets through. -/
theorem unitStates : Obligations.UnitStates := by
  unfold Obligations.UnitStates
  intro s b w u hidx B I may changed k
  have hu : unitExists u.val = true := (unitExists_iff _).mpr (hidx.imp_right fun h => ⟨h, u.isLt⟩)
  have hk : I.ustate u.val = k := Bench.idleExit_ustate ..
  have hItime : I.time = B.time := Bench.idleExit_time _
  have hchanged : ∀ C : Bench, changed C = C.changeState u.val := fun C => (Bench.changeState_eq C u.val).symm
  refine ⟨fun hmay v => ⟨fun hv hne => ?_, fun hv => ?_⟩, fun hmay => ?_, fun hruns hforce hne h18 => ?_, Bench.unitQuiet_of_engine,
    fun hruns hforce => ⟨fun h14 h18 => ?_, fun h1 h13 fails => ?_⟩, fun halive h22 => ?_⟩
  case refine_1 =>
    have hexec : exec (.ustateWriteRequested b w u v) s = s.gives b (I.requestState u.val v) := exec_ustateWriteRequested_of_access v hmay
    rw [hexec, Bench.requestState_accepted hu ((stateOk_iff ..).mpr hv) (by rwa [hk])]
    simp only [hk, hItime]
  case refine_2 =>
    have hexec : exec (.ustateWriteRequested b w u v) s = s.gives b (I.requestState u.val v) := exec_ustateWriteRequested_of_access v hmay
    rw [hexec, Bench.requestState_refused]
    rw [hk, ← Bool.not_eq_true, stateOk_iff]
    exact hv.imp_left fun h => not_or.mpr ⟨by omega, h.2⟩
  case refine_3 =>
    have hexec : exec (.ustateForce b w u) s = s.gives b (I.forceState u.val) := exec_ustateForce_of_access hmay
    rw [hexec]
    refine ⟨fun hdiv hforce h0 h18 h19 => ?_, fun hdiv hforce h0 => ?_, fun h => ?_⟩
    · rw [Bench.forceState_of_diverged hu (by rwa [hk]) (by rwa [hk]) h18 h19, if_neg h0, hk]
    · rw [Bench.forceState_of_diverged hu (by rwa [hk]) (by rwa [hk]) (by omega) (by omega), if_pos h0]
    · rw [Bench.forceState_none (by rwa [hk])]
  case refine_4 =>
    have hquiet : (B.atQuiescentPoint u.val && B.stateFit u.val k.requested) = true ↔ _ ∧ _ :=
      (Bool.and_eq_true ..).to_iff.trans (and_congr (Bench.atQuiescentPoint_iff ..) (Bench.stateFit_iff_kat h18 _))
    rw [exec_unitQuiescentPoint_of_unitRuns hruns, Bench.quiescentPoint_of_request hu hne hforce h18]
    refine ⟨fun hq hable => ?_, fun hnot => ?_⟩
    · rw [if_pos (hquiet.mpr ⟨hq, hable⟩), hchanged]
    · rw [if_neg fun h => (hnot.elim (· (hquiet.mp h).1) (· (hquiet.mp h).2)), State.gives_bench]
  case refine_5 =>
    have hfit : (B.forcedResetMade u.val false).stateFit u.val k.requested = true := by
      rw [Bench.stateFit_iff_kat h18]
      exact fun _ h13 => absurd h13 (by omega)
    rw [exec_forcedResetCompletion_of_unitRuns _ hruns, Bench.forcedDone_of_forcing hforce, hchanged]
    rw [if_neg (by simpa using hfit), Bench.forcedResetMade_of_not_engine h14]
  case refine_6 =>
    intro D₀ D₁ D
    have hD : B.forcedResetMade u.val fails = D := Bench.forcedResetMade_of_engine h1 h13 fails
    have hfit : D.stateFit u.val k.requested = true ↔ k.requested = 0 ∨ fails = false := by
      rw [← hD]
      exact Bench.stateFit_forcedResetMade h1 h13 fails _
    rw [exec_forcedResetCompletion_of_unitRuns _ hruns, Bench.forcedDone_of_forcing hforce, hD]
    have hunfit : fails = true → k.requested ≠ 0 → (!D.stateFit u.val k.requested) = true := by
      intro hfails hreq
      rw [Bool.not_eq_true', ← Bool.not_eq_true, hfit, hfails]
      exact not_or.mpr ⟨hreq, Bool.noConfusion⟩
    refine ⟨fun h => ?_, fun hfails hreq heff => ?_, fun hfails hreq heff => ?_⟩
    · rw [if_neg (by simpa using hfit.mpr h.symm), hchanged, Bench.unitChanged_of_engine h1 (by omega)]
    · exact congrArg (s.gives b) ((if_pos (hunfit hfails hreq)).trans (if_neg heff))
    · exact congrArg (s.gives b) ((if_pos (hunfit hfails hreq)).trans (if_pos heff))
  case refine_7 =>
    rw [exec_divergenceTimeout_of_alive halive]
    refine ⟨fun hne hpassed hpast => ⟨sat16 B.ctl.divCount, sat16_toNat _, ?_⟩, fun h => ?_⟩
    · rw [Bench.divergence_now hu ⟨hne, hpassed, hpast⟩]
      rfl
    · rw [Bench.divergence_none h22, State.gives_bench]
      rintro ⟨hne, hpassed, hpast⟩
      obtain h | h | h := h
      · exact hne h
      · exact absurd (hpassed.symm.trans h) (by decide)
      · exact absurd hpast (Nat.not_le.mpr h)

end Sys2Proof.Machine

/-!
SUPPORT. The sources of a bench-level reset and what the reset leaves: one lemma for each operation and case (R29, R675 to R691, R719), and the
statement made of them.
-/

namespace Sys2Proof.Machine

/-! ## The reset request (R676) -/

/-- The place of a cause in the order in which resets are recorded. -/
def resetRank (cause : Byte) : Nat := ([0x14, 0x15, 0x11, 0x13, 0x12] : List Byte).idxOf cause

theorem Bench.requestReset_due (B : Bench) (x : RstCause) :
    (B.requestReset x.cause x.softsrc).rst.due =
      match B.rst.due with
      | none => some x
      | some y => if resetRank y.cause ≤ resetRank x.cause then some y else some x := by
  unfold Bench.requestReset resetRank
  cases h : B.rst.due with
  | none => rfl
  | some y =>
    dsimp only
    split <;> simp [*]

/-! ## Clocks (R29, R681, R682) -/

section
variable {B : Bench}

/-- Which cores a list of islands without a clock stops. -/
theorem Bench.coreClocks_clockStopped (B : Bench) (k : CoreNo) :
    (B.coreClocks.core k).clockStopped =
      ((B.rst.fllLost.any fun e => e.1 = k.val) || (decide (k.val < 16) && B.rst.fllLost.any fun e => e.1 = 17 + k.val / 4)) := by
  simp [Bench.coreClocks, Bench.core, Bench.islandOk]

theorem Bench.fllLoss_locked {i : Island} (h : (B.rst.fllLost.any fun e => e.1 = i.val) = false) :
    B.fllLoss i = ({ B with rst := { B.rst with fllLost := B.rst.fllLost ++ [(i.val, B.time.elapsed)] } } : Bench).coreClocks := by
  rw [Bench.fllLoss, if_neg (by simp [Bench.islandOk, h])]
theorem Bench.fllLoss_lost {i : Island} (h : (B.rst.fllLost.any fun e => e.1 = i.val) = true) : B.fllLoss i = B := by
  rw [Bench.fllLoss, if_pos (by simp [Bench.islandOk, h])]

theorem Bench.fllTimeout_late (h : ∃ e ∈ B.rst.fllLost, 1000 ≤ B.time.elapsed - e.2) :
    B.fllTimeout = ({ B with time := B.time.clockFailed } : Bench).requestReset 0x14 0 := by
  rw [Bench.fllTimeout, if_pos (by simpa using h)]
theorem Bench.fllTimeout_none (h : ∀ e ∈ B.rst.fllLost, B.time.elapsed - e.2 < 1000) : B.fllTimeout = B := by
  rw [Bench.fllTimeout, if_neg (by simpa using h)]

theorem Bench.wdogExpiry_due (hfetch : B.rst.firstFetch = true) (hon : B.rst.wdogTimeout ≠ 0)
    (hpast : B.rst.wdogTimeout.toNat * 1000 ≤ B.rst.wdogCount) : B.wdogExpiry = B.requestReset 0x11 0 := by
  have hon : B.rst.wdogTimeout.toNat ≠ 0 := fun h => hon (BitVec.eq_of_toNat_eq h)
  rw [Bench.wdogExpiry, if_pos (by simp [hfetch, hpast]; exact hon)]
theorem Bench.wdogExpiry_none
    (h : B.rst.firstFetch = false ∨ B.rst.wdogTimeout = 0 ∨ B.rst.wdogCount < B.rst.wdogTimeout.toNat * 1000) : B.wdogExpiry = B := by
  refine if_neg ?_
  obtain h | h | h := h
  · simp [h]
  · simp [h]
  · simp [Nat.not_le.mpr h]

/-! ## Lines that a clock failure lost (R687) -/

/-- Bytes put in memory one by one from `start`, each with its place. -/
def Mem.setBytes (m : Mem) (start : Nat) (l : List (Byte × Nat)) : Mem := l.foldl (fun (m : Mem) e => m.setByte (start + e.2) e.1) m

theorem Mem.wf_setBytes (start : Nat) (l : List (Byte × Nat)) {m : Mem} (hm : m.wf = true) : (m.setBytes start l).wf = true := by
  induction l generalizing m with
  | nil => exact hm
  | cons e l ih => exact ih (Mem.wf_setByte hm ..)
theorem Mem.byte_setBytes {start a : Nat} {l : List (Byte × Nat)} {m : Mem} (hm : m.wf = true) (h : ∀ e ∈ l, a ≠ start + e.2) :
    (m.setBytes start l).byte a = m.byte a := by
  induction l generalizing m with
  | nil => rfl
  | cons e l ih =>
    rw [Mem.setBytes, List.foldl_cons, ← Mem.setBytes, ih (Mem.wf_setByte hm ..) fun x hx => h x (.tail _ hx),
      Mem.byte_setByte (Mem.bytes_wf hm), if_neg (h e (.head _))]

theorem length_freeBytes (id : BenchNo) (n c : Nat) : (freeBytes id n c).length = n := by
  induction n generalizing c with
  | zero => rfl
  | succ n ih => rw [freeBytes, List.length_cons, ih]

theorem Bench.loseLine_eq (B : Bench) (line : Nat) :
    B.loseLine line =
      if paType (line * 64) ≠ .normal then B
      else { B with mem := B.mem.setBytes (line * 64) (freeBytes B.ctl.id 64 B.freeCtr).zipIdx, freeCtr := B.freeCtr + 64 } := by
  simp only [Bench.loseLine, drawBytes_eq]
  rfl

@[simp] theorem Bench.loseLine_rst (B : Bench) (line : Nat) : (B.loseLine line).rst = B.rst := by
  rw [Bench.loseLine_eq]; split <;> rfl
@[simp] theorem Bench.loseLine_time (B : Bench) (line : Nat) : (B.loseLine line).time = B.time := by
  rw [Bench.loseLine_eq]; split <;> rfl
theorem Bench.loseLine_mem_wf (hm : B.mem.wf = true) (line : Nat) : (B.loseLine line).mem.wf = true := by
  rw [Bench.loseLine_eq]
  split
  · exact hm
  · exact Mem.wf_setBytes _ _ hm
theorem Bench.loseLine_byte (hm : B.mem.wf = true) {line a : Nat} (ha : a / 64 ≠ line) : (B.loseLine line).mem.byte a = B.mem.byte a := by
  rw [Bench.loseLine_eq]
  split
  · rfl
  · refine Mem.byte_setBytes hm fun e he => ?_
    have hoff : e.2 < 64 := by simpa [length_freeBytes] using List.snd_lt_of_mem_zipIdx he
    omega

/-- The bench after the loss of the lines. -/
def Bench.loseLines (B : Bench) (lost : List (BitVec 34)) : Bench := lost.foldl (fun B l => B.loseLine l.toNat) B

@[simp] theorem Bench.loseLines_rst (B : Bench) (lost : List (BitVec 34)) : (B.loseLines lost).rst = B.rst := by
  induction lost generalizing B with
  | nil => rfl
  | cons l lost ih => exact (ih _).trans (Bench.loseLine_rst ..)
@[simp] theorem Bench.loseLines_time (B : Bench) (lost : List (BitVec 34)) : (B.loseLines lost).time = B.time := by
  induction lost generalizing B with
  | nil => rfl
  | cons l lost ih => exact (ih _).trans (Bench.loseLine_time ..)
theorem Bench.loseLines_byte (hm : B.mem.wf = true) {lost : List (BitVec 34)} {a : Nat} (ha : ∀ n ∈ lost, a / 64 ≠ n.toNat) :
    (B.loseLines lost).mem.byte a = B.mem.byte a := by
  induction lost generalizing B with
  | nil => rfl
  | cons l lost ih =>
    exact (ih (Bench.loseLine_mem_wf hm _) fun n hn => ha n (.tail _ hn)).trans (Bench.loseLine_byte hm (ha l (.head _)))

end

/-! ## The commands -/

section
variable {s : State} {b : BenchNo}

/-- A bench whose clock has failed, before its reset is requested: only the caches of a bench that lives hold lines. -/
def Bench.clockLost (B : Bench) (lost : List (BitVec 34)) : Bench :=
  let C := if B.alive then B.loseLines lost else B
  { C with rst := { C.rst with clockOk := false }, time := C.time.clockFailed }

@[simp] theorem Bench.clockLost_rst (B : Bench) (lost : List (BitVec 34)) : (B.clockLost lost).rst = { B.rst with clockOk := false } := by
  unfold Bench.clockLost; split <;> simp
@[simp] theorem Bench.clockLost_time (B : Bench) (lost : List (BitVec 34)) : (B.clockLost lost).time = B.time.clockFailed := by
  unfold Bench.clockLost; split <;> simp
theorem Bench.clockLost_byte {B : Bench} (hm : B.mem.wf = true) {lost : List (BitVec 34)} {a : Nat}
    (h : B.alive = false ∨ ∀ n ∈ lost, a / 64 ≠ n.toNat) : (B.clockLost lost).mem.byte a = B.mem.byte a := by
  unfold Bench.clockLost
  split
  case isTrue halive => exact Bench.loseLines_byte hm (h.resolve_left (by simp [halive]))
  case isFalse => rfl

theorem exec_benchClockLoss_running (lost : List (BitVec 34)) (hclock : (s.bench b).rst.clockOk = true) (hpor : ¬s.dev.inPor = true) :
    exec (.benchClockLoss b lost) s = s.gives b (((s.bench b).clockLost lost).requestReset 0x14 0) := by
  rw [exec_benchClockLoss, execBenchClockLoss, State.onBench_eq_gives, if_neg (by simp [hclock, hpor])]
  rfl

theorem exec_benchClockLoss_stopped (lost : List (BitVec 34)) (hclock : (s.bench b).rst.clockOk = false) :
    exec (.benchClockLoss b lost) s = .next s := by
  rw [exec_benchClockLoss, execBenchClockLoss, State.onBench_eq_gives, if_pos (by simp [hclock]), State.gives_bench]

theorem exec_fllLockLoss_of_alive (i : Island) (h : (s.bench b).alive = true) :
    exec (.fllLockLoss b i) s = s.gives b ((s.bench b).fllLoss i) := State.onAlive_of_alive (f := fun B => B.fllLoss i) h
theorem exec_fllRelockTimeout_of_alive (h : (s.bench b).alive = true) :
    exec (.fllRelockTimeout b) s = s.gives b (s.bench b).fllTimeout := State.onAlive_of_alive (f := Bench.fllTimeout) h
theorem exec_benchWatchdogExpiry_of_alive (h : (s.bench b).alive = true) :
    exec (.benchWatchdogExpiry b) s = s.gives b (s.bench b).wdogExpiry := State.onAlive_of_alive (f := Bench.wdogExpiry) h

theorem exec_wdkickWrite_of_accessOk {w : Writer} (v : Word) (h : (s.bench b).accessOk w 0x44 .w = true) :
    exec (.wdkickWrite b w v) s = s.gives b ((s.bench b).idleExit.wdogKick w v) := by
  rw [exec_wdkickWrite, execWdkickWrite, State.bus_of_accessOk v h, Bench.regWrite_wdkick]
theorem exec_rstreqWrite_of_accessOk {w : Writer} (v : Word) (h : (s.bench b).accessOk w 0x18 .w = true) :
    exec (.rstreqWrite b w v) s =
      s.gives b (if v.toNat % 256 = 0xA5 then (s.bench b).idleExit.requestReset 0x12 0 else (s.bench b).idleExit) := by
  rw [exec_rstreqWrite, execRstreqWrite, State.bus_of_accessOk v h, Bench.regWrite_rstreq]

theorem exec_benchResetEntry_none (h : (s.bench b).rst.due = none) : exec (.benchResetEntry b) s = .next s := by
  rw [exec_benchResetEntry, execBenchResetEntry, State.onBench_eq_gives, h, State.gives_bench]
theorem exec_benchResetEntry_due {c : RstCause} (h : (s.bench b).rst.due = some c) :
    exec (.benchResetEntry b) s = s.gives b ((s.bench b).resetEntry c) := by
  rw [exec_benchResetEntry, execBenchResetEntry, State.onBench_eq_gives, h]

end

/-- Settles O47: each source requests its reset, and the reset leaves what R689 keeps. -/
theorem benchResets : Obligations.BenchResets := by
  unfold Obligations.BenchResets
  intro s b w i v lost B I stops
  refine ⟨fun hclock hpor hwait => ⟨B.clockLost lost, ?_⟩, exec_benchClockLoss_stopped lost, rfl, fun halive hlocked => ?_, fun halive hlost => ?_,
    ⟨B.fllRelock i, rfl, ?_⟩, fun halive => ?_, fun hok => ?_, fun hok => ?_, fun hdue => ?_, fun c hdue => ?_, ?_⟩
  case refine_1 =>
    refine ⟨exec_benchClockLoss_running lost hclock (by simp [hpor, hwait]), by simp, ?_⟩
    rw [Bench.clockLost_time]
    exact ⟨rfl, rfl, rfl, rfl, rfl, rfl, rfl, fun hm a ha => Bench.clockLost_byte hm ha⟩
  case refine_2 =>
    refine ⟨B.fllLoss i, exec_fllLockLoss_of_alive i halive, ?_⟩
    rw [Bench.fllLoss_locked hlocked]
    exact ⟨rfl, Bench.coreClocks_clockStopped _⟩
  case refine_3 => rw [exec_fllLockLoss_of_alive i halive, Bench.fllLoss_lost hlost, State.gives_bench]
  case refine_4 => exact ⟨rfl, Bench.coreClocks_clockStopped _⟩
  case refine_5 =>
    rw [exec_fllRelockTimeout_of_alive halive, exec_benchWatchdogExpiry_of_alive halive]
    refine ⟨fun h => ?_, fun h => ?_, fun hfetch hon hpast => ?_, fun h => ?_⟩
    · rw [Bench.fllTimeout_late h]
    · rw [Bench.fllTimeout_none h, State.gives_bench]
    · rw [Bench.wdogExpiry_due hfetch hon hpast]
    · rw [Bench.wdogExpiry_none h, State.gives_bench]
  case refine_6 =>
    rw [exec_wdkickWrite_of_accessOk v hok]
    refine ⟨fun hkey hbsc => ?_, fun h => ?_⟩
    · rw [Bench.wdogKick, if_pos (by simp [hkey, hbsc])]
    · refine congrArg (s.gives b) (if_neg fun hboth => ?_)
      simp only [Bool.and_eq_true, decide_eq_true_eq] at hboth
      exact h.elim (· hboth.1) (· hboth.2)
  case refine_7 =>
    rw [exec_rstreqWrite_of_accessOk v hok]
    exact ⟨fun hkey => by rw [if_pos hkey], fun hkey => by rw [if_neg hkey]⟩
  case refine_8 => exact exec_benchResetEntry_none hdue
  case refine_9 =>
    intro Q
    refine ⟨B.resetEntry c, exec_benchResetEntry_due hdue, ?_⟩
    refine ⟨rfl, rfl, rfl, rfl, rfl, rfl, sat16_toNat Q.rst.count, ?_⟩
    and_intros <;> rfl
  case refine_10 =>
    intro C x y rank
    rw [Bench.requestReset_due]
    exact ⟨fun hnone => by rw [hnone], fun hsome => by rw [hsome]; rfl⟩

end Sys2Proof.Machine

/-!
SUPPORT. What comes before an instruction's own work, for every instruction of the catalogue (R95, R121, R122, R230, R382): each is a word
with a body that its core runs, and the fetch of that word ends in one of three ways.
-/

namespace Sys2Proof.Machine

/-! ## Every instruction is a word and a body -/

/-- An instruction of the catalogue is a word with a body that its core runs; a form that waits does so before it runs the word. -/
theorem exec_of_exec? {i : Instr} {x : Exec} (h : i.exec? = some x) :
    (∃ word body, ∀ s, exec i s = s.instr x word body)
      ∨ (i.mayWait = true ∧ ∃ word w body, ∀ s, exec i s = s.instrWaiting x word w body) := by
  cases i <;> cases h
  case fenceT | brx | bwx | brc | bwc | brd | bwd | brs | bws | brpcc | bwpcc | savel | saveu | loadl | loadu | ckpush | clpush | japp =>
    exact .inr ⟨rfl, _, _, _, fun _ => rfl⟩
  all_goals exact .inl ⟨_, _, fun _ => rfl⟩

section
variable {B C : Bench} {x : Exec} {b : BankNo} {word : Word} {body : Strand → M (Option Cap)}

/-! ## What is due at the boundary -/

theorem Bench.instr_of_not_executing (h : B.executing x.core = none) : B.instr x word body = B := by
  simp only [Bench.instr, Bench.runWord, h]
theorem Bench.instr_of_eventDue {eb : BankNo} {n : Nat} (hb : B.executing x.core = some b) (he : B.eventDue x.core = some (eb, n)) :
    B.instr x word body = B.eventTrap x.core eb n := by
  simp only [Bench.instr, Bench.runWord, hb, he]
theorem Bench.instr_of_switchDue (hb : B.executing x.core = some b) (he : B.eventDue x.core = none) (hs : B.switchDue x.core = true) :
    B.instr x word body = B.switchStrand x.core := by
  simp only [Bench.instr, Bench.runWord, hb, he, hs, if_true]

theorem Bench.instrWaiting_of_not_executing {w : Bench → CoreNo → BankNo → Bool} (h : B.executing x.core = none) :
    B.instrWaiting x word w body = B := by
  simp only [Bench.instrWaiting, h]
/-- With a trap or a switch due, no instruction waits (R230). -/
theorem Bench.instrWaiting_of_due {w : Bench → CoreNo → BankNo → Bool} (hb : B.executing x.core = some b)
    (h : B.eventDue x.core ≠ none ∨ B.switchDue x.core = true) : B.instrWaiting x word w body = B.instr x word body := by
  have hdue : ((B.eventDue x.core).isNone && !B.switchDue x.core) = false := by
    obtain he | hs := h
    · simp [he]
    · simp [hs]
  simp only [Bench.instrWaiting, hb, hdue, Bool.false_and, Bool.false_eq_true, if_false]

/-! ## The fetch (R95, R382) -/

/-- The fetch at the prepared core's PCC; the word plays no part in it. -/
def Bench.fetches (B : Bench) (k : CoreNo) (b : BankNo) : EStateM.Result Trap Bench Bool :=
  fetchAt (Machine.strandOf k b) ((B.prepare k).bank k b).pcc.cursor (B.prepare k)

theorem Bench.instr_of_fetch_fault {t : Trap} (hb : B.executing x.core = some b) (he : B.eventDue x.core = none)
    (hs : B.switchDue x.core = false) (hf : B.fetches x.core b = .error t C) : B.instr x word body = C.takeTrap x.core b t := by
  change fetchAt { core := x.core, bank := b, word := word } _ _ = _ at hf
  simp [Bench.instr, Bench.runWord, hb, he, hs, hf]
theorem Bench.instr_of_fetch_denied (hb : B.executing x.core = some b) (he : B.eventDue x.core = none)
    (hs : B.switchDue x.core = false) (hf : B.fetches x.core b = .ok false C) : B.instr x word body = C.noOp x.core b := by
  change fetchAt { core := x.core, bank := b, word := word } _ _ = _ at hf
  simp [Bench.instr, Bench.runWord, hb, he, hs, hf]
theorem Bench.instr_of_fetch (hb : B.executing x.core = some b) (he : B.eventDue x.core = none)
    (hs : B.switchDue x.core = false) (hf : B.fetches x.core b = .ok true C) :
    B.instr x word body = C.finish x.core b (guarded x.guard body { core := x.core, bank := b, word := word }) := by
  change fetchAt { core := x.core, bank := b, word := word } _ _ = _ at hf
  simp [Bench.instr, Bench.runWord, hb, he, hs, hf]

end

section
variable {B : Bench} {σ : Strand} {a : Dword}

theorem Cap.sealed?_of_ne {c : Cap} (h : c.otype ≠ 0) : c.sealed? = true := by simpa [Cap.sealed?] using h
theorem Cap.sealed?_of_eq {c : Cap} (h : c.otype = 0) : c.sealed? = false := by simp [Cap.sealed?, h]

/-- The checks of the fetch, in their order. -/
theorem fetchAt_untagged (htag : (B.bank σ.core σ.bank).pcc.tag = false) : fetchAt σ a B = .error { cause := .capTag, etval := a } B := by
  simp [fetchAt, M.bank, M.fault, bind, EStateM.bind, htag]
theorem fetchAt_sealed (htag : (B.bank σ.core σ.bank).pcc.tag = true) (hseal : (B.bank σ.core σ.bank).pcc.otype ≠ 0) :
    fetchAt σ a B = .error { cause := .capSeal, etval := a } B := by
  simp [fetchAt, M.bank, M.fault, bind, EStateM.bind, Cap.sealed?_of_ne hseal, htag]
theorem fetchAt_not_executable (htag : (B.bank σ.core σ.bank).pcc.tag = true) (hopen : (B.bank σ.core σ.bank).pcc.otype = 0)
    (hex : (B.bank σ.core σ.bank).pcc.has permEX = false) : fetchAt σ a B = .error { cause := .nxFetch, etval := a } B := by
  simp [fetchAt, M.bank, M.fault, bind, EStateM.bind, Cap.sealed?_of_eq hopen, htag, hex]
theorem fetchAt_outside (htag : (B.bank σ.core σ.bank).pcc.tag = true) (hopen : (B.bank σ.core σ.bank).pcc.otype = 0)
    (hex : (B.bank σ.core σ.bank).pcc.has permEX = true)
    (hout : ¬((B.bank σ.core σ.bank).pcc.base ≤ a.toNat ∧ a.toNat + 4 ≤ (B.bank σ.core σ.bank).pcc.top)) :
    fetchAt σ a B = .error { cause := .capBounds, etval := a } B := by
  have hout : a.toNat < (B.bank σ.core σ.bank).pcc.base ∨ (B.bank σ.core σ.bank).pcc.top < a.toNat + 4 := by omega
  simp [fetchAt, M.bank, M.fault, bind, EStateM.bind, Cap.sealed?_of_eq hopen, htag, hex, hout]

/-- With translation off, a fetch of Normal memory that passes the checks is the filter's to judge. -/
theorem fetchAt_verdict (hauth : (B.bank σ.core σ.bank).pcc.authorises [permEX] a.toNat 4) (hmode : slice (B.bank σ.core σ.bank).atp.toNat 17 16 = 0)
    (hnormal : paType a.toNat = .normal) : fetchAt σ a B = fetchVerdict σ a a.toNat B := by
  obtain ⟨htag, hopen, hex, hbase, htop⟩ := hauth
  have hex := hex permEX (by simp)
  have hmode : ∀ sys, (B.xctx σ.core σ.bank sys).mode = 0 := fun _ => hmode
  simp [fetchAt, M.bank, M.bench, bind, EStateM.bind, pure, EStateM.pure, Cap.sealed?_of_eq hopen, htag, hex, Nat.not_lt.mpr hbase,
    Nat.not_lt.mpr htop, pageChecks, Bench.pageCheck_plain (hmode _) hnormal, pageCommits, Bench.pageCommit]

theorem fetchVerdict_denied {pa : Nat} (h : B.mafAllows (midCore σ.core) pa .x = false) :
    fetchVerdict σ a pa B = .ok false (B.denied (midCore σ.core) (B.origin σ.core σ.bank) pa 4 kindFetch) := by
  simp [fetchVerdict, h]
theorem fetchVerdict_plain {pa n : Nat} (hn : 0 < n) (h : B.plainFor (midCore σ.core) pa n .x) : fetchVerdict σ a pa B = .ok true B := by
  obtain ⟨-, hallow, h1, h2, h3, h4, h5⟩ := h pa (Nat.le_refl _) (by omega)
  simp [fetchVerdict, hallow, Bench.checkLine_intact h1 h2 h3 h4 h5]

end

section
variable {B : Bench} {k : CoreNo} {b : BankNo}

theorem Bench.fetches_plain
    (hauth : ((B.prepare k).bank k b).pcc.authorises [permEX] ((B.prepare k).bank k b).pcc.cursor.toNat 4)
    (hplain : (B.prepare k).plainMemory k b ((B.prepare k).bank k b).pcc.cursor.toNat 4 .x) : B.fetches k b = .ok true (B.prepare k) := by
  obtain ⟨hmode, hplain⟩ := hplain
  obtain ⟨hnormal, -⟩ := hplain _ (Nat.le_refl _) (by omega)
  exact (fetchAt_verdict (σ := Machine.strandOf k b) hauth hmode hnormal).trans (fetchVerdict_plain (by decide) hplain)

theorem Bench.fetches_denied
    (hauth : ((B.prepare k).bank k b).pcc.authorises [permEX] ((B.prepare k).bank k b).pcc.cursor.toNat 4)
    (hmode : slice ((B.prepare k).bank k b).atp.toNat 17 16 = 0) (hnormal : paType ((B.prepare k).bank k b).pcc.cursor.toNat = .normal)
    (hdeny : (B.prepare k).mafAllows (midCore k) ((B.prepare k).bank k b).pcc.cursor.toNat .x = false) :
    B.fetches k b = .ok false ((B.prepare k).denied (midCore k) ((B.prepare k).origin k b) ((B.prepare k).bank k b).pcc.cursor.toNat 4 kindFetch) :=
  (fetchAt_verdict (σ := Machine.strandOf k b) hauth hmode hnormal).trans (fetchVerdict_denied hdeny)

end

/-! ## The guard (R121, R122, R135) -/

@[simp] theorem Guard.holds_rcv (g : Guard) (t : Bank) (v : Bool) : g.holds { t with rcv := v } = g.holds t := by
  cases g <;> rfl

/-- A false guard skips the body: RCV clears and PCC advances. -/
theorem Bench.finish_guarded_false {B : Bench} {k : CoreNo} {b : BankNo} {g : Guard} {word : Word} (body : Strand → M (Option Cap))
    (h : g.holds (B.bank k b) = false) :
    B.finish k b (guarded g body { core := k, bank := b, word := word }) = (B.modBank k b fun t => { t with rcv := false }).retire k b none := by
  simp [Bench.finish, guarded, M.mod, M.bank, bind, EStateM.bind, pure, EStateM.pure, h]

theorem Bench.noOp_eq (B : Bench) (k : CoreNo) (b : BankNo) :
    B.noOp k b = (B.modBank k b fun t => { t with rcv := false }).retire k b none := by
  simp [Bench.noOp, Bench.finish, guarded, M.mod, M.bank, bind, EStateM.bind, pure, EStateM.pure, Guard.holds]

/-! ## The command -/

section
variable {s : State} {i : Instr} {x : Exec} {b : BankNo}

theorem exec_of_not_executing (hx : i.exec? = some x) (h : (s.bench x.bench).executing x.core = none) : exec i s = .next s := by
  obtain ⟨word, body, hi⟩ | ⟨-, word, w, body, hi⟩ := exec_of_exec? hx
  · rw [hi, State.instr, State.onBench_eq_gives, Bench.instr_of_not_executing h, State.gives_bench]
  · rw [hi, State.instrWaiting, State.onBench_eq_gives, Bench.instrWaiting_of_not_executing h, State.gives_bench]

/-- With a trap or a switch due, every instruction's command is that of a word with a body. -/
theorem exec_of_due (hx : i.exec? = some x) (hb : (s.bench x.bench).executing x.core = some b)
    (hdue : (s.bench x.bench).eventDue x.core ≠ none ∨ (s.bench x.bench).switchDue x.core = true) :
    ∃ word body, exec i s = s.gives x.bench ((s.bench x.bench).instr x word body) := by
  obtain ⟨word, body, hi⟩ | ⟨-, word, w, body, hi⟩ := exec_of_exec? hx
  · exact ⟨word, body, hi s⟩
  · refine ⟨word, body, ?_⟩
    rw [hi, State.instrWaiting, State.onBench_eq_gives, Bench.instrWaiting_of_due hb hdue]

/-- So is that of an instruction that never waits. -/
theorem exec_of_not_mayWait (hx : i.exec? = some x) (hwait : i.mayWait = false) :
    ∃ word body, exec i s = s.gives x.bench ((s.bench x.bench).instr x word body) := by
  obtain ⟨word, body, hi⟩ | ⟨hw, -⟩ := exec_of_exec? hx
  · exact ⟨word, body, hi s⟩
  · exact absurd hw (by simp [hwait])

end

/-- Settles O57: what is due at the boundary comes first, then the fetch, whose outcome decides what the instruction does. -/
theorem instructionFetch : Obligations.InstructionFetch := by
  unfold Obligations.InstructionFetch
  intro s i x hx B P
  refine ⟨exec_of_not_executing hx, fun b hb => ⟨fun eb n he => ?_, fun he hs => ?_, fun he hs hwait => ?_⟩⟩
  · obtain ⟨word, body, hi⟩ := exec_of_due hx hb (.inl (he ▸ Option.some_ne_none _))
    rw [hi, Bench.instr_of_eventDue hb he]
  · obtain ⟨word, body, hi⟩ := exec_of_due hx hb (.inr hs)
    rw [hi, Bench.instr_of_switchDue hb he hs]
  · obtain ⟨word, body, hi⟩ := exec_of_not_mayWait (s := s) hx hwait
    intro pcc a traps inside
    have traps_of {c : Cause} (hf : B.fetches x.core b = .error { cause := c, etval := pcc.cursor } P) : traps c :=
      hi.trans (congrArg _ (Bench.instr_of_fetch_fault hb he hs hf))
    refine ⟨fun htag => traps_of (fetchAt_untagged htag), fun htag hseal => traps_of (fetchAt_sealed htag hseal),
      fun htag hopen hex => traps_of (fetchAt_not_executable htag hopen hex),
      fun htag hopen hex hout => traps_of (fetchAt_outside htag hopen hex hout),
      fun htag hopen hex hin hplain hguard => ?_, fun htag hopen hex hin hmode hnormal hdeny => ?_⟩
    all_goals have hauth : pcc.authorises [permEX] a 4 := ⟨htag, hopen, List.forall_mem_singleton.mpr hex, hin⟩
    · have hf := Bench.fetches_plain hauth hplain
      rw [hi, Bench.instr_of_fetch hb he hs hf, Bench.finish_guarded_false body hguard]
    · have hf := Bench.fetches_denied hauth hmode hnormal hdeny
      rw [hi, Bench.instr_of_fetch_denied hb he hs hf, Bench.noOp_eq]

end Sys2Proof.Machine

/-!
SUPPORT. How an instruction that its core begins ends: its body's outcome on the fetched bench retires or is taken as a trap (R121, R226),
with an outcome once for each body of the capability, memory and control-flow groups.
-/

namespace Sys2Proof.Machine

/-! ## The command of an instruction that begins -/

section
variable {s : State} {x : Exec} {b : BankNo} {B C : Bench} {word : Word} {body : Strand → M (Option Cap)}

theorem State.instr_ok {pc : Option Cap} (h : (s.bench x.bench).begins x = some (b, B))
    (hbody : body { core := x.core, bank := b, word := word } B = .ok pc C) :
    s.instr x word body = s.gives x.bench (C.retire x.core b pc) := by
  rw [State.instr_of_begins word body h, Bench.finish, hbody]
  rfl

theorem State.instr_fault {t : Trap} (h : (s.bench x.bench).begins x = some (b, B))
    (hbody : body { core := x.core, bank := b, word := word } B = .error t C) :
    s.instr x word body = s.gives x.bench (C.takeTrap x.core b t) := by
  rw [State.instr_of_begins word body h, Bench.finish, hbody]
  rfl

/-- An instruction that only computes a register from the strand's own. -/
theorem State.instr_writesX {f : Bank → Word} {rd : Reg} (h : (s.bench x.bench).begins x = some (b, B)) :
    s.instr x word (plain fun t => t.setX rd (f t)) = s.writesX x b B rd (f (B.bank x.core b)) := State.instr_plain word _ h

end

theorem Bench.modBank_modBank (B : Bench) (k : CoreNo) (b : BankNo) (f g : Bank → Bank) :
    (B.modBank k b f).modBank k b g = B.modBank k b fun t => g (f t) := by
  simp [Bench.modBank, Bench.setBank, Bench.modCore, Bench.setCore, Core.setBank, Bench.bank, Bench.core, Core.bank]

theorem Bench.modBank_congr {B : Bench} {k : CoreNo} {b : BankNo} {f g : Bank → Bank} (h : f (B.bank k b) = g (B.bank k b)) :
    B.modBank k b f = B.modBank k b g := congrArg (B.setBank k b) h

/-! ## Operations on capabilities (R97, R190) -/

section
variable {s : State} {x : Exec} {b : BankNo} {B : Bench} {word : Word} {cd : Reg} {f : Bank → Except Cause Cap}

theorem State.bodyCap_ok {r : Cap} (h : (s.bench x.bench).begins x = some (b, B)) (hf : f (B.bank x.core b) = .ok r) :
    s.instr x word (bodyCap cd f) = s.writesC x b B cd r := by
  refine State.instr_ok (C := B.modBank x.core b (·.setC cd r)) h ?_
  simp only [bodyCap, M.bank, bind, EStateM.bind, M.ofExceptWord, hf]
  rfl

theorem State.bodyCap_fault {c : Cause} (h : (s.bench x.bench).begins x = some (b, B)) (hf : f (B.bank x.core b) = .error c) :
    s.instr x word (bodyCap cd f) = s.gives x.bench (B.takeTrap x.core b { cause := c, etval := word.zeroExtend 64 }) := by
  refine State.instr_fault h ?_
  simp only [bodyCap, M.bank, bind, EStateM.bind, M.ofExceptWord, hf]
  rfl

end

/-! ## Loads and stores (R184 to R187) -/

/-- The cursor of c[cs1] moves by `move`, where it moves. -/
def Bank.moved (t : Bank) (cs1 : Reg) : Option Dword → Bank
  | none => t
  | some n => t.setC cs1 ((t.getC cs1).bump n)

theorem M.bumpC_eq (σ : Strand) (cs1 : Reg) (move : Option Dword) (B : Bench) :
    M.bumpC σ cs1 move B = .ok () (B.modBank σ.core σ.bank (·.moved cs1 move)) := by
  cases move with
  | none => exact congrArg (EStateM.Result.ok ()) (B.modBank_id σ.core σ.bank).symm
  | some n => rfl

section
variable {B C : Bench} {σ : Strand} {cs1 : Reg} {off : Dword} {move : Option Dword}

theorem bodyLoad_ok {n : Nat} {signed : Bool} {rd : Reg} {l : List Byte}
    (h : M.load σ ((B.bank σ.core σ.bank).getC cs1) (((B.bank σ.core σ.bank).getC cs1).cursor + off) n B = .ok l C) :
    bodyLoad n signed rd cs1 off move σ B = .ok none (C.modBank σ.core σ.bank fun t => (t.setX rd (extend signed l)).moved cs1 move) := by
  simp only [bodyLoad, M.getC, M.setX, M.mod, bind, EStateM.bind, pure, EStateM.pure, h, M.bumpC_eq, Bench.modBank_modBank]

theorem bodyLoad_fault {n : Nat} {signed : Bool} {rd : Reg} {t : Trap}
    (h : M.load σ ((B.bank σ.core σ.bank).getC cs1) (((B.bank σ.core σ.bank).getC cs1).cursor + off) n B = .error t C) :
    bodyLoad n signed rd cs1 off move σ B = .error t C := by
  simp only [bodyLoad, M.getC, bind, EStateM.bind, h]

theorem bodyClc_ok {cd : Reg} {v : Cap}
    (h : M.loadCap σ ((B.bank σ.core σ.bank).getC cs1) (((B.bank σ.core σ.bank).getC cs1).cursor + off) B = .ok v C) :
    bodyClc cd cs1 off move σ B = .ok none (C.modBank σ.core σ.bank fun t => (t.setC cd v).moved cs1 move) := by
  simp only [bodyClc, M.getC, M.setC, M.mod, bind, EStateM.bind, pure, EStateM.pure, h, M.bumpC_eq, Bench.modBank_modBank]

theorem M.dField_castLE (σ : Strand) (d : Fin 16) (B : Bench) : M.dField σ (d.castLE (by decide)) B = .ok d B := by
  have hd : Fin.ofNat 16 d.val = d := Fin.ofNat_val_eq_self d
  simp only [M.dField, Fin.val_castLE, d.isLt, if_true, hd]
  rfl

theorem M.predField_castLE (σ : Strand) (p : Fin 8) (B : Bench) : M.predField σ (p.castLE (by decide)) B = .ok p B := by
  have hp : Fin.ofNat 8 p.val = p := Fin.ofNat_val_eq_self p
  simp only [M.predField, Fin.val_castLE, p.isLt, if_true, hp]
  rfl

theorem bodyDld_ok {dd : Fin 16} {l : List Byte}
    (h : M.load σ ((B.bank σ.core σ.bank).getC cs1) (((B.bank σ.core σ.bank).getC cs1).cursor + off) 16 B = .ok l C) :
    bodyDld (dd.castLE (by decide)) cs1 off move σ B
      = .ok none (C.modBank σ.core σ.bank fun t => (t.setD dd (BitVec.ofNat 128 (leNat l))).moved cs1 move) := by
  simp only [bodyDld, M.dField_castLE, M.getC, M.mod, bind, EStateM.bind, pure, EStateM.pure, h, M.bumpC_eq, Bench.modBank_modBank]

theorem bodyStore_ok {n : Nat} {rs2 : Reg}
    (h : M.store σ ((B.bank σ.core σ.bank).getC cs1) (((B.bank σ.core σ.bank).getC cs1).cursor + off)
      (leBytes n ((B.bank σ.core σ.bank).getX rs2).toNat) B = .ok () C) :
    bodyStore n rs2 cs1 off move σ B = .ok none (C.modBank σ.core σ.bank (·.moved cs1 move)) := by
  simp only [bodyStore, M.getC, M.getX, bind, EStateM.bind, pure, EStateM.pure, h, M.bumpC_eq]

theorem bodyStore_fault {n : Nat} {rs2 : Reg} {t : Trap}
    (h : M.store σ ((B.bank σ.core σ.bank).getC cs1) (((B.bank σ.core σ.bank).getC cs1).cursor + off)
      (leBytes n ((B.bank σ.core σ.bank).getX rs2).toNat) B = .error t C) :
    bodyStore n rs2 cs1 off move σ B = .error t C := by
  simp only [bodyStore, M.getC, M.getX, bind, EStateM.bind, h]

theorem bodyCsc_ok {cs2 : Reg}
    (h : M.storeCap σ ((B.bank σ.core σ.bank).getC cs1) (((B.bank σ.core σ.bank).getC cs1).cursor + off)
      ((B.bank σ.core σ.bank).getC cs2) B = .ok () C) :
    bodyCsc cs2 cs1 off move σ B = .ok none (C.modBank σ.core σ.bank (·.moved cs1 move)) := by
  simp only [bodyCsc, M.getC, bind, EStateM.bind, pure, EStateM.pure, h, M.bumpC_eq]

theorem bodyDst_ok {ds : Fin 16}
    (h : M.store σ ((B.bank σ.core σ.bank).getC cs1) (((B.bank σ.core σ.bank).getC cs1).cursor + off)
      (leBytes 16 ((B.bank σ.core σ.bank).getD ds).toNat) B = .ok () C) :
    bodyDst (ds.castLE (by decide)) cs1 off move σ B = .ok none (C.modBank σ.core σ.bank (·.moved cs1 move)) := by
  simp only [bodyDst, M.dField_castLE, M.getC, M.bank, bind, EStateM.bind, pure, EStateM.pure, h, M.bumpC_eq]

theorem bodyFill_ok {k : FillSize} {down : Bool} {rs2 : Reg}
    (h : M.store σ ((B.bank σ.core σ.bank).getC cs1) ((B.bank σ.core σ.bank).getC cs1).cursor
      (k.bytes ((B.bank σ.core σ.bank).getX rs2)) B = .ok () C) :
    bodyFill k down cs1 rs2 σ B = .ok none (C.modBank σ.core σ.bank (·.moved cs1 (some (cursorStep down k.size)))) := by
  simp only [bodyFill, M.getC, M.getX, bind, EStateM.bind, pure, EStateM.pure, h, M.bumpC_eq]

/-- The byte forms read their byte as a load does (R183, R197). -/
theorem bodyMacb_ok {rd rs2 : Reg} {l : List Byte}
    (h : M.load σ ((B.bank σ.core σ.bank).getC cs1) ((B.bank σ.core σ.bank).getC cs1).cursor 1 B = .ok l C) :
    bodyMacb rd cs1 rs2 σ B = .ok none (C.modBank σ.core σ.bank fun t =>
      (t.setX rd (t.getX rd + (l.headD 0).zeroExtend 32 * t.getX rs2)).moved cs1 (some 1)) := by
  simp only [bodyMacb, cursorByte, M.getC, M.mod, bind, EStateM.bind, pure, EStateM.pure, h, Bank.moved, Bank.getC_setX]

theorem bodyCrcbPi_ok {poly : Fin 3} {rd : Reg} {l : List Byte}
    (h : M.load σ ((B.bank σ.core σ.bank).getC cs1) ((B.bank σ.core σ.bank).getC cs1).cursor 1 B = .ok l C) :
    bodyCrcbPi poly rd cs1 σ B = .ok none (C.modBank σ.core σ.bank fun t =>
      (t.setX rd (crcByte poly (crcStart poly (t.getX rd)) (l.headD 0))).moved cs1 (some 1)) := by
  simp only [bodyCrcbPi, cursorByte, M.getC, M.mod, bind, EStateM.bind, pure, EStateM.pure, h, Bank.moved, Bank.getC_setX]

theorem bodyCmpb_ok {k : ByteCmp} {down : Bool} {pd : Fin 8} {rs2 : Reg} {l : List Byte}
    (h : M.load σ ((B.bank σ.core σ.bank).getC cs1) ((B.bank σ.core σ.bank).getC cs1).cursor 1 B = .ok l C) :
    bodyCmpb k down (pd.castLE (by decide)) cs1 rs2 σ B = .ok none (C.modBank σ.core σ.bank fun t =>
      (t.setP pd (k.holds (l.headD 0) ((t.getX rs2).truncate 8))).moved cs1 (some (cursorStep down 1))) := by
  simp only [bodyCmpb, M.predField_castLE, M.getC, M.mod, bind, EStateM.bind, pure, EStateM.pure, h]
  rfl

end

end Sys2Proof.Machine

/-!
SUPPORT. Loads and stores of the strand's own registers, from and to plain memory and wherever their access succeeds (R87, R184 to R187), and
the faults of the check before them.
-/

namespace Sys2Proof.Machine

/-! ## Bytes and the words they spell -/

theorem toNat_append_byte {w : Nat} (v : BitVec w) (a : Byte) : (v ++ a).toNat = a.toNat + 256 * v.toNat := by
  rw [BitVec.toNat_append, ← Nat.shiftLeft_add_eq_or_of_lt a.isLt, Nat.shiftLeft_eq]
  omega

theorem leNat_one (a : Byte) : leNat [a] = a.toNat := by simp [leNat]
theorem leNat_two (a b : Byte) : leNat [a, b] = (b ++ a).toNat := by simp [leNat, toNat_append_byte]
theorem leNat_four (a b c d : Byte) : leNat [a, b, c, d] = (d ++ c ++ b ++ a).toNat := by simp only [leNat, toNat_append_byte]; omega

/-- Bytes that spell `v` are extended as `v` is (R184). -/
theorem extend_signed {w : Nat} {v : BitVec w} {l : List Byte} (hv : leNat l = v.toNat) (hl : l.length * 8 = w) (hw : w ≤ 32) :
    extend true l = v.signExtend 32 := by
  have hlt := v.isLt
  have hpow : 2 ^ w ≤ 2 ^ 32 := Nat.pow_le_pow_right (by decide) hw
  apply BitVec.eq_of_toNat_eq
  rw [BitVec.toNat_signExtend, BitVec.toNat_setWidth, Nat.mod_eq_of_lt (by omega), BitVec.msb_eq_decide]
  simp only [extend, hv, hl, Bool.true_and, decide_eq_true_eq]
  split
  · rw [BitVec.toNat_ofNat, Nat.mod_eq_of_lt (by omega)]
    omega
  · rw [BitVec.toNat_ofNat, Nat.mod_eq_of_lt (by omega), Nat.add_zero]

theorem extend_unsigned {w : Nat} {v : BitVec w} {l : List Byte} (hv : leNat l = v.toNat) : extend false l = v.zeroExtend 32 := by
  apply BitVec.eq_of_toNat_eq
  simp [extend, hv]

theorem bne_eq_decide (a b : Byte) : (a != b) = decide (a ≠ b) := by
  rw [bne, decide_not]
  rfl
theorem not_ult_eq_decide (a b : Byte) : (!a.ult b) = decide (b.toNat ≤ a.toNat) := by
  rw [BitVec.ult, ← decide_not]
  exact decide_eq_decide.mpr Nat.not_lt

theorem leBytes_one (v : Word) : leBytes 1 v.toNat = [v.extractLsb' 0 8] := by
  simp [leBytes, BitVec.extractLsb']
theorem leBytes_two (v : Word) : leBytes 2 v.toNat = [v.extractLsb' 0 8, v.extractLsb' 8 8] := by
  simp [leBytes, BitVec.extractLsb', Nat.shiftRight_eq_div_pow]
theorem leBytes_four (v : Word) :
    leBytes 4 v.toNat = [v.extractLsb' 0 8, v.extractLsb' 8 8, v.extractLsb' 16 8, v.extractLsb' 24 8] := by
  simp [leBytes, BitVec.extractLsb', Nat.shiftRight_eq_div_pow, Nat.div_div_eq_div_mul]

theorem offGranules_eq (imm : BitVec 11) : offGranules imm = imm.signExtend 64 * 16 := by
  apply BitVec.eq_of_toNat_eq
  simp [offGranules, Nat.shiftLeft_eq]

theorem Cap.cursor_add_zero (c : Cap) : c.cursor + 0 = c.cursor := BitVec.add_zero _

/-! ## An access of the strand is that of its core and bank -/

section
variable {B : Bench} {k : CoreNo} {b : BankNo} {c : Cap} {ea : Dword} (word : Word)

theorem load_strand {n : Nat} {r} (h : M.load (strandOf k b) c ea n B = r) : M.load { core := k, bank := b, word := word } c ea n B = r :=
  (congrFun (load_word (σ := { core := k, bank := b, word := word }) (τ := strandOf k b) rfl rfl c ea n) B).trans h
theorem store_strand {l : List Byte} {r} (h : M.store (strandOf k b) c ea l B = r) :
    M.store { core := k, bank := b, word := word } c ea l B = r :=
  (congrFun (store_word (σ := { core := k, bank := b, word := word }) (τ := strandOf k b) rfl rfl c ea l) B).trans h
theorem loadCap_strand {r} (h : M.loadCap (strandOf k b) c ea B = r) : M.loadCap { core := k, bank := b, word := word } c ea B = r :=
  (congrFun (loadCap_word (σ := { core := k, bank := b, word := word }) (τ := strandOf k b) rfl rfl c ea) B).trans h
theorem storeCap_strand {v : Cap} {r} (h : M.storeCap (strandOf k b) c ea v B = r) :
    M.storeCap { core := k, bank := b, word := word } c ea v B = r :=
  (congrFun (storeCap_word (σ := { core := k, bank := b, word := word }) (τ := strandOf k b) rfl rfl c ea v) B).trans h

end

/-! ## The check (R87) -/

section
variable {c : Cap} {ea : Dword} {n : Nat} {perm : Nat}

theorem Cap.checkAccess_untagged (htag : c.tag = false) : c.checkAccess ea n [perm] 1 .misaligned = .error .capTag := by
  simp [Cap.checkAccess, htag]
theorem Cap.checkAccess_sealed (htag : c.tag = true) (hseal : c.otype ≠ 0) : c.checkAccess ea n [perm] 1 .misaligned = .error .capSeal := by
  simp [Cap.checkAccess, Cap.sealed?_of_ne hseal, htag]
theorem Cap.checkAccess_not_permitted (htag : c.tag = true) (hopen : c.otype = 0) (hperm : c.has perm = false) :
    c.checkAccess ea n [perm] 1 .misaligned = .error .capPerm := by
  simp [Cap.checkAccess, Cap.sealed?_of_eq hopen, Cap.hasAll, htag, hperm]
theorem Cap.checkAccess_outside (htag : c.tag = true) (hopen : c.otype = 0) (hperm : c.has perm = true)
    (hout : ea.toNat < c.base ∨ c.top < ea.toNat + n) : c.checkAccess ea n [perm] 1 .misaligned = .error .capBounds := by
  simp [Cap.checkAccess, Cap.sealed?_of_eq hopen, Cap.hasAll, htag, hperm, Nat.mod_one, hout]

theorem load_fault {σ : Strand} {B : Bench} {e : Cause} (h : c.checkAccess ea n [permLD] 1 .misaligned = .error e) :
    M.load σ c ea n B = .error { cause := e, etval := ea } B := by
  simp only [M.load, bind, EStateM.bind, h, M.ofExcept, M.fault]
theorem store_fault {σ : Strand} {B : Bench} {l : List Byte} {e : Cause} (h : c.checkAccess ea l.length [permST] 1 .misaligned = .error e) :
    M.store σ c ea l B = .error { cause := e, etval := ea } B := by
  simp only [M.store, bind, EStateM.bind, h, M.ofExcept, M.fault]

end

theorem Cap.authorises_of_subset {c : Cap} {ps qs : List Nat} {a n : Nat} (h : c.authorises ps a n) (hs : qs ⊆ ps) : c.authorises qs a n := by
  obtain ⟨htag, hopen, hperms, hin⟩ := h
  exact ⟨htag, hopen, fun p hp => hperms p (hs hp), hin⟩

/-! ## Capability stores to plain memory (R93, R101) -/

theorem storeCap_plain {B : Bench} {σ : Strand} {c v : Cap} {ea : Dword} (h : B.plainMemory σ.core σ.bank ea.toNat 16 .w)
    (hc : c.authorises [permST] ea.toNat 16) (ha : ea.toNat % 16 = 0) (hv : c.storeAllowed v = true) :
    M.storeCap σ c ea v B = .ok () (B.writeGranule (midCore σ.core) (B.origin σ.core σ.bank) ea.toNat v) := by
  have hx (k : Access) := xlate_plain (kind := k) h (by decide) (by decide)
  simp only [M.storeCap, bind, EStateM.bind, Cap.check_of_authorises hc ha hv, M.ofExcept, pure, EStateM.pure, hx, ha, Nat.zero_add,
    Nat.le_refl, if_true]
  rfl

/-- An untagged granule is stored as its bytes. -/
theorem writeGranule_untagged {B : Bench} {σ : Strand} {a : Nat} {v : Cap} (hw : B.mem.wf = true)
    (h : B.plainFor (midCore σ.core) a 16 .w) (hv : v.tag = false) :
    ∃ m, B.mem.storedAt m a (leBytes 16 v.bits.toNat)
      ∧ B.writeGranule (midCore σ.core) (B.origin σ.core σ.bank) a v = B.withMem m := by
  have hl := length_leBytes 16 v.bits.toNat
  obtain ⟨hnormal, hallow, h1, h2, h3, h4, h5⟩ := h a (Nat.le_refl a) (by omega)
  have hpart := writePart_plain (σ := σ) (p := ⟨a, a, 16, true, false⟩) (l := leBytes 16 v.bits.toNat) (word := false)
    hnormal hallow (by omega) h1 h2 h3 h4 h5
  refine ⟨_, Mem.storedAt_write hw a _ (by omega), ?_⟩
  simp only [M.writePart, M.mod, Bool.and_false, Bool.false_and, Bool.false_eq_true, if_false, EStateM.Result.ok.injEq, true_and] at hpart
  simp only [Bench.writeGranule, hv, Bool.not_false, if_true]
  exact hpart

/-! ## The commands -/

section
variable {s : State} {x : Exec} {b : BankNo} {B C : Bench} {word : Word} {cs1 : Reg} {off : Dword} {move : Option Dword}

/-- A load from plain memory. -/
theorem State.load_plain {n : Nat} {signed : Bool} {rd : Reg} (h : (s.bench x.bench).begins x = some (b, B))
    (hc : ((B.bank x.core b).getC cs1).authorises [permLD] (((B.bank x.core b).getC cs1).cursor + off).toNat n)
    (hm : B.plainMemory x.core b (((B.bank x.core b).getC cs1).cursor + off).toNat n .r) (hn : 0 < n) (hn2 : n ≤ 16) :
    s.instr x word (bodyLoad n signed rd cs1 off none)
      = s.writesX x b B rd (extend signed (B.mem.read (((B.bank x.core b).getC cs1).cursor + off).toNat n)) :=
  State.instr_ok h (bodyLoad_ok (Machine.load_plain hm hc hn hn2))

/-- A store to plain memory. -/
theorem State.store_plain {n : Nat} {rs2 : Reg} {l : List Byte} (h : (s.bench x.bench).begins x = some (b, B)) (hw : B.mem.wf = true)
    (hl : leBytes n ((B.bank x.core b).getX rs2).toNat = l)
    (hc : ((B.bank x.core b).getC cs1).authorises [permST] (((B.bank x.core b).getC cs1).cursor + off).toNat l.length)
    (hm : B.plainMemory x.core b (((B.bank x.core b).getC cs1).cursor + off).toNat l.length .w) (hn : 0 < l.length) (hn2 : l.length ≤ 16) :
    ∃ m, B.mem.storedAt m (((B.bank x.core b).getC cs1).cursor + off).toNat l
      ∧ s.instr x word (bodyStore n rs2 cs1 off none) = s.gives x.bench ((B.withMem m).completes x.core b id) := by
  obtain ⟨m, hstored, hok⟩ := Machine.store_plain (σ := { core := x.core, bank := b, word := word }) hw hm hc hn hn2
  exact ⟨m, hstored, State.instr_ok h (bodyStore_ok (hl ▸ hok))⟩

/-- A post-increment load. -/
theorem State.loadPi_ok {n : Nat} {signed : Bool} {rd : Reg} {l : List Byte} (h : (s.bench x.bench).begins x = some (b, B))
    (hl : M.load (strandOf x.core b) ((B.bank x.core b).getC cs1) ((B.bank x.core b).getC cs1).cursor n B = .ok l C) :
    s.instr x word (bodyLoad n signed rd cs1 0 move)
      = s.gives x.bench (C.completes x.core b fun t => (t.setX rd (extend signed l)).moved cs1 move) :=
  State.instr_ok h (bodyLoad_ok (load_strand word (by rw [Cap.cursor_add_zero]; exact hl)))

/-- A byte compare; `v` is what the comparison finds. -/
theorem State.cmpb_ok {k : ByteCmp} {down : Bool} {pd : Fin 8} {rs2 : Reg} {l : List Byte} {v : Bool}
    (h : (s.bench x.bench).begins x = some (b, B))
    (hl : M.load (strandOf x.core b) ((B.bank x.core b).getC cs1) ((B.bank x.core b).getC cs1).cursor 1 B = .ok l C)
    (hv : k.holds (l.headD 0) (((C.bank x.core b).getX rs2).truncate 8) = v) :
    s.instr x word (bodyCmpb k down (pd.castLE (by decide)) cs1 rs2)
      = s.gives x.bench (C.completes x.core b fun t => (t.setP pd v).moved cs1 (some (cursorStep down 1))) :=
  (State.instr_ok h (bodyCmpb_ok (load_strand word hl))).trans
    (congrArg (fun D => s.gives x.bench (D.retire x.core b none)) (Bench.modBank_congr (by simp only [hv])))

/-- A post-increment store. -/
theorem State.storePi_ok {n : Nat} {rs2 : Reg} {l : List Byte} (h : (s.bench x.bench).begins x = some (b, B))
    (hl : leBytes n ((B.bank x.core b).getX rs2).toNat = l)
    (hs : M.store (strandOf x.core b) ((B.bank x.core b).getC cs1) ((B.bank x.core b).getC cs1).cursor l B = .ok () C) :
    s.instr x word (bodyStore n rs2 cs1 0 move) = s.gives x.bench (C.completes x.core b (·.moved cs1 move)) :=
  State.instr_ok h (bodyStore_ok (store_strand word (by rw [hl, Cap.cursor_add_zero]; exact hs)))

/-- A fill. -/
theorem State.fill_ok {k : FillSize} {down : Bool} {rs2 : Reg} {l : List Byte} (h : (s.bench x.bench).begins x = some (b, B))
    (hl : k.bytes ((B.bank x.core b).getX rs2) = l)
    (hs : M.store (strandOf x.core b) ((B.bank x.core b).getC cs1) ((B.bank x.core b).getC cs1).cursor l B = .ok () C) :
    s.instr x word (bodyFill k down cs1 rs2) = s.gives x.bench (C.completes x.core b (·.moved cs1 (some (cursorStep down k.size)))) :=
  State.instr_ok h (bodyFill_ok (store_strand word (by rwa [hl])))

end

/-- Settles O2: each form is its body on the bytes that its access reads. -/
theorem loadResults : Obligations.LoadResults := by
  unfold Obligations.LoadResults
  refine ⟨?plain, ?postIncrement⟩
  case plain =>
    intro s x b B rd cs1 imm h c a g m may
    refine ⟨fun ⟨hc, hm⟩ => ?_, fun ⟨hc, hm⟩ => ?_, fun ⟨hc, hm⟩ => ?_, fun ⟨hc, hm⟩ hg => ?_, fun ⟨hc, hm⟩ dd => ?_⟩
    · refine ⟨(State.load_plain h hc hm (by decide) (by decide)).trans ?_, (State.load_plain h hc hm (by decide) (by decide)).trans ?_⟩
      · exact congrArg _ (extend_signed (leNat_one _) rfl (by decide))
      · exact congrArg _ (extend_unsigned (leNat_one _))
    · refine ⟨(State.load_plain h hc hm (by decide) (by decide)).trans ?_, (State.load_plain h hc hm (by decide) (by decide)).trans ?_⟩
      · exact congrArg _ (extend_signed (leNat_two _ _) rfl (by decide))
      · exact congrArg _ (extend_unsigned (leNat_two _ _))
    · refine (State.load_plain h hc hm (by decide) (by decide)).trans (congrArg _ ?_)
      exact (extend_unsigned (leNat_four _ _ _ _)).trans (BitVec.setWidth_eq _)
    · refine State.instr_ok h (bodyClc_ok ?_)
      rw [offGranules_eq]
      exact loadCap_plain hm hc hg
    · refine State.instr_ok h (bodyDld_ok ?_)
      rw [offGranules_eq]
      exact Machine.load_plain hm hc (by decide) (by decide)
  case postIncrement =>
    intro s x b B B' rd cs1 rs2 down l h k c reads moves up gives
    refine ⟨fun hl => ⟨State.loadPi_ok h hl, State.loadPi_ok h hl, State.instr_ok h (bodyMacb_ok (load_strand _ hl)),
      fun p => State.instr_ok h (bodyCrcbPi_ok (load_strand _ hl)), fun pd => ?_⟩,
      fun hl => ⟨State.loadPi_ok h hl, State.loadPi_ok h hl⟩, fun hl => State.loadPi_ok h hl, fun hl dd => ?_, fun v hv hne => ?_⟩
    · intro byte against pdr
      have against_eq : ((B'.bank x.core b).getX rs2).truncate 8 = against := BitVec.setWidth_eq_extractLsb' (by decide)
      exact ⟨State.cmpb_ok h hl (by rw [against_eq]; rfl), State.cmpb_ok h hl (by rw [against_eq]; exact bne_eq_decide _ _),
        State.cmpb_ok h hl (by rw [against_eq]; rfl), State.cmpb_ok h hl (by rw [against_eq]; exact not_ult_eq_decide _ _)⟩
    · exact State.instr_ok h (bodyDld_ok (load_strand _ (by rw [Cap.cursor_add_zero]; exact hl)))
    · refine State.instr_ok h ?_
      simp only [bodyLoadPi, bodyClcPi, hne, if_false]
      exact bodyClc_ok (loadCap_strand _ (by rw [Cap.cursor_add_zero]; exact hv))

/-- Settles O3: each form is its body on the bytes that it stores; a tagged granule keeps its tag. -/
theorem storeResults : Obligations.StoreResults := by
  unfold Obligations.StoreResults
  refine ⟨?plain, ?tagged, ?postIncrement⟩
  case plain =>
    intro s x b B rs2 cs1 imm h hw c v a g may stores
    refine ⟨fun ⟨hc, hm⟩ => State.store_plain h hw (leBytes_one _) hc hm (by decide : 0 < 1) (by decide : 1 ≤ 16),
      fun ⟨hc, hm⟩ => State.store_plain h hw (leBytes_two _) hc hm (by decide : 0 < 2) (by decide : 2 ≤ 16),
      fun ⟨hc, hm⟩ => State.store_plain h hw (leBytes_four _) hc hm (by decide : 0 < 4) (by decide : 4 ≤ 16),
      fun ⟨hc, hm⟩ ds => ?_, fun ⟨hc, hm⟩ hg hv => ?_⟩
    · have hl := length_leBytes 16 ((B.bank x.core b).getD ds).toNat
      obtain ⟨m, hstored, hok⟩ := Machine.store_plain (σ := strandOf x.core b) (l := leBytes 16 ((B.bank x.core b).getD ds).toNat) hw
        (hl ▸ hm) (hl ▸ hc) (by omega) (by omega)
      refine ⟨m, hstored, State.instr_ok h (bodyDst_ok (store_strand _ ?_))⟩
      rw [offGranules_eq]
      exact hok
    · obtain ⟨m, hstored, hok⟩ := writeGranule_untagged (σ := strandOf x.core b) hw hm.2 hv
      refine ⟨m, hstored, State.instr_ok h (bodyCsc_ok (storeCap_strand _ ?_))⟩
      rw [offGranules_eq, ← hok]
      exact storeCap_plain hm hc hg (by simp [Cap.storeAllowed, hv])
  case tagged =>
    intro s x b B cs2 cs1 imm h hw c v g hc hg hlocal htag hm htagw
    have hst : c.authorises [permST] g 16 := Cap.authorises_of_subset hc (by simp)
    have hstc : c.has permSTC = true := hc.2.2.1 permSTC (by simp)
    have hallowed : c.storeAllowed v = true := by
      obtain hgl | hgl := hlocal <;> simp [Cap.storeAllowed, hstc, hgl]
    obtain ⟨m, ⟨hbyte, htags, -, -⟩, hok, -⟩ := writeGranule_plain (org := B.origin x.core b) (c := v) hw hg hm.2 htagw
    refine ⟨m, State.instr_ok h (bodyCsc_ok (storeCap_strand _ ?_)), fun i => ?_, fun n => ?_⟩
    · rw [offGranules_eq, ← hok]
      exact storeCap_plain hm hst hg hallowed
    · simpa using hbyte i
    · rw [htags n]
      by_cases hn : n = g / 16
      · simp [hn, htag]
      · rw [if_neg (by simp; omega)]
        simp [hn]
  case postIncrement =>
    intro s x b B B' rs2 cs1 down h k c v byte word stores moves
    refine ⟨fun hs => ⟨State.storePi_ok h (leBytes_one _) hs, State.fill_ok h (leBytes_one _) hs⟩,
      fun hs => ⟨State.storePi_ok h (leBytes_two _) hs, State.fill_ok h (leBytes_two _) hs⟩,
      fun hs => ⟨State.storePi_ok h (leBytes_four _) hs, State.fill_ok h (leBytes_four _) hs⟩,
      fun hs => State.fill_ok h (by rw [FillSize.bytes, leBytes_four]) hs, fun ds hs => ?_, fun hs => ?_⟩
    · exact State.instr_ok h (bodyDst_ok (store_strand _ (by rw [Cap.cursor_add_zero]; exact hs)))
    · exact State.instr_ok h (bodyCsc_ok (storeCap_strand _ (by rw [Cap.cursor_add_zero]; exact hs)))

/-- Settles O5: the first check that fails is the access's fault. -/
theorem accessCheckFaults : Obligations.AccessCheckFaults := by
  unfold Obligations.AccessCheckFaults
  intro s x b B r cs1 imm h c ea faults loads stores
  have hload {e : Cause} (he : c.checkAccess ea 4 [permLD] 1 .misaligned = .error e) : faults (.lw x r cs1 imm) e :=
    State.instr_fault h (bodyLoad_fault (load_fault he))
  have hstore {e : Cause} (he : c.checkAccess ea 4 [permST] 1 .misaligned = .error e) : faults (.sw x r cs1 imm) e :=
    State.instr_fault h (bodyStore_fault (store_fault (by rw [length_leBytes]; exact he)))
  refine ⟨?_, ?_, ?_, ?_⟩
  · rintro i (rfl | rfl) htag
    · exact hload (Cap.checkAccess_untagged htag)
    · exact hstore (Cap.checkAccess_untagged htag)
  · rintro i (rfl | rfl) htag hseal
    · exact hload (Cap.checkAccess_sealed htag hseal)
    · exact hstore (Cap.checkAccess_sealed htag hseal)
  · rintro i (⟨rfl, hperm⟩ | ⟨rfl, hperm⟩) htag hopen
    · exact hload (Cap.checkAccess_not_permitted htag hopen hperm)
    · exact hstore (Cap.checkAccess_not_permitted htag hopen hperm)
  · rintro i (⟨rfl, hperm⟩ | ⟨rfl, hperm⟩) htag hopen hout
    · exact hload (Cap.checkAccess_outside htag hopen hperm hout)
    · exact hstore (Cap.checkAccess_outside htag hopen hperm hout)

end Sys2Proof.Machine

/-!
SUPPORT. The operations on capabilities: the cursor operations, the field reads and the operations that narrow, seal, gate and unseal, each by
the case of its source that decides it (R70, R71, R73, R79 to R81, R84, R190 to R192).
-/

namespace Sys2Proof.Machine

section
variable {c ct : Cap}

/-! ## Cursors (R70, R71, R84) -/

theorem Cap.moveCursor_eq (c : Cap) (a : Dword) :
    c.moveCursor a = { tag := c.tag && c.inWindow a, bits := c.bits.extractLsb' 64 64 ++ a } := by
  unfold Cap.moveCursor
  cases htag : c.tag <;> cases hin : c.inWindow a <;> simp [Cap.withCursor, Cap.clearTag, htag]

theorem Cap.setCursor_ok (a : Dword) (h : c.tag = false ∨ c.otype = 0) : c.setCursor a = .ok (c.moveCursor a) := by
  obtain h | h := h <;> simp [Cap.setCursor, Cap.sealed?, h]
theorem Cap.setCursor_sealed (a : Dword) (htag : c.tag = true) (hseal : c.otype ≠ 0) : c.setCursor a = .error .capSeal := by
  simp [Cap.setCursor, Cap.sealed?_of_ne hseal, htag]

/-! ## Sources that must be tagged and unsealed (R84, R85) -/

theorem Cap.requireOpen_untagged (htag : c.tag = false) : c.requireOpen = .error .capTag := by simp [Cap.requireOpen, htag]
theorem Cap.requireOpen_sealed (htag : c.tag = true) (hseal : c.otype ≠ 0) : c.requireOpen = .error .capSeal := by
  simp [Cap.requireOpen, Cap.sealed?_of_ne hseal, htag]
theorem Cap.requireOpen_open (htag : c.tag = true) (hopen : c.otype = 0) : c.requireOpen = .ok () := by
  simp [Cap.requireOpen, Cap.sealed?_of_eq hopen, htag]

theorem Cap.setBoundsOp_closed {e : Cause} (len : Nat) (exact : Bool) (h : c.requireOpen = .error e) :
    c.setBoundsOp len exact = .error e := by simp only [Cap.setBoundsOp, h]
theorem Cap.setBoundsOp_none {len : Nat} {exact : Bool} (h : c.requireOpen = .ok ()) (hb : c.setBounds len exact = none) :
    c.setBoundsOp len exact = .error .capBounds := by simp only [Cap.setBoundsOp, h, hb]
theorem Cap.setBoundsOp_some {r : Cap} {len : Nat} {exact : Bool} (h : c.requireOpen = .ok ()) (hb : c.setBounds len exact = some r) :
    c.setBoundsOp len exact = .ok r := by simp only [Cap.setBoundsOp, h, hb]
theorem Cap.andPerm_closed {e : Cause} (mask : Half) (h : c.requireOpen = .error e) : c.andPerm mask = .error e := by
  simp only [Cap.andPerm, h]
theorem Cap.andPerm_open (mask : Half) (h : c.requireOpen = .ok ()) : c.andPerm mask = .ok (c.withPerm (c.perm &&& mask)) := by
  simp only [Cap.andPerm, h]

/-! ## Entry gates (R81) -/

theorem Cap.gate_closed {e : Cause} (h : c.requireOpen = .error e) : c.gate = .error e := by
  unfold Cap.requireOpen at h
  unfold Cap.gate
  split at h
  case isTrue htag => simp_all
  case isFalse htag =>
    split at h
    · simp_all
    · cases h

section
variable (htag : c.tag = true) (hopen : c.otype = 0)
include htag hopen

theorem Cap.gate_not_executable (hex : c.has permEX = false) : c.gate = .error .capPerm := by
  simp [Cap.gate, Cap.sealed?_of_eq hopen, htag, hex]
theorem Cap.gate_misaligned (hex : c.has permEX = true) (hal : c.cursor.toNat % 4 ≠ 0) : c.gate = .error .misaligned := by
  simp [Cap.gate, Cap.sealed?_of_eq hopen, htag, hex, hal]
theorem Cap.gate_outside (hex : c.has permEX = true) (hal : c.cursor.toNat % 4 = 0)
    (hout : c.cursor.toNat < c.base ∨ c.top < c.cursor.toNat + 4) : c.gate = .error .capBounds := by
  simp [Cap.gate, Cap.sealed?_of_eq hopen, htag, hex, hal, hout]
theorem Cap.gate_ok (hex : c.has permEX = true) (hal : c.cursor.toNat % 4 = 0) (hbase : c.base ≤ c.cursor.toNat)
    (htop : c.cursor.toNat + 4 ≤ c.top) : c.gate = .ok (c.withOtype 0x0001) := by
  simp [Cap.gate, Cap.sealed?_of_eq hopen, htag, hex, hal, Nat.not_lt.mpr hbase, Nat.not_lt.mpr htop, otGate]

end

/-! ## Sealing and unsealing (R79, R80) -/

theorem otypeSealable_iff (o : Nat) : otypeSealable o = true ↔ o = 0x10 ∨ o = 0x20 ∨ o = 0x21 ∨ (0x100 ≤ o ∧ o ≤ 0xEFFF) := by
  simp [otypeSealable, or_assoc]

theorem Cap.cursorInBounds_iff (ct : Cap) : ct.cursorInBounds = true ↔ ct.base ≤ ct.cursor.toNat ∧ ct.cursor.toNat < ct.top := by
  simp [Cap.cursorInBounds]

theorem Cap.sealWith_untagged (h : c.tag = false ∨ ct.tag = false) : c.sealWith ct = .error .capTag := by
  obtain h | h := h <;> simp [Cap.sealWith, h]
theorem Cap.unsealWith_untagged (h : c.tag = false) : c.unsealWith ct = .error .capTag := by simp [Cap.unsealWith, h]

section
variable (htag : c.tag = true) (hcttag : ct.tag = true)
include htag hcttag

theorem Cap.sealWith_sealed (h : c.otype ≠ 0 ∨ ct.otype ≠ 0) : c.sealWith ct = .error .capSeal := by
  obtain h | h := h <;> simp [Cap.sealWith, Cap.sealed?_of_ne h, htag, hcttag]

variable (hctopen : ct.otype = 0)
include hctopen

theorem Cap.sealWith_not_permitted (hopen : c.otype = 0) (hperm : ct.has permSEAL = false) : c.sealWith ct = .error .capPerm := by
  simp [Cap.sealWith, Cap.sealed?_of_eq hopen, Cap.sealed?_of_eq hctopen, htag, hcttag, hperm]
theorem Cap.sealWith_outside (hopen : c.otype = 0) (hperm : ct.has permSEAL = true)
    (hout : ¬(ct.base ≤ ct.cursor.toNat ∧ ct.cursor.toNat < ct.top)) : c.sealWith ct = .error .capBounds := by
  rw [← Cap.cursorInBounds_iff] at hout
  simp [Cap.sealWith, Cap.sealed?_of_eq hopen, Cap.sealed?_of_eq hctopen, htag, hcttag, hperm, hout]

theorem Cap.sealWith_otype (hopen : c.otype = 0) (hperm : ct.has permSEAL = true)
    (hin : ct.base ≤ ct.cursor.toNat ∧ ct.cursor.toNat < ct.top) :
    c.sealWith ct = if otypeSealable ct.cursor.toNat then .ok (c.withOtype (ct.cursor.extractLsb' 0 16)) else .error .capSeal := by
  rw [← Cap.cursorInBounds_iff] at hin
  cases h : otypeSealable ct.cursor.toNat <;>
    simp [Cap.sealWith, Cap.sealed?_of_eq hopen, Cap.sealed?_of_eq hctopen, htag, hcttag, hperm, hin, h, BitVec.setWidth_eq_extractLsb' (show 16 ≤ 64 by decide)]

/-- An authority over the object type unseals; GL stays only where both have it. -/
theorem Cap.unsealWith_ok (hseal : c.otype ≠ 0) (hperm : ct.has permUNSEAL = true)
    (hin : ct.base ≤ ct.cursor.toNat ∧ ct.cursor.toNat < ct.top) (hot : ct.cursor.toNat = c.otype.toNat)
    (hok : otypeSealable c.otype.toNat = true) :
    c.unsealWith ct = .ok ((c.withOtype 0).withPerm (if c.has permGL = true ∧ ct.has permGL = true then c.perm else c.perm &&& 0xFFDF)) := by
  have hot : ct.cursor = c.otype.zeroExtend 64 := by
    apply BitVec.eq_of_toNat_eq
    rw [hot, BitVec.toNat_setWidth, Nat.mod_eq_of_lt (by have := c.otype.isLt; omega)]
  rw [← Cap.cursorInBounds_iff] at hin
  simp [Cap.unsealWith, Cap.sealed?_of_ne hseal, Cap.sealed?_of_eq hctopen, Cap.unsealed, htag, hcttag, hperm, hin, hok, ← hot]

end

end

/-! ## Field reads (R191) -/

section
variable (c : Cap)

theorem highWord_eq (n : Nat) : highWord n = BitVec.ofNat 32 (n >>> 32) := by rw [highWord, Nat.shiftRight_eq_div_pow]
theorem Cap.cursor_low : lowWord c.cursor.toNat = c.bits.extractLsb' 0 32 := by
  apply BitVec.eq_of_toNat_eq
  simp [lowWord, Cap.cursor]
theorem Cap.cursor_high : highWord c.cursor.toNat = c.bits.extractLsb' 32 32 := by
  apply BitVec.eq_of_toNat_eq
  simp [highWord, Cap.cursor, Nat.shiftRight_eq_div_pow]
  omega
theorem Cap.top_bit64 : BitVec.ofNat 32 (c.top / 2 ^ 64 % 2) = if c.top.testBit 64 then (1 : Word) else 0 := by
  rw [Nat.testBit_eq_decide_div_mod_eq]
  obtain h | h := Nat.mod_two_eq_zero_or_one (c.top / 2 ^ 64) <;> rw [h] <;> rfl
theorem zeroExtend_half (v : Half) : v.zeroExtend 32 = 0#16 ++ v := BitVec.setWidth_eq_append (by decide)
theorem Cap.exp_word : BitVec.ofNat 32 c.exp = 0#27 ++ c.bits.extractLsb' 91 5 :=
  (BitVec.ofNat_toNat 32 (c.bits.extractLsb' 91 5)).trans (BitVec.setWidth_eq_append (by decide))

/-- The alignment mask of an exponent (R190). -/
theorem alignMask_eq (e : Nat) : ~~~(BitVec.ofNat 32 (2 ^ e - 1)) = (0xFFFFFFFF : Word) <<< e := by
  apply BitVec.eq_of_getLsbD_eq
  intro i hi
  rw [show (0xFFFFFFFF : Word) = BitVec.allOnes 32 from rfl, BitVec.getLsbD_not, BitVec.getLsbD_ofNat, Nat.testBit_two_pow_sub_one,
    BitVec.getLsbD_shiftLeft, BitVec.getLsbD_allOnes]
  simp [hi]
  omega

end

theorem append_zero_eq_shift (v : Word) : v ++ 0#32 = (v.zeroExtend 64 <<< 32 : Dword) := by
  apply BitVec.eq_of_getLsbD_eq
  intro i hi
  simp only [BitVec.getLsbD_append, BitVec.getLsbD_shiftLeft, BitVec.getLsbD_setWidth, BitVec.getLsbD_zero]
  by_cases hlow : i < 32
  · simp [hlow]
  · simp only [hlow, if_false, decide_false, Bool.not_false, Bool.and_true, decide_eq_true hi, Bool.true_and]
    simp [show i - 32 < 64 by omega]

/-! ## The commands -/

/-- Settles O6: the cursor operations by whether the source is sealed, the field reads by their field. -/
theorem cursorAndFieldOperations : Obligations.CursorAndFieldOperations := by
  unfold Obligations.CursorAndFieldOperations
  refine ⟨?cursor, ?fields⟩
  case cursor =>
    intro s x b B cd cs1 rs2 imm h c v moved moves refused
    have hmoves {i : Instr} {word : Word} {f : Bank → Except Cause Cap} {a : Dword} (hopen : c.tag = false ∨ c.otype = 0)
        (hi : exec i s = s.instr x word (bodyCap cd f)) (hf : f (B.bank x.core b) = c.setCursor a) : moves i a :=
      hi.trans (State.bodyCap_ok h (hf.trans ((Cap.setCursor_ok a hopen).trans (congrArg _ (Cap.moveCursor_eq c a)))))
    have hrefused {i : Instr} {word : Word} {f : Bank → Except Cause Cap} {a : Dword} (hseal : c.tag = true ∧ c.otype ≠ 0)
        (hi : exec i s = s.instr x word (bodyCap cd f)) (hf : f (B.bank x.core b) = c.setCursor a) : refused i :=
      ⟨_, hi.trans (State.bodyCap_fault h (hf.trans (Cap.setCursor_sealed a hseal.1 hseal.2)))⟩
    refine ⟨State.bodyCap_ok h rfl, State.bodyCap_ok h rfl, State.bodyCap_ok h rfl, fun hopen => ?_, fun hseal => ?_⟩
    · refine ⟨hmoves hopen rfl rfl, hmoves hopen rfl rfl, ?_, hmoves hopen rfl rfl⟩
      rw [append_zero_eq_shift]
      exact hmoves hopen rfl rfl
    · exact ⟨hrefused hseal rfl rfl, hrefused hseal rfl rfl, hrefused hseal rfl rfl, hrefused hseal rfl rfl⟩
  case fields =>
    intro s x b B rd cs1 rs1 h c v low reads
    have hreads {i : Instr} {word r : Word} {f : Bank → Word} (hi : exec i s = s.instr x word (plain fun t => t.setX rd (f t)))
        (hr : f (B.bank x.core b) = r) : reads i r :=
      hi.trans ((State.instr_writesX h).trans (congrArg _ hr))
    refine ⟨hreads rfl rfl, hreads rfl (highWord_eq _), hreads rfl rfl, hreads rfl (highWord_eq _), hreads rfl (Cap.top_bit64 _),
      hreads rfl rfl, hreads rfl (highWord_eq _), hreads rfl (Cap.cursor_low _), hreads rfl (Cap.cursor_high _), hreads rfl (zeroExtend_half _),
      hreads rfl (zeroExtend_half _),
      hreads rfl rfl, hreads rfl (Cap.exp_word _), _, _, _, rfl, hreads rfl rfl, hreads rfl (alignMask_eq _)⟩

/-- Settles O7: each operation by the first of its requirements that fails, or by its result. -/
theorem capabilityDerivation : Obligations.CapabilityDerivation := by
  unfold Obligations.CapabilityDerivation
  refine ⟨?results, ?faults⟩
  case results =>
    intro s x b B cd cs1 r2 imm h c v ct makes permitted htag
    have hmakes {i : Instr} {word : Word} {f : Bank → Except Cause Cap} {r : Cap} (hi : exec i s = s.instr x word (bodyCap cd f))
        (hf : f (B.bank x.core b) = .ok r) : makes i r := hi.trans (State.bodyCap_ok h hf)
    refine ⟨fun hopen => ?_, fun hseal hcttag hctopen hperm hbase htop hot hok => ?_⟩
    · have hreq := Cap.requireOpen_open htag hopen
      refine ⟨fun r hr => hmakes rfl (Cap.setBoundsOp_some hreq hr), fun r hr => hmakes rfl (Cap.setBoundsOp_some hreq hr),
        fun r hr => hmakes rfl (Cap.setBoundsOp_some hreq hr), fun r hr => hmakes rfl (Cap.setBoundsOp_some hreq hr), ?_,
        fun hcttag hctopen hperm hbase htop hok => ?_, fun hex hal hbase htop => hmakes rfl (Cap.gate_ok htag hopen hex hal hbase htop)⟩
      · refine (hmakes rfl (Cap.andPerm_open _ hreq)).trans (congrArg _ ?_)
        have hlow : BitVec.truncate 16 v = v.extractLsb' 0 16 := BitVec.setWidth_eq_extractLsb' (by decide)
        rw [Cap.withPerm, htag, ← hlow]
      · refine hmakes rfl ((Cap.sealWith_otype htag hcttag hctopen hopen hperm ⟨hbase, htop⟩).trans ?_)
        rw [if_pos ((otypeSealable_iff _).mpr hok)]
    · exact hmakes rfl (Cap.unsealWith_ok htag hcttag hctopen hseal hperm ⟨hbase, htop⟩ hot ((otypeSealable_iff _).mpr hok))
  case faults =>
    intro s x b B cd cs1 r2 imm h c v faults setB open'
    have hfaults {i : Instr} {word : Word} {f : Bank → Except Cause Cap} {e : Cause} (hi : exec i s = s.instr x word (bodyCap cd f))
        (hf : f (B.bank x.core b) = .error e) : faults e i := ⟨_, hi.trans (State.bodyCap_fault h hf)⟩
    /- The four set-bounds forms, and-permissions and the gate ask first for a tagged, unsealed source. -/
    have hclosed {e : Cause} (hreq : c.requireOpen = .error e) : (∀ i ∈ setB, faults e i) ∧ faults e (.candp x cd cs1 r2) ∧ faults e (.cgate x cd cs1) := by
      refine ⟨?_, hfaults rfl (Cap.andPerm_closed _ hreq), hfaults rfl (Cap.gate_closed hreq)⟩
      simp only [setB, List.forall_mem_cons, List.not_mem_nil, false_imp_iff, implies_true, and_true]
      exact ⟨hfaults rfl (Cap.setBoundsOp_closed _ _ hreq), hfaults rfl (Cap.setBoundsOp_closed _ _ hreq),
        hfaults rfl (Cap.setBoundsOp_closed _ _ hreq), hfaults rfl (Cap.setBoundsOp_closed _ _ hreq)⟩
    refine ⟨fun htag => ?_, fun htag hseal hcttag => ?_, fun htag hopen => ?_, fun htag hopen => ?_, ?_⟩
    · obtain ⟨hset, handp, hgate⟩ := hclosed (Cap.requireOpen_untagged htag)
      simp only [open', List.forall_mem_append, List.forall_mem_singleton, List.forall_mem_cons]
      exact ⟨⟨hset, handp, hfaults rfl (Cap.sealWith_untagged (.inl htag)), hgate⟩, hfaults rfl (Cap.unsealWith_untagged htag)⟩
    · obtain ⟨hset, handp, hgate⟩ := hclosed (Cap.requireOpen_sealed htag hseal)
      simp only [open', List.forall_mem_append, List.forall_mem_cons, List.not_mem_nil, false_imp_iff, implies_true, and_true]
      exact ⟨hset, handp, hfaults rfl (Cap.sealWith_sealed htag hcttag (.inl hseal)), hgate⟩
    · have hreq := Cap.requireOpen_open htag hopen
      exact ⟨fun hb => hfaults rfl (Cap.setBoundsOp_none hreq hb), fun hb => hfaults rfl (Cap.setBoundsOp_none hreq hb),
        fun hb => hfaults rfl (Cap.setBoundsOp_none hreq hb), fun hb => hfaults rfl (Cap.setBoundsOp_none hreq hb)⟩
    · exact ⟨fun hex => hfaults rfl (Cap.gate_not_executable htag hopen hex), fun hex hal => hfaults rfl (Cap.gate_misaligned htag hopen hex hal),
        fun hex hal hout => hfaults rfl (Cap.gate_outside htag hopen hex hal hout)⟩
    · intro ct a sealing
      refine ⟨fun hcttag => hfaults rfl (Cap.sealWith_untagged (.inr hcttag)),
        fun htag hcttag hctseal => hfaults rfl (Cap.sealWith_sealed htag hcttag (.inr hctseal)), fun htag hcttag hopen hctopen =>
        ⟨fun hperm => hfaults rfl (Cap.sealWith_not_permitted htag hcttag hctopen hopen hperm), fun hperm hout => ?_, fun hperm hbase htop hno => ?_⟩⟩
      · exact hfaults rfl (Cap.sealWith_outside htag hcttag hctopen hopen hperm fun hin => hout.elim (Nat.not_lt.mpr hin.1) (Nat.not_le.mpr hin.2))
      · refine hfaults rfl ((Cap.sealWith_otype htag hcttag hctopen hopen hperm ⟨hbase, htop⟩).trans ?_)
        rw [if_neg (mt (otypeSealable_iff _).mp hno)]

end Sys2Proof.Machine

/-!
SUPPORT. The jumps, ENTER, RETE and ERET where their checks pass and the Last is not enforced, and the jumps whose target lies outside PCC
(R82, R96, R193 to R196, R232, R235, R236).
-/

namespace Sys2Proof.Machine

/-! ## Targets -/

theorem offJump_eq (off : BitVec 21) : offJump off = off.signExtend 64 * 4 := BitVec.shiftLeft_eq_mul_twoPow _ _

section
variable {c : Cap} {ok : Half → Bool}

/-- A target that passes the checks of R96 is entered unsealed. -/
theorem Cap.jumpTarget_ok (htag : c.tag = true) (hok : ok c.otype = true) (halign : c.cursor.toNat % 4 = 0) :
    c.jumpTarget ok = .ok (c.withOtype 0) := by
  simp [Cap.jumpTarget, Cap.unsealed, htag, hok, halign]

theorem jumpOtypes_of {o : Half} (h : o = 0 ∨ o = 1) : jumpOtypes o = true := by
  obtain rfl | rfl := h <;> rfl

theorem enterChecks_ok {csp : Cap} (htag : c.tag = true) (hot : c.otype = 1) (halign : c.cursor.toNat % 4 = 0) (hcsp : csp.tag = true)
    (hopen : csp.otype = 0) (hcspAlign : csp.cursor.toNat % 16 = 0) : enterChecks c csp = .ok () := by
  simp [enterChecks, htag, hot, halign, hcsp, Cap.sealed?_of_eq hopen, hcspAlign, otGate]

theorem reteChecks_ok {c30 : Cap} (htag : c.tag = true) (hot : c.otype = 2) (halign : c.cursor.toNat % 4 = 0)
    (h30 : c30.tag = false ∨ c30.otype = 2) : reteChecks c c30 = .ok () := by
  obtain h30 | h30 := h30 <;> simp [reteChecks, htag, hot, halign, h30, otReturn]

end

/-! ## The bodies -/

section
variable {B : Bench} {σ : Strand} {off : BitVec 21} {cs1 : Reg}

theorem jumpTarget_inside {a : Dword} (ha : (B.bank σ.core σ.bank).pcc.cursor + off.signExtend 64 * 4 = a)
    (h : (B.bank σ.core σ.bank).pcc.base ≤ a.toNat ∧ a.toNat + 4 ≤ (B.bank σ.core σ.bank).pcc.top) :
    jumpTarget σ off B = .ok ((B.bank σ.core σ.bank).pcc.withCursor a) B := by
  have hin : (decide (a.toNat < (B.bank σ.core σ.bank).pcc.base) || decide (a.toNat + 4 > (B.bank σ.core σ.bank).pcc.top)) = false := by
    simp only [Bool.or_eq_false_iff, decide_eq_false_iff_not]
    omega
  simp only [jumpTarget, M.bank, bind, EStateM.bind, offJump_eq, ha, hin, Bool.false_eq_true, if_false]
  rfl

theorem jumpTarget_outside {a : Dword} (ha : (B.bank σ.core σ.bank).pcc.cursor + off.signExtend 64 * 4 = a)
    (h : a.toNat < (B.bank σ.core σ.bank).pcc.base ∨ (B.bank σ.core σ.bank).pcc.top < a.toNat + 4) :
    jumpTarget σ off B = .error { cause := .capBounds, etval := a } B := by
  have hout : (decide (a.toNat < (B.bank σ.core σ.bank).pcc.base) || decide (a.toNat + 4 > (B.bank σ.core σ.bank).pcc.top)) = true := by
    simpa only [Bool.or_eq_true, decide_eq_true_eq] using h
  simp only [jumpTarget, M.bank, bind, EStateM.bind, offJump_eq, ha, hout, if_true]
  rfl

theorem lastEnforced_off (h : B.ctl.lastEnforce = false) : lastEnforced B = .ok false B := congrArg (EStateM.Result.ok · B) h

/-- The bank whose c1 is the return gate to the instruction after PCC's (R82). -/
def Bank.linked (t : Bank) : Bank := t.setC 1 (t.pcc.returnGate (t.pcc.cursor + 4))

theorem link_off (h : B.ctl.lastEnforce = false) : link σ B = .ok () (B.modBank σ.core σ.bank Bank.linked) := by
  simp only [link, M.bank, M.setC, M.mod, bind, EStateM.bind, lastEnforced_off h, Bool.false_eq_true, if_false]
  rfl

theorem bodyJ_ok {t : Cap} (h : jumpTarget σ off B = .ok t B) : bodyJ off σ B = .ok (some t) B := by
  simp only [bodyJ, bind, EStateM.bind, h]
  rfl
theorem bodyJ_fault {t : Trap} (h : jumpTarget σ off B = .error t B) : bodyJ off σ B = .error t B := by
  simp only [bodyJ, bind, EStateM.bind, h]
theorem bodyJal_ok {t : Cap} (h : jumpTarget σ off B = .ok t B) (hlast : B.ctl.lastEnforce = false) :
    bodyJal off σ B = .ok (some t) (B.modBank σ.core σ.bank Bank.linked) := by
  simp only [bodyJal, bind, EStateM.bind, h, link_off hlast]
  rfl
theorem bodyJal_fault {t : Trap} (h : jumpTarget σ off B = .error t B) : bodyJal off σ B = .error t B := by
  simp only [bodyJal, bind, EStateM.bind, h]

theorem bodyJr_ok {t : Cap} (h : ((B.bank σ.core σ.bank).getC cs1).jumpTarget jumpOtypes = .ok t) : bodyJr cs1 σ B = .ok (some t) B := by
  simp only [bodyJr, M.getC, M.ofExceptWord, bind, EStateM.bind, h]
  rfl
theorem bodyJalr_ok {t : Cap} (h : ((B.bank σ.core σ.bank).getC cs1).jumpTarget jumpOtypes = .ok t) (hlast : B.ctl.lastEnforce = false) :
    bodyJalr cs1 σ B = .ok (some t) (B.modBank σ.core σ.bank Bank.linked) := by
  simp only [bodyJalr, M.getC, M.ofExceptWord, bind, EStateM.bind, h]
  simp only [M.ofExcept, pure, EStateM.pure, link_off hlast]
theorem bodyRet_ok {t : Cap} (h : ((B.bank σ.core σ.bank).getC cs1).jumpTarget returnOtypes = .ok t) (hlast : B.ctl.lastEnforce = false) :
    bodyRet cs1 σ B = .ok (some t) B := by
  simp only [bodyRet, M.getC, M.ofExceptWord, bind, EStateM.bind, h]
  simp only [M.ofExcept, pure, EStateM.pure, lastEnforced_off hlast, Bool.false_eq_true, if_false]

/-- The bank as ENTER leaves it: the return gate in c1, the caller's c2 sealed in c30, the entry's stack in c2 (R235). -/
def Bank.entered (t : Bank) (csp : Cap) : Bank :=
  (t.linked.setC 30 (if (t.getC 2).tag then (t.getC 2).withOtype otReturn else t.getC 2)).setC 2 csp

/-- The bank as RETE leaves it: c2 from c30, and c1 and c30 null (R236). -/
def Bank.returned (t : Bank) : Bank :=
  ((t.setC 2 (if (t.getC 30).tag then (t.getC 30).unsealed else t.getC 30)).setC 1 Cap.null).setC 30 Cap.null

/-- The bank as ERET leaves it: RCV from ESTAT, whose two low bits clear (R232). -/
def Bank.trapReturned (t : Bank) : Bank := { t with rcv := t.estat.getLsbD 1, estat := t.estat &&& 0xFFFFFFFC }

theorem bodyEnter_ok {n : Fin 8} (h : enterChecks (B.bank σ.core σ.bank).entry[n] (B.bank σ.core σ.bank).entryCsp[n] = .ok ())
    (hlast : B.ctl.lastEnforce = false) :
    bodyEnter n σ B = .ok (some ((B.bank σ.core σ.bank).entry[n].withOtype 0))
      (B.modBank σ.core σ.bank (·.entered (B.bank σ.core σ.bank).entryCsp[n])) := by
  simp only [bodyEnter, M.bank, M.ofExceptWord, bind, EStateM.bind, h]
  simp only [M.ofExcept, pure, EStateM.pure, lastEnforced_off hlast, Bool.false_eq_true, if_false]
  exact congrArg (EStateM.Result.ok _) (Bench.modBank_congr rfl)

theorem bodyRete_ok (h : reteChecks ((B.bank σ.core σ.bank).getC 1) ((B.bank σ.core σ.bank).getC 30) = .ok ())
    (hlast : B.ctl.lastEnforce = false) :
    bodyRete σ B = .ok (some (((B.bank σ.core σ.bank).getC 1).withOtype 0)) (B.modBank σ.core σ.bank Bank.returned) := by
  simp only [bodyRete, M.bank, M.ofExceptWord, bind, EStateM.bind, h]
  simp only [M.ofExcept, pure, EStateM.pure, lastEnforced_off hlast, Bool.false_eq_true, if_false]
  rfl

theorem bodyEret_ok {t : Cap} (hsys : (B.bank σ.core σ.bank).pcc.has permSYS = true) (hesc : (B.core σ.core).escActive = false)
    (h : (B.bank σ.core σ.bank).epcc.jumpTarget jumpOtypes = .ok t) :
    bodyEret σ B = .ok (some t) (B.modBank σ.core σ.bank Bank.trapReturned) := by
  have hneed : M.needSys σ B = .ok () B := by
    simp only [M.needSys, M.bank, Bank.pccHas, bind, EStateM.bind, hsys, if_true]
    rfl
  simp only [bodyEret, M.bank, M.core, M.ofExceptWord, bind, EStateM.bind, hneed, hesc, h, Bool.false_eq_true, if_false]
  rfl

end

/-! ## The command -/

/-- Settles O9: each jump by its checks, which pass, or by the target outside PCC. -/
theorem jumpsEntriesAndReturns : Obligations.JumpsEntriesAndReturns := by
  unfold Obligations.JumpsEntriesAndReturns
  refine ⟨?jumps, ?entries⟩
  case jumps =>
    intro s x b B off cs1 h k c target gate goes linked
    have hstays {i : Instr} {word : Word} {body : Strand → M (Option Cap)} {t : Cap} (hi : exec i s = s.instr x word body)
        (hbody : body { core := x.core, bank := b, word := word } B = .ok (some t) B) : goes i id t := by
      refine hi.trans ((State.instr_ok h hbody).trans ?_)
      rw [show B.modBank x.core b id = B from B.modBank_id x.core b]
    have hlinks {i : Instr} {word : Word} {body : Strand → M (Option Cap)} {t : Cap} (hi : exec i s = s.instr x word body)
        (hbody : body { core := x.core, bank := b, word := word } B = .ok (some t) (B.modBank x.core b Bank.linked)) : goes i linked t :=
      hi.trans ((State.instr_ok h hbody).trans rfl)
    refine ⟨fun hin => ?_, fun hout => ?_, fun htag hot halign => ?_, fun htag hot halign hlast => ?_⟩
    · exact ⟨hstays rfl (bodyJ_ok (jumpTarget_inside rfl hin)), fun hlast => hlinks rfl (bodyJal_ok (jumpTarget_inside rfl hin) hlast)⟩
    · rintro i (rfl | rfl)
      · exact State.instr_fault h (bodyJ_fault (jumpTarget_outside rfl hout))
      · exact State.instr_fault h (bodyJal_fault (jumpTarget_outside rfl hout))
    · have ht := Cap.jumpTarget_ok htag (jumpOtypes_of hot) halign
      exact ⟨hstays rfl (bodyJr_ok ht), fun hlast => hlinks rfl (bodyJalr_ok ht hlast)⟩
    · have ht := Cap.jumpTarget_ok (ok := returnOtypes) htag (by rw [hot]; rfl) halign
      exact hstays rfl (bodyRet_ok ht hlast)
  case entries =>
    intro s x b B n h k e csp c1 c2 c30 gate goes
    refine ⟨fun hlast htag hot halign hcsp hopen hcspAlign => ?_, fun hlast htag hot halign h30 => ?_, fun hsys hesc htag hot halign => ?_⟩
    · exact (State.instr_ok h (bodyEnter_ok (enterChecks_ok htag hot halign hcsp hopen hcspAlign) hlast)).trans rfl
    · exact (State.instr_ok h (bodyRete_ok (reteChecks_ok htag hot halign h30) hlast)).trans rfl
    · exact (State.instr_ok h (bodyEret_ok hsys hesc (Cap.jumpTarget_ok htag (jumpOtypes_of hot) halign))).trans rfl

end Sys2Proof.Machine

/-!
SUPPORT. What errors that come to light and records of violations leave of a bench: the Rake's registers and command, and a poisoned line stays
poisoned (R407, R411, R412).
-/

namespace Sys2Proof.Machine

/-- The Rake is as it was, and every poisoned line still is. -/
def Bench.rakeKept (B C : Bench) : Prop := C.rake = B.rake ∧ ∀ line ∈ B.mem.poison, line ∈ C.mem.poison

section
variable {B C D : Bench}

theorem Bench.rakeKept_refl (B : Bench) : B.rakeKept B := ⟨rfl, fun _ hl => hl⟩
theorem Bench.rakeKept_trans (hBC : B.rakeKept C) (hCD : C.rakeKept D) : B.rakeKept D :=
  ⟨hCD.1.trans hBC.1, fun l hl => hCD.2 l (hBC.2 l hl)⟩
theorem Bench.rakeKept_of_eq (hrake : C.rake = B.rake) (hpoison : C.mem.poison = B.mem.poison) : B.rakeKept C :=
  ⟨hrake, fun _ hl => hpoison ▸ hl⟩

/-- A step that may be taken keeps what it keeps where it is taken. -/
theorem Bench.rakeKept_ite (p : Bool) (hB : D.rakeKept B) (hC : B.rakeKept C) : D.rakeKept (if p then C else B) := by
  cases p
  · exact hB
  · exact Bench.rakeKept_trans hB hC
theorem Bench.rakeKept_raise (h : B.rakeKept C) (n : Nat) : B.rakeKept (C.raise n) :=
  Bench.rakeKept_trans h (Bench.rakeKept_of_eq (Bench.raise_rake ..) (by rw [Bench.raise_mem]))

@[simp] theorem Mem.clearTags_poison (m : Mem) (a n : Nat) : (m.clearTags a n).poison = m.poison := by
  unfold Mem.clearTags
  split <;> rfl
@[simp] theorem Mem.write_poison (m : Mem) (a : Nat) (l : List Byte) : (m.write a l).poison = m.poison := by rw [Mem.write_rest]

theorem Bench.rakeKept_countCorrected (B : Bench) : B.rakeKept B.countCorrected := by
  unfold Bench.countCorrected
  dsimp only
  split
  · exact Bench.rakeKept_raise (Bench.rakeKept_of_eq rfl rfl) _
  · exact Bench.rakeKept_of_eq rfl rfl
theorem Bench.rakeKept_correct (B : Bench) (line : Nat) : B.rakeKept (B.correct line) :=
  Bench.rakeKept_trans (Bench.rakeKept_of_eq rfl rfl) (Bench.rakeKept_countCorrected { B with mem := _ })
theorem Bench.rakeKept_correctTag (B : Bench) (t : Nat) : B.rakeKept (B.correctTag t) :=
  Bench.rakeKept_trans (Bench.rakeKept_of_eq rfl rfl) (Bench.rakeKept_countCorrected { B with mem := _ })
theorem Bench.rakeKept_tagDamage (B : Bench) (t : Nat) : B.rakeKept (B.tagDamage t) :=
  Bench.rakeKept_of_eq rfl (Mem.clearTags_poison ..)

theorem Bench.poisonLine_poison (B : Bench) (mid : Nat) (walk : Bool) (line : Nat) :
    (B.poisonLine mid walk line).mem.poison = setInsert B.mem.poison line := Mem.clearTags_poison ..
theorem Bench.rakeKept_poisonLine (B : Bench) (mid : Nat) (walk : Bool) (line : Nat) : B.rakeKept (B.poisonLine mid walk line) :=
  ⟨rfl, fun _ hl => by rw [Bench.poisonLine_poison]; exact mem_setInsert.mpr (.inr hl)⟩

theorem Bench.rakeKept_putRecord (B : Bench) (l : List Byte) : B.rakeKept (B.putRecord l) := by
  unfold Bench.putRecord
  dsimp only
  split
  · exact Bench.rakeKept_of_eq rfl rfl
  next a _ =>
    have hput (m : Maf) : B.rakeKept { B with maf := m, mem := (B.mem.write a l).clearTags a 32 } :=
      Bench.rakeKept_of_eq rfl ((Mem.clearTags_poison ..).trans (Mem.write_poison ..))
    split
    · exact Bench.rakeKept_raise (Bench.rakeKept_raise (hput _) _) _
    · exact Bench.rakeKept_raise (hput _) _

end

theorem Bench.rakeKept_recordAt (n : Nat) : ∀ (B : Bench) (mid : Nat) (org : Word) (l : List Byte), B.rakeKept (B.recordAt mid org n l) := by
  induction n with
  | zero => exact fun B _ _ l => B.rakeKept_putRecord l
  | succ n ih =>
    intro B mid org l
    unfold Bench.recordAt
    split
    · exact B.rakeKept_putRecord l
    · dsimp only
      refine Bench.rakeKept_ite _ (Bench.rakeKept_ite _ (Bench.rakeKept_ite _ (Bench.rakeKept_ite _ (B.rakeKept_putRecord l) ?_) ?_) ?_) ?_
      · exact Bench.rakeKept_correctTag ..
      · exact Bench.rakeKept_correct ..
      · exact Bench.rakeKept_raise (Bench.rakeKept_trans (Bench.rakeKept_tagDamage ..) (ih ..)) _
      · exact Bench.rakeKept_raise (Bench.rakeKept_trans (Bench.rakeKept_poisonLine ..) (ih ..)) _

section
variable (B : Bench)

theorem Bench.rakeKept_violation (org : Word) (line mid kind : Nat) (u : Bool) (gen : Nat) (mask : Dword) :
    B.rakeKept (B.violation org line mid kind u gen mask) := Bench.rakeKept_recordAt ..

theorem Bench.rakeKept_tagError (t : Nat) : B.rakeKept (B.tagError t) :=
  Bench.rakeKept_raise (Bench.rakeKept_trans (B.rakeKept_tagDamage t) (Bench.rakeKept_violation ..)) _

/-- An error that comes to light poisons its line. -/
theorem Bench.detect_poison (mid : Nat) (org : Word) (walk : Bool) (line : Nat) : line ∈ (B.detect mid org walk line).mem.poison := by
  have hkept : (B.poisonLine mid walk line).rakeKept (B.detect mid org walk line) := Bench.rakeKept_raise (Bench.rakeKept_violation ..) _
  refine hkept.2 line ?_
  rw [Bench.poisonLine_poison]
  exact mem_setInsert.mpr (.inl rfl)

theorem Bench.rakeKept_detect (mid : Nat) (org : Word) (walk : Bool) (line : Nat) : B.rakeKept (B.detect mid org walk line) :=
  Bench.rakeKept_raise (Bench.rakeKept_trans (B.rakeKept_poisonLine mid walk line) (Bench.rakeKept_violation ..)) _

theorem Bench.rakeKept_checkLine (mid : Nat) (org : Word) (walk : Bool) (pa : Nat) : B.rakeKept (B.checkLine mid org walk pa).2 :=
  Bench.rakeKept_ite _ (Bench.rakeKept_ite _ (Bench.rakeKept_ite _ (Bench.rakeKept_ite _ B.rakeKept_refl
    (Bench.rakeKept_correctTag ..)) (Bench.rakeKept_tagError ..)) (Bench.rakeKept_correct ..)) (Bench.rakeKept_detect ..)

theorem rakeKept_drawBytes (n : Nat) : ∀ B : Bench, B.rakeKept (drawBytes n B).2 := by
  induction n with
  | zero => exact Bench.rakeKept_refl
  | succ n ih => exact fun B => Bench.rakeKept_trans (Bench.rakeKept_of_eq rfl rfl) (ih { B with freeCtr := B.freeCtr + 1 })

theorem Bench.rakeKept_hostRead (mid : Nat) (org : Word) (pa n kind : Nat) : B.rakeKept (B.hostRead mid org pa n kind).2 := by
  unfold Bench.hostRead
  split
  · exact Bench.rakeKept_raise (Bench.rakeKept_violation ..) _
  · split
    · exact Bench.rakeKept_raise B.rakeKept_refl _
    · exact rakeKept_drawBytes ..

theorem Bench.rakeKept_readPart (mid : Nat) (org : Word) (pa n kind : Nat) (need : Right) :
    B.rakeKept (B.readPart mid org pa n kind need).2 := by
  unfold Bench.readPart
  split
  · exact Bench.rakeKept_violation ..
  · split
    · dsimp only
      split <;> exact Bench.rakeKept_checkLine ..
    · exact Bench.rakeKept_hostRead ..
    · exact B.rakeKept_refl

end

/-- The Rake reads its set and stays as it is. -/
theorem rakeKept_readSet (n : Nat) : ∀ (a : Nat) (B : Bench), B.rakeKept (readSet n a B).2 := by
  induction n with
  | zero => exact fun _ => Bench.rakeKept_refl
  | succ n ih => exact fun a B => Bench.rakeKept_trans (Bench.rakeKept_readPart ..) (ih ..)

end Sys2Proof.Machine

/-!
SUPPORT. The Rake's commands begin and end, their passes over clean memory, and the scrubber's reads (R107 to R111, R400 to R404, R412).
-/

namespace Sys2Proof.Machine

@[simp] theorem Bench.idleExit_mem (B : Bench) : B.idleExit.mem = B.mem := by unfold Bench.idleExit; split <;> rfl

section
variable {s : State} {b : BenchNo} {w : Writer}

/-- Work on memory while the memory runs. -/
theorem State.onMemory_of_runs {f : Bench → Bench} (h : (s.bench b).memoryRuns = true) : s.onMemory b f = s.gives b (f (s.bench b)) := by
  simp only [State.onMemory, State.onBench_eq_gives, h, if_true]

theorem Bench.regWrite_rakeCmd (B : Bench) (w : Writer) (v : Word) : B.regWrite w 0x30000 v = B.rakeCommand (v.toNat % 8) := rfl

/-- A write of RAKE.CMD that the writer can make and the filter grants, of a value that asks for `f`. -/
theorem State.bus_rakeCmd {v : Word} {f : Bench → Bench} (h : (s.bench b).accessOk w 0x30000 .w = true)
    (hf : ∀ B : Bench, B.rakeCommand (v.toNat % 8) = f B) : s.bus b w 0x30000 v = s.gives b (f (s.bench b).idleExit) := by
  rw [State.bus_of_accessOk v h, Bench.regWrite_rakeCmd, hf]

end

/-! ## Ends (R404) -/

section
variable (B : Bench) (op : Nat) (state : BitVec 3)

@[simp] theorem Bench.rakeEnd_rake : (B.rakeEnd op state).rake = B.rake.ended op state := Bench.raise_rake ..
@[simp] theorem Bench.rakeEnd_mem : (B.rakeEnd op state).mem = B.mem := Bench.raise_mem ..
@[simp] theorem Bench.rakeEnd_cores : (B.rakeEnd op state).cores = B.cores := Bench.raise_cores ..

end

/-! ## Starts (R400, R402) -/

section
variable {B C : Bench} {set : List (Nat × Nat)}

theorem Bench.rakeBusy_of_none (h : B.rake.op = none) : B.rakeBusy = false := by rw [Bench.rakeBusy, h]; rfl
theorem Bench.rakeBusy_of_some (h : B.rake.op ≠ none) : B.rakeBusy = true := Option.isSome_iff_ne_none.mpr h

/-- A command in progress refuses another (R400). -/
theorem Bench.rakeSweep_busy (h : B.rakeBusy = true) : B.rakeSweep = B := if_pos h
theorem Bench.rakeRange_busy (op : RakeOp) (h : B.rakeBusy = true) : B.rakeRange op = B := if_pos h
theorem Bench.rakeAbort_busy (h : B.rakeBusy = true) : B.rakeAbort = { B with rake := { B.rake with abort := true } } := if_pos h
theorem Bench.rakeAbort_idle (h : B.rakeBusy = false) : B.rakeAbort = B := if_neg (by simp [h])

/-- The read of the revocation set, with SEQ counted. -/
def Bench.rakeReadsSet (B : Bench) (set : List (Nat × Nat)) (C : Bench) : Prop :=
  readSet B.rake.setCnt.toNat (0x1000000000 + B.rake.setOff.toNat * 16) { B with rake := { B.rake with seq := B.rake.seq + 1 } } = (set, C)

theorem Bench.rakeReadsSet_rake (h : B.rakeReadsSet set C) : C.rake = { B.rake with seq := B.rake.seq + 1 } := by
  have hkept := (rakeKept_readSet B.rake.setCnt.toNat (0x1000000000 + B.rake.setOff.toNat * 16)
    { B with rake := { B.rake with seq := B.rake.seq + 1 } }).1
  rwa [show readSet _ _ _ = (set, C) from h] at hkept

theorem Bench.rakeSweep_invalid (hidle : B.rakeBusy = false) (h : B.rakeReadsSet set C) (hset : setValid set = false) :
    B.rakeSweep = C.rakeEnd 1 6 := by
  simp only [Bench.rakeReadsSet] at h
  simp only [Bench.rakeSweep, hidle, h, hset, Bool.not_false, Bool.false_eq_true, if_false, if_true]

/-- A sweep begins with the register pass on what the read of the set left. -/
theorem Bench.rakeSweep_valid (hidle : B.rakeBusy = false) (h : B.rakeReadsSet set C) (hset : setValid set = true) :
    ∃ waitFor, B.rakeSweep = { C.registerPass set with rake := { C.rake with
      state := 2, op := some .sweep, set := set, abort := false, waitFor := waitFor, prog := 0x1000000, result := 0 } } := by
  simp only [Bench.rakeReadsSet] at h
  simp only [Bench.rakeSweep, hidle, h, hset, Bool.not_true, Bool.false_eq_true, if_false]
  exact ⟨_, rfl⟩

theorem Bench.rakeRange_invalid (op : RakeOp) (hidle : B.rakeBusy = false) (hrange : rangeOk B.rake.rangePpn.toNat B.rake.rangeLen.toNat = false) :
    B.rakeRange op = ({ B with rake := { B.rake with seq := B.rake.seq + 1 } } : Bench).rakeEnd op.code 6 := by
  simp [Bench.rakeRange, hidle, hrange]

theorem Bench.rakeRange_valid (op : RakeOp) (hidle : B.rakeBusy = false) (hrange : rangeOk B.rake.rangePpn.toNat B.rake.rangeLen.toNat = true) :
    B.rakeRange op = { B with rake := { B.rake with
      seq := B.rake.seq + 1, state := 2, op := some op, abort := false, waitFor := [], runPpn := B.rake.rangePpn.toNat
      runLen := B.rake.rangeLen.toNat, prog := B.rake.rangePpn, result := if op = .tagcount then 0 else B.rake.result } } := by
  simp [Bench.rakeRange, hidle, hrange]

/-! ## The register pass (R108) -/

theorem Bank.getC_swept (t : Bank) (set : List (Nat × Nat)) (r : Reg) : (t.swept set).getC r = (t.getC r).swept set := by
  unfold Bank.getC
  split
  · unfold Cap.swept
    split <;> rfl
  · exact Vector.getElem_map ..

theorem Bench.registerPass_bank (B : Bench) (set : List (Nat × Nat)) (k : CoreNo) (d : BankNo) :
    (B.registerPass set).bank k d = (B.bank k d).swept set := by
  simp [Bench.bank, Bench.core, Core.bank, Bench.registerPass]

end

/-! ## Passes over clean memory (R108, R407, R411) -/

/-- Memory without an error, latent or known. -/
def Mem.intact (m : Mem) : Prop := m.poison = [] ∧ m.latent = [] ∧ m.weak = [] ∧ m.tagLatent = [] ∧ m.tagWeak = []

theorem satCount_toNat (n : Nat) : (satCount n).toNat = min 0xFFFFFFFF n := by
  unfold satCount
  split
  case isTrue hmax => exact (Nat.min_eq_left hmax).symm
  case isFalse hlt =>
    rw [BitVec.toNat_ofNat, Nat.mod_eq_of_lt (by omega), Nat.min_eq_right (by omega)]

theorem Mem.tag_filter (m : Mem) (p : Nat → Bool) (pages : List Nat) (g : Nat) :
    ({ m with tags := m.tags.filter p, summary := pages } : Mem).tag g = (m.tag g && p g) := by
  rw [Bool.eq_iff_iff]
  simp [Mem.tag]

/-- The lines of a range of pages hold the granules of those pages. -/
theorem line_in_range_iff (ppn len g : Nat) :
    (ppn * 64 ≤ g / 4 ∧ g / 4 < ppn * 64 + len * 64) ↔ (ppn * 256 ≤ g ∧ g < (ppn + len) * 256) := by omega

section
variable {B : Bench}

theorem Bench.checkLine_of_intact (h : B.mem.intact) (mid : Nat) (org : Word) (walk : Bool) (pa : Nat) :
    B.checkLine mid org walk pa = (false, B) := by
  obtain ⟨hpoison, hlatent, hweak, htagLatent, htagWeak⟩ := h
  exact Bench.checkLine_intact (by simp [hpoison]) (by simp [hlatent]) (by simp [hweak]) (by simp [htagLatent]) (by simp [htagWeak])

theorem Bench.rakeTagRead_of_intact (h : B.mem.intact) (f : Nat → Bool) : B.rakeTagRead f = B := by
  obtain ⟨-, -, -, htagLatent, htagWeak⟩ := h
  simp [Bench.rakeTagRead, htagLatent, htagWeak]

theorem Bench.rakeRead_of_intact (h : B.mem.intact) (ls : List Nat) : B.rakeRead ls = B := by
  unfold Bench.rakeRead
  induction ls with
  | nil => rfl
  | cons l ls ih => rw [List.foldl_cons, Bench.checkLine_of_intact h, ih]

/-- A complete TAGCLEAR clears the tags of its pages and changes no byte. -/
theorem Bench.rakePass_tagclear (B : Bench) :
    (B.rakePass .tagclear none).rake.waitFor = B.rake.waitFor ∧ (B.rakePass .tagclear none).mem.bytes = B.mem.bytes
    ∧ ∀ g, (B.rakePass .tagclear none).mem.tag g
        = (B.mem.tag g && !decide (B.rake.runPpn * 256 ≤ g ∧ g < (B.rake.runPpn + B.rake.runLen) * 256)) := by
  refine ⟨rfl, rfl, fun g => (Mem.tag_filter ..).trans ?_⟩
  simp [← line_in_range_iff]

/-- A complete TAGCOUNT counts the tags of its pages. -/
theorem Bench.rakePass_tagcount (h : B.mem.intact) :
    (B.rakePass .tagcount none).rake.waitFor = B.rake.waitFor ∧ (B.rakePass .tagcount none).mem = B.mem
    ∧ (B.rakePass .tagcount none).rake.result
        = satCount (B.mem.tags.filter fun g => decide (B.rake.runPpn * 256 ≤ g ∧ g < (B.rake.runPpn + B.rake.runLen) * 256)).length := by
  simp [Bench.rakePass, Bench.tagCount, Bench.rakeTagRead_of_intact h, ← line_in_range_iff]

/-- A complete sweep clears the tags of the revoked capabilities and changes no byte. -/
theorem Bench.rakePass_sweep (h : B.mem.intact) :
    (B.rakePass .sweep none).rake.waitFor = B.rake.waitFor ∧ (B.rakePass .sweep none).rake.op = B.rake.op
    ∧ (B.rakePass .sweep none).mem.bytes = B.mem.bytes
    ∧ ∀ g, (B.rakePass .sweep none).mem.tag g = (B.mem.tag g && !(capOf (B.mem.read (g * 16) 16) true).revokedIn B.rake.set) := by
  simp only [Bench.rakePass, Bench.sweepMemory, Bench.rakeTagRead_of_intact h, Bench.rakeRead_of_intact h, true_and]
  refine fun g => (Mem.tag_filter ..).trans ?_
  by_cases htag : g ∈ B.mem.tags <;> simp [Mem.tag, htag]

/-! ## Ends of commands (R108, R404) -/

/-- A pass that ends leaves its memory and its count, and the command is DONE or waits. -/
theorem Bench.rakeCommandEnd_passes {op : RakeOp} (line : Nat) (hop : B.rake.op = some op) (hstate : B.rake.state = 2)
    (habort : B.rake.abort = false) (hwait : (B.rakePass op none).rake.waitFor = B.rake.waitFor) :
    (B.rakeCommandEnd line).mem = (B.rakePass op none).mem ∧ (B.rakeCommandEnd line).rake.result = (B.rakePass op none).rake.result
    ∧ (B.rake.waitFor = [] → (B.rakeCommandEnd line).rake.state = 4 ∧ (B.rakeCommandEnd line).rake.op = none)
    ∧ (B.rake.waitFor ≠ [] → (B.rakeCommandEnd line).rake.state = 3 ∧ (B.rakeCommandEnd line).rake.op = (B.rakePass op none).rake.op) := by
  simp only [Bench.rakeCommandEnd, hop, habort, hstate, Bool.false_eq_true, if_false, if_true, hwait]
  generalize B.rakePass op none = P
  by_cases hempty : B.rake.waitFor = []
  · simp [hempty, Rake.ended]
  · simp [hempty]

theorem Bench.rakeCommandEnd_aborts (line : Nat) (hop : B.rake.op ≠ none) (habort : B.rake.abort = true) :
    ∃ C op, B.rakeCommandEnd line = Bench.rakeEnd C op 5 := by
  obtain ⟨op, hop⟩ := Option.ne_none_iff_exists'.mp hop
  simp only [Bench.rakeCommandEnd, hop, habort, if_true]
  exact ⟨_, _, rfl⟩

/-! ## The scrubber (R412) -/

theorem Bench.scrubRead_intact (hperiod : B.memErr.scrubPeriod ≠ 0) (hpage : B.memErr.scrubPage ≠ scrubEnd) (h : B.mem.intact) :
    B.scrubRead .intact = { B with memErr := B.memErr.scrubNext } := by
  simp only [Bench.scrubRead, hperiod, hpage, decide_false, Bool.or_false, Bool.false_eq_true, if_false]
  rw [Bench.checkLine_of_intact h]

/-- A latent error of a line comes to light when the line is read. -/
theorem Bench.checkLine_latent (mid : Nat) (org : Word) (walk : Bool) (line : Nat) (htagWeak : B.mem.tagWeak = [])
    (htagLatent : B.mem.tagLatent = []) (hweak : B.mem.weak = []) (hlatent : line ∈ B.mem.latent) :
    (B.checkLine mid org walk (line * 64)).2 = B.detect mid org walk line := by
  simp [Bench.checkLine, htagWeak, htagLatent, hweak, hlatent]

theorem Bench.scrubRead_uncorrectable (hperiod : B.memErr.scrubPeriod ≠ 0) (hpage : B.memErr.scrubPage ≠ scrubEnd) (h : B.mem.intact) :
    B.memErr.scrubPage * 64 + B.memErr.scrubLine ∈ (B.scrubRead .uncorrectable).mem.poison := by
  obtain ⟨hpoison, -, hweak, htagLatent, htagWeak⟩ := h
  have hsound (line : Nat) : B.mem.poison.contains line = false := by rw [hpoison]; rfl
  have hdetects (line : Nat) := Bench.checkLine_latent (B := { B with mem := { B.mem with latent := setInsert B.mem.latent line } })
    0xFF 0 false line htagWeak htagLatent hweak (mem_setInsert.mpr (.inl rfl))
  simp only [Bench.scrubRead, hperiod, hpage, hsound, decide_false, Bool.or_false, Bool.false_eq_true, if_false]
  rw [hdetects]
  exact Bench.detect_poison ..

theorem Bench.scrubPassEnd_at_end (hpage : B.memErr.scrubPage = scrubEnd) :
    B.scrubPassEnd = ({ B with memErr := { B.memErr with scrubPage := 0, scrubLine := 0 } } : Bench).raise 898 := by
  simp [Bench.scrubPassEnd, hpage]

end

/-! ## The commands -/

/-- Settles O25: the starts on the bench that the access wakes, the passes over clean memory, the ends, and the scrubber. -/
theorem rakeAndScrubber : Obligations.RakeAndScrubber := by
  unfold Obligations.RakeAndScrubber
  intro s b w B I takes clean
  refine ⟨?starts, ?ends, ?scrubber⟩
  case starts =>
    intro hok
    have hsweep : exec (.rakeSweep b w) s = s.gives b I.rakeSweep :=
      State.bus_rakeCmd (f := Bench.rakeSweep) hok fun B => by simp [Bench.rakeCommand]
    have habort : exec (.rakeAbort b w) s = s.gives b I.rakeAbort :=
      State.bus_rakeCmd (f := Bench.rakeAbort) hok fun B => by simp [Bench.rakeCommand]
    have hclear : exec (.rakeTagclear b w) s = s.gives b (I.rakeRange .tagclear) :=
      State.bus_rakeCmd (f := (Bench.rakeRange · .tagclear)) hok fun B => by simp [Bench.rakeCommand]
    have hcount : exec (.rakeTagcount b w) s = s.gives b (I.rakeRange .tagcount) :=
      State.bus_rakeCmd (f := (Bench.rakeRange · .tagcount)) hok fun B => by simp [Bench.rakeCommand]
    have hmem : I.mem = B.mem := Bench.idleExit_mem B
    refine ⟨fun hnone => ?_, fun hsome => ?_⟩
    · have hidle := Bench.rakeBusy_of_none hnone
      refine ⟨fun set C hread => ⟨fun hset => ?_, fun hset => ?_⟩, fun hrange => ?_, fun hrange => ?_, ?_⟩
      · obtain ⟨waitFor, hbegun⟩ := Bench.rakeSweep_valid hidle hread hset
        refine ⟨_, hsweep.trans (congrArg (s.gives b) hbegun), rfl, rfl, ?_, rfl, rfl, fun k d r => ?_⟩
        · exact congrArg Rake.seq (Bench.rakeReadsSet_rake hread)
        · exact (congrArg (Bank.getC · r) (Bench.registerPass_bank C set k d)).trans (Bank.getC_swept ..)
      · exact ⟨_, hsweep.trans (congrArg _ (Bench.rakeSweep_invalid hidle hread hset)), by rw [Bench.rakeEnd_rake]; rfl,
          by rw [Bench.rakeEnd_rake]; rfl, Bench.rakeEnd_cores ..⟩
      · exact ⟨⟨_, hclear.trans (congrArg _ (Bench.rakeRange_valid _ hidle hrange)), rfl, rfl, rfl, rfl, rfl, hmem⟩,
          _, hcount.trans (congrArg _ (Bench.rakeRange_valid _ hidle hrange)), rfl, rfl, rfl, rfl, rfl, rfl, hmem⟩
      · have hends (op : RakeOp) : (I.rakeRange op).rake.state = 6 ∧ (I.rakeRange op).rake.op = none ∧ (I.rakeRange op).mem = B.mem := by
          rw [Bench.rakeRange_invalid op hidle hrange, Bench.rakeEnd_rake, Bench.rakeEnd_mem]
          exact ⟨rfl, rfl, hmem⟩
        exact ⟨⟨_, hclear, hends _⟩, _, hcount, hends _⟩
      · rw [habort, Bench.rakeAbort_idle hidle]
    · have hbusy := Bench.rakeBusy_of_some hsome
      refine ⟨by rw [habort, Bench.rakeAbort_busy hbusy], ?_⟩
      simp only [List.forall_mem_cons, List.not_mem_nil, false_imp_iff, implies_true, and_true]
      rw [hsweep, hclear, hcount, Bench.rakeSweep_busy hbusy, Bench.rakeRange_busy _ hbusy, Bench.rakeRange_busy _ hbusy]
      exact ⟨rfl, rfl, rfl⟩
  case ends =>
    intro line hruns
    have hend : exec (.rakeCommandEnd b line) s = s.gives b (B.rakeCommandEnd line.toNat) :=
      State.onMemory_of_runs (f := fun C => C.rakeCommandEnd line.toNat) hruns
    refine ⟨fun hop hstate habort hempty => ?_, fun hclean hop hstate habort hempty => ?_, fun hclean hop hstate habort => ?_, fun hop habort => ?_⟩
    · obtain ⟨hwait, hbytes, htags⟩ := B.rakePass_tagclear
      obtain ⟨hmem, -, hdone, -⟩ := Bench.rakeCommandEnd_passes line.toNat hop hstate habort hwait
      rw [← hmem] at hbytes htags
      exact ⟨_, hend, (hdone hempty).1, (hdone hempty).2, hbytes, htags⟩
    · obtain ⟨hwait, hpassMem, hpassResult⟩ := Bench.rakePass_tagcount hclean
      obtain ⟨hmem, hresult, hdone, -⟩ := Bench.rakeCommandEnd_passes line.toNat hop hstate habort hwait
      refine ⟨_, hend, (hdone hempty).1, (hdone hempty).2, hmem.trans hpassMem, ?_⟩
      exact (congrArg BitVec.toNat (hresult.trans hpassResult)).trans (satCount_toNat _)
    · obtain ⟨hwait, hpassOp, hbytes, htags⟩ := Bench.rakePass_sweep hclean
      obtain ⟨hmem, -, hdone, hwaits⟩ := Bench.rakeCommandEnd_passes line.toNat hop hstate habort hwait
      rw [hpassOp, hop] at hwaits
      rw [← hmem] at hbytes htags
      exact ⟨_, hend, hbytes, htags, hdone, hwaits⟩
    · obtain ⟨C, op, hC⟩ := Bench.rakeCommandEnd_aborts line.toNat hop habort
      refine ⟨_, hend.trans (congrArg (s.gives b) hC), ?_⟩
      simp only [Bench.rakeEnd_rake]
      exact ⟨rfl, rfl⟩
  case scrubber =>
    intro hruns scrubbed
    have hread (found : LineState) : exec (.scrubRead b found) s = s.gives b (B.scrubRead found) :=
      State.onMemory_of_runs (f := fun C => C.scrubRead found) hruns
    refine ⟨fun hperiod hpage hclean => ⟨?_, ?_⟩, fun hpage => ?_⟩
    · rw [hread, Bench.scrubRead_intact hperiod hpage hclean]
    · exact ⟨_, hread _, Bench.scrubRead_uncorrectable hperiod hpage hclean⟩
    · rw [show exec (.scrubPassEnd b) s = s.gives b B.scrubPassEnd from State.onMemory_of_runs hruns, Bench.scrubPassEnd_at_end hpage]

end Sys2Proof.Machine

/-!
SUPPORT. The shootdown register and the ETU's invalidation (R360, R361, R363), the exchange of the filter's rule sets (R384 to R388), and
the check of a rule set against what R375 and R376 ask of it.
-/

namespace Sys2Proof.Machine

/-! ## The commands -/

section
variable {s : State} {b : BenchNo} {w : Writer}

theorem exec_shootdownDoorbell_of_accessOk (cores : Half) (h : (s.bench b).accessOk w 0x40000 .w = true) :
    exec (.shootdownDoorbell b w cores) s = s.gives b ((s.bench b).idleExit.shootdown cores) := by
  have hwrite (B : Bench) : B.regWrite w 0x40000 (cores.zeroExtend 32) = B.shootdown ((cores.zeroExtend 32).truncate 16) := rfl
  rw [exec_shootdownDoorbell, execShootdownDoorbell, State.bus_of_accessOk _ h, hwrite]
  simp

theorem exec_shootdownAck_of_accessOk (cores : Half) (h : (s.bench b).accessOk w 0x40004 .w = true) :
    let I := (s.bench b).idleExit
    exec (.shootdownAck b w cores) s = s.gives b { I with trans := { I.trans with shootdb := I.trans.shootdb &&& ~~~cores } } := by
  have hwrite (B : Bench) : B.regWrite w 0x40004 (cores.zeroExtend 32) =
      { B with trans := { B.trans with shootdb := B.trans.shootdb &&& ~~~((cores.zeroExtend 32).truncate 16) } } := rfl
  rw [exec_shootdownAck, execShootdownAck, State.bus_of_accessOk _ h, hwrite]
  simp

/-- A write of TRANS.ETUINV_CMD of GO with `scope`. -/
theorem Bench.regWrite_etuCmd (B : Bench) (w : Writer) (scope : BitVec 2) :
    B.regWrite w 0x40018 (BitVec.ofNat 32 (scope.toNat + 4)) = B.etuCommand scope := by
  have hgo : (BitVec.ofNat 32 (scope.toNat + 4)).getLsbD 2 = true := by decide +revert
  have hscope : (BitVec.ofNat 32 (scope.toNat + 4)).truncate 2 = scope := by decide +revert
  change (if (BitVec.ofNat 32 (scope.toNat + 4)).getLsbD 2 then B.etuCommand ((BitVec.ofNat 32 (scope.toNat + 4)).truncate 2) else B) = _
  rw [if_pos hgo, hscope]

theorem exec_etuInvalidate_of_accessOk (scope : BitVec 2) (h : (s.bench b).accessOk w 0x40018 .w = true) :
    exec (.etuInvalidate b w scope) s = s.gives b ((s.bench b).idleExit.etuCommand scope) := by
  rw [exec_etuInvalidate, execEtuInvalidate, State.bus_of_accessOk _ h, Bench.regWrite_etuCmd]

theorem exec_mafSwap_of_accessOk (h : (s.bench b).accessOk w 0x20000 .w = true) :
    exec (.mafSwap b w) s = s.gives b ((s.bench b).idleExit.mafSwap w) := State.bus_of_accessOk _ h

theorem exec_etuInvalidateDone_of_runs (h : (s.bench b).memoryRuns = true) :
    exec (.etuInvalidateDone b) s = s.gives b (s.bench b).etuDone := State.onMemory_of_runs h
theorem exec_mafSwapCheckEnd_of_runs (out : Bool) (h : (s.bench b).memoryRuns = true) :
    exec (.mafSwapCheckEnd b out) s = s.gives b ((s.bench b).mafCheckEnd out) := State.onMemory_of_runs (f := fun B => B.mafCheckEnd out) h
theorem exec_mafDrainEnd_of_runs (h : (s.bench b).memoryRuns = true) :
    exec (.mafDrainEnd b) s = s.gives b (s.bench b).mafDrainEnd := State.onMemory_of_runs h

end

/-! ## The ETU (R204, R363) -/

section
variable {B : Bench}

theorem tlbiPage_eq_append (lo hi : Word) : tlbiPage lo hi = (hi.extractLsb' 0 13 ++ lo).toNat := by
  rw [BitVec.toNat_append, ← Nat.shiftLeft_add_eq_or_of_lt lo.isLt, Nat.shiftLeft_eq]
  simp [tlbiPage, Nat.add_comm]
theorem tlbiAsidOf_eq_extract (hi : Word) : tlbiAsidOf hi = (hi.extractLsb' 16 16).toNat := by
  have := hi.isLt
  simp [tlbiAsidOf, Nat.shiftRight_eq_div_pow]
  omega

theorem Bench.etuCommand_busy (scope : BitVec 2) (h : B.trans.etuBusy = true) : B.etuCommand scope = B := if_pos h
theorem Bench.etuCommand_idle (scope : BitVec 2) (h : B.trans.etuBusy = false) :
    B.etuCommand scope = { B with trans := { B.trans with
      etuBusy := true, etuScope := scope, etuTlb := invalidate (B.etuScopeOf scope) B.trans.etuTlb } } := if_neg (by simp [h])

theorem Bench.etuDone_inFlight (h : B.etuInFlight = true) : B.etuDone = B := if_pos h
theorem Bench.etuDone_performed (h : B.etuInFlight = false) : B.etuDone = { B with trans := { B.trans with etuBusy := false } } :=
  if_neg (by simp [h])

end

/-! ## The exchange of rule sets (R384 to R388) -/

section
variable {B : Bench} {w : Writer}

theorem Bench.mafSwap_ignored (h : w.mid ≠ midBsc ∨ B.maf.checking = true) : B.mafSwap w = B := if_pos (by simpa using h)
theorem Bench.mafSwap_undrained (hbsc : w.mid = midBsc) (hchecking : B.maf.checking = false) (hdrained : B.maf.drained = false) :
    B.mafSwap w = B.mafRefuse 3 0 0 := by simp [Bench.mafSwap, hbsc, hchecking, hdrained]
theorem Bench.mafSwap_drained (hbsc : w.mid = midBsc) (hchecking : B.maf.checking = false) (hdrained : B.maf.drained = true) :
    B.mafSwap w = { B with maf := { B.maf with checking := true } } := by simp [Bench.mafSwap, hbsc, hchecking, hdrained]

theorem Bench.mafCheckEnd_wrong {reason x y : Nat} (out : Bool) (hchecking : B.maf.checking = true)
    (h : mafCheck B.maf.staged = some (reason, x, y)) : B.mafCheckEnd out = B.mafRefuse reason x y := by
  simp [Bench.mafCheckEnd, hchecking, h]

/-- The bench with the staged set active, before its events. -/
def Bench.mafExchanged (B : Bench) (out : Bool) : Bench :=
  { B with maf := { B.maf with
    bank := !B.maf.bank, gen := B.maf.gen + 1, refused := false, checking := false, reason := 0, ruleA := 0, ruleB := 0, drained := !out } }

theorem Bench.mafCheckEnd_right (out : Bool) (hchecking : B.maf.checking = true) (h : mafCheck B.maf.staged = none) :
    B.mafCheckEnd out = if out then (B.mafExchanged out).raise 578 else ((B.mafExchanged out).raise 578).raise 579 := by
  simp [Bench.mafCheckEnd, Bench.mafExchanged, hchecking, h]

theorem Bench.mafDrainEnd_undrained (h : B.maf.drained = false) :
    B.mafDrainEnd = ({ B with maf := { B.maf with drained := true } } : Bench).raise 579 := if_neg (by simp [h])

end

/-! ## Rules that share an access (R375, R376) -/

/-- A rule covers accesses to `page` by the master `mid`. -/
def MafRule.covers (r : MafRule) (page mid : Nat) : Prop :=
  r.base ≤ page ∧ page ≤ r.limit ∧ mid &&& r.midm = r.midv &&& r.midm

theorem MafRule.midv_lt (r : MafRule) : r.midv < 2 ^ 8 := Nat.mod_lt _ (by decide)

/-- Two patterns under masks have a number in common where they agree on the bits that both masks name. -/
theorem exists_and_eq_and_iff {a b m n : Nat} (ha : a < 2 ^ 8) (hb : b < 2 ^ 8) :
    (∃ k < 256, k &&& m = a &&& m ∧ k &&& n = b &&& n) ↔ (a ^^^ b) &&& m &&& n = 0 := by
  constructor
  · rintro ⟨k, -, hm, hn⟩
    refine Nat.eq_of_testBit_eq fun i => ?_
    have hm := congrArg (Nat.testBit · i) hm
    have hn := congrArg (Nat.testBit · i) hn
    simp only [Nat.testBit_and, Nat.testBit_xor, Nat.zero_testBit] at hm hn ⊢
    grind
  · intro h
    refine ⟨a &&& m ||| b &&& n, Nat.or_lt_two_pow (Nat.lt_of_le_of_lt Nat.and_le_left ha) (Nat.lt_of_le_of_lt Nat.and_le_left hb), ?_, ?_⟩ <;>
    · refine Nat.eq_of_testBit_eq fun i => ?_
      have h := congrArg (Nat.testBit · i) h
      simp only [Nat.testBit_and, Nat.testBit_or, Nat.testBit_xor, Nat.zero_testBit] at h ⊢
      grind

theorem exists_between_both_iff {a b c d : Nat} (hab : a ≤ b) (hcd : c ≤ d) :
    (∃ p, a ≤ p ∧ p ≤ b ∧ c ≤ p ∧ p ≤ d) ↔ a ≤ d ∧ c ≤ b := by
  constructor
  · omega
  · rintro ⟨had, hcb⟩
    exact ⟨max a c, by omega⟩

/-- Two enabled rules with their limits in order overlap exactly where some access is covered by both. -/
theorem MafRule.overlaps_iff {r t : MafRule} (hr : r.en = true) (ht : t.en = true) (hrb : r.base ≤ r.limit) (htb : t.base ≤ t.limit) :
    r.overlaps t = true ↔ ∃ page mid, mid < 256 ∧ r.covers page mid ∧ t.covers page mid := by
  have hpages := exists_between_both_iff hrb htb
  have hmids := exists_and_eq_and_iff (m := r.midm) (n := t.midm) r.midv_lt t.midv_lt
  simp only [MafRule.overlaps, hr, ht, Bool.and_eq_true, decide_eq_true_eq, beq_iff_eq, true_and]
  rw [← hpages, ← hmids]
  constructor
  · rintro ⟨⟨page, hr1, hr2, ht1, ht2⟩, mid, hlt, hrm, htm⟩
    exact ⟨page, mid, hlt, ⟨hr1, hr2, hrm⟩, ht1, ht2, htm⟩
  · rintro ⟨page, mid, hlt, ⟨hr1, hr2, hrm⟩, ht1, ht2, htm⟩
    exact ⟨⟨page, hr1, hr2, ht1, ht2⟩, mid, hlt, hrm, htm⟩

theorem MafRule.en_of_overlaps {r t : MafRule} (h : r.overlaps t = true) : r.en = true ∧ t.en = true := by
  simp only [MafRule.overlaps, Bool.and_eq_true] at h
  obtain ⟨⟨⟨hen, -⟩, -⟩, -⟩ := h
  exact hen

theorem MafRule.overlaps_symm {r t : MafRule} (h : r.overlaps t = true) : t.overlaps r = true := by
  simp only [MafRule.overlaps, Bool.and_eq_true, decide_eq_true_eq, beq_iff_eq] at h ⊢
  obtain ⟨⟨⟨⟨hr, ht⟩, hrt⟩, htr⟩, hbits⟩ := h
  refine ⟨⟨⟨⟨ht, hr⟩, htr⟩, hrt⟩, ?_⟩
  rwa [Nat.xor_comm, Nat.and_assoc, Nat.and_comm t.midm, ← Nat.and_assoc]

theorem MafRule.overlaps_comm (r t : MafRule) : r.overlaps t = t.overlaps r :=
  Bool.eq_iff_iff.mpr ⟨MafRule.overlaps_symm, MafRule.overlaps_symm⟩

/-! ## The check of a rule set (R385 step 3) -/

section
variable {t : Table MafRule}

theorem firstOverlap_eq_none_iff : firstOverlap t = none ↔ t.Pairwise fun e f => e.2.overlaps f.2 = false := by
  induction t with
  | nil => simp [firstOverlap]
  | cons e t ih =>
    rw [List.pairwise_cons, ← ih, firstOverlap]
    cases hfind : t.find? fun f => e.2.overlaps f.2 with
    | none =>
      have hapart : ∀ f ∈ t, e.2.overlaps f.2 = false := fun f hf => by simpa using List.find?_eq_none.mp hfind f hf
      exact (and_iff_right hapart).symm
    | some f =>
      have hover : e.2.overlaps f.2 = true := List.find?_some (p := fun f : Nat × MafRule => e.2.overlaps f.2) hfind
      exact iff_of_false (Option.some_ne_none _) fun h => by simp [h.1 f (List.mem_of_find?_eq_some hfind)] at hover

theorem mafCheck_eq_none_iff : mafCheck t = none ↔ (∀ e ∈ t, e.2.invalid = false) ∧ firstOverlap t = none := by
  unfold mafCheck
  cases hfind : t.find? fun e => e.2.invalid with
  | none =>
    have hvalid : ∀ e ∈ t, e.2.invalid = false := fun e he => by simpa using List.find?_eq_none.mp hfind e he
    exact Option.map_eq_none_iff.trans (and_iff_right hvalid).symm
  | some e =>
    have hinvalid : e.2.invalid = true := List.find?_some (p := fun e : Nat × MafRule => e.2.invalid) hfind
    exact iff_of_false (Option.some_ne_none _) fun h => by simp [h.1 e (List.mem_of_find?_eq_some hfind)] at hinvalid

theorem forall_overlaps_of_pairwise (h : t.Pairwise fun e f => e.2.overlaps f.2 = false) :
    ∀ e ∈ t, ∀ f ∈ t, e.1 ≠ f.1 → e.2.overlaps f.2 = false := by
  induction h with
  | nil => exact nofun
  | cons hhead _ ih =>
    intro e he f hf hne
    cases List.mem_cons.mp he with
    | inl hehead =>
      cases List.mem_cons.mp hf with
      | inl hfhead => exact absurd (by rw [hehead, hfhead]) hne
      | inr hf => exact hehead ▸ hhead f hf
    | inr he =>
      cases List.mem_cons.mp hf with
      | inl hfhead => exact (MafRule.overlaps_comm ..).trans (hfhead ▸ hhead e he)
      | inr hf => exact ih e he f hf hne

/-- In a table in order, no pair overlaps exactly where no two entries of different numbers do. -/
theorem pairwise_overlaps_iff (hwf : Table.wf MafRule.zero t = true) :
    (t.Pairwise fun e f => e.2.overlaps f.2 = false) ↔ ∀ e ∈ t, ∀ f ∈ t, e.1 ≠ f.1 → e.2.overlaps f.2 = false :=
  ⟨forall_overlaps_of_pairwise, fun h =>
    ((Table.wf_iff _ t).mp hwf).1.imp_of_mem fun he hf hlt => h _ he _ hf (Nat.ne_of_lt hlt)⟩

theorem MafRule.invalid_eq_false_iff (r : MafRule) : r.invalid = false ↔ (r.en = true → r.base ≤ r.limit) := by
  simp [MafRule.invalid]

/-- A rule set is right where its enabled rules have their limits in order and no access is covered by two. -/
theorem mafCheck_none_iff_covers (hwf : Table.wf MafRule.zero t = true) : mafCheck t = none ↔
    (∀ e ∈ t, e.2.en = true → e.2.base ≤ e.2.limit)
    ∧ (∀ e ∈ t, ∀ f ∈ t, e.1 ≠ f.1 → e.2.en = true → f.2.en = true →
      ¬∃ page mid, mid < 256 ∧ e.2.covers page mid ∧ f.2.covers page mid) := by
  rw [mafCheck_eq_none_iff, firstOverlap_eq_none_iff, pairwise_overlaps_iff hwf]
  simp only [MafRule.invalid_eq_false_iff]
  refine and_congr_right fun hvalid => forall₅_congr fun e he f hf _ => ?_
  constructor
  · intro h hen hfn
    rw [← MafRule.overlaps_iff hen hfn (hvalid e he hen) (hvalid f hf hfn), h]
    decide
  · refine fun h => Bool.eq_false_iff.mpr fun hover => ?_
    obtain ⟨hen, hfn⟩ := MafRule.en_of_overlaps hover
    exact h hen hfn ((MafRule.overlaps_iff hen hfn (hvalid e he hen) (hvalid f hf hfn)).mp hover)

end

/-- Settles O24: each command is the bench's operation in the case that its condition names; the check is that no access is covered twice. -/
theorem translationAndFilter : Obligations.TranslationAndFilter := by
  unfold Obligations.TranslationAndFilter
  refine ⟨?commands, ?check⟩
  case commands =>
    intro s b w cores scope B I t takes
    refine ⟨?doorbell, ?ack, ?etuIdle, ?etuBusy, ?etuDone, ?swap, ?swapIgnored, ?checkEnd, ?drainEnd⟩
    case doorbell => exact exec_shootdownDoorbell_of_accessOk cores
    case ack => exact exec_shootdownAck_of_accessOk cores
    case etuIdle =>
      intro hbusy hok
      rw [exec_etuInvalidate_of_accessOk scope hok, Bench.etuCommand_idle scope hbusy, Bench.etuScopeOf, tlbiPage_eq_append, tlbiAsidOf_eq_extract]
      rfl
    case etuBusy =>
      intro hbusy hok
      rw [exec_etuInvalidate_of_accessOk scope hok, Bench.etuCommand_busy scope hbusy]
    case etuDone =>
      intro hruns
      rw [exec_etuInvalidateDone_of_runs hruns]
      refine ⟨fun hperformed => ?_, fun hflight => ?_⟩
      · rw [Bench.etuDone_performed hperformed]
      · rw [Bench.etuDone_inFlight hflight, State.gives_bench]
    case swap =>
      intro hbsc hchecking
      refine ⟨fun hdrained hok => ?_, fun hdrained hok => ?_⟩
      · rw [exec_mafSwap_of_accessOk hok, Bench.mafSwap_drained hbsc hchecking hdrained]
      · rw [exec_mafSwap_of_accessOk hok, Bench.mafSwap_undrained hbsc hchecking hdrained]
        rfl
    case swapIgnored =>
      intro h hok
      rw [exec_mafSwap_of_accessOk hok, Bench.mafSwap_ignored h]
    case checkEnd =>
      intro out hruns hchecking
      rw [exec_mafSwapCheckEnd_of_runs out hruns]
      refine ⟨fun hright => ?_, fun r x y hwrong => ?_⟩
      · rw [Bench.mafCheckEnd_right out hchecking hright]
        rfl
      · rw [Bench.mafCheckEnd_wrong out hchecking hwrong]
        rfl
    case drainEnd =>
      intro hruns hdrained
      rw [exec_mafDrainEnd_of_runs hruns, Bench.mafDrainEnd_undrained hdrained]
  case check =>
    intro t hwf
    rw [mafCheck_none_iff_covers hwf]
    simp only [MafRule.covers, and_assoc, and_left_comm]

end Sys2Proof.Machine

/-!
SUPPORT. What a record of the journal may change of a bench (R582, R585, R593): the journal and what its write touches of memory, of the
filter's and the memory controller's records, of events and of time; the rest of the bench is as it was.
-/

namespace Sys2Proof.Machine

/-- The bench is as it was but for what the writing of records touches. -/
def Bench.recordFrame (B C : Bench) : Prop :=
  C = { B with mem := C.mem, memErr := C.memErr, maf := C.maf, sched := C.sched, pwr := C.pwr, out := C.out, jrn := C.jrn, time := C.time
               freeCtr := C.freeCtr }

section
variable {B C D : Bench}

theorem Bench.recordFrame_refl (B : Bench) : B.recordFrame B := rfl
theorem Bench.recordFrame_set (B : Bench) (m : Mem) (e : MemErr) (f : Maf) (c : Sched) (p : Pwr) (o : List Output) (j : Journal) (t : TimeState) (n : Nat) :
    B.recordFrame { B with mem := m, memErr := e, maf := f, sched := c, pwr := p, out := o, jrn := j, time := t, freeCtr := n } := rfl
theorem Bench.recordFrame_trans (hBC : B.recordFrame C) (hCD : C.recordFrame D) : B.recordFrame D :=
  hCD.trans (by rw [hBC])
theorem Bench.recordFrame_raise (h : B.recordFrame C) (n : Nat) : B.recordFrame (C.raise n) :=
  Bench.recordFrame_trans h (by rw [Bench.recordFrame, Bench.raise_frame])
theorem Bench.recordFrame_ite {p : Prop} [Decidable p] (hC : B.recordFrame C) (hD : B.recordFrame D) : B.recordFrame (if p then C else D) := by
  split <;> assumption
/-- A step that may be taken, from what the steps before it left. -/
theorem Bench.recordFrame_iteStep {p : Prop} [Decidable p] (hB : B.recordFrame C) (hC : C.recordFrame D) : B.recordFrame (if p then D else C) :=
  Bench.recordFrame_ite (Bench.recordFrame_trans hB hC) hB
theorem Bench.recordFrame_foldl {α : Type} {f : Bench → α → Bench} (hf : ∀ (B : Bench) (a : α), B.recordFrame (f B a)) (l : List α) :
    ∀ B : Bench, B.recordFrame (l.foldl f B) := by
  induction l with
  | nil => exact Bench.recordFrame_refl
  | cons a l ih => exact fun B => Bench.recordFrame_trans (hf B a) (ih (f B a))

theorem Bench.recordFrame_vault (h : B.recordFrame C) : C.vault = B.vault := by rw [h]
theorem Bench.recordFrame_ctl (h : B.recordFrame C) : C.ctl = B.ctl := by rw [h]

end

/-! ## Records of the filter (R390 to R392, R407 to R411) -/

section
variable (B : Bench)

theorem Bench.recordFrame_putRecord (l : List Byte) : B.recordFrame (B.putRecord l) := by
  unfold Bench.putRecord
  dsimp only
  split
  · rfl
  · split
    · exact Bench.recordFrame_raise (Bench.recordFrame_raise (Bench.recordFrame_set ..) _) _
    · exact Bench.recordFrame_raise (Bench.recordFrame_set ..) _

theorem Bench.recordFrame_countCorrected : B.recordFrame B.countCorrected := Bench.recordFrame_ite (Bench.recordFrame_raise (Bench.recordFrame_set ..) _) rfl
theorem Bench.recordFrame_correct (line : Nat) : B.recordFrame (B.correct line) :=
  Bench.recordFrame_trans (Bench.recordFrame_set ..) (Bench.recordFrame_countCorrected _)
theorem Bench.recordFrame_correctTag (t : Nat) : B.recordFrame (B.correctTag t) :=
  Bench.recordFrame_trans (Bench.recordFrame_set ..) (Bench.recordFrame_countCorrected _)

end

theorem Bench.recordFrame_recordAt (n : Nat) :
    ∀ (B : Bench) (mid : Nat) (org : Word) (l : List Byte), B.recordFrame (B.recordAt mid org n l) := by
  induction n with
  | zero => exact fun B _ _ l => B.recordFrame_putRecord l
  | succ n ih =>
    intro B mid org l
    unfold Bench.recordAt
    split
    · exact B.recordFrame_putRecord l
    · refine Bench.recordFrame_iteStep (Bench.recordFrame_iteStep (Bench.recordFrame_iteStep (Bench.recordFrame_iteStep (B.recordFrame_putRecord l) ?_) ?_) ?_) ?_
      · exact Bench.recordFrame_correctTag ..
      · exact Bench.recordFrame_correct ..
      · exact Bench.recordFrame_raise (Bench.recordFrame_trans (Bench.recordFrame_set ..) (ih ..)) _
      · exact Bench.recordFrame_raise (Bench.recordFrame_trans (Bench.recordFrame_set ..) (ih ..)) _

section
variable (B : Bench)

theorem Bench.recordFrame_violation (org : Word) (line mid kind : Nat) (u : Bool) (gen : Nat) (mask : Dword) :
    B.recordFrame (B.violation org line mid kind u gen mask) := Bench.recordFrame_recordAt ..

theorem Bench.recordFrame_tagError (t : Nat) : B.recordFrame (B.tagError t) :=
  Bench.recordFrame_raise (Bench.recordFrame_trans (Bench.recordFrame_set ..) (Bench.recordFrame_violation ..)) _
theorem Bench.recordFrame_detect (mid : Nat) (org : Word) (walk : Bool) (line : Nat) : B.recordFrame (B.detect mid org walk line) :=
  Bench.recordFrame_raise (Bench.recordFrame_trans (Bench.recordFrame_set ..) (Bench.recordFrame_violation ..)) _
theorem Bench.recordFrame_checkLine (mid : Nat) (org : Word) (walk : Bool) (pa : Nat) : B.recordFrame (B.checkLine mid org walk pa).2 :=
  Bench.recordFrame_iteStep (Bench.recordFrame_iteStep (Bench.recordFrame_iteStep (Bench.recordFrame_iteStep B.recordFrame_refl
    (Bench.recordFrame_correctTag ..)) (Bench.recordFrame_tagError ..)) (Bench.recordFrame_correct ..)) (Bench.recordFrame_detect ..)

/-! ## A unit's write (R409, R658) -/

theorem Bench.recordFrame_writeNormal (mid : Nat) (org : Word) (pa : Nat) (l : List Byte) : B.recordFrame (B.writeNormal mid org pa l) :=
  Bench.recordFrame_ite rfl (Bench.recordFrame_trans (B.recordFrame_checkLine mid org false pa) rfl)

theorem Bench.recordFrame_hostWrite (mid : Nat) (org : Word) (pa : Nat) (l : List Byte) : B.recordFrame (B.hostWrite mid org pa l) :=
  Bench.recordFrame_ite (Bench.recordFrame_raise (Bench.recordFrame_violation ..) _)
    (Bench.recordFrame_ite (Bench.recordFrame_raise B.recordFrame_refl _) rfl)

theorem Bench.recordFrame_writePart (mid : Nat) (org : Word) (pa : Nat) (l : List Byte) : B.recordFrame (B.writePart mid org pa l) := by
  unfold Bench.writePart
  refine Bench.recordFrame_ite (Bench.recordFrame_violation ..) ?_
  split
  · exact B.recordFrame_writeNormal ..
  · exact B.recordFrame_hostWrite ..
  · exact B.recordFrame_refl

theorem Bench.recordFrame_unitWrite (mid : Nat) (org : Word) (pa : Nat) (l : List Byte) : B.recordFrame (B.unitWrite mid org pa l) := by
  unfold Bench.unitWrite
  generalize splitLines pa l.length = parts
  induction parts generalizing B l with
  | nil => exact B.recordFrame_refl
  | cons p parts ih => exact Bench.recordFrame_trans (B.recordFrame_writePart ..) (ih ..)

/-! ## The journal (R585, R593, R598, R607) -/

theorem Bench.recordFrame_jrnAppend (reqid : BitVec 48) (type status : Byte) (origin tenant : Word) (tin : BitVec 96) (data : List Byte) :
    B.recordFrame (B.jrnAppend reqid type status origin tenant tin data) := Bench.recordFrame_trans (Bench.recordFrame_set ..) (Bench.recordFrame_unitWrite ..)

theorem Bench.recordFrame_jrnUnhold : B.recordFrame B.jrnUnhold := by
  unfold Bench.jrnUnhold
  split
  · exact B.recordFrame_refl
  · exact Bench.recordFrame_ite (Bench.recordFrame_trans (Bench.recordFrame_set ..) (Bench.recordFrame_jrnAppend ..)) B.recordFrame_refl

theorem Bench.recordFrame_jrnDrain : B.recordFrame B.jrnDrain := Bench.recordFrame_foldl (fun B _ => B.recordFrame_jrnUnhold) _ B
theorem Bench.recordFrame_jrnPut (r : HeldRecord) : B.recordFrame (B.jrnPut r) := Bench.recordFrame_trans (Bench.recordFrame_set ..) (Bench.recordFrame_jrnDrain _)

theorem Bench.recordFrame_timeStep (t : TimeState) : B.recordFrame (B.timeStep t) :=
  Bench.recordFrame_raise (Bench.recordFrame_trans (Bench.recordFrame_set ..) (Bench.recordFrame_jrnPut ..)) _

theorem Bench.recordFrame_drawBytes (n : Nat) : B.recordFrame (drawBytes n B).2 := by
  rw [drawBytes_eq]
  rfl

theorem Bench.recordFrame_partnerChange (s : BitVec 2) (status : Byte) : B.recordFrame (B.partnerChange s status) := by
  unfold Bench.partnerChange
  simp only [drawBytes_eq]
  exact Bench.recordFrame_raise (Bench.recordFrame_trans (Bench.recordFrame_set ..) (Bench.recordFrame_jrnPut ..)) _

theorem Bench.recordFrame_jrnWaiters : B.recordFrame B.jrnWaiters := by
  unfold Bench.jrnWaiters
  have hsteps := Bench.recordFrame_foldl (f := fun (B : Bench) _ => match B.time.setDue with
    | [] => B
    | x :: t => if B.jrnRoom 1 then ({ B with time := { B.time with setDue := t } }).timeSetStep x else B) (fun B _ => by
      dsimp only
      split
      · exact B.recordFrame_refl
      · exact Bench.recordFrame_ite (Bench.recordFrame_trans (Bench.recordFrame_set ..) (Bench.recordFrame_timeStep ..)) B.recordFrame_refl) B.time.setDue B
  dsimp only
  split
  · exact Bench.recordFrame_iteStep hsteps (Bench.recordFrame_partnerChange ..)
  · exact hsteps

theorem Bench.recordFrame_jrnSettle : B.recordFrame B.jrnSettle := by
  have h := Bench.recordFrame_trans B.recordFrame_jrnDrain (Bench.recordFrame_jrnWaiters _)
  exact Bench.recordFrame_ite (Bench.recordFrame_raise (Bench.recordFrame_trans h (Bench.recordFrame_set ..)) _) (Bench.recordFrame_trans h (Bench.recordFrame_set ..))

theorem Bench.recordFrame_jrnSystem (type status : Byte) (origin tenant : Word) (data : List Byte) :
    B.recordFrame (B.jrnSystem type status origin tenant data) := by
  unfold Bench.jrnSystem
  simp only [drawBytes_eq]
  exact Bench.recordFrame_trans (Bench.recordFrame_trans (Bench.recordFrame_set ..) (Bench.recordFrame_jrnPut ..)) (Bench.recordFrame_jrnSettle _)

@[simp] theorem Bench.jrnSystem_vault (type status : Byte) (origin tenant : Word) (data : List Byte) :
    (B.jrnSystem type status origin tenant data).vault = B.vault := Bench.recordFrame_vault (B.recordFrame_jrnSystem ..)
@[simp] theorem Bench.jrnSystem_ctl (type status : Byte) (origin tenant : Word) (data : List Byte) :
    (B.jrnSystem type status origin tenant data).ctl = B.ctl := Bench.recordFrame_ctl (B.recordFrame_jrnSystem ..)

end

end Sys2Proof.Machine

/-!
SUPPORT. The mailbox's commands on ceremonies and on the epoch (R439 to R447, R749): who runs one and who is refused, what the vault of the
named bench does with a ceremony, and the device's epoch advance.
-/

namespace Sys2Proof.Machine

@[simp] theorem Bench.idleExit_vault (B : Bench) : B.idleExit.vault = B.vault := by unfold Bench.idleExit; split <;> rfl

/-! ## A mailbox command that runs (R440, R667) -/

theorem State.mbxRuns_iff (s : State) (op : Nat) :
    s.mbxRuns op none = true ↔ s.dev.mbx.busy = true ∧ s.dev.mbx.op.toNat = op ∧ s.dev.dmcRuns = true := by
  simp [State.mbxRuns, and_assoc]
theorem State.mbxRuns_some_iff (s : State) (op sub : Nat) :
    s.mbxRuns op (some sub) = true ↔
      (s.dev.mbx.busy = true ∧ s.dev.mbx.op.toNat = op ∧ s.dev.dmcRuns = true) ∧ (s.dev.mbx.req.get 0 0).toNat = sub := by
  simp [State.mbxRuns, and_assoc]

section
variable {s : State}

theorem State.mbx_of_runs {op : Nat} {sub : Option Nat} {f : State → List Byte → State × Nat × List Byte} (h : s.mbxRuns op sub = true) :
    s.mbx op sub f = .next ((f s s.dev.mbx.request).1.mbxEnd (f s s.dev.mbx.request).2.1 (f s s.dev.mbx.request).2.2) := if_pos h

theorem bnum_first (l : List Byte) : bnum l 0 1 = (l.headD 0).toNat := by
  cases l <;> simp [bnum, leNat]

theorem State.namedBench_of_free {b : BenchNo} {n : Nat} (hn : n = b.val) (hfree : s.dev.held b = false) : s.namedBench n = some b := by
  subst hn
  simp [State.namedBench, hfree]
theorem State.namedBench_none {n : Nat} (h : ∀ k : BenchNo, k.val = n → s.dev.held k = true) : s.namedBench n = none := by
  unfold State.namedBench
  split
  next hlt => rw [if_pos (h ⟨n, hlt⟩ rfl)]
  next => rfl

/-! ### Commands that name a bench -/

section
variable {op len n : Nat} {f : State → BenchNo → Profile → List Byte → State × Nat × List Byte}

theorem State.ceremony_length (hruns : s.mbxRuns op none = true) (hlen : s.dev.mbx.request.length ≠ len) :
    s.ceremony op len n f = .next (s.mbxEnd 2 []) := by
  simp [State.ceremony, hruns, hlen]
theorem State.ceremony_no_bench (hruns : s.mbxRuns op none = true) (hlen : s.dev.mbx.request.length = len)
    (hbench : s.namedBench (s.dev.mbx.request.headD 0).toNat = none) : s.ceremony op len n f = .next (s.mbxEnd 5 []) := by
  simp only [State.ceremony, hruns, hlen, bnum_first, hbench, Bool.not_true, Bool.false_eq_true, if_false, ne_eq, not_true]
section
variable {b : BenchNo} (hruns : s.mbxRuns op none = true) (hlen : s.dev.mbx.request.length = len)
  (hbench : s.namedBench (s.dev.mbx.request.headD 0).toNat = some b)
include hruns hlen hbench

theorem State.ceremony_no_profile (hprof : s.dev.committed.bind (·.profile) = none) : s.ceremony op len n f = .next (s.mbxEnd 3 []) := by
  simp only [State.ceremony, hruns, hlen, bnum_first, hbench, hprof, Bool.not_true, Bool.false_eq_true, if_false, ne_eq, not_true]

variable {p : Profile} (hprof : s.dev.committed.bind (·.profile) = some p)
include hprof

/-- A bench that has no room for the command's records: the command waits. -/
theorem State.ceremony_waits (halive : (s.bench b).alive = true) (hroom : (s.bench b).jrnRoom n = false) : s.ceremony op len n f = .next s := by
  simp only [State.ceremony, hruns, hlen, bnum_first, hbench, hprof, halive, hroom, Bool.not_true, Bool.not_false, Bool.and_self, Bool.false_eq_true,
    if_false, if_true, ne_eq, not_true]
/-- A bench that is named, is free and has room for its records: the command runs on it. -/
theorem State.ceremony_runs (hroom : (s.bench b).alive = false ∨ (s.bench b).jrnRoom n = true) {t : State} {r : Nat} {resp : List Byte}
    (h : f s b p s.dev.mbx.request = (t, r, resp)) : s.ceremony op len n f = .next (t.mbxEnd r resp) := by
  have hgo : ((s.bench b).alive && !(s.bench b).jrnRoom n) = false := by obtain h | h := hroom <;> simp [h]
  simp only [State.ceremony, hruns, hlen, bnum_first, hbench, hprof, hgo, h, Bool.not_true, Bool.false_eq_true, if_false, ne_eq, not_true]

end

end

end

/-! ## The vault's ceremony (R439 to R445) -/

section
variable (B : Bench)

@[simp] theorem Bench.cerRecord_vault (type : Byte) (custodian share check : Nat) (cv : List Byte) (mask : Nat) :
    (B.cerRecord type custodian share check cv mask).vault = B.vault := by simp [Bench.cerRecord]
@[simp] theorem Bench.cerRecord_ctl (type : Byte) (custodian share check : Nat) (cv : List Byte) (mask : Nat) :
    (B.cerRecord type custodian share check cv mask).ctl = B.ctl := by simp [Bench.cerRecord]

@[simp] theorem Bench.cerEnd_vault (journal : Bool) : (B.cerEnd journal).vault = { B.vault with ceremony := none } := by
  unfold Bench.cerEnd
  split
  next h => rw [← h]
  next => cases journal <;> simp

end

section
variable {B : Bench}

/-- The vault opens no ceremony while one stands, while a previous key is kept, outside RUN, or without the DRBG. -/
theorem Bench.cerOpen_refused (nonce : List Byte) (check : Option (List Byte))
    (h : B.vault.ceremony ≠ none ∨ B.vault.previous ≠ none ∨ B.running = false ∨ B.drbg.inst = false ∨ B.drbg.error = true) :
    B.cerOpen nonce check = (none, B) := by
  unfold Bench.cerOpen
  split
  · rfl
  next hopen =>
    simp only [Bool.or_eq_true, not_or, Bool.not_eq_true, Option.isSome_eq_false_iff, Option.isNone_iff_eq_none, Bool.not_eq_false'] at hopen
    obtain ⟨⟨hcer, hprev⟩, hrun⟩ := hopen
    have hdead : B.drbg.live = false := by
      simp only [hcer, hprev, hrun, ne_eq, not_true, false_or, Bool.true_eq_false] at h
      obtain h | h := h <;> simp [Drbg.live, h]
    rw [Bench.drbgDraw, if_pos (by simp [hdead])]

/-- The ceremony that the vault opens, with the keys it drew. -/
theorem Bench.cerOpen_opens (nonce : List Byte) (check : Option (List Byte)) (hcer : B.vault.ceremony = none) (hprev : B.vault.previous = none)
    (hrun : B.running = true) (hlive : B.drbg.live = true) :
    ∃ (c : Ceremony) (E : Bench), B.cerOpen nonce check = (some (x25519Base c.xPriv, kemPublic 0x25 c.kemSeed), E)
      ∧ E.vault.ceremony = some c ∧ E.ctl = B.ctl ∧ c.nonce = nonce ∧ c.shares = [] ∧ c.since = B.time.elapsed := by
  obtain ⟨r, d, f, hdraw⟩ := drbgDraw_live 96 hlive
  refine ⟨{ nonce := nonce, check := check, xPriv := r.take 32, kemSeed := r.drop 32, since := B.time.elapsed, shares := [] }, ?_⟩
  simp only [Bench.cerOpen, hcer, hprev, hrun, hdraw, Option.isSome_none, Bool.not_true, Bool.or_false, Bool.false_eq_true, if_false]
  exact ⟨_, rfl, by rw [Bench.cerRecord_vault], by rw [Bench.cerRecord_ctl], trivial, trivial, trivial⟩

section
variable {p : Profile} {c : Ceremony} {pkg ecdsa mldsa : List Byte}

/-- The response to CER_SHARE (R440). -/
def cerResponse (p : Profile) (outcome n : Nat) (cv : List Byte) : List Byte :=
  [BitVec.ofNat 8 outcome, BitVec.ofNat 8 n, BitVec.ofNat 8 p.quorum, 0] ++ cv ++ zeros 7

/-- The ceremony with one more share of the package's custodian. -/
def Ceremony.withShare (c : Ceremony) (pkg v : List Byte) : Ceremony :=
  { c with shares := c.shares ++ [((pkg.getD 36 0).toNat, (pkg.getD 37 0).toNat, v)] }

/-- The bench after a share was accepted (R442). -/
def Bench.shareTaken (B : Bench) (c : Ceremony) (pkg v : List Byte) : Bench :=
  ({ B with vault := { B.vault with ceremony := some (c.withShare pkg v) } }).cerRecord 0x21 (pkg.getD 36 0).toNat (pkg.getD 37 0).toNat 0 []
    (c.withShare pkg v).mask

@[simp] theorem Bench.shareTaken_vault (v : List Byte) : (B.shareTaken c pkg v).vault = { B.vault with ceremony := some (c.withShare pkg v) } :=
  Bench.cerRecord_vault ..
@[simp] theorem Bench.shareTaken_ctl (v : List Byte) : (B.shareTaken c pkg v).ctl = B.ctl := Bench.cerRecord_ctl ..

theorem Bench.cerShare_error {n : Nat} (h : B.cerCheck p c pkg ecdsa mldsa = .error n) :
    B.cerShare p c pkg ecdsa mldsa = (cerResponse p (16 + n) c.shares.length (zeros 5),
      B.cerRecord 0x22 (pkg.getD 36 0).toNat (pkg.getD 37 0).toNat n [] c.mask) := by
  simp only [Bench.cerShare, h]
  rfl
theorem Bench.cerShare_more {v : List Byte} (h : B.cerCheck p c pkg ecdsa mldsa = .ok v) (hmore : (c.withShare pkg v).shares.length < p.quorum) :
    B.cerShare p c pkg ecdsa mldsa = (cerResponse p 0 (c.withShare pkg v).shares.length (zeros 5), B.shareTaken c pkg v) := by
  simp only [Bench.cerShare, h]
  exact if_pos hmore
theorem Bench.cerShare_quorum {v : List Byte} (h : B.cerCheck p c pkg ecdsa mldsa = .ok v) (hquorum : p.quorum ≤ (c.withShare pkg v).shares.length) :
    B.cerShare p c pkg ecdsa mldsa =
      let r := (B.shareTaken c pkg v).cerFinish (c.withShare pkg v)
      (cerResponse p r.1.1 (c.withShare pkg v).shares.length r.1.2, r.2) := by
  simp only [Bench.cerShare, h]
  exact if_neg (Nat.not_lt.mpr hquorum)

/-- The key that the ceremony's shares make. -/
def Ceremony.key (c : Ceremony) : List Byte := shamir (c.shares.map fun s => s.2)

/-- A key whose check value the ceremony does not contradict becomes CURRENT (R443). -/
theorem Bench.cerFinish_installs (h : c.check = none ∨ c.check = some (checkValue c.key)) :
    ∃ E : Bench, B.cerFinish c = ((1, checkValue c.key), E)
      ∧ E.vault = { B.vault with
          ceremony := none, current := some c.key, bbEpoch := B.ctl.epoch
          previous := if B.vault.current = none then B.vault.previous else B.vault.current } := by
  have hfit : ¬(c.check.isSome && c.check ≠ some (checkValue c.key)) = true := by obtain h | h := h <;> simp [h]
  refine ⟨_, if_neg hfit, ?_⟩
  rw [Bench.cerRecord_vault]
  cases hcur : B.vault.current <;> simp [Ceremony.key]

theorem Bench.cerFinish_contradicted (hnone : c.check ≠ none) (h : c.check ≠ some (checkValue c.key)) :
    ∃ E : Bench, B.cerFinish c = ((2, zeros 5), E) ∧ E.vault = { B.vault with ceremony := none } := by
  refine ⟨_, if_pos ?_, by rw [Bench.cerRecord_vault]⟩
  simp only [Bool.and_eq_true, decide_eq_true_eq]
  exact ⟨Option.isSome_iff_ne_none.mpr hnone, h⟩

end

end

end Sys2Proof.Machine

/-!
SUPPORT. The ceremony commands on a bench, the ceremony's timeout and the device's epoch advance (R439 to R447, R749).
-/

namespace Sys2Proof.Machine

/-! ## What the mailbox's ceremony commands do to the device -/

section
variable {s : State} {b : BenchNo} {p : Profile} {l : List Byte}

/-- The device's signatures follow what they cover, and draw from the device alone. -/
theorem State.attest_eq (s : State) (ctx : String) (m : List Byte) (chained : Bool) :
    ∃ (e q : List Byte) (t : State), s.attest ctx m chained = (m ++ e ++ q, t) ∧ t.benches = s.benches := ⟨_, _, _, rfl, rfl⟩

theorem State.cerOpen_tampered (h : s.dev.tamper.tampered = true) : s.cerOpen b p l = (s, 3, []) := if_pos h
theorem State.cerOpen_refused (ht : s.dev.tamper.tampered = false)
    (h : (s.bench b).idleExit.vault.ceremony ≠ none ∨ (s.bench b).idleExit.vault.previous ≠ none ∨ (s.bench b).idleExit.running = false
      ∨ (s.bench b).idleExit.drbg.inst = false ∨ (s.bench b).idleExit.drbg.error = true) :
    s.cerOpen b p l = (s.setBench b (s.bench b).idleExit, 3, []) := by
  simp only [State.cerOpen, ht, Bool.false_eq_true, if_false, Bench.cerOpen_refused _ _ h]
theorem State.cerOpen_opens (ht : s.dev.tamper.tampered = false) (hcer : (s.bench b).idleExit.vault.ceremony = none)
    (hprev : (s.bench b).idleExit.vault.previous = none) (hrun : (s.bench b).idleExit.running = true)
    (hlive : (s.bench b).idleExit.drbg.live = true) :
    ∃ (t : State) (c : Ceremony) (e q : List Byte), s.cerOpen b p l = (t, 0, [1, 0, BitVec.ofNat 8 b.val, (s.bench b).idleExit.ctl.epoch.zeroExtend 8]
          ++ c.nonce ++ serial ++ x25519Base c.xPriv ++ kemPublic 0x25 c.kemSeed ++ e ++ q)
      ∧ (t.bench b).vault.ceremony = some c ∧ c.nonce = (l.drop 4).take 32 ∧ c.shares = [] ∧ c.since = (s.bench b).time.elapsed := by
  obtain ⟨c, E, hopen, hcerE, hctl, hnonce, hshares, hsince⟩ := Bench.cerOpen_opens ((l.drop 4).take 32)
    (if bnum l 36 1 % 2 = 1 then some ((l.drop 37).take 5) else none) hcer hprev hrun hlive
  obtain ⟨e, q, t, hattest, hbenches⟩ := (s.setBench b E).attest_eq "KX8112 COP"
    ([1, 0, BitVec.ofNat 8 b.val, (s.bench b).idleExit.ctl.epoch.zeroExtend 8] ++ c.nonce ++ serial ++ x25519Base c.xPriv ++ kemPublic 0x25 c.kemSeed) false
  have hbench : t.bench b = E := by rw [State.bench, hbenches]; exact State.bench_setBench_self ..
  refine ⟨t, c, e, q, ?_, hbench ▸ hcerE, hnonce, hshares, hsince.trans (by rw [Bench.idleExit_time])⟩
  have hword : leBytes 2 1 ++ [BitVec.ofNat 8 b.val, E.ctl.epoch.zeroExtend 8] = [1, 0, BitVec.ofNat 8 b.val, (s.bench b).idleExit.ctl.epoch.zeroExtend 8] := by
    rw [hctl]; rfl
  rw [← hnonce] at hopen
  simp only [State.cerOpen, ht, Bool.false_eq_true, if_false, ← hnonce, hopen, hword, hattest]

theorem State.cerShare_none (h : (s.bench b).vault.ceremony = none) : s.cerShare b p l = (s, 3, []) := by simp only [State.cerShare, h]
theorem State.cerShare_some {c : Ceremony} (h : (s.bench b).vault.ceremony = some c) :
    s.cerShare b p l =
      let r := (s.bench b).idleExit.cerShare p c ((l.drop 16).take 4616) ((l.drop 4632).take 97) ((l.drop 4729).take 1952)
      (s.setBench b r.2, 0, r.1) := by simp only [State.cerShare, h]

theorem State.cerAbort_none (h : (s.bench b).vault.ceremony = none) : s.cerAbort b p l = (s, 3, []) := by simp [State.cerAbort, h]
theorem State.cerAbort_some (h : (s.bench b).vault.ceremony ≠ none) :
    s.cerAbort b p l = (s.setBench b ((s.bench b).idleExit.cerEnd true), 0, []) := if_neg (by simpa using h)

end

/-! ## The ceremony commands (R440) -/

/-- A ceremony command of the mailbox, with its opcode, its request's length and the records it needs room for. -/
theorem exec_ceremony {i : Instr} {op len n : Nat}
    (h : (i, op, len, n) ∈ [(Instr.cerOpen, 0x20, 48, 1), (.cerShare, 0x21, 6681, 2), (.cerAbort, 0x22, 4, 1)]) (s : State) :
    ∃ f, exec i s = s.ceremony op len n f := by
  simp only [List.mem_cons, Prod.mk.injEq, List.not_mem_nil, or_false] at h
  obtain ⟨rfl, rfl, rfl, rfl⟩ | ⟨rfl, rfl, rfl, rfl⟩ | ⟨rfl, rfl, rfl, rfl⟩ := h
  · exact ⟨State.cerOpen, exec_cerOpen s⟩
  · exact ⟨State.cerShare, exec_cerShare s⟩
  · exact ⟨State.cerAbort, exec_cerAbort s⟩

theorem State.ceremony_refusals {s : State} {b : BenchNo} {op len n : Nat} {f : State → BenchNo → Profile → List Byte → State × Nat × List Byte}
    (hruns : s.mbxRuns op none = true) :
    let l := s.dev.mbx.request
    (l.length ≠ len → s.ceremony op len n f = .next (s.mbxEnd 2 []))
    ∧ (l.length = len → (∀ k : BenchNo, k.val = (l.headD 0).toNat → s.dev.held k = true) → s.ceremony op len n f = .next (s.mbxEnd 5 []))
    ∧ (l.length = len → (l.headD 0).toNat = b.val → s.dev.held b = false → s.dev.committed.bind (·.profile) = none →
        s.ceremony op len n f = .next (s.mbxEnd 3 []))
    ∧ (l.length = len → (l.headD 0).toNat = b.val → s.dev.held b = false → s.dev.committed.bind (·.profile) ≠ none → (s.bench b).alive = true →
        (s.bench b).jrnRoom n = false → s.ceremony op len n f = .next s) := by
  refine ⟨State.ceremony_length hruns, fun hlen hheld => State.ceremony_no_bench hruns hlen (State.namedBench_none hheld),
    fun hlen hb hfree hprof => ?_, fun hlen hb hfree hprof halive hroom => ?_⟩
  · exact State.ceremony_no_profile hruns hlen (State.namedBench_of_free hb hfree) hprof
  · obtain ⟨p, hprof⟩ := Option.ne_none_iff_exists'.mp hprof
    exact State.ceremony_waits hruns hlen (State.namedBench_of_free hb hfree) hprof halive hroom

/-! ### Timeout (R445) -/

section
variable {s : State} {b : BenchNo}

theorem execCeremonyTimeout_of_alive (h : (s.bench b).alive = true) :
    execCeremonyTimeout b s = s.gives b ((s.bench b).cerTimeout (((s.dev.committed.bind (·.profile)).map (·.timeout)).getD 0)) := by
  rw [execCeremonyTimeout, State.onAlive_of_alive h]
  cases s.dev.committed.bind (·.profile) <;> rfl

end

section
variable {B : Bench} {c : Ceremony} {seconds : Nat}

theorem Bench.cerTimeout_none (h : B.vault.ceremony = none) : B.cerTimeout seconds = B := by simp only [Bench.cerTimeout, h]
theorem Bench.cerTimeout_early (h : B.vault.ceremony = some c) (hearly : B.time.elapsed - c.since < seconds * 1000000) : B.cerTimeout seconds = B := by
  simp only [Bench.cerTimeout, h, hearly, if_true]
theorem Bench.cerTimeout_late (h : B.vault.ceremony = some c) (hlate : seconds * 1000000 ≤ B.time.elapsed - c.since) :
    B.cerTimeout seconds = B.cerEnd true := by
  simp only [Bench.cerTimeout, h, Nat.not_lt.mpr hlate, if_false]

end

/-! ## The epoch advance (R446, R447) -/

section
variable {s : State} {p : Profile} {a : EpochAdvance} {l : List Byte}

theorem State.epochOpen_length (h : l.length ≠ 4) : s.epochOpen l = (s, 2, []) := if_pos h
theorem State.epochOpen_refused (hlen : l.length = 4) (h : s.dev.committed.bind (·.profile) = none ∨ 64 ≤ s.dev.fuses.epoch) :
    s.epochOpen l = (s, 3, []) := by
  simp only [State.epochOpen, hlen, ne_eq, not_true, if_false]
  cases hprof : s.dev.committed.bind (·.profile) with
  | none => rfl
  | some p => exact if_pos (h.resolve_left (by simp [hprof]))
theorem State.epochOpen_opens (hlen : l.length = 4) (hprof : s.dev.committed.bind (·.profile) = some p) (hepoch : s.dev.fuses.epoch < 64) :
    ∃ (t : State) (n : List Byte), s.epochOpen l = (t, 0, n ++ serial ++ [BitVec.ofNat 8 s.dev.fuses.epoch, BitVec.ofNat 8 p.quorum,
        BitVec.ofNat 8 p.custodians.length, 0])
      ∧ n.length = 32 ∧ t.benches = s.benches ∧ t.dev.epochAdv = some { nonce := n, signed := [], since := s.dev.elapsed } := by
  simp only [State.epochOpen, hlen, hprof, Nat.not_le.mpr hepoch, ne_eq, not_true, if_false]
  exact ⟨_, _, rfl, (List.length_map _).trans List.length_range, rfl, rfl⟩

@[simp] theorem State.advanceEpoch_epochAdv (s : State) : s.advanceEpoch.dev.epochAdv = s.dev.epochAdv := rfl
@[simp] theorem State.advanceEpoch_epoch (s : State) : s.advanceEpoch.dev.fuses.epoch = s.dev.fuses.epoch + 1 := rfl
@[simp] theorem State.advanceEpoch_bench (s : State) (k : BenchNo) : s.advanceEpoch.bench k = (s.bench k).newEpoch (s.dev.fuses.epoch + 1) :=
  State.bench_allBenches ..

/-- What a custodian signs to advance the epoch (R447). -/
def EpochAdvance.message (a : EpochAdvance) (e : Nat) : List Byte :=
  a.nonce ++ serial ++ [BitVec.ofNat 8 e, BitVec.ofNat 8 (e + 1)] ++ zeros 10

theorem State.epochSign_message (h : (l.drop 4).take 60 ≠ a.message s.dev.fuses.epoch) : s.epochSign p a l = (s, 3, []) := if_pos h

section
variable {k : Custodian} (hmsg : (l.drop 4).take 60 = a.message s.dev.fuses.epoch) (hcust : p.custodians[(l.getD 1 0).toNat]? = some k)
  (hkeys : k.keysMatch ((l.drop 3472).take 97) ((l.drop 3569).take 1952) = true) (hnew : a.signed.contains (l.getD 1 0).toNat = false)
  (hsigns : custodianSigns ((l.drop 3472).take 97) ((l.drop 3569).take 1952) (ascii "KX8112 EPO") ((l.drop 4).take 60) ((l.drop 64).take 96)
    ((l.drop 160).take 3309) = true)
include hmsg hcust hkeys hnew hsigns

theorem State.epochSign_more (h : (a.signed ++ [(l.getD 1 0).toNat]).length < p.quorum) :
    s.epochSign p a l = ({ s with dev := { s.dev with epochAdv := some { a with signed := a.signed ++ [(l.getD 1 0).toNat] } } }, 0,
      [BitVec.ofNat 8 (a.signed ++ [(l.getD 1 0).toNat]).length, BitVec.ofNat 8 p.quorum, 0, BitVec.ofNat 8 s.dev.fuses.epoch]) := by
  rw [EpochAdvance.message] at hmsg
  rw [hmsg] at hsigns
  simp only [State.epochSign, hcust, hkeys, hnew, hsigns, Nat.not_le.mpr h, hmsg, ne_eq, not_true, decide_false, Bool.not_true,
    Bool.false_eq_true, if_false]
theorem State.epochSign_quorum (h : p.quorum ≤ (a.signed ++ [(l.getD 1 0).toNat]).length) :
    s.epochSign p a l = (State.advanceEpoch { s with dev := { s.dev with epochAdv := none } }, 0,
      [BitVec.ofNat 8 (a.signed ++ [(l.getD 1 0).toNat]).length, BitVec.ofNat 8 p.quorum, 1, BitVec.ofNat 8 (s.dev.fuses.epoch + 1)]) := by
  rw [EpochAdvance.message] at hmsg
  rw [hmsg] at hsigns
  simp only [State.epochSign, hcust, hkeys, hnew, hsigns, h, hmsg, ne_eq, not_true, decide_true, Bool.not_true,
    Bool.false_eq_true, if_false, if_true, State.advanceEpoch_epoch]

end

end

end Sys2Proof.Machine

/-!
SUPPORT. CER_SHARE on a bench with a ceremony, and the epoch advance as the mailbox runs it; O44.
-/

namespace Sys2Proof.Machine

/-! ## CER_SHARE on a bench with a ceremony (R440 to R443) -/

/-- A share's response without a check value. -/
theorem cerResponse_zero (p : Profile) (outcome n : Nat) :
    cerResponse p outcome n (zeros 5) = [BitVec.ofNat 8 outcome, BitVec.ofNat 8 n, BitVec.ofNat 8 p.quorum] ++ List.replicate 13 0 := rfl

section
variable {s : State} {b : BenchNo} {p : Profile} {l : List Byte} {c : Ceremony} (hcer : (s.bench b).vault.ceremony = some c)
include hcer

theorem State.cerShare_error {n : Nat}
    (h : (s.bench b).idleExit.cerCheck p c ((l.drop 16).take 4616) ((l.drop 4632).take 97) ((l.drop 4729).take 1952) = .error n) :
    ∃ E : Bench, s.cerShare b p l = (s.setBench b E, 0,
        [BitVec.ofNat 8 (16 + n), BitVec.ofNat 8 c.shares.length, BitVec.ofNat 8 p.quorum] ++ List.replicate 13 0)
      ∧ E.vault.ceremony = some c := by
  rw [State.cerShare_some hcer, Bench.cerShare_error h]
  exact ⟨_, rfl, by rw [Bench.cerRecord_vault, Bench.idleExit_vault, hcer]⟩

section
variable {v : List Byte}
  (hok : (s.bench b).idleExit.cerCheck p c ((l.drop 16).take 4616) ((l.drop 4632).take 97) ((l.drop 4729).take 1952) = .ok v)
include hok

theorem State.cerShare_more (hmore : (c.withShare ((l.drop 16).take 4616) v).shares.length < p.quorum) :
    ∃ E : Bench, s.cerShare b p l = (s.setBench b E, 0,
        [0, BitVec.ofNat 8 (c.withShare ((l.drop 16).take 4616) v).shares.length, BitVec.ofNat 8 p.quorum] ++ List.replicate 13 0)
      ∧ E.vault.ceremony = some (c.withShare ((l.drop 16).take 4616) v) := by
  rw [State.cerShare_some hcer, Bench.cerShare_more hok hmore]
  exact ⟨_, rfl, by rw [Bench.shareTaken_vault]⟩

theorem State.cerShare_installs (hquorum : p.quorum ≤ (c.withShare ((l.drop 16).take 4616) v).shares.length)
    (hcheck : c.check = none ∨ c.check = some (checkValue (c.withShare ((l.drop 16).take 4616) v).key)) :
    ∃ (E : Bench) (resp : List Byte), s.cerShare b p l = (s.setBench b E, 0, resp) ∧ E.vault.ceremony = none
      ∧ E.vault.current = some (c.withShare ((l.drop 16).take 4616) v).key ∧ E.vault.bbEpoch = (s.bench b).idleExit.ctl.epoch
      ∧ E.vault.previous = (if (s.bench b).idleExit.vault.current = none then (s.bench b).idleExit.vault.previous else (s.bench b).idleExit.vault.current)
      ∧ resp.headD 0 = 1 := by
  obtain ⟨E, hfinish, hvault⟩ :=
    Bench.cerFinish_installs (B := (s.bench b).idleExit.shareTaken c ((l.drop 16).take 4616) v) (c := c.withShare ((l.drop 16).take 4616) v) hcheck
  rw [Bench.shareTaken_vault, Bench.shareTaken_ctl] at hvault
  rw [State.cerShare_some hcer, Bench.cerShare_quorum hok hquorum, hfinish]
  exact ⟨E, _, rfl, by rw [hvault], by rw [hvault], by rw [hvault], by rw [hvault], rfl⟩

theorem State.cerShare_contradicted (hquorum : p.quorum ≤ (c.withShare ((l.drop 16).take 4616) v).shares.length) (hnone : c.check ≠ none)
    (hcheck : c.check ≠ some (checkValue (c.withShare ((l.drop 16).take 4616) v).key)) :
    ∃ (E : Bench) (resp : List Byte), s.cerShare b p l = (s.setBench b E, 0, resp) ∧ E.vault.ceremony = none
      ∧ E.vault.current = (s.bench b).idleExit.vault.current ∧ resp.headD 0 = 2 := by
  obtain ⟨E, hfinish, hvault⟩ := Bench.cerFinish_contradicted (B := (s.bench b).idleExit.shareTaken c ((l.drop 16).take 4616) v)
    (c := c.withShare ((l.drop 16).take 4616) v) hnone hcheck
  rw [Bench.shareTaken_vault] at hvault
  rw [State.cerShare_some hcer, Bench.cerShare_quorum hok hquorum, hfinish]
  exact ⟨E, _, rfl, by rw [hvault], by rw [hvault], rfl⟩

end

end

/-! ## The epoch advance as the mailbox runs it (R447) -/

section
variable {s : State}

theorem exec_epochAdvanceOpen_of_runs (hruns : s.mbxRuns 0x23 (some 1) = true) {t : State} {r : Nat} {resp : List Byte}
    (h : s.epochOpen s.dev.mbx.request = (t, r, resp)) : exec .epochAdvanceOpen s = .next (t.mbxEnd r resp) :=
  (State.mbx_of_runs (f := State.epochOpen) hruns).trans (by rw [h])

theorem State.benches_any {q : Bench → Bool} : s.benches.toList.any q = true ↔ ∃ k, q (s.bench k) = true := by
  simp [Vector.any_eq_true, State.bench, Fin.exists_iff]

theorem exec_epochAdvanceSign_waits (h : ∃ k, (s.bench k).alive = true ∧ (s.bench k).jrnRoom 1 = false) : exec .epochAdvanceSign s = .next s := by
  obtain ⟨k, halive, hroom⟩ := h
  exact if_pos (State.benches_any.mpr ⟨k, by simp [halive, hroom]⟩)

theorem State.no_bench_waits (hroom : ∀ k, (s.bench k).alive = false ∨ (s.bench k).jrnRoom 1 = true) :
    ¬(s.benches.toList.any fun B => B.alive && !B.jrnRoom 1) = true := by
  rw [State.benches_any]
  rintro ⟨k, hk⟩
  obtain h | h := hroom k <;> simp [h] at hk

section
variable (hruns : s.mbxRuns 0x23 (some 2) = true) (hroom : ∀ k, (s.bench k).alive = false ∨ (s.bench k).jrnRoom 1 = true)
include hruns hroom

theorem exec_epochAdvanceSign_length (hlen : s.dev.mbx.request.length ≠ 5524) : exec .epochAdvanceSign s = .next (s.mbxEnd 2 []) := by
  rw [exec_epochAdvanceSign, execEpochAdvanceSign, if_neg (State.no_bench_waits hroom), State.mbx_of_runs hruns, if_pos hlen]

section
variable (hlen : s.dev.mbx.request.length = 5524)
include hlen

theorem exec_epochAdvanceSign_refused (h : s.dev.committed.bind (·.profile) = none ∨ s.dev.epochAdv = none) :
    exec .epochAdvanceSign s = .next (s.mbxEnd 3 []) := by
  rw [exec_epochAdvanceSign, execEpochAdvanceSign, if_neg (State.no_bench_waits hroom), State.mbx_of_runs hruns, if_neg (not_not_intro hlen)]
  cases hprof : s.dev.committed.bind (·.profile) with
  | none => rfl
  | some p => rw [h.resolve_left (by simp [hprof])]
theorem exec_epochAdvanceSign_signs {p : Profile} {a : EpochAdvance} (hprof : s.dev.committed.bind (·.profile) = some p) (hadv : s.dev.epochAdv = some a)
    {t : State} {r : Nat} {resp : List Byte} (h : s.epochSign p a s.dev.mbx.request = (t, r, resp)) :
    exec .epochAdvanceSign s = .next (t.mbxEnd r resp) := by
  rw [exec_epochAdvanceSign, execEpochAdvanceSign, if_neg (State.no_bench_waits hroom), State.mbx_of_runs hruns]
  simp only [hlen, hprof, hadv, h, ne_eq, not_true, if_false]

end

end

theorem exec_epochAdvanceCancel_of_runs (hruns : s.mbxRuns 0x23 (some 3) = true) :
    (s.dev.mbx.request.length ≠ 4 → exec .epochAdvanceCancel s = .next (s.mbxEnd 2 []))
    ∧ (s.dev.mbx.request.length = 4 → s.dev.epochAdv = none → exec .epochAdvanceCancel s = .next (s.mbxEnd 3 []))
    ∧ (s.dev.mbx.request.length = 4 → s.dev.epochAdv ≠ none →
        exec .epochAdvanceCancel s = .next (State.mbxEnd { s with dev := { s.dev with epochAdv := none } } 0 [])) := by
  rw [exec_epochAdvanceCancel, execEpochAdvanceCancel, State.mbx_of_runs hruns]
  refine ⟨fun hlen => ?_, fun hlen hadv => ?_, fun hlen hadv => ?_⟩
  · rw [if_pos hlen]
  · rw [if_neg (not_not_intro hlen), if_pos (by rw [hadv]; rfl)]
  · rw [if_neg (not_not_intro hlen), if_neg (by simpa using hadv)]

theorem exec_epochAdvanceTimeout_some {p : Profile} {a : EpochAdvance} (hadv : s.dev.epochAdv = some a)
    (hprof : s.dev.committed.bind (·.profile) = some p) :
    exec .epochAdvanceTimeout s =
      if s.dev.elapsed - a.since < p.timeout * 1000000 then .next s else .next { s with dev := { s.dev with epochAdv := none } } := by
  rw [exec_epochAdvanceTimeout, execEpochAdvanceTimeout, hadv, hprof]
theorem exec_epochAdvanceTimeout_none (hadv : s.dev.epochAdv = none) : exec .epochAdvanceTimeout s = .next s := by
  rw [exec_epochAdvanceTimeout, execEpochAdvanceTimeout, hadv]

end

/-! ## O44 -/

/-- Settles O44: each command is the mailbox's wrapper, the refusals of `State.ceremony`, around what the vault does with its ceremony or the
device with its advance. -/
theorem ceremoniesAndEpochs : Obligations.CeremoniesAndEpochs := by
  unfold Obligations.CeremoniesAndEpochs
  intro s b
  refine ⟨?_, ?_, ?_, ?_, exec_epochAdvanceSign_waits, ?_, ?_, ?_, exec_epochAdvanceTimeout_none⟩
  case refine_1 =>
    intro i op len n hmem hruns
    obtain ⟨f, hf⟩ := exec_ceremony hmem s
    dsimp only
    rw [hf]
    exact State.ceremony_refusals (s.mbxRuns_iff op |>.mpr hruns)
  case refine_2 =>
    intro p hprof hfree hhead
    have hbench := State.namedBench_of_free hhead hfree
    refine ⟨fun hruns hlen hroom => ?_, fun hruns hlen hroom => ?_, fun hruns hlen hroom => ?_⟩
    case refine_1 =>
      have hexec := fun {t r resp} => State.ceremony_runs (f := State.cerOpen) (s.mbxRuns_iff 0x20 |>.mpr hruns) hlen hbench hprof hroom (t := t) (r := r) (resp := resp)
      refine ⟨fun ht => hexec (State.cerOpen_tampered ht), fun ht h => hexec (State.cerOpen_refused ht h), fun ht hcer hprev hrun hinst herr => ?_⟩
      obtain ⟨t, c, e, q, hopen, hopened⟩ := State.cerOpen_opens (p := p) (l := s.dev.mbx.request) ht hcer hprev hrun (by simp [Drbg.live, hinst, herr])
      exact ⟨t, c, e, q, hexec hopen, hopened⟩
    case refine_2 =>
      have hexec := fun {t r resp} => State.ceremony_runs (f := State.cerShare) (s.mbxRuns_iff 0x21 |>.mpr hruns) hlen hbench hprof hroom (t := t) (r := r) (resp := resp)
      refine ⟨fun hcer => hexec (State.cerShare_none hcer), fun c hcer => ⟨fun n hcheck => ?_, fun v hcheck => ⟨fun hmore => ?_, fun hquorum hfit => ?_,
        fun hquorum hnone hfit => ?_⟩⟩⟩
      · obtain ⟨E, hshare, hE⟩ := State.cerShare_error hcer hcheck
        exact ⟨E, hexec hshare, hE⟩
      · obtain ⟨E, hshare, hE⟩ := State.cerShare_more hcer hcheck hmore
        exact ⟨E, hexec hshare, hE⟩
      · obtain ⟨E, resp, hshare, hE⟩ := State.cerShare_installs hcer hcheck hquorum hfit
        exact ⟨E, resp, hexec hshare, hE⟩
      · obtain ⟨E, resp, hshare, hE⟩ := State.cerShare_contradicted hcer hcheck hquorum hnone hfit
        exact ⟨E, resp, hexec hshare, hE⟩
    case refine_3 =>
      have hexec := fun {t r resp} => State.ceremony_runs (f := State.cerAbort) (s.mbxRuns_iff 0x22 |>.mpr hruns) hlen hbench hprof hroom (t := t) (r := r) (resp := resp)
      refine ⟨fun hcer => hexec (State.cerAbort_none hcer), fun hcer => ⟨_, hexec (State.cerAbort_some hcer), ?_, ?_⟩⟩
      · rw [Bench.cerEnd_vault]
      · rw [Bench.cerEnd_vault, Bench.idleExit_vault]
  case refine_3 =>
    intro halive
    rw [exec_ceremonyTimeout, execCeremonyTimeout_of_alive halive]
    refine ⟨fun c hcer hlate => ⟨_, by rw [Bench.cerTimeout_late hcer hlate], by rw [Bench.cerEnd_vault]⟩, fun c hcer hearly => ?_, fun hcer => ?_⟩
    · rw [Bench.cerTimeout_early hcer hearly, State.gives_bench]
    · rw [Bench.cerTimeout_none hcer, State.gives_bench]
  case refine_4 =>
    intro hruns
    have hexec := fun {t r resp} => exec_epochAdvanceOpen_of_runs (s.mbxRuns_some_iff 0x23 1 |>.mpr hruns) (t := t) (r := r) (resp := resp)
    refine ⟨fun hlen => hexec (State.epochOpen_length hlen), fun hlen h => hexec (State.epochOpen_refused hlen h), fun p hlen hprof hepoch => ?_⟩
    obtain ⟨t, n, hopen, hn, hbenches, hadv⟩ := State.epochOpen_opens hlen hprof hepoch
    exact ⟨t, n, hn, hbenches, hexec hopen, hadv⟩
  case refine_5 =>
    intro hruns hroom
    have hruns := s.mbxRuns_some_iff 0x23 2 |>.mpr hruns
    refine ⟨exec_epochAdvanceSign_length hruns hroom, exec_epochAdvanceSign_refused hruns hroom, fun p a hlen hprof hadv => ?_⟩
    have hexec := fun {t r resp} => exec_epochAdvanceSign_signs hruns hroom hlen hprof hadv (t := t) (r := r) (resp := resp)
    refine ⟨fun hmsg => hexec (State.epochSign_message hmsg), fun hmsg k hcust hkeys hnew hsigns => ⟨fun hmore => ?_, fun hquorum => ?_⟩⟩
    · exact hexec (State.epochSign_more hmsg hcust hkeys hnew hsigns hmore)
    · exact ⟨_, hexec (State.epochSign_quorum hmsg hcust hkeys hnew hsigns hquorum), rfl, rfl, State.advanceEpoch_bench _⟩
  case refine_6 => exact fun hruns => exec_epochAdvanceCancel_of_runs (s.mbxRuns_some_iff 0x23 3 |>.mpr hruns)
  case refine_7 =>
    intro a p hadv hprof
    rw [exec_epochAdvanceTimeout_some hadv hprof]
    exact ⟨fun hlate => if_neg (Nat.not_lt.mpr hlate), fun hearly => if_pos hearly⟩

end Sys2Proof.Machine

/-!
SUPPORT. The key vault's commands (R426, R427, R434, R458 to R461): the write that starts one, and what its end does to the vault.
-/

namespace Sys2Proof.Machine

/-! ## A command starts (R458) -/

/-- The commands of VAULT.CMD, with the value that a write of it carries. -/
def vaultRows (b : BenchNo) (w : Writer) : List (Instr × BitVec 4) :=
  [(.vaultInfo b w, 1), (.vaultDelete b w, 2), (.vaultRevoke b w, 3), (.vaultPin b w, 4), (.vaultUnpin b w, 5), (.vaultPurge b w, 6),
   (.vaultAbort b w, 7), (.vaultForgetPrevious b w, 8)]

/-- The vault after a command has started. -/
def Bench.vaultStarted (B : Bench) (w : Writer) (op : BitVec 4) : Vault :=
  { B.vault with cmd := some { op := op, arg := B.vault.arg, origin := B.writerOrigin w }, seq := B.vault.seq + 1 }

theorem Bench.regWrite_vaultCmd (B : Bench) (w : Writer) (v : Word) : B.regWrite w 0x10000C v = B.vaultWrite w 0x10000C v := rfl
theorem Bench.vaultWrite_cmd (B : Bench) (w : Writer) (v : Word) :
    B.vaultWrite w 0x10000C v = if B.vault.cmd.isSome || v.extractLsb' 0 4 = 0 || 8 < (v.extractLsb' 0 4).toNat then B
      else { B with vault := B.vaultStarted w (v.extractLsb' 0 4) } := rfl
theorem Bench.vaultWrite_busy {B : Bench} (w : Writer) (v : Word) (h : B.vault.cmd ≠ none) : B.vaultWrite w 0x10000C v = B := by
  rw [Bench.vaultWrite_cmd, if_pos (by simp [Option.isSome_iff_ne_none.mpr h])]
theorem Bench.vaultWrite_starts {B : Bench} (w : Writer) {v : Word} {op : BitVec 4} (h : B.vault.cmd = none) (hop : v.extractLsb' 0 4 = op) (h0 : op ≠ 0)
    (h8 : op.toNat ≤ 8) : B.vaultWrite w 0x10000C v = { B with vault := B.vaultStarted w op } := by
  rw [Bench.vaultWrite_cmd, hop, if_neg (by simpa [h, Nat.not_lt.mpr h8] using h0)]

section
variable {s : State} {b : BenchNo} {w : Writer}

/-- Each command is a write of VAULT.CMD with the command's OP. -/
theorem exec_vaultRow {i : Instr} {op : BitVec 4} (h : (i, op) ∈ vaultRows b w) (s : State) :
    ∃ v : Word, exec i s = s.bus b w 0x10000C v ∧ v.extractLsb' 0 4 = op ∧ op ≠ 0 ∧ op.toNat ≤ 8 := by
  simp only [vaultRows, List.mem_cons, Prod.mk.injEq, List.not_mem_nil, or_false] at h
  obtain ⟨rfl, rfl⟩ | ⟨rfl, rfl⟩ | ⟨rfl, rfl⟩ | ⟨rfl, rfl⟩ | ⟨rfl, rfl⟩ | ⟨rfl, rfl⟩ | ⟨rfl, rfl⟩ | ⟨rfl, rfl⟩ := h
  · exact ⟨1, exec_vaultInfo b w s, by decide⟩
  · exact ⟨2, exec_vaultDelete b w s, by decide⟩
  · exact ⟨3, exec_vaultRevoke b w s, by decide⟩
  · exact ⟨4, exec_vaultPin b w s, by decide⟩
  · exact ⟨5, exec_vaultUnpin b w s, by decide⟩
  · exact ⟨6, exec_vaultPurge b w s, by decide⟩
  · exact ⟨7, exec_vaultAbort b w s, by decide⟩
  · exact ⟨8, exec_vaultForgetPrevious b w s, by decide⟩

theorem exec_vaultRow_of_accessOk (hok : (s.bench b).accessOk w 0x10000C .w = true) {i : Instr} {op : BitVec 4} (h : (i, op) ∈ vaultRows b w) :
    ((s.bench b).idleExit.vault.cmd = none → exec i s = s.gives b { (s.bench b).idleExit with vault := (s.bench b).idleExit.vaultStarted w op })
    ∧ ((s.bench b).idleExit.vault.cmd ≠ none → exec i s = s.gives b (s.bench b).idleExit) := by
  obtain ⟨v, hexec, hop, h0, h8⟩ := exec_vaultRow h s
  rw [hexec, State.bus_of_accessOk v hok, Bench.regWrite_vaultCmd]
  exact ⟨fun h => by rw [Bench.vaultWrite_starts w h hop h0 h8], fun h => by rw [Bench.vaultWrite_busy w v h]⟩

end

/-! ## What a command does (R426, R427, R434, R459 to R461) -/

section
variable {B : Bench} {f : Nat}

theorem Bench.runSlots_single (h : (B.slot f).run = 0) : B.runSlots f = [f] := by simp [Bench.runSlots, h]

theorem Bench.releaseSlot_advances (h : (B.slot f).gen ≠ 0xFFFF) : B.releaseSlot f = B.setSlot f { Slot.zero with gen := (B.slot f).gen + 1 } := if_neg h
theorem Bench.releaseSlot_retires (h : (B.slot f).gen = 0xFFFF) :
    (B.releaseSlot f).vault = (B.setSlot f { Slot.zero with gen := 0xFFFF, retired := true }).vault := by
  rw [Bench.releaseSlot, if_pos h, Bench.raise_vault, h]

theorem Bench.releaseRun_single (h : (B.slot f).run = 0) : B.releaseRun f = B.releaseSlot f := by
  rw [Bench.releaseRun, Bench.runSlots_single h]; rfl
theorem Bench.revokeRun_advances (h : (B.slot f).run = 0) (hgen : (B.slot f).gen ≠ 0xFFFF) :
    B.revokeRun f = B.setSlot f { B.slot f with gen := (B.slot f).gen + 1 } := by
  rw [Bench.revokeRun, Bench.runSlots_single h, if_neg (by simpa using hgen)]
  rfl
theorem Bench.revokeRun_retires (h : (B.slot f).run = 0) (hgen : (B.slot f).gen = 0xFFFF) : B.revokeRun f = B.releaseSlot f := by
  simp [Bench.revokeRun, Bench.runSlots_single h, hgen, Bench.releaseRun_single h]

@[simp] theorem Bench.keyRecord_vault (B : Bench) (type : Byte) (origin : Word) (h : List Byte) (cls f : Nat) :
    (B.keyRecord type origin h cls f).vault = B.vault := Bench.jrnSystem_vault ..
theorem Bench.deleteRun_vault (h : (B.slot f).run = 0) (type : Byte) (origin : Word) : (B.deleteRun type origin f).vault = (B.releaseSlot f).vault := by
  rw [Bench.deleteRun, Bench.keyRecord_vault, Bench.releaseRun_single h]

end

section
variable {B : Bench} {c : VaultCmd}

/-- A command on a slot names one by its argument. -/
def VaultCmd.slot (c : VaultCmd) : Nat := c.arg.toNat % 16384

theorem Bench.vaultAct_notFirst (hfirst : (B.slot c.slot).first = false) (hop : c.op = 2 ∨ c.op = 3 ∨ c.op = 4 ∨ c.op = 5) :
    B.vaultAct c = (6, B) := by
  rw [VaultCmd.slot] at hfirst
  obtain hop | hop | hop | hop := hop <;> simp [Bench.vaultAct, hop, hfirst]
theorem Bench.vaultAct_info (hop : c.op = 1) : B.vaultAct c = (if (B.slot c.slot).first then 0 else 6, B.vaultInfo c.slot) := by
  rw [Bench.vaultAct, hop]
  rfl
theorem Bench.vaultAct_purge (hop : c.op = 6) (h : B.purgeList c.arg = []) : B.vaultAct c = (0, B) := by simp [Bench.vaultAct, hop, h]
theorem Bench.vaultAct_abort (hop : c.op = 7) : B.vaultAct c = (0, B.cerEnd true) := by simp [Bench.vaultAct, hop]
theorem Bench.vaultAct_forget (hop : c.op = 8) :
    (B.vaultAct c).1 = 0 ∧ (B.vaultAct c).2.vault = { B.vault with previous := none } := by simp [Bench.vaultAct, hop]

section
variable (hfirst : (B.slot c.slot).first = true)
include hfirst

theorem Bench.vaultAct_delete_locked (hop : c.op = 2) (h : B.ckLocked c.slot = true) : B.vaultAct c = (0x0B, B) := by
  rw [VaultCmd.slot] at hfirst h
  simp [Bench.vaultAct, hop, hfirst, h]
theorem Bench.vaultAct_delete (hop : c.op = 2) (h : B.ckLocked c.slot = false) : B.vaultAct c = (0, B.deleteRun 0x2B c.origin c.slot) := by
  rw [VaultCmd.slot] at hfirst h
  simp [Bench.vaultAct, hop, hfirst, h, VaultCmd.slot]
theorem Bench.vaultAct_revoke (hop : c.op = 3) :
    (B.vaultAct c).1 = 0 ∧ (B.vaultAct c).2.vault = (B.revokeRun c.slot).vault := by
  rw [VaultCmd.slot] at hfirst
  simp [Bench.vaultAct, hop, hfirst, VaultCmd.slot]

variable (hrun : (B.slot c.slot).run = 0)
include hrun

theorem Bench.vaultAct_pin (hop : c.op = 4) : B.vaultAct c = (0, B.setSlot c.slot { B.slot c.slot with pin := true }) := by
  have hslots := Bench.runSlots_single hrun
  rw [VaultCmd.slot] at hfirst hslots
  simp [Bench.vaultAct, hop, hfirst, hslots, VaultCmd.slot]
theorem Bench.vaultAct_unpin (hop : c.op = 5) : B.vaultAct c = (0, B.setSlot c.slot { B.slot c.slot with pin := false }) := by
  have hslots := Bench.runSlots_single hrun
  rw [VaultCmd.slot] at hfirst hslots
  simp [Bench.vaultAct, hop, hfirst, hslots, VaultCmd.slot]

end

end

/-! ## A command ends (R458) -/

section
variable {B : Bench} {c : VaultCmd} (hcmd : B.vault.cmd = some c)
include hcmd

theorem Bench.vaultEnd_waits (hroom : B.jrnRoom (B.vaultRecords c) = false) : B.vaultEnd = B := by
  simp only [Bench.vaultEnd, hcmd, hroom, Bool.not_false, if_true]
theorem Bench.vaultEnd_vault (hroom : B.jrnRoom (B.vaultRecords c) = true) :
    B.vaultEnd.vault = { (B.vaultAct c).2.vault with cmd := none, result := BitVec.ofNat 8 (B.vaultAct c).1 } := by
  simp only [Bench.vaultEnd, hcmd, hroom, Bool.not_true, Bool.false_eq_true, if_false]
  rw [Bench.raise_vault]

end

section
variable {s : State} {b : BenchNo} (hmem : (s.bench b).memoryRuns = true)
include hmem

theorem exec_vaultCommandEnd_of_runs : exec (.vaultCommandEnd b) s = s.gives b (s.bench b).vaultEnd := State.onMemory_of_runs hmem

variable {c : VaultCmd} (hcmd : (s.bench b).vault.cmd = some c)
include hcmd

theorem exec_vaultCommandEnd_waits (hroom : (s.bench b).jrnRoom ((s.bench b).vaultRecords c) = false) : exec (.vaultCommandEnd b) s = .next s := by
  rw [exec_vaultCommandEnd_of_runs hmem, Bench.vaultEnd_waits hcmd hroom, State.gives_bench]

/-- A command whose records have room ends with the result and the vault that its action gives. -/
theorem exec_vaultCommandEnd_acts (hroom : (s.bench b).jrnRoom ((s.bench b).vaultRecords c) = true) {n : Nat} {result : Byte} {v : Vault}
    (hact : ((s.bench b).vaultAct c).1 = n ∧ ((s.bench b).vaultAct c).2.vault = v) (hn : BitVec.ofNat 8 n = result) :
    ∃ E, exec (.vaultCommandEnd b) s = s.gives b E ∧ E.vault = { v with cmd := none, result := result } := by
  obtain ⟨hresult, hvault⟩ := hact
  exact ⟨_, exec_vaultCommandEnd_of_runs hmem, by rw [Bench.vaultEnd_vault hcmd hroom, hresult, hvault, hn]⟩

end

end Sys2Proof.Machine

/-!
SUPPORT. The jobs of the SKE that place a key, derive one, or carry one in a key block (R429 to R436, R453, R454, R501 to R503): what such a
job keeps of the bench, what its operands ask for, and the unit that takes it.
-/

namespace Sys2Proof.Machine

/-! ## What a job keeps of the bench -/

section
variable {B D : Bench}

theorem Bench.sameBut_current (h : B.sameBut D) : D.vault.current = B.vault.current := by obtain ⟨u, sl, d, f, rfl, -⟩ := h; rfl
theorem Bench.sameBut_ctrl (h : B.sameBut D) : D.vault.ctrl = B.vault.ctrl := by obtain ⟨u, sl, d, f, rfl, -⟩ := h; rfl
theorem Bench.sameBut_ctl (h : B.sameBut D) : D.ctl = B.ctl := by obtain ⟨u, sl, d, f, rfl, -⟩ := h; rfl
theorem Bench.sameBut_time (h : B.sameBut D) : D.time = B.time := by obtain ⟨u, sl, d, f, rfl, -⟩ := h; rfl
theorem Bench.sameBut_openRecord (h : B.sameBut D) (l : List Byte) : D.openRecord l = B.openRecord l := by obtain ⟨u, sl, d, f, rfl, -⟩ := h; rfl
theorem Bench.sameBut_gen (h : B.sameBut D) (w : Table.wf Slot.zero B.vault.slots = true) (i : Nat) : (D.slot i).gen = (B.slot i).gen := by
  obtain ⟨u, sl, d, f, rfl, hslots⟩ := h
  obtain ⟨n, hn⟩ := (hslots w).2 i
  have hgen := congrArg Slot.gen hn
  exact hgen

/-- A job that drew nothing has changed the vault alone. -/
theorem Bench.sameBut_eq_vault (h : B.sameBut D) (hdrbg : D.drbg = B.drbg) (hfree : D.freeCtr = B.freeCtr) : D = { B with vault := D.vault } := by
  obtain ⟨u, sl, d, f, rfl, -⟩ := h
  dsimp only at hdrbg hfree ⊢
  rw [hdrbg, hfree]

end

/-! ## Operands -/

section
variable {j : JC} {B D : Bench}

theorem JC.meets_wr_mono {i m n : Nat} (h : j.meets B i (.wr n) none) (hmn : m ≤ n) : j.meets B i (.wr m) none := by
  obtain ⟨⟨htag, hotype, hperms, hbase, htop⟩, hplain⟩ := h
  exact ⟨⟨htag, hotype, hperms, hbase, by omega⟩, Bench.plainFor_mono hplain (Nat.le_refl _) (by omega)⟩

/-- A handle destination that meets its role fits. -/
theorem hdFit_of_meets {i n : Nat} (h : j.meets B i (.hd n) none) : hdFit (j.opnd i) n = true := by
  obtain ⟨⟨htag, hotype, hperms, hbase, htop⟩, halign, -⟩ := h
  have hall : (j.opnd i).hasAll [permLD, permST, permSTC] = true := by simpa [Cap.hasAll] using hperms
  simp [hdFit, Cap.sealed?, htag, hotype, hall, halign, hbase, htop]

theorem J.roomC_ok {n : Nat} (hmode : j.sub.mode = 0) (h : j.meets B 2 (.wr n) none) : J.roomC j n B = .ok () B := by
  have hcap : J.checkCap (j.opnd 2) 2 n [permST] B = .ok () B := checkOperand_meets h
  simp only [J.roomC, bind, EStateM.bind, hcap, translate_plain hmode h.2, pure, EStateM.pure]

theorem J.bmk_ok {bmk : List Byte} (h : B.vault.current = some bmk) : J.bmk B = .ok bmk B := by
  simp only [J.bmk, J.bench, bind, EStateM.bind, h, pure, EStateM.pure]

theorem J.template_ok {t : List Byte} {classes : List Nat} {row : ClassRow} (ht : templateOk t = true)
    (hfit : fitClass (classRows.filter fun r => classes.contains r.cls) t = .ok row) : J.template t classes B = .ok row B := by
  simp only [J.template, ht, hfit, Bool.not_true, Bool.false_eq_true, if_false, pure, EStateM.pure]

theorem JC.flagsOk_of_zero (hbyte : j.byte 2 = 0) (htoken : j.token = 0) : j.flagsOk = true := by simp [JC.flagsOk, hbyte, htoken]

theorem auxOk_slot (h : j.aux < 2 ^ 16) : auxOk j false = true := by simpa [auxOk] using Nat.div_eq_of_lt h

/-- A key that a form places, its slot request in the low half of AUX (R431). -/
def JC.places (j : JC) (cls : Nat) (header v : List Byte) (journal : Option Nat) : KeyPlan :=
  { load := false, cls := cls, header := header, value := v, aux := j.aux % 2 ^ 16, dest := (j.opnd 1).cursor.toNat, journal := journal }

theorem JC.places_of_aux (h : j.aux < 2 ^ 16) (cls : Nat) (header v : List Byte) (journal : Option Nat) :
    j.places cls header v journal =
      { load := false, cls := cls, header := header, value := v, aux := j.aux, dest := j.destVa, journal := journal } := by
  rw [JC.places, Nat.mod_eq_of_lt h]
  rfl

/-- A derived key, which has no record (R502). -/
def JC.derives (j : JC) (t v : List Byte) (cls : Nat) (sec : BitVec 48) : Finish :=
  placing j (j.places cls (finishHeader t v.length sec true) v none) [] false

theorem derived_ok (h : j.aux < 2 ^ 16) (t v : List Byte) (cls : Nat) : derived j t v cls B = .ok (j.derives t v cls B.time.sec) B := by
  rw [JC.derives, JC.places_of_aux h]
  rfl

end

/-! ## The SKE takes a job (R468) -/

/-- SKE `n` among the units with rings. -/
abbrev skeUnit (n : Fin 4) : UnitNo := n.castLE (by decide) + 7

/-- The job that SKE `n` makes of a descriptor. -/
abbrev skeJob (n : Fin 4) (q : Sub) : JC := jobOf (skeUnit n) q

theorem skeUnit_eq (n : Fin 4) : Fin.ofNat 18 (7 + n.val) = skeUnit n := by revert n; decide
theorem skeUnit_val (n : Fin 4) : (skeUnit n).val = 7 + n.val := by revert n; decide

section
variable {j : JC} {B : Bench} (hflags : j.flagsOk = true)
include hflags

theorem skeLoadJob_load (h : j.var = 1) : skeLoadJob j B = skeLoad j B := by
  simp only [skeLoadJob, bind, EStateM.bind, J.guardBad_ok hflags, h]
theorem skeLoadJob_generate (h : j.var = 2) : skeLoadJob j B = skeGenerate j B := by
  simp only [skeLoadJob, bind, EStateM.bind, J.guardBad_ok hflags, h]
theorem skeLoadJob_trust (h : j.var = 3) : skeLoadJob j B = skeTrust j B := by
  simp only [skeLoadJob, bind, EStateM.bind, J.guardBad_ok hflags, h]
theorem skeLoadJob_rewrap (h : j.var = 4) : skeLoadJob j B = skeRewrap j B := by
  simp only [skeLoadJob, bind, EStateM.bind, J.guardBad_ok hflags, h]
theorem skeLoadJob_deriveEmv (h : j.var = 8) : skeLoadJob j B = skeDeriveEmv j B := by
  simp only [skeLoadJob, bind, EStateM.bind, J.guardBad_ok hflags, h]
theorem skeLoadJob_deriveDukpt (h : j.var = 9) : skeLoadJob j B = skeDeriveDukpt j B := by
  simp only [skeLoadJob, bind, EStateM.bind, J.guardBad_ok hflags, h]
theorem skeLoadJob_deriveKdf (h : j.var = 10) : skeLoadJob j B = skeDeriveKdf j B := by
  simp only [skeLoadJob, bind, EStateM.bind, J.guardBad_ok hflags, h]

end

theorem skeRun_keyJob {j : JC} (h : j.op = 0x20) : skeRun j none = skeLoadJob j := by simp only [skeRun, h]
theorem skeRun_import {j : JC} (h : j.op = 0x21) : skeRun j none = skeImport j := by simp only [skeRun, h]
theorem skeRun_export {j : JC} (h : j.op = 0x22) : skeRun j none = skeExport j := by simp only [skeRun, h]

section
variable {s : State} {b : BenchNo} {n : Fin 4} {r : Fin 4} {q : Sub} {i : Instr} {f : Finish} {D : Bench}
  (ho : (s.bench b).offers (skeUnit n) r q)
include ho

theorem ske_takes {key : Nat} (hexec : exec i s = s.ske b n key) (hkey : skeKey (skeJob n q).op (skeJob n q).var = key)
    (hrun : skeRun (skeJob n q) none ((s.bench b).takesFrom (skeUnit n) r) = .ok f D) : s.takesJob b i (skeUnit n) r q f := by
  refine takesJob_of (sel := fun o v => skeKey o v == key || !skeDefined o v) (uses := jobUses) ho ?_ (by simp [hkey]) ⟨D, .inl hrun⟩
  rw [hexec, State.ske, skeUnit_val]
  simp only [Bench.skeBegin, skeUnit_eq]

end

end Sys2Proof.Machine

/-!
SUPPORT. The forms of the key-load job, IMPORT and EXPORT (R431, R435, R436, R453, R454, R502, R503): what each gives once its operands are
checked and read.
-/

namespace Sys2Proof.Machine

section
variable {j : JC} {B D : Bench} {i : JIn}

/-! ## LOAD, GENERATE, TRUST and REWRAP (R431, R435, R436, R503) -/

theorem skeLoad_ok (hlo : 144 ≤ j.len) (hhi : j.len ≤ 2128) (h16 : j.len % 16 = 0) (haux : j.aux < 2 ^ 16) (hfit : hdFit (j.opnd 1) 16 = true)
    (hwhole : J.whole j (.rd j.len) (.hd 16) .zero 0 B = .ok i D) {cls : Nat} {header v : List Byte} {prev : Bool}
    (hopen : D.openRecord i.a = .ok (cls, header, v, prev)) :
    skeLoad j B = .ok (placing j { j.places cls header v none with load := true } [] prev) D := by
  have hguard : (144 ≤ j.len && j.len ≤ 2128 && j.len % 16 == 0 && auxOk j false) = true := by simp [hlo, hhi, h16, auxOk_slot haux]
  simp only [skeLoad, bind, EStateM.bind, J.guardBad_ok hguard, hfit, if_true, hwhole, J.bench, hopen, Bool.not_true, Bool.false_eq_true, if_false, pure,
    EStateM.pure, JC.places_of_aux haux]

theorem skeGenerate_ok {E : Bench} {t x : List Byte} (hlen : j.len = 48) (hpos : 0 < j.aux / 2 ^ 16) (hcls : j.aux / 2 ^ 16 < 256)
    (hwhole : J.whole j .zero (.hd 48) (.wr 144) 0 B = .ok i D) (ht : (i.b.drop 16).take 32 = t)
    (hrandom : J.random (detailLen (hdrDetail t) + 8) D = .ok x E) (htemplate : templateOk t = true) {row : ClassRow}
    (hfit : fitClass (classRows.filter fun r => r.cls = j.aux / 2 ^ 16 && r.generate) t = .ok row)
    (hsys : j.aux / 2 ^ 16 = 0x1C ∨ j.aux / 2 ^ 16 = 0x1D → j.sub.sys = true) {bmk : List Byte} (hbmk : E.vault.current = some bmk)
    (hroom : J.roomC j (recordLen (detailLen (hdrDetail t))) E = .ok () E) :
    let header := finishHeader t (detailLen (hdrDetail t)) E.time.sec false
    let v := freshValue (hdrDetail t) x
    skeGenerate j B = .ok (placing j (j.places (j.aux / 2 ^ 16) header v (some 0x28)) (makeRecord bmk E.ctl.epoch.toNat (j.aux / 2 ^ 16) header v) false) E := by
  have hcls' : j.aux / 2 ^ 16 % 256 = j.aux / 2 ^ 16 := Nat.mod_eq_of_lt hcls
  have hguard : (j.len == 48 && auxOk j true) = true := by
    simp only [hlen, auxOk, beq_self_eq_true, Bool.true_and, if_true, Bool.and_eq_true, beq_iff_eq, decide_eq_true_eq]
    omega
  have hstrand : ((j.aux / 2 ^ 16 = 0x1C || j.aux / 2 ^ 16 = 0x1D) && !j.sub.sys) = false := by
    simpa using hsys
  simp only [skeGenerate, bind, EStateM.bind, J.guardBad_ok hguard, hwhole, ht, hrandom, htemplate, hcls', hfit, hstrand, J.bmk_ok hbmk, hroom, J.bench,
    Bool.not_true, Bool.false_eq_true, if_false, pure, EStateM.pure]
  rfl

theorem skeTrust_ok {t data : List Byte} (hlo : 80 ≤ j.len) (hhi : j.len ≤ 48 + 2592) (haux : j.aux < 2 ^ 16)
    (hwhole : J.whole j .zero (.hd j.len) (.wr 144) 0 B = .ok i D) (ht : (i.b.drop 16).take 32 = t) (hdata : i.b.drop 48 = data)
    (htemplate : templateOk t = true) {row : ClassRow} (hfit : fitClass (classRows.filter fun r => r.cls = 0x11 || r.cls = 0x15) t = .ok row)
    (hsys : j.sub.sys = true) {bmk : List Byte} (hbmk : D.vault.current = some bmk) (hdlen : data.length = publicLen (hdrDetail t))
    (hpublic : publicOk (hdrDetail t) data = true) (hroom : J.roomC j (recordLen 48) D = .ok () D) :
    let header := finishHeader t 48 D.time.sec false
    skeTrust j B = .ok (placing j (j.places row.cls header (sha384 data) (some 0x2A))
      (makeRecord bmk D.ctl.epoch.toNat row.cls header (sha384 data)) false) D := by
  have hguard : (decide (80 ≤ j.len) && decide (j.len ≤ 48 + 2592) && auxOk j false) = true := by simp [hlo, hhi, auxOk_slot haux]
  simp only [skeTrust, bind, EStateM.bind, J.guardBad_ok hguard, hwhole, ht, hdata, htemplate, hfit, hsys, J.bmk_ok hbmk, hdlen, hpublic, hroom, J.bench,
    Bool.not_true, Bool.false_eq_true, ne_eq, not_true, if_false, pure, EStateM.pure, JC.places_of_aux haux]

theorem skeRewrap_ok {k : KeyCopy} (hlen : j.len = 0) (haux : j.aux = 0)
    (hwhole : J.whole j (.handle { classes := classRows.map (·.cls), modes := [] } true) .zero (.wr 144) 0 B = .ok i D) (hk : i.ka = some k)
    {bmk : List Byte} (hbmk : D.vault.current = some bmk)
    (hroom : J.roomC j (makeRecord bmk D.ctl.epoch.toNat k.cls k.header k.value).length D = .ok () D) :
    let rec' := makeRecord bmk D.ctl.epoch.toNat k.cls k.header k.value
    skeRewrap j B = .ok { j.gives rec' with result := rec'.length } D := by
  have hguard : (j.len == 0 && j.aux == 0) = true := by simp [hlen, haux]
  simp only [skeRewrap, bind, EStateM.bind, J.guardBad_ok hguard, hwhole, hk, J.bmk_ok hbmk, J.bench, hroom, pure, EStateM.pure]
  rfl

/-! ## Derivations (R502) -/

section
variable {t data : List Byte} {k : KeyCopy} {row : ClassRow} (haux : j.aux < 2 ^ 16) (ht : (i.b.drop 16).take 32 = t) (hdata : i.b.drop 48 = data)
  (hk : i.ka = some k) (htemplate : templateOk t = true)
include haux ht hdata hk htemplate

theorem skeDeriveEmv_ok (hlen : j.len = 62)
    (hwhole : J.whole j (.handle { classes := [0x06, 0x07], modes := ['X'] } false) (.hd 62) .zero 0 B = .ok i D)
    (hfit : fitClass (classRows.filter fun r => [0x05, 0x08].contains r.cls) t = .ok row) {digits : List Nat} {v : List Byte}
    (hdigits : (nibbles (data.take 10)).take (data.getD 10 0).toNat = digits)
    (hv : emvSession (algOf k.header = 'A') (emvMaster (algOf k.header = 'A') k.value digits (data.getD 11 0).toNat) ((data.drop 12).take 2) = v)
    (halg : hdrAlg t = hdrAlg k.header) (hdetail : hdrDetail t = hdrDetail k.header) (hvlen : v.length = k.value.length)
    (hlo : 12 ≤ (data.getD 10 0).toNat) (hhi : (data.getD 10 0).toNat ≤ 19) (hall : digits.all (· ≤ 9) = true) :
    skeDeriveEmv j B = .ok (j.derives t v row.cls D.time.sec) D := by
  have hguard : (j.len == 62 && auxOk j false) = true := by simp [hlen, auxOk_slot haux]
  have hlike : (hdrAlg t ≠ hdrAlg k.header || hdrDetail t ≠ hdrDetail k.header || v.length ≠ k.value.length) = false := by
    simp [halg, hdetail, hvlen]
  have hpan : (!(12 ≤ (data.getD 10 0).toNat && (data.getD 10 0).toNat ≤ 19) || !digits.all (· ≤ 9)) = false := by
    simp only [hlo, hhi, hall, decide_true, Bool.and_self, Bool.not_true, Bool.or_self]
  simp only [skeDeriveEmv, bind, EStateM.bind, J.guardBad_ok hguard, hwhole, hk, ht, hdata, J.template_ok htemplate hfit, hdigits, hv, hlike, hpan,
    Bool.false_eq_true, if_false, derived_ok haux]

section
variable (hlen : j.len = 60) (hwhole : J.whole j (.handle { classes := [0x02, 0x03], modes := ['X'] } false) (.hd 60) .zero 0 B = .ok i D)
  (hfit : fitClass (classRows.filter fun r => [0x04, 0x05, 0x08].contains r.cls) t = .ok row)
  (hcounter : dukptCounterOk (algOf k.header = 'A') data = true)
include hlen hwhole hfit hcounter

theorem skeDeriveDukpt_aes (haes : algOf k.header = 'A') :
    skeDeriveDukpt j B = .ok (j.derives t (dukptAesWorking (if k.cls = 2 then dukptAesInitial k.value data else k.value) data
      (dukptUsage row.cls (hdrMode t)) (if hdrDetail t = 8 then 5 else dukptAlg (3 ≤ hdrDetail t) (detailLen (hdrDetail t)))
      (detailLen (hdrDetail t))) row.cls D.time.sec) D := by
  have hguard : (j.len == 60 && auxOk j false) = true := by simp [hlen, auxOk_slot haux]
  simp only [skeDeriveDukpt, bind, EStateM.bind, J.guardBad_ok hguard, hwhole, hk, ht, hdata, J.template_ok htemplate hfit, hcounter, if_pos haes,
    Bool.not_true, Bool.false_eq_true, if_false, derived_ok haux]
theorem skeDeriveDukpt_tdes (haes : algOf k.header ≠ 'A') (hdetail : hdrDetail t = 1) {txn : List Byte}
    (htxn : dukptTdesKey (if k.cls = 2 then dukptTdesInitial k.value (data.take 10) else k.value) (data.take 10) = txn) :
    skeDeriveDukpt j B = .ok (j.derives t (if row.cls = 4 then tdesVariant 7 txn else if row.cls = 5 then tdesVariant 6 txn else tdesDataKey txn)
      row.cls D.time.sec) D := by
  have hguard : (j.len == 60 && auxOk j false) = true := by simp [hlen, auxOk_slot haux]
  simp only [skeDeriveDukpt, bind, EStateM.bind, J.guardBad_ok hguard, hwhole, hk, ht, hdata, J.template_ok htemplate hfit, hcounter, if_neg haes, hdetail,
    htxn, Bool.not_true, Bool.false_eq_true, ne_eq, not_true, if_false, derived_ok haux]

end

theorem skeDeriveKdf_ok (hlo : 49 ≤ j.len) (hhi : j.len ≤ 304)
    (hwhole : J.whole j (.handle { classes := [0x09], modes := ['X'] } false) (.hd j.len) .zero 0 B = .ok i D)
    (hfit : fitClass (classRows.filter fun r => [1, 2, 3, 4, 5, 6, 7, 8, 9].contains r.cls) t = .ok row) :
    skeDeriveKdf j B = .ok (j.derives t (kdfCounter (if hdrDetail k.header = 8 then hmac sha256 64 k.value else cmac (aesEnc k.value) 16) data
      (detailLen (hdrDetail t))) row.cls D.time.sec) D := by
  have hguard : (49 ≤ j.len && j.len ≤ 304 && auxOk j false) = true := by simp [hlo, hhi, auxOk_slot haux]
  simp only [skeDeriveKdf, bind, EStateM.bind, J.guardBad_ok hguard, hwhole, hk, ht, hdata, J.template_ok htemplate hfit, derived_ok haux]

end

/-! ## IMPORT and EXPORT (R453, R454) -/

/-- The template that the header of a key block and the fields that stand before the block make (R453). -/
def importHeader (input head : List Byte) (d : Nat) : List Byte :=
  (head.drop 5).take 2 ++ [head.getD 7 0, head.getD 8 0] ++ (head.drop 9).take 2 ++ [head.getD 11 0, BitVec.ofNat 8 d]
    ++ zeros 4 ++ (input.drop 24).take 4 ++ (input.drop 16).take 8 ++ zeros 8

theorem skeImport_ok {input head key v : List Byte} {k : KeyCopy} {d : Nat} {row : ClassRow} (hflags : j.flagsOk = true) (hvar : j.var = 0)
    (hlen : 64 < j.len) (haux : j.aux < 2 ^ 16)
    (hwhole : J.whole j (.handle { classes := [0x01], modes := ['B', 'D'] } false) (.hd j.len) (.wr 144) 0 B = .ok i D) (hinput : i.b = input)
    (hk : i.ka = some k) {bmk : List Byte} (hbmk : D.vault.current = some bmk) (hsize : leNat ((input.drop 28).take 2) = j.len - 48)
    (hopen : openBlock (algOf k.header = 'A') k.value (input.drop 48) = .ok (head, key))
    (hvalue : importValue (Char.ofNat (head.getD 7 0).toNat) key = some (d, v))
    (hfit : fitClass (classRows.filter fun r => r.imports) (importHeader input head d) = .ok row) (hroom : J.roomC j (recordLen v.length) D = .ok () D) :
    let header := finishHeader (importHeader input head d) v.length D.time.sec false
    skeImport j B = .ok (placing j (j.places row.cls header v (some 0x29)) (makeRecord bmk D.ctl.epoch.toNat row.cls header v) false) D := by
  have hguard : (decide (64 < j.len) && auxOk j false) = true := by simp [hlen, auxOk_slot haux]
  have hvar' : (j.var == 0) = true := by simp [hvar]
  rw [importHeader] at hfit ⊢
  simp only [skeImport, bind, EStateM.bind, J.guardBad_ok hvar', J.guardBad_ok hflags, J.guardBad_ok hguard, hwhole, hinput, hk, J.bmk_ok hbmk, hsize,
    hopen, hvalue, hfit, hroom, J.bench, ne_eq, not_true, if_false, pure, EStateM.pure, JC.places_of_aux haux]

/-- The block size of a key block's cipher. -/
def blockSize (aes : Bool) : Nat := if aes then 16 else 8
/-- The key as a block carries it (R418). -/
def exportedKey (x : KeyCopy) : List Byte :=
  if 0x18 ≤ hdrDetail x.header then rsaToDer (hdrDetail x.header - 0x10) x.value else x.value
/-- The length of the encrypted part: the key with its length, in whole blocks. -/
def exportPadded (aes : Bool) (x : KeyCopy) : Nat :=
  (2 + (exportedKey x).length + blockSize aes - 1) / blockSize aes * blockSize aes
/-- The length of the key block. -/
def exportTotal (aes : Bool) (x : KeyCopy) : Nat := 16 + 2 * exportPadded aes x + 2 * blockSize aes
/-- The header of the key block. -/
def exportHead (aes : Bool) (x : KeyCopy) : List Byte :=
  [if aes then (0x44 : Byte) else 0x42] ++ toDec 4 (exportTotal aes x) ++ hdrUsage x.header ++ [x.header.getD 2 0, x.header.getD 3 0]
    ++ hdrVersion x.header ++ [x.header.getD 6 0] ++ ascii "0000"
/-- The part that is encrypted, its padding random. -/
def exportPlain (aes : Bool) (x : KeyCopy) (random : List Byte) : List Byte :=
  (beBytes 2 (8 * (exportedKey x).length) ++ exportedKey x ++ random).take (exportPadded aes x)
def exportMac (aes : Bool) (k x : KeyCopy) (random : List Byte) : List Byte :=
  let ka := kbDerive aes k.value 1
  if aes then cmac (aesEnc ka) 16 (exportHead aes x ++ exportPlain aes x random) else cmac (tdesEnc ka) 8 (exportHead aes x ++ exportPlain aes x random)
/-- The key block (R454). -/
def exportBlock (aes : Bool) (k x : KeyCopy) (random : List Byte) : List Byte :=
  let ke := kbDerive aes k.value 0
  let mac := exportMac aes k x random
  let plain := exportPlain aes x random
  let ct := if aes then cbcEnc (aesEnc ke) mac (blocksOf 16 plain) else cbcEnc (tdesEnc ke) mac (blocksOf 8 plain)
  exportHead aes x ++ toHex ct ++ toHex mac

theorem skeExport_ok {k x : KeyCopy} (hflags : j.flagsOk = true) (hvar : j.var = 0) (hlen : j.len = 0) (haux : j.aux = 0)
    (hwhole : J.whole j (.handle { classes := [0x01], modes := ['B', 'E'] } false)
      (.handle { classes := (classRows.filter fun r => r.imports).map (·.cls), modes := [] } false) (.wr 64) 16 B = .ok i D)
    (hk : i.ka = some k) (hx : i.kb = some x) (hN : Char.ofNat (hdrExport x.header) ≠ 'N')
    (hS : Char.ofNat (hdrExport x.header) = 'S' → D.vault.ctrl.getLsbD 1 = true)
    (hstrength : strength (hdrDetail x.header) x.value.length ≤ strength (hdrDetail k.header) k.value.length)
    (hroom : J.roomC j (exportTotal (algOf k.header = 'A') x) D = .ok () D) :
    let blk := exportBlock (algOf k.header = 'A') k x i.r
    skeExport j B = .ok { j.gives blk with
      result := blk.length
      record := some (0x2E, hdrTenant x.header, keyData x.header x.cls x.slot (D.slot x.slot).gen ++ hdrKeyid k.header) } D := by
  have hguard : (j.len == 0 && j.aux == 0) = true := by simp [hlen, haux]
  have hvar' : (j.var == 0) = true := by simp [hvar]
  have hallowed : (Char.ofNat (hdrExport x.header) = 'N' || (Char.ofNat (hdrExport x.header) = 'S' && !D.vault.ctrl.getLsbD 1)) = false := by
    simpa [hN] using hS
  by_cases haes : algOf k.header = 'A' <;>
    simp only [exportTotal, exportPadded, blockSize, exportedKey, haes, decide_true, decide_false, if_true, Bool.false_eq_true, if_false] at hroom ⊢ <;>
    simp only [skeExport, bind, EStateM.bind, J.guardBad_ok hvar', J.guardBad_ok hflags, J.guardBad_ok hguard, hwhole, hk, hx, J.bench, hallowed,
      Nat.not_lt.mpr hstrength, Bool.false_eq_true, if_false, hroom, haes, if_true, pure, EStateM.pure] <;>
    rfl

end

end Sys2Proof.Machine

/-!
SUPPORT. The SKE takes a job of the forms LOAD, GENERATE, TRUST and REWRAP (R431, R435, R436, R468, R503): the completion, in terms of the bench
before it.
-/

namespace Sys2Proof.Machine

/-! ## The bench as a job of a unit sees it -/

section
variable {B D : Bench} {u : UnitNo} {r : Fin 4}

theorem Bench.takes_time (h : (B.takesFrom u r).sameBut D) : D.time = B.time := (Bench.sameBut_time h).trans rfl
theorem Bench.takes_ctl (h : (B.takesFrom u r).sameBut D) : D.ctl = B.ctl := (Bench.sameBut_ctl h).trans rfl
theorem Bench.takes_current (h : (B.takesFrom u r).sameBut D) {bmk : List Byte} (hbmk : B.vault.current = some bmk) : D.vault.current = some bmk :=
  (Bench.sameBut_current h).trans hbmk
theorem Bench.takes_openRecord (h : (B.takesFrom u r).sameBut D) (l : List Byte) : D.openRecord l = B.openRecord l :=
  (Bench.sameBut_openRecord h l).trans rfl
theorem JC.takes_meets {j : JC} {i : Nat} {role : OpRole} (h : (B.takesFrom u r).sameBut D) (hmeets : j.meets B i role none) : j.meets D i role none :=
  JC.meets_same h (.inl rfl) hmeets

/-- A job that has drawn nothing draws what the bench before it would have. -/
theorem Bench.takes_random (h : (B.takesFrom u r).sameBut D) (hnone : D.drbg = B.drbg ∧ D.freeCtr = B.freeCtr) {n : Nat} (hserves : B.serves n) :
    ∃ E, J.random n D = .ok (B.drawn n) E ∧ (B.takesFrom u r).sameBut E := by
  obtain ⟨d, f, hrandom, -⟩ := random_serves (B := B.takesFrom u r) (n := n) hserves D.vault
  rw [← Bench.sameBut_eq_vault h hnone.1 hnone.2, takesFrom_drawn] at hrandom
  obtain ⟨uses, sl, d', f', rfl, hslots⟩ := h
  exact ⟨_, hrandom, uses, sl, d, f, rfl, hslots⟩

end

theorem le_recordLen (n : Nat) : 144 ≤ recordLen n := Nat.le_max_left ..

/-! ## The completions -/

section
variable {s : State} {b : BenchNo} {n : Fin 4} {r : Fin 4} {q : Sub} (ho : (s.bench b).offers (skeUnit n) r q)
include ho

theorem offers_mode : q.mode = 0 := by obtain ⟨-, -, -, -, hmode, -, -⟩ := ho; exact hmode
theorem offers_flagsOk (hbyte : (skeJob n q).byte 2 = 0) : (skeJob n q).flagsOk = true := by
  obtain ⟨-, -, -, -, -, -, htoken⟩ := ho
  exact JC.flagsOk_of_zero hbyte htoken

theorem keyForm_takes {v : Nat} {i : Instr} {f : Finish} {D : Bench} (hop : (skeJob n q).op = 0x20) (hvar : (skeJob n q).var = v)
    (hform : loadForm v = true) (hexec : exec i s = s.ske b n (0x2000 + v))
    (hrun : skeLoadJob (skeJob n q) ((s.bench b).takesFrom (skeUnit n) r) = .ok f D) : s.takesJob b i (skeUnit n) r q f := by
  refine ske_takes ho hexec ?_ (by rw [skeRun_keyJob hop]; exact hrun)
  rw [skeKey, if_pos hop, hvar, if_pos hform]

section
variable (hbyte : (skeJob n q).byte 2 = 0)
include hbyte

section
variable (hop : (skeJob n q).op = 0x20)
include hop

theorem keyLoad_takes (hvar : (skeJob n q).var = 1) (hlo : 144 ≤ (skeJob n q).len) (hhi : (skeJob n q).len ≤ 2128)
    (h16 : (skeJob n q).len % 16 = 0) (haux : (skeJob n q).aux < 2 ^ 16)
    (hA : (skeJob n q).meets (s.bench b) 0 (.rd (skeJob n q).len) none) (hB : (skeJob n q).meets (s.bench b) 1 (.hd 16) none)
    (hC : (skeJob n q).meets (s.bench b) 2 .zero none) {cls : Nat} {header v : List Byte} {prev : Bool}
    (hopen : (s.bench b).openRecord ((skeJob n q).bytesAt (s.bench b) 0 (skeJob n q).len) = .ok (cls, header, v, prev)) :
    s.takesJob b (.keyLoad b n) (skeUnit n) r q
      (placing (skeJob n q) { (skeJob n q).places cls header v none with load := true } [] prev) := by
  obtain ⟨D, hwhole, hD, -⟩ := whole_takes ho hA hB hC (.inl rfl) (.inl ⟨rfl, rfl⟩)
  exact keyForm_takes ho hop hvar rfl (exec_keyLoad b n s) ((skeLoadJob_load (offers_flagsOk ho hbyte) hvar).trans
    (skeLoad_ok hlo hhi h16 haux (hdFit_of_meets hB) hwhole ((Bench.takes_openRecord hD _).trans hopen)))

theorem keyGenerate_takes (hvar : (skeJob n q).var = 2) (hlen : (skeJob n q).len = 48) {cls : Nat}
    (hcls : (skeJob n q).aux / 2 ^ 16 = cls) (hpos : 0 < cls) (hlt : cls < 256) {t : List Byte}
    (ht : (((skeJob n q).bytesAt (s.bench b) 1 (skeJob n q).len).drop 16).take 32 = t)
    (hA : (skeJob n q).meets (s.bench b) 0 .zero none) (hB : (skeJob n q).meets (s.bench b) 1 (.hd 48) none)
    (hC : (skeJob n q).meets (s.bench b) 2 (.wr (recordLen (detailLen (hdrDetail t)))) none)
    (hserves : (s.bench b).serves (detailLen (hdrDetail t) + 8)) (htemplate : templateOk t = true) {row : ClassRow}
    (hfit : fitClass (classRows.filter fun r => r.cls = cls && r.generate) t = .ok row) (hsys : cls = 0x1C ∨ cls = 0x1D → q.sys = true)
    {bmk : List Byte} (hbmk : (s.bench b).vault.current = some bmk) :
    let v := freshValue (hdrDetail t) ((s.bench b).drawn (detailLen (hdrDetail t) + 8))
    let header := finishHeader t (detailLen (hdrDetail t)) (s.bench b).time.sec false
    s.takesJob b (.keyGenerate b n) (skeUnit n) r q (placing (skeJob n q) ((skeJob n q).places cls header v (some 0x28))
      (makeRecord bmk (s.bench b).ctl.epoch.toNat cls header v) false) := by
  subst hcls
  obtain ⟨D, hwhole, hD, hnone⟩ := whole_takes ho hA hB (JC.meets_wr_mono hC (le_recordLen _)) (.inl rfl) (.inl ⟨rfl, rfl⟩)
  obtain ⟨E, hrandom, hE⟩ := Bench.takes_random hD (hnone rfl) hserves
  rw [hlen] at ht
  have hrun := skeGenerate_ok hlen hpos hlt hwhole ht hrandom htemplate hfit hsys (Bench.takes_current hE hbmk)
    (J.roomC_ok (offers_mode ho) (JC.takes_meets hE hC))
  rw [Bench.takes_time hE, Bench.takes_ctl hE] at hrun
  exact keyForm_takes ho hop hvar rfl (exec_keyGenerate b n s) ((skeLoadJob_generate (offers_flagsOk ho hbyte) hvar).trans hrun)

theorem keyTrust_takes (hvar : (skeJob n q).var = 3) (hlo : 80 ≤ (skeJob n q).len) (hhi : (skeJob n q).len ≤ 48 + 2592)
    (haux : (skeJob n q).aux < 2 ^ 16) (hsys : q.sys = true) {t data : List Byte}
    (ht : (((skeJob n q).bytesAt (s.bench b) 1 (skeJob n q).len).drop 16).take 32 = t)
    (hdata : ((skeJob n q).bytesAt (s.bench b) 1 (skeJob n q).len).drop 48 = data)
    (hA : (skeJob n q).meets (s.bench b) 0 .zero none)
    (hB : (skeJob n q).meets (s.bench b) 1 (.hd (skeJob n q).len) none)
    (hC : (skeJob n q).meets (s.bench b) 2 (.wr (recordLen 48)) none) (htemplate : templateOk t = true)
    (hlen : (skeJob n q).len = 48 + publicLen (hdrDetail t)) (hpublic : publicOk (hdrDetail t) data = true) {row : ClassRow}
    (hfit : fitClass (classRows.filter fun r => r.cls = 0x11 || r.cls = 0x15) t = .ok row) {bmk : List Byte}
    (hbmk : (s.bench b).vault.current = some bmk) :
    let header := finishHeader t 48 (s.bench b).time.sec false
    s.takesJob b (.keyTrust b n) (skeUnit n) r q (placing (skeJob n q) ((skeJob n q).places row.cls header (sha384 data) (some 0x2A))
      (makeRecord bmk (s.bench b).ctl.epoch.toNat row.cls header (sha384 data)) false) := by
  have hdlen : data.length = publicLen (hdrDetail t) := by
    rw [← hdata, List.length_drop, JC.bytesAt, Mem.length_read]
    omega
  obtain ⟨D, hwhole, hD, -⟩ := whole_takes ho hA hB (JC.meets_wr_mono hC (le_recordLen _)) (.inl rfl) (.inl ⟨rfl, rfl⟩)
  have hrun := skeTrust_ok hlo hhi haux hwhole ht hdata htemplate hfit hsys (Bench.takes_current hD hbmk) hdlen hpublic
    (J.roomC_ok (offers_mode ho) (JC.takes_meets hD hC))
  rw [Bench.takes_time hD, Bench.takes_ctl hD] at hrun
  exact keyForm_takes ho hop hvar rfl (exec_keyTrust b n s) ((skeLoadJob_trust (offers_flagsOk ho hbyte) hvar).trans hrun)

theorem keyRewrap_takes (hvar : (skeJob n q).var = 4) (hlen : (skeJob n q).len = 0) (haux : (skeJob n q).aux = 0)
    {k : KeyCopy} (hA : (skeJob n q).meets (s.bench b) 0 (.handle { classes := classRows.map (·.cls), modes := [] } true) (some k))
    (hB : (skeJob n q).meets (s.bench b) 1 .zero none) {bmk : List Byte} (hbmk : (s.bench b).vault.current = some bmk) {rec' : List Byte}
    (hrec : makeRecord bmk (s.bench b).ctl.epoch.toNat k.cls k.header k.value = rec')
    (hC : (skeJob n q).meets (s.bench b) 2 (.wr (max 144 rec'.length)) none) :
    s.takesJob b (.keyRewrap b n) (skeUnit n) r q { (skeJob n q).gives rec' with result := rec'.length } := by
  obtain ⟨D, hwhole, hD, -⟩ := whole_takes ho hA hB (JC.meets_wr_mono hC (Nat.le_max_left ..)) (.inl rfl) (.inl ⟨rfl, rfl⟩)
  have hrun := skeRewrap_ok hlen haux hwhole rfl (Bench.takes_current hD hbmk) (J.roomC_ok (offers_mode ho) (by
    rw [Bench.takes_ctl hD, hrec]
    exact JC.meets_wr_mono (JC.takes_meets hD hC) (Nat.le_max_right ..)))
  rw [Bench.takes_ctl hD, hrec] at hrun
  exact keyForm_takes ho hop hvar rfl (exec_keyRewrap b n s) ((skeLoadJob_rewrap (offers_flagsOk ho hbyte) hvar).trans hrun)

end

end

end

end Sys2Proof.Machine

/-!
SUPPORT. The SKE takes a derivation, an IMPORT or an EXPORT (R453, R454, R502); O26.
-/

namespace Sys2Proof.Machine

section
variable {s : State} {b : BenchNo} {n : Fin 4} {r : Fin 4} {q : Sub} (ho : (s.bench b).offers (skeUnit n) r q)
  (hbyte : (skeJob n q).byte 2 = 0)
include ho hbyte

/-! ## Derivations (R502) -/

section
variable {t data : List Byte} {k : KeyCopy} {row : ClassRow} (hop : (skeJob n q).op = 0x20) (haux : (skeJob n q).aux < 2 ^ 16)
  (ht : (((skeJob n q).bytesAt (s.bench b) 1 (skeJob n q).len).drop 16).take 32 = t)
  (hdata : ((skeJob n q).bytesAt (s.bench b) 1 (skeJob n q).len).drop 48 = data) (htemplate : templateOk t = true)
  (hB : (skeJob n q).meets (s.bench b) 1 (.hd (skeJob n q).len) none) (hC : (skeJob n q).meets (s.bench b) 2 .zero none)
include hop haux ht hdata htemplate hB hC

theorem deriveEmv_takes (hvar : (skeJob n q).var = 8) (hlen : (skeJob n q).len = 62)
    (hA : (skeJob n q).meets (s.bench b) 0 (.handle { classes := [0x06, 0x07], modes := ['X'] } false) (some k))
    (hfit : fitClass (classRows.filter fun r => [0x05, 0x08].contains r.cls) t = .ok row) {digits : List Nat} {v : List Byte}
    (hdigits : (nibbles (data.take 10)).take (data.getD 10 0).toNat = digits)
    (hv : emvSession (algOf k.header = 'A') (emvMaster (algOf k.header = 'A') k.value digits (data.getD 11 0).toNat) ((data.drop 12).take 2) = v)
    (halg : hdrAlg t = hdrAlg k.header) (hdetail : hdrDetail t = hdrDetail k.header) (hvlen : v.length = k.value.length)
    (hlo : 12 ≤ (data.getD 10 0).toNat) (hhi : (data.getD 10 0).toNat ≤ 19) (hall : digits.all (· ≤ 9) = true) :
    s.takesJob b (.deriveEmv b n) (skeUnit n) r q ((skeJob n q).derives t v row.cls (s.bench b).time.sec) := by
  rw [hlen] at ht hdata hB
  obtain ⟨D, hwhole, hD, -⟩ := whole_takes ho hA hB hC (.inl rfl) (.inl ⟨rfl, rfl⟩)
  have hrun := skeDeriveEmv_ok haux ht hdata rfl htemplate hlen hwhole hfit hdigits hv halg hdetail hvlen hlo hhi hall
  rw [Bench.takes_time hD] at hrun
  exact keyForm_takes ho hop hvar rfl (exec_deriveEmv b n s) ((skeLoadJob_deriveEmv (offers_flagsOk ho hbyte) hvar).trans hrun)

section
variable (hvar : (skeJob n q).var = 9) (hlen : (skeJob n q).len = 60)
  (hA : (skeJob n q).meets (s.bench b) 0 (.handle { classes := [0x02, 0x03], modes := ['X'] } false) (some k))
  (hfit : fitClass (classRows.filter fun r => [0x04, 0x05, 0x08].contains r.cls) t = .ok row)
  (hcounter : dukptCounterOk (algOf k.header = 'A') data = true)
include hvar hlen hA hfit hcounter

theorem deriveDukpt_takes_aes (haes : algOf k.header = 'A') :
    s.takesJob b (.deriveDukpt b n) (skeUnit n) r q ((skeJob n q).derives t
      (dukptAesWorking (if k.cls = 2 then dukptAesInitial k.value data else k.value) data (dukptUsage row.cls (hdrMode t))
        (if hdrDetail t = 8 then 5 else dukptAlg (3 ≤ hdrDetail t) (detailLen (hdrDetail t))) (detailLen (hdrDetail t)))
      row.cls (s.bench b).time.sec) := by
  rw [hlen] at ht hdata hB
  obtain ⟨D, hwhole, hD, -⟩ := whole_takes ho hA hB hC (.inl rfl) (.inl ⟨rfl, rfl⟩)
  have hrun := skeDeriveDukpt_aes haux ht hdata rfl htemplate hlen hwhole hfit hcounter haes
  rw [Bench.takes_time hD] at hrun
  exact keyForm_takes ho hop hvar rfl (exec_deriveDukpt b n s) ((skeLoadJob_deriveDukpt (offers_flagsOk ho hbyte) hvar).trans hrun)

theorem deriveDukpt_takes_tdes (haes : algOf k.header ≠ 'A') (hdetail : hdrDetail t = 1) {txn : List Byte}
    (htxn : dukptTdesKey (if k.cls = 2 then dukptTdesInitial k.value (data.take 10) else k.value) (data.take 10) = txn) :
    s.takesJob b (.deriveDukpt b n) (skeUnit n) r q ((skeJob n q).derives t
      (if row.cls = 4 then tdesVariant 7 txn else if row.cls = 5 then tdesVariant 6 txn else tdesDataKey txn) row.cls (s.bench b).time.sec) := by
  rw [hlen] at ht hdata hB
  obtain ⟨D, hwhole, hD, -⟩ := whole_takes ho hA hB hC (.inl rfl) (.inl ⟨rfl, rfl⟩)
  have hrun := skeDeriveDukpt_tdes haux ht hdata rfl htemplate hlen hwhole hfit hcounter haes hdetail htxn
  rw [Bench.takes_time hD] at hrun
  exact keyForm_takes ho hop hvar rfl (exec_deriveDukpt b n s) ((skeLoadJob_deriveDukpt (offers_flagsOk ho hbyte) hvar).trans hrun)

end

theorem deriveKdf_takes (hvar : (skeJob n q).var = 10) (hlo : 49 ≤ (skeJob n q).len) (hhi : (skeJob n q).len ≤ 304)
    (hA : (skeJob n q).meets (s.bench b) 0 (.handle { classes := [0x09], modes := ['X'] } false) (some k))
    (hfit : fitClass (classRows.filter fun r => [1, 2, 3, 4, 5, 6, 7, 8, 9].contains r.cls) t = .ok row) :
    s.takesJob b (.deriveKdf b n) (skeUnit n) r q ((skeJob n q).derives t
      (kdfCounter (if hdrDetail k.header = 8 then hmac sha256 64 k.value else cmac (aesEnc k.value) 16) data (detailLen (hdrDetail t)))
      row.cls (s.bench b).time.sec) := by
  obtain ⟨D, hwhole, hD, -⟩ := whole_takes ho hA hB hC (.inl rfl) (.inl ⟨rfl, rfl⟩)
  have hrun := skeDeriveKdf_ok haux ht hdata rfl htemplate hlo hhi hwhole hfit
  rw [Bench.takes_time hD] at hrun
  exact keyForm_takes ho hop hvar rfl (exec_deriveKdf b n s) ((skeLoadJob_deriveKdf (offers_flagsOk ho hbyte) hvar).trans hrun)

end

/-! ## IMPORT and EXPORT (R453, R454) -/

theorem keyImport_takes (hop : (skeJob n q).op = 0x21) (hvar : (skeJob n q).var = 0) (hlen : 64 < (skeJob n q).len) (haux : (skeJob n q).aux < 2 ^ 16)
    {k : KeyCopy} (hA : (skeJob n q).meets (s.bench b) 0 (.handle { classes := [0x01], modes := ['B', 'D'] } false) (some k))
    (hB : (skeJob n q).meets (s.bench b) 1 (.hd (skeJob n q).len) none) {bmk : List Byte} (hbmk : (s.bench b).vault.current = some bmk)
    {input head key v : List Byte} (hinput : (skeJob n q).bytesAt (s.bench b) 1 (skeJob n q).len = input)
    (hsize : leNat ((input.drop 28).take 2) = (skeJob n q).len - 48)
    (hopen : openBlock (algOf k.header = 'A') k.value (input.drop 48) = .ok (head, key)) {d : Nat}
    (hvalue : importValue (Char.ofNat (head.getD 7 0).toNat) key = some (d, v)) {row : ClassRow}
    (hfit : fitClass (classRows.filter fun r => r.imports) (importHeader input head d) = .ok row)
    (hC : (skeJob n q).meets (s.bench b) 2 (.wr (recordLen v.length)) none) :
    let header := finishHeader (importHeader input head d) v.length (s.bench b).time.sec false
    s.takesJob b (.keyImport b n) (skeUnit n) r q (placing (skeJob n q) ((skeJob n q).places row.cls header v (some 0x29))
      (makeRecord bmk (s.bench b).ctl.epoch.toNat row.cls header v) false) := by
  obtain ⟨D, hwhole, hD, -⟩ := whole_takes ho hA hB (JC.meets_wr_mono hC (le_recordLen _)) (.inl rfl) (.inl ⟨rfl, rfl⟩)
  have hrun := skeImport_ok (offers_flagsOk ho hbyte) hvar hlen haux hwhole hinput rfl (Bench.takes_current hD hbmk) hsize hopen hvalue hfit
    (J.roomC_ok (offers_mode ho) (JC.takes_meets hD hC))
  rw [Bench.takes_time hD, Bench.takes_ctl hD] at hrun
  exact ske_takes ho (exec_keyImport b n s) (by rw [skeKey, hop]; rfl) (by rw [skeRun_import hop]; exact hrun)

theorem keyExport_takes (hop : (skeJob n q).op = 0x22) (hvar : (skeJob n q).var = 0) (hlen : (skeJob n q).len = 0) (haux : (skeJob n q).aux = 0)
    (hwf : Table.wf Slot.zero (s.bench b).vault.slots = true) {k x : KeyCopy}
    (hA : (skeJob n q).meets (s.bench b) 0 (.handle { classes := [0x01], modes := ['B', 'E'] } false) (some k))
    (hB : (skeJob n q).meets (s.bench b) 1 (.handle { classes := (classRows.filter fun r => r.imports).map (·.cls), modes := [] } false) (some x))
    (hserves : (s.bench b).serves 16) (hN : Char.ofNat (hdrExport x.header) ≠ 'N')
    (hS : Char.ofNat (hdrExport x.header) = 'S' → (s.bench b).vault.ctrl.getLsbD 1 = true)
    (hstrength : strength (hdrDetail x.header) x.value.length ≤ strength (hdrDetail k.header) k.value.length)
    (hC : (skeJob n q).meets (s.bench b) 2 (.wr (max 64 (exportTotal (algOf k.header = 'A') x))) none) :
    let blk := exportBlock (algOf k.header = 'A') k x ((s.bench b).drawn 16)
    s.takesJob b (.keyExport b n) (skeUnit n) r q { (skeJob n q).gives blk with
      result := blk.length
      record := some (0x2E, hdrTenant x.header, keyData x.header x.cls x.slot ((s.bench b).slot x.slot).gen ++ hdrKeyid k.header) } := by
  obtain ⟨D, hwhole, hD, -⟩ := whole_takes ho hA hB (JC.meets_wr_mono hC (Nat.le_max_left ..)) hserves (.inr hwf)
  have hctrl : D.vault.ctrl = (s.bench b).vault.ctrl := (Bench.sameBut_ctrl hD).trans rfl
  have hgen : (D.slot x.slot).gen = ((s.bench b).slot x.slot).gen := (Bench.sameBut_gen hD hwf x.slot).trans rfl
  have hrun := skeExport_ok (offers_flagsOk ho hbyte) hvar hlen haux hwhole rfl rfl hN (by rw [hctrl]; exact hS) hstrength
    (J.roomC_ok (offers_mode ho) (JC.meets_wr_mono (JC.takes_meets hD hC) (Nat.le_max_right ..)))
  rw [hgen] at hrun
  exact ske_takes ho (exec_keyExport b n s) (by rw [skeKey, hop]; rfl) (by rw [skeRun_export hop]; exact hrun)

end

/-! ## O26 -/

section
variable {s : State} {b : BenchNo} {c : VaultCmd} (hmem : (s.bench b).memoryRuns = true) (hcmd : (s.bench b).vault.cmd = some c)
  (hroom : (s.bench b).jrnRoom ((s.bench b).vaultRecords c) = true) (hfirst : ((s.bench b).slot c.slot).first = true)
  (hrun : ((s.bench b).slot c.slot).run = 0)
include hmem hcmd hroom hfirst hrun

/-- The commands on a key of one slot (R426, R427, R434). -/
theorem exec_vaultCommandEnd_slot :
    let B := s.bench b
    let f := c.slot
    let k := B.slot f
    let ends (result : Byte) (v : Vault) : Prop := ∃ E, exec (.vaultCommandEnd b) s = s.gives b E ∧ E.vault = { v with cmd := none, result := result }
    (c.op = 2 → B.ckLocked f = true → ends 0x0B B.vault)
    ∧ (c.op = 2 → B.ckLocked f = false → k.gen ≠ 0xFFFF → ends 0 (B.setSlot f { Slot.zero with gen := k.gen + 1 }).vault)
    ∧ (c.op = 3 → k.gen ≠ 0xFFFF → ends 0 (B.setSlot f { k with gen := k.gen + 1 }).vault)
    ∧ (c.op = 2 → B.ckLocked f = false → k.gen = 0xFFFF → ends 0 (B.setSlot f { Slot.zero with gen := 0xFFFF, retired := true }).vault)
    ∧ (c.op = 3 → k.gen = 0xFFFF → ends 0 (B.setSlot f { Slot.zero with gen := 0xFFFF, retired := true }).vault)
    ∧ (c.op = 4 → ends 0 (B.setSlot f { k with pin := true }).vault)
    ∧ (c.op = 5 → ends 0 (B.setSlot f { k with pin := false }).vault) := by
  have hacts := fun {n result v} => exec_vaultCommandEnd_acts hmem hcmd hroom (n := n) (result := result) (v := v)
  refine ⟨fun hop hlock => hacts ?_ (n := 0x0B) rfl, fun hop hlock hgen => hacts ?_ (n := 0) rfl, fun hop hgen => hacts ?_ (n := 0) rfl,
    fun hop hlock hgen => hacts ?_ (n := 0) rfl, fun hop hgen => hacts ?_ (n := 0) rfl, fun hop => hacts ?_ (n := 0) rfl, fun hop => hacts ?_ (n := 0) rfl⟩
  · rw [Bench.vaultAct_delete_locked hfirst hop hlock]; exact ⟨rfl, rfl⟩
  · rw [Bench.vaultAct_delete hfirst hop hlock]
    exact ⟨rfl, by rw [Bench.deleteRun_vault hrun, Bench.releaseSlot_advances hgen]⟩
  · obtain ⟨hresult, hvault⟩ := Bench.vaultAct_revoke hfirst hop
    exact ⟨hresult, by rw [hvault, Bench.revokeRun_advances hrun hgen]⟩
  · rw [Bench.vaultAct_delete hfirst hop hlock]
    exact ⟨rfl, by rw [Bench.deleteRun_vault hrun, Bench.releaseSlot_retires hgen]⟩
  · obtain ⟨hresult, hvault⟩ := Bench.vaultAct_revoke hfirst hop
    exact ⟨hresult, by rw [hvault, Bench.revokeRun_retires hrun hgen, Bench.releaseSlot_retires hgen]⟩
  · rw [Bench.vaultAct_pin hfirst hrun hop]; exact ⟨rfl, rfl⟩
  · rw [Bench.vaultAct_unpin hfirst hrun hop]; exact ⟨rfl, rfl⟩

end

/-- Settles O26: a command's end is its action on the vault with the result set; a form's completion is that of its computation, whose checks
and reads change of the bench nothing that the form looks at again. -/
theorem vaultCommands : Obligations.VaultCommands := by
  unfold Obligations.VaultCommands
  intro s b w
  refine ⟨fun hok row hrow => exec_vaultRow_of_accessOk hok hrow, fun hmem c hcmd => ⟨exec_vaultCommandEnd_waits hmem hcmd, fun hroom => ?_⟩,
    fun r q n => ?_⟩
  case refine_1 =>
    have hacts := fun {n result v} => exec_vaultCommandEnd_acts hmem hcmd hroom (n := n) (result := result) (v := v)
    refine ⟨fun hfirst hop => hacts (n := 6) ?_ rfl, fun hop => ?_, fun hfirst hrun => exec_vaultCommandEnd_slot hmem hcmd hroom hfirst hrun,
      fun hop hnone => hacts (n := 0) ?_ rfl, fun hop => hacts (n := 0) ?_ rfl, fun hop => hacts (n := 0) (Bench.vaultAct_forget hop) rfl⟩
    · rw [Bench.vaultAct_notFirst hfirst hop]; exact ⟨rfl, rfl⟩
    · refine ⟨((s.bench b).vaultInfo c.slot).vault.info, by simp [Bench.vaultInfo, VaultCmd.slot], 
        hacts (n := if ((s.bench b).slot c.slot).first then 0 else 6) ?_ ?_⟩
      · rw [Bench.vaultAct_info hop]; exact ⟨rfl, rfl⟩
      · rw [VaultCmd.slot]; split <;> rfl
    · rw [Bench.vaultAct_purge hop hnone]; exact ⟨rfl, rfl⟩
    · rw [Bench.vaultAct_abort hop]; exact ⟨rfl, Bench.cerEnd_vault ..⟩
  case refine_2 =>
    refine ⟨?_, ?_, ?_, ?_, ?_, ?_, ?_⟩
    · rintro ⟨ho, hop, hvar, hbyte⟩ hlo hhi h16 haux hA hB hC cls header v prev hopen
      exact keyLoad_takes ho hbyte hop hvar hlo hhi h16 haux hA hB hC hopen
    · rintro ⟨ho, hop, hvar, hbyte⟩ hlen cls len v header hpos hlt hA hB hC hserves htemplate ⟨row, hfit⟩ hsys bmk hbmk
      exact keyGenerate_takes ho hbyte hop hvar hlen rfl hpos hlt rfl hA hB hC hserves htemplate hfit hsys hbmk
    · rintro ⟨ho, hop, hvar, hbyte⟩ hlo hhi haux hsys hA hB hC htemplate hlen hpublic row hfit bmk hbmk
      exact keyTrust_takes ho hbyte hop hvar hlo hhi haux hsys rfl rfl hA hB hC htemplate hlen hpublic hfit hbmk
    · rintro ⟨ho, hop, hvar, hbyte⟩ hlen haux k hA hB bmk hbmk rec' hC
      exact keyRewrap_takes ho hbyte hop hvar hlen haux hA hB hbmk rfl hC
    · intro htemplate haux hB hC row k aes
      refine ⟨?_, ?_, ?_⟩
      · rintro ⟨ho, hop, hvar, hbyte⟩ hlen hA hfit pl digits v halg hdetail hvlen hlo hhi hall
        exact deriveEmv_takes ho hbyte hop haux rfl rfl htemplate hB hC hvar hlen hA hfit rfl rfl halg hdetail hvlen hlo hhi hall
      · rintro ⟨ho, hop, hvar, hbyte⟩ hlen hA hfit hcounter d
        refine ⟨fun haes => ?_, fun haes hdetail => ?_⟩
        · exact deriveDukpt_takes_aes ho hbyte hop haux rfl rfl htemplate hB hC hvar hlen hA hfit hcounter (of_decide_eq_true haes)
        · exact deriveDukpt_takes_tdes ho hbyte hop haux rfl rfl htemplate hB hC hvar hlen hA hfit hcounter (of_decide_eq_false haes) hdetail rfl
      · rintro ⟨ho, hop, hvar, hbyte⟩ hlo hhi hA hfit
        exact deriveKdf_takes ho hbyte hop haux rfl rfl htemplate hB hC hvar hlo hhi hA hfit
    · rintro ⟨ho, hop, hvar, hbyte⟩ hlen haux k hA hB bmk hbmk hsize head key d v hopen hvalue pre row hfit hC
      exact keyImport_takes ho hbyte hop hvar hlen haux hA hB hbmk rfl hsize hopen hvalue hfit hC
    · rintro ⟨ho, hop, hvar, hbyte⟩ hlen haux hwf k x hA hB hserves ex hN hS hstrength aes bs d key m total plain head ke ka mac ct blk hC
      exact keyExport_takes ho hbyte hop hvar hlen haux hwf hA hB hserves hN hS hstrength hC

end Sys2Proof.Machine

/-!
SUPPORT. The end of the pattern store's LOAD (R16, R563): the memory that it leaves, and a bench in which the copy meets an uncorrectable error
while the ring of violation records is in use (R390, R392, R408); O30.
-/

namespace Sys2Proof.Machine

/-! ## The end of LOAD -/

section
variable {s : State} {b : BenchNo} {B C : Bench}

theorem State.gives_injective (h : s.gives b B = s.gives b C) : B = C := by
  simp only [State.gives, Host.Outcome.next.injEq] at h
  rw [← State.bench_setBench_self s b B, h, State.bench_setBench_self]

theorem exec_patLoadEnd_of_runs (h : (s.bench b).unitRuns 14 = true) : exec (.patLoadEnd b) s = s.gives b (s.bench b).patLoadEnd :=
  State.onUnit_of_unitRuns h

/-- LOAD's end leaves the memory that the read of the image leaves, which is the supervisor core's and carries its ORIGIN. -/
theorem Bench.patLoadEnd_mem {src len : Nat} (hbusy : B.pat.busy = some (.load src len)) :
    B.patLoadEnd.mem = (B.unitRead 0x10 B.bscOrigin (0x1000000000 + src) len).2.mem := by
  unfold Bench.patLoadEnd
  rw [hbusy]
  dsimp only
  split <;> rfl

/-- What the statement says of it: the memory that a read under ORIGIN 0 leaves. -/
theorem patLoadEnd_mem_of_patternStore (h : Obligations.PatternStore) (hruns : B.unitRuns 14 = true) {src len : Nat}
    (hbusy : B.pat.busy = some (.load src len)) : B.patLoadEnd.mem = (B.unitRead 0x10 0 (0x1000000000 + src) len).2.mem := by
  obtain ⟨s, hbench⟩ : ∃ s : State, s.bench 0 = B := ⟨State.reset.setBench 0 B, State.bench_setBench_self ..⟩
  obtain ⟨⟨⟨l, bad⟩, C⟩, hread⟩ : ∃ p, B.unitRead 0x10 0 (0x1000000000 + src) len = p := ⟨_, rfl⟩
  obtain ⟨-, hunit, -⟩ := h s 0 .dmc
  rw [hbench] at hunit
  obtain ⟨hload, -⟩ := hunit hruns
  have hend := hload src len l bad C hbusy hread
  rw [exec_patLoadEnd_of_runs (hbench ▸ hruns), hbench] at hend
  rw [hread, State.gives_injective hend]

end

/-! ## A LOAD that meets an uncorrectable error -/

/-- The filter has its default rules, its ring of violation records stands at the start of working SRAM, and a LOAD of 64 bytes is under way
whose image stands on a line with an error that has not come to light. -/
def damagedLoad : Bench :=
  { Bench.zero 0 with
    rst := { Rst.zero with released := true, tagClearDone := true, firstFetch := true }
    maf := { mafBoot none with vlock := true }
    mem := { Mem.zero with latent := [0x1000001000 / 64] }
    pat := { Pat.boot none with busy := some (.load 0x1000 64) } }

/-- The low byte of ORIGIN in the record at the start of working SRAM (R392). -/
def Mem.recordOrigin (m : Mem) : Byte := m.byte 0x100000000C

theorem damagedLoad_runs : damagedLoad.unitRuns 14 = true := by decide +kernel

/-- The error's record names the supervisor core, whose ORIGIN ends in 0xFF (R16). -/
theorem damagedLoad_recordOrigin_bsc :
    (damagedLoad.unitRead 0x10 damagedLoad.bscOrigin (0x1000000000 + 0x1000) 64).2.mem.recordOrigin = 0xFF := by decide +kernel
theorem damagedLoad_recordOrigin_zero :
    (damagedLoad.unitRead 0x10 0 (0x1000000000 + 0x1000) 64).2.mem.recordOrigin = 0 := by decide +kernel

/-- Refutes O30: its clause on the end of LOAD reads the image under ORIGIN 0, where the copy carries the ORIGIN of the supervisor core (R16,
R563). Where the read meets an uncorrectable error (`damagedLoad`), the ORIGIN enters a violation record in memory, 0xFF against 0. -/
theorem not_patternStore : ¬ Obligations.PatternStore := by
  intro h
  have hbusy : damagedLoad.pat.busy = some (.load 0x1000 64) := rfl
  have hmem := (Bench.patLoadEnd_mem hbusy).symm.trans (patLoadEnd_mem_of_patternStore h damagedLoad_runs hbusy)
  have horigin := congrArg Mem.recordOrigin hmem
  rw [damagedLoad_recordOrigin_bsc, damagedLoad_recordOrigin_zero] at horigin
  exact absurd horigin (by decide)

end Sys2Proof.Machine
